-- ==== Sys2Proof/Word.lean ====
section
/-! DEFINITION. The plain words of the WL16: bytes, the wrapping counters, the index types, the limits of R1,
and the big-endian bytes of a number (R181).  -/

namespace Sys2Proof

/-- One byte of a frame. -/
abbrev Byte := BitVec 8

/-- A revision mark, 0 to 255, wrapping (R9). -/
abbrev Mark := BitVec 8

/-- The works clock's seconds, 0 to 4 294 967 295, wrapping (R167). -/
abbrev Seconds := BitVec 32

/-- A set of heads as SET_DEVICE writes it: bit h for head h (R194). -/
abbrev HeadMask := BitVec 16

/-- One bit for each of the sixty-six event flags, numbered as R181 numbers them. -/
abbrev FlagWord := BitVec 66

/-- A head position, 0 to 15. -/
abbrev HeadIx := Fin 16

/-- A feed slot, 0 to 3. -/
abbrev SlotIx := Fin 4

/-- A floor panel; index i is the panel of address i + 1 (R189). -/
abbrev PanelIx := Fin 8

/-- The top of every length counter, 4 294 967 295 mm (R1). -/
def lengthTop : Nat := 4294967295

/-- One millimetre in fine units (R83). -/
def fine : Nat := 65536

/-- The top of the made rows, 65 535 (R22). -/
def rowTop : Nat := 65535

/-- Tags lie below 2^48 (the scope file, Tags and revision marks). -/
def tagTop : Nat := 281474976710656

/-- `w` bytes of `n`, most significant byte first (R181). -/
def beBytes : Nat → Nat → List Byte
  | 0, _ => []
  | w + 1, n => BitVec.ofNat 8 (n / 256 ^ w) :: beBytes w n

/-- The number that bytes spell, most significant byte first (R181). -/
def beNat (bs : List Byte) : Nat := bs.foldl (fun n b => n * 256 + b.toNat) 0

/-- A truth value as one bit of a coded byte. -/
def bit (b : Bool) (k : Nat) : Nat := if b then 2 ^ k else 0

end Sys2Proof
end

