-- ==== Sys2Proof/Syntax.lean ====
section
/-! DEFINITION. The commands of the WL16: one constructor for each row of spec/opcode_table.json, with the
operands that the row's rule names. Numbers of a request stand as the request's body carries them (R181). -/

namespace Sys2Proof

/-- The two ports that bring requests (R33). A panel's request comes from the panel the link has granted (R192). -/
inductive Port where
  | lineComputer
  | floorPanel
  deriving DecidableEq, Repr

/-- What one head's four sense pins read at a tick: `true` is low, grounded by the plug (R54). -/
structure SensePins where
  p1 : Bool
  p2 : Bool
  k1 : Bool
  k2 : Bool
  deriving DecidableEq, Repr

/-- One byte seen on the panels' line pair: a whole byte, or one whose stop bit was missing (R191, R192). -/
inductive LineByte where
  | whole (b : Byte)
  | badStop
  deriving DecidableEq, Repr

/-- What a frame of the line computer has beside its whole bytes: the bits of an incomplete last byte (R177), and the stretch of
the frame that the command takes (log entry 7). With `resumes` absent it begins at the fall of chip select; with a number, after
so many whole bytes, chip select having been low since. With `pauses` absent it goes on to the rise of chip select; with a number it
ends after so many whole bytes of the frame, and other commands may come before the frame goes on. -/
structure FrameEdges where
  extraBits : Fin 8
  resumes : Option Nat
  pauses : Option Nat
  deriving DecidableEq, Repr

/-- One item of a list in CREATE, AMEND, SET_HEAD or SET_DEVICE (R181): its item number, and its value or, in
AMEND, the request to make the field absent. An item whose number is not in the request's table has no readable
value and stands here with none. -/
structure Item where
  number : Nat
  value : Option Nat
  deriving DecidableEq, Repr

/-- The commands: every row of the opcode table. -/
inductive Instr where
  | resetN
  | tick (pins : Vector SensePins 16)
  | senseSettled (h : HeadIx)
  | trimPeriodStart
  | encPulse (h : HeadIx)
  | spinPulse (h : HeadIx)
  | runRise (h : HeadIx)
  | runFall (h : HeadIx)
  | cutWaitExpiry (h : HeadIx)
  | flawRise (h : HeadIx)
  | flawFall (h : HeadIx)
  | knotPulse (h : HeadIx)
  | rowPulse (h : HeadIx)
  | rowExpiry (h : HeadIx)
  | excessWatchEnd (h : HeadIx)
  | lookup (p : Port) (tag : Nat)
  | nextRecord (p : Port) (after kind state : Nat)
  | readSpans (p : Port) (tag : Nat)
  | readSources (p : Port) (tag first : Nat)
  | create (p : Port) (tag kind : Nat) (spec : List Item)
  | amend (p : Port) (tag : Nat) (mark : Mark) (changes : List Item)
  | addSpan (p : Port) (tag : Nat) (mark : Mark) (lo hi kind : Nat)
  | conclude (p : Port) (tag : Nat) (mark : Mark)
  | band (p : Port) (tag : Nat) (mark : Mark)
  | retire (p : Port) (tag : Nat) (mark : Mark)
  | bindProduct (p : Port) (head tag : Nat) (mark : Mark)
  | bindSource (p : Port) (head tag : Nat) (mark : Mark)
  | storeFullNotification (h : HeadIx)
  | bindFeed (p : Port) (head slot tag : Nat) (mark : Mark)
  | unbindFeed (p : Port) (head slot : Nat)
  | release (p : Port) (head : Nat)
  | enqueue (p : Port) (head length count rule : Nat)
  | clearQueue (p : Port) (head : Nat)
  | headStatus (p : Port) (head : Nat)
  | setHead (p : Port) (head : Nat) (settings : List Item)
  | setClock (p : Port) (seconds : Nat)
  | readEvents (p : Port)
  | clearEvents (p : Port) (marked : FlagWord)
  | setDevice (p : Port) (settings : List Item)
  | unknownRequest (p : Port) (code : Nat)
  | spiRequestFrame (body : List Byte) (edges : FrameEdges)
  | spiMalformedFrame (rest : List Byte) (edges : FrameEdges)
  | spiDiscardFrame (bytes : List Byte) (edges : FrameEdges)
  | spiFetchFrame (bytes : List Byte) (edges : FrameEdges)
  | call
  | panelSlotEnd (received : List LineByte)
  | panelRequestFrame (received : List LineByte)
  | panelFrameDeadline
  | panelResponseSent
  deriving DecidableEq, Repr

end Sys2Proof
end

