-- ==== Sys2Proof/Decode.lean ====
section
/-! DEFINITION. Reading a request's body (R34, R181) into a command, and writing a command's body from the same
tables. The opcode table gives no row any bits, so no word spells a command. -/

namespace Sys2Proof

/-- The width in bytes of a specification item of CREATE and AMEND (R181), none for a number that names no item. -/
def specWidth : Nat → Option Nat
  | 1 => some 2
  | 2 => some 4
  | 3 => some 1
  | 4 => some 4
  | 5 => some 2
  | 6 => some 2
  | 7 => some 2
  | 8 => some 2
  | _ => none

/-- The width in bytes of a head setting of SET_HEAD, numbered in the order of R77's table (R181). -/
def settingWidth : Nat → Option Nat
  | 1 => some 4
  | 2 => some 1
  | 3 => some 1
  | 4 => some 1
  | 5 => some 2
  | 6 => some 2
  | 7 => some 2
  | 8 => some 1
  | 9 => some 2
  | 10 => some 2
  | 11 => some 2
  | 12 => some 4
  | 13 => some 1
  | _ => none

/-- The width in bytes of a device setting of SET_DEVICE (R181): clear mode 1, coil tag prefix 2, coil serial 3, the
head masks of the panels 4 to 11, the mask of flag k at 16 + k and the route of flag k at 96 + k. -/
def deviceWidth (n : Nat) : Option Nat :=
  if n = 1 then some 1
  else if n = 2 then some 2
  else if n = 3 then some 4
  else if 4 ≤ n ∧ n ≤ 11 then some 2
  else if 16 ≤ n ∧ n ≤ 81 then some 1
  else if 96 ≤ n ∧ n ≤ 161 then some 1
  else none

/-- Numbers of the given widths from the front of a body, most significant byte first, with what follows them. -/
def readFixed : List Nat → List Byte → Option (List Nat × List Byte)
  | [], bs => some ([], bs)
  | w :: ws, bs =>
    if bs.length < w then none
    else (readFixed ws (bs.drop w)).map fun r => (beNat (bs.take w) :: r.1, r.2)

/-- The numbers of a body that holds exactly fields of the given widths (R34). -/
def readExact (ws : List Nat) (bs : List Byte) : Option (List Nat) :=
  match readFixed ws bs with
  | some (ns, []) => some ns
  | _ => none

/-- The items of a list of `n` items (R181). An item number that names no item has no width: the reading ends at
it and keeps the item, for the field check to answer (log entry 10). In AMEND bit 7 makes the field absent. -/
def readItems (width : Nat → Option Nat) (amend : Bool) : Nat → List Byte → Option (List Item)
  | 0, [] => some []
  | 0, _ :: _ => none
  | _ + 1, [] => none
  | n + 1, b :: rest =>
    if amend && decide (128 ≤ b.toNat) then
      (readItems width amend n rest).map fun l => ⟨b.toNat - 128, none⟩ :: l
    else
      match width b.toNat with
      | none => some [⟨b.toNat, none⟩]
      | some w =>
        if rest.length < w then none
        else (readItems width amend n (rest.drop w)).map fun l => ⟨b.toNat, some (beNat (rest.take w))⟩ :: l

/-- A count byte and that many items, and nothing after them. -/
def readList (width : Nat → Option Nat) (amend : Bool) : List Byte → Option (List Item)
  | [] => none
  | n :: rest => readItems width amend n.toNat rest

/-- The flag list of CLEAR_EVENTS: bit k mod 8 of byte k / 8 for flag k (R186). Bits above flag 65 name no flag and
are not read (log entry 11). -/
def flagsOfBytes (bs : List Byte) : FlagWord := BitVec.ofNat 66 (beNat bs.reverse)

/-- The nine bytes of a flag list (R186). Bits 2 to 7 of the last byte, which R186 gives no meaning, are sent as 0 (log entry 34). -/
def flagBytes (w : FlagWord) : List Byte := (beBytes 9 w.toNat).reverse

/-- The request that a body with request code `code` and the fields `f` spells (R181, R182), none when the code is
not known or the body is longer or shorter than its fields (R34). -/
def readRequest (p : Port) (code : Nat) (f : List Byte) : Option Instr :=
  match code with
  | 0x01 => match readExact [6] f with
    | some [t] => some (.lookup p t)
    | _ => none
  | 0x02 => match readExact [6, 1, 1] f with
    | some [a, k, s] => some (.nextRecord p a k s)
    | _ => none
  | 0x03 => match readExact [6] f with
    | some [t] => some (.readSpans p t)
    | _ => none
  | 0x04 => match readExact [6, 1] f with
    | some [t, i] => some (.readSources p t i)
    | _ => none
  | 0x05 => match readFixed [6, 1] f with
    | some ([t, k], rest) => (readList specWidth false rest).map (.create p t k)
    | _ => none
  | 0x06 => match readFixed [6, 1] f with
    | some ([t, m], rest) => (readList specWidth true rest).map (.amend p t (BitVec.ofNat 8 m))
    | _ => none
  | 0x07 => match readExact [6, 1, 4, 4, 1] f with
    | some [t, m, lo, hi, k] => some (.addSpan p t (BitVec.ofNat 8 m) lo hi k)
    | _ => none
  | 0x08 => match readExact [6, 1] f with
    | some [t, m] => some (.conclude p t (BitVec.ofNat 8 m))
    | _ => none
  | 0x09 => match readExact [6, 1] f with
    | some [t, m] => some (.band p t (BitVec.ofNat 8 m))
    | _ => none
  | 0x0A => match readExact [6, 1] f with
    | some [t, m] => some (.retire p t (BitVec.ofNat 8 m))
    | _ => none
  | 0x10 => match readExact [1, 6, 1] f with
    | some [h, t, m] => some (.bindProduct p h t (BitVec.ofNat 8 m))
    | _ => none
  | 0x11 => match readExact [1, 6, 1] f with
    | some [h, t, m] => some (.bindSource p h t (BitVec.ofNat 8 m))
    | _ => none
  | 0x12 => match readExact [1, 1, 6, 1] f with
    | some [h, n, t, m] => some (.bindFeed p h n t (BitVec.ofNat 8 m))
    | _ => none
  | 0x13 => match readExact [1, 1] f with
    | some [h, n] => some (.unbindFeed p h n)
    | _ => none
  | 0x14 => match readExact [1] f with
    | some [h] => some (.release p h)
    | _ => none
  | 0x15 => match readExact [1, 4, 1, 1] f with
    | some [h, l, c, g] => some (.enqueue p h l c g)
    | _ => none
  | 0x16 => match readExact [1] f with
    | some [h] => some (.clearQueue p h)
    | _ => none
  | 0x17 => match readExact [1] f with
    | some [h] => some (.headStatus p h)
    | _ => none
  | 0x18 => match readFixed [1] f with
    | some ([h], rest) => (readList settingWidth false rest).map (.setHead p h)
    | _ => none
  | 0x20 => match readExact [4] f with
    | some [s] => some (.setClock p s)
    | _ => none
  | 0x21 => match f with
    | [] => some (.readEvents p)
    | _ => none
  | 0x22 => if f.length = 9 then some (.clearEvents p (flagsOfBytes f)) else none
  | 0x23 => (readList deviceWidth false f).map (.setDevice p)
  | _ => none

/-- The command by which the store takes a request that arrived at port `p` with this body (R33, R34). -/
def requestCommand (p : Port) : List Byte → Instr
  | [] => .unknownRequest p 0
  | code :: f => (readRequest p code.toNat f).getD (.unknownRequest p code.toNat)

/-! ## Writing a body -/

/-- Fields given as width and value, in order (R181). -/
def fieldBytes (fs : List (Nat × Nat)) : List Byte := fs.flatMap fun f => beBytes f.1 f.2

/-- One item of a list (R181). -/
def itemBytes (width : Nat → Option Nat) (it : Item) : List Byte :=
  match it.value with
  | some v => BitVec.ofNat 8 it.number :: beBytes ((width it.number).getD 0) v
  | none => [BitVec.ofNat 8 (it.number + 128)]

/-- A count byte and the items (R181). -/
def listBytes (width : Nat → Option Nat) (l : List Item) : List Byte :=
  BitVec.ofNat 8 l.length :: l.flatMap (itemBytes width)

/-- A request's code (R182); none for a command that is no request. -/
def requestCode : Instr → Option Nat
  | .lookup .. => some 0x01
  | .nextRecord .. => some 0x02
  | .readSpans .. => some 0x03
  | .readSources .. => some 0x04
  | .create .. => some 0x05
  | .amend .. => some 0x06
  | .addSpan .. => some 0x07
  | .conclude .. => some 0x08
  | .band .. => some 0x09
  | .retire .. => some 0x0A
  | .bindProduct .. => some 0x10
  | .bindSource .. => some 0x11
  | .bindFeed .. => some 0x12
  | .unbindFeed .. => some 0x13
  | .release .. => some 0x14
  | .enqueue .. => some 0x15
  | .clearQueue .. => some 0x16
  | .headStatus .. => some 0x17
  | .setHead .. => some 0x18
  | .setClock .. => some 0x20
  | .readEvents .. => some 0x21
  | .clearEvents .. => some 0x22
  | .setDevice .. => some 0x23
  | .unknownRequest _ c => some c
  | .resetN | .tick _ | .senseSettled _ | .trimPeriodStart | .encPulse _ | .spinPulse _ | .runRise _ | .runFall _
  | .cutWaitExpiry _ | .flawRise _ | .flawFall _ | .knotPulse _ | .rowPulse _ | .rowExpiry _ | .excessWatchEnd _
  | .storeFullNotification _ | .spiRequestFrame .. | .spiMalformedFrame .. | .spiDiscardFrame .. | .spiFetchFrame ..
  | .call | .panelSlotEnd _ | .panelRequestFrame _ | .panelFrameDeadline | .panelResponseSent => none

/-- The port a request comes from. -/
def requestPort : Instr → Option Port
  | .lookup p _ | .nextRecord p _ _ _ | .readSpans p _ | .readSources p _ _ | .create p _ _ _ | .amend p _ _ _
  | .addSpan p _ _ _ _ _ | .conclude p _ _ | .band p _ _ | .retire p _ _ | .bindProduct p _ _ _ | .bindSource p _ _ _
  | .bindFeed p _ _ _ _ | .unbindFeed p _ _ | .release p _ | .enqueue p _ _ _ _ | .clearQueue p _ | .headStatus p _
  | .setHead p _ _ | .setClock p _ | .readEvents p | .clearEvents p _ | .setDevice p _ | .unknownRequest p _ => some p
  | .resetN | .tick _ | .senseSettled _ | .trimPeriodStart | .encPulse _ | .spinPulse _ | .runRise _ | .runFall _
  | .cutWaitExpiry _ | .flawRise _ | .flawFall _ | .knotPulse _ | .rowPulse _ | .rowExpiry _ | .excessWatchEnd _
  | .storeFullNotification _ | .spiRequestFrame .. | .spiMalformedFrame .. | .spiDiscardFrame .. | .spiFetchFrame ..
  | .call | .panelSlotEnd _ | .panelRequestFrame _ | .panelFrameDeadline | .panelResponseSent => none

/-- A request's fixed fields as width and value, in the order of its body (R181). -/
def fixedFields : Instr → List (Nat × Nat)
  | .lookup _ t => [(6, t)]
  | .nextRecord _ a k s => [(6, a), (1, k), (1, s)]
  | .readSpans _ t => [(6, t)]
  | .readSources _ t i => [(6, t), (1, i)]
  | .create _ t k _ => [(6, t), (1, k)]
  | .amend _ t m _ => [(6, t), (1, m.toNat)]
  | .addSpan _ t m lo hi k => [(6, t), (1, m.toNat), (4, lo), (4, hi), (1, k)]
  | .conclude _ t m => [(6, t), (1, m.toNat)]
  | .band _ t m => [(6, t), (1, m.toNat)]
  | .retire _ t m => [(6, t), (1, m.toNat)]
  | .bindProduct _ h t m => [(1, h), (6, t), (1, m.toNat)]
  | .bindSource _ h t m => [(1, h), (6, t), (1, m.toNat)]
  | .bindFeed _ h n t m => [(1, h), (1, n), (6, t), (1, m.toNat)]
  | .unbindFeed _ h n => [(1, h), (1, n)]
  | .release _ h => [(1, h)]
  | .enqueue _ h l c g => [(1, h), (4, l), (1, c), (1, g)]
  | .clearQueue _ h => [(1, h)]
  | .headStatus _ h => [(1, h)]
  | .setHead _ h _ => [(1, h)]
  | .setClock _ s => [(4, s)]
  | .readEvents _ | .clearEvents _ _ | .setDevice _ _ | .unknownRequest _ _ => []
  | .resetN | .tick _ | .senseSettled _ | .trimPeriodStart | .encPulse _ | .spinPulse _ | .runRise _ | .runFall _
  | .cutWaitExpiry _ | .flawRise _ | .flawFall _ | .knotPulse _ | .rowPulse _ | .rowExpiry _ | .excessWatchEnd _
  | .storeFullNotification _ | .spiRequestFrame .. | .spiMalformedFrame .. | .spiDiscardFrame .. | .spiFetchFrame ..
  | .call | .panelSlotEnd _ | .panelRequestFrame _ | .panelFrameDeadline | .panelResponseSent => []

/-- What follows a request's fixed fields: its list, the flag list of CLEAR_EVENTS (R181, R186), or, for a body of
the wrong size with the code of READ_EVENTS, which has no fields, one byte too many (R34). -/
def tailBytes : Instr → List Byte
  | .create _ _ _ l => listBytes specWidth l
  | .amend _ _ _ l => listBytes specWidth l
  | .setHead _ _ l => listBytes settingWidth l
  | .setDevice _ l => listBytes deviceWidth l
  | .clearEvents _ w => flagBytes w
  | .unknownRequest _ c => if c = 0x21 then [0] else []
  | _ => []

/-- The body of a request: its code and its fields (R181); nothing for a command that is no request. -/
def requestBody (c : Instr) : List Byte :=
  match requestCode c with
  | some k => BitVec.ofNat 8 k :: (fieldBytes (fixedFields c) ++ tailBytes c)
  | none => []

/-! ## Words -/

/-- The opcode table gives no row any bits (its "fields" are empty): no word spells a command. -/
def decodeTableWord (_nbits _w : Nat) : Option Instr := none

end Sys2Proof
end

