-- ==== Sys2Proof/Machine/State.lean ====
section
/-! DEFINITION. The state of the WL16 as plain data: every piece of state that spec/ gives the part, the queue of
waiting commands, and the state after RESET_N. Each structure names the rule that gives it. -/

namespace Sys2Proof.Machine

/-- No command of the spec stops the part: a request out of place is answered, a setting is clamped, an input is
degraded (00_scope.md, Refused, clamped and degraded). So no fault exists and none is raised. -/
inductive Fault where
  deriving DecidableEq, Repr

/-- Why a command has no meaning in the model. -/
inductive Refusal where
  /-- Raised by an arm of `exec` for a command that has no meaning yet (safe: the machine stops). No arm raises it. -/
  | notModelled (mnemonic : String)
  deriving DecidableEq, Repr

/-! ## Records (01_the_record_store.md) -/

/-- The four kinds of record (R3). -/
inductive RecordKind where
  | strand | rope | panel | coil
  deriving DecidableEq, Repr

/-- The states of the four kinds (1.4). -/
inductive RecordState where
  | draft | making | interrupted | made | inUse | spent | winding | wound | banded
  deriving DecidableEq, Repr

/-- The roles a record is bound in (R12). -/
inductive Role where
  | product | feed (slot : SlotIx) | source | segment
  deriving DecidableEq, Repr

/-- The kinds of a span (R24). -/
inductive SpanKind where
  | lay | flaw | splice | join | feed | knot
  deriving DecidableEq, Repr

/-- A set of span kinds. -/
structure KindSet where
  lay : Bool := false
  flaw : Bool := false
  splice : Bool := false
  join : Bool := false
  feed : Bool := false
  knot : Bool := false
  deriving DecidableEq, Repr

/-- The holders of an open span (R27). -/
inductive Holder where
  | lay | flaw | guard | join | feed (slot : SlotIx)
  deriving DecidableEq, Repr

/-- A set of holders (R24). -/
structure HolderSet where
  lay : Bool := false
  flaw : Bool := false
  guard : Bool := false
  join : Bool := false
  feed0 : Bool := false
  feed1 : Bool := false
  feed2 : Bool := false
  feed3 : Bool := false
  deriving DecidableEq, Repr

/-- One span [lo, hi) of a list (R24). -/
structure Span where
  lo : Nat
  hi : Nat
  kinds : KindSet
  isOpen : Bool
  holders : HolderSet
  deriving DecidableEq, Repr

/-- A pending span: an open span of zero width waiting for length (R28). -/
structure Pending where
  pos : Nat
  kinds : KindSet
  holders : HolderSet
  deriving DecidableEq, Repr

/-- What a STRAND, ROPE and PANEL have in common along their length: the made length (made rows of a panel), the
span list and the pending span (R13 to R15, R24, R28; a panel has no pending span, R27). -/
structure Piece where
  made : Nat
  spans : List Span
  pending : Option Pending
  deriving DecidableEq, Repr

/-- One entry of a source list (R31). -/
structure SourceEntry where
  strand : Nat
  slot : SlotIx
  start : Nat
  stop : Option Nat
  deriving DecidableEq, Repr

/-- The fields of a STRAND (R13). -/
structure StrandBody where
  targetLay : Option Nat
  orderedLength : Option Nat
  piece : Piece
  consumed : Nat
  fraction : Nat
  deriving DecidableEq, Repr

/-- The fields of a ROPE (R14). -/
structure RopeBody where
  targetLay : Option Nat
  orderedLength : Option Nat
  strandCount : Nat
  factor : Nat
  piece : Piece
  packed : Nat
  waste : Nat
  sources : List SourceEntry
  /- the model's own count of the holders that one change added and released (R126; log entry 21) -/
  passed : Nat
  deriving DecidableEq, Repr

/-- The fields of a PANEL (R15); `piece.made` is its made rows. -/
structure PanelBody where
  knots : Nat
  bar : Nat
  allowance : Nat
  targetRows : Option Nat
  piece : Piece
  missed : Nat
  sources : List SourceEntry
  deriving DecidableEq, Repr

/-- The grades of a coil (R16). -/
inductive Grade where
  | first | second
  deriving DecidableEq, Repr

/-- The fields of a COIL (R16). `belongs` says whether it still belongs to its source rope. -/
structure CoilBody where
  sourceRope : Nat
  origin : HeadIx
  lo : Nat
  hi : Nat
  planned : Nat
  grade : Grade
  short : Bool
  bandTime : Option Seconds
  belongs : Bool
  deriving DecidableEq, Repr

/-- The fields of a record's own kind (R13 to R16). -/
inductive Body where
  | strand (b : StrandBody)
  | rope (b : RopeBody)
  | panel (b : PanelBody)
  | coil (b : CoilBody)
  deriving DecidableEq, Repr

/-- A record (R8), with the state it was bound from while it is bound as PRODUCT (R12). -/
structure Record where
  tag : Nat
  state : RecordState
  mark : Mark
  created : Seconds
  changed : Seconds
  interruptedOnce : Bool
  spansMerged : Bool
  bound : Option (HeadIx × Role)
  boundFrom : Option RecordState
  body : Body
  deriving DecidableEq, Repr

/-! ## Head positions (03 to 08) -/

/-- The kinds of machine (R55). -/
inductive MachineKind where
  | strander | closer | loom | coiler
  deriving DecidableEq, Repr

/-- The results of a combination of the sense pins (R55). -/
inductive SenseResult where
  | empty | partialPlug | machine (k : MachineKind)
  deriving DecidableEq, Repr

/-- The states of a head (3.3). -/
inductive HeadState where
  | empty | idle | ready | run | stopped | held | cutting | done
  deriving DecidableEq, Repr

/-- The hold reasons (R61). -/
inductive HoldReason where
  | feedShort | queueEmpty | storeFull
  deriving DecidableEq, Repr

/-- The hold reason set (R61). -/
structure HoldSet where
  feedShort : Bool := false
  queueEmpty : Bool := false
  storeFull : Bool := false
  deriving DecidableEq, Repr

/-- The trim polarities (R77). -/
inductive Polarity where
  | normal | inverted
  deriving DecidableEq, Repr

/-- The thirteen settings of a head (R77), with their reset values. -/
structure Settings where
  pitch : Nat := 65536
  spindle : Nat := 1
  turns : Nat := 8
  gain : Nat := 0
  trimMin : Nat := 0
  trimMax : Nat := 1023
  tolerance : Nat := 50
  marker : Nat := 0
  guardMargin : Nat := 0
  knotWindow : Nat := 1024
  feedLow : Nat := 0
  minCoil : Nat := 10000
  polarity : Polarity := .normal
  deriving DecidableEq, Repr

/-- An OPEN lay window: its start position and the values it latched (R101). -/
structure LayWindow where
  start : Nat
  spindle : Nat
  turns : Nat
  gain : Nat
  tolerance : Nat
  target : Option Nat
  deriving DecidableEq, Repr

/-- One feed slot (R118). -/
structure FeedSlot where
  strand : Option Nat := none
  required : Bool := false
  acc : Nat := 0
  lowNoted : Bool := false
  spanHolding : Bool := false
  deriving DecidableEq, Repr

/-- An OPEN row window: the items of R134 that a row in progress has. -/
structure RowWindow where
  index : Nat
  count : Nat
  expiry : Nat
  flawSeen : Bool
  knots : Nat
  bar : Nat
  allowance : Nat
  deriving DecidableEq, Repr

/-- The grade rules of a coil order (R149). -/
inductive GradeRule where
  | firstOnly | secondOk
  deriving DecidableEq, Repr

/-- One entry of a coiler's queue (R149). -/
structure CoilOrder where
  length : Nat
  count : Nat
  rule : GradeRule
  deriving DecidableEq, Repr

/-- The current segment (R149): a COIL with its tag, or WASTE when `coil` is absent. -/
structure Segment where
  coil : Option Nat
  planned : Nat
  plannedLo : Nat
  unwound : Nat
  link : Bool
  deriving DecidableEq, Repr

/-- Everything one head position holds. -/
structure Head where
  /- the sense unit (R54) -/
  accepted : SenseResult
  candidate : SensePins
  settle : Nat
  /- the levels of the RUN and FLAW lines (R57) -/
  runHigh : Bool
  flawHigh : Bool
  /- the head state machine (3.3) -/
  state : HeadState
  holds : HoldSet
  product : Option Nat
  source : Option Nat
  /- noted at entry to CUTTING (R62), and the ticks left when RUN was low then (R63) -/
  cutRunHigh : Bool
  cutWait : Option Nat
  /- the level of MARK (R58), and the duty of the TRIM period in progress (R59) -/
  markHigh : Bool
  duty : Nat
  settings : Settings
  /- the length meter (R82) -/
  pitchFraction : Nat
  limitNoted : Bool
  guardRelease : Option Nat
  joinRelease : Option Nat
  flawRise : Option Nat
  /- the lay governor (R101) -/
  window : Option LayWindow
  spinCount : Nat
  trim : Nat
  lastLay : Option Nat
  lastDeviation : Option Int
  /- the feed unit (R118) -/
  slots : Vector FeedSlot 4
  /- the knot monitor (R134) -/
  row : Option RowWindow
  excessWatch : Nat
  /- the coil planner (R149), and whether a freed place was notified to it (R5, R153) -/
  queue : List CoilOrder
  segment : Option Segment
  unplanned : Nat
  notified : Bool
  deriving DecidableEq, Repr

/-! ## Attention, clock, ports (09 to 11) -/

/-- The nine alarms (R169). -/
inductive Alarm where
  | spanMerged | lengthLimit | trimLimit | feedLow | knotShort | knotStray | knotExcess | coilDowngraded | bandedFlaw
  deriving DecidableEq, Repr

/-- An alarm cause set (R169). -/
structure AlarmSet where
  spanMerged : Bool := false
  lengthLimit : Bool := false
  trimLimit : Bool := false
  feedLow : Bool := false
  knotShort : Bool := false
  knotStray : Bool := false
  knotExcess : Bool := false
  coilDowngraded : Bool := false
  bandedFlaw : Bool := false
  deriving DecidableEq, Repr

/-- The store cause set (R170). -/
structure StoreCauses where
  alarms : AlarmSet := {}
  store240 : Bool := false
  createFull : Bool := false
  deriving DecidableEq, Repr

/-- Where a flag is routed (R171). -/
inductive Route where
  | none | a | b
  deriving DecidableEq, Repr

/-- The clear modes (R172). -/
inductive ClearMode where
  | explicit | readClears
  deriving DecidableEq, Repr

/-- The attention unit (R169 to R174). -/
structure Attention where
  flags : FlagWord
  causes : Vector AlarmSet 16
  storeCauses : StoreCauses
  masks : FlagWord
  routes : Vector Route 66
  clearMode : ClearMode
  deriving DecidableEq, Repr

/-- The works clock (R167). -/
structure Clock where
  seconds : Seconds
  ticks : Nat
  deriving DecidableEq, Repr

/-- The phases of an SPI frame (R176); `noFrame` is the spec's NONE. -/
inductive FramePhase where
  | noFrame | code | length | body | discard | fetch
  deriving DecidableEq, Repr

/-- The line computer port (R176). -/
structure LinePort where
  phase : FramePhase
  frameLength : Nat
  frameCount : Nat
  buffer : List Byte
  inProgress : Option (List Byte)
  unread : Option (List Byte)
  lastRefused : Bool
  lastMalformed : Bool
  status : Byte
  /- what the fetch in progress has still to shift out: length byte and body of a held response (R180) -/
  toShift : Option (List Byte)
  /- the model's own record of the bytes the latest frame shifted out (log entry 19) -/
  shifted : List Byte
  deriving DecidableEq, Repr

/-- The phases of the floor panel link (R189). -/
inductive LinkPhase where
  | calling | slots | granting | receiving | answering
  deriving DecidableEq, Repr

/-- One floor panel as the link sees it (R189); `asked` says it is in the pending set. -/
structure Panel where
  present : Bool
  silence : Nat
  asked : Bool
  mask : HeadMask
  deriving DecidableEq, Repr

/-- The floor panel link (R189). -/
structure PanelLink where
  quiet : Bool
  phase : LinkPhase
  slot : PanelIx
  granted : Option PanelIx
  dropped : Bool
  panels : Vector Panel 8
  inProgress : Option (List Byte)
  unread : Option (List Byte)
  /- the model's own record of the bytes the part last sent on the pair (log entry 19) -/
  sent : List Byte
  deriving DecidableEq, Repr

/-- The whole machine. -/
structure State where
  pending : List Instr
  store : List Record
  heads : Vector Head 16
  clock : Clock
  attn : Attention
  coilPrefix : Nat
  coilSerial : Nat
  line : LinePort
  link : PanelLink
  /- the model's own counter of free values (log entry 1) -/
  freeCount : Nat
  deriving DecidableEq, Repr

/-! ## After reset -/

/-- A head after reset (R54, R80, R82, R101, R118, R134, R149). -/
def Head.reset : Head where
  accepted := .empty
  candidate := ⟨false, false, false, false⟩
  settle := 0
  runHigh := false
  flawHigh := false
  state := .empty
  holds := {}
  product := none
  source := none
  cutRunHigh := false
  cutWait := none
  markHigh := false
  duty := 512
  settings := {}
  pitchFraction := 0
  limitNoted := false
  guardRelease := none
  joinRelease := none
  flawRise := none
  window := none
  spinCount := 0
  trim := 512
  lastLay := none
  lastDeviation := none
  slots := Vector.replicate 4 {}
  row := none
  excessWatch := 0
  queue := []
  segment := none
  unplanned := 0
  notified := false

/-- The attention unit after reset (R171, R174). -/
def Attention.reset : Attention where
  flags := 0
  causes := Vector.replicate 16 {}
  storeCauses := {}
  masks := BitVec.allOnes 66
  routes := Vector.replicate 66 .none
  clearMode := .explicit

/-- The line computer port after reset (R176). -/
def LinePort.reset : LinePort where
  phase := .noFrame
  frameLength := 0
  frameCount := 0
  buffer := []
  inProgress := none
  unread := none
  lastRefused := false
  lastMalformed := false
  status := 0
  toShift := none
  shifted := []

/-- The floor panel link after reset (R189). -/
def PanelLink.reset : PanelLink where
  quiet := true
  phase := .calling
  slot := 0
  granted := none
  dropped := false
  panels := Vector.replicate 8 ⟨false, 3, false, 0⟩
  inProgress := none
  unread := none
  sent := []

/-- The machine right after RESET_N, which is also power-on (R32, R80, R149, R167, R171, R174, R176, R189). -/
def State.reset : State where
  pending := []
  store := []
  heads := Vector.replicate 16 Head.reset
  clock := ⟨0, 0⟩
  attn := Attention.reset
  coilPrefix := 0
  coilSerial := 1
  line := LinePort.reset
  link := PanelLink.reset
  freeCount := 0

end Sys2Proof.Machine
end

