-- ==== Sys2Proof/Machine/Spans.lean ====
section
/-! DEFINITION. Span lists (1.6): sets of kinds and holders, normalization (R25), merge-nearest (R26), and the
holders of an open or pending span (R27 to R29), over one piece. -/

namespace Sys2Proof.Machine

/-! ## Sets -/

/-- The set of one kind. -/
def KindSet.only : SpanKind → KindSet
  | .lay => { lay := true }
  | .flaw => { flaw := true }
  | .splice => { splice := true }
  | .join => { join := true }
  | .feed => { feed := true }
  | .knot => { knot := true }

/-- The union of two kind sets (R25). -/
def KindSet.union (a b : KindSet) : KindSet where
  lay := a.lay || b.lay
  flaw := a.flaw || b.flaw
  splice := a.splice || b.splice
  join := a.join || b.join
  feed := a.feed || b.feed
  knot := a.knot || b.knot

/-- Whether the set has no kind. -/
def KindSet.isEmpty (a : KindSet) : Bool := !(a.lay || a.flaw || a.splice || a.join || a.feed || a.knot)

/-- The kind a holder contributes (R27). -/
def Holder.kind : Holder → SpanKind
  | .lay => .lay
  | .flaw => .flaw
  | .guard => .flaw
  | .join => .join
  | .feed _ => .feed

/-- Whether a holder is in the set. -/
def HolderSet.has (s : HolderSet) : Holder → Bool
  | .lay => s.lay
  | .flaw => s.flaw
  | .guard => s.guard
  | .join => s.join
  | .feed 0 => s.feed0
  | .feed 1 => s.feed1
  | .feed 2 => s.feed2
  | .feed 3 => s.feed3

/-- The set with one holder put in (`true`) or taken out (`false`). -/
def HolderSet.put (s : HolderSet) (v : Bool) : Holder → HolderSet
  | .lay => { s with lay := v }
  | .flaw => { s with flaw := v }
  | .guard => { s with guard := v }
  | .join => { s with join := v }
  | .feed 0 => { s with feed0 := v }
  | .feed 1 => { s with feed1 := v }
  | .feed 2 => { s with feed2 := v }
  | .feed 3 => { s with feed3 := v }

/-- The set with a holder added (R28). -/
def HolderSet.add (s : HolderSet) (h : Holder) : HolderSet := s.put true h

/-- The set with a holder removed (R29). -/
def HolderSet.drop (s : HolderSet) (h : Holder) : HolderSet := s.put false h

/-- The union of two holder sets (R25). -/
def HolderSet.union (a b : HolderSet) : HolderSet where
  lay := a.lay || b.lay
  flaw := a.flaw || b.flaw
  guard := a.guard || b.guard
  join := a.join || b.join
  feed0 := a.feed0 || b.feed0
  feed1 := a.feed1 || b.feed1
  feed2 := a.feed2 || b.feed2
  feed3 := a.feed3 || b.feed3

/-- Whether the set has no holder. -/
def HolderSet.isEmpty (s : HolderSet) : Bool :=
  !(s.lay || s.flaw || s.guard || s.join || s.feed0 || s.feed1 || s.feed2 || s.feed3)

/-! ## Intervals -/

/-- [a, b) and [c, d) share a position (the scope file, Positions, spans and ends). -/
def overlap (a b c d : Nat) : Bool := decide (max a c < min b d)

/-- [a, b) and [c, d) touch: the end of one equals the beginning of the other. -/
def touch (a b c d : Nat) : Bool := decide (b = c) || decide (d = a)

/-- Two spans overlap or touch (R25). -/
def Span.meets (x y : Span) : Bool := overlap x.lo x.hi y.lo y.hi || touch x.lo x.hi y.lo y.hi

/-- [lo, hi) shares a position with a span of the list. -/
def meetsList (lo hi : Nat) (l : List Span) : Bool := l.any fun s => overlap lo hi s.lo s.hi

/-- A closed span. -/
def Span.closed (lo hi : Nat) (k : KindSet) : Span := ⟨lo, hi, k, false, {}⟩

/-- The one span that replaces two gathered spans (R25, step 1). -/
def Span.unite (x y : Span) : Span where
  lo := min x.lo y.lo
  hi := max x.hi y.hi
  kinds := x.kinds.union y.kinds
  isOpen := x.isOpen || y.isOpen
  holders := x.holders.union y.holders

/-! ## Normalization -/

/-- The most spans a list holds (R24). -/
def spanCap : Nat := 24

/-- A span put into a list in order of lo (R25, step 2). -/
def insertSpan (n : Span) : List Span → List Span
  | [] => [n]
  | s :: l => if n.lo < s.lo then n :: s :: l else s :: insertSpan n l

/-- The span of the list that begins at `lo` replaced by its union with `n`. -/
def uniteAt (lo : Nat) (n : Span) (l : List Span) : List Span :=
  l.map fun s => if s.lo = lo then n.unite s else s

/-- Merge-nearest (R26): the new span merges with the neighbour of the smaller gap, on equal gaps the lower. -/
def mergeNearest (n : Span) (l : List Span) : List Span :=
  match (l.filter fun s => decide (s.lo < n.lo)).getLast?, (l.filter fun s => decide (n.lo < s.lo)).head? with
  | some a, some b => if n.lo - a.hi ≤ b.lo - n.hi then uniteAt a.lo n l else uniteAt b.lo n l
  | some a, none => uniteAt a.lo n l
  | none, some b => uniteAt b.lo n l
  | none, none => insertSpan n l

/-- Normalization (R25): the new list, and whether merge-nearest was applied. -/
def normalize (n : Span) (l : List Span) : List Span × Bool :=
  if !(l.any n.meets) && decide (spanCap ≤ l.length) then (mergeNearest n l, true)
  else (insertSpan ((l.filter n.meets).foldl Span.unite n) (l.filter fun s => !n.meets s), false)

/-- Whether a position of [lo, hi) lies in no span of an ordered list. -/
def uncovered (lo hi : Nat) : List Span → Bool
  | [] => decide (lo < hi)
  | s :: l => decide (lo < min s.lo hi) || uncovered (max lo s.hi) hi l

/-! ## Pieces -/

/-- The open span of a piece (R27). -/
def Piece.openSpan (p : Piece) : Option Span := p.spans.find? Span.isOpen

/-- A piece with a span normalized into its list, and whether merge-nearest was applied. -/
def Piece.addSpan (n : Span) (p : Piece) : Piece × Bool :=
  let r := normalize n p.spans
  ({ p with spans := r.1 }, r.2)

/-- The open span changed by `f`. -/
def Piece.mapOpen (f : Span → Span) (p : Piece) : Piece :=
  { p with spans := p.spans.map fun s => if s.isOpen then f s else s }

/-- A holder is present in the open or pending span. -/
def Piece.hasHolder (h : Holder) (p : Piece) : Bool :=
  (match p.openSpan with
   | some s => s.holders.has h
   | none => false) ||
  (match p.pending with
   | some q => q.holders.has h
   | none => false)

/-- A holder is added with start position `s` (R28): the first case that fits. -/
def Piece.addHolder (h : Holder) (s : Nat) (p : Piece) : Piece × Bool :=
  let k := KindSet.only h.kind
  match p.openSpan with
  | some o =>
    if o.lo ≤ s then
      (p.mapOpen fun x => { x with holders := x.holders.add h, kinds := x.kinds.union k }, false)
    else p.addSpan ⟨s, p.made, k, true, HolderSet.add {} h⟩
  | none =>
    match p.pending with
    | some q =>
      if s < p.made then
        Piece.addSpan ⟨s, p.made, q.kinds.union k, true, q.holders.add h⟩ { p with pending := none }
      else ({ p with pending := some { q with holders := q.holders.add h, kinds := q.kinds.union k } }, false)
    | none =>
      if s < p.made then p.addSpan ⟨s, p.made, k, true, HolderSet.add {} h⟩
      else ({ p with pending := some ⟨p.made, k, HolderSet.add {} h⟩ }, false)

/-- An open span whose holder set has become empty closes where it ends (R29). -/
def Span.settle (s : Span) : Span := if s.holders.isEmpty then { s with isOpen := false } else s

/-- A pending span whose holder set has become empty is discarded (R29). -/
def Pending.settle (q : Pending) : Option Pending := if q.holders.isEmpty then none else some q

/-- A holder is released (R29). -/
def Piece.releaseHolder (h : Holder) (p : Piece) : Piece :=
  let p := p.mapOpen fun s => Span.settle { s with holders := s.holders.drop h }
  { p with pending := p.pending.bind fun q => Pending.settle { q with holders := q.holders.drop h } }

/-- One holder takes the place of another in the open or pending span (R29, R94, R95): FLAW and GUARD contribute one
kind, and the span stays open through it. -/
def Piece.swapHolder (a b : Holder) (p : Piece) : Piece :=
  let p := p.mapOpen fun s => { s with holders := (s.holders.drop a).add b }
  { p with pending := p.pending.map fun q => { q with holders := (q.holders.drop a).add b } }

/-- Every holder is dropped (R18): the open span closes at the made length, a pending span is discarded. -/
def Piece.dropHolders (p : Piece) : Piece :=
  let p := p.mapOpen fun s => { s with isOpen := false, holders := {} }
  { p with pending := none }

/-- The made length advances to `m` (R22, R28): the open span's hi follows, and a pending span enters the list. -/
def Piece.advanceTo (m : Nat) (p : Piece) : Piece × Bool :=
  let p := { p.mapOpen (fun s => { s with hi := m }) with made := m }
  match p.pending with
  | some q => Piece.addSpan ⟨q.pos, m, q.kinds, true, q.holders⟩ { p with pending := none }
  | none => (p, false)

end Sys2Proof.Machine
end

