-- ==== Sys2Proof/Machine/Records.lean ====
section
/-! DEFINITION. Operations on one record: its kind and fields, its moves between states (1.4, R18 to R21), its source
list (R31), and what its revision mark counts (R9). -/

namespace Sys2Proof.Machine

/-- A record's kind (R3): it is the shape of its body, which no change alters. -/
def Body.kind : Body → RecordKind
  | .strand _ => .strand
  | .rope _ => .rope
  | .panel _ => .panel
  | .coil _ => .coil

/-- A record's kind (R3). -/
def Record.kind (r : Record) : RecordKind := r.body.kind

/-- The piece of a STRAND, ROPE or PANEL. -/
def Body.piece : Body → Option Piece
  | .strand b => some b.piece
  | .rope b => some b.piece
  | .panel b => some b.piece
  | .coil _ => none

/-- A body with its piece replaced; a COIL has none. -/
def Body.withPiece (p : Piece) : Body → Body
  | .strand b => .strand { b with piece := p }
  | .rope b => .rope { b with piece := p }
  | .panel b => .panel { b with piece := p }
  | .coil b => .coil b

/-- The source list (R31); a STRAND and a COIL have none. -/
def Body.sources : Body → List SourceEntry
  | .strand _ => []
  | .rope b => b.sources
  | .panel b => b.sources
  | .coil _ => []

/-- A body with its source list replaced. -/
def Body.withSources (l : List SourceEntry) : Body → Body
  | .strand b => .strand b
  | .rope b => .rope { b with sources := l }
  | .panel b => .panel { b with sources := l }
  | .coil b => .coil b

/-- The specification fields, in one list (R13 to R15, R43). -/
def Body.spec : Body → List (Option Nat)
  | .strand b => [b.targetLay, b.orderedLength]
  | .rope b => [b.targetLay, b.orderedLength, some b.strandCount, some b.factor]
  | .panel b => [some b.knots, some b.bar, some b.allowance, b.targetRows]
  | .coil _ => []

/-- The record with a piece replaced. -/
def Record.withPiece (p : Piece) (r : Record) : Record := { r with body := r.body.withPiece p }

/-- The span list, empty for a COIL. -/
def Record.spans (r : Record) : List Span := (r.body.piece.map Piece.spans).getD []

/-- The made length, or the made rows of a PANEL. -/
def Record.made (r : Record) : Nat := (r.body.piece.map Piece.made).getD 0

/-- A change to the fields of a STRAND. -/
def Record.onStrand (f : StrandBody → StrandBody) (r : Record) : Record :=
  match r.body with
  | .strand b => { r with body := .strand (f b) }
  | .rope _ | .panel _ | .coil _ => r

/-- A change to the fields of a ROPE. -/
def Record.onRope (f : RopeBody → RopeBody) (r : Record) : Record :=
  match r.body with
  | .rope b => { r with body := .rope (f b) }
  | .strand _ | .panel _ | .coil _ => r

/-- A change to the fields of a PANEL. -/
def Record.onPanel (f : PanelBody → PanelBody) (r : Record) : Record :=
  match r.body with
  | .panel b => { r with body := .panel (f b) }
  | .strand _ | .rope _ | .coil _ => r

/-- A change to the fields of a COIL. -/
def Record.onCoil (f : CoilBody → CoilBody) (r : Record) : Record :=
  match r.body with
  | .coil b => { r with body := .coil (f b) }
  | .strand _ | .rope _ | .panel _ => r

/-- The target lay of a STRAND or ROPE. -/
def Record.targetLay (r : Record) : Option Nat :=
  match r.body with
  | .strand b => b.targetLay
  | .rope b => b.targetLay
  | .panel _ | .coil _ => none

/-- The amount at which a product's cut point is reached: the ordered length of a STRAND or ROPE, the target rows of
a PANEL (R60, R92, R145). -/
def Record.endPoint (r : Record) : Option Nat :=
  match r.body with
  | .strand b => b.orderedLength
  | .rope b => b.orderedLength
  | .panel b => b.targetRows
  | .coil _ => none

/-- The cut point is reached: the end point is present and at or below the made amount (R60, R92, R145). -/
def Record.atEnd (r : Record) : Bool :=
  match r.endPoint with
  | some n => decide (n ≤ r.made)
  | none => false

/-- The current end of a rope: its made length minus its packed length minus its waste length (R14). -/
def RopeBody.currentEnd (b : RopeBody) : Nat := b.piece.made - b.packed - b.waste

/-- The top of a strand: its made length minus its consumed length (R13). -/
def StrandBody.top (b : StrandBody) : Nat := b.piece.made - b.consumed

/-- A top lies inside a span of the list: lo < top ≤ hi (R121). -/
def topInside (top : Nat) (l : List Span) : Bool := l.any fun s => decide (s.lo < top) && decide (top ≤ s.hi)

/-! ## Sources -/

/-- The open entries of the given slots closed at a product position (R31, R123). -/
def closeEntries (which : SlotIx → Bool) (pos : Nat) (l : List SourceEntry) : List SourceEntry :=
  l.map fun e => if which e.slot && e.stop.isNone then { e with stop := some pos } else e

/-- The record with its open source entries of the given slots closed. -/
def Record.closeSources (which : SlotIx → Bool) (pos : Nat) (r : Record) : Record :=
  { r with body := r.body.withSources (closeEntries which pos r.body.sources) }

/-- The record with an entry appended (R31). -/
def Record.appendSource (e : SourceEntry) (r : Record) : Record :=
  { r with body := r.body.withSources (r.body.sources ++ [e]) }

/-! ## Moves between states -/

/-- The record becomes bound to a head in a role, in the state tied to the role (R12). A product's former state is
recorded (R18). -/
def Record.bindAs (st : RecordState) (h : HeadIx) (role : Role) (r : Record) : Record :=
  { r with
    state := st
    bound := some (h, role)
    boundFrom := if st = .making then some r.state else none }

/-- What leaving MAKING does to the record (R18): every holder is dropped and every open source entry is closed at
the product position of that moment. -/
def Record.leaveMaking (r : Record) : Record :=
  match r.body.piece with
  | some p => (r.withPiece p.dropHolders).closeSources (fun _ => true) p.made
  | none => r

/-- The record enters a state in which it is bound to no head (R12). A record that leaves MAKING does so by R18. -/
def Record.unbindTo (st : RecordState) (r : Record) : Record :=
  let r' := if r.state = .making then r.leaveMaking else r
  { r' with state := st, bound := none, boundFrom := none }

/-- The record enters INTERRUPTED by a disconnect, with INTERRUPTED_ONCE set (R11, R18). -/
def Record.interrupt (r : Record) : Record := { r.unbindTo .interrupted with interruptedOnce := true }

/-! ## The revision mark -/

/-- What R9 counts in one record: its state, its specification, its span list as reported less the open span's hi, its
source list, and a coil's grade and band time. A holder that one change added and released has altered the list, as it
stands after the change or not (R126). -/
structure Counted where
  state : RecordState
  spec : List (Option Nat)
  spans : List Span
  sources : List SourceEntry
  grade : Option Grade
  bandTime : Option Seconds
  passed : Nat
  deriving DecidableEq, Repr

/-- The open span's hi follows the made length and is not counted (R9). -/
def Span.counted (s : Span) : Span := if s.isOpen then { s with hi := 0 } else s

/-- What R9 counts in a record. -/
def Record.counted (r : Record) : Counted where
  state := r.state
  spec := r.body.spec
  spans := r.spans.map Span.counted
  sources := r.body.sources
  grade := match r.body with
    | .coil b => some b.grade
    | .strand _ | .rope _ | .panel _ => none
  bandTime := match r.body with
    | .coil b => b.bandTime
    | .strand _ | .rope _ | .panel _ => none
  passed := match r.body with
    | .rope b => b.passed
    | .strand _ | .panel _ | .coil _ => 0

/-- A record as a whole change leaves it: when the change altered what R9 counts, the mark steps once and changed is
set to the clock's seconds (R9, R10). -/
def Record.stepMark (now : Seconds) (before after : Record) : Record :=
  if before.counted = after.counted then after
  else { after with mark := before.mark + 1, changed := now }

end Sys2Proof.Machine
end

