-- ==== Sys2Proof/Machine/Flags.lean ====
section
/-! DEFINITION. The event flags, their cause sets and the two attention lines (9.2, 9.3), and the accessors of State
that every block uses. -/

namespace Sys2Proof.Machine

/-! ## Reading and writing State -/

/-- The head of an index. -/
def State.head (s : State) (h : HeadIx) : Head := s.heads[h.val]

/-- One head changed by `f`. -/
def State.updHead (s : State) (h : HeadIx) (f : Head → Head) : State :=
  { s with heads := s.heads.set h.val (f (s.head h)) h.isLt }

/-- The live record of a tag (R6). -/
def State.find (s : State) (t : Nat) : Option Record := s.store.find? fun r => r.tag == t

/-- The tag is live (R3). -/
def State.live (s : State) (t : Nat) : Bool := (s.find t).isSome

/-- The live record of a tag changed by `f`; `f` leaves tag and kind as they are (R3). -/
def State.updRec (s : State) (t : Nat) (f : Record → Record) : State :=
  { s with store := s.store.map fun r => if r.tag = t then f r else r }

/-! ## Flags -/

/-- The four event flags of a head (R169). -/
inductive HeadFlag where
  | sense | state | alarm | coil
  deriving DecidableEq, Repr

/-- The number of a head's flag: 4h + f (R181). -/
def flagNumber (h : HeadIx) : HeadFlag → Nat
  | .sense => 4 * h.val
  | .state => 4 * h.val + 1
  | .alarm => 4 * h.val + 2
  | .coil => 4 * h.val + 3

/-- The number of the PANEL flag (R181). -/
def panelFlag : Nat := 64

/-- The number of the STORE flag (R181). -/
def storeFlag : Nat := 65

/-- The word of one flag. -/
def flagBit (k : Nat) : FlagWord := BitVec.ofNat 66 (2 ^ k)

/-- Flag k is set. -/
def Attention.flag (a : Attention) (k : Nat) : Bool := a.flags.getLsbD k

/-- Flag k set; one already set stays set (R169). -/
def Attention.setFlag (a : Attention) (k : Nat) : Attention := { a with flags := a.flags ||| flagBit k }

/-- An alarm name put into a cause set; a name already there is held once (R169). -/
def AlarmSet.add (s : AlarmSet) : Alarm → AlarmSet
  | .spanMerged => { s with spanMerged := true }
  | .lengthLimit => { s with lengthLimit := true }
  | .trimLimit => { s with trimLimit := true }
  | .feedLow => { s with feedLow := true }
  | .knotShort => { s with knotShort := true }
  | .knotStray => { s with knotStray := true }
  | .knotExcess => { s with knotExcess := true }
  | .coilDowngraded => { s with coilDowngraded := true }
  | .bandedFlaw => { s with bandedFlaw := true }

/-- Whether an alarm name is in a cause set. -/
def AlarmSet.has (s : AlarmSet) : Alarm → Bool
  | .spanMerged => s.spanMerged
  | .lengthLimit => s.lengthLimit
  | .trimLimit => s.trimLimit
  | .feedLow => s.feedLow
  | .knotShort => s.knotShort
  | .knotStray => s.knotStray
  | .knotExcess => s.knotExcess
  | .coilDowngraded => s.coilDowngraded
  | .bandedFlaw => s.bandedFlaw

/-- The alarm cause set of a head. -/
def Attention.causesOf (a : Attention) (h : HeadIx) : AlarmSet := a.causes[h.val]

/-- The attention unit changed by `f`. -/
def State.updAttn (s : State) (f : Attention → Attention) : State := { s with attn := f s.attn }

/-- A head's event (R169). -/
def State.raise (s : State) (h : HeadIx) (f : HeadFlag) : State := s.updAttn fun a => a.setFlag (flagNumber h f)

/-- An alarm raised at a head: its name enters the cause set and the ALARM flag is set (R169). -/
def State.raiseAlarm (s : State) (h : HeadIx) (x : Alarm) : State :=
  s.updAttn fun a =>
    { a with causes := a.causes.set h.val ((a.causesOf h).add x) h.isLt }.setFlag (flagNumber h .alarm)

/-- The device STORE event with its cause (R170). -/
def State.raiseStore (s : State) (f : StoreCauses → StoreCauses) : State :=
  s.updAttn fun a => { a with storeCauses := f a.storeCauses }.setFlag storeFlag

/-- An alarm on a record: at the head the record is bound to, in whatever role, or the device STORE event when it is
unbound (R26, R169, R170). -/
def State.raiseAt (s : State) (bound : Option (HeadIx × Role)) (x : Alarm) : State :=
  match bound with
  | some (h, _) => s.raiseAlarm h x
  | none => s.raiseStore fun c => { c with alarms := c.alarms.add x }

/-! ## The attention lines -/

/-- Flag k drives line `r`: it is set, its mask is clear and its route is `r` (R171). -/
def Attention.drives (a : Attention) (r : Route) (k : Fin 66) : Bool :=
  a.flags.getLsbD k && !a.masks.getLsbD k && decide (a.routes[k.val] = r)

/-- A line is asserted while at least one flag drives it (R171). -/
def Attention.asserted (a : Attention) (r : Route) : Bool := (List.finRange 66).any fun k => a.drives r k

/-- ATTN_A is asserted, pulled low (R171). -/
def State.attnA (s : State) : Bool := s.attn.asserted .a

/-- ATTN_B is asserted, pulled low (R171). -/
def State.attnB (s : State) : Bool := s.attn.asserted .b

/-- The flags of a word cleared, each ALARM flag with its head's cause set and STORE with the store cause set (R172,
R173). -/
def Attention.clear (a : Attention) (w : FlagWord) : Attention where
  flags := a.flags &&& ~~~w
  causes := Vector.ofFn fun h => if w.getLsbD (flagNumber h .alarm) then {} else a.causesOf h
  storeCauses := if w.getLsbD storeFlag then {} else a.storeCauses
  masks := a.masks
  routes := a.routes
  clearMode := a.clearMode

end Sys2Proof.Machine
end

