-- ==== Sys2Proof/Machine/Ops.lean ====
section
/-! DEFINITION. The named operations over the record store and the heads: whole changes and their marks (R7, R9),
entering and leaving the store (R4, R5), spans and holders of a live record (R25 to R29), the flaw input's rise, the
hold reason set (R61) and the entry to CUTTING (R62). -/

namespace Sys2Proof.Machine

/-! ## Whole changes -/

/-- A change taken whole: each record that was live before it and that it altered in what R9 counts has its mark
stepped once and its changed time set (R7, R9, R10). -/
def State.commit (before after : State) : State :=
  { after with
    store := after.store.map fun r =>
      match before.find r.tag with
      | some r0 => Record.stepMark after.clock.seconds r0 r
      | none => r }

/-- The change `f` applied whole. -/
def State.change (f : State → State) (s : State) : State := s.commit (f s)

/-! ## Entering and leaving the store -/

/-- The capacity of the store (R3). -/
def storeCap : Nat := 256

/-- A record put into the store in order of its tag (R3). -/
def insertRecord (n : Record) : List Record → List Record
  | [] => [n]
  | r :: l => if n.tag < r.tag then n :: r :: l else r :: insertRecord n l

/-- A record enters the store (R4); the rise of the count from 239 to 240 raises the device STORE event. -/
def State.enter (r : Record) (s : State) : State :=
  let t := { s with store := insertRecord r s.store }
  if s.store.length = 239 then t.raiseStore fun c => { c with store240 := true } else t

/-- The common fields of a record at its creation (R8, R10). -/
def Record.fresh (t : Nat) (st : RecordState) (now : Seconds) (b : Body) : Record where
  tag := t
  state := st
  mark := 0
  created := now
  changed := now
  interruptedOnce := false
  spansMerged := false
  bound := none
  boundFrom := none
  body := b

/-- A coil stops belonging to the rope of tag `t` (R5, R16, R53). -/
def CoilBody.disown (t : Nat) (c : CoilBody) : CoilBody := if c.sourceRope = t then { c with belongs := false } else c

/-- Every coil planner whose head holds STORE_FULL is notified (R5). -/
def State.notifyPlanners (s : State) : State :=
  { s with
    heads := Vector.ofFn fun h =>
      if (s.head h).holds.storeFull then { s.head h with notified := true } else s.head h }

/-- A record leaves the store (R5): a ROPE's coils stop belonging to it, and a record leaving a full store notifies the
planners that hold STORE_FULL. -/
def State.leave (t : Nat) (s : State) : State :=
  match s.find t with
  | none => s
  | some r =>
    let rest := s.store.filter fun x => x.tag != t
    let kept := if r.kind = .rope then rest.map fun x => x.onCoil (CoilBody.disown t) else rest
    let s' := { s with store := kept }
    if s.store.length = storeCap then s'.notifyPlanners else s'

/-! ## Pieces of live records -/

/-- A change of the piece of a live record; where merge-nearest was applied, SPANS_MERGED is set and SPAN_MERGED is
raised at the head it is bound to, or the device STORE event (R26). -/
def State.onPiece (t : Nat) (f : Piece → Piece × Bool) (s : State) : State :=
  match s.find t with
  | none => s
  | some r =>
    match r.body.piece with
    | none => s
    | some p =>
      let q := f p
      let s' := s.updRec t fun x => { x.withPiece q.1 with spansMerged := x.spansMerged || q.2 }
      if q.2 then s'.raiseAt r.bound .spanMerged else s'

/-- A span normalized into the list of a live record (R25). -/
def State.normalizeInto (t : Nat) (n : Span) (s : State) : State := s.onPiece t (Piece.addSpan n)

/-- A holder is added to a STRAND or ROPE that is MAKING (R27, R28). -/
def State.addHolder (t : Nat) (h : Holder) (start : Nat) (s : State) : State :=
  match s.find t with
  | some r => if r.state = .making ∧ r.kind ≠ .panel then s.onPiece t (Piece.addHolder h start) else s
  | none => s

/-- A holder is released (R29). -/
def State.releaseHolder (t : Nat) (h : Holder) (s : State) : State := s.onPiece t fun p => (p.releaseHolder h, false)

/-- One holder replaces another in one change (R29). -/
def State.swapHolder (t : Nat) (a b : Holder) (s : State) : State := s.onPiece t fun p => (p.swapHolder a b, false)

/-- A live record's open or pending span has the holder. -/
def State.hasHolder (t : Nat) (h : Holder) (s : State) : Bool :=
  match (s.find t).bind fun r => r.body.piece with
  | some p => p.hasHolder h
  | none => false

/-! ## Heads -/

/-- The kind of the machine connected to a head (R55). -/
def Head.kind (h : Head) : Option MachineKind :=
  match h.accepted with
  | .machine k => some k
  | .empty | .partialPlug => none

/-- RUN, STOPPED, HELD and CUTTING: the states in which ENC, KNOT, ROW and FLAW are followed (R57), called the running
states by 1.4. -/
def HeadState.running : HeadState → Bool
  | .run | .stopped | .held | .cutting => true
  | .empty | .idle | .ready | .done => false

/-- RUN and CUTTING: the states in which SPIN is followed (R57). -/
def HeadState.spinning : HeadState → Bool
  | .run | .cutting => true
  | .empty | .idle | .ready | .stopped | .held | .done => false

/-- The head is a maker that measures length: a STRANDER or a CLOSER. -/
def Head.laysLength (h : Head) : Bool := decide (h.kind = some .strander) || decide (h.kind = some .closer)

/-- The live record bound to a head as PRODUCT. -/
def State.productOf (s : State) (h : HeadIx) : Option Record := (s.head h).product.bind s.find

/-- The live rope bound to a head as SOURCE: its record and its fields. -/
def State.sourceOf (s : State) (h : HeadIx) : Option (Record × RopeBody) :=
  (s.head h).source.bind fun t => (s.find t).bind fun r =>
    match r.body with
    | .rope b => some (r, b)
    | .strand _ | .panel _ | .coil _ => none

/-- The length unwound in the current segment, 0 without one. -/
def Head.unwound (h : Head) : Nat := (h.segment.map Segment.unwound).getD 0

/-- The unwind position p of the rope at a coiler, 0 where the difference would be negative (R89). -/
def State.unwindPosition (s : State) (h : HeadIx) : Nat :=
  match s.sourceOf h with
  | some (_, b) => b.currentEnd - (s.head h).unwound - (s.head h).unplanned
  | none => 0

/-- FLAW rises on a STRANDER or CLOSER (R94): a FLAW holder from m − g, which replaces GUARD. -/
def State.makerFlawRise (h : HeadIx) (s : State) : State :=
  match s.productOf h with
  | none => s
  | some r =>
    if s.hasHolder r.tag .flaw then s
    else
      let start := r.made - (s.head h).settings.guardMargin
      if s.hasHolder r.tag .guard then
        ((s.swapHolder r.tag .guard .flaw).addHolder r.tag .flaw start).updHead h fun x => { x with guardRelease := none }
      else s.addHolder r.tag .flaw start

/-- FLAW rises in a running state, or is found high at the entry into one from READY (R57): on a STRANDER or CLOSER by
R94, on a COILER by R98, on a LOOM by R142. -/
def State.flawRises (h : HeadIx) (s : State) : State :=
  match (s.head h).kind with
  | some .strander => s.makerFlawRise h
  | some .closer => s.makerFlawRise h
  | some .coiler => s.updHead h fun x => { x with flawRise := some (s.unwindPosition h) }
  | some .loom => s.updHead h fun x => { x with row := x.row.map fun w => { w with flawSeen := true } }
  | none => s

/-- Whether a reason is in the set. -/
def HoldSet.has (x : HoldSet) : HoldReason → Bool
  | .feedShort => x.feedShort
  | .queueEmpty => x.queueEmpty
  | .storeFull => x.storeFull

/-- The set with a reason put in or taken out. -/
def HoldSet.put (x : HoldSet) (v : Bool) : HoldReason → HoldSet
  | .feedShort => { x with feedShort := v }
  | .queueEmpty => { x with queueEmpty := v }
  | .storeFull => { x with storeFull := v }

/-- Whether the set has no reason. -/
def HoldSet.isEmpty (x : HoldSet) : Bool := !(x.feedShort || x.queueEmpty || x.storeFull)

/-- RUN or STOPPED by the level of RUN (R61). -/
def Head.byRun (h : Head) : HeadState := if h.runHigh then .run else .stopped

/-- The head enters HELD from READY, RUN or STOPPED and raises STATE (R61); an open lay window is abandoned (R104), and
FLAW high at the entry from READY is taken as rising (R57). -/
def State.enterHeld (h : HeadIx) (s : State) : State :=
  let s' := (s.updHead h fun x => { x with state := .held, window := none }).raise h .state
  if (s.head h).state = .ready ∧ (s.head h).flawHigh then s'.flawRises h else s'

/-- A hold reason is added (R61). -/
def State.addHold (h : HeadIx) (x : HoldReason) (s : State) : State :=
  if (s.head h).holds.has x then s
  else
    let s' := s.updHead h fun y => { y with holds := y.holds.put true x }
    match (s.head h).state with
    | .ready | .run | .stopped => s'.enterHeld h
    | .empty | .idle | .held | .cutting | .done => s'

/-- A hold reason is removed (R61); an emptied set takes a HELD head to RUN or STOPPED. -/
def State.dropHold (h : HeadIx) (x : HoldReason) (s : State) : State :=
  s.updHead h fun y =>
    let z := { y with holds := y.holds.put false x }
    if z.state = .held ∧ z.holds.isEmpty then { z with state := z.byRun } else z

/-- The ticks of the wait of a cut entered with RUN low (R63). -/
def cutTicks : Nat := 16

/-- A job reports its end point: in RUN, STOPPED and HELD the head enters CUTTING, raises STATE and notes the level of
RUN; in every other state the report changes nothing (R62). -/
def State.enterCutting (h : HeadIx) (s : State) : State :=
  match (s.head h).state with
  | .run | .stopped | .held =>
    (s.updHead h fun x =>
      { x with
        state := .cutting
        cutRunHigh := x.runHigh
        cutWait := if x.runHigh then none else some cutTicks }).raise h .state
  | .empty | .idle | .ready | .cutting | .done => s

/-- The cut point check of a maker (R60, R92, R145). -/
def State.checkEnd (h : HeadIx) (s : State) : State :=
  match s.productOf h with
  | some r => if r.atEnd then s.enterCutting h else s
  | none => s

end Sys2Proof.Machine
end

