-- ==== Sys2Proof/Machine/Feeds.lean ====
section
/-! DEFINITION. The feed unit (06_feeds_and_take_up.md): slots, consumption, the faults it carries, exhaustion and
FEED_LOW. -/

namespace Sys2Proof.Machine

/-! ## Slots -/

/-- One slot of a head. -/
def Head.slot (h : Head) (n : SlotIx) : FeedSlot := h.slots[n.val]

/-- A head with one slot changed by `f`. -/
def Head.updSlot (h : Head) (n : SlotIx) (f : FeedSlot → FeedSlot) : Head :=
  { h with slots := h.slots.set n.val (f (h.slot n)) n.isLt }

/-- One slot changed by `f`. -/
def State.updSlot (s : State) (h : HeadIx) (n : SlotIx) (f : FeedSlot → FeedSlot) : State :=
  s.updHead h fun x => x.updSlot n f

/-- The four slots in order. -/
def allSlots : List SlotIx := [0, 1, 2, 3]

/-- The slots a kind of machine has (R118). -/
def MachineKind.hasSlot : MachineKind → SlotIx → Bool
  | .closer, _ => true
  | .loom, n => decide (n.val < 2)
  | .strander, _ => false
  | .coiler, _ => false

/-- The slots a product requires: 0 to strand count − 1 for a ROPE, 0 and 1 for a PANEL (R118). -/
def Body.requires : Body → SlotIx → Bool
  | .rope b, n => decide (n.val < b.strandCount)
  | .panel _, n => decide (n.val < 2)
  | .strand _, _ => false
  | .coil _, _ => false

/-- A required slot is empty (R130). -/
def Head.feedMissing (h : Head) : Bool := allSlots.any fun n => (h.slot n).required && (h.slot n).strand.isNone

/-- The strand bound in a slot: its record and its fields. -/
def State.fedBy (s : State) (h : HeadIx) (n : SlotIx) : Option (Record × StrandBody) :=
  ((s.head h).slot n).strand.bind fun t => (s.find t).bind fun r =>
    match r.body with
    | .strand b => some (r, b)
    | .rope _ | .panel _ | .coil _ => none

/-- The feed unit unbinds the strand of a slot (R123): the strand enters `st` (MADE, or SPENT at exhaustion) and is bound
no more, the product's open entry of the slot is closed at `pos`, and the slot is emptied with its accumulator, low noted
and span holding. Whether the slot is required stands. -/
def State.unbindSlot (h : HeadIx) (st : RecordState) (pos : Nat) (s : State) (n : SlotIx) : State :=
  match ((s.head h).slot n).strand with
  | none => s
  | some t =>
    let s1 := s.updRec t fun r => r.unbindTo st
    let s2 := match (s.head h).product with
      | some p => s1.updRec p fun r => r.closeSources (fun m => decide (m = n)) pos
      | none => s1
    s2.updSlot h n fun x => { required := x.required }

/-! ## Consumption -/

/-- What one consumption draws from a strand (R131): the consumed length after it, the tops before and after, whether it
was clamped, and whether the strand is spent. -/
structure Draw where
  consumed : Nat
  top0 : Nat
  top1 : Nat
  clamped : Bool
  spent : Bool
  deriving DecidableEq, Repr

/-- A consumption of `n` mm (R131): clamped at the made length; an amount of 0 is no consumption. -/
def StrandBody.draw (b : StrandBody) (n : Nat) : Draw where
  consumed := b.consumed + min n b.top
  top0 := b.top
  top1 := b.top - n
  clamped := decide (b.top < n)
  spent := decide (0 < n) && decide (b.top ≤ n)

/-- The stretch drawn [top1, top0) intersects a span of the strand (R126, R128). -/
def Draw.faulty (d : Draw) (l : List Span) : Bool := meetsList d.top1 d.top0 l

/-- The FEED_LOW check at a consumption that leaves `left` mm (R133). -/
def State.checkLow (h : HeadIx) (n : SlotIx) (left : Nat) (s : State) : State :=
  let low := (s.head h).settings.feedLow * 1000
  if left < low ∧ ((s.head h).slot n).lowNoted = false then
    (s.raiseAlarm h .feedLow).updSlot h n fun x => { x with lowNoted := true }
  else s

/-- FEEDn is released (R126, R131). Where this advance had added it, the rope counts that it has passed, so that its mark steps
for the change (R126). -/
def State.passFeed (rope : Nat) (n : SlotIx) (added : Bool) (s : State) : State :=
  (if added then s.updRec rope fun r => r.onRope fun b => { b with passed := b.passed + 1 } else s).releaseHolder rope
    (.feed n)

/-- The take-up of one slot of a closer in an advance of the rope of tag `rope` from m to m' (R124), with the fault
carrying of R126, FEED_LOW (R133) and exhaustion (R131; log entries 12 and 13). -/
def State.takeUpSlot (h : HeadIx) (rope factor m m' : Nat) (s : State) (n : SlotIx) : State :=
  match s.fedBy h n with
  | none => s
  | some (r, b) =>
    let slot := (s.head h).slot n
    let sum := slot.acc + (m' - m) * factor
    let d := b.draw (sum / fine)
    let s1 := (s.updRec r.tag fun x => x.onStrand fun y => { y with consumed := d.consumed, fraction := sum % fine }).updSlot
      h n fun x => { x with acc := sum % fine }
    let s2 := s1.checkLow h n (b.piece.made - d.consumed)
    let s3 := if d.clamped || d.faulty b.piece.spans then s2.addHolder rope (.feed n) m else s2
    let added := s3.hasHolder rope (.feed n) && !s2.hasHolder rope (.feed n)
    if d.spent then
      let s4 := s3.unbindSlot h .spent m' n
      if slot.required then
        if s4.hasHolder rope (.feed n) then s4 else s4.addHolder rope (.feed n) m'
      else s4.passFeed rope n added
    else if topInside d.top1 b.piece.spans then s3.updSlot h n fun x => { x with spanHolding := true }
    else (s3.updSlot h n fun x => { x with spanHolding := false }).passFeed rope n added

/-- The take-up of every bound slot of a closer in one advance of its rope (R124). The rules charge every slot at once; the model
takes slots 0 to 3 in turn, which shows where one slot releases the last holder and another is spent exactly (log entry 32). -/
def State.takeUp (h : HeadIx) (m m' : Nat) (s : State) : State :=
  match s.productOf h with
  | none => s
  | some r =>
    match r.body with
    | .rope b => allSlots.foldl (State.takeUpSlot h r.tag b.factor m m') s
    | .strand _ | .panel _ | .coil _ => s

/-- A required slot that held a strand in `before` holds none now: its feed ran out in this change (R130, R131). -/
def State.ranOut (h : HeadIx) (before after : State) : Bool :=
  allSlots.any fun n =>
    ((before.head h).slot n).required && ((before.head h).slot n).strand.isSome && ((after.head h).slot n).strand.isNone

/-- The row charge of one slot of a loom (R125), with FEED_LOW (R133) and exhaustion (R131); `pos` is the made rows
after the row. The truth value says that the row is marked FEED (R128). -/
def State.chargeSlot (h : HeadIx) (amount pos : Nat) (acc : State × Bool) (n : SlotIx) : State × Bool :=
  let s := acc.1
  if ((s.head h).slot n).strand.isNone then (s, true)
  else if amount = 0 then acc
  else
    match s.fedBy h n with
    | none => acc
    | some (r, b) =>
      let d := b.draw amount
      let s1 := s.updRec r.tag fun x => x.onStrand fun y => { y with consumed := d.consumed }
      let s2 := s1.checkLow h n (b.piece.made - d.consumed)
      (if d.spent then s2.unbindSlot h .spent pos n else s2, acc.2 || d.clamped || d.faulty b.piece.spans)

/-- The row charge of slots 0 and 1 (R125), and the FEED_SHORT of a slot that ran out (R130). -/
def State.chargeRow (h : HeadIx) (amount pos : Nat) (s : State) : State × Bool :=
  let r := [(0 : SlotIx), 1].foldl (State.chargeSlot h amount pos) (s, false)
  (if State.ranOut h s r.1 then r.1.addHold h .feedShort else r.1, r.2)

/-- A bound strand's span list has changed: on a CLOSER a top now inside a span sets span holding and adds FEEDn at the
rope's made length (R127). -/
def State.rejudgeTop (h : HeadIx) (n : SlotIx) (s : State) : State :=
  match s.fedBy h n, s.productOf h with
  | some (_, b), some p =>
    if (s.head h).kind = some .closer ∧ ((s.head h).slot n).spanHolding = false ∧ topInside b.top b.piece.spans then
      (s.updSlot h n fun x => { x with spanHolding := true }).addHolder p.tag (.feed n) p.made
    else s
  | _, _ => s

end Sys2Proof.Machine
end

