-- ==== Sys2Proof/Machine/Length.lean ====
section
/-! DEFINITION. The length meter (04_length_metering.md): ENC pulses, the advance of made length, unwinding, the marker,
flaws and joins. -/

namespace Sys2Proof.Machine

/-- The count's top is passed: LENGTH_LIMIT is raised at the first such carry in a binding (R86, R87). -/
def State.limitReached (h : HeadIx) (s : State) : State :=
  if (s.head h).limitNoted then s
  else (s.updHead h fun x => { x with limitNoted := true }).raiseAlarm h .lengthLimit

/-- The release position is reached at made length `m` (R96). -/
def reached (m : Nat) : Option Nat → Bool
  | some p => decide (p ≤ m)
  | none => false

/-- GUARD is released by an advance that reaches its release position (R96). -/
def State.releaseGuard (h : HeadIx) (t m : Nat) (s : State) : State :=
  if reached m (s.head h).guardRelease then
    (s.releaseHolder t .guard).updHead h fun x => { x with guardRelease := none }
  else s

/-- JOIN is released by an advance that reaches its release position (R96). -/
def State.releaseJoin (h : HeadIx) (t m : Nat) (s : State) : State :=
  if reached m (s.head h).joinRelease then
    (s.releaseHolder t .join).updHead h fun x => { x with joinRelease := none }
  else s

/-- The multiples of the marker interval that an advance from m to m' crosses (R90). -/
def crossings (interval m m' : Nat) : Nat := m' / (interval * 1000) - m / (interval * 1000)

/-- The marker toggles MARK once for each multiple crossed; an interval of 0 is off (R90). -/
def Head.toggleMark (m m' : Nat) (h : Head) : Head :=
  if h.settings.marker = 0 then h
  else { h with markHigh := h.markHigh ^^ decide (crossings h.settings.marker m m' % 2 = 1) }

/-- The advance of a product's made length by a carry c on a STRANDER or CLOSER, with everything that follows from it
in the one change (R85, R86, R92, R124, R130; the cut point is taken before FEED_SHORT, log entry 15). R85 gives the releases of
R96 and the take-up of R124 no order: the model releases GUARD and JOIN first (log entry 35). -/
def State.advanceMade (h : HeadIx) (c : Nat) (s : State) : State :=
  match s.productOf h with
  | none => s
  | some r =>
    let m := r.made
    let m' := min (m + c) lengthTop
    let s0 := if lengthTop < m + c then
      (s.limitReached h).updHead h fun x => { x with pitchFraction := fine - 1 } else s
    if m' ≤ m then s0
    else
      let s1 := s0.onPiece r.tag (Piece.advanceTo m')
      let s2 := (s1.releaseGuard h r.tag m').releaseJoin h r.tag m'
      let s3 := s2.updHead h (Head.toggleMark m m')
      let s4 := if (s.head h).kind = some .closer then s3.takeUp h m m' else s3
      let s5 := s4.checkEnd h
      if State.ranOut h s3 s4 then s5.addHold h .feedShort else s5

/-- A carry at a COILER (R87, R88): it adds to the segment's unwound length in RUN, STOPPED and CUTTING and to the
unplanned count in HELD, each holding at its top; the segment's end is reported in RUN and STOPPED. -/
def State.unwindCarry (h : HeadIx) (c : Nat) (s : State) : State :=
  match (s.head h).state with
  | .held =>
    let u := (s.head h).unplanned + c
    let s1 := if lengthTop < u then s.limitReached h else s
    s1.updHead h fun x => { x with unplanned := min u lengthTop }
  | .run | .stopped | .cutting =>
    match (s.head h).segment with
    | none => s
    | some g =>
      let u := g.unwound + c
      let s1 := if lengthTop < u then s.limitReached h else s
      let s2 := s1.updHead h fun x => { x with segment := some { g with unwound := min u lengthTop } }
      if g.planned ≤ min u lengthTop then s2.enterCutting h else s2
  | .empty | .idle | .ready | .done => s

/-- An ENC pulse at a head (R57, R83). -/
def State.encPulse (h : HeadIx) (s : State) : State :=
  if (s.head h).state.running then
    let sum := (s.head h).pitchFraction + (s.head h).settings.pitch
    let carry := sum / fine
    let s1 := s.updHead h fun x => { x with pitchFraction := sum % fine }
    match (s.head h).kind with
    | some .strander | some .closer => if carry = 0 then s1 else s1.advanceMade h carry
    | some .coiler => if carry = 0 then s1 else s1.unwindCarry h carry
    | some .loom | none => s
  else s

/-- FLAW falls on a STRANDER or CLOSER (R95): FLAW gives place to GUARD until f + g, or is released when g is 0. -/
def State.makerFlawFall (h : HeadIx) (s : State) : State :=
  match s.productOf h with
  | none => s
  | some r =>
    if s.hasHolder r.tag .flaw then
      let g := (s.head h).settings.guardMargin
      if 0 < g then
        (s.swapHolder r.tag .flaw .guard).updHead h fun x => { x with guardRelease := some (r.made + g) }
      else s.releaseHolder r.tag .flaw
    else s

/-- The JOIN holder of a STRAND or ROPE bound from INTERRUPTED with a guard margin above 0 (R97). -/
def State.openJoin (h : HeadIx) (t m : Nat) (s : State) : State :=
  let g := (s.head h).settings.guardMargin
  if 0 < g then
    (s.addHolder t .join (m - g)).updHead h fun x => { x with joinRelease := some (m + g) }
  else s

/-! ## Meanings -/

/-- ENC_PULSE (R83). -/
def execEncPulse (h : HeadIx) (s : State) : Host.Outcome State Fault Refusal := .next (s.change (State.encPulse h))

end Sys2Proof.Machine
end

