-- ==== Sys2Proof/Machine/Lay.lean ====
section
/-! DEFINITION. The lay governor (05_lay_governor.md): the lay window, the lay arithmetic in its stages, the trim code
and the LAY holder. -/

namespace Sys2Proof.Machine

/-- An unsigned quotient rounded half up (the scope file, Rounding and limits). -/
def roundHalfUp (n d : Nat) : Nat := (2 * n + d) / (2 * d)

/-- A signed quotient rounded half away from zero (the scope file, Rounding and limits). -/
def roundAway (n : Int) (d : Nat) : Int :=
  if 0 ≤ n then Int.ofNat (roundHalfUp n.natAbs d) else -Int.ofNat (roundHalfUp n.natAbs d)

/-- A whole number clamped between two bounds. -/
def clampInt (lo hi x : Int) : Int := max lo (min hi x)

/-- Stage 1, the measured lay in lay units (R107). -/
def measuredLay (q turns : Nat) : Nat := min (roundHalfUp q (turns * 4096)) 65535

/-- Stage 2, the deviation in permille (R108). -/
def deviation (lay target : Nat) : Int :=
  clampInt (-999) 999 (roundAway (1000 * ((lay : Int) - (target : Int))) target)

/-- Stage 3, the step in trim code units (R109). -/
def trimStep (d : Int) (gain : Nat) : Int := roundAway (d * (gain : Int)) 16

/-- Stage 4, the candidate: the old code minus the step (R110). -/
def trimCandidate (code : Nat) (step : Int) : Int := (code : Int) - step

/-- Stage 4, the new trim code within the limits (R110). -/
def trimCode (lo hi code : Nat) (step : Int) : Nat := (clampInt lo hi (trimCandidate code step)).toNat

/-- Stage 4, the clamp took effect (R110). -/
def trimClamped (lo hi code : Nat) (step : Int) : Bool :=
  decide (trimCandidate code step < lo) || decide ((hi : Int) < trimCandidate code step)

/-- The head's position in fine units: the made length and the pitch fraction (R102). -/
def State.position (s : State) (h : HeadIx) (r : Record) : Nat := r.made * fine + (s.head h).pitchFraction

/-- A window opens (R102). -/
def State.openWindow (h : HeadIx) (r : Record) (s : State) : State :=
  s.updHead h fun x =>
    { x with
      window := some {
        start := s.position h r
        spindle := x.settings.spindle
        turns := x.settings.turns
        gain := x.settings.gain
        tolerance := x.settings.tolerance
        target := r.targetLay }
      spinCount := 0 }

/-- Stage 5 (R112): the LAY holder is added at the start length when the deviation exceeds the tolerance, and released
otherwise. -/
def State.placeLay (t : Nat) (w : LayWindow) (d : Int) (s : State) : State :=
  if w.tolerance < d.natAbs then s.addHolder t .lay (w.start / fine) else s.releaseHolder t .lay

/-- A window ends with its result in one change (R103, R107 to R114): without a target lay stage 1 alone. -/
def State.endWindow (h : HeadIx) (r : Record) (w : LayWindow) (s : State) : State :=
  let lay := measuredLay (s.position h r - w.start) w.turns
  match w.target with
  | none => s.updHead h fun x => { x with window := none, lastLay := some lay, lastDeviation := none }
  | some t =>
    let d := deviation lay t
    let step := trimStep d w.gain
    let set := (s.head h).settings
    let clamped := trimClamped set.trimMin set.trimMax (s.head h).trim step
    let s1 := s.updHead h fun x =>
      { x with
        window := none
        lastLay := some lay
        lastDeviation := some d
        trim := trimCode set.trimMin set.trimMax x.trim step }
    let s2 := s1.placeLay r.tag w d
    if clamped ∧ w.tolerance < d.natAbs then s2.raiseAlarm h .trimLimit else s2

/-- A SPIN pulse within an OPEN window (R103): the pulse that would bring the count to S × W ends the window, and every other
one is counted. The window's end drops the window alone; the count, which lies below S × W, stands (R101; log entry 33). -/
def State.spinWithin (h : HeadIx) (r : Record) (w : LayWindow) (s : State) : State :=
  if w.spindle * w.turns ≤ (s.head h).spinCount + 1 then s.endWindow h r w
  else s.updHead h fun x => { x with spinCount := x.spinCount + 1 }

/-- A SPIN pulse (R57, R102, R103): followed in RUN and CUTTING on a STRANDER or CLOSER, it opens a window or falls within
one. -/
def State.spinPulse (h : HeadIx) (s : State) : State :=
  if (s.head h).laysLength && (s.head h).state.spinning then
    match s.productOf h with
    | none => s
    | some r =>
      match (s.head h).window with
      | none => s.openWindow h r
      | some w => s.spinWithin h r w
  else s

/-- SPIN_PULSE (R103). -/
def execSpinPulse (h : HeadIx) (s : State) : Host.Outcome State Fault Refusal := .next (s.change (State.spinPulse h))

end Sys2Proof.Machine
end

