-- ==== Sys2Proof/Config.lean ====
section
/-! DEFINITION. What the spec leaves open for the machine to hold: the free values. -/

namespace Sys2Proof.Config

/-- FREE VALUE (log entry 1). The byte at place `i` of a response field whose content the spec does not state
because the field is absent (R184's `to`, R185's absent items), for the `k`-th response that holds one. It has no
body, so nothing can be proved of its value. -/
opaque freeByte (k i : Nat) : Byte

end Sys2Proof.Config
end

