-- ==== Sys2Proof/Machine/Knots.lean ====
section
/-! DEFINITION. The knot monitor (07_knot_monitor.md): the row window, knots and stray knots, the close of a row and the
end of a panel. -/

namespace Sys2Proof.Machine

/-- The knots a row lacks (R141, step 1). -/
def RowWindow.missed (w : RowWindow) : Nat := w.knots - w.count

/-- The twine a row charges to each feed (R125, R141). -/
def RowWindow.charge (w : RowWindow) : Nat := w.count * (w.bar + w.allowance)

/-- The marks of a row, given whether its charge marks it FEED (R141, R144). -/
def RowWindow.marks (w : RowWindow) (feed : Bool) : KindSet :=
  { knot := decide (0 < w.missed), flaw := w.flawSeen, feed := feed }

/-- The made rows after one row more, holding at 65 535 (R22, R143). -/
def nextRow (made : Nat) : Nat := if made < rowTop then made + 1 else made

/-- A panel counts a row: its made rows become `nextRow`, and a row with marks enters the list as the last of them (R22,
R143; log entry 22). -/
def Piece.countRow (k : KindSet) (p : Piece) : Piece × Bool :=
  let q := { p with made := nextRow p.made }
  if k.isEmpty then (q, false) else q.addSpan (Span.closed (q.made - 1) q.made k)

/-- A live PANEL counts a row (R22, R143). -/
def State.countRow (t : Nat) (k : KindSet) (s : State) : State :=
  match s.find t with
  | some r => if r.kind = .panel then s.onPiece t (Piece.countRow k) else s
  | none => s

/-- The missed knots of a row are added to its panel, with KNOT_SHORT (R141, step 2). -/
def State.countMissed (h : HeadIx) (t missed : Nat) (s : State) : State :=
  if missed = 0 then s
  else
    (s.updRec t fun r => r.onPanel fun b => { b with missed := min (b.missed + missed) lengthTop }).raiseAlarm h .knotShort

/-- The close of the open row, however caused (R141): missed knots, charge, span and made rows, the row window's clearing,
and the check of the panel's end (R145). -/
def State.closeRow (h : HeadIx) (s : State) : State :=
  match (s.head h).row with
  | none => s
  | some w =>
    match s.productOf h with
    | none => s
    | some r =>
      let charged := (s.countMissed h r.tag w.missed).chargeRow h w.charge (nextRow r.made)
      ((charged.1.countRow r.tag (w.marks charged.2)).updHead h fun x => { x with row := none }).checkEnd h

/-- A row opens (R135). -/
def State.openRow (h : HeadIx) (s : State) : State :=
  match s.productOf h with
  | none => s
  | some r =>
    match r.body with
    | .panel b =>
      s.updHead h fun x =>
        { x with
          row := some {
            index := b.piece.made
            count := 0
            expiry := x.settings.knotWindow
            flawSeen := x.flawHigh
            knots := b.knots
            bar := b.bar
            allowance := b.allowance }
          excessWatch := 0 }
    | .strand _ | .rope _ | .coil _ => s

/-- KNOT and ROW are followed: a LOOM in a running state (R57). -/
def Head.knots (h : Head) : Bool := decide (h.kind = some .loom) && h.state.running

/-- A knot in the open row; the K-th closes the row and starts the excess watch (R137). -/
def State.countKnot (h : HeadIx) (w : RowWindow) (s : State) : State :=
  let s1 := s.updHead h fun x => { x with row := some { w with count := w.count + 1 } }
  if w.knots ≤ w.count + 1 then (s1.closeRow h).updHead h fun x => { x with excessWatch := w.expiry } else s1

/-- A stray knot (R138). -/
def State.strayKnot (h : HeadIx) (s : State) : State :=
  let s1 := s.raiseAlarm h .knotStray
  if 0 < (s.head h).excessWatch then s1.raiseAlarm h .knotExcess else s1

/-- A KNOT pulse (R137, R138). -/
def State.knotPulse (h : HeadIx) (s : State) : State :=
  if (s.head h).knots then
    match (s.head h).row with
    | some w => s.countKnot h w
    | none => s.strayKnot h
  else s

/-- A ROW pulse (R135, R136). -/
def State.rowPulse (h : HeadIx) (s : State) : State :=
  if (s.head h).knots then (s.closeRow h).openRow h else s

/-- The expiry count of the open row has reached 0 (R139). -/
def Head.rowExpired (h : Head) : Bool :=
  match h.row with
  | some w => decide (w.expiry = 0)
  | none => false

/-- The row expires (R139). -/
def State.rowExpiry (h : HeadIx) (s : State) : State := if (s.head h).rowExpired then s.closeRow h else s

/-! ## Meanings -/

/-- KNOT_PULSE (R137). -/
def execKnotPulse (h : HeadIx) (s : State) : Host.Outcome State Fault Refusal := .next (s.change (State.knotPulse h))

/-- ROW_PULSE (R136). -/
def execRowPulse (h : HeadIx) (s : State) : Host.Outcome State Fault Refusal := .next (s.change (State.rowPulse h))

/-- ROW_EXPIRY (R139): it closes the row whose expiry count a tick has brought to 0 (log entry 3). -/
def execRowExpiry (h : HeadIx) (s : State) : Host.Outcome State Fault Refusal := .next (s.change (State.rowExpiry h))

/-- EXCESS_WATCH_END (R138): the excess watch is 0, and later stray knots raise no KNOT_EXCESS. The tick that counts the
watch down to 0 has already left it there (log entry 6). -/
def execExcessWatchEnd (h : HeadIx) (s : State) : Host.Outcome State Fault Refusal :=
  .next (s.updHead h fun x => { x with excessWatch := 0 })

end Sys2Proof.Machine
end

