-- ==== Sys2Proof/Machine/Coils.lean ====
section
/-! DEFINITION. The coil planner (08_coil_planning_and_packing.md): the planning decision, coil tags and coil creation,
plan points, segment completion, downgrades and the coiler's flaw span. -/

namespace Sys2Proof.Machine

/-! ## The decision -/

/-- What a plan point decides (R155). -/
inductive Plan where
  | noOrder
  | waste (length : Nat)
  | coil (length : Nat) (grade : Grade) (short : Bool)
  deriving DecidableEq, Repr

/-- The planning decision at a current end `e` above 0 (R155). Spans that intersect the candidate end in ascending order,
so the last of them has the highest hi. -/
def planSegment (lmin e : Nat) (queue : List CoilOrder) (spans : List Span) : Plan :=
  if e < lmin then .waste e
  else
    match queue with
    | [] => .noOrder
    | o :: _ =>
      let n := min o.length e
      match (spans.filter fun x => overlap (e - n) e x.lo x.hi).getLast? with
      | none => .coil n .first (decide (n < o.length))
      | some t =>
        match o.rule with
        | .secondOk => .coil n .second (decide (n < o.length))
        | .firstOnly => if lmin ≤ e - t.hi then .coil (e - t.hi) .first true else .waste (e - t.lo)

/-! ## Coil tags -/

/-- The top of the coil serial (R149). -/
def serialTop : Nat := 4294967295

/-- The tag that a prefix and a serial form (R152). -/
def coilTag (pre serial : Nat) : Nat := pre * 4294967296 + serial

/-- The serial after one step, wrapping to 1 (R152). -/
def nextSerial (n : Nat) : Nat := if serialTop ≤ n then 1 else n + 1

/-- The first serial from `n` on, in at most `fuel` steps, whose tag is not live (R152). -/
def findSerial (live : Nat → Bool) (pre : Nat) : Nat → Nat → Option Nat
  | 0, _ => none
  | fuel + 1, n => if live (coilTag pre n) then findSerial live pre fuel (nextSerial n) else some n

/-- A COIL record is created in WINDING as the head's current segment, with its tag chosen by R152 (R4, R156); none when
the store is full. -/
def State.createCoil (h : HeadIx) (rope e len : Nat) (grade : Grade) (short : Bool) (s : State) : Option State :=
  if storeCap ≤ s.store.length then none
  else
    (findSerial s.live s.coilPrefix storeCap s.coilSerial).map fun n =>
      let t := coilTag s.coilPrefix n
      let c : CoilBody := {
        sourceRope := rope
        origin := h
        lo := e - len
        hi := e
        planned := len
        grade := grade
        short := short
        bandTime := none
        belongs := true }
      let r : Record := { Record.fresh t .winding s.clock.seconds (.coil c) with bound := some (h, .segment) }
      (({ s with coilSerial := nextSerial n }.enter r).updHead h fun x =>
        { x with segment := some ⟨some t, len, e - len, 0, true⟩ })

/-! ## Grades and spans -/

/-- The span list of a live record, empty for a tag that is not live. -/
def State.spansOf (s : State) (t : Nat) : List Span := ((s.find t).map Record.spans).getD []

/-- The range by which a coil is judged (R162): a WOUND coil's range; a WINDING coil's reach (R158), by the current end and
the unwind position of the coiler that winds it. -/
def State.judgedRange (s : State) (r : Record) (c : CoilBody) : Nat × Nat :=
  if r.state = .winding then
    match (s.head c.origin).segment, s.sourceOf c.origin with
    | some g, some (_, b) => (min (s.unwindPosition c.origin) g.plannedLo, b.currentEnd)
    | _, _ => (c.lo, c.hi)
  else (c.lo, c.hi)

/-- The downgrade check names a coil (R162): WINDING or WOUND, FIRST, belonging to the rope, and meeting a span. -/
def State.toDowngrade (s : State) (rope : Nat) (r : Record) : Option HeadIx :=
  match r.body with
  | .coil c =>
    let j := s.judgedRange r c
    if c.belongs ∧ c.sourceRope = rope ∧ (r.state = .winding ∨ r.state = .wound) ∧ c.grade = .first ∧
        meetsList j.1 j.2 (s.spansOf rope) then some c.origin
    else none
  | .strand _ | .rope _ | .panel _ => none

/-- A coil is graded SECOND, with COIL_DOWNGRADED at its origin head (R162). -/
def State.downgradeCoil (t : Nat) (origin : HeadIx) (s : State) : State :=
  (s.updRec t fun r => r.onCoil fun c => { c with grade := .second }).raiseAlarm origin .coilDowngraded

/-- The downgrade check on one record (R162). -/
def State.judgeCoil (rope : Nat) (s : State) (r : Record) : State :=
  match s.toDowngrade rope r with
  | some origin => s.downgradeCoil r.tag origin
  | none => s

/-- The downgrade check on every coil of a rope after a change of its span list (R30, R162). -/
def State.downgradeCoils (rope : Nat) (s : State) : State := s.store.foldl (State.judgeCoil rope) s

/-- A closed span is added to a rope that coils may belong to; where it alters the list, the coils are checked (R30, R49,
R99). -/
def State.addRopeSpan (t : Nat) (n : Span) (s : State) : State :=
  let s1 := s.normalizeInto t n
  if s1.spansOf t = s.spansOf t then s1 else s1.downgradeCoils t

/-- A span reaches a coil's range (R48, R163): it overlaps or touches the range as given, or its normalization covers a
position of the range that no span of the list covered. -/
def reachesRange (n : Span) (l : List Span) (lo hi : Nat) : Bool :=
  overlap n.lo n.hi lo hi || touch n.lo n.hi lo hi ||
    (normalize n l).1.any fun x => uncovered (max x.lo lo) (min x.hi hi) l

/-- A span reaches a BANDED coil that belongs to the rope (R48, R163). -/
def State.reachesBanded (rope : Nat) (n : Span) (s : State) : Bool :=
  s.store.any fun r =>
    match r.body with
    | .coil c =>
      c.belongs && decide (c.sourceRope = rope) && decide (r.state = .banded) &&
        reachesRange n (s.spansOf rope) c.lo c.hi
    | .strand _ | .rope _ | .panel _ => false

/-- The interval of a coiler's flaw (R98): [max(0, p_f − g), min(M, p_r + g)), or one millimetre where that is empty. -/
def flawInterval (m g pr pf : Nat) : Nat × Nat :=
  if pf - g < min m (pr + g) then (pf - g, min m (pr + g))
  else if pf = m then (m - 1, m)
  else (pf, pf + 1)

/-- A coiler's flaw span is added to its rope with the fall at unwind position `pf` (R98, R99, R163), and the flaw rise
position becomes absent. Without a rise position it alters nothing; a rope of made length 0 has no position to mark. -/
def State.coilerFlawFall (h : HeadIx) (pf : Nat) (s : State) : State :=
  match (s.head h).flawRise, s.sourceOf h with
  | some pr, some (r, b) =>
    let i := flawInterval b.piece.made (s.head h).settings.guardMargin pr pf
    let n := Span.closed i.1 i.2 (KindSet.only .flaw)
    let s1 := if i.1 < i.2 then s.addRopeSpan r.tag n else s
    let s2 := if s.reachesBanded r.tag n then s1.raiseAlarm h .bandedFlaw else s1
    s2.updHead h fun x => { x with flawRise := none }
  | _, _ => s

/-- A coiler that leaves the running states with FLAW high adds the flaw span as if FLAW fell (R100). -/
def State.flawAtLeaving (h : HeadIx) (pf : Nat) (s : State) : State :=
  if (s.head h).flawHigh then s.coilerFlawFall h pf else s

/-! ## Segments -/

/-- The fields of a coil wound over [lo, hi) (R159, R72): FIRST becomes SECOND where the range meets a span. -/
def CoilBody.wind (lo hi : Nat) (cutShort : Bool) (spans : List Span) (c : CoilBody) : CoilBody where
  sourceRope := c.sourceRope
  origin := c.origin
  lo := lo
  hi := hi
  planned := c.planned
  grade := if meetsList lo hi spans then .second else c.grade
  short := c.short || cutShort
  bandTime := c.bandTime
  belongs := c.belongs

/-- The fields of a live coil. -/
def State.coilOf (s : State) (t : Nat) : Option CoilBody :=
  (s.find t).bind fun r =>
    match r.body with
    | .coil c => some c
    | .strand _ | .rope _ | .panel _ => none

/-- A coil becomes WOUND with the fields `w` (R21). -/
def Record.windTo (w : CoilBody) (r : Record) : Record := { r.unbindTo .wound with body := .coil w }

/-- The coil of the current segment becomes WOUND over the top `actual` mm below `e` (R159, step 2; R72, step 2), and the
rope's packed length rises by it. -/
def State.windCoil (h : HeadIx) (t rope e actual : Nat) (cutShort : Bool) (s : State) : State :=
  match s.coilOf t with
  | none => s
  | some c =>
    let w := c.wind (e - actual) e cutShort (s.spansOf rope)
    let s1 := s.updRec t fun r => r.windTo w
    let s2 := s1.updRec rope fun r => r.onRope fun b => { b with packed := b.packed + actual }
    if c.grade = w.grade then s2 else s2.raiseAlarm h .coilDowngraded

/-- The rope's waste length rises (R154, R159, R72). -/
def State.addWaste (rope n : Nat) (s : State) : State :=
  s.updRec rope fun r => r.onRope fun b => { b with waste := b.waste + n }

/-- A grade meets a grade rule (R160). -/
def GradeRule.meets : GradeRule → Grade → Bool
  | .firstOnly, .first => true
  | .firstOnly, .second => false
  | .secondOk, _ => true

/-- The queue after the completion of a COIL segment (R160). -/
def judgeQueue (link : Bool) (c : CoilBody) : List CoilOrder → List CoilOrder
  | [] => []
  | o :: rest =>
    if link && !c.short && decide (o.length ≤ c.hi - c.lo) && o.rule.meets c.grade then
      if o.count ≤ 1 then rest else { o with count := o.count - 1 } :: rest
    else o :: rest

/-- The completion of the current segment at a cut completion (R159, R160), before the plan point that follows. -/
def State.completeSegment (h : HeadIx) (s : State) : State :=
  match (s.head h).segment, s.sourceOf h with
  | some g, some (r, b) =>
    let e := b.currentEnd
    let actual := min g.unwound e
    let s1 := match g.coil with
      | some t =>
        let w := s.windCoil h t r.tag e actual false
        match w.coilOf t with
        | some c => w.updHead h fun x => { x with queue := judgeQueue g.link c x.queue }
        | none => w
      | none => s.addWaste r.tag actual
    (s1.raise h .coil).updHead h fun x => { x with segment := none }
  | _, _ => s

/-- The segment or the unplanned length of a coiler that gives up its rope (R72, steps 2 and 3): the coil is WOUND cut short, a
waste segment and an unplanned length add to the waste length. -/
def State.cutShort (h : HeadIx) (rope e : Nat) (s : State) : State :=
  match (s.head h).segment with
  | some g =>
    let actual := min g.unwound e
    (match g.coil with
     | some t => s.windCoil h t rope e actual true
     | none => s.addWaste rope actual).raise h .coil
  | none =>
    let w := s.addWaste rope (min (s.head h).unplanned e)
    if 0 < (s.head h).unplanned then w.raise h .coil else w

/-- The rope that a coiler gives up becomes SPENT with nothing left, MADE otherwise (R72, step 4). -/
def State.giveUpRope (h : HeadIx) (s : State) : State :=
  match s.sourceOf h with
  | none => s
  | some (r, b) =>
    if b.currentEnd = 0 then (s.updRec r.tag fun y => y.unbindTo .spent).raise h .coil
    else s.updRec r.tag fun y => y.unbindTo .made

/-- A RELEASE or disconnect of a coiler in RUN, STOPPED, HELD or CUTTING (R72, R75, R161). -/
def State.endSegment (h : HeadIx) (s : State) : State :=
  let f := s.flawAtLeaving h (s.unwindPosition h)
  match f.sourceOf h with
  | none => f
  | some (r, b) => (f.cutShort h r.tag b.currentEnd).giveUpRope h

/-! ## Plan points -/

/-- A plan point that finds the current end at 0 ends the rope (R164). -/
def State.endRope (h : HeadIx) (rope : Nat) (s : State) : State :=
  let s1 := (s.flawAtLeaving h 0).updRec rope fun r => r.unbindTo .spent
  ((s1.updHead h fun x =>
    { x with
      state := .done
      holds := {}
      source := none
      segment := none
      unplanned := 0
      flawRise := none }).raise h .state).raise h .coil

/-- A plan point that waits (R157): the one reason is present and the other absent, and the head is HELD, entered with STATE
from READY and CUTTING. -/
def State.planWaits (h : HeadIx) (x : HoldReason) (s : State) : State :=
  let s1 := s.updHead h fun y =>
    { y with
      holds := (y.holds.put (decide (x = .queueEmpty)) .queueEmpty).put (decide (x = .storeFull)) .storeFull }
  match (s.head h).state with
  | .ready | .cutting => s1.enterHeld h
  | .empty | .idle | .run | .stopped | .held | .done => s1

/-- A plan point that made a segment (R157): both reasons are absent; READY stays, CUTTING and HELD go by RUN. -/
def State.planMade (h : HeadIx) (s : State) : State :=
  s.updHead h fun y =>
    let z := { y with holds := (y.holds.put false .queueEmpty).put false .storeFull }
    match y.state with
    | .cutting | .held => { z with state := y.byRun }
    | .empty | .idle | .ready | .run | .stopped | .done => z

/-- What a plan point at a current end above 0 does with its decision (R155, R156, R157). -/
def State.applyPlan (h : HeadIx) (rope e : Nat) (s : State) : Plan → State
  | .noOrder => s.planWaits h .queueEmpty
  | .waste n => (s.updHead h fun x => { x with segment := some ⟨none, n, e - n, 0, false⟩ }).planMade h
  | .coil n grade short =>
    match s.createCoil h rope e n grade short with
    | some t => t.planMade h
    | none => s.planWaits h .storeFull

/-- The opening of a plan point (R154, steps 1 and 2): the unplanned length goes to waste, and the counts are fresh. -/
def State.openPlan (h : HeadIx) (rope e0 : Nat) (s : State) : State :=
  let u := (s.head h).unplanned
  let s1 := (s.addWaste rope (min u e0)).updHead h fun x => { x with unplanned := 0, pitchFraction := 0 }
  if 0 < u then s1.raise h .coil else s1

/-- A plan point (R153 to R157, R164). -/
def State.planPoint (h : HeadIx) (s : State) : State :=
  match s.sourceOf h with
  | none => s
  | some (r, b) =>
    let e := b.currentEnd - (s.head h).unplanned
    let s1 := s.openPlan h r.tag b.currentEnd
    if e = 0 then s1.endRope h r.tag
    else s1.applyPlan h r.tag e (planSegment (s.head h).settings.minCoil e (s.head h).queue b.piece.spans)

/-- The plan point of a notified coiler (R5, R153): none when the coiler was not notified or holds STORE_FULL no more. -/
def State.storeFullNotification (h : HeadIx) (s : State) : State :=
  if (s.head h).notified then
    let s1 := s.updHead h fun x => { x with notified := false }
    if (s.head h).holds.storeFull then s1.planPoint h else s1
  else s

/-! ## Meanings -/

/-- STORE_FULL_NOTIFICATION (R153, R165). -/
def execStoreFullNotification (h : HeadIx) (s : State) : Host.Outcome State Fault Refusal :=
  .next (s.change (State.storeFullNotification h))

end Sys2Proof.Machine
end

