-- ==== Sys2Proof/Machine/Heads.lean ====
section
/-! DEFINITION. The head state machine (03_head_positions.md): sensing, the edges of RUN and FLAW, cut completion, and the
end of a binding by RELEASE or disconnect. -/

namespace Sys2Proof.Machine

/-! ## The end of a binding -/

/-- A maker's product leaves MAKING (R18, R119, R123): its feeds are unbound to MADE at the product position, and `leave`
takes the record out. -/
def State.endMaking (h : HeadIx) (leave : Record → Record) (s : State) : State :=
  match s.productOf h with
  | none => s
  | some r => (allSlots.foldl (State.unbindSlot h .made r.made) s).updRec r.tag leave

/-- RELEASE or disconnect in READY undoes the binding (R70). -/
def State.undoBinding (h : HeadIx) (s : State) : State :=
  match (s.head h).source with
  | none => s.endMaking h fun r => r.unbindTo (r.boundFrom.getD .draft)
  | some t =>
    let s1 := s.updRec t fun r => r.unbindTo .made
    match (s.head h).segment.bind Segment.coil with
    | some c => s1.leave c
    | none => s1

/-- RELEASE or disconnect in a running state (R71, R72, R74, R75). -/
def State.endRunning (h : HeadIx) (leave : Record → Record) (s : State) : State :=
  match (s.head h).kind with
  | some .coiler => s.endSegment h
  | some .loom => (s.closeRow h).endMaking h leave
  | some .strander | some .closer | none => s.endMaking h leave

/-- What the end of a binding does to the records, by the head's state (R70 to R75). -/
def State.settleRecords (h : HeadIx) (leave : Record → Record) (s : State) : State :=
  match (s.head h).state with
  | .ready => s.undoBinding h
  | .run | .stopped | .held | .cutting => s.endRunning h leave
  | .empty | .idle | .done => s

/-- The blocks of a head at the end of a binding (R69, R76, R96, R100, R119, R134, R161): bindings, slots, segment, holds,
windows and release positions are gone, MARK is low. The trim code, the last measurements, the settings and the queue are
kept. -/
def Head.free (st : HeadState) (h : Head) : Head :=
  { h with
    state := st
    holds := {}
    product := none
    source := none
    cutWait := none
    markHigh := false
    guardRelease := none
    joinRelease := none
    flawRise := none
    window := none
    slots := Vector.replicate 4 {}
    row := none
    excessWatch := 0
    segment := none
    unplanned := 0 }

/-- A RELEASE that is carried out (R69 to R73). -/
def State.releaseHead (h : HeadIx) (s : State) : State :=
  (s.settleRecords h fun r => r.unbindTo .made).updHead h fun x => x.free .idle

/-- A disconnect (R74 to R76). -/
def State.disconnect (h : HeadIx) (s : State) : State :=
  (s.settleRecords h Record.interrupt).updHead h fun x => { x.free .empty with queue := [] }

/-! ## Cut completion -/

/-- The blocks of a maker's head at cut completion (R64, R93, R119, R146): DONE, with MARK as it stands. -/
def Head.complete (h : Head) : Head := { h.free .done with markHigh := h.markHigh }

/-- A cut completes (R63, R64): a maker's product becomes MADE and the head DONE; a coiler's segment is completed and a plan
point follows. -/
def State.completeCut (h : HeadIx) (s : State) : State :=
  match (s.head h).kind with
  | some .coiler => ((s.completeSegment h).planPoint h).updHead h fun x => { x with cutWait := none }
  | some .loom =>
    ((((s.closeRow h).endMaking h fun r => r.unbindTo .made).updHead h Head.complete).raise h .state)
  | some .strander | some .closer | none =>
    ((s.endMaking h fun r => r.unbindTo .made).updHead h Head.complete).raise h .state

/-- The 16th tick after the entry to a cut with RUN low has come (R63). -/
def State.cutWaitExpiry (h : HeadIx) (s : State) : State :=
  if (s.head h).state = .cutting ∧ (s.head h).cutWait = some 0 then s.completeCut h else s

/-! ## Edges of RUN -/

/-- The feed check at a rise of RUN (R60, R130). -/
def State.checkFeeds (h : HeadIx) (s : State) : State := if (s.head h).feedMissing then s.addHold h .feedShort else s

/-- A rise of RUN (R60): from READY the head enters RUN with FLAW high taken as rising (R57), the feed check and the cut
point check; from STOPPED it enters RUN with the feed check. -/
def State.runRise (h : HeadIx) (s : State) : State :=
  let s1 := s.updHead h fun x => { x with runHigh := true }
  match (s.head h).state with
  | .ready =>
    let s2 := s1.updHead h fun x => { x with state := .run }
    let s3 := if (s.head h).flawHigh then s2.flawRises h else s2
    (s3.checkFeeds h).checkEnd h
  | .stopped => (s1.updHead h fun x => { x with state := .run }).checkFeeds h
  | .empty | .idle | .run | .held | .cutting | .done => s1

/-- A fall of RUN (R60, R63, R104). -/
def State.runFall (h : HeadIx) (s : State) : State :=
  let s1 := s.updHead h fun x => { x with runHigh := false }
  match (s.head h).state with
  | .run => s1.updHead h fun x => { x with state := .stopped, window := none }
  | .cutting => if (s.head h).cutRunHigh then s1.completeCut h else s1
  | .empty | .idle | .ready | .stopped | .held | .done => s1

/-! ## Edges of FLAW -/

/-- A rise of FLAW (R57, R94, R98, R142): the level is held in every state (log entry 8) and acted on in the running
states. -/
def State.flawRiseEdge (h : HeadIx) (s : State) : State :=
  let s1 := s.updHead h fun x => { x with flawHigh := true }
  if (s.head h).state.running then s1.flawRises h else s1

/-- A fall of FLAW (R57, R95, R98). -/
def State.flawFallEdge (h : HeadIx) (s : State) : State :=
  let s1 := s.updHead h fun x => { x with flawHigh := false }
  if (s.head h).state.running then
    match (s.head h).kind with
    | some .strander | some .closer => s1.makerFlawFall h
    | some .coiler => s1.coilerFlawFall h (s.unwindPosition h)
    | some .loom | none => s1
  else s1

/-! ## Sensing -/

/-- The result of a combination of the sense pins (R55). -/
def senseResult (p : SensePins) : SenseResult :=
  match p.p1, p.p2, p.k1, p.k2 with
  | false, false, _, _ => .empty
  | true, false, _, _ => .partialPlug
  | false, true, _, _ => .partialPlug
  | true, true, false, false => .machine .strander
  | true, true, true, false => .machine .closer
  | true, true, false, true => .machine .loom
  | true, true, true, true => .machine .coiler

/-- The settle count's top (R54). -/
def settleTop : Nat := 64

/-- One sample of a head's sense pins (R54). -/
def Head.sample (p : SensePins) (h : Head) : Head :=
  if p = h.candidate then { h with settle := min (h.settle + 1) settleTop }
  else { h with candidate := p, settle := 1 }

/-- The state of a head whose accepted result has become `r` (R55). -/
def SenseResult.state : SenseResult → HeadState
  | .machine _ => .idle
  | .empty | .partialPlug => .empty

/-- A combination has settled and its result is accepted (R54, R55): a connected machine is disconnected first, and SENSE
is raised once. -/
def State.senseSettled (h : HeadIx) (s : State) : State :=
  let r := senseResult (s.head h).candidate
  if settleTop ≤ (s.head h).settle ∧ r ≠ (s.head h).accepted then
    let s1 := if (s.head h).kind.isSome then s.disconnect h else s
    (s1.updHead h fun x => { x with accepted := r, state := r.state }).raise h .sense
  else s

/-! ## Meanings -/

/-- RUN_RISE (R60). -/
def execRunRise (h : HeadIx) (s : State) : Host.Outcome State Fault Refusal := .next (s.change (State.runRise h))

/-- RUN_FALL (R60, R63). -/
def execRunFall (h : HeadIx) (s : State) : Host.Outcome State Fault Refusal := .next (s.change (State.runFall h))

/-- CUT_WAIT_EXPIRY (R63): it completes the cut whose wait a tick has brought to 0 (log entry 3). -/
def execCutWaitExpiry (h : HeadIx) (s : State) : Host.Outcome State Fault Refusal :=
  .next (s.change (State.cutWaitExpiry h))

/-- FLAW_RISE (R94, R98, R142). -/
def execFlawRise (h : HeadIx) (s : State) : Host.Outcome State Fault Refusal := .next (s.change (State.flawRiseEdge h))

/-- FLAW_FALL (R95, R98). -/
def execFlawFall (h : HeadIx) (s : State) : Host.Outcome State Fault Refusal := .next (s.change (State.flawFallEdge h))

/-- SENSE_SETTLED (R55): it accepts the candidate that a tick has brought to a settle count of 64 (log entry 3). -/
def execSenseSettled (h : HeadIx) (s : State) : Host.Outcome State Fault Refusal := .next (s.change (State.senseSettled h))

end Sys2Proof.Machine
end

