-- ==== Sys2Proof/Machine/Clock.lean ====
section
/-! DEFINITION. The works clock (9.1) and what comes with its ticks (R54, R63, R138, R139), the start of a TRIM period (R59),
and RESET_N (R32). -/

namespace Sys2Proof.Machine

/-- The ticks of a second (R167). -/
def ticksPerSecond : Nat := 1024

/-- The works clock after a tick (R167). -/
def Clock.tick (c : Clock) : Clock :=
  if c.ticks + 1 < ticksPerSecond then { c with ticks := c.ticks + 1 } else ⟨c.seconds + 1, 0⟩

/-- A head at a tick: its sense pins are sampled (R54), and the expiry count of an open row (R139), the excess watch (R138)
and the wait of a cut (R63) fall by one. -/
def Head.tick (p : SensePins) (h : Head) : Head :=
  { h.sample p with
    row := h.row.map fun w => { w with expiry := w.expiry - 1 }
    excessWatch := h.excessWatch - 1
    cutWait := h.cutWait.map fun n => n - 1 }

/-- A tick (R167); the panel link is quiet until the first one after reset (R189). -/
def State.tick (pins : Vector SensePins 16) (s : State) : State :=
  { s with
    clock := s.clock.tick
    heads := Vector.ofFn fun h => (s.head h).tick pins[h.val]
    link := { s.link with quiet := false } }

/-- The start of the TRIM period that every head's waveform shares: each takes its trim code as its duty (R59). -/
def State.trimPeriod (s : State) : State :=
  { s with heads := Vector.ofFn fun h => { s.head h with duty := (s.head h).trim } }

/-- The head after RESET_N (R80). The levels of RUN and FLAW are levels of lines from outside, which RESET_N does not move
(log entry 5). -/
def Head.afterReset (h : Head) : Head := { Head.reset with runHigh := h.runHigh, flawHigh := h.flawHigh }

/-- The machine after RESET_N (R32, R80, R149, R167, R171, R174, R176, R189). -/
def State.afterReset (s : State) : State :=
  { State.reset with pending := s.pending, heads := Vector.ofFn fun h => (s.head h).afterReset }

/-! ## Meanings -/

/-- RESET_N (R32). -/
def execResetN (s : State) : Host.Outcome State Fault Refusal := .next s.afterReset

/-- TICK (R167). -/
def execTick (pins : Vector SensePins 16) (s : State) : Host.Outcome State Fault Refusal := .next (s.tick pins)

/-- TRIM_PERIOD_START (R59). -/
def execTrimPeriodStart (s : State) : Host.Outcome State Fault Refusal := .next s.trimPeriod

end Sys2Proof.Machine
end

