-- ==== Sys2Proof/Machine/Operands.lean ====
section
/-! DEFINITION. The operand forms of the requests: coded values (R182), specification items with their ranges (R43, R44), head
settings with their clamps (R77, R78) and device settings (R174). -/

namespace Sys2Proof.Machine

/-! ## Coded values (R182) -/

/-- The completion codes (R34). -/
inductive Completion where
  | done | notFound | tagExists | stale | wrongState | wrongKind | full | denied | badField | noHead
  deriving DecidableEq, Repr

/-- The byte of a completion code. -/
def Completion.code : Completion → Byte
  | .done => 0
  | .notFound => 1
  | .tagExists => 2
  | .stale => 3
  | .wrongState => 4
  | .wrongKind => 5
  | .full => 6
  | .denied => 7
  | .badField => 8
  | .noHead => 9

/-- The code of a record kind. -/
def RecordKind.code : RecordKind → Nat
  | .strand => 1
  | .rope => 2
  | .panel => 3
  | .coil => 4

/-- The record kind of a code. -/
def recordKindOf : Nat → Option RecordKind
  | 1 => some .strand
  | 2 => some .rope
  | 3 => some .panel
  | 4 => some .coil
  | _ => none

/-- The code of a record state. -/
def RecordState.code : RecordState → Nat
  | .draft => 1
  | .making => 2
  | .interrupted => 3
  | .made => 4
  | .inUse => 5
  | .spent => 6
  | .winding => 7
  | .wound => 8
  | .banded => 9

/-- The record state of a code. -/
def recordStateOf : Nat → Option RecordState
  | 1 => some .draft
  | 2 => some .making
  | 3 => some .interrupted
  | 4 => some .made
  | 5 => some .inUse
  | 6 => some .spent
  | 7 => some .winding
  | 8 => some .wound
  | 9 => some .banded
  | _ => none

/-- The kind of span of an ADD_SPAN code. -/
def addedKindOf : Nat → Option SpanKind
  | 1 => some .splice
  | 2 => some .flaw
  | _ => none

/-- The code of a sense result. -/
def SenseResult.code : SenseResult → Nat
  | .empty => 0
  | .partialPlug => 1
  | .machine .strander => 2
  | .machine .closer => 3
  | .machine .loom => 4
  | .machine .coiler => 5

/-- The code of a head state. -/
def HeadState.code : HeadState → Nat
  | .empty => 0
  | .idle => 1
  | .ready => 2
  | .run => 3
  | .stopped => 4
  | .held => 5
  | .cutting => 6
  | .done => 7

/-- The code of a grade rule. -/
def GradeRule.code : GradeRule → Nat
  | .firstOnly => 1
  | .secondOk => 2

/-- The grade rule of a code. -/
def gradeRuleOf : Nat → Option GradeRule
  | 1 => some .firstOnly
  | 2 => some .secondOk
  | _ => none

/-- The code of a trim polarity. -/
def Polarity.code : Polarity → Nat
  | .normal => 0
  | .inverted => 1

/-- The trim polarity of a code. -/
def polarityOf : Nat → Option Polarity
  | 0 => some .normal
  | 1 => some .inverted
  | _ => none

/-- The code of a clear mode. -/
def ClearMode.code : ClearMode → Nat
  | .explicit => 0
  | .readClears => 1

/-- The clear mode of a code. -/
def clearModeOf : Nat → Option ClearMode
  | 0 => some .explicit
  | 1 => some .readClears
  | _ => none

/-- The code of a route. -/
def Route.code : Route → Nat
  | .none => 0
  | .a => 1
  | .b => 2

/-- The route of a code. -/
def routeOf : Nat → Option Route
  | 0 => some .none
  | 1 => some .a
  | 2 => some .b
  | _ => Option.none

/-- The head of an index operand, none above 15 (R65). -/
def headOf (n : Nat) : Option HeadIx := if h : n < 16 then some ⟨n, h⟩ else none

/-- The slot of an index operand, none above 3 (R120). -/
def slotOf (n : Nat) : Option SlotIx := if h : n < 4 then some ⟨n, h⟩ else none

/-! ## Lists of items -/

/-- No number stands twice in a list of items. -/
def distinctItems : List Item → Bool
  | [] => true
  | it :: l => !(l.any fun x => decide (x.number = it.number)) && distinctItems l

/-- The value that a list gives to an item number. -/
def itemValue (l : List Item) (n : Nat) : Option Nat := (l.find? fun x => decide (x.number = n)).bind Item.value

/-- A list names an item number. -/
def namesItem (l : List Item) (n : Nat) : Bool := l.any fun x => decide (x.number = n)

/-- A value clamped between two bounds. -/
def clampNat (lo hi v : Nat) : Nat := max lo (min v hi)

/-! ## Specifications (R43, R44) -/

/-- The item numbers a kind of record carries (R43, R181). -/
def RecordKind.carries : RecordKind → Nat → Bool
  | .strand, n => decide (1 ≤ n) && decide (n ≤ 2)
  | .rope, n => decide (1 ≤ n) && decide (n ≤ 4)
  | .panel, n => decide (5 ≤ n) && decide (n ≤ 8)
  | .coil, _ => false

/-- The range of a specification field (R43). -/
def specRange : Nat → Option (Nat × Nat)
  | 1 => some (16, 65535)
  | 2 => some (1, 4294967295)
  | 3 => some (3, 4)
  | 4 => some (65536, 131071)
  | 5 => some (1, 1023)
  | 6 => some (1, 2000)
  | 7 => some (0, 500)
  | 8 => some (1, 65535)
  | _ => none

/-- A value lies in its field's range (R43). -/
def specInRange (n v : Nat) : Bool :=
  match specRange n with
  | some r => decide (r.1 ≤ v) && decide (v ≤ r.2)
  | none => false

/-- The optional fields: target lay, ordered length and target rows (R43). They are also the fields that may be amended in
MAKING and INTERRUPTED (R44). -/
def specOptional (n : Nat) : Bool := decide (n = 1) || decide (n = 2) || decide (n = 8)

/-- One item passes the field check: the kind carries it, its value is in range, and only AMEND makes an optional field
absent (R43, R44). -/
def specItemOk (k : RecordKind) (amend : Bool) (it : Item) : Bool :=
  k.carries it.number &&
    match it.value with
    | some v => specInRange it.number v
    | none => amend && specOptional it.number

/-- The required fields of a kind (R43). -/
def RecordKind.required : RecordKind → List Nat
  | .strand => []
  | .rope => [3, 4]
  | .panel => [5, 6, 7]
  | .coil => []

/-- The list of a CREATE passes the field check (R43). -/
def createListOk (k : RecordKind) (l : List Item) : Bool :=
  l.all (specItemOk k false) && distinctItems l && k.required.all (namesItem l)

/-- The list of an AMEND passes the field check (R43, R44). -/
def amendListOk (k : RecordKind) (l : List Item) : Bool := l.all (specItemOk k true) && distinctItems l

/-- The list of an AMEND passes the state check (R44): in MAKING and INTERRUPTED it names none of the fields its kind carries
but the optional ones. -/
def amendStateOk (k : RecordKind) (st : RecordState) (l : List Item) : Bool :=
  match st with
  | .draft => true
  | .making | .interrupted => l.all fun it => !k.carries it.number || specOptional it.number
  | .made | .inUse | .spent | .winding | .wound | .banded => false

/-- An empty piece (R13 to R15, R24). -/
def Piece.fresh : Piece := ⟨0, [], none⟩

/-- The fields of a new record, with the specification as given and the rest at its values at creation (R13 to R15). No
CREATE makes a COIL (R42). -/
def freshBody (l : List Item) : RecordKind → Option Body
  | .strand => some (.strand ⟨itemValue l 1, itemValue l 2, Piece.fresh, 0, 0⟩)
  | .rope => some (.rope {
      targetLay := itemValue l 1
      orderedLength := itemValue l 2
      strandCount := (itemValue l 3).getD 0
      factor := (itemValue l 4).getD 0
      piece := Piece.fresh
      packed := 0
      waste := 0
      sources := []
      passed := 0 })
  | .panel => some (.panel {
      knots := (itemValue l 5).getD 0
      bar := (itemValue l 6).getD 0
      allowance := (itemValue l 7).getD 0
      targetRows := itemValue l 8
      piece := Piece.fresh
      missed := 0
      sources := [] })
  | .coil => none

/-- One field of a specification set, or made absent (R44, R45). -/
def Body.setSpec (it : Item) : Body → Body
  | .strand b =>
    match it.number with
    | 1 => .strand { b with targetLay := it.value }
    | 2 => .strand { b with orderedLength := it.value }
    | _ => .strand b
  | .rope b =>
    match it.number, it.value with
    | 1, v => .rope { b with targetLay := v }
    | 2, v => .rope { b with orderedLength := v }
    | 3, some v => .rope { b with strandCount := v }
    | 4, some v => .rope { b with factor := v }
    | _, _ => .rope b
  | .panel b =>
    match it.number, it.value with
    | 5, some v => .panel { b with knots := v }
    | 6, some v => .panel { b with bar := v }
    | 7, some v => .panel { b with allowance := v }
    | 8, v => .panel { b with targetRows := v }
    | _, _ => .panel b
  | .coil b => .coil b

/-! ## Head settings (R77, R78) -/

/-- The item number of the trim polarity, the one enumerated setting (R181). -/
def polarityItem : Nat := 13

/-- One item of SET_HEAD passes: the setting exists, and a polarity names a polarity (R78). -/
def settingItemOk (it : Item) : Bool :=
  match it.value with
  | none => false
  | some v => (settingWidth it.number).isSome && (decide (it.number ≠ polarityItem) || (polarityOf v).isSome)

/-- The list of a SET_HEAD passes (R78). -/
def settingListOk (l : List Item) : Bool := l.all settingItemOk && distinctItems l

/-- One setting written, a numeric value clamped into its range (R77, R78). -/
def Settings.write (s : Settings) (n v : Nat) : Settings :=
  match n with
  | 1 => { s with pitch := clampNat 1 16777215 v }
  | 2 => { s with spindle := clampNat 1 255 v }
  | 3 => { s with turns := clampNat 1 64 v }
  | 4 => { s with gain := clampNat 0 255 v }
  | 5 => { s with trimMin := clampNat 0 512 v }
  | 6 => { s with trimMax := clampNat 512 1023 v }
  | 7 => { s with tolerance := clampNat 1 500 v }
  | 8 => { s with marker := clampNat 0 255 v }
  | 9 => { s with guardMargin := clampNat 0 9999 v }
  | 10 => { s with knotWindow := clampNat 1 65535 v }
  | 11 => { s with feedLow := clampNat 0 65535 v }
  | 12 => { s with minCoil := clampNat 1000 1000000 v }
  | 13 => { s with polarity := (polarityOf v).getD s.polarity }
  | _ => s

/-- The settings after a SET_HEAD's list (R78). -/
def Settings.writeList (s : Settings) (l : List Item) : Settings :=
  l.foldl (fun t it => match it.value with
    | some v => t.write it.number v
    | none => t) s

/-! ## Device settings (R152, R174, R194) -/

/-- The flag whose mask an item of SET_DEVICE sets: 16 + k (R181). -/
def maskItem (n : Nat) : Option (Fin 66) := if h : 16 ≤ n ∧ n - 16 < 66 then some ⟨n - 16, h.2⟩ else none

/-- The flag whose route an item of SET_DEVICE sets: 96 + k (R181). -/
def routeItem (n : Nat) : Option (Fin 66) := if h : 96 ≤ n ∧ n - 96 < 66 then some ⟨n - 96, h.2⟩ else none

/-- The panel whose head mask an item of SET_DEVICE sets: 4 to 11 (R181). -/
def headMaskItem (n : Nat) : Option PanelIx := if h : 4 ≤ n ∧ n - 4 < 8 then some ⟨n - 4, h.2⟩ else none

/-- One item of SET_DEVICE passes: the field exists, and an enumerated value is of its set (R174). -/
def deviceItemOk (it : Item) : Bool :=
  match it.value with
  | none => false
  | some v =>
    (deviceWidth it.number).isSome &&
      (decide (it.number ≠ 1) || (clearModeOf v).isSome) &&
      (!(maskItem it.number).isSome || decide (v ≤ 1)) &&
      (!(routeItem it.number).isSome || (routeOf v).isSome)

/-- The list of a SET_DEVICE passes (R174). -/
def deviceListOk (l : List Item) : Bool := l.all deviceItemOk && distinctItems l

/-- One flag's mask set or cleared (R171). -/
def Attention.setMask (a : Attention) (k : Fin 66) (v : Bool) : Attention :=
  { a with masks := if v then a.masks ||| flagBit k.val else a.masks &&& ~~~flagBit k.val }

/-- One flag routed (R171). -/
def Attention.setRoute (a : Attention) (k : Fin 66) (r : Route) : Attention :=
  { a with routes := a.routes.set k.val r k.isLt }

/-- One device setting written (R152, R174, R194). -/
def State.writeDevice (s : State) (n v : Nat) : State :=
  if n = 1 then s.updAttn fun a => { a with clearMode := (clearModeOf v).getD a.clearMode }
  else if n = 2 then { s with coilPrefix := clampNat 0 65535 v }
  else if n = 3 then { s with coilSerial := clampNat 1 serialTop v }
  else
    match headMaskItem n, maskItem n, routeItem n with
    | some p, _, _ =>
      { s with link := { s.link with
          panels := s.link.panels.set p.val { s.link.panels[p.val] with mask := BitVec.ofNat 16 v } p.isLt } }
    | none, some k, _ => s.updAttn fun a => a.setMask k (decide (v = 1))
    | none, none, some k => s.updAttn fun a => a.setRoute k ((routeOf v).getD .none)
    | none, none, none => s

/-- The device settings after a SET_DEVICE's list (R174). -/
def State.writeDeviceList (s : State) (l : List Item) : State :=
  l.foldl (fun t it => match it.value with
    | some v => t.writeDevice it.number v
    | none => t) s

end Sys2Proof.Machine
end

