-- ==== Sys2Proof/Machine/Reports.lean ====
section
/-! DEFINITION. The layouts of what the responses report (R17, R182 to R186): record summaries, spans, sources, head status,
settings and the event image. -/

namespace Sys2Proof.Machine

/-- A one-byte number. -/
def byte (n : Nat) : Byte := BitVec.ofNat 8 n

/-- An optional number, 0 when it is absent (R183). -/
def orZero (x : Option Nat) : Nat := x.getD 0

/-! ## Records (R183) -/

/-- The role's number in a bound head byte (R183). -/
def Role.code : Role → Nat
  | .product => 0
  | .feed n => n.val + 1
  | .source => 5
  | .segment => 6

/-- The bound head byte (R183). -/
def boundByte : Option (HeadIx × Role) → Byte
  | none => 0
  | some (h, r) => byte (128 + 16 * r.code + h.val)

/-- The common part of a record summary (R183). Bits 2 to 7 of its flag byte, which R183 gives no meaning, are sent as 0 (log
entry 34). -/
def Record.commonBytes (r : Record) : List Byte :=
  beBytes 6 r.tag ++ [byte r.kind.code, byte r.state.code, r.mark] ++ beBytes 4 r.created.toNat ++
    beBytes 4 r.changed.toNat ++ [byte (bit r.interruptedOnce 0 + bit r.spansMerged 1), boundByte r.bound]

/-- The presence byte of a STRAND or ROPE (R183); its bits without a meaning are sent as 0 (log entry 34). -/
def presenceByte (target ordered : Option Nat) (p : Piece) : Byte :=
  byte (bit target.isSome 0 + bit ordered.isSome 1 + bit p.openSpan.isSome 4 + bit p.pending.isSome 5)

/-- The part of a record summary of the record's kind (R183). The bits without a meaning of a PANEL's presence byte and of the
coil byte are sent as 0 (log entry 34). -/
def Body.summaryBytes : Body → List Byte
  | .strand b =>
    [presenceByte b.targetLay b.orderedLength b.piece] ++ beBytes 2 (orZero b.targetLay) ++
      beBytes 4 (orZero b.orderedLength) ++ beBytes 4 b.piece.made ++ beBytes 4 b.consumed ++ beBytes 2 b.fraction ++
      [byte b.piece.spans.length]
  | .rope b =>
    [presenceByte b.targetLay b.orderedLength b.piece] ++ beBytes 2 (orZero b.targetLay) ++
      beBytes 4 (orZero b.orderedLength) ++ [byte b.strandCount] ++ beBytes 4 b.factor ++ beBytes 4 b.piece.made ++
      beBytes 4 b.packed ++ beBytes 4 b.waste ++ [byte b.piece.spans.length, byte b.sources.length]
  | .panel b =>
    [byte (bit b.targetRows.isSome 2)] ++ beBytes 2 b.knots ++ beBytes 2 b.bar ++ beBytes 2 b.allowance ++
      beBytes 2 (orZero b.targetRows) ++ beBytes 2 b.piece.made ++ beBytes 4 b.missed ++
      [byte b.piece.spans.length, byte b.sources.length]
  | .coil c =>
    [byte (bit (decide (c.grade = .second)) 0 + bit c.short 1 + bit c.bandTime.isSome 3)] ++ beBytes 6 c.sourceRope ++
      [byte c.origin.val] ++ beBytes 4 c.lo ++ beBytes 4 c.hi ++ beBytes 4 c.planned ++
      beBytes 4 (orZero (c.bandTime.map BitVec.toNat))

/-- The record summary (R17, R183). -/
def Record.summary (r : Record) : List Byte := r.commonBytes ++ r.body.summaryBytes

/-! ## Spans and sources (R184) -/

/-- The kinds bits of a span entry (R184). -/
def KindSet.bits (k : KindSet) : Nat :=
  bit k.lay 0 + bit k.flaw 1 + bit k.splice 2 + bit k.join 3 + bit k.feed 4 + bit k.knot 5

/-- The holders byte of a span entry (R184). -/
def HolderSet.bits (s : HolderSet) : Nat :=
  bit s.lay 0 + bit s.flaw 1 + bit s.guard 2 + bit s.join 3 + bit s.feed0 4 + bit s.feed1 5 + bit s.feed2 6 + bit s.feed3 7

/-- A span entry (R184). Bit 6 of the kinds byte, which R184 gives no meaning, is sent as 0 (log entry 34). -/
def Span.entry (s : Span) : List Byte :=
  beBytes 4 s.lo ++ beBytes 4 s.hi ++ [byte (s.kinds.bits + bit s.isOpen 7), byte s.holders.bits]

/-- What READ_SPANS reports of a piece, after the mark (R40, R184). Bits 1 to 7 of the pending byte are sent as 0 (log entry 34). -/
def Piece.report (p : Piece) : List Byte :=
  beBytes 4 p.made ++ [byte (bit p.pending.isSome 0), byte p.spans.length] ++ p.spans.flatMap Span.entry

/-- `n` free bytes from place `i` of the `k`-th report that holds free bytes (log entry 1). -/
def freeBytes (k i n : Nat) : List Byte := (List.range n).map fun j => Config.freeByte k (i + j)

/-- A source entry at place `i` of its report (R184). The field `to` of an open entry has no stated content (log entry 1); bits 2
to 6 of byte 6 are sent as 0 (log entry 34). -/
def SourceEntry.entry (k i : Nat) (e : SourceEntry) : List Byte :=
  beBytes 6 e.strand ++ [byte (e.slot.val + bit e.stop.isSome 7)] ++ beBytes 4 e.start ++
    match e.stop with
    | some t => beBytes 4 t
    | none => freeBytes k i 4

/-- The entries from the front of a list, the first at place `i` (R184). -/
def sourceEntries (k : Nat) : Nat → List SourceEntry → List Byte
  | _, [] => []
  | i, e :: l => e.entry k i ++ sourceEntries k (i + 15) l

/-- The most source entries one response holds (R41). -/
def sourcesPerRead : Nat := 12

/-- What READ_SOURCES reports of a source list from a first index, after the mark (R41, R184). -/
def sourcesReport (k first : Nat) (l : List SourceEntry) : List Byte :=
  let some' := (l.drop first).take sourcesPerRead
  [byte l.length, byte first, byte some'.length] ++ sourceEntries k 0 some'

/-! ## Head status (R185) -/

/-- The bits of an alarm cause set (R185). -/
def AlarmSet.bits (a : AlarmSet) : Nat :=
  bit a.spanMerged 0 + bit a.lengthLimit 1 + bit a.trimLimit 2 + bit a.feedLow 3 + bit a.knotShort 4 + bit a.knotStray 5 +
    bit a.knotExcess 6 + bit a.coilDowngraded 7 + bit a.bandedFlaw 8

/-- The bits of a hold reason set (R185). -/
def HoldSet.bits (x : HoldSet) : Nat := bit x.feedShort 0 + bit x.queueEmpty 1 + bit x.storeFull 2

/-- A report field: its bytes, or free bytes at its place when the report marks it absent (log entry 1). -/
def fieldOr (k i : Nat) (w : Nat) : Option Nat → List Byte
  | some n => beBytes w n
  | none => freeBytes k i w

/-- A deviation in two's complement (R181). -/
def deviationNat (d : Int) : Nat := (BitVec.ofInt 16 d).toNat

/-- A queue entry (R185). -/
def CoilOrder.entry (o : CoilOrder) : List Byte := beBytes 4 o.length ++ [byte o.count, byte o.rule.code]

/-- The kind byte of the current segment (R185). -/
def segmentByte : Option Segment → Byte
  | none => 0
  | some g => if g.coil.isSome then 1 else 2

/-- Byte 3 of a head status (R185); its bit 3, which R185 gives no meaning, is sent as 0 (log entry 34). -/
def Head.presenceByte (h : Head) : Byte :=
  byte (bit h.lastLay.isSome 0 + bit h.lastDeviation.isSome 1 + bit h.row.isSome 2 + bit (h.slot 0).required 4 +
    bit (h.slot 1).required 5 + bit (h.slot 2).required 6 + bit (h.slot 3).required 7)

/-- The tag bound as PRODUCT or SOURCE, 0 when absent (R185). -/
def Head.boundTag (h : Head) : Nat := (h.product.orElse fun _ => h.source).getD 0

/-- The head status report (R81, R185). Bits 3 to 7 of the hold reasons and bits 9 to 15 of the alarm causes, which R185 gives no
meaning, are sent as 0 (log entry 34). -/
def Head.report (k : Nat) (causes : AlarmSet) (h : Head) : List Byte :=
  [byte h.accepted.code, byte h.state.code, byte h.holds.bits, h.presenceByte] ++ beBytes 6 h.boundTag ++
    allSlots.flatMap (fun n => beBytes 6 (orZero (h.slot n).strand)) ++
    [segmentByte h.segment] ++ fieldOr k 35 6 (h.segment.bind Segment.coil) ++
    fieldOr k 41 4 (h.segment.map Segment.planned) ++ fieldOr k 45 4 (h.segment.map Segment.unwound) ++
    beBytes 4 h.unplanned ++ beBytes 2 h.trim ++ fieldOr k 55 2 h.lastLay ++
    fieldOr k 57 2 (h.lastDeviation.map deviationNat) ++ fieldOr k 59 2 (h.row.map RowWindow.index) ++
    fieldOr k 61 2 (h.row.map RowWindow.count) ++ beBytes 2 causes.bits ++ [byte h.queue.length] ++
    h.queue.flatMap CoilOrder.entry

/-- The thirteen settings in item order (R181, R182). -/
def Settings.bytes (s : Settings) : List Byte :=
  beBytes 4 s.pitch ++ [byte s.spindle, byte s.turns, byte s.gain] ++ beBytes 2 s.trimMin ++ beBytes 2 s.trimMax ++
    beBytes 2 s.tolerance ++ [byte s.marker] ++ beBytes 2 s.guardMargin ++ beBytes 2 s.knotWindow ++ beBytes 2 s.feedLow ++
    beBytes 4 s.minCoil ++ [byte s.polarity.code]

/-! ## Events and device settings (R182, R186) -/

/-- The bits of the store cause set (R186). -/
def StoreCauses.bits (c : StoreCauses) : Nat := c.alarms.bits + bit c.store240 9 + bit c.createFull 10

/-- The alarm causes of a head in the image, 0 where its ALARM flag is clear (R186). -/
def Attention.imageCauses (a : Attention) (h : HeadIx) : Nat :=
  if a.flag (flagNumber h .alarm) then (a.causesOf h).bits else 0

/-- The store causes in the image, 0 where STORE is clear (R172, R186). -/
def Attention.imageStore (a : Attention) : Nat := if a.flag storeFlag then a.storeCauses.bits else 0

/-- The event image (R186). Bits 2 to 7 of byte 9, bits 11 to 15 of the store causes and bits 9 to 15 of a head's causes, which
R186 gives no meaning, are sent as 0 (log entry 34). -/
def Attention.image (a : Attention) : List Byte :=
  [byte a.clearMode.code] ++ flagBytes a.flags ++ beBytes 2 a.imageStore ++
    (List.finRange 16).flatMap fun h => beBytes 2 (a.imageCauses h)

/-- Every device setting as stored (R182). -/
def State.deviceBytes (s : State) : List Byte :=
  [byte s.attn.clearMode.code] ++ beBytes 2 s.coilPrefix ++ beBytes 4 s.coilSerial ++
    (List.finRange 8).flatMap (fun p => beBytes 2 (s.link.panels[p.val]).mask.toNat) ++ flagBytes s.attn.masks ++
    (List.finRange 66).map fun k => byte (s.attn.routes[k.val]).code

end Sys2Proof.Machine
end

