-- ==== Sys2Proof/Machine/Requests.lean ====
section
/-! DEFINITION. The request engine's common part (2.1): a port's request in progress, its response, panel frames and their
CRC, and port permission (R33 to R37, R65, R187, R192 to R194). -/

namespace Sys2Proof.Machine

/-! ## Panel frames (R187, R192) -/

/-- One bit taken into the CRC register (R192). -/
def crcBit (r : BitVec 16) (b : Bool) : BitVec 16 :=
  if (r.getLsbD 15 ^^ b) then (r <<< 1) ^^^ 0x1021 else r <<< 1

/-- One byte taken into the CRC register, most significant bit first (R192). -/
def crcByte (r : BitVec 16) (b : Byte) : BitVec 16 :=
  [7, 6, 5, 4, 3, 2, 1, 0].foldl (fun x i => crcBit x (b.getLsbD i)) r

/-- The CRC of a frame's address, length and body (R192). -/
def crc (bs : List Byte) : BitVec 16 := bs.foldl crcByte 0xFFFF

/-- The two CRC bytes, most significant first (R187, R192). -/
def crcBytes (bs : List Byte) : List Byte := beBytes 2 (crc bs).toNat

/-- The address of a panel (R189). -/
def panelAddress (p : PanelIx) : Nat := p.val + 1

/-- A frame of the link (R187). -/
def panelFrame (p : PanelIx) (body : List Byte) : List Byte :=
  let head := [byte (panelAddress p), byte body.length] ++ body
  head ++ crcBytes head

/-! ## Requests and responses -/

/-- A completion code and the fields after it (R33, R182). -/
structure Reply where
  code : Completion
  fields : List Byte
  deriving DecidableEq, Repr

/-- A reply of its code alone (R182). -/
def Reply.only (c : Completion) : Reply := ⟨c, []⟩

/-- DONE with fields (R182). -/
def Reply.done (fields : List Byte) : Reply := ⟨.done, fields⟩

/-- STALE with the record's present mark (R36, R182). -/
def Reply.stale (m : Mark) : Reply := ⟨.stale, [m]⟩

/-- The request in progress at a port (R33). -/
def State.inProgress (s : State) : Port → Option (List Byte)
  | .lineComputer => s.line.inProgress
  | .floorPanel => s.link.inProgress

/-- A response is formed at a port (R33, R179, R193): it is unread, and the request is no longer in progress. To a panel it
is sent at once in a frame. -/
def State.respond (p : Port) (body : List Byte) (s : State) : State :=
  match p with
  | .lineComputer => { s with line := { s.line with inProgress := none, unread := some body } }
  | .floorPanel =>
    { s with link := { s.link with
        inProgress := none
        unread := some body
        sent := match s.link.granted with
          | some n => panelFrame n body
          | none => s.link.sent } }

/-- The store takes the request that is in progress at port `p` when its body is that of command `c` (R33, R34; log entry
4): `answer` gives the machine after it and the reply, and the response echoes the request code. -/
def State.takeRequest (p : Port) (c : Instr) (answer : State → State × Reply) (s : State) : State :=
  match s.inProgress p with
  | none => s
  | some body =>
    if requestCommand p body = c then
      let a := answer s
      a.1.respond p (body.headD 0 :: a.2.code.code :: a.2.fields)
    else s

/-- The mark of a live record, 0 for a tag that is not live. -/
def State.markOf (s : State) (t : Nat) : Mark := ((s.find t).map Record.mark).getD 0

/-- A refused request changes nothing (R34). -/
def State.refuse (s : State) (c : Completion) : State × Reply := (s, Reply.only c)

/-- A change applied whole, answered DONE with the mark of record `t` after it (R36). -/
def State.doneMark (t : Nat) (f : State → State) (s : State) : State × Reply :=
  let u := s.change f
  (u, Reply.done [u.markOf t])

/-! ## Port permission (R35, R65, R194) -/

/-- The granted panel's mask holds a head (R194; log entry 30). -/
def State.maskHas (s : State) (h : HeadIx) : Bool :=
  match s.link.granted with
  | some n => (s.link.panels[n.val]).mask.getLsbD h.val
  | none => false

/-- A record belongs to a head in the panel's mask (R194): it is bound to such a head, or is a COIL whose origin head is
one. -/
def State.recordInMask (s : State) (r : Record) : Bool :=
  (match r.bound with
   | some (h, _) => s.maskHas h
   | none => false) ||
  (match r.body with
   | .coil c => s.maskHas c.origin
   | .strand _ | .rope _ | .panel _ => false)

/-- A port may make a request that the line computer alone may make. -/
def fromLine : Port → Bool
  | .lineComputer => true
  | .floorPanel => false

/-- A port may make ADD_SPAN and BAND on a tag (R35). -/
def State.mayTouch (s : State) (p : Port) (t : Nat) : Bool :=
  fromLine p ||
    match s.find t with
    | some r => s.recordInMask r
    | none => false

/-- A port may make RELEASE on a head index (R65). -/
def State.mayRelease (s : State) (p : Port) (n : Nat) : Bool :=
  fromLine p ||
    match headOf n with
    | some h => s.maskHas h
    | none => false

/-! ## UNKNOWN_REQUEST -/

/-- UNKNOWN_REQUEST (R34): an unknown code, or a body of the wrong size, is answered BAD_FIELD (log entry 9). -/
def execUnknownRequest (p : Port) (code : Nat) (s : State) : Host.Outcome State Fault Refusal :=
  .next (s.takeRequest p (.unknownRequest p code) fun t => t.refuse .badField)

end Sys2Proof.Machine
end

