-- ==== Sys2Proof/Machine/RecordRequests.lean ====
section
/-! DEFINITION. The ten requests on records (02_requests_on_records.md), each with its checks in the order of R35. -/

namespace Sys2Proof.Machine

/-! ## Reading -/

/-- The answer to LOOKUP (R38). -/
def answerLookup (tag : Nat) (s : State) : State × Reply :=
  match s.find tag with
  | some r => (s, Reply.done r.summary)
  | none => s.refuse .notFound

/-- A filter of NEXT: absent for 0, else the value it names; none when it names no value (R39, R181). -/
def filterOf {α : Type} (decode : Nat → Option α) (n : Nat) : Option (Option α) :=
  if n = 0 then some none else (decode n).map some

/-- A record passes NEXT's filters (R39). -/
def Record.passes (after : Nat) (k : Option RecordKind) (st : Option RecordState) (r : Record) : Bool :=
  decide (after < r.tag) &&
    (match k with
     | some x => decide (r.kind = x)
     | none => true) &&
    (match st with
     | some x => decide (r.state = x)
     | none => true)

/-- The answer to NEXT (R6, R39): the store is in ascending order of tag, so the first record that passes is the one of the
smallest tag. -/
def answerNext (after kind state : Nat) (s : State) : State × Reply :=
  match filterOf recordKindOf kind, filterOf recordStateOf state with
  | some k, some st =>
    match s.store.find? (Record.passes after k st) with
    | some r => (s, Reply.done r.summary)
    | none => s.refuse .notFound
  | _, _ => s.refuse .badField

/-- The answer to READ_SPANS (R40). -/
def answerReadSpans (tag : Nat) (s : State) : State × Reply :=
  match s.find tag with
  | none => s.refuse .notFound
  | some r =>
    match r.body.piece with
    | none => s.refuse .wrongKind
    | some p => (s, Reply.done (r.mark :: p.report))

/-- The kinds that have a source list (R31). -/
def RecordKind.hasSources : RecordKind → Bool
  | .rope | .panel => true
  | .strand | .coil => false

/-- The answer to READ_SOURCES (R41). Its report may hold free bytes, so the counter of free values advances (log entry 1). -/
def answerReadSources (tag first : Nat) (s : State) : State × Reply :=
  match s.find tag with
  | none => s.refuse .notFound
  | some r =>
    if !r.kind.hasSources then s.refuse .wrongKind
    else if 15 < first then s.refuse .badField
    else
      ({ s with freeCount := s.freeCount + 1 },
        Reply.done (r.mark :: sourcesReport s.freeCount first r.body.sources))

/-! ## CREATE and AMEND -/

/-- The answer to CREATE (R42): EXISTS, WRONG_KIND, BAD_FIELD, FULL with the STORE event, or the record in DRAFT. -/
def answerCreate (p : Port) (tag kind : Nat) (spec : List Item) (s : State) : State × Reply :=
  if !fromLine p then s.refuse .denied
  else if s.live tag then s.refuse .tagExists
  else
    match recordKindOf kind with
    | none => s.refuse .badField
    | some k =>
      match freshBody spec k with
      | none => s.refuse .wrongKind
      | some b =>
        if !createListOk k spec || tag = 0 || tagTop ≤ tag then s.refuse .badField
        else if storeCap ≤ s.store.length then
          (s.raiseStore fun c => { c with createFull := true }, Reply.only .full)
        else (s.change (State.enter (Record.fresh tag .draft s.clock.seconds b)), Reply.done [0])

/-- An AMEND names the ordered length or the target rows (R46). -/
def namesEnd (l : List Item) : Bool := namesItem l 2 || namesItem l 8

/-- The change of an AMEND (R45, R46): every field it names is set, and a new end of a record in MAKING is checked by its
head in RUN, STOPPED and HELD. -/
def State.amend (tag : Nat) (changes : List Item) (s : State) : State :=
  let s1 := s.updRec tag fun r => { r with body := changes.foldl (fun b it => b.setSpec it) r.body }
  match (s.find tag).bind Record.bound with
  | some (h, .product) => if namesEnd changes then s1.checkEnd h else s1
  | some (_, .feed _) | some (_, .source) | some (_, .segment) | none => s1

/-- The answer to AMEND (R44). -/
def answerAmend (p : Port) (tag : Nat) (mark : Mark) (changes : List Item) (s : State) : State × Reply :=
  if !fromLine p then s.refuse .denied
  else
    match s.find tag with
    | none => s.refuse .notFound
    | some r =>
      if r.kind = .coil then s.refuse .wrongKind
      else if !amendStateOk r.kind r.state changes then s.refuse .wrongState
      else if mark ≠ r.mark then (s, Reply.stale r.mark)
      else if !amendListOk r.kind changes then s.refuse .badField
      else s.doneMark tag (State.amend tag changes)

/-! ## ADD_SPAN -/

/-- The states in which ADD_SPAN may act (R47). -/
def RecordState.takesSpans : RecordState → Bool
  | .making | .interrupted | .made | .inUse => true
  | .draft | .spent | .winding | .wound | .banded => false

/-- The change of an ADD_SPAN (R49): on a ROPE with the downgrade checks (R30), on a STRAND in a feed slot with the judging
of its top when its list changed (R127). -/
def State.addSpanTo (r : Record) (n : Span) (s : State) : State :=
  match r.kind with
  | .rope => s.addRopeSpan r.tag n
  | .strand =>
    let s1 := s.normalizeInto r.tag n
    match r.bound with
    | some (h, .feed slot) => if s1.spansOf r.tag = s.spansOf r.tag then s1 else s1.rejudgeTop h slot
    | some (_, .product) | some (_, .source) | some (_, .segment) | none => s1
  | .panel | .coil => s.normalizeInto r.tag n

/-- The answer to ADD_SPAN (R47, R48). -/
def answerAddSpan (p : Port) (tag : Nat) (mark : Mark) (lo hi kind : Nat) (s : State) : State × Reply :=
  if !s.mayTouch p tag then s.refuse .denied
  else
    match s.find tag with
    | none => s.refuse .notFound
    | some r =>
      if r.kind = .coil then s.refuse .wrongKind
      else if !r.state.takesSpans then s.refuse .wrongState
      else if mark ≠ r.mark then (s, Reply.stale r.mark)
      else if hi ≤ lo ∨ r.made < hi then s.refuse .badField
      else
        match addedKindOf kind with
        | none => s.refuse .badField
        | some k =>
          let n := Span.closed lo hi (KindSet.only k)
          if r.kind = .rope ∧ s.reachesBanded tag n then s.refuse .wrongState
          else s.doneMark tag (State.addSpanTo r n)

/-! ## CONCLUDE, BAND and RETIRE -/

/-- The answer to CONCLUDE (R50). -/
def answerConclude (p : Port) (tag : Nat) (mark : Mark) (s : State) : State × Reply :=
  if !fromLine p then s.refuse .denied
  else
    match s.find tag with
    | none => s.refuse .notFound
    | some r =>
      if r.kind = .coil then s.refuse .wrongKind
      else if r.state ≠ .interrupted then s.refuse .wrongState
      else if mark ≠ r.mark then (s, Reply.stale r.mark)
      else s.doneMark tag fun t => t.updRec tag fun x => { x with state := .made }

/-- The change of a BAND (R21, R51). -/
def State.bandCoil (tag : Nat) (s : State) : State :=
  s.updRec tag fun r => { r.onCoil fun c => { c with bandTime := some s.clock.seconds } with state := .banded }

/-- The answer to BAND (R51). -/
def answerBand (p : Port) (tag : Nat) (mark : Mark) (s : State) : State × Reply :=
  if !s.mayTouch p tag then s.refuse .denied
  else
    match s.find tag with
    | none => s.refuse .notFound
    | some r =>
      if r.kind ≠ .coil then s.refuse .wrongKind
      else if r.state ≠ .wound then s.refuse .wrongState
      else if mark ≠ r.mark then (s, Reply.stale r.mark)
      else s.doneMark tag (State.bandCoil tag)

/-- The states in which a record may be retired (R52). -/
def RecordState.retirable : RecordState → Bool
  | .draft | .interrupted | .made | .spent | .banded => true
  | .making | .inUse | .winding | .wound => false

/-- The answer to RETIRE (R52, R53); it carries no mark. -/
def answerRetire (p : Port) (tag : Nat) (mark : Mark) (s : State) : State × Reply :=
  if !fromLine p then s.refuse .denied
  else
    match s.find tag with
    | none => s.refuse .notFound
    | some r =>
      if !r.state.retirable then s.refuse .wrongState
      else if mark ≠ r.mark then (s, Reply.stale r.mark)
      else (s.change (State.leave tag), Reply.done [])

/-! ## Meanings -/

/-- LOOKUP (R38). -/
def execLookup (p : Port) (tag : Nat) (s : State) : Host.Outcome State Fault Refusal :=
  .next (s.takeRequest p (.lookup p tag) (answerLookup tag))

/-- NEXT (R39). -/
def execNextRecord (p : Port) (after kind state : Nat) (s : State) : Host.Outcome State Fault Refusal :=
  .next (s.takeRequest p (.nextRecord p after kind state) (answerNext after kind state))

/-- READ_SPANS (R40). -/
def execReadSpans (p : Port) (tag : Nat) (s : State) : Host.Outcome State Fault Refusal :=
  .next (s.takeRequest p (.readSpans p tag) (answerReadSpans tag))

/-- READ_SOURCES (R41). -/
def execReadSources (p : Port) (tag first : Nat) (s : State) : Host.Outcome State Fault Refusal :=
  .next (s.takeRequest p (.readSources p tag first) (answerReadSources tag first))

/-- CREATE (R42). -/
def execCreate (p : Port) (tag kind : Nat) (spec : List Item) (s : State) : Host.Outcome State Fault Refusal :=
  .next (s.takeRequest p (.create p tag kind spec) (answerCreate p tag kind spec))

/-- AMEND (R44). -/
def execAmend (p : Port) (tag : Nat) (mark : Mark) (changes : List Item) (s : State) :
    Host.Outcome State Fault Refusal :=
  .next (s.takeRequest p (.amend p tag mark changes) (answerAmend p tag mark changes))

/-- ADD_SPAN (R47). -/
def execAddSpan (p : Port) (tag : Nat) (mark : Mark) (lo hi kind : Nat) (s : State) :
    Host.Outcome State Fault Refusal :=
  .next (s.takeRequest p (.addSpan p tag mark lo hi kind) (answerAddSpan p tag mark lo hi kind))

/-- CONCLUDE (R50). -/
def execConclude (p : Port) (tag : Nat) (mark : Mark) (s : State) : Host.Outcome State Fault Refusal :=
  .next (s.takeRequest p (.conclude p tag mark) (answerConclude p tag mark))

/-- BAND (R51). -/
def execBand (p : Port) (tag : Nat) (mark : Mark) (s : State) : Host.Outcome State Fault Refusal :=
  .next (s.takeRequest p (.band p tag mark) (answerBand p tag mark))

/-- RETIRE (R52). -/
def execRetire (p : Port) (tag : Nat) (mark : Mark) (s : State) : Host.Outcome State Fault Refusal :=
  .next (s.takeRequest p (.retire p tag mark) (answerRetire p tag mark))

end Sys2Proof.Machine
end

