-- ==== Sys2Proof/Machine/HeadRequests.lean ====
section
/-! DEFINITION. The requests on head positions (3.4, 3.5, 3.7, 3.8, 6.2, 8.1), each with its checks in the order of R65. -/

namespace Sys2Proof.Machine

/-- The head of an index that is not EMPTY (R65, step 2). -/
def State.presentHead (s : State) (n : Nat) : Option HeadIx :=
  match headOf n with
  | some h => if (s.head h).state = .empty then none else some h
  | none => none

/-! ## BIND_PRODUCT -/

/-- The kind of record a kind of machine makes (R12, R66). -/
def MachineKind.product : MachineKind → Option RecordKind
  | .strander => some .strand
  | .closer => some .rope
  | .loom => some .panel
  | .coiler => none

/-- The slots after BIND_PRODUCT: empty, with the product's required ones marked (R67, R119). -/
def requiredSlots (b : Body) : Vector FeedSlot 4 := Vector.ofFn fun n => { required := b.requires n }

/-- The head after BIND_PRODUCT (R67, R84, R119, R134). -/
def Head.bindProduct (t : Nat) (b : Body) (h : Head) : Head :=
  { h.free .ready with
    product := some t
    slots := requiredSlots b
    trim := 512
    lastLay := none
    lastDeviation := none
    pitchFraction := 0
    limitNoted := false }

/-- The empty-slot holders of a CLOSER at BIND_PRODUCT (R119, R129): FEEDn for every required slot, from the made length. -/
def State.addEmptyFeeds (h : HeadIx) (r : Record) (s : State) : State :=
  match (s.head h).kind with
  | some .closer =>
    allSlots.foldl (fun t n => if r.body.requires n then t.addHolder r.tag (.feed n) r.made else t) s
  | some .strander | some .loom | some .coiler | none => s

/-- The JOIN holder of a STRAND or ROPE bound from INTERRUPTED (R97). -/
def State.joinResumed (h : HeadIx) (r : Record) (s : State) : State :=
  if r.state = .interrupted ∧ r.kind ≠ .panel then s.openJoin h r.tag r.made else s

/-- The change of a BIND_PRODUCT (R67) of record `r` as it stood. -/
def State.bindProduct (h : HeadIx) (r : Record) (s : State) : State :=
  (((s.updRec r.tag fun x => x.bindAs .making h .product).updHead h fun x => x.bindProduct r.tag r.body).joinResumed
    h r).addEmptyFeeds h r

/-- The answer to BIND_PRODUCT (R66). -/
def answerBindProduct (p : Port) (head tag : Nat) (mark : Mark) (s : State) : State × Reply :=
  if !fromLine p then s.refuse .denied
  else
    match s.presentHead head with
    | none => s.refuse .noHead
    | some h =>
      match s.find tag with
      | none => s.refuse .notFound
      | some r =>
        match (s.head h).kind.bind MachineKind.product with
        | none => s.refuse .noHead
        | some k =>
          if r.kind ≠ k then s.refuse .wrongKind
          else if (s.head h).state ≠ .idle then s.refuse .wrongState
          else if r.state ≠ .draft ∧ r.state ≠ .interrupted then s.refuse .wrongState
          else if mark ≠ r.mark then (s, Reply.stale r.mark)
          else s.doneMark tag (State.bindProduct h r)

/-! ## BIND_SOURCE -/

/-- The head after BIND_SOURCE, before its plan point (R68, R84). -/
def Head.bindSource (t : Nat) (h : Head) : Head :=
  { h.free .ready with
    source := some t
    pitchFraction := 0
    limitNoted := false }

/-- The change of a BIND_SOURCE (R68), with the first plan point. -/
def State.bindSource (h : HeadIx) (t : Nat) (s : State) : State :=
  ((s.updRec t fun x => x.bindAs .inUse h .source).updHead h fun x => x.bindSource t).planPoint h

/-- The answer to BIND_SOURCE (R68). -/
def answerBindSource (p : Port) (head tag : Nat) (mark : Mark) (s : State) : State × Reply :=
  if !fromLine p then s.refuse .denied
  else
    match s.presentHead head with
    | none => s.refuse .noHead
    | some h =>
      match s.find tag with
      | none => s.refuse .notFound
      | some r =>
        if (s.head h).kind ≠ some .coiler then s.refuse .noHead
        else if r.kind ≠ .rope then s.refuse .wrongKind
        else if (s.head h).state ≠ .idle then s.refuse .wrongState
        else if r.state ≠ .made then s.refuse .wrongState
        else if mark ≠ r.mark then (s, Reply.stale r.mark)
        else s.doneMark tag (State.bindSource h tag)

/-! ## BIND_FEED and UNBIND_FEED -/

/-- The head states that accept a binding or an unbinding of a feed (R120, R122). -/
def HeadState.takesFeeds : HeadState → Bool
  | .ready | .run | .stopped | .held | .cutting => true
  | .empty | .idle | .done => false

/-- The heads that have feed slots (R118). -/
def Head.hasFeeds (h : Head) : Bool := decide (h.kind = some .closer) || decide (h.kind = some .loom)

/-- A slot index names a slot the head has (R118). -/
def Head.hasSlot (h : Head) (n : SlotIx) : Bool :=
  match h.kind with
  | some k => k.hasSlot n
  | none => false

/-- A slot index of a BIND_FEED passes the state check (R120): above 3 the check is not made. -/
def Head.slotFree (h : Head) (slot : Nat) : Bool :=
  match slotOf slot with
  | some n => h.hasSlot n && (h.slot n).strand.isNone
  | none => true

/-- A slot index of an UNBIND_FEED passes the state check (R122): above 3 the check is not made. -/
def Head.slotFilled (h : Head) (slot : Nat) : Bool :=
  match slotOf slot with
  | some n => h.hasSlot n && (h.slot n).strand.isSome
  | none => true

/-- The most entries a source list holds (R31). -/
def sourceCap : Nat := 16

/-- The judging of a strand's top at its binding to a CLOSER (R121): inside a span FEEDn is held for the span, otherwise it
is released. -/
def State.judgeTop (h : HeadIx) (n : SlotIx) (b : StrandBody) (q : Record) (s : State) : State :=
  if (s.head h).kind = some .closer then
    if topInside b.top b.piece.spans then
      let s1 := s.updSlot h n fun x => { x with spanHolding := true }
      if s1.hasHolder q.tag (.feed n) then s1 else s1.addHolder q.tag (.feed n) q.made
    else s.releaseHolder q.tag (.feed n)
  else s

/-- The change of a BIND_FEED (R121): strand `r`, slot `n`, product `q`. -/
def State.bindFeed (h : HeadIx) (n : SlotIx) (r : Record) (b : StrandBody) (q : Record) (s : State) : State :=
  let s1 := s.updRec r.tag fun x => (x.bindAs .inUse h (.feed n)).onStrand fun y => { y with fraction := 0 }
  let s2 := s1.updSlot h n fun x => { required := x.required, strand := some r.tag }
  let s3 := s2.updRec q.tag fun x => x.appendSource ⟨r.tag, n, q.made, none⟩
  let s4 := s3.judgeTop h n b q
  if (s4.head h).feedMissing then s4 else s4.dropHold h .feedShort

/-- The answer to BIND_FEED (R120). -/
def answerBindFeed (p : Port) (head slot tag : Nat) (mark : Mark) (s : State) : State × Reply :=
  if !fromLine p then s.refuse .denied
  else
    match s.presentHead head with
    | none => s.refuse .noHead
    | some h =>
      match s.find tag with
      | none => s.refuse .notFound
      | some r =>
        if !(s.head h).hasFeeds then s.refuse .noHead
        else
          match r.body with
          | .rope _ | .panel _ | .coil _ => s.refuse .wrongKind
          | .strand b =>
            if !(s.head h).state.takesFeeds then s.refuse .wrongState
            else if !(s.head h).slotFree slot then s.refuse .wrongState
            else if r.state ≠ .made then s.refuse .wrongState
            else if mark ≠ r.mark then (s, Reply.stale r.mark)
            else
              match slotOf slot, s.productOf h with
              | none, _ => s.refuse .badField
              | some _, none => s.refuse .wrongState
              | some n, some q =>
                if sourceCap ≤ q.body.sources.length then s.refuse .full
                else s.doneMark tag (State.bindFeed h n r b q)

/-- FEEDn of a slot that an UNBIND_FEED has emptied (R122, R129): released on an optional slot; on a required slot of a
CLOSER it stays, or is added from the made length. -/
def State.emptySlot (h : HeadIx) (n : SlotIx) (q : Record) (s : State) : State :=
  if (s.head h).kind = some .closer then
    if ((s.head h).slot n).required then
      if s.hasHolder q.tag (.feed n) then s else s.addHolder q.tag (.feed n) q.made
    else s.releaseHolder q.tag (.feed n)
  else s

/-- The change of an UNBIND_FEED (R122, R123, R130). -/
def State.unbindFeed (h : HeadIx) (n : SlotIx) (q : Record) (s : State) : State :=
  let s1 := (s.unbindSlot h .made q.made n).emptySlot h n q
  if ((s.head h).slot n).required ∧ (s.head h).state ≠ .ready then s1.addHold h .feedShort else s1

/-- The answer to UNBIND_FEED (R122); it carries no mark. -/
def answerUnbindFeed (p : Port) (head slot : Nat) (s : State) : State × Reply :=
  if !fromLine p then s.refuse .denied
  else
    match s.presentHead head with
    | none => s.refuse .noHead
    | some h =>
      if !(s.head h).hasFeeds then s.refuse .noHead
      else if !(s.head h).state.takesFeeds then s.refuse .wrongState
      else if !(s.head h).slotFilled slot then s.refuse .wrongState
      else
        match slotOf slot, s.productOf h with
        | none, _ => s.refuse .badField
        | some _, none => s.refuse .wrongState
        | some n, some q => (s.change (State.unbindFeed h n q), Reply.done [])

/-! ## RELEASE -/

/-- The answer to RELEASE (R69). -/
def answerRelease (p : Port) (head : Nat) (s : State) : State × Reply :=
  if !s.mayRelease p head then s.refuse .denied
  else
    match s.presentHead head with
    | none => s.refuse .noHead
    | some h =>
      if (s.head h).state = .idle then s.refuse .wrongState
      else (s.change (State.releaseHead h), Reply.done [])

/-! ## ENQUEUE and CLEAR_QUEUE -/

/-- The most entries a queue holds (R149). -/
def queueCap : Nat := 8

/-- The coil order of an ENQUEUE's fields, none when one is out of range (R150). -/
def orderOf (length count rule : Nat) : Option CoilOrder :=
  if 1000 ≤ length ∧ length ≤ 4000000000 ∧ 1 ≤ count ∧ count ≤ 255 then
    (gradeRuleOf rule).map fun g => ⟨length, count, g⟩
  else none

/-- The change of an ENQUEUE (R150, R153): the entry is appended, and into an empty queue it ends a QUEUE_EMPTY hold with a
plan point. -/
def State.enqueue (h : HeadIx) (o : CoilOrder) (s : State) : State :=
  let s1 := s.updHead h fun x => { x with queue := x.queue ++ [o] }
  if (s.head h).queue = [] ∧ (s.head h).holds.queueEmpty then s1.planPoint h else s1

/-- The answer to ENQUEUE (R150): the number of entries after the change. -/
def answerEnqueue (p : Port) (head length count rule : Nat) (s : State) : State × Reply :=
  if !fromLine p then s.refuse .denied
  else
    match s.presentHead head with
    | none => s.refuse .noHead
    | some h =>
      if (s.head h).kind ≠ some .coiler then s.refuse .noHead
      else
        match orderOf length count rule with
        | none => s.refuse .badField
        | some o =>
          if queueCap ≤ (s.head h).queue.length then s.refuse .full
          else
            let t := s.change (State.enqueue h o)
            (t, Reply.done [byte (t.head h).queue.length])

/-- The change of a CLEAR_QUEUE (R151). -/
def Head.clearQueue (h : Head) : Head :=
  { h with queue := [], segment := h.segment.map fun g => { g with link := false } }

/-- The answer to CLEAR_QUEUE (R151): the number of entries removed. -/
def answerClearQueue (p : Port) (head : Nat) (s : State) : State × Reply :=
  if !fromLine p then s.refuse .denied
  else
    match s.presentHead head with
    | none => s.refuse .noHead
    | some h =>
      if (s.head h).kind ≠ some .coiler then s.refuse .noHead
      else (s.updHead h Head.clearQueue, Reply.done [byte (s.head h).queue.length])

/-! ## HEAD_STATUS and SET_HEAD -/

/-- The answer to HEAD_STATUS (R81). Its report may hold free bytes, so the counter of free values advances (log entry 1). -/
def answerHeadStatus (head : Nat) (s : State) : State × Reply :=
  match headOf head with
  | none => s.refuse .noHead
  | some h =>
    ({ s with freeCount := s.freeCount + 1 },
      Reply.done ((s.head h).report s.freeCount (s.attn.causesOf h)))

/-- A SET_HEAD names a trim limit (R79). -/
def namesLimit (l : List Item) : Bool := namesItem l 5 || namesItem l 6

/-- The head after SET_HEAD (R78, R79): the settings are stored, and a list that names a trim limit clamps the trim code. -/
def Head.setHead (l : List Item) (h : Head) : Head :=
  let s := h.settings.writeList l
  { h with settings := s, trim := if namesLimit l then clampNat s.trimMin s.trimMax h.trim else h.trim }

/-- The answer to SET_HEAD (R78): all thirteen settings as they now stand. -/
def answerSetHead (p : Port) (head : Nat) (settings : List Item) (s : State) : State × Reply :=
  if !fromLine p then s.refuse .denied
  else
    match headOf head with
    | none => s.refuse .noHead
    | some h =>
      if !settingListOk settings then s.refuse .badField
      else
        let t := s.updHead h (Head.setHead settings)
        (t, Reply.done (t.head h).settings.bytes)

/-! ## Meanings -/

/-- BIND_PRODUCT (R67). -/
def execBindProduct (p : Port) (head tag : Nat) (mark : Mark) (s : State) : Host.Outcome State Fault Refusal :=
  .next (s.takeRequest p (.bindProduct p head tag mark) (answerBindProduct p head tag mark))

/-- BIND_SOURCE (R68). -/
def execBindSource (p : Port) (head tag : Nat) (mark : Mark) (s : State) : Host.Outcome State Fault Refusal :=
  .next (s.takeRequest p (.bindSource p head tag mark) (answerBindSource p head tag mark))

/-- BIND_FEED (R121). -/
def execBindFeed (p : Port) (head slot tag : Nat) (mark : Mark) (s : State) : Host.Outcome State Fault Refusal :=
  .next (s.takeRequest p (.bindFeed p head slot tag mark) (answerBindFeed p head slot tag mark))

/-- UNBIND_FEED (R122). -/
def execUnbindFeed (p : Port) (head slot : Nat) (s : State) : Host.Outcome State Fault Refusal :=
  .next (s.takeRequest p (.unbindFeed p head slot) (answerUnbindFeed p head slot))

/-- RELEASE (R69). -/
def execRelease (p : Port) (head : Nat) (s : State) : Host.Outcome State Fault Refusal :=
  .next (s.takeRequest p (.release p head) (answerRelease p head))

/-- ENQUEUE (R150). -/
def execEnqueue (p : Port) (head length count rule : Nat) (s : State) : Host.Outcome State Fault Refusal :=
  .next (s.takeRequest p (.enqueue p head length count rule) (answerEnqueue p head length count rule))

/-- CLEAR_QUEUE (R151). -/
def execClearQueue (p : Port) (head : Nat) (s : State) : Host.Outcome State Fault Refusal :=
  .next (s.takeRequest p (.clearQueue p head) (answerClearQueue p head))

/-- HEAD_STATUS (R81). -/
def execHeadStatus (p : Port) (head : Nat) (s : State) : Host.Outcome State Fault Refusal :=
  .next (s.takeRequest p (.headStatus p head) (answerHeadStatus head))

/-- SET_HEAD (R78). -/
def execSetHead (p : Port) (head : Nat) (settings : List Item) (s : State) : Host.Outcome State Fault Refusal :=
  .next (s.takeRequest p (.setHead p head settings) (answerSetHead p head settings))

end Sys2Proof.Machine
end

