-- ==== Sys2Proof/Machine/DeviceRequests.lean ====
section
/-! DEFINITION. The requests on the device: SET_CLOCK (R168), READ_EVENTS (R172), CLEAR_EVENTS (R173) and SET_DEVICE (R174). -/

namespace Sys2Proof.Machine

/-- The answer to SET_CLOCK (R168). -/
def answerSetClock (p : Port) (seconds : Nat) (s : State) : State × Reply :=
  if !fromLine p then s.refuse .denied
  else ({ s with clock := ⟨BitVec.ofNat 32 seconds, 0⟩ }, Reply.done (beBytes 4 seconds))

/-- The answer to READ_EVENTS (R172): the image, and under READ_CLEARS the flags it reports are cleared. -/
def answerReadEvents (p : Port) (s : State) : State × Reply :=
  if !fromLine p then s.refuse .denied
  else
    match s.attn.clearMode with
    | .explicit => (s, Reply.done s.attn.image)
    | .readClears => (s.updAttn fun a => a.clear a.flags, Reply.done s.attn.image)

/-- The answer to CLEAR_EVENTS (R173): the image as it stands after the change. -/
def answerClearEvents (p : Port) (marked : FlagWord) (s : State) : State × Reply :=
  if !fromLine p then s.refuse .denied
  else
    let t := s.updAttn fun a => a.clear marked
    (t, Reply.done t.attn.image)

/-- The answer to SET_DEVICE (R174): every device setting as stored. -/
def answerSetDevice (p : Port) (settings : List Item) (s : State) : State × Reply :=
  if !fromLine p then s.refuse .denied
  else if !deviceListOk settings then s.refuse .badField
  else
    let t := s.writeDeviceList settings
    (t, Reply.done t.deviceBytes)

/-! ## Meanings -/

/-- SET_CLOCK (R168). -/
def execSetClock (p : Port) (seconds : Nat) (s : State) : Host.Outcome State Fault Refusal :=
  .next (s.takeRequest p (.setClock p seconds) (answerSetClock p seconds))

/-- READ_EVENTS (R172). -/
def execReadEvents (p : Port) (s : State) : Host.Outcome State Fault Refusal :=
  .next (s.takeRequest p (.readEvents p) (answerReadEvents p))

/-- CLEAR_EVENTS (R173). -/
def execClearEvents (p : Port) (marked : FlagWord) (s : State) : Host.Outcome State Fault Refusal :=
  .next (s.takeRequest p (.clearEvents p marked) (answerClearEvents p marked))

/-- SET_DEVICE (R174). -/
def execSetDevice (p : Port) (settings : List Item) (s : State) : Host.Outcome State Fault Refusal :=
  .next (s.takeRequest p (.setDevice p settings) (answerSetDevice p settings))

end Sys2Proof.Machine
end

