-- ==== Sys2Proof/Machine/Lines.lean ====
section
/-! DEFINITION. The output lines of a head position and of the ports as State drives them (R58, R59, R176, R188). The
attention lines stand in Machine/Flags.lean (R171). -/

namespace Sys2Proof.Machine

/-- CUT, or PANEL_END on a loom, is high (R58). -/
def Head.cut (h : Head) : Bool := decide (h.state = .cutting)

/-- HOLD is high (R58). -/
def Head.hold (h : Head) : Bool := !h.holds.isEmpty

/-- OUT2: MARK on a STRANDER or CLOSER, low on a LOOM or COILER (R58). -/
def Head.out2 (h : Head) : Bool := h.laysLength && h.markHigh

/-- OUT0 carries the TRIM waveform: a STRANDER or CLOSER that is not IDLE or EMPTY (R58). -/
def Head.carriesTrim (h : Head) : Bool := h.laysLength && !(decide (h.state = .empty) || decide (h.state = .idle))

/-- The steps of a TRIM period (R59). -/
def trimSteps : Nat := 1024

/-- The level of OUT0 at step `i` of the TRIM period in progress (R58, R59). -/
def Head.out0 (i : Nat) (h : Head) : Bool := (h.carriesTrim && decide (i < h.duty)) ^^ decide (h.settings.polarity = .inverted)

/-- RESPONSE_READY: an unread response is held (R176). -/
def LinePort.responseReady (p : LinePort) : Bool := p.unread.isSome

/-- The line-enable of the panel link is driven while a CALL, a GRANT or a response frame is transmitted (R188): in CALLING once
the link is not quiet (R189, R190), in GRANTING, and while a response is unread (R193). -/
def PanelLink.lineEnable (l : PanelLink) : Bool :=
  (decide (l.phase = .calling) && !l.quiet) || decide (l.phase = .granting) || l.unread.isSome

end Sys2Proof.Machine
end

