-- ==== Sys2Proof/Machine/LinePort.lean ====
section
/-! DEFINITION. The line computer port (10.1): chip select, the bytes of a frame and the end of a frame. A command takes a frame, or
a stretch of one, and its bytes one by one (log entry 7). -/

namespace Sys2Proof.Machine

/-- The frame code of a request frame (R177). -/
def requestFrameCode : Byte := 0x51

/-- The frame code of a fetch frame (R177). -/
def fetchFrameCode : Byte := 0x46

/-- The most body bytes of a frame (R176, R178). -/
def bodyTop : Nat := 250

/-- The status byte (R177). -/
def LinePort.statusByte (p : LinePort) : Byte :=
  byte (bit p.responseReady 0 + bit p.lastRefused 1 + bit p.lastMalformed 2)

/-- The falling edge of chip select (R177). -/
def LinePort.select (p : LinePort) : LinePort where
  phase := .code
  frameLength := 0
  frameCount := 0
  buffer := []
  inProgress := p.inProgress
  unread := p.unread
  lastRefused := p.lastRefused
  lastMalformed := p.lastMalformed
  status := p.statusByte
  toShift := none
  shifted := []

/-- The port as the bytes of a stretch find it: selected by the fall of chip select (R177), or as it stands where the frame goes
on. Where RESET_N has come in the meantime it stands in phase NONE, and ignores the rest of the frame (R176). -/
def LinePort.begin (resumes : Option Nat) (p : LinePort) : LinePort := if resumes.isNone then p.select else p

/-- What a fetch shifts out: the length byte and the body of a held response, or nothing (R180). -/
def LinePort.held (p : LinePort) : Option (List Byte) := p.unread.map fun r => byte r.length :: r

/-- The eighth clock of the code byte (R177, R180): the status byte has been reported, both LAST flags are cleared, and the
code decides the phase. -/
def LinePort.takeCode (c : Byte) (p : LinePort) : LinePort :=
  let q := { p with lastRefused := false, lastMalformed := false, shifted := p.shifted ++ [p.status] }
  if c = requestFrameCode then { q with phase := .length }
  else if c = fetchFrameCode then { q with phase := .fetch, toShift := p.held }
  else { q with phase := .discard }

/-- The byte that a fetch shifts out, with the response removed at the last bit of its last byte (R180). -/
def LinePort.fetchByte (p : LinePort) : LinePort :=
  match p.toShift with
  | some [b] => { p with toShift := none, unread := none, shifted := p.shifted ++ [b] }
  | some (b :: l) => { p with toShift := some l, shifted := p.shifted ++ [b] }
  | some [] | none => { p with shifted := p.shifted ++ [0] }

/-- One whole byte of eight clocks (R177, R178, R180). -/
def LinePort.takeByte (p : LinePort) (b : Byte) : LinePort :=
  match p.phase with
  | .noFrame => p
  | .code => p.takeCode b
  | .length =>
    let q := { p with shifted := p.shifted ++ [0] }
    if 1 ≤ b.toNat ∧ b.toNat ≤ bodyTop then { q with phase := .body, frameLength := b.toNat }
    else { q with phase := .discard }
  | .body =>
    { p with
      shifted := p.shifted ++ [0]
      frameCount := p.frameCount + 1
      buffer := if p.buffer.length < bodyTop then p.buffer ++ [b] else p.buffer }
  | .discard => { p with shifted := p.shifted ++ [0] }
  | .fetch => p.fetchByte

/-- A well-formed request frame is accepted, or refused with LAST_REFUSED (R179). -/
def LinePort.accept (p : LinePort) : LinePort :=
  if p.inProgress.isNone && p.unread.isNone then { p with inProgress := some p.buffer } else { p with lastRefused := true }

/-- The port with no frame in progress. -/
def LinePort.idle (p : LinePort) : LinePort := { p with phase := .noFrame, buffer := [], toShift := none }

/-- The rise of chip select (R177, R178, R179), which ends an ignored frame without effect (R176). -/
def LinePort.deselect (p : LinePort) : LinePort :=
  match p.phase with
  | .noFrame => p
  | .code | .fetch => p.idle
  | .length | .discard => { p.idle with lastMalformed := true }
  | .body => if p.frameCount = p.frameLength then p.accept.idle else { p.idle with lastMalformed := true }

/-- The bytes of a frame that the command takes. -/
def frameStretch (edges : FrameEdges) (bytes : List Byte) : List Byte :=
  (match edges.pauses with
    | some n => bytes.take n
    | none => bytes).drop (edges.resumes.getD 0)

/-- The end of a stretch: the rise of chip select, or a pause, at which nothing happens. -/
def LinePort.finish (pauses : Option Nat) (p : LinePort) : LinePort := if pauses.isNone then p.deselect else p

/-- A frame, or a stretch of one: chip select falls, whole bytes are clocked, chip select rises. The bits of an incomplete last
byte are discarded (R177). -/
def LinePort.frame (edges : FrameEdges) (bytes : List Byte) (p : LinePort) : LinePort :=
  ((frameStretch edges bytes).foldl LinePort.takeByte (p.begin edges.resumes)).finish edges.pauses

/-- A frame at the line computer port. -/
def State.spiFrame (edges : FrameEdges) (bytes : List Byte) (s : State) : State :=
  { s with line := s.line.frame edges bytes }

/-! ## Meanings -/

/-- SPI_REQUEST_FRAME (R178, R179). -/
def execSpiRequestFrame (body : List Byte) (edges : FrameEdges) (s : State) : Host.Outcome State Fault Refusal :=
  .next (s.spiFrame edges (requestFrameCode :: byte body.length :: body))

/-- SPI_MALFORMED_FRAME (R178): the code 51h and what followed it. -/
def execSpiMalformedFrame (rest : List Byte) (edges : FrameEdges) (s : State) : Host.Outcome State Fault Refusal :=
  .next (s.spiFrame edges (requestFrameCode :: rest))

/-- SPI_DISCARD_FRAME (R177): the bytes of a frame of another code; without a whole byte the port takes no action. -/
def execSpiDiscardFrame (bytes : List Byte) (edges : FrameEdges) (s : State) : Host.Outcome State Fault Refusal :=
  .next (s.spiFrame edges bytes)

/-- SPI_FETCH_FRAME (R180): the code 46h and the bytes the line computer sent after it, which are ignored. -/
def execSpiFetchFrame (bytes : List Byte) (edges : FrameEdges) (s : State) : Host.Outcome State Fault Refusal :=
  .next (s.spiFrame edges (fetchFrameCode :: bytes))

end Sys2Proof.Machine
end

