-- ==== Sys2Proof/Machine/PanelLink.lean ====
section
/-! DEFINITION. The floor panel link (11_floor_panel_link.md): the roll call, slots, grants, request frames and the end of a
response. -/

namespace Sys2Proof.Machine

/-- The byte of CALL (R187). -/
def callByte : Byte := 0xC5

/-- The first byte of GRANT (R187). -/
def grantByte : Byte := 0xC6

/-- A panel's answer that it has a request (R187). -/
def askByte : Byte := 0xA1

/-- The top of a silence count (R189). -/
def silenceTop : Nat := 3

/-- The panel link changed by `f`. -/
def State.updLink (s : State) (f : PanelLink → PanelLink) : State := { s with link := f s.link }

/-- One panel as the link sees it. -/
def PanelLink.panel (l : PanelLink) (n : PanelIx) : Panel := l.panels[n.val]

/-- One panel changed by `f`. -/
def PanelLink.updPanel (l : PanelLink) (n : PanelIx) (f : Panel → Panel) : PanelLink :=
  { l with panels := l.panels.set n.val (f (l.panel n)) n.isLt }

/-- The lowest address of the pending set (R190). -/
def PanelLink.lowestAsked (l : PanelLink) : Option PanelIx := (List.finRange 8).find? fun n => (l.panel n).asked

/-- GRANTING (R190): the next GRANT is sent, to the lowest panel of the pending set, or the roll call ends and the next CALL is
sent. -/
def PanelLink.grantNext (l : PanelLink) : PanelLink :=
  match l.lowestAsked with
  | some n =>
    { l.updPanel n (fun p => { p with asked := false }) with
      phase := .granting
      granted := some n
      dropped := false
      sent := [grantByte, byte (panelAddress n)] }
  | none => { l with phase := .calling, granted := none, dropped := false }

/-- The GRANT has been sent and the link is RECEIVING (R190). No frame and no deadline comes before (log entry 2). -/
def PanelLink.grantSent (l : PanelLink) : PanelLink := if l.phase = .granting then { l with phase := .receiving } else l

/-- CALL is sent (R190): the pending set is emptied and the slots follow. -/
def PanelLink.call (l : PanelLink) : PanelLink :=
  if decide (l.phase = .calling) && !l.quiet then
    { l with
      phase := .slots
      slot := 0
      panels := Vector.ofFn fun n => { l.panel n with asked := false }
      sent := [callByte] }
  else l

/-- A panel at the end of its slot, by the first byte that counts for the slot (R191). -/
def Panel.slotEnd (p : Panel) : Option LineByte → Panel
  | some (.whole b) => { p with present := true, silence := 0, asked := p.asked || decide (b = askByte) }
  | some .badStop => { p with present := true, silence := 0 }
  | none =>
    let n := min (p.silence + 1) silenceTop
    { p with present := p.present && decide (n < silenceTop), silence := n }

/-- The link after slot `n` (R190): the next slot, or the first grant after slot 8. -/
def PanelLink.afterSlot (l : PanelLink) (n : PanelIx) : PanelLink :=
  if h : n.val + 1 < 8 then { l with slot := ⟨n.val + 1, h⟩ } else l.grantNext

/-- The end of the slot in progress (R191); a change of presence sets the PANEL flag (R170). -/
def State.slotEnd (received : List LineByte) (s : State) : State :=
  if s.link.phase = .slots then
    let n := s.link.slot
    let p := s.link.panel n
    let q := p.slotEnd received.head?
    let s1 := s.updLink fun l => (l.updPanel n fun _ => q).afterSlot n
    if p.present = q.present then s1 else s1.updAttn fun a => a.setFlag panelFlag
  else s

/-- The whole bytes of what was received, none where a stop bit was missing (R192). -/
def wholeBytes : List LineByte → Option (List Byte)
  | [] => some []
  | .whole b :: l => (wholeBytes l).map fun bs => b :: bs
  | .badStop :: _ => none

/-- The most bytes that end by the deadline, 64 byte times after the GRANT (R192; log entry 17). -/
def deadlineBytes : Nat := 64

/-- The body of a request frame from panel `n` (R192): address n, a length L from 1 to 250, L body bytes and a good CRC, all
whole and in time. What follows the CRC is not read. -/
def judgeFrame (n : PanelIx) (received : List LineByte) : Option (List Byte) :=
  match received with
  | .whole a :: .whole len :: rest =>
    let k := len.toNat
    if a = byte (panelAddress n) ∧ 1 ≤ k ∧ k ≤ bodyTop ∧ k + 4 ≤ deadlineBytes then
      match wholeBytes (rest.take (k + 2)) with
      | none => none
      | some bs =>
        if bs.length = k + 2 ∧ bs.drop k = crcBytes (a :: len :: bs.take k) then some (bs.take k) else none
    else none
  | _ => none

/-- A request frame in RECEIVING (R192): accepted, the link is ANSWERING; dropped, the line is ignored to the deadline. -/
def PanelLink.takeFrame (received : List LineByte) (l : PanelLink) : PanelLink :=
  match l.phase, l.granted with
  | .receiving, some n =>
    if l.dropped then l
    else
      match judgeFrame n received with
      | some body => { l with phase := .answering, inProgress := some body }
      | none => { l with dropped := true }
  | _, _ => l

/-- A request frame after the GRANT (R192). -/
def PanelLink.requestFrame (received : List LineByte) (l : PanelLink) : PanelLink := l.grantSent.takeFrame received

/-- The deadline of a grant without an accepted frame (R192). -/
def PanelLink.deadline (l : PanelLink) : PanelLink := if l.grantSent.phase = .receiving then l.grantNext else l

/-- The last byte of the response frame has been sent (R193). -/
def PanelLink.responseSent (l : PanelLink) : PanelLink :=
  if decide (l.phase = .answering) && l.unread.isSome then { l with unread := none }.grantNext else l

/-! ## Meanings -/

/-- CALL (R190). -/
def execCall (s : State) : Host.Outcome State Fault Refusal := .next (s.updLink PanelLink.call)

/-- PANEL_SLOT_END (R191). -/
def execPanelSlotEnd (received : List LineByte) (s : State) : Host.Outcome State Fault Refusal := .next (s.slotEnd received)

/-- PANEL_REQUEST_FRAME (R192). -/
def execPanelRequestFrame (received : List LineByte) (s : State) : Host.Outcome State Fault Refusal :=
  .next (s.updLink (PanelLink.requestFrame received))

/-- PANEL_FRAME_DEADLINE (R192). -/
def execPanelFrameDeadline (s : State) : Host.Outcome State Fault Refusal := .next (s.updLink PanelLink.deadline)

/-- PANEL_RESPONSE_SENT (R193). -/
def execPanelResponseSent (s : State) : Host.Outcome State Fault Refusal := .next (s.updLink PanelLink.responseSent)

end Sys2Proof.Machine
end

