-- ==== Sys2Proof/Machine/Dispatch.lean ====
section
/-! DEFINITION. The effect of each command on everything but the queue: one arm per row of the opcode table. -/

namespace Sys2Proof.Machine

def exec (i : Instr) (s : State) : Host.Outcome State Fault Refusal :=
  match i with
  | .resetN => Sys2Proof.Machine.execResetN s
  | .tick pins => Sys2Proof.Machine.execTick pins s
  | .senseSettled h => Sys2Proof.Machine.execSenseSettled h s
  | .trimPeriodStart => Sys2Proof.Machine.execTrimPeriodStart s
  | .encPulse h => Sys2Proof.Machine.execEncPulse h s
  | .spinPulse h => Sys2Proof.Machine.execSpinPulse h s
  | .runRise h => Sys2Proof.Machine.execRunRise h s
  | .runFall h => Sys2Proof.Machine.execRunFall h s
  | .cutWaitExpiry h => Sys2Proof.Machine.execCutWaitExpiry h s
  | .flawRise h => Sys2Proof.Machine.execFlawRise h s
  | .flawFall h => Sys2Proof.Machine.execFlawFall h s
  | .knotPulse h => Sys2Proof.Machine.execKnotPulse h s
  | .rowPulse h => Sys2Proof.Machine.execRowPulse h s
  | .rowExpiry h => Sys2Proof.Machine.execRowExpiry h s
  | .excessWatchEnd h => Sys2Proof.Machine.execExcessWatchEnd h s
  | .lookup p tag => Sys2Proof.Machine.execLookup p tag s
  | .nextRecord p after kind state => Sys2Proof.Machine.execNextRecord p after kind state s
  | .readSpans p tag => Sys2Proof.Machine.execReadSpans p tag s
  | .readSources p tag first => Sys2Proof.Machine.execReadSources p tag first s
  | .create p tag kind spec => Sys2Proof.Machine.execCreate p tag kind spec s
  | .amend p tag mark changes => Sys2Proof.Machine.execAmend p tag mark changes s
  | .addSpan p tag mark lo hi kind => Sys2Proof.Machine.execAddSpan p tag mark lo hi kind s
  | .conclude p tag mark => Sys2Proof.Machine.execConclude p tag mark s
  | .band p tag mark => Sys2Proof.Machine.execBand p tag mark s
  | .retire p tag mark => Sys2Proof.Machine.execRetire p tag mark s
  | .bindProduct p head tag mark => Sys2Proof.Machine.execBindProduct p head tag mark s
  | .bindSource p head tag mark => Sys2Proof.Machine.execBindSource p head tag mark s
  | .storeFullNotification h => Sys2Proof.Machine.execStoreFullNotification h s
  | .bindFeed p head slot tag mark => Sys2Proof.Machine.execBindFeed p head slot tag mark s
  | .unbindFeed p head slot => Sys2Proof.Machine.execUnbindFeed p head slot s
  | .release p head => Sys2Proof.Machine.execRelease p head s
  | .enqueue p head length count rule => Sys2Proof.Machine.execEnqueue p head length count rule s
  | .clearQueue p head => Sys2Proof.Machine.execClearQueue p head s
  | .headStatus p head => Sys2Proof.Machine.execHeadStatus p head s
  | .setHead p head settings => Sys2Proof.Machine.execSetHead p head settings s
  | .setClock p seconds => Sys2Proof.Machine.execSetClock p seconds s
  | .readEvents p => Sys2Proof.Machine.execReadEvents p s
  | .clearEvents p marked => Sys2Proof.Machine.execClearEvents p marked s
  | .setDevice p settings => Sys2Proof.Machine.execSetDevice p settings s
  | .unknownRequest p code => Sys2Proof.Machine.execUnknownRequest p code s
  | .spiRequestFrame body edges => Sys2Proof.Machine.execSpiRequestFrame body edges s
  | .spiMalformedFrame rest edges => Sys2Proof.Machine.execSpiMalformedFrame rest edges s
  | .spiDiscardFrame bytes edges => Sys2Proof.Machine.execSpiDiscardFrame bytes edges s
  | .spiFetchFrame bytes edges => Sys2Proof.Machine.execSpiFetchFrame bytes edges s
  | .call => Sys2Proof.Machine.execCall s
  | .panelSlotEnd received => Sys2Proof.Machine.execPanelSlotEnd received s
  | .panelRequestFrame received => Sys2Proof.Machine.execPanelRequestFrame received s
  | .panelFrameDeadline => Sys2Proof.Machine.execPanelFrameDeadline s
  | .panelResponseSent => Sys2Proof.Machine.execPanelResponseSent s

end Sys2Proof.Machine
end

