-- ==== Sys2Proof/Machine/Step.lean ====
section
/-! DEFINITION. One step: the command at the front of the queue. -/

namespace Sys2Proof.Machine

/-- The state after the queue's front command has been taken from it. -/
def State.withQueue (s : State) (q : List Instr) : State := { s with pending := q }

/-- What time brings when no command waits: a GRANT that is being sent ends (R190). Otherwise the block idles (log entry 2). -/
def State.idle (s : State) : State := s.updLink PanelLink.grantSent

/-- One step takes the command at the front of the queue and runs it on the machine with the queue's rest. -/
def step (s : State) : Host.Outcome State Fault Refusal :=
  match s.pending with
  | [] => .next s.idle
  | c :: rest => exec c (s.withQueue rest)

/-- The machine with the command that a word spells at the front of its queue; unchanged where the word spells none. -/
def State.withFetchWord (s : State) (nbits w : Nat) : State :=
  match decodeTableWord nbits w with
  | some c => s.withQueue (c :: s.pending)
  | none => s

end Sys2Proof.Machine
end

