-- ==== Sys2Proof/WellFormed.lean ====
section
/-! DEFINITION. When a command is one the outside can give: the fields of a request fit the widths of R181, its list
items are items of its table, a frame row's bytes are of the row's kind (R177 to R180), and its stretch lies in the frame. -/

namespace Sys2Proof

/-- Each field fits its width. -/
def fieldsFit (fs : List (Nat × Nat)) : Bool := fs.all fun f => decide (f.2 < 256 ^ f.1)

/-- An item of a list: its number names an item, its value fits the item's width, and only AMEND makes a field
absent (R181). -/
def itemFits (width : Nat → Option Nat) (amend : Bool) (it : Item) : Bool :=
  match it.value, width it.number with
  | some v, some w => decide (v < 256 ^ w)
  | none, some _ => amend
  | _, none => false

/-- A list of items that one count byte can count. -/
def listFits (width : Nat → Option Nat) (amend : Bool) (l : List Item) : Bool :=
  decide (l.length < 256) && l.all (itemFits width amend)

/-- A body that SPI and panel frames can carry: 1 to 250 bytes (R178, R187). -/
def bodyFits (body : List Byte) : Bool := decide (1 ≤ body.length) && decide (body.length ≤ 250)

/-- A request frame after its code is well formed: exactly L whole body bytes follow the length byte L (R178). -/
def requestFrameOk : List Byte → Bool
  | [] => false
  | l :: body => decide (1 ≤ l.toNat) && decide (l.toNat ≤ 250) && decide (body.length = l.toNat)

/-- A stretch of a frame of `n` whole bytes: it pauses within the frame, not before it begins. -/
def FrameEdges.fits (n : Nat) (e : FrameEdges) : Bool :=
  decide (e.resumes.getD 0 ≤ e.pauses.getD n) && decide (e.pauses.getD n ≤ n)

/-- The check of each command. -/
def Instr.wf : Instr → Bool
  | .create p t k l => fieldsFit (fixedFields (.create p t k l)) && listFits specWidth false l
  | .amend p t m l => fieldsFit (fixedFields (.amend p t m l)) && listFits specWidth true l
  | .setHead p h l => fieldsFit (fixedFields (.setHead p h l)) && listFits settingWidth false l
  | .setDevice _ l => listFits deviceWidth false l
  | .unknownRequest _ c => decide (c < 256)
  | .spiRequestFrame body e => bodyFits body && e.fits (body.length + 2)
  | .spiMalformedFrame rest e => !requestFrameOk rest && e.fits (rest.length + 1)
  | .spiDiscardFrame bytes e => e.fits bytes.length && match bytes with
    | [] => true
    | c :: _ => decide (c ≠ 0x51) && decide (c ≠ 0x46)
  | .spiFetchFrame bytes e => e.fits (bytes.length + 1)
  | c => fieldsFit (fixedFields c)

end Sys2Proof
end

