-- ==== Sys2Proof/Safety.lean ====
section
/-! DEFINITION. What a well-kept machine is: the laws of the spec that every step keeps, in the terms the statements use. -/

namespace Sys2Proof

/-! ## Groups of commands -/

/-- The head at which a command of a head's own lines, ticks or planner acts. -/
def Instr.eventAt : Instr → Option HeadIx
  | .senseSettled h | .encPulse h | .spinPulse h | .runRise h | .runFall h | .cutWaitExpiry h | .flawRise h | .flawFall h
  | .knotPulse h | .rowPulse h | .rowExpiry h | .excessWatchEnd h | .storeFullNotification h => some h
  | _ => none

/-- The head index that a request which changes a head carries (R65). -/
def Instr.headOperand : Instr → Option Nat
  | .bindProduct _ n _ _ | .bindSource _ n _ _ | .bindFeed _ n _ _ _ | .unbindFeed _ n _ | .release _ n | .enqueue _ n _ _ _
  | .clearQueue _ n => some n
  | _ => none

/-- The tag that a binding request carries (R66, R68, R120). -/
def Instr.tagOperand : Instr → Option Nat
  | .bindProduct _ _ t _ | .bindSource _ _ t _ | .bindFeed _ _ _ t _ => some t
  | _ => none

/-- The tag and the mark of a request on a record that carries a mark (R35, R36, R52). -/
def Instr.recordOperand : Instr → Option (Nat × Mark)
  | .amend _ t m _ | .addSpan _ t m _ _ _ | .conclude _ t m | .band _ t m | .retire _ t m => some (t, m)
  | _ => none

/-- The head index, the tag and the mark of a binding request (R65). -/
def Instr.bindOperand : Instr → Option (Nat × Nat × Mark)
  | .bindProduct _ n t m | .bindSource _ n t m | .bindFeed _ n _ t m => some (n, t, m)
  | _ => none

/-- The requests that only the line computer may make (R35, R65, R150, R151, R168, R172 to R174). -/
def Instr.lineOnly : Instr → Bool
  | .create .. | .amend .. | .conclude .. | .retire .. | .bindProduct .. | .bindSource .. | .bindFeed .. | .unbindFeed ..
  | .enqueue .. | .clearQueue .. | .setHead .. | .setClock .. | .readEvents _ | .clearEvents .. | .setDevice .. => true
  | _ => false

/-- The requests that report and change nothing the spec gives the part (R38 to R41, R81). -/
def Instr.readOnly : Instr → Bool
  | .lookup .. | .nextRecord .. | .readSpans .. | .readSources .. | .headStatus .. => true
  | _ => false

end Sys2Proof

namespace Sys2Proof.Machine

/-! ## The record store -/

/-- The tags of a store stand in strictly ascending order, so no two live records share one (R3). -/
def Ascending (l : List Record) : Prop := l.Pairwise fun a b => a.tag < b.tag

/-- The store is in order, holds at most 256 records, and names each by a tag from 1 to 2^48 − 1 (R3). -/
structure State.StoreOk (s : State) : Prop where
  ascending : Ascending s.store
  capacity : s.store.length ≤ storeCap
  tags : ∀ r ∈ s.store, 1 ≤ r.tag ∧ r.tag < tagTop

/-- The shared coil tag prefix and serial lie in their ranges (R149). -/
structure State.CoilTagsOk (s : State) : Prop where
  prefixRange : s.coilPrefix ≤ 65535
  serialRange : 1 ≤ s.coilSerial ∧ s.coilSerial ≤ serialTop

/-! ## Span lists (R24, R27, R28) -/

/-- One span of a piece of made amount `top`: a non-empty interval inside the piece, with a kind; open with a holder and up
to the top, or closed with none. -/
structure Span.Ok (top : Nat) (s : Span) : Prop where
  nonempty : s.lo < s.hi
  inside : s.hi ≤ top
  kinds : s.kinds.isEmpty = false
  openHolders : s.isOpen = !s.holders.isEmpty
  openTop : s.isOpen = true → s.hi = top

/-- A span list of a piece of made amount `top` (R24): at most 24 spans in ascending order, pairwise neither overlapping nor
touching. -/
structure SpansOk (top : Nat) (l : List Span) : Prop where
  capacity : l.length ≤ spanCap
  spans : ∀ s ∈ l, s.Ok top
  apart : l.Pairwise fun a b => a.hi < b.lo

/-- A pending span waits at the made length, with a holder and a kind, and no open span stands beside it (R28). -/
structure Pending.Ok (p : Piece) (q : Pending) : Prop where
  atTop : q.pos = p.made
  kinds : q.kinds.isEmpty = false
  holders : q.holders.isEmpty = false
  alone : p.openSpan = none

/-- The spans and the pending span of a piece. -/
structure Piece.Ok (p : Piece) : Prop where
  list : SpansOk p.made p.spans
  pending : ∀ q, p.pending = some q → q.Ok p

/-- No open span and no pending span. -/
def Piece.Closed (p : Piece) : Prop := p.openSpan = none ∧ p.pending = none

/-- The counted quantities of a kind (R23): consumed length within made length, packed and waste length within made length. -/
def Body.CountsOk : Body → Prop
  | .strand b => b.consumed ≤ b.piece.made
  | .rope b => b.packed + b.waste ≤ b.piece.made
  | .panel _ => True
  | .coil _ => True

/-- A record keeps the laws of R23, R24 and R27: a PANEL has no open span, and a record has one only while it is MAKING. -/
structure Record.Ok (r : Record) : Prop where
  piece : ∀ p, r.body.piece = some p → p.Ok
  closedOutside : r.state ≠ .making → ∀ p, r.body.piece = some p → p.Closed
  closedPanel : r.kind = .panel → ∀ p, r.body.piece = some p → p.Closed
  counts : r.body.CountsOk

/-- Every live record keeps its laws. -/
def State.RecordsOk (s : State) : Prop := ∀ r ∈ s.store, r.Ok

/-! ## Heads -/

/-- The settings lie in their ranges (R77). -/
structure Settings.Ok (s : Settings) : Prop where
  pitch : 1 ≤ s.pitch ∧ s.pitch ≤ 16777215
  spindle : 1 ≤ s.spindle ∧ s.spindle ≤ 255
  turns : 1 ≤ s.turns ∧ s.turns ≤ 64
  gain : s.gain ≤ 255
  trimMin : s.trimMin ≤ 512
  trimMax : 512 ≤ s.trimMax ∧ s.trimMax ≤ 1023
  tolerance : 1 ≤ s.tolerance ∧ s.tolerance ≤ 500
  marker : s.marker ≤ 255
  guardMargin : s.guardMargin ≤ 9999
  knotWindow : 1 ≤ s.knotWindow ∧ s.knotWindow ≤ 65535
  feedLow : s.feedLow ≤ 65535
  minCoil : 1000 ≤ s.minCoil ∧ s.minCoil ≤ 1000000

/-- A coil order's fields lie in their ranges (R149). -/
structure CoilOrder.Ok (o : CoilOrder) : Prop where
  length : 1000 ≤ o.length ∧ o.length ≤ 4000000000
  count : 1 ≤ o.count ∧ o.count ≤ 255

/-- The settings latched by a lay window lie in their ranges (R77, R102). -/
structure LayWindow.Ok (w : LayWindow) : Prop where
  spindle : 1 ≤ w.spindle ∧ w.spindle ≤ 255
  turns : 1 ≤ w.turns ∧ w.turns ≤ 64

/-- A head's settings, its trim code within its limits (R115), its lay window and spindle count (R101), its queue (R149), its
settle count (R54) and its pitch fraction (R82). -/
structure Head.Ok (h : Head) : Prop where
  settings : h.settings.Ok
  trim : h.settings.trimMin ≤ h.trim ∧ h.trim ≤ h.settings.trimMax
  window : ∀ w, h.window = some w → w.Ok
  spinCount : h.spinCount ≤ 16319
  queueLength : h.queue.length ≤ 8
  queue : ∀ o ∈ h.queue, o.Ok
  settle : h.settle ≤ 64
  pitchFraction : h.pitchFraction < fine

/-- What work at head `h` leaves as it was: the queue, the clock, both ports, the coil tag prefix, the attention settings, every
flag already set, the settings of the head, and every other head but for a plan point notified to it (R5). -/
structure State.Keeps (h : HeadIx) (s t : State) : Prop where
  pending : t.pending = s.pending
  clock : t.clock = s.clock
  coilPrefix : t.coilPrefix = s.coilPrefix
  line : t.line = s.line
  link : t.link = s.link
  freeCount : t.freeCount = s.freeCount
  masks : t.attn.masks = s.attn.masks
  routes : t.attn.routes = s.attn.routes
  clearMode : t.attn.clearMode = s.attn.clearMode
  flags : ∀ k, s.attn.flags.getLsbD k = true → t.attn.flags.getLsbD k = true
  settings : (t.head h).settings = (s.head h).settings
  others : ∀ k, k ≠ h → { t.head k with notified := (s.head k).notified } = s.head k

/-- Every tag that a head names is in `P`. -/
structure Head.NamesOnly (P : Nat → Prop) (x : Head) : Prop where
  product : ∀ n, x.product = some n → P n
  source : ∀ n, x.source = some n → P n
  slots : ∀ m n, (x.slot m).strand = some n → P n
  segment : ∀ g n, x.segment = some g → g.coil = some n → P n

/-- Head `h` names tag `n`: as its product, its source, a strand in a slot or the coil of its segment. -/
def State.names (s : State) (h : HeadIx) (n : Nat) : Prop :=
  (s.head h).product = some n ∨ (s.head h).source = some n ∨ (∃ m, ((s.head h).slot m).strand = some n) ∨
    ∃ g, (s.head h).segment = some g ∧ g.coil = some n

/-- A record of a tag in `P`, or a COIL cut from a rope of such a tag. -/
def Record.Within (P : Nat → Prop) (r : Record) : Prop := P r.tag ∨ ∃ c, r.body = .coil c ∧ P c.sourceRope

/-- Every live record outside `P` stands as it did. -/
def State.LeavesRecords (P : Nat → Prop) (s t : State) : Prop :=
  ∀ r, s.find r.tag = some r → ¬r.Within P → t.find r.tag = some r

/-- Every head keeps its laws. -/
def State.HeadsOk (s : State) : Prop := ∀ h, (s.head h).Ok

/-! ## Bindings (R12) -/

/-- What a head names in a role: its product, the strand in a slot, its source, or the coil of its segment (R12). -/
def Head.named (x : Head) : Role → Option Nat
  | .product => x.product
  | .feed n => (x.slot n).strand
  | .source => x.source
  | .segment => x.segment.bind Segment.coil

/-- The kinds of record that a kind of machine binds in a role (R12). -/
def MachineKind.binds (k : MachineKind) (x : RecordKind) : Role → Bool
  | .product => decide (k.product = some x)
  | .feed n => k.hasSlot n && decide (x = .strand)
  | .source => decide (k = .coiler) && decide (x = .rope)
  | .segment => decide (k = .coiler) && decide (x = .coil)

/-- The state of a record that is bound in a role (R12). -/
def Role.state : Role → RecordState
  | .product => .making
  | .feed _ => .inUse
  | .source => .inUse
  | .segment => .winding

/-- The states in which a record is bound to no head (R12). -/
def RecordState.loose : RecordState → Bool
  | .making | .inUse | .winding => false
  | .draft | .interrupted | .made | .spent | .wound | .banded => true

/-- A record is in the state tied to its role, and holds the state it was bound from exactly while it is bound as PRODUCT
(R12). -/
structure Record.Tied (r : Record) : Prop where
  loose : r.bound = none → r.state.loose = true
  held : ∀ h ro, r.bound = some (h, ro) → r.state = ro.state
  since : ∀ h, r.bound = some (h, .product) → r.boundFrom = some .draft ∨ r.boundFrom = some .interrupted
  plain : (∀ h, r.bound ≠ some (h, .product)) → r.boundFrom = none

/-- A head and a live record name each other or neither does: in READY or a running state, with a kind of machine and a kind
of record that suit the role, and with the record in the state tied to the role (R12). A slot holds a strand only beside a
product, a segment a coil only beside a source, and a coiler that waits for an order or for room has no coil (R119, R157). -/
structure State.BindingsOk (s : State) : Prop where
  named : ∀ h ro n, (s.head h).named ro = some n → ∃ r k, s.find n = some r ∧ r.bound = some (h, ro) ∧
    (s.head h).kind = some k ∧ k.binds r.kind ro = true ∧ (s.head h).state.takesFeeds = true
  bound : ∀ n r h ro, s.find n = some r → r.bound = some (h, ro) → (s.head h).named ro = some n
  tied : ∀ n r, s.find n = some r → r.Tied
  feeds : ∀ h n, (s.head h).named (.feed n) ≠ none → (s.head h).product ≠ none
  coils : ∀ h, (s.head h).named .segment ≠ none → (s.head h).source ≠ none
  waiting : ∀ h, (s.head h).holds.queueEmpty = true ∨ (s.head h).holds.storeFull = true → (s.head h).named .segment = none

/-! ## Coils and their ropes (R162) -/

/-- A coil that belongs to a rope belongs to a live one that is MADE, IN_USE or SPENT (R5, R30). A WINDING coil is the segment of
its origin head, wound from the rope bound there as SOURCE, over the range below the current end that its plan point gave it
(R156, R158). No WINDING or WOUND coil graded FIRST has a range that meets a span of its source rope (R162). -/
structure State.CoilsOk (s : State) : Prop where
  ropes : ∀ n r c, s.find n = some r → r.body = .coil c → c.belongs = true → ∃ q, s.find c.sourceRope = some q ∧ q.kind = .rope ∧
    (q.state = .made ∨ q.state = .inUse ∨ q.state = .spent)
  winding : ∀ n r c, s.find n = some r → r.body = .coil c → r.state = .winding → c.belongs = true ∧ ∃ g q b,
    (s.head c.origin).segment = some g ∧ g.coil = some n ∧ g.plannedLo = c.lo ∧ s.sourceOf c.origin = some (q, b) ∧
      q.tag = c.sourceRope ∧ b.currentEnd = c.hi
  clear : ∀ n r c, s.find n = some r → r.body = .coil c → c.belongs = true → r.state = .winding ∨ r.state = .wound →
    c.grade = .first → meetsList c.lo c.hi (s.spansOf c.sourceRope) = false

/-! ## Words of the statements -/

/-- The kinds of record on which a request that carries a mark may act (R44, R47, R50, R51, R52). -/
def actsOnKind : Instr → RecordKind → Bool
  | .amend .., k | .addSpan .., k | .conclude .., k => decide (k ≠ .coil)
  | .band .., k => decide (k = .coil)
  | .retire .., _ => true
  | _, _ => false

/-- The states of a record in which a request that carries a mark may act on it (R44, R47, R50, R51, R52). -/
def actsInState : Instr → RecordKind → RecordState → Bool
  | .amend _ _ _ l, k, st => amendStateOk k st l
  | .addSpan .., _, st => decide (st = .making ∨ st = .interrupted ∨ st = .made ∨ st = .inUse)
  | .conclude .., _, st => decide (st = .interrupted)
  | .band .., _, st => decide (st = .wound)
  | .retire .., _, st => decide (st = .draft ∨ st = .interrupted ∨ st = .made ∨ st = .spent ∨ st = .banded)
  | _, _, _ => false

/-- The machine at a head suits a binding request (R66, R68, R120). -/
def suitsMachine : Instr → MachineKind → Bool
  | .bindProduct .., k => decide (k ≠ .coiler)
  | .bindSource .., k => decide (k = .coiler)
  | .bindFeed .., k => decide (k = .closer ∨ k = .loom)
  | _, _ => false

/-- The kind of record suits a binding request at a kind of machine (R12). -/
def suitsRecord : Instr → MachineKind → RecordKind → Bool
  | .bindProduct .., k, x => k.binds x .product
  | .bindSource .., k, x => k.binds x .source
  | .bindFeed .., _, x => decide (x = .strand)
  | _, _, _ => false

/-- The head, and its slot of a BIND_FEED, are in the state that a binding request asks for (R66, R68, R120). -/
def readyFor : Instr → Head → Bool
  | .bindProduct .., x | .bindSource .., x => decide (x.state = .idle)
  | .bindFeed _ _ n _ _, x => x.state.takesFeeds && x.slotFree n
  | _, _ => false

/-- The states in which a record may be bound by a binding request (R66, R68, R120). -/
def bindableIn : Instr → RecordState → Bool
  | .bindProduct .., st => decide (st = .draft ∨ st = .interrupted)
  | .bindSource .., st | .bindFeed .., st => decide (st = .made)
  | _, _ => false

/-- A head's event flag is set (R169). -/
def State.flagged (s : State) (h : HeadIx) (f : HeadFlag) : Bool := s.attn.flag (flagNumber h f)

/-- What becomes of coil `r` when the span list of rope `rope` has become `l` (R30, R162): where the list has changed, a WINDING or
WOUND coil graded FIRST that belongs to the rope, and whose reach or range meets a span of the list, is graded SECOND, with its mark
stepped and COIL_DOWNGRADED at its origin head. Any other coil stands. -/
def State.Judges (rope : Nat) (l : List Span) (s t : State) (r : Record) (c : CoilBody) : Prop :=
  if l ≠ s.spansOf rope ∧ c.belongs = true ∧ c.sourceRope = rope ∧ (r.state = .winding ∨ r.state = .wound) ∧ c.grade = .first ∧
      meetsList (s.judgedRange r c).1 (s.judgedRange r c).2 l = true then
    t.find r.tag = some { r with mark := r.mark + 1, changed := s.clock.seconds, body := .coil { c with grade := .second } } ∧
      t.attn.flag (flagNumber c.origin .alarm) = true ∧ (t.attn.causesOf c.origin).coilDowngraded = true
  else t.find r.tag = some r

/-- What becomes of every coil when the span list of rope `rope` has become `l` (R30, R162). -/
def State.Downgrades (rope : Nat) (l : List Span) (s t : State) : Prop :=
  ∀ r c, s.find r.tag = some r → r.body = .coil c → s.Judges rope l t r c

/-- The flaw span of a coiler whose rope has made length `m` (R98): with guard margin `g`, from the rise at unwind position `pr` to the
fall at `p`, and one millimetre where that is empty. -/
def coilerFlaw (m g pr p : Nat) : Span :=
  let i := if p - g < min m (pr + g) then (p - g, min m (pr + g)) else if p = m then (p - 1, p) else (p, p + 1)
  ⟨i.1, i.2, KindSet.only .flaw, false, {}⟩

/-- What FLAW does to rope `r` of coiler `h`, and to its coils, as the head, which then stands as `x`, leaves the running states at
unwind position `p` (R100); `l` is the rope's span list after. With FLAW low, or without a rise position, the list stands. With FLAW
high the flaw span is normalized into it (R98, R99), the coils are judged, but for the one of the segment, whose end is its own matter
(R30, R162), and a BANDED coil reached raises BANDED_FLAW (R163). -/
structure State.FlawLeaves (h : HeadIx) (x : Head) (r : Record) (b : RopeBody) (p : Nat) (l : List Span) (s t : State) : Prop where
  low : x.flawHigh = false ∨ x.flawRise = none → l = b.piece.spans
  high : ∀ pr, x.flawHigh = true → x.flawRise = some pr → 0 < b.piece.made →
    l = (normalize (coilerFlaw b.piece.made x.settings.guardMargin pr p) b.piece.spans).1
  coils : ∀ pr, x.flawHigh = true → x.flawRise = some pr → 0 < b.piece.made →
    ∀ y c, s.find y.tag = some y → y.body = .coil c → (s.head h).named .segment ≠ some y.tag → s.Judges r.tag l t y c
  banded : ∀ pr, x.flawHigh = true → x.flawRise = some pr →
    s.reachesBanded r.tag (coilerFlaw b.piece.made x.settings.guardMargin pr p) = true →
    t.flagged h .alarm = true ∧ (t.attn.causesOf h).bandedFlaw = true

/-- What a plan point of coiler `h` leaves, in a change from `s` to `t` (R64, R153 to R157, R164). It finds the head as `x`, and
`r` as SOURCE with the fields `b` once the unplanned length has gone to waste (R154); `m` is the rope's mark where it ends. The counts
are fresh. At a current end of 0 the rope is SPENT and the head DONE. Otherwise the decision of R155 is carried out: waste makes a WASTE
segment; without an order the coiler waits on QUEUE_EMPTY; a coil without room waits on STORE_FULL; a coil with room is created in
WINDING over the top of the rope, and is the segment. Its tag is of the prefix and of the first serial whose tag is not live, the serial
steps past it (R152), and the count's rise to 240 raises STORE (R4). A segment made clears both reasons; a head in READY stays, and from
CUTTING and HELD it goes by the level of RUN. A wait leaves the head HELD, with STATE where it was not (R157). -/
def State.Plans (h : HeadIx) (r : Record) (b : RopeBody) (x : Head) (m : Mark) (s t : State) : Prop :=
  let e := b.currentEnd
  let plan := planSegment x.settings.minCoil e x.queue b.piece.spans
  let rope := t.find r.tag = some { r with body := .rope b }
  let waits := fun z : HoldSet => rope ∧ (t.head h).holds = z ∧ (t.head h).state = .held ∧ (t.head h).segment = x.segment ∧
    t.coilSerial = s.coilSerial ∧ (x.state ≠ .held → t.flagged h .state = true)
  let leaves := rope ∧ (t.head h).holds = ⟨x.holds.feedShort, false, false⟩ ∧
    (t.head h).state = if x.state = .ready then .ready else if x.runHigh then .run else .stopped
  (t.head h).unplanned = 0 ∧ (t.head h).pitchFraction = 0 ∧ (t.head h).queue = x.queue ∧ (t.head h).runHigh = x.runHigh ∧
    (e = 0 → ∃ (r' : Record) (b' : RopeBody), t.find r.tag = some r' ∧ r'.body = .rope b' ∧ b'.waste = b.waste ∧ b'.packed = b.packed ∧
      b'.piece.made = b.piece.made ∧ r'.state = .spent ∧ r'.bound = none ∧ r'.mark = m ∧ (t.head h).state = .done ∧
      (t.head h).holds = {} ∧ (t.head h).source = none ∧ (t.head h).segment = none ∧ t.flagged h .state = true ∧
      t.flagged h .coil = true ∧ (s.BindingsOk → s.CoilsOk → s.FlawLeaves h x r b 0 b'.piece.spans t)) ∧
    (∀ n, 0 < e → plan = .waste n → leaves ∧ (t.head h).segment = some ⟨none, n, e - n, 0, false⟩ ∧ t.coilSerial = s.coilSerial) ∧
    (0 < e → plan = .noOrder → waits ⟨x.holds.feedShort, true, false⟩) ∧
    ∀ n grade short, 0 < e → plan = .coil n grade short →
      (s.store.length = 256 → waits ⟨x.holds.feedShort, false, true⟩) ∧
      (s.store.length < 256 → leaves ∧ t.store.length = s.store.length + 1 ∧
        ∃ serial, findSerial s.live s.coilPrefix 256 s.coilSerial = some serial ∧
          t.coilSerial = (if serial = 4294967295 then 1 else serial + 1) ∧
          let tag := s.coilPrefix * 4294967296 + serial
          s.find tag = none ∧ t.find tag = some ⟨tag, .winding, 0, s.clock.seconds, s.clock.seconds, false, false, some (h, .segment), none,
            .coil ⟨r.tag, h, e - n, e, n, grade, short, none, true⟩⟩ ∧
          (t.head h).segment = some ⟨some tag, n, e - n, 0, true⟩ ∧
          (s.store.length = 239 → t.attn.flag 65 = true ∧ t.attn.storeCauses.store240 = true))

/-- A source list with its open entries of the slots `out` closed at a product position (R31, R123). -/
def closedAt (out : SlotIx → Bool) (pos : Nat) (l : List SourceEntry) : List SourceEntry :=
  l.map fun e => if e.stop = none ∧ out e.slot = true then { e with stop := some pos } else e

/-- A consumption of `n` millimetres brings the strand in slot `m` of head `h` to its made length (R19, R131). -/
def State.runsOut (s : State) (h : HeadIx) (m : SlotIx) (n : Nat) : Bool :=
  match s.fedBy h m with
  | some (_, b) => decide (0 < n) && decide (b.piece.made - b.consumed ≤ n)
  | none => false

/-- Product `r` of maker `h` has left MAKING as `r'` (R18, R119, R123): it is bound to no head, its open source entries are closed at
its made amount as it then is, every slot is cleared, and every strand that stood in a slot is bound to no head. Where no open row was
closed with it (R140), it was made as far as before, and each of those strands is MADE and otherwise as it was. -/
structure State.EndsMaking (h : HeadIx) (r r' : Record) (s t : State) : Prop where
  unbound : r'.bound = none
  sources : r'.body.sources = closedAt (fun _ => true) r'.made r.body.sources
  slots : ∀ n, (t.head h).slot n = ⟨none, false, 0, false, false⟩
  feeds : ∀ n x, ((s.head h).slot n).strand = some x.tag → s.find x.tag = some x →
    ∃ x', t.find x.tag = some x' ∧ x'.bound = none ∧ (x'.state = .made ∨ x'.state = .spent)
  plain : ((s.head h).kind = some .loom → (s.head h).state.running = true → (s.head h).row = none) → r'.made = r.made ∧
    ∀ n x, ((s.head h).slot n).strand = some x.tag → s.find x.tag = some x →
      t.find x.tag = some { x with state := .made, bound := none, mark := x.mark + 1, changed := s.clock.seconds }

/-- Positions [lo, hi) of a piece lie in one span of its list that has the kinds `k` and more. -/
def Piece.Marks (lo hi : Nat) (k : KindSet) (p : Piece) : Prop := ∃ x ∈ p.spans, x.lo ≤ lo ∧ hi ≤ x.hi ∧ x.kinds.union k = x.kinds

/-- The charge of a row marks it FEED (R128): a slot stands empty, a strand runs short of the charge, or the stretch drawn meets one of
its spans. -/
def State.MarksFeed (h : HeadIx) (charge : Nat) (s : State) : Prop :=
  ∃ n : SlotIx, n.val < 2 ∧ (((s.head h).slot n).strand = none ∨ ∃ x y, ((s.head h).slot n).strand = some x.tag ∧
    s.find x.tag = some x ∧ x.body = .strand y ∧ 0 < charge ∧ (y.piece.made - y.consumed < charge ∨
      meetsList (y.piece.made - y.consumed - charge) (y.piece.made - y.consumed) y.piece.spans = true))

/-- A row of a panel at head `h`, closed with `count` knots, is settled (R141, R143, R144): it is counted, its missed knots are added
with KNOT_SHORT, and it is marked KNOT, FLAW and FEED where it is short, has seen a flaw, and by its charge; a row without any mark
leaves the list. -/
structure State.SettlesRow (h : HeadIx) (w : RowWindow) (count : Nat) (b b' : PanelBody) (s t : State) : Prop where
  made : b'.piece.made = if b.piece.made < 65535 then b.piece.made + 1 else b.piece.made
  missed : b'.missed = if count < w.knots then min (b.missed + (w.knots - count)) 4294967295 else b.missed
  short : count < w.knots → t.flagged h .alarm = true ∧ (t.attn.causesOf h).knotShort = true
  knot : count < w.knots → b'.piece.Marks (b'.piece.made - 1) b'.piece.made (KindSet.only .knot)
  flaw : w.flawSeen = true → b'.piece.Marks (b'.piece.made - 1) b'.piece.made (KindSet.only .flaw)
  feed : s.MarksFeed h (count * (w.bar + w.allowance)) →
    b'.piece.Marks (b'.piece.made - 1) b'.piece.made (KindSet.only .feed)
  clean : ¬s.MarksFeed h (count * (w.bar + w.allowance)) → w.knots ≤ count → w.flawSeen = false → b'.piece.spans = b.piece.spans

/-- The specification of a CREATE, or of an AMEND, that the field check refuses (R43, R44): an item that the kind does not carry, a
value out of its range, an absence, but in an AMEND of an optional field, a field named twice, and in a CREATE a required field that is
missing. -/
def badSpec (amends : Bool) (k : RecordKind) (l : List Item) : Prop :=
  let carried := fun n : Nat => match k with
    | .strand => n = 1 ∨ n = 2
    | .rope => 1 ≤ n ∧ n ≤ 4
    | .panel => 5 ≤ n ∧ n ≤ 8
    | .coil => False
  let within := fun n v : Nat => (n = 1 → 16 ≤ v ∧ v ≤ 65535) ∧ (n = 2 → 1 ≤ v ∧ v ≤ 4294967295) ∧ (n = 3 → v = 3 ∨ v = 4) ∧
    (n = 4 → 65536 ≤ v ∧ v ≤ 131071) ∧ (n = 5 → 1 ≤ v ∧ v ≤ 1023) ∧ (n = 6 → 1 ≤ v ∧ v ≤ 2000) ∧ (n = 7 → v ≤ 500) ∧
    (n = 8 → 1 ≤ v ∧ v ≤ 65535)
  (∃ it ∈ l, ¬carried it.number ∨ (∃ v, it.value = some v ∧ ¬within it.number v) ∨
    (it.value = none ∧ (amends = false ∨ (it.number ≠ 1 ∧ it.number ≠ 2 ∧ it.number ≠ 8)))) ∨
  ¬(l.map Item.number).Nodup ∨
  (amends = false ∧ ∃ n, (match k with
    | .rope => n = 3 ∨ n = 4
    | .panel => n = 5 ∨ n = 6 ∨ n = 7
    | .strand | .coil => False) ∧ n ∉ l.map Item.number)

/-- Command `c` is the request that stands in progress at port `p`, with the body `body` (R33, R34). -/
def State.Asks (s : State) (p : Port) (c : Instr) (body : List Byte) : Prop :=
  s.inProgress p = some body ∧ requestCommand p body = c

/-- The made length, or the made rows, of a live record. -/
def State.madeOf (s : State) (n : Nat) : Option Nat := (s.find n).map Record.made

/-- The piece has the holder `x`, and the kind it gives, in its open span, or in its pending span, from `start` or below (R27,
R28). -/
def Piece.HeldFrom (x : Holder) (start : Nat) (p : Piece) : Prop :=
  (∃ y ∈ p.spans, y.isOpen = true ∧ y.holders.has x = true ∧ y.kinds.union (KindSet.only x.kind) = y.kinds ∧ y.lo ≤ start) ∨
    ∃ q, p.pending = some q ∧ q.holders.has x = true ∧ q.kinds.union (KindSet.only x.kind) = q.kinds ∧ q.pos ≤ start

end Sys2Proof.Machine
end

