-- ==== Sys2Proof/Certificates/Slice0/Obligations.lean ====
section
/-! DEFINITION. The statements about the WL16 that the provers are asked to prove. Each names the rules it rests on. -/

open Sys2Proof Sys2Proof.Machine

/-! ## The queue, reset and the clock -/

/-- A step takes the command at the front of the queue and runs it on the machine with the queue's rest. On an empty queue the block
idles, and a GRANT that is being sent ends (the model's choice, log entry 2). No command alters the queue. -/
def Obligations.StepTakesFrontCommand : Prop :=
  (∀ (c : Instr) (q : List Instr) (s : State), step (s.withQueue (c :: q)) = exec c (s.withQueue q)) ∧
    (∀ s : State, s.pending = [] → step s =
      .next { s with link := { s.link with phase := if s.link.phase = .granting then .receiving else s.link.phase } }) ∧
    ∀ (c : Instr) (s t : State), exec c s = .next t → t.pending = s.pending

/-- The state after reset (R3, R32, R54, R77, R80, R82, R101, R118, R134, R149, R167, R171, R174, R176, R188, R189), and the laws of
the store, of the heads, of the bindings and of the coils in it. The link's phase beside its quiet is the model's (log entry 18). -/
def Obligations.ResetState : Prop :=
  State.reset.pending = [] ∧ State.reset.store = [] ∧ State.reset.clock = ⟨0, 0⟩ ∧ State.reset.coilPrefix = 0 ∧
    State.reset.coilSerial = 1 ∧
    (∀ h, (State.reset.head h).accepted = .empty ∧ (State.reset.head h).candidate = ⟨false, false, false, false⟩ ∧
      (State.reset.head h).settle = 0 ∧ (State.reset.head h).state = .empty ∧ (State.reset.head h).holds = {} ∧
      (State.reset.head h).product = none ∧ (State.reset.head h).source = none ∧
      (State.reset.head h).settings = ⟨65536, 1, 8, 0, 0, 1023, 50, 0, 0, 1024, 0, 10000, .normal⟩ ∧
      (State.reset.head h).markHigh = false ∧ (State.reset.head h).trim = 512 ∧ (State.reset.head h).window = none ∧
      (State.reset.head h).spinCount = 0 ∧
      (State.reset.head h).lastLay = none ∧ (State.reset.head h).lastDeviation = none ∧
      (State.reset.head h).pitchFraction = 0 ∧ (State.reset.head h).limitNoted = false ∧
      (State.reset.head h).guardRelease = none ∧ (State.reset.head h).joinRelease = none ∧ (State.reset.head h).flawRise = none ∧
      (State.reset.head h).row = none ∧ (State.reset.head h).excessWatch = 0 ∧ (State.reset.head h).queue = [] ∧
      (State.reset.head h).segment = none ∧ (State.reset.head h).unplanned = 0 ∧
      ∀ n, (State.reset.head h).slot n = ⟨none, false, 0, false, false⟩) ∧
    State.reset.attn.flags = 0 ∧ (∀ h, State.reset.attn.causesOf h = {}) ∧ State.reset.attn.storeCauses = {} ∧
    (∀ k : Fin 66, State.reset.attn.masks.getLsbD k.val = true ∧ State.reset.attn.routes[k.val] = .none) ∧
    State.reset.attn.clearMode = .explicit ∧
    State.reset.line.phase = .noFrame ∧ State.reset.line.buffer = [] ∧ State.reset.line.inProgress = none ∧
    State.reset.line.unread = none ∧ State.reset.line.lastRefused = false ∧ State.reset.line.lastMalformed = false ∧
    State.reset.link.quiet = true ∧ State.reset.link.lineEnable = false ∧
    State.reset.link.phase = .calling ∧ State.reset.link.inProgress = none ∧ State.reset.link.unread = none ∧
    (∀ n, State.reset.link.panel n = ⟨false, 3, false, 0⟩) ∧
    State.reset.StoreOk ∧ State.reset.CoilTagsOk ∧ State.reset.RecordsOk ∧ State.reset.HeadsOk ∧
    State.reset.BindingsOk ∧ State.reset.CoilsOk

/-- RESET_N leaves the reset state from every state (R32, R80, R149, R167, R174, R176, R189), but for the queue and for the levels
that RUN and FLAW have from outside (the model's choices, log entries 5 and 20). -/
def Obligations.ResetNResult : Prop :=
  ∀ s : State, ∃ t : State, exec .resetN s = .next t ∧ t.pending = s.pending ∧ t.store = [] ∧ t.clock = State.reset.clock ∧
    t.attn = State.reset.attn ∧ t.coilPrefix = State.reset.coilPrefix ∧ t.coilSerial = State.reset.coilSerial ∧
    t.line = State.reset.line ∧ t.link = State.reset.link ∧
    ∀ h, t.head h = { State.reset.head h with runHigh := (s.head h).runHigh, flawHigh := (s.head h).flawHigh }

/-- A tick: the clock counts (R167), each head samples its sense pins (R54), and the counts that ticks run down fall by one, not
below 0 (R63, R138, R139). Nothing else changes but the link's quiet after reset, with which the line-enable is driven for a CALL that
waits (R188, R189; log entry 18). -/
def Obligations.TickResult : Prop :=
  ∀ (pins : Vector SensePins 16) (s : State), ∃ t : State, exec (.tick pins) s = .next t ∧
    t.clock = (if s.clock.ticks < 1023 then ⟨s.clock.seconds, s.clock.ticks + 1⟩ else ⟨s.clock.seconds + 1, 0⟩) ∧
    (∀ h : HeadIx, t.head h =
      { s.head h with
        candidate := pins[h.val]
        settle := if pins[h.val] = (s.head h).candidate then min ((s.head h).settle + 1) 64 else 1
        row := (s.head h).row.map fun w => { w with expiry := w.expiry - 1 }
        excessWatch := (s.head h).excessWatch - 1
        cutWait := (s.head h).cutWait.map fun n => n - 1 }) ∧
    t.link = { s.link with quiet := false } ∧ (s.link.phase = .calling → t.link.lineEnable = true) ∧ t.pending = s.pending ∧
    t.store = s.store ∧ t.attn = s.attn ∧
    t.coilPrefix = s.coilPrefix ∧ t.coilSerial = s.coilSerial ∧ t.line = s.line ∧ t.freeCount = s.freeCount

/-- The start of a TRIM period: every head takes its trim code as the duty of the period (R59), all heads together (the model's
choice, log entry 24), and nothing else changes. The outputs of a head (R58): OUT0 of a STRANDER or CLOSER beyond IDLE is then at its
active level for the first steps of the period, trim code many of them, and any other head's is at the inactive level; CUT is high in
CUTTING; MARK is OUT2 of a STRANDER or CLOSER, and any other head's OUT2 is low; HOLD is high while a hold reason is present. -/
def Obligations.TrimPeriodResult : Prop :=
  (∀ s : State, ∃ t : State, exec .trimPeriodStart s = .next t ∧
    (∀ h, t.head h = { s.head h with duty := (s.head h).trim }) ∧
    t.pending = s.pending ∧ t.store = s.store ∧ t.clock = s.clock ∧ t.attn = s.attn ∧ t.coilPrefix = s.coilPrefix ∧
    t.coilSerial = s.coilSerial ∧ t.line = s.line ∧ t.link = s.link ∧ t.freeCount = s.freeCount ∧
    ∀ (h : HeadIx) (i : Nat), (s.head h).laysLength = true → (s.head h).state ≠ .empty → (s.head h).state ≠ .idle →
      ((s.head h).settings.polarity = .normal → (t.head h).out0 i = decide (i < (s.head h).trim)) ∧
        ((s.head h).settings.polarity = .inverted → (t.head h).out0 i = decide ((s.head h).trim ≤ i))) ∧
  ∀ x : Head, (x.cut = true ↔ x.state = .cutting) ∧ (x.hold = true ↔ x.holds ≠ {}) ∧
    (x.kind = some .strander ∨ x.kind = some .closer → x.out2 = x.markHigh) ∧
    (x.kind ≠ some .strander → x.kind ≠ some .closer → x.out2 = false) ∧
    ∀ i, (x.kind ≠ some .strander ∧ x.kind ≠ some .closer) ∨ x.state = .empty ∨ x.state = .idle →
      x.out0 i = decide (x.settings.polarity = .inverted)

/-! ## Sensing -/

/-- The results of the sense pins (R55), a settled combination accepted, and the head after it: SENSE is raised, the head is IDLE
with a kind and EMPTY without one, and a machine that was connected has been disconnected (R74 to R76), with MARK low (R58). -/
def Obligations.SenseSettledResult : Prop :=
  (∀ k1 k2 : Bool, senseResult ⟨false, false, k1, k2⟩ = .empty ∧ senseResult ⟨true, false, k1, k2⟩ = .partialPlug ∧
      senseResult ⟨false, true, k1, k2⟩ = .partialPlug) ∧
    senseResult ⟨true, true, false, false⟩ = .machine .strander ∧ senseResult ⟨true, true, true, false⟩ = .machine .closer ∧
    senseResult ⟨true, true, false, true⟩ = .machine .loom ∧ senseResult ⟨true, true, true, true⟩ = .machine .coiler ∧
    ∀ (h : HeadIx) (s : State), (s.head h).settle = 64 → senseResult (s.head h).candidate ≠ (s.head h).accepted →
      ∃ t : State, exec (.senseSettled h) s = .next t ∧ (t.head h).accepted = senseResult (s.head h).candidate ∧
        (t.head h).state = (match senseResult (s.head h).candidate with
          | .machine _ => .idle
          | .empty | .partialPlug => .empty) ∧
        t.flagged h .sense = true ∧
        ((s.head h).kind.isSome = true → (t.head h).product = none ∧ (t.head h).source = none ∧ (t.head h).holds = {} ∧
          (t.head h).segment = none ∧ (t.head h).queue = [] ∧ (t.head h).markHigh = false ∧ ∀ n, ((t.head h).slot n).strand = none)

/-- A disconnect of a maker in a running state leaves its product INTERRUPTED, with INTERRUPTED_ONCE set, bound to no head, and its
mark stepped (R9, R11, R18, R74). Every strand in a slot returns to MADE, bound to no head, but for one that the close of an open row
spends, and the open source entries are closed at the made amount of that change (R119, R123, R140). -/
def Obligations.DisconnectInterruptsProduct : Prop :=
  ∀ (h : HeadIx) (s : State) (k : MachineKind) (r : Record), s.StoreOk → (s.head h).settle = 64 →
    senseResult (s.head h).candidate ≠ (s.head h).accepted → (s.head h).kind = some k → k ≠ .coiler →
    (s.head h).state.running = true → s.productOf h = some r → r.state = .making →
    ∃ (t : State) (r' : Record), exec (.senseSettled h) s = .next t ∧ t.find r.tag = some r' ∧ r'.state = .interrupted ∧
      r'.interruptedOnce = true ∧ r'.bound = none ∧ r'.mark = r.mark + 1 ∧ r'.changed = s.clock.seconds ∧
      (s.BindingsOk → s.EndsMaking h r r' t)

/-! ## Length metering -/

/-- An ENC pulse that makes no whole millimetre adds its pitch to the pitch fraction and changes nothing else (R83); on a loom, or in
a state that follows no pulses, it changes nothing (R57). -/
def Obligations.EncPulseBelowOneMillimetre : Prop :=
  ∀ (h : HeadIx) (s : State), s.StoreOk →
    ((s.head h).state.running = true →
      ((s.head h).kind = some .strander ∨ (s.head h).kind = some .closer ∨ (s.head h).kind = some .coiler) →
      (s.head h).pitchFraction + (s.head h).settings.pitch < 65536 →
      exec (.encPulse h) s = .next (s.updHead h fun x => { x with pitchFraction := x.pitchFraction + x.settings.pitch })) ∧
    ((s.head h).state.running = false ∨ (s.head h).kind = some .loom ∨ (s.head h).kind = none →
      exec (.encPulse h) s = .next s)

/-- An ENC pulse with a carry advances the made length of the product of a STRANDER or CLOSER, held at its top with LENGTH_LIMIT
(R83, R85, R86), and toggles MARK once for each multiple of the marker interval it crosses (R90). The open span follows the made
length and a pending span enters the list (R22, R28), GUARD and JOIN are released where the advance reaches their positions (R96), and
a product at its end point takes the head to CUTTING (R62, R92). -/
def Obligations.EncPulseAdvancesProduct : Prop :=
  ∀ (h : HeadIx) (s : State) (r : Record) (p : Piece), s.StoreOk → (s.head h).state.running = true → (s.head h).laysLength = true →
    s.productOf h = some r → r.body.piece = some p → r.made ≤ 4294967295 →
    65536 ≤ (s.head h).pitchFraction + (s.head h).settings.pitch →
    ∃ (t : State) (r' : Record) (p' : Piece), exec (.encPulse h) s = .next t ∧ t.find r.tag = some r' ∧ r'.body.piece = some p' ∧
      let sum := (s.head h).pitchFraction + (s.head h).settings.pitch
      let made := min (r.made + sum / 65536) 4294967295
      p'.made = made ∧
        (t.head h).pitchFraction = (if r.made + sum / 65536 ≤ 4294967295 then sum % 65536 else 65535) ∧
        (4294967295 < r.made + sum / 65536 → (t.head h).limitNoted = true) ∧
        (4294967295 < r.made + sum / 65536 → (s.head h).limitNoted = false →
          t.flagged h .alarm = true ∧ (t.attn.causesOf h).lengthLimit = true) ∧
        (t.head h).markHigh = ((s.head h).markHigh ^^ (decide ((s.head h).settings.marker ≠ 0) &&
          decide ((made / ((s.head h).settings.marker * 1000) - r.made / ((s.head h).settings.marker * 1000)) % 2 = 1))) ∧
        (r.made < 4294967295 →
          (∀ x ∈ p.spans, x.isOpen = true → p'.Marks x.lo made x.kinds) ∧
          (∀ q, p.pending = some q → p'.Marks q.pos made q.kinds) ∧
          (∀ g, (s.head h).guardRelease = some g →
            (g ≤ made → (t.head h).guardRelease = none ∧ (s.RecordsOk → t.hasHolder r.tag .guard = false)) ∧
            (made < g → (t.head h).guardRelease = some g ∧
              (s.RecordsOk → s.hasHolder r.tag .guard = true → t.hasHolder r.tag .guard = true))) ∧
          (∀ g, (s.head h).joinRelease = some g →
            (g ≤ made → (t.head h).joinRelease = none ∧ (s.RecordsOk → t.hasHolder r.tag .join = false)) ∧
            (made < g → (t.head h).joinRelease = some g ∧
              (s.RecordsOk → s.hasHolder r.tag .join = true → t.hasHolder r.tag .join = true))) ∧
          (∀ n, r.endPoint = some n → n ≤ made → (t.head h).state = .cutting ∧
            ((s.head h).state ≠ .cutting → t.flagged h .state = true ∧ (t.head h).cutRunHigh = (s.head h).runHigh)) ∧
          ((s.head h).kind = some .strander → (∀ n, r.endPoint = some n → made < n) → (t.head h).state = (s.head h).state))

/-- An ENC pulse with a carry at a COILER: in RUN, STOPPED and CUTTING it adds to the unwound length of the segment, and in RUN and
STOPPED the planned length reached enters CUTTING with STATE (R62, R87, R88); in HELD it adds to the unplanned count. Each holds at
its top, with LENGTH_LIMIT once in a binding (R87). The rest of the sum stays in the pitch fraction (R83), at the top as well (log
entry 16). The records stand. -/
def Obligations.EncPulseUnwinds : Prop :=
  ∀ (h : HeadIx) (s : State), s.StoreOk → (s.head h).kind = some .coiler →
    65536 ≤ (s.head h).pitchFraction + (s.head h).settings.pitch →
    let sum := (s.head h).pitchFraction + (s.head h).settings.pitch
    let limits := fun (n : Nat) (t : State) =>
      (4294967295 < n + sum / 65536 → (t.head h).limitNoted = true ∧ ((s.head h).limitNoted = false →
          t.flagged h .alarm = true ∧ (t.attn.causesOf h).lengthLimit = true)) ∧
        (n + sum / 65536 ≤ 4294967295 → (t.head h).limitNoted = (s.head h).limitNoted)
    (∀ g, (s.head h).state = .run ∨ (s.head h).state = .stopped ∨ (s.head h).state = .cutting → (s.head h).segment = some g →
      ∃ t : State, exec (.encPulse h) s = .next t ∧ (t.head h).pitchFraction = sum % 65536 ∧
        (t.head h).segment = some { g with unwound := min (g.unwound + sum / 65536) 4294967295 } ∧
        (t.head h).state = (if g.planned ≤ min (g.unwound + sum / 65536) 4294967295 then .cutting else (s.head h).state) ∧
        (g.planned ≤ min (g.unwound + sum / 65536) 4294967295 → (s.head h).state ≠ .cutting →
          t.flagged h .state = true ∧ (t.head h).cutRunHigh = (s.head h).runHigh ∧
            (t.head h).cutWait = (if (s.head h).runHigh then none else some 16)) ∧
        limits g.unwound t ∧ t.store = s.store) ∧
    ((s.head h).state = .held →
      ∃ t : State, exec (.encPulse h) s = .next t ∧ (t.head h).pitchFraction = sum % 65536 ∧
        (t.head h).unplanned = min ((s.head h).unplanned + sum / 65536) 4294967295 ∧ (t.head h).state = .held ∧
        limits (s.head h).unplanned t ∧ t.store = s.store)

/-- An advance of a rope on a CLOSER draws on the strand of each slot (R124, R130, R131): the take-up is the whole millimetres of the
accumulator and the carry times F, its rest stays in the accumulator and shows as the take-up fraction, and a draw that reaches the
made length spends the strand, empties the slot and, in a required slot, adds FEED_SHORT. In the rope's source list the open entries
of the slots whose strands are spent are closed at the made length after the advance, and the others stand (R19, R123). -/
def Obligations.EncPulseTakesUpFeed : Prop :=
  ∀ (h : HeadIx) (n : SlotIx) (s : State) (q r : Record) (f : RopeBody) (b : StrandBody), s.StoreOk → s.BindingsOk →
    (s.head h).state.running = true → (s.head h).kind = some .closer → s.productOf h = some q → q.body = .rope f →
    ((s.head h).slot n).strand = some r.tag →
    s.find r.tag = some r → r.body = .strand b →
    65536 ≤ (s.head h).pitchFraction + (s.head h).settings.pitch →
    q.made + ((s.head h).pitchFraction + (s.head h).settings.pitch) / 65536 ≤ 4294967295 →
    let carry := ((s.head h).pitchFraction + (s.head h).settings.pitch) / 65536
    let sum := ((s.head h).slot n).acc + carry * f.factor
    ∃ (t : State) (r' : Record) (b' : StrandBody), exec (.encPulse h) s = .next t ∧ t.find r.tag = some r' ∧
      r'.body = .strand b' ∧ b'.consumed = b.consumed + min (sum / 65536) (b.piece.made - b.consumed) ∧
      b'.fraction = sum % 65536 ∧
      (sum / 65536 < b.piece.made - b.consumed → r'.state = r.state ∧ ((t.head h).slot n).strand = some r.tag ∧
        ((t.head h).slot n).acc = sum % 65536) ∧
      (0 < sum / 65536 → b.piece.made - b.consumed ≤ sum / 65536 → r'.state = .spent ∧ r'.bound = none ∧
        ((t.head h).slot n).strand = none ∧ (((s.head h).slot n).required = true → (t.head h).holds.feedShort = true)) ∧
      ∃ q', t.find q.tag = some q' ∧ q'.body.sources = closedAt
        (fun m => s.runsOut h m ((((s.head h).slot m).acc + carry * f.factor) / 65536)) (q.made + carry) f.sources

/-- Faults carried from a feed into the rope (R126, R129, R131, R133): with the stretch drawn faulty or the strand run short, the rope
has FEEDn from the made length at which the advance began. It stays while the new top lies inside a span, or while a required slot is
empty, and is otherwise released; a span crossed whole leaves the advance marked FEED, and the rope's mark steps once. FEED_LOW comes
with the first consumption that leaves less than the threshold. That the strand of a required slot, spent exactly over a faulty stretch,
leaves FEEDn held from the start of the advance is the model's reading (log entry 12). -/
def Obligations.EncPulseCarriesFaults : Prop :=
  ∀ (h : HeadIx) (n : SlotIx) (s : State) (q r : Record) (f : RopeBody) (b : StrandBody), s.StoreOk → s.BindingsOk → s.RecordsOk →
    (s.head h).state.running = true → (s.head h).kind = some .closer → s.productOf h = some q → q.body = .rope f →
    ((s.head h).slot n).strand = some r.tag →
    s.find r.tag = some r → r.body = .strand b →
    65536 ≤ (s.head h).pitchFraction + (s.head h).settings.pitch →
    q.made + ((s.head h).pitchFraction + (s.head h).settings.pitch) / 65536 ≤ 4294967295 →
    let carry := ((s.head h).pitchFraction + (s.head h).settings.pitch) / 65536
    let drawn := (((s.head h).slot n).acc + carry * f.factor) / 65536
    let top := b.piece.made - b.consumed
    let bad := top < drawn ∨ meetsList (top - drawn) top b.piece.spans = true
    0 < drawn →
    ∃ (t : State) (q' : Record) (p' : Piece), exec (.encPulse h) s = .next t ∧ t.find q.tag = some q' ∧ q'.body.piece = some p' ∧
      (drawn < top → (∃ x ∈ b.piece.spans, x.lo < top - drawn ∧ top - drawn ≤ x.hi) →
        ((t.head h).slot n).spanHolding = true ∧ (bad → p'.HeldFrom (.feed n) q.made)) ∧
      (drawn < top → (∀ x ∈ b.piece.spans, top - drawn ≤ x.lo ∨ x.hi < top - drawn) →
        ((t.head h).slot n).spanHolding = false ∧ t.hasHolder q.tag (.feed n) = false ∧
          (bad → p'.Marks q.made (q.made + carry) (KindSet.only .feed) ∧ q'.mark = q.mark + 1)) ∧
      (top ≤ drawn → ((s.head h).slot n).required = true →
        t.hasHolder q.tag (.feed n) = true ∧ (bad → p'.HeldFrom (.feed n) q.made)) ∧
      (top ≤ drawn → ((s.head h).slot n).required = false → t.hasHolder q.tag (.feed n) = false) ∧
      (top - drawn < (s.head h).settings.feedLow * 1000 → ((s.head h).slot n).lowNoted = false →
        t.flagged h .alarm = true ∧ (t.attn.causesOf h).feedLow = true)

/-! ## The lay governor -/

/-- A SPIN pulse on a STRANDER or CLOSER in RUN or CUTTING: without a window it opens one that latches the settings and the target lay,
with the spindle count at 0 (R101, R102); within one it is counted, and the pulse that would bring the count to S × W ends the window
(R103). At the end the last measured lay, and with a target lay the last deviation, the trim code, TRIM_LIMIT and the LAY holder follow
from the four stages (R107 to R113); the count stands (log entry 33). Elsewhere a SPIN pulse changes nothing (R57). -/
def Obligations.SpinPulseResult : Prop :=
  (∀ (h : HeadIx) (s : State), s.StoreOk →
    ((s.head h).laysLength = true → (s.head h).state = .run ∨ (s.head h).state = .cutting →
      ∀ r, s.productOf h = some r →
        ((s.head h).window = none → exec (.spinPulse h) s = .next (s.updHead h fun x =>
          { x with
            window := some ⟨r.made * 65536 + x.pitchFraction, x.settings.spindle, x.settings.turns, x.settings.gain,
              x.settings.tolerance, r.targetLay⟩
            spinCount := 0 })) ∧
        (∀ w, (s.head h).window = some w → (s.head h).spinCount + 1 < w.spindle * w.turns → exec (.spinPulse h) s =
          .next (s.updHead h fun x => { x with spinCount := x.spinCount + 1 }))) ∧
    ((s.head h).laysLength = false ∨ ((s.head h).state ≠ .run ∧ (s.head h).state ≠ .cutting) →
      exec (.spinPulse h) s = .next s)) ∧
  ∀ (h : HeadIx) (s : State) (r : Record) (w : LayWindow), s.StoreOk → (s.head h).laysLength = true →
    (s.head h).state = .run ∨ (s.head h).state = .cutting → s.productOf h = some r → (s.head h).window = some w →
    w.spindle * w.turns ≤ (s.head h).spinCount + 1 →
    ∃ t : State, exec (.spinPulse h) s = .next t ∧
      let lay := measuredLay (r.made * 65536 + (s.head h).pitchFraction - w.start) w.turns
      (t.head h).window = none ∧ (t.head h).spinCount = (s.head h).spinCount ∧ (t.head h).lastLay = some lay ∧
        (w.target = none → (t.head h).lastDeviation = none ∧ (t.head h).trim = (s.head h).trim ∧ t.store = s.store) ∧
        ∀ target, w.target = some target →
          let d := deviation lay target
          let step := trimStep d w.gain
          (t.head h).lastDeviation = some d ∧
            (t.head h).trim =
              trimCode (s.head h).settings.trimMin (s.head h).settings.trimMax (s.head h).trim step ∧
            (trimClamped (s.head h).settings.trimMin (s.head h).settings.trimMax (s.head h).trim step = true →
              w.tolerance < d.natAbs → t.flagged h .alarm = true ∧ (t.attn.causesOf h).trimLimit = true) ∧
            (d.natAbs ≤ w.tolerance → t.hasHolder r.tag .lay = false) ∧
            (w.tolerance < d.natAbs → r.state = .making → r.kind ≠ .panel → r.body.piece.isSome = true →
              ∃ (r' : Record) (p : Piece), t.find r.tag = some r' ∧ r'.body.piece = some p ∧
                (s.RecordsOk → p.HeldFrom .lay (w.start / 65536)))

/-- The lay arithmetic. Stages 1 and 2 (R107, R108): the measured lay is Q ÷ (W × 4096) rounded half up and clamped, with the two
thresholds the rule names; the deviation is the quotient rounded half away from zero and clamped, so that it is 999 or −999 exactly
where the rounded quotient reaches 999, and has the sign of the error. Stages
3 and 4 (R109, R110): the step is d × G ÷ 16 rounded half away from zero; it has the sign of d or is 0, a gain of 0 gives 0, and it lies
from −15 922 to 15 922. The new trim code is the candidate, the code less the step, clamped into the trim limits; a step of 0 leaves a
code within the limits without a clamp, and a code at a limit moved inward is not clamped. At the end of a window the last measured lay,
the last deviation and the trim code of the head are these values, of the length counted and of the latched settings and target lay;
without a latched target lay the last deviation is absent and the trim code stands. -/
def Obligations.LayArithmetic : Prop :=
  ((∀ q turns : Nat, 0 < turns →
    (measuredLay q turns ≤ 65535) ∧
    (measuredLay q turns < 65535 → 2 * (turns * 4096) * measuredLay q turns ≤ 2 * q + turns * 4096 ∧
      2 * q + turns * 4096 < 2 * (turns * 4096) * (measuredLay q turns + 1)) ∧
    (q < 2048 * turns → measuredLay q turns = 0) ∧ (268429312 * turns ≤ q ↔ measuredLay q turns = 65535)) ∧
  ∀ lay target : Nat, 0 < target →
    (-999 ≤ deviation lay target ∧ deviation lay target ≤ 999) ∧ (deviation lay target < 0 → lay < target) ∧
      (0 < deviation lay target → target < lay) ∧ (lay = target → deviation lay target = 0) ∧
      ((deviation lay target).natAbs < 999 →
        2 * 1000 * ((lay : Int) - target).natAbs < (2 * (deviation lay target).natAbs + 1) * target ∧
          2 * (deviation lay target).natAbs * target ≤ 2 * 1000 * ((lay : Int) - target).natAbs + target) ∧
      (deviation lay target).natAbs = min 999 ((2000 * ((lay : Int) - target).natAbs + target) / (2 * target)) ∧
      ((deviation lay target).natAbs = 999 ↔ 1997 * target ≤ 2000 * ((lay : Int) - target).natAbs) ∧
      deviation 0 target = -999 ∧ deviation 65535 16 = 999) ∧
  (∀ (d : Int) (gain : Nat),
    (2 * (trimStep d gain).natAbs * 16 ≤ 2 * (d.natAbs * gain) + 16 ∧
      2 * (d.natAbs * gain) < 2 * (trimStep d gain).natAbs * 16 + 16) ∧
    (0 < trimStep d gain → 0 < d) ∧ (trimStep d gain < 0 → d < 0) ∧ trimStep d 0 = 0 ∧
    (-999 ≤ d → d ≤ 999 → gain ≤ 255 → -15922 ≤ trimStep d gain ∧ trimStep d gain ≤ 15922) ∧ trimStep 999 255 = 15922) ∧
  (∀ (lo hi code : Nat) (step : Int), lo ≤ hi →
    ((lo : Int) ≤ code - step → (code : Int) - step ≤ hi →
      (trimCode lo hi code step : Int) = code - step ∧ trimClamped lo hi code step = false) ∧
    ((code : Int) - step < lo → trimCode lo hi code step = lo ∧ trimClamped lo hi code step = true) ∧
    ((hi : Int) < code - step → trimCode lo hi code step = hi ∧ trimClamped lo hi code step = true) ∧
    (lo ≤ code → code ≤ hi → trimCode lo hi code 0 = code ∧ trimClamped lo hi code 0 = false) ∧
    (lo ≤ code → code ≤ hi → 0 ≤ step → trimCode lo hi code step ≤ code) ∧
    (lo ≤ code → code ≤ hi → step ≤ 0 → code ≤ trimCode lo hi code step)) ∧
  ∀ (h : HeadIx) (s : State) (r : Record) (w : LayWindow), s.StoreOk → (s.head h).laysLength = true →
    (s.head h).state = .run ∨ (s.head h).state = .cutting → s.productOf h = some r → (s.head h).window = some w →
    w.spindle * w.turns ≤ (s.head h).spinCount + 1 →
    ∃ t : State, exec (.spinPulse h) s = .next t ∧
      let lay := measuredLay (r.made * 65536 + (s.head h).pitchFraction - w.start) w.turns
      (t.head h).lastLay = some lay ∧ (t.head h).lastDeviation = w.target.map (deviation lay) ∧
        (w.target = none → (t.head h).trim = (s.head h).trim) ∧
        ∀ target, w.target = some target → (t.head h).trim = trimCode (s.head h).settings.trimMin (s.head h).settings.trimMax
          (s.head h).trim (trimStep (deviation lay target) w.gain)

/-! ## RUN, FLAW and cuts -/

/-- The edges of RUN (R60, R61, R104, R130). A rise: READY and STOPPED enter RUN, or HELD with FEED_SHORT when a required slot is
empty; from READY a product already at its end point enters CUTTING, and FLAW found high is taken as rising there and then (R57, R94,
R98, R142). A fall: RUN enters STOPPED and abandons a lay window. In every other state, EMPTY among them (the model's reading, log
entry 8), but for a cut entered with RUN high, an edge records the level alone. -/
def Obligations.RunEdges : Prop :=
  (∀ (h : HeadIx) (s : State), s.StoreOk →
    ((s.head h).state = .ready → (s.head h).flawHigh = false → (s.head h).feedMissing = false →
      (∀ r, s.productOf h = some r → r.atEnd = false) →
      exec (.runRise h) s = .next (s.updHead h fun x => { x with runHigh := true, state := .run })) ∧
    ((s.head h).state = .stopped → (s.head h).feedMissing = false →
      exec (.runRise h) s = .next (s.updHead h fun x => { x with runHigh := true, state := .run })) ∧
    ((s.head h).state ≠ .ready → (s.head h).state ≠ .stopped →
      exec (.runRise h) s = .next (s.updHead h fun x => { x with runHigh := true })) ∧
    ((s.head h).state = .ready ∨ (s.head h).state = .stopped → (s.head h).feedMissing = true →
      (s.head h).holds.feedShort = false →
      ((s.head h).state = .ready → ∀ r, s.productOf h = some r → r.atEnd = false) →
      ∃ t : State, exec (.runRise h) s = .next t ∧ (t.head h).state = .held ∧ (t.head h).runHigh = true ∧
        (t.head h).holds = { (s.head h).holds with feedShort := true } ∧ t.flagged h .state = true) ∧
    ((s.head h).state = .ready → ∀ r, s.productOf h = some r → r.atEnd = true →
      ∃ t : State, exec (.runRise h) s = .next t ∧ (t.head h).state = .cutting ∧ (t.head h).cutRunHigh = true ∧
        (t.head h).cutWait = none ∧
        (t.head h).holds.feedShort = ((s.head h).holds.feedShort || (s.head h).feedMissing) ∧ t.flagged h .state = true) ∧
    ((s.head h).state = .run →
      exec (.runFall h) s = .next (s.updHead h fun x => { x with runHigh := false, state := .stopped, window := none })) ∧
    ((s.head h).state ≠ .run → (s.head h).state ≠ .cutting ∨ (s.head h).cutRunHigh = false →
      exec (.runFall h) s = .next (s.updHead h fun x => { x with runHigh := false }))) ∧
  ∀ (h : HeadIx) (s : State), s.StoreOk → (s.head h).state = .ready → (s.head h).flawHigh = true →
    ((s.head h).kind = some .coiler → (s.head h).feedMissing = false → s.productOf h = none →
      exec (.runRise h) s = .next (s.updHead h fun x =>
        { x with runHigh := true, state := .run, flawRise := some (s.unwindPosition h) })) ∧
    ((s.head h).kind = some .loom → ∀ r, s.productOf h = some r →
      ∃ t : State, exec (.runRise h) s = .next t ∧ (t.head h).runHigh = true ∧
        (t.head h).state = (if r.atEnd then .cutting
          else if (s.head h).feedMissing && !(s.head h).holds.feedShort then .held else .run) ∧
        (t.head h).row = (s.head h).row.map fun w => { w with flawSeen := true }) ∧
    ((s.head h).laysLength = true → ∀ r, s.productOf h = some r → r.state = .making → r.kind ≠ .panel →
      r.body.piece.isSome = true → s.hasHolder r.tag .flaw = false →
      ∃ (t : State) (r' : Record) (p : Piece), exec (.runRise h) s = .next t ∧ (t.head h).runHigh = true ∧
        (t.head h).state = (if r.atEnd then .cutting
          else if (s.head h).feedMissing && !(s.head h).holds.feedShort then .held else .run) ∧
        t.find r.tag = some r' ∧ r'.body.piece = some p ∧ p.made = r.made ∧
        (s.RecordsOk → p.HeldFrom .flaw (r.made - (s.head h).settings.guardMargin)))

/-- A cut completes on a maker (R18, R63, R64): at the fall of RUN when RUN was high at the entry, otherwise at the end of the wait.
The head is DONE with STATE raised and MARK as it stood (R58), and the product is MADE, bound to no head and closed along its length.
Every strand in a slot returns to MADE, bound to no head, but for one that the close of an open row spends, the open source entries are
closed at the made amount of that change, and the release positions are gone (R93, R119, R123, R146). A wait that has not ended changes
nothing (log entry 3). -/
def Obligations.CutCompletesProduct : Prop :=
  (∀ (h : HeadIx) (s : State), s.StoreOk → (s.head h).state ≠ .cutting ∨ (s.head h).cutWait ≠ some 0 →
    exec (.cutWaitExpiry h) s = .next s) ∧
  ∀ (h : HeadIx) (s : State) (k : MachineKind) (r : Record) (c : Instr), s.StoreOk → s.RecordsOk →
    (s.head h).state = .cutting → (s.head h).kind = some k → k ≠ .coiler → s.productOf h = some r → r.state = .making →
    (c = .cutWaitExpiry h ∧ (s.head h).cutWait = some 0) ∨ (c = .runFall h ∧ (s.head h).cutRunHigh = true) →
    ∃ (t : State) (r' : Record), exec c s = .next t ∧ (t.head h).state = .done ∧ (t.head h).product = none ∧ (t.head h).holds = {} ∧
      (t.head h).window = none ∧ (t.head h).markHigh = (s.head h).markHigh ∧ (∀ n, ((t.head h).slot n).strand = none) ∧
      t.flagged h .state = true ∧ t.find r.tag = some r' ∧ r'.state = .made ∧ r'.bound = none ∧ r'.mark = r.mark + 1 ∧
      r'.changed = s.clock.seconds ∧ (∀ p, r'.body.piece = some p → p.Closed) ∧ (t.head h).guardRelease = none ∧
      (t.head h).joinRelease = none ∧ (s.BindingsOk → s.EndsMaking h r r' t)

/-- A cut completes on a coiler (R63, R64, R155, R157, R159, R160). A COIL segment: the coil is WOUND over the top of the rope, at most down to 0, stays
short as planned, is SECOND with COIL_DOWNGRADED where its range meets a span, of the list as it was or as FLAW leaves it at the end of the
rope (R100, R162), and steps its mark; the rope's packed length rises by the actual length; the linked entry's count falls when the coil
meets it. A WASTE segment: the waste length rises. COIL is raised, and the plan point that follows moves the unplanned length to waste
(R154) and leaves what `State.Plans` says of a coiler without a segment, with the queue as the completion left it and the level of RUN
as it then stands. -/
def Obligations.CutCompletesCoil : Prop :=
  ∀ (h : HeadIx) (s : State) (r : Record) (b : RopeBody) (g : Segment) (i : Instr),
    s.StoreOk → s.CoilTagsOk → (s.head h).state = .cutting → (s.head h).kind = some .coiler → s.sourceOf h = some (r, b) →
    (s.head h).segment = some g →
    (i = .cutWaitExpiry h ∧ (s.head h).cutWait = some 0) ∨ (i = .runFall h ∧ (s.head h).cutRunHigh = true) →
    let e := b.currentEnd
    let actual := min g.unwound e
    let left := min (s.head h).unplanned (e - actual)
    let found := fun t : State =>
      { s.head h with queue := (t.head h).queue, segment := none, runHigh := (s.head h).runHigh && decide (i ≠ .runFall h) }
    (∀ (tag : Nat) (x : Record) (c : CoilBody), g.coil = some tag → s.find tag = some x → x.body = .coil c → x.state = .winding →
      let grade : Grade := if meetsList (e - actual) e b.piece.spans = true then .second else c.grade
      ∃ (t : State) (x' r' : Record) (c' : CoilBody) (b' : RopeBody), exec i s = .next t ∧ t.find tag = some x' ∧ x'.state = .wound ∧
        x'.bound = none ∧ x'.mark = x.mark + 1 ∧ x'.body = .coil c' ∧ c'.lo = e - actual ∧ c'.hi = e ∧ c'.planned = c.planned ∧
        c'.short = c.short ∧ ((s.head h).flawHigh = false ∨ (s.head h).flawRise = none → c'.grade = grade) ∧
        (c'.grade = .second ↔ grade = .second ∨ (b'.piece.spans ≠ b.piece.spans ∧ c.belongs = true ∧ c.sourceRope = r.tag ∧
          meetsList (e - actual) e b'.piece.spans = true)) ∧
        (c.grade ≠ c'.grade → c.origin = h → t.flagged h .alarm = true ∧ (t.attn.causesOf h).coilDowngraded = true) ∧
        (c.grade ≠ grade → t.flagged h .alarm = true ∧ (t.attn.causesOf h).coilDowngraded = true) ∧
        t.flagged h .coil = true ∧ t.find r.tag = some r' ∧ r'.body = .rope b' ∧ b'.piece.made = b.piece.made ∧
        b'.packed = b.packed + actual ∧ b'.waste = b.waste + left ∧ (t.head h).cutWait = none ∧
        (s.BindingsOk → s.Plans h r { b with packed := b.packed + actual, waste := b.waste + left } (found t) (r.mark + 1) t) ∧
        ((s.head h).queue = [] → (t.head h).queue = []) ∧
        (∀ o rest, (s.head h).queue = o :: rest → (t.head h).queue =
          if g.link = true ∧ c.short = false ∧ o.length ≤ actual ∧ (o.rule = .secondOk ∨ grade = .first) then
            if 1 < o.count then { o with count := o.count - 1 } :: rest else rest
          else o :: rest)) ∧
    (g.coil = none →
      ∃ (t : State) (r' : Record) (b' : RopeBody), exec i s = .next t ∧ t.flagged h .coil = true ∧ t.find r.tag = some r' ∧
        r'.body = .rope b' ∧ b'.piece.made = b.piece.made ∧ b'.packed = b.packed ∧ b'.waste = b.waste + actual + left ∧
        (t.head h).queue = (s.head h).queue ∧ (t.head h).cutWait = none ∧
        (s.BindingsOk → s.Plans h r { b with waste := b.waste + actual + left } (found t) (r.mark + 1) t))

/-- A coiler in a running state gives up its rope by RELEASE or disconnect (R72, R75, R161). FLAW high first adds its span to the
rope, the coils it reaches are downgraded, the segment's own among them, and a BANDED coil reached raises BANDED_FLAW (R100, R162, R163).
Then the coil of the segment is WOUND short over what was wound, SECOND with COIL_DOWNGRADED where that meets a span; a WASTE segment, or
an unplanned length, goes to the rope's waste length; the rope is SPENT with nothing left and MADE otherwise; COIL is raised for each. -/
def Obligations.CoilerGivesUpRope : Prop :=
  ∀ (h : HeadIx) (s : State) (r : Record) (b : RopeBody) (i : Instr), s.StoreOk → s.BindingsOk → (s.head h).kind = some .coiler →
    (s.head h).state.running = true → s.sourceOf h = some (r, b) →
    (i = .senseSettled h ∧ (s.head h).settle = 64 ∧ senseResult (s.head h).candidate ≠ (s.head h).accepted) ∨
      (∃ p body, i = .release p h.val ∧ s.Asks p i body ∧ s.mayRelease p h.val = true) →
    let e := b.currentEnd
    let actual := match (s.head h).segment with
      | some g => min g.unwound e
      | none => min (s.head h).unplanned e
    ∃ (t : State) (r' : Record) (b' : RopeBody), exec i s = .next t ∧ (t.head h).segment = none ∧ (t.head h).unplanned = 0 ∧
      (t.head h).flawRise = none ∧ (t.head h).source = none ∧ t.find r.tag = some r' ∧ r'.body = .rope b' ∧ r'.bound = none ∧
      r'.mark = r.mark + 1 ∧ r'.state = (if e = actual then .spent else .made) ∧ b'.piece.made = b.piece.made ∧
      s.FlawLeaves h (s.head h) r b (s.unwindPosition h) b'.piece.spans t ∧ (e = actual → t.flagged h .coil = true) ∧
      (∀ g tag x c, (s.head h).segment = some g → g.coil = some tag → s.find tag = some x → x.body = .coil c →
        t.flagged h .coil = true ∧ b'.packed = b.packed + actual ∧ b'.waste = b.waste ∧
        ∃ (x' : Record) (c' : CoilBody), t.find tag = some x' ∧ x'.state = .wound ∧ x'.bound = none ∧ x'.mark = x.mark + 1 ∧
          x'.body = .coil c' ∧ c'.lo = e - actual ∧ c'.hi = e ∧ c'.planned = c.planned ∧ c'.short = true ∧
          (c'.grade = .second ↔ c.grade = .second ∨ meetsList (e - actual) e b'.piece.spans = true ∨
            (b'.piece.spans ≠ b.piece.spans ∧ c.belongs = true ∧ c.sourceRope = r.tag ∧
              meetsList (s.judgedRange x c).1 (s.judgedRange x c).2 b'.piece.spans = true)) ∧
          (c.grade ≠ c'.grade → c.origin = h → t.flagged h .alarm = true ∧ (t.attn.causesOf h).coilDowngraded = true)) ∧
      (∀ g, (s.head h).segment = some g → g.coil = none →
        t.flagged h .coil = true ∧ b'.packed = b.packed ∧ b'.waste = b.waste + actual) ∧
      ((s.head h).segment = none → b'.packed = b.packed ∧ b'.waste = b.waste + actual ∧
        (0 < (s.head h).unplanned → t.flagged h .coil = true))

/-- A rise of FLAW (R57, R94, R98, R142): on a STRANDER or CLOSER a FLAW holder reaching back by the guard margin, which takes the place
of GUARD and drops its release position, and nothing where FLAW is held already; on a COILER the rise position; on a LOOM the open row
has seen a flaw. Outside the running states, EMPTY among them (the model's reading, log entry 8),
the level alone is recorded. -/
def Obligations.FlawRiseResult : Prop :=
  ∀ (h : HeadIx) (s : State), s.StoreOk →
    ((s.head h).state.running = false →
      exec (.flawRise h) s = .next (s.updHead h fun x => { x with flawHigh := true })) ∧
    ((s.head h).state.running = true → (s.head h).kind = some .coiler → exec (.flawRise h) s =
      .next (s.updHead h fun x => { x with flawHigh := true, flawRise := some (s.unwindPosition h) })) ∧
    ((s.head h).state.running = true → (s.head h).kind = some .loom → exec (.flawRise h) s =
      .next (s.updHead h fun x =>
        { x with flawHigh := true, row := x.row.map fun w => { w with flawSeen := true } })) ∧
    ((s.head h).state.running = true → (s.head h).laysLength = true → ∀ r, s.productOf h = some r → r.state = .making →
      r.kind ≠ .panel → r.body.piece.isSome = true → s.hasHolder r.tag .flaw = false →
      ∃ (t : State) (r' : Record) (p : Piece), exec (.flawRise h) s = .next t ∧ (t.head h).flawHigh = true ∧ t.find r.tag = some r' ∧
        r'.body.piece = some p ∧ p.made = r.made ∧ (s.RecordsOk → p.HeldFrom .flaw (r.made - (s.head h).settings.guardMargin)) ∧
        (s.hasHolder r.tag .guard = true → (t.head h).guardRelease = none ∧ (s.RecordsOk → t.hasHolder r.tag .guard = false)) ∧
        (s.hasHolder r.tag .guard = false → (t.head h).guardRelease = (s.head h).guardRelease)) ∧
    ((s.head h).state.running = true → (s.head h).laysLength = true → ∀ r, s.productOf h = some r → s.hasHolder r.tag .flaw = true →
      exec (.flawRise h) s = .next (s.updHead h fun x => { x with flawHigh := true }))

/-- A fall of FLAW (R57, R95, R98, R99, R163): on a STRANDER or CLOSER the FLAW holder gives place to GUARD until the guard margin
has been made, or is released with a margin of 0; on a COILER the flaw span is normalized into the rope's list, the coils it reaches
are downgraded (R30, R162), and a BANDED coil reached raises BANDED_FLAW. Elsewhere, EMPTY among the states (the model's reading, log
entry 8), the level alone is recorded. -/
def Obligations.FlawFallResult : Prop :=
  ∀ (h : HeadIx) (s : State), s.StoreOk →
    ((s.head h).state.running = false ∨ (s.head h).kind = some .loom ∨ (s.head h).kind = none →
      exec (.flawFall h) s = .next (s.updHead h fun x => { x with flawHigh := false })) ∧
    ((s.head h).state.running = true → (s.head h).laysLength = true → ∀ r, s.productOf h = some r →
      s.hasHolder r.tag .flaw = true →
      ∃ t : State, exec (.flawFall h) s = .next t ∧ (t.head h).flawHigh = false ∧ t.hasHolder r.tag .flaw = false ∧
        (0 < (s.head h).settings.guardMargin → t.hasHolder r.tag .guard = true ∧
          (t.head h).guardRelease = some (r.made + (s.head h).settings.guardMargin))) ∧
    ((s.head h).state.running = true → (s.head h).kind = some .coiler → ∀ r b pr, s.sourceOf h = some (r, b) →
      (s.head h).flawRise = some pr → 0 < b.piece.made →
      let p := s.unwindPosition h
      let g := (s.head h).settings.guardMargin
      let lo := if p - g < min b.piece.made (pr + g) then p - g else if p = b.piece.made then p - 1 else p
      let hi := if p - g < min b.piece.made (pr + g) then min b.piece.made (pr + g)
        else if p = b.piece.made then p else p + 1
      ∃ t : State, exec (.flawFall h) s = .next t ∧ (t.head h).flawHigh = false ∧ (t.head h).flawRise = none ∧
        t.spansOf r.tag = (normalize ⟨lo, hi, KindSet.only .flaw, false, {}⟩ b.piece.spans).1 ∧
        s.Downgrades r.tag (t.spansOf r.tag) t ∧
        (s.reachesBanded r.tag ⟨lo, hi, KindSet.only .flaw, false, {}⟩ = true →
          t.flagged h .alarm = true ∧ (t.attn.causesOf h).bandedFlaw = true))

/-! ## The knot monitor -/

/-- A KNOT pulse (R57, R137, R138): in an open row it counts, and the last knot closes the row, counts it and starts the excess
watch; without a row it is a stray knot, and an excess one while the watch runs. Elsewhere it changes nothing. -/
def Obligations.KnotPulseResult : Prop :=
  ∀ (h : HeadIx) (s : State), s.StoreOk →
    ((s.head h).kind ≠ some .loom ∨ (s.head h).state.running = false → exec (.knotPulse h) s = .next s) ∧
    ((s.head h).kind = some .loom → (s.head h).state.running = true →
      ((s.head h).row = none → (s.head h).excessWatch = 0 →
        exec (.knotPulse h) s = .next (s.raiseAlarm h .knotStray)) ∧
      ((s.head h).row = none → 0 < (s.head h).excessWatch →
        exec (.knotPulse h) s = .next ((s.raiseAlarm h .knotStray).raiseAlarm h .knotExcess)) ∧
      ∀ w, (s.head h).row = some w →
        (w.count + 1 < w.knots →
          exec (.knotPulse h) s = .next (s.updHead h fun x => { x with row := some { w with count := w.count + 1 } })) ∧
        (w.knots ≤ w.count + 1 → ∀ r, s.productOf h = some r → r.kind = .panel →
          ∃ t : State, exec (.knotPulse h) s = .next t ∧ (t.head h).row = none ∧ (t.head h).excessWatch = w.expiry ∧
            t.madeOf r.tag = some (if r.made < 65535 then r.made + 1 else r.made)))

/-- A ROW pulse on a LOOM in a running state (R57, R135, R136): it opens a row that latches the panel's knots, bar and allowance and
the knot window, and ends the excess watch; a row still open is closed and counted first. Elsewhere it changes nothing. -/
def Obligations.RowPulseResult : Prop :=
  ∀ (h : HeadIx) (s : State), s.StoreOk →
    ((s.head h).kind ≠ some .loom ∨ (s.head h).state.running = false → exec (.rowPulse h) s = .next s) ∧
    ((s.head h).kind = some .loom → (s.head h).state.running = true → ∀ r b, s.productOf h = some r → r.body = .panel b →
      ((s.head h).row = none → exec (.rowPulse h) s = .next (s.updHead h fun x =>
        { x with
          row := some ⟨b.piece.made, 0, x.settings.knotWindow, x.flawHigh, b.knots, b.bar, b.allowance⟩
          excessWatch := 0 })) ∧
      ∀ w, (s.head h).row = some w →
        ∃ t : State, exec (.rowPulse h) s = .next t ∧
          t.madeOf r.tag = some (if b.piece.made < 65535 then b.piece.made + 1 else b.piece.made) ∧
          (t.head h).row = some ⟨if b.piece.made < 65535 then b.piece.made + 1 else b.piece.made, 0,
            (s.head h).settings.knotWindow, (s.head h).flawHigh, b.knots, b.bar, b.allowance⟩)

/-- ROW_EXPIRY closes the row whose expiry count has come to 0 (R139, R141, R143, R144): the row is counted, its missed knots are
added with KNOT_SHORT, and a row with missed knots or a flaw is marked in the span list. Without such a row it changes nothing (log
entry 3). EXCESS_WATCH_END leaves the excess watch at 0 (R138; log entry 6). The place of a row's
span at the top of the made rows is the model's reading (log entry 22). -/
def Obligations.RowExpiryResult : Prop :=
  (∀ (h : HeadIx) (s : State), exec (.excessWatchEnd h) s = .next (s.updHead h fun x => { x with excessWatch := 0 })) ∧
  ∀ (h : HeadIx) (s : State), s.StoreOk →
    ((s.head h).row = none → exec (.rowExpiry h) s = .next s) ∧
    ∀ w, (s.head h).row = some w →
      (0 < w.expiry → exec (.rowExpiry h) s = .next s) ∧
      (w.expiry = 0 → ∀ r b, s.productOf h = some r → r.body = .panel b →
        ∃ (t : State) (r' : Record) (b' : PanelBody), exec (.rowExpiry h) s = .next t ∧ (t.head h).row = none ∧
          t.find r.tag = some r' ∧ r'.body = .panel b' ∧
          b'.piece.made = (if b.piece.made < 65535 then b.piece.made + 1 else b.piece.made) ∧
          b'.missed = (if w.count < w.knots then min (b.missed + (w.knots - w.count)) 4294967295 else b.missed) ∧
          (w.count < w.knots → t.flagged h .alarm = true ∧ (t.attn.causesOf h).knotShort = true) ∧
          (w.count < w.knots ∨ w.flawSeen = true → ∃ x ∈ b'.piece.spans, x.lo + 1 ≤ b'.piece.made ∧
            b'.piece.made ≤ x.hi ∧ (w.count < w.knots → x.kinds.knot = true) ∧ (w.flawSeen = true → x.kinds.flaw = true)))

/-- The close of a row, by its last knot, by a ROW pulse or by its expiry, and by the end of the head's binding: a cut completion, a
RELEASE or a disconnect (R125, R128, R131, R133, R140, R141, R143, R144, R145, R146). The row is settled as `State.SettlesRow` says; the
place of its span at the top of the made rows is the model's reading (log entry 22). Slots 0 and 1 are charged the counted knots times
the bar and the allowance; a strand charged to its end is SPENT and leaves the slot empty, with FEED_SHORT in a required one and its
open source entry closed at the made rows after the row (R19, R123); FEED_LOW comes with the first charge that leaves less than the
threshold. A panel at its target rows takes the head to CUTTING. At the end of a binding the panel then leaves MAKING, with every open
source entry closed at those made rows and every strand that is not spent MADE; no row is open and no excess watch runs. That such a
close raises STATE for the state it takes the head to on the way is the model's reading (log entry 14). -/
def Obligations.RowCloseResult : Prop :=
  (∀ (h : HeadIx) (s : State) (r : Record) (b : PanelBody) (w : RowWindow) (i : Instr) (count : Nat), s.StoreOk → s.BindingsOk →
    (s.head h).kind = some .loom → (s.head h).state.running = true → s.productOf h = some r → r.body = .panel b →
    (s.head h).row = some w →
    (i = .rowPulse h ∧ count = w.count) ∨ (i = .rowExpiry h ∧ w.expiry = 0 ∧ count = w.count) ∨
      (i = .knotPulse h ∧ w.knots ≤ w.count + 1 ∧ count = w.count + 1) →
    let charge := count * (w.bar + w.allowance)
    ∃ (t : State) (r' : Record) (b' : PanelBody), exec i s = .next t ∧ t.find r.tag = some r' ∧ r'.body = .panel b' ∧
      s.SettlesRow h w count b b' t ∧
      b'.sources = closedAt (fun n => s.runsOut h n charge) b'.piece.made b.sources ∧
      (∀ (n : SlotIx) x y, n.val < 2 → ((s.head h).slot n).strand = some x.tag → s.find x.tag = some x → x.body = .strand y →
        let top := y.piece.made - y.consumed
        (charge = 0 → t.find x.tag = some x ∧ ((t.head h).slot n).strand = some x.tag) ∧
        (0 < charge → ∃ x' y', t.find x.tag = some x' ∧ x'.body = .strand y' ∧ y'.consumed = y.consumed + min charge top ∧
          (charge < top → x'.state = x.state ∧ ((t.head h).slot n).strand = some x.tag) ∧
          (top ≤ charge → x'.state = .spent ∧ x'.bound = none ∧ ((t.head h).slot n).strand = none ∧
            (((s.head h).slot n).required = true → (t.head h).holds.feedShort = true)) ∧
          (top - charge < (s.head h).settings.feedLow * 1000 → ((s.head h).slot n).lowNoted = false →
            t.flagged h .alarm = true ∧ (t.attn.causesOf h).feedLow = true))) ∧
      (∀ k, b.targetRows = some k → k ≤ b'.piece.made → (t.head h).state = .cutting ∧
        ((s.head h).state ≠ .cutting → t.flagged h .state = true)) ∧
      ((∀ k, b.targetRows = some k → b'.piece.made < k) → (t.head h).holds = (s.head h).holds →
        (t.head h).state = (s.head h).state)) ∧
  ∀ (h : HeadIx) (s : State) (r : Record) (b : PanelBody) (w : RowWindow) (i : Instr) (st : RecordState), s.StoreOk →
    s.BindingsOk → s.RecordsOk →
    (s.head h).kind = some .loom → (s.head h).state.running = true → s.productOf h = some r → r.body = .panel b →
    (s.head h).row = some w →
    (i = .cutWaitExpiry h ∧ (s.head h).state = .cutting ∧ (s.head h).cutWait = some 0 ∧ st = .made) ∨
      (i = .runFall h ∧ (s.head h).state = .cutting ∧ (s.head h).cutRunHigh = true ∧ st = .made) ∨
      (∃ p body, i = .release p h.val ∧ s.Asks p i body ∧ s.mayRelease p h.val = true ∧ st = .made) ∨
      (i = .senseSettled h ∧ (s.head h).settle = 64 ∧ senseResult (s.head h).candidate ≠ (s.head h).accepted ∧ st = .interrupted) →
    let charge := w.count * (w.bar + w.allowance)
    ∃ (t : State) (r' : Record) (b' : PanelBody), exec i s = .next t ∧ t.find r.tag = some r' ∧ r'.body = .panel b' ∧
      r'.state = st ∧ s.EndsMaking h r r' t ∧ s.SettlesRow h w w.count b b' t ∧
      (t.head h).row = none ∧ (t.head h).excessWatch = 0 ∧
      (∀ (n : SlotIx) x y, n.val < 2 → ((s.head h).slot n).strand = some x.tag → s.find x.tag = some x → x.body = .strand y →
        let top := y.piece.made - y.consumed
        (∃ x', t.find x.tag = some x' ∧ x'.state = (if 0 < charge ∧ top ≤ charge then .spent else .made) ∧
          x'.mark = x.mark + 1 ∧ x'.body = .strand { y with consumed := y.consumed + min charge top }) ∧
        (0 < charge → top - charge < (s.head h).settings.feedLow * 1000 → ((s.head h).slot n).lowNoted = false →
          t.flagged h .alarm = true ∧ (t.attn.causesOf h).feedLow = true) ∧
        (s.runsOut h n charge = true → ((s.head h).slot n).required = true → (s.head h).holds.feedShort = false →
          (s.head h).state = .run ∨ (s.head h).state = .stopped → t.flagged h .state = true)) ∧
      (∀ k, b.targetRows = some k → k ≤ b'.piece.made → (s.head h).state ≠ .cutting → t.flagged h .state = true)

/-! ## Requests that read -/

/-- LOOKUP (R38): the record summary of a live record, of whatever kind and state, at either port; NOT_FOUND for a tag that is not
live, tag 0 among them. NEXT (R6, R39): of the live records above the given tag that pass the filters, the one of the smallest tag;
NOT_FOUND when none passes, BAD_FIELD when a filter names no value. The summary's bits without a meaning are the model's zeros (log
entry 34). -/
def Obligations.LookupAndNextAnswer : Prop :=
  (∀ (p : Port) (tag : Nat) (s : State) (body : List Byte), s.Asks p (.lookup p tag) body →
    (∀ r, s.find tag = some r →
      exec (.lookup p tag) s = .next (s.respond p (body.headD 0 :: 0x00 :: r.summary))) ∧
    (s.find tag = none → exec (.lookup p tag) s = .next (s.respond p [body.headD 0, 0x01])) ∧
    (s.StoreOk → s.find 0 = none)) ∧
  ∀ (p : Port) (after kind state : Nat) (s : State) (body : List Byte), s.StoreOk →
    s.Asks p (.nextRecord p after kind state) body →
    let passes := fun r : Record => after < r.tag ∧ (kind = 0 ∨ recordKindOf kind = some r.kind) ∧
      (state = 0 ∨ recordStateOf state = some r.state)
    ((kind ≠ 0 ∧ recordKindOf kind = none) ∨ (state ≠ 0 ∧ recordStateOf state = none) →
      exec (.nextRecord p after kind state) s = .next (s.respond p [body.headD 0, 0x08])) ∧
    (kind = 0 ∨ (recordKindOf kind).isSome = true → state = 0 ∨ (recordStateOf state).isSome = true →
      ((∀ r ∈ s.store, ¬passes r) → exec (.nextRecord p after kind state) s = .next (s.respond p [body.headD 0, 0x01])) ∧
      ∀ r ∈ s.store, passes r → (∀ x ∈ s.store, passes x → r.tag ≤ x.tag) →
        exec (.nextRecord p after kind state) s = .next (s.respond p (body.headD 0 :: 0x00 :: r.summary)))

/-- READ_SPANS and READ_SOURCES (R40, R41, R184): the mark and the spans of a STRAND, ROPE or PANEL; the mark and up to twelve source
entries of a ROPE or PANEL. A tag that is not live is answered NOT_FOUND, and a kind without the list WRONG_KIND. The field "to" of an
open entry is a free value, and the counter of free values is the model's (log entry 1); the bits without a meaning are the model's
zeros (log entry 34). -/
def Obligations.ReadListsAnswer : Prop :=
  (∀ (c : Instr) (p : Port) (tag : Nat) (s : State) (body : List Byte), s.Asks p c body →
    c = .readSpans p tag ∨ (∃ first, c = .readSources p tag first) → s.find tag = none →
    exec c s = .next (s.respond p [body.headD 0, 0x01])) ∧
  (∀ (p : Port) (tag : Nat) (s : State) (body : List Byte) (r : Record), s.Asks p (.readSpans p tag) body →
    s.find tag = some r →
    (∀ q, r.body.piece = some q → exec (.readSpans p tag) s = .next (s.respond p (body.headD 0 :: 0x00 :: r.mark ::
      (beBytes 4 q.made ++ [byte (if q.pending.isSome then 1 else 0), byte q.spans.length] ++ q.spans.flatMap Span.entry)))) ∧
    (r.kind = .coil → exec (.readSpans p tag) s = .next (s.respond p [body.headD 0, 0x05]))) ∧
  ∀ (p : Port) (tag first : Nat) (s : State) (body : List Byte) (r : Record), s.Asks p (.readSources p tag first) body →
    s.find tag = some r →
    (r.kind = .rope ∨ r.kind = .panel → first ≤ 15 → exec (.readSources p tag first) s =
      .next (State.respond p (body.headD 0 :: 0x00 :: r.mark :: byte r.body.sources.length :: byte first ::
        byte ((r.body.sources.drop first).take 12).length :: sourceEntries s.freeCount 0 ((r.body.sources.drop first).take 12))
        { s with freeCount := s.freeCount + 1 })) ∧
    (r.kind = .rope ∨ r.kind = .panel → 15 < first →
      exec (.readSources p tag first) s = .next (s.respond p [body.headD 0, 0x08])) ∧
    (r.kind = .strand ∨ r.kind = .coil → exec (.readSources p tag first) s = .next (s.respond p [body.headD 0, 0x05]))

/-- HEAD_STATUS (R65, R81, R185): the report of a head in any state, from either port; NO_HEAD for an index above 15. The report
counts one more use of the free values (log entry 1); its bits without a meaning are the model's zeros (log entry 34). -/
def Obligations.HeadStatusAnswer : Prop :=
  ∀ (p : Port) (n : Nat) (s : State) (body : List Byte), s.Asks p (.headStatus p n) body →
    (∀ h : HeadIx, n = h.val → exec (.headStatus p n) s =
      .next (State.respond p (body.headD 0 :: 0x00 :: (s.head h).report s.freeCount (s.attn.causesOf h))
        { s with freeCount := s.freeCount + 1 })) ∧
    (15 < n → exec (.headStatus p n) s = .next (s.respond p [body.headD 0, 0x09]))

/-- The order of the refusals of a request on a record (R35, R36): NOT_FOUND for a tag that is not live, then WRONG_KIND, then
WRONG_STATE, then STALE with the present mark. AMEND, ADD_SPAN, CONCLUDE, BAND and RETIRE name the kinds and the states they act on
(R44, R47, R50, R51, R52). A refused request changes nothing but its port (R34). -/
def Obligations.RecordRefusals : Prop :=
  ∀ (c : Instr) (p : Port) (tag : Nat) (m : Mark) (s : State) (body : List Byte), s.Asks p c body → requestPort c = some p →
    c.recordOperand = some (tag, m) → p = .lineComputer ∨ (c.lineOnly = false ∧ s.mayTouch p tag = true) →
    (s.find tag = none → exec c s = .next (s.respond p [body.headD 0, 0x01])) ∧
    ∀ r, s.find tag = some r →
      (actsOnKind c r.kind = false → exec c s = .next (s.respond p [body.headD 0, 0x05])) ∧
      (actsOnKind c r.kind = true → actsInState c r.kind r.state = false →
        exec c s = .next (s.respond p [body.headD 0, 0x04])) ∧
      (actsOnKind c r.kind = true → actsInState c r.kind r.state = true → m ≠ r.mark →
        exec c s = .next (s.respond p [body.headD 0, 0x03, r.mark]))

/-! ## Requests that change records -/

/-- CREATE (R4, R13, R14, R15, R42, R43): a record in DRAFT with mark 0, the clock's times, no length and the specification given, each
value in its range, and the answer mark 0; the other records stand; the count's rise to 240 raises STORE. A full store answers FULL and
raises STORE. Before that, in this order: a live tag is answered EXISTS, a COIL WRONG_KIND, and a kind without a name, a specification
that fails the field check or a tag out of range BAD_FIELD; each leaves everything as it was. That an item named twice fails the field
check of a CREATE is the model's reading (log entry 10). -/
def Obligations.CreateResult : Prop :=
  (∀ (tag kind : Nat) (l : List Item) (s : State) (body : List Byte), s.Asks .lineComputer (.create .lineComputer tag kind l) body →
    let refused := fun code : Byte => exec (.create .lineComputer tag kind l) s = .next (s.respond .lineComputer [body.headD 0, code])
    (s.find tag ≠ none → refused 0x02) ∧
    (s.find tag = none → (kind = 4 → refused 0x05) ∧ (kind = 0 ∨ 4 < kind → refused 0x08) ∧
      ∀ k, recordKindOf kind = some k → k ≠ .coil → tag = 0 ∨ 281474976710656 ≤ tag ∨ badSpec false k l → refused 0x08)) ∧
  (∀ (k : RecordKind) (l : List Item), k ≠ .coil → (createListOk k l = true ↔ ¬badSpec false k l)) ∧
  ∀ (tag kind : Nat) (l : List Item) (s : State) (body : List Byte) (k : RecordKind) (b : Body), s.StoreOk →
    s.Asks .lineComputer (.create .lineComputer tag kind l) body → s.find tag = none → recordKindOf kind = some k →
    freshBody l k = some b → createListOk k l = true → 1 ≤ tag → tag < 281474976710656 →
    (s.store.length < 256 →
      ∃ t : State, exec (.create .lineComputer tag kind l) s = .next (t.respond .lineComputer [body.headD 0, 0x00, 0x00]) ∧
        t.find tag = some ⟨tag, .draft, 0, s.clock.seconds, s.clock.seconds, false, false, none, none, b⟩ ∧
        (∀ n, n ≠ tag → t.find n = s.find n) ∧ t.store.length = s.store.length + 1 ∧ b.kind = k ∧
        b.piece = some ⟨0, [], none⟩ ∧ b.sources = [] ∧ t.heads = s.heads ∧ t.clock = s.clock ∧ t.line = s.line ∧
        t.link = s.link ∧ t.coilPrefix = s.coilPrefix ∧ t.coilSerial = s.coilSerial ∧
        (s.store.length ≠ 239 → t.attn = s.attn) ∧
        (s.store.length = 239 → t.attn.flag 65 = true ∧ t.attn.storeCauses = { s.attn.storeCauses with store240 := true })) ∧
    (s.store.length = 256 → exec (.create .lineComputer tag kind l) s =
      .next (State.respond .lineComputer [body.headD 0, 0x06]
        (s.raiseStore fun c => { c with createFull := true }))) ∧
    (k = .strand → b = .strand ⟨itemValue l 1, itemValue l 2, ⟨0, [], none⟩, 0, 0⟩) ∧
    (k = .rope → ∃ n f, itemValue l 3 = some n ∧ 3 ≤ n ∧ n ≤ 4 ∧ itemValue l 4 = some f ∧ 65536 ≤ f ∧ f ≤ 131071 ∧
      b = .rope ⟨itemValue l 1, itemValue l 2, n, f, ⟨0, [], none⟩, 0, 0, [], 0⟩) ∧
    (k = .panel → ∃ n x a, itemValue l 5 = some n ∧ 1 ≤ n ∧ n ≤ 1023 ∧ itemValue l 6 = some x ∧ 1 ≤ x ∧ x ≤ 2000 ∧
      itemValue l 7 = some a ∧ a ≤ 500 ∧ b = .panel ⟨n, x, a, itemValue l 8, ⟨0, [], none⟩, 0, []⟩) ∧
    (∀ v, itemValue l 1 = some v → 16 ≤ v ∧ v ≤ 65535) ∧ (∀ v, itemValue l 2 = some v → 1 ≤ v ∧ v ≤ 4294967295) ∧
    ∀ v, itemValue l 8 = some v → 1 ≤ v ∧ v ≤ 65535

/-- AMEND (R9, R44, R45, R46): every field named is set, or made absent, and the others stand; the mark steps exactly when the
specification has changed; the other records stand; and a product brought to its end point takes its running head to CUTTING. A list
that fails the field check (R43) is answered BAD_FIELD, after the checks of the kind, the state and the mark, and changes nothing. -/
def Obligations.AmendResult : Prop :=
  (∀ (tag : Nat) (m : Mark) (l : List Item) (s : State) (body : List Byte) (r : Record),
    s.Asks .lineComputer (.amend .lineComputer tag m l) body → s.find tag = some r → r.kind ≠ .coil →
    amendStateOk r.kind r.state l = true → m = r.mark → badSpec true r.kind l →
    exec (.amend .lineComputer tag m l) s = .next (s.respond .lineComputer [body.headD 0, 0x08])) ∧
  (∀ (k : RecordKind) (l : List Item), amendListOk k l = true ↔ ¬badSpec true k l) ∧
  ∀ (tag : Nat) (m : Mark) (l : List Item) (s : State) (body : List Byte) (r : Record), s.StoreOk →
    s.Asks .lineComputer (.amend .lineComputer tag m l) body → s.find tag = some r → r.kind ≠ .coil →
    amendStateOk r.kind r.state l = true → m = r.mark → amendListOk r.kind l = true →
    let amended := fun (n : Nat) (old : Option Nat) => if namesItem l n = true then itemValue l n else old
    ∃ (t : State) (r' : Record), exec (.amend .lineComputer tag m l) s = .next (t.respond .lineComputer [body.headD 0, 0x00, r'.mark]) ∧
      t.find tag = some r' ∧ r'.state = r.state ∧
      (∀ b, r.body = .strand b → r'.body = .strand
        { b with targetLay := amended 1 b.targetLay, orderedLength := amended 2 b.orderedLength }) ∧
      (∀ b, r.body = .rope b → r'.body = .rope
        { b with
          targetLay := amended 1 b.targetLay
          orderedLength := amended 2 b.orderedLength
          strandCount := (itemValue l 3).getD b.strandCount
          factor := (itemValue l 4).getD b.factor }) ∧
      (∀ b, r.body = .panel b → r'.body = .panel
        { b with
          knots := (itemValue l 5).getD b.knots
          bar := (itemValue l 6).getD b.bar
          allowance := (itemValue l 7).getD b.allowance
          targetRows := amended 8 b.targetRows }) ∧
      (r'.body.spec = r.body.spec → r'.mark = r.mark ∧ r'.changed = r.changed) ∧
      (r'.body.spec ≠ r.body.spec → r'.mark = r.mark + 1 ∧ r'.changed = s.clock.seconds) ∧
      (∀ n, n ≠ tag → t.find n = s.find n) ∧
      ∀ h, r.bound = some (h, .product) → (s.head h).product = some tag → namesItem l 2 = true ∨ namesItem l 8 = true →
        (s.head h).state = .run ∨ (s.head h).state = .stopped ∨ (s.head h).state = .held → r'.atEnd = true →
        (t.head h).state = .cutting ∧ t.flagged h .state = true

/-- ADD_SPAN (R25, R26, R47, R48, R49): a closed SPLICE or FLAW span is normalized into the list of a record that takes spans, from
the line computer or from a panel whose mask holds the record; a list left as it was leaves the mark. Merge-nearest sets SPANS_MERGED
and raises SPAN_MERGED at the head the record is bound to, or STORE (R11, R26). On a ROPE the coils the span reaches are downgraded
(R30, R162), and a span that reaches a BANDED coil is refused with WRONG_STATE (R48). On a strand in a slot of a CLOSER whose top now
lies inside a span the rope takes FEEDn (R127). A range or kind out of bounds is answered BAD_FIELD. -/
def Obligations.AddSpanResult : Prop :=
  ∀ (p : Port) (tag : Nat) (m : Mark) (lo hi code : Nat) (s : State) (body : List Byte) (r : Record),
    s.StoreOk → s.BindingsOk → s.Asks p (.addSpan p tag m lo hi code) body → s.mayTouch p tag = true → s.find tag = some r →
    r.kind ≠ .coil → r.state = .making ∨ r.state = .interrupted ∨ r.state = .made ∨ r.state = .inUse → m = r.mark →
    (hi ≤ lo ∨ r.made < hi ∨ (code ≠ 1 ∧ code ≠ 2) →
      exec (.addSpan p tag m lo hi code) s = .next (s.respond p [body.headD 0, 0x08])) ∧
    ∀ k, lo < hi → hi ≤ r.made → (code = 1 ∧ k = .splice) ∨ (code = 2 ∧ k = .flaw) →
      (r.kind = .rope → s.reachesBanded tag ⟨lo, hi, KindSet.only k, false, {}⟩ = true →
        exec (.addSpan p tag m lo hi code) s = .next (s.respond p [body.headD 0, 0x04])) ∧
      ((r.kind = .rope → s.reachesBanded tag ⟨lo, hi, KindSet.only k, false, {}⟩ = false) →
        ∃ (t : State) (r' : Record), exec (.addSpan p tag m lo hi code) s = .next (t.respond p [body.headD 0, 0x00, r'.mark]) ∧
          t.find tag = some r' ∧ r'.spans = (normalize ⟨lo, hi, KindSet.only k, false, {}⟩ r.spans).1 ∧ r'.state = r.state ∧
          r'.made = r.made ∧ (r'.spans = r.spans → r'.mark = r.mark ∧ r'.changed = r.changed) ∧
          (s.RecordsOk → r'.spans ≠ r.spans → r'.mark = r.mark + 1 ∧ r'.changed = s.clock.seconds) ∧
          ((normalize ⟨lo, hi, KindSet.only k, false, {}⟩ r.spans).2 = false → r'.spansMerged = r.spansMerged) ∧
          ((normalize ⟨lo, hi, KindSet.only k, false, {}⟩ r.spans).2 = true → r'.spansMerged = true ∧
            (∀ h ro, r.bound = some (h, ro) → t.flagged h .alarm = true ∧ (t.attn.causesOf h).spanMerged = true) ∧
            (r.bound = none → t.attn.flag 65 = true ∧ t.attn.storeCauses.alarms.spanMerged = true)) ∧
          (r.kind = .rope → s.Downgrades tag r'.spans t) ∧
          ∀ h n b, r.bound = some (h, .feed n) → r.body = .strand b → (s.head h).kind = some .closer →
            ((s.head h).slot n).spanHolding = false → r'.spans ≠ r.spans →
            (∃ x ∈ r'.spans, x.lo < b.piece.made - b.consumed ∧ b.piece.made - b.consumed ≤ x.hi) →
            ((t.head h).slot n).spanHolding = true ∧ (s.RecordsOk → ∀ q, s.productOf h = some q → t.hasHolder q.tag (.feed n) = true))

/-- CONCLUDE moves an INTERRUPTED record to MADE (R50), and BAND moves a WOUND coil to BANDED with its band time (R21, R51); in each
the mark steps, the changed time is set, and nothing else changes. -/
def Obligations.ConcludeAndBandResult : Prop :=
  (∀ (tag : Nat) (m : Mark) (s : State) (body : List Byte) (r : Record), s.StoreOk →
    s.Asks .lineComputer (.conclude .lineComputer tag m) body → s.find tag = some r → r.kind ≠ .coil →
    r.state = .interrupted → m = r.mark →
    exec (.conclude .lineComputer tag m) s = .next (State.respond .lineComputer [body.headD 0, 0x00, r.mark + 1]
      (s.updRec tag fun x => { x with state := .made, mark := x.mark + 1, changed := s.clock.seconds }))) ∧
  ∀ (p : Port) (tag : Nat) (m : Mark) (s : State) (body : List Byte) (r : Record) (c : CoilBody), s.StoreOk →
    s.Asks p (.band p tag m) body → s.mayTouch p tag = true → s.find tag = some r → r.body = .coil c →
    r.state = .wound → m = r.mark →
    exec (.band p tag m) s = .next (State.respond p [body.headD 0, 0x00, r.mark + 1]
      (s.updRec tag fun x =>
        { x with
          state := .banded
          mark := x.mark + 1
          changed := s.clock.seconds
          body := .coil { c with bandTime := some s.clock.seconds } }))

/-- RETIRE takes a record out of the store (R5, R52, R53): the coils of a rope stop belonging to it, every other record stands, and a
full store that gets a free place notifies the planners that hold STORE_FULL (held until it is taken, log entry 23). -/
def Obligations.RetireResult : Prop :=
  ∀ (tag : Nat) (m : Mark) (s : State) (body : List Byte) (r : Record), s.StoreOk →
    s.Asks .lineComputer (.retire .lineComputer tag m) body → s.find tag = some r →
    r.state = .draft ∨ r.state = .interrupted ∨ r.state = .made ∨ r.state = .spent ∨ r.state = .banded → m = r.mark →
    ∃ t : State, exec (.retire .lineComputer tag m) s = .next (t.respond .lineComputer [body.headD 0, 0x00]) ∧ t.find tag = none ∧
      (∀ n, n ≠ tag → t.find n = (s.find n).map fun x => if r.kind = .rope then x.onCoil (CoilBody.disown tag) else x) ∧
      t.store.length + 1 = s.store.length ∧
      (∀ h, t.head h = { s.head h with
        notified := (s.head h).notified || (decide (s.store.length = 256) && (s.head h).holds.storeFull) }) ∧
      t.clock = s.clock ∧ t.attn = s.attn ∧ t.coilPrefix = s.coilPrefix ∧ t.coilSerial = s.coilSerial ∧ t.line = s.line ∧
      t.link = s.link

/-- The revision mark (R9, R10): a whole change steps the mark of a record by one and sets its changed time exactly when it altered
what the mark counts; otherwise the record is as the change left it. What R9 lists is compared before and after the whole change, and
FEEDn that one change added and released has altered the list as well (R126; the model's reading, log entry 21). -/
def Obligations.MarkSteps : Prop :=
  ∀ (f : State → State) (s : State) (r x : Record), s.StoreOk → (f s).StoreOk → s.find r.tag = some r →
    (f s).find r.tag = some x →
    (x.counted = r.counted → (s.change f).find r.tag = some x) ∧
      (x.counted ≠ r.counted →
        (s.change f).find r.tag = some { x with mark := r.mark + 1, changed := (f s).clock.seconds })

/-- Normalization (R25) and merge-nearest (R26), of a span into an ordered list: every position of the list and of the span stays
covered, with its kinds, and the list stays ordered, apart and within 24 spans. Where the span meets others, or the list has room, one
span takes their place, from the lowest lo to the highest hi, with the union of their kinds and of their holders, open when one of them
was open, and every span that was not met stands. A span that meets no other, at a list of 24, merges with
the neighbour of the smaller gap, on equal gaps the lower. -/
def Obligations.MergeNearest : Prop :=
  ∀ (top : Nat) (n : Span) (l : List Span), SpansOk top l → n.lo < n.hi →
    let gap := fun x : Span => if x.hi ≤ n.lo then n.lo - x.hi else x.lo - n.hi
    (∃ y ∈ (normalize n l).1, y.lo ≤ n.lo ∧ n.hi ≤ y.hi ∧ y.kinds.union n.kinds = y.kinds) ∧
    (∀ x ∈ l, ∃ y ∈ (normalize n l).1, y.lo ≤ x.lo ∧ x.hi ≤ y.hi ∧ y.kinds.union x.kinds = y.kinds) ∧
    (∀ y ∈ (normalize n l).1, y ∈ l ∨ (y.lo ≤ n.lo ∧ n.hi ≤ y.hi)) ∧
    ((normalize n l).1.Pairwise fun a b => a.hi < b.lo) ∧ (normalize n l).1.length ≤ 24 ∧
    ((∃ x ∈ l, n.meets x = true) ∨ l.length < 24 → (normalize n l).2 = false ∧ ∃ y : Span,
      y.lo = (l.filter n.meets).foldl (fun a x => min a x.lo) n.lo ∧ y.hi = (l.filter n.meets).foldl (fun a x => max a x.hi) n.hi ∧
      y.kinds = (l.filter n.meets).foldl (fun a x => a.union x.kinds) n.kinds ∧
      y.holders = (l.filter n.meets).foldl (fun a x => a.union x.holders) n.holders ∧
      y.isOpen = (n.isOpen || (l.filter n.meets).any Span.isOpen) ∧
      ∀ x, x ∈ (normalize n l).1 ↔ x = y ∨ (x ∈ l ∧ n.meets x = false)) ∧
    ((∀ x ∈ l, n.meets x = false) → l.length = 24 → (normalize n l).2 = true ∧
      ∃ a ∈ l, (∀ x ∈ l, gap a ≤ gap x) ∧ (∀ x ∈ l, gap x = gap a → a.lo ≤ x.lo) ∧
        (normalize n l).1 = l.map fun x => if x.lo = a.lo then n.unite x else x)

/-! ## Requests on heads -/

/-- BIND_PRODUCT (R12, R18, R66, R67, R118, R119): a DRAFT or INTERRUPTED record of the head's kind becomes MAKING, bound to the IDLE
head; the head is READY with fresh blocks and trim code 512; the answer is the record's new mark. A STRAND or ROPE resumed with a guard
margin takes JOIN from the margin below the made length until the margin above it (R97), and a ROPE takes FEEDn for every required slot
from its made length (R129). -/
def Obligations.BindProductResult : Prop :=
  ∀ (h : HeadIx) (tag : Nat) (m : Mark) (s : State) (body : List Byte) (r : Record) (k : MachineKind), s.StoreOk →
    s.Asks .lineComputer (.bindProduct .lineComputer h.val tag m) body → (s.head h).state = .idle →
    (s.head h).kind = some k →
    (k = .strander ∧ r.kind = .strand) ∨ (k = .closer ∧ r.kind = .rope) ∨ (k = .loom ∧ r.kind = .panel) →
    s.find tag = some r → r.state = .draft ∨ r.state = .interrupted → m = r.mark →
    let margin := (s.head h).settings.guardMargin
    ∃ (t : State) (r' : Record), exec (.bindProduct .lineComputer h.val tag m) s =
        .next (t.respond .lineComputer [body.headD 0, 0x00, r.mark + 1]) ∧
      t.find tag = some r' ∧ r'.state = .making ∧ r'.bound = some (h, .product) ∧ r'.boundFrom = some r.state ∧
      r'.made = r.made ∧ r'.mark = r.mark + 1 ∧ r'.changed = s.clock.seconds ∧ (t.head h).state = .ready ∧
      (t.head h).product = some tag ∧ (t.head h).source = none ∧ (t.head h).holds = {} ∧ (t.head h).trim = 512 ∧
      (t.head h).lastLay = none ∧ (t.head h).lastDeviation = none ∧ (t.head h).window = none ∧ (t.head h).row = none ∧
      (t.head h).pitchFraction = 0 ∧ (t.head h).limitNoted = false ∧ (t.head h).markHigh = false ∧
      (∀ n : SlotIx, ((t.head h).slot n).strand = none ∧ ((t.head h).slot n).required = (match r.body with
        | .rope b => decide (n.val < b.strandCount)
        | .panel _ => decide (n.val < 2)
        | .strand _ | .coil _ => false)) ∧
      (∀ p, r.body.piece = some p → ∃ p', r'.body.piece = some p' ∧
        (r.state = .interrupted → r.kind ≠ .panel → 0 < margin →
          (s.RecordsOk → p'.HeldFrom .join (r.made - margin)) ∧ (t.head h).joinRelease = some (r.made + margin)) ∧
        (∀ b, r.body = .rope b → ∀ n : SlotIx, n.val < b.strandCount → s.RecordsOk → p'.HeldFrom (.feed n) r.made) ∧
        (r.kind = .panel → p' = p)) ∧
      (r.state = .draft ∨ r.kind = .panel ∨ margin = 0 → (t.head h).joinRelease = none)

/-- BIND_SOURCE (R12, R68, R153 to R157, R164): a MADE rope becomes IN_USE, bound to the IDLE coiler, and the first plan point leaves
the head READY with a segment, or HELD, where FLAW high is taken as rising (R57, R98); a rope with nothing left is SPENT and leaves the
head DONE. The segment, its coil and the reasons to wait are those that `State.Plans` says of a READY head without a segment, with the
head's queue (R155, R157). -/
def Obligations.BindSourceResult : Prop :=
  ∀ (h : HeadIx) (tag : Nat) (m : Mark) (s : State) (body : List Byte) (r : Record) (b : RopeBody), s.StoreOk →
    s.CoilTagsOk → s.Asks .lineComputer (.bindSource .lineComputer h.val tag m) body → (s.head h).state = .idle →
    (s.head h).kind = some .coiler → s.find tag = some r → r.body = .rope b → r.state = .made → m = r.mark →
    let bound : Record := { r with
      state := .inUse, mark := r.mark + 1, changed := s.clock.seconds, bound := some (h, .source), boundFrom := none }
    let ready : Head := { s.head h with state := .ready, holds := {}, segment := none, flawRise := none }
    (0 < b.currentEnd → ∃ (t : State) (r' : Record), exec (.bindSource .lineComputer h.val tag m) s =
        .next (t.respond .lineComputer [body.headD 0, 0x00, r.mark + 1]) ∧
      t.find tag = some r' ∧ r'.state = .inUse ∧ r'.bound = some (h, .source) ∧ r'.body = .rope b ∧
      r'.mark = r.mark + 1 ∧ s.Plans h bound b ready (r.mark + 1) t ∧ (t.head h).source = some tag ∧ (t.head h).unplanned = 0 ∧
      ((t.head h).state = .ready ∧ (t.head h).segment.isSome = true ∧ (t.head h).holds = {} ∧ (t.head h).flawRise = none ∨
        (t.head h).state = .held ∧ (t.head h).segment = none ∧ t.flagged h .state = true ∧
          ((t.head h).holds = ⟨false, true, false⟩ ∨ (t.head h).holds = ⟨false, false, true⟩) ∧
          (t.head h).flawRise = if (s.head h).flawHigh then some b.currentEnd else none)) ∧
    (b.currentEnd = 0 → ∃ (t : State) (r' : Record), exec (.bindSource .lineComputer h.val tag m) s =
        .next (t.respond .lineComputer [body.headD 0, 0x00, r.mark + 1]) ∧
      t.find tag = some r' ∧ r'.state = .spent ∧ r'.bound = none ∧ r'.mark = r.mark + 1 ∧
      s.Plans h bound b ready (r.mark + 1) t ∧ (t.head h).state = .done ∧ (t.head h).source = none ∧ t.flagged h .state = true ∧ t.flagged h .coil = true)

/-- BIND_FEED (R12, R31, R120, R121, R130): a MADE strand becomes IN_USE in the slot, the product's source list gains an open entry at
its made amount, and FEED_SHORT goes when no required slot is empty; a head HELD for no other reason then goes by the level of RUN
(R61). On a CLOSER a strand whose top lies inside a span holds FEEDn for the span, and any other releases it (R121). -/
def Obligations.BindFeedResult : Prop :=
  ∀ (h : HeadIx) (n : SlotIx) (tag : Nat) (m : Mark) (s : State) (body : List Byte) (r q : Record) (b : StrandBody),
    s.StoreOk → s.Asks .lineComputer (.bindFeed .lineComputer h.val n.val tag m) body →
    (s.head h).kind = some .closer ∨ ((s.head h).kind = some .loom ∧ n.val < 2) →
    (s.head h).state = .ready ∨ (s.head h).state.running = true → ((s.head h).slot n).strand = none →
    s.find tag = some r → r.body = .strand b → r.state = .made → m = r.mark → s.productOf h = some q →
    q.kind = .rope ∨ q.kind = .panel → q.body.sources.length < 16 →
    ∃ (t : State) (r' : Record) (q' : Record), exec (.bindFeed .lineComputer h.val n.val tag m) s =
        .next (t.respond .lineComputer [body.headD 0, 0x00, r.mark + 1]) ∧
      t.find tag = some r' ∧ r'.state = .inUse ∧ r'.bound = some (h, .feed n) ∧
      r'.body = .strand { b with fraction := 0 } ∧ t.find q.tag = some q' ∧
      q'.body.sources = q.body.sources ++ [⟨tag, n, q.made, none⟩] ∧
      ((t.head h).slot n).strand = some tag ∧ ((t.head h).slot n).acc = 0 ∧ ((t.head h).slot n).lowNoted = false ∧
      ((t.head h).feedMissing = false → (t.head h).holds = { (s.head h).holds with feedShort := false } ∧
        (t.head h).state = if (s.head h).state = .held ∧ (t.head h).holds = {} then (s.head h).byRun else (s.head h).state) ∧
      ((t.head h).feedMissing = true → (t.head h).holds = (s.head h).holds ∧ (t.head h).state = (s.head h).state) ∧
      ((s.head h).kind = some .closer → q.state = .making → q.kind = .rope → s.RecordsOk →
        ((∃ x ∈ b.piece.spans, x.lo < b.piece.made - b.consumed ∧ b.piece.made - b.consumed ≤ x.hi) →
          ((t.head h).slot n).spanHolding = true ∧ t.hasHolder q.tag (.feed n) = true) ∧
        ((∀ x ∈ b.piece.spans, b.piece.made - b.consumed ≤ x.lo ∨ x.hi < b.piece.made - b.consumed) →
          ((t.head h).slot n).spanHolding = false ∧ t.hasHolder q.tag (.feed n) = false))

/-- UNBIND_FEED (R122, R123, R130): the strand returns to MADE, bound to no head, the slot is empty, the product's open entry of the
slot is closed, and a required slot emptied in a running state adds FEED_SHORT. On a CLOSER FEEDn stands on the rope for an emptied
required slot (R129) and is released for an optional one (R122). -/
def Obligations.UnbindFeedResult : Prop :=
  ∀ (h : HeadIx) (n : SlotIx) (tag : Nat) (s : State) (body : List Byte) (r q : Record), s.StoreOk → s.BindingsOk →
    s.Asks .lineComputer (.unbindFeed .lineComputer h.val n.val) body →
    (s.head h).kind = some .closer ∨ ((s.head h).kind = some .loom ∧ n.val < 2) →
    (s.head h).state = .ready ∨ (s.head h).state.running = true → ((s.head h).slot n).strand = some tag →
    s.find tag = some r → s.productOf h = some q →
    ∃ (t : State) (r' : Record) (q' : Record), exec (.unbindFeed .lineComputer h.val n.val) s =
        .next (t.respond .lineComputer [body.headD 0, 0x00]) ∧
      t.find tag = some r' ∧ r'.state = .made ∧ r'.bound = none ∧ ((t.head h).slot n).strand = none ∧
      ((t.head h).slot n).required = ((s.head h).slot n).required ∧ t.find q.tag = some q' ∧
      q'.body.sources = (q.body.sources.map fun e =>
        if e.slot = n ∧ e.stop = none then { e with stop := some q.made } else e) ∧
      (((s.head h).slot n).required = true → (s.head h).state ≠ .ready → (t.head h).holds.feedShort = true) ∧
      ((s.head h).kind = some .closer → s.RecordsOk →
        t.hasHolder q.tag (.feed n) = ((s.head h).slot n).required)

/-- RELEASE (R69, R70, R71, R73): from every state but EMPTY and IDLE the head becomes IDLE with its bindings, hold reasons and segment
gone, keeping its settings, trim code, last measurements and queue. A maker's product is MADE from a running state and goes back to
what it was bound from in READY; in READY a feed and a rope are MADE again and a coil leaves the store. As the product leaves MAKING
every strand in a slot is MADE again, bound to no head, but for one that the close of an open row spends, and the open source entries
are closed at the made amount of that change (R18, R119, R123, R140). The line computer may make it, and a panel whose mask holds the
head. -/
def Obligations.ReleaseResult : Prop :=
  ∀ (p : Port) (h : HeadIx) (s : State) (body : List Byte), s.StoreOk → s.BindingsOk → s.Asks p (.release p h.val) body →
    s.mayRelease p h.val = true → (s.head h).state ≠ .empty → (s.head h).state ≠ .idle →
    ∃ t : State, exec (.release p h.val) s = .next (t.respond p [body.headD 0, 0x00]) ∧ (t.head h).state = .idle ∧
      (t.head h).product = none ∧ (t.head h).source = none ∧ (t.head h).segment = none ∧ (t.head h).holds = {} ∧
      (t.head h).window = none ∧ (t.head h).markHigh = false ∧ (∀ n, ((t.head h).slot n).strand = none) ∧
      (t.head h).settings = (s.head h).settings ∧ (t.head h).trim = (s.head h).trim ∧
      (t.head h).lastLay = (s.head h).lastLay ∧ (t.head h).lastDeviation = (s.head h).lastDeviation ∧
      (t.head h).queue = (s.head h).queue ∧
      (∀ r, s.productOf h = some r →
        ((s.head h).state.running = true →
            ∃ (r' : Record), t.find r.tag = some r' ∧ r'.state = .made ∧ r'.bound = none ∧ s.EndsMaking h r r' t) ∧
          ((s.head h).state = .ready →
            ∃ (r' : Record), t.find r.tag = some r' ∧ some r'.state = r.boundFrom ∧ r'.bound = none ∧ s.EndsMaking h r r' t)) ∧
      ((s.head h).state = .ready →
        (∀ n x, ((s.head h).slot n).strand = some x → ∃ (r' : Record), t.find x = some r' ∧ r'.state = .made ∧ r'.bound = none) ∧
        (∀ x, (s.head h).source = some x → ∃ (r' : Record), t.find x = some r' ∧ r'.state = .made ∧ r'.bound = none) ∧
        ∀ c, (s.head h).segment.bind Segment.coil = some c → t.find c = none)

/-- ENQUEUE and CLEAR_QUEUE (R150, R151): an order in range is appended to a queue with a free place, and a queue is emptied with the
segment's order link gone; the answers are the number of entries held and the number removed. An entry put into an empty queue of a
coiler that holds QUEUE_EMPTY is followed by a plan point in the same change (R152 to R157, R164): from HELD it leaves what
`State.Plans` says, with that entry as the queue and the unplanned length moved to waste (R154). -/
def Obligations.QueueRequestsResult : Prop :=
  (∀ (h : HeadIx) (length count rule : Nat) (s : State) (body : List Byte) (g : GradeRule), s.StoreOk →
    s.Asks .lineComputer (.enqueue .lineComputer h.val length count rule) body → (s.head h).state ≠ .empty →
    (s.head h).kind = some .coiler → 1000 ≤ length → length ≤ 4000000000 → 1 ≤ count → count ≤ 255 →
    (rule = 1 ∧ g = .firstOnly) ∨ (rule = 2 ∧ g = .secondOk) → (s.head h).queue.length < 8 →
    ((s.head h).queue ≠ [] ∨ (s.head h).holds.queueEmpty = false →
      exec (.enqueue .lineComputer h.val length count rule) s =
        .next (State.respond .lineComputer [body.headD 0, 0x00, byte ((s.head h).queue.length + 1)]
          (s.updHead h fun x => { x with queue := x.queue ++ [⟨length, count, g⟩] }))) ∧
    ((s.head h).queue = [] → (s.head h).holds.queueEmpty = true →
      ∃ t : State, exec (.enqueue .lineComputer h.val length count rule) s =
          .next (t.respond .lineComputer [body.headD 0, 0x00, 0x01]) ∧
        (t.head h).queue = [⟨length, count, g⟩] ∧
        ∀ r b, s.CoilTagsOk → s.BindingsOk → (s.head h).state = .held → s.sourceOf h = some (r, b) →
          (0 < (s.head h).unplanned → t.flagged h .coil = true) ∧
          s.Plans h r { b with waste := b.waste + min (s.head h).unplanned b.currentEnd }
            { s.head h with queue := [⟨length, count, g⟩] } (r.mark + 1) t)) ∧
  ∀ (h : HeadIx) (s : State) (body : List Byte), s.Asks .lineComputer (.clearQueue .lineComputer h.val) body →
    (s.head h).state ≠ .empty → (s.head h).kind = some .coiler →
    exec (.clearQueue .lineComputer h.val) s =
      .next (State.respond .lineComputer [body.headD 0, 0x00, byte (s.head h).queue.length]
        (s.updHead h fun x => { x with queue := [], segment := x.segment.map fun y => { y with link := false } }))

/-- SET_HEAD (R77, R78, R79): a list that passes its check is stored at the head, whatever its state: each setting named takes its
value, a numeric one clamped into its range, and the others stand. A list that names a trim limit brings the trim code within the
limits. The answer is the thirteen settings, and nothing else changes. A list that does not pass is answered BAD_FIELD, and before that
a head index above 15 NO_HEAD (R65). -/
def Obligations.SetHeadResult : Prop :=
  (∀ (n : Nat) (l : List Item) (s : State) (body : List Byte), s.Asks .lineComputer (.setHead .lineComputer n l) body → 15 < n →
    exec (.setHead .lineComputer n l) s = .next (s.respond .lineComputer [body.headD 0, 0x09])) ∧
  (∀ (h : HeadIx) (l : List Item) (s : State) (body : List Byte), s.Asks .lineComputer (.setHead .lineComputer h.val l) body →
    (settingListOk l = false → exec (.setHead .lineComputer h.val l) s = .next (s.respond .lineComputer [body.headD 0, 0x08])) ∧
    (settingListOk l = true →
    exec (.setHead .lineComputer h.val l) s =
      .next (State.respond .lineComputer (body.headD 0 :: 0x00 :: ((s.head h).settings.writeList l).bytes)
        (s.updHead h fun x =>
          { x with
            settings := x.settings.writeList l
            trim := if namesItem l 5 || namesItem l 6 then
                max (x.settings.writeList l).trimMin (min x.trim (x.settings.writeList l).trimMax)
              else x.trim })))) ∧
  ∀ (l : List Item) (x : Settings), settingListOk l = true →
    let within := fun (n lo hi old : Nat) => match itemValue l n with
      | some v => max lo (min v hi)
      | none => old
    x.writeList l = {
      pitch := within 1 1 16777215 x.pitch
      spindle := within 2 1 255 x.spindle
      turns := within 3 1 64 x.turns
      gain := within 4 0 255 x.gain
      trimMin := within 5 0 512 x.trimMin
      trimMax := within 6 512 1023 x.trimMax
      tolerance := within 7 1 500 x.tolerance
      marker := within 8 0 255 x.marker
      guardMargin := within 9 0 9999 x.guardMargin
      knotWindow := within 10 1 65535 x.knotWindow
      feedLow := within 11 0 65535 x.feedLow
      minCoil := within 12 1000 1000000 x.minCoil
      polarity := if itemValue l 13 = some 0 then .normal else if itemValue l 13 = some 1 then .inverted else x.polarity }

/-- The order of the refusals of a request on a head (R65). A binding: NO_HEAD for an index above 15 or an EMPTY head, NOT_FOUND,
NO_HEAD for a machine that does not suit, WRONG_KIND, WRONG_STATE for the head, its slot or the record, STALE with the present mark,
and a BIND_FEED then BAD_FIELD for a slot above 3 and FULL for a source list of 16 (R66, R68, R120). The other requests on a head
check in that order what they name (R69, R122, R150, R151). -/
def Obligations.HeadRefusals : Prop :=
  (∀ (c : Instr) (n tag : Nat) (m : Mark) (s : State) (body : List Byte), s.Asks .lineComputer c body →
    requestPort c = some .lineComputer → c.bindOperand = some (n, tag, m) →
    let refused := fun code : Byte => exec c s = .next (s.respond .lineComputer [body.headD 0, code])
    (15 < n → refused 0x09) ∧
    ∀ h : HeadIx, n = h.val →
      ((s.head h).state = .empty → refused 0x09) ∧
      ((s.head h).state ≠ .empty → (s.find tag = none → refused 0x01) ∧
        ∀ r, s.find tag = some r →
          ((∀ k, (s.head h).kind = some k → suitsMachine c k = false) → refused 0x09) ∧
          ∀ k, (s.head h).kind = some k → suitsMachine c k = true →
            (suitsRecord c k r.kind = false → refused 0x05) ∧
            (suitsRecord c k r.kind = true →
              (readyFor c (s.head h) = false ∨ bindableIn c r.state = false → refused 0x04) ∧
              (readyFor c (s.head h) = true → bindableIn c r.state = true →
                (m ≠ r.mark → exec c s = .next (s.respond .lineComputer [body.headD 0, 0x03, r.mark])) ∧
                (∀ slot, c = .bindFeed .lineComputer n slot tag m → m = r.mark →
                  (3 < slot → refused 0x08) ∧
                  (∀ q, slot ≤ 3 → s.productOf h = some q → 16 ≤ q.body.sources.length → refused 0x06)))))) ∧
  ∀ (c : Instr) (p : Port) (n : Nat) (s : State) (body : List Byte), s.Asks p c body → requestPort c = some p →
    p = .lineComputer ∨ s.mayRelease p n = true →
    let refused := fun code : Byte => exec c s = .next (s.respond p [body.headD 0, code])
    (∀ slot, c = .unbindFeed p n slot → p = .lineComputer →
      (15 < n → refused 0x09) ∧ ∀ h : HeadIx, n = h.val →
        ((s.head h).state = .empty → refused 0x09) ∧
        ((s.head h).state ≠ .empty →
          ((s.head h).kind ≠ some .closer → (s.head h).kind ≠ some .loom → refused 0x09) ∧
          ((s.head h).kind = some .closer ∨ (s.head h).kind = some .loom →
            ((s.head h).state.takesFeeds = false ∨ (s.head h).slotFilled slot = false → refused 0x04) ∧
            ((s.head h).state.takesFeeds = true → 3 < slot → refused 0x08)))) ∧
    (c = .release p n → (p = .lineComputer → 15 < n → refused 0x09) ∧ ∀ h : HeadIx, n = h.val →
      ((s.head h).state = .empty → refused 0x09) ∧ ((s.head h).state = .idle → refused 0x04)) ∧
    (∀ length count rule, c = .enqueue p n length count rule → p = .lineComputer →
      (15 < n → refused 0x09) ∧ ∀ h : HeadIx, n = h.val →
        ((s.head h).state = .empty ∨ (s.head h).kind ≠ some .coiler → refused 0x09) ∧
        ((s.head h).state ≠ .empty → (s.head h).kind = some .coiler →
          (length < 1000 ∨ 4000000000 < length ∨ count = 0 ∨ 255 < count ∨ gradeRuleOf rule = none → refused 0x08) ∧
          (1000 ≤ length → length ≤ 4000000000 → 1 ≤ count → count ≤ 255 → (gradeRuleOf rule).isSome = true →
            8 ≤ (s.head h).queue.length → refused 0x06))) ∧
    (c = .clearQueue p n → p = .lineComputer →
      (15 < n → refused 0x09) ∧ ∀ h : HeadIx, n = h.val →
        ((s.head h).state = .empty ∨ (s.head h).kind ≠ some .coiler → refused 0x09))

/-- The plan point of a notified coiler (R5, R152 to R157, R164, R165): it is made when STORE_FULL is held, and from HELD it leaves what
`State.Plans` says, with the unplanned length moved to waste: the rope SPENT, a segment, or a wait; a coil with room has the tag of R152, and
its creation raises STORE at 240 live records (R4). A coiler that holds STORE_FULL no more, or was not notified, makes none (the model's
choice, log entries 3 and 23). -/
def Obligations.StoreFullNotificationResult : Prop :=
  ∀ (h : HeadIx) (s : State), s.StoreOk → s.CoilTagsOk →
    ((s.head h).notified = false → exec (.storeFullNotification h) s = .next s) ∧
    ((s.head h).notified = true → (s.head h).holds.storeFull = false →
      exec (.storeFullNotification h) s = .next (s.updHead h fun x => { x with notified := false })) ∧
    ∀ r b, s.BindingsOk → (s.head h).notified = true → (s.head h).holds.storeFull = true → (s.head h).state = .held →
      s.sourceOf h = some (r, b) →
      ∃ t : State, exec (.storeFullNotification h) s = .next t ∧ (t.head h).notified = false ∧
        (0 < (s.head h).unplanned → t.flagged h .coil = true) ∧
        s.Plans h r { b with waste := b.waste + min (s.head h).unplanned b.currentEnd } (s.head h) (r.mark + 1) t

/-- The planning decision (R155): too little rope is waste; an empty queue waits; an order is planned over the lesser of its length and
the rope: FIRST where no span meets the range, SECOND where one does and the rule allows it, and under FIRST_ONLY a FIRST coil, short,
clear above the highest span, or, where that is too little, waste down to that span's lo. Nothing planned is longer than the rope, and a
FIRST coil meets no span. The search for a coil tag (R149, R152): in a store with a free place it finds, within 256 steps, a serial in
range whose tag is not live; it steps past live tags alone, by one, and from 4 294 967 295 to 1. -/
def Obligations.PlanDecision : Prop :=
  (∀ (lmin e top : Nat) (queue : List CoilOrder) (spans : List Span), 0 < e → 0 < lmin → SpansOk top spans →
    (e < lmin → planSegment lmin e queue spans = .waste e) ∧
    (lmin ≤ e → queue = [] → planSegment lmin e queue spans = .noOrder) ∧
    (∀ o rest, lmin ≤ e → queue = o :: rest →
      let n := min o.length e
      ((∀ x ∈ spans, overlap (e - n) e x.lo x.hi = false) →
        planSegment lmin e queue spans = .coil n .first (decide (n < o.length))) ∧
      (o.rule = .secondOk → (∃ x ∈ spans, overlap (e - n) e x.lo x.hi = true) →
        planSegment lmin e queue spans = .coil n .second (decide (n < o.length))) ∧
      ∀ x ∈ spans, o.rule = .firstOnly → overlap (e - n) e x.lo x.hi = true →
        (∀ y ∈ spans, overlap (e - n) e y.lo y.hi = true → y.hi ≤ x.hi) →
        planSegment lmin e queue spans = if lmin ≤ e - x.hi then .coil (e - x.hi) .first true else .waste (e - x.lo)) ∧
    (∀ n, planSegment lmin e queue spans = .waste n → n ≤ e) ∧
    (∀ n g short, planSegment lmin e queue spans = .coil n g short → n ≤ e ∧
      (g = .first → ∀ x ∈ spans, overlap (e - n) e x.lo x.hi = false))) ∧
  ∀ s : State, s.StoreOk → s.CoilTagsOk → s.store.length < 256 →
    ∃ n, findSerial s.live s.coilPrefix 256 s.coilSerial = some n ∧ 1 ≤ n ∧ n ≤ 4294967295 ∧
      s.live (s.coilPrefix * 4294967296 + n) = false ∧
      ∃ k < 256, (fun x => if x = 4294967295 then 1 else x + 1)^[k] s.coilSerial = n ∧ ∀ j < k,
        s.live (s.coilPrefix * 4294967296 + (fun x => if x = 4294967295 then 1 else x + 1)^[j] s.coilSerial) = true

/-! ## Requests on the device -/

/-- SET_CLOCK (R168): the line computer sets the seconds counter to the value given and the tick counter to 0; the answer carries the
value. A panel is answered DENIED. No record, head, flag or port state changes but the answer; a tick taken next counts from 0, and the
value stands until the tick counter wraps. -/
def Obligations.SetClockResult : Prop :=
  ∀ (v : Nat) (s : State) (body : List Byte), v < 4294967296 →
    (s.Asks .lineComputer (.setClock .lineComputer v) body →
      exec (.setClock .lineComputer v) s = .next (State.respond .lineComputer (body.headD 0 :: 0x00 :: beBytes 4 v)
        { s with clock := ⟨BitVec.ofNat 32 v, 0⟩ }) ∧
      ∀ (pins : Vector SensePins 16) (t u : State), exec (.setClock .lineComputer v) s = .next t →
        exec (.tick pins) t = .next u → u.clock = ⟨BitVec.ofNat 32 v, 1⟩ ∧ u.store = s.store) ∧
    (∀ n : Nat, n ≤ 1023 → Clock.tick^[n] ⟨BitVec.ofNat 32 v, 0⟩ = ⟨BitVec.ofNat 32 v, n⟩) ∧
    Clock.tick ⟨BitVec.ofNat 32 v, 1023⟩ = ⟨BitVec.ofNat 32 v + 1, 0⟩ ∧
    (s.Asks .floorPanel (.setClock .floorPanel v) body →
      exec (.setClock .floorPanel v) s = .next (s.respond .floorPanel [body.headD 0, 0x07]))

/-- READ_EVENTS (R172, R186): the answer is the event image; under READ_CLEARS every flag is then clear and every cause set empty,
under EXPLICIT nothing is cleared. CLEAR_EVENTS (R173): in either clear mode every marked flag is cleared, an ALARM flag with its
head's cause set and STORE with the store cause set; the others stand, and the answer is the image after the change. A panel is answered
DENIED. The image's bits without a meaning are the model's zeros (log entry 34). -/
def Obligations.EventRequestsResult : Prop :=
  (∀ (s : State) (body : List Byte), s.Asks .lineComputer (.readEvents .lineComputer) body →
    (s.attn.clearMode = .explicit → exec (.readEvents .lineComputer) s =
      .next (s.respond .lineComputer (body.headD 0 :: 0x00 :: s.attn.image))) ∧
    (s.attn.clearMode = .readClears → ∃ t : State, exec (.readEvents .lineComputer) s =
        .next (t.respond .lineComputer (body.headD 0 :: 0x00 :: s.attn.image)) ∧
      t.attn.flags = 0 ∧ t.attn.masks = s.attn.masks ∧ t.attn.routes = s.attn.routes ∧
      t.attn.clearMode = s.attn.clearMode ∧ (∀ h, s.flagged h .alarm = true → t.attn.causesOf h = {}) ∧
      (s.attn.flag 65 = true → t.attn.storeCauses = {}) ∧ t.store = s.store ∧ t.heads = s.heads ∧ t.clock = s.clock ∧
      t.line = s.line ∧ t.link = s.link)) ∧
  ∀ (w : FlagWord) (s : State) (body : List Byte),
    (s.Asks .lineComputer (.clearEvents .lineComputer w) body →
      ∃ t : State, exec (.clearEvents .lineComputer w) s =
          .next (t.respond .lineComputer (body.headD 0 :: 0x00 :: t.attn.image)) ∧
        (∀ k : Fin 66, t.attn.flag k.val = (s.attn.flag k.val && !w.getLsbD k.val)) ∧
        (∀ h : HeadIx, t.attn.causesOf h = if w.getLsbD (4 * h.val + 2) then {} else s.attn.causesOf h) ∧
        t.attn.storeCauses = (if w.getLsbD 65 then {} else s.attn.storeCauses) ∧ t.attn.masks = s.attn.masks ∧
        t.attn.routes = s.attn.routes ∧ t.attn.clearMode = s.attn.clearMode ∧ t.store = s.store ∧ t.heads = s.heads ∧
        t.clock = s.clock ∧ t.coilPrefix = s.coilPrefix ∧ t.coilSerial = s.coilSerial ∧ t.line = s.line ∧
        t.link = s.link) ∧
    (s.Asks .floorPanel (.clearEvents .floorPanel w) body →
      exec (.clearEvents .floorPanel w) s = .next (s.respond .floorPanel [body.headD 0, 0x07]))

/-- SET_DEVICE (R152, R171, R172, R174, R194): every field that a list names is stored when the list passes its check, numeric values
clamped, a field it does not name stands, and the answer is every device setting as stored; flags, records, heads and clock stand. A
list that does not pass is answered BAD_FIELD. The answer's mask bits without a flag are the model's zeros (log entry 34). An attention
line is asserted exactly while some flag that is set has its mask clear and its route to the line, so a stored mask or route takes
effect at once. -/
def Obligations.SetDeviceResult : Prop :=
  (∀ (l : List Item) (s : State) (body : List Byte), s.Asks .lineComputer (.setDevice .lineComputer l) body →
    (deviceListOk l = false → exec (.setDevice .lineComputer l) s = .next (s.respond .lineComputer [body.headD 0, 0x08])) ∧
    (deviceListOk l = true →
    ∃ t : State, exec (.setDevice .lineComputer l) s =
        .next (t.respond .lineComputer (body.headD 0 :: 0x00 :: t.deviceBytes)) ∧ t = s.writeDeviceList l ∧
      t.attn.flags = s.attn.flags ∧ t.attn.causes = s.attn.causes ∧ t.attn.storeCauses = s.attn.storeCauses ∧
      t.store = s.store ∧ t.heads = s.heads ∧ t.clock = s.clock ∧ t.line = s.line)) ∧
  (∀ s : State,
    (s.attnA = true ↔ ∃ k : Fin 66, s.attn.flag k.val = true ∧ s.attn.masks.getLsbD k.val = false ∧
      s.attn.routes[k.val] = .a) ∧
    (s.attnB = true ↔ ∃ k : Fin 66, s.attn.flag k.val = true ∧ s.attn.masks.getLsbD k.val = false ∧
      s.attn.routes[k.val] = .b)) ∧
  ∀ (l : List Item) (s : State), deviceListOk l = true →
    let t := s.writeDeviceList l
    t.attn.clearMode = (if itemValue l 1 = some 0 then .explicit else if itemValue l 1 = some 1 then .readClears else s.attn.clearMode) ∧
    t.coilPrefix = (match itemValue l 2 with
      | some v => min v 65535
      | none => s.coilPrefix) ∧
    t.coilSerial = (match itemValue l 3 with
      | some v => max 1 (min v 4294967295)
      | none => s.coilSerial) ∧
    (∀ p : PanelIx, t.link.panel p = { s.link.panel p with
      mask := match itemValue l (4 + p.val) with
        | some v => BitVec.ofNat 16 v
        | none => (s.link.panel p).mask }) ∧
    ∀ k : Fin 66,
      t.attn.masks.getLsbD k.val = (match itemValue l (16 + k.val) with
        | some v => decide (v = 1)
        | none => s.attn.masks.getLsbD k.val) ∧
      t.attn.routes[k.val] = if itemValue l (96 + k.val) = some 0 then .none else if itemValue l (96 + k.val) = some 1 then .a
        else if itemValue l (96 + k.val) = some 2 then .b else s.attn.routes[k.val]

/-- UNKNOWN_REQUEST is answered BAD_FIELD and changes nothing (R34); for a panel that is so for a body of the wrong size of any code
(the model's reading, log entry 9). What a response does to its port (R33, R179, R187, R193), with the line-enable driven while it is
sent to a panel (R188); the record of the bytes sent is the model's own (log entry 19). A request that is not in progress at its port
changes nothing (the model's choice, log entry 4). Port permission (R35, R65, R194): a panel is answered DENIED, before any other
check, on every request that only the line computer may make, on ADD_SPAN and BAND of a record outside its mask, and on RELEASE of a
head outside its mask (log entry 30). -/
def Obligations.PortAnswers : Prop :=
  (∀ (p : Port) (code : Nat) (s : State) (body : List Byte), s.Asks p (.unknownRequest p code) body →
    exec (.unknownRequest p code) s = .next (s.respond p [body.headD 0, 0x08])) ∧
  (∀ (s : State) (b : List Byte),
    s.respond .lineComputer b = { s with line := { s.line with inProgress := none, unread := some b } }) ∧
  (∀ (s : State) (b : List Byte) (n : PanelIx), s.link.granted = some n → s.respond .floorPanel b =
    { s with link := { s.link with
        inProgress := none
        unread := some b
        sent := byte (n.val + 1) :: byte b.length :: b ++
          beBytes 2 (crc (byte (n.val + 1) :: byte b.length :: b)).toNat } }) ∧
  (∀ (s : State) (b : List Byte), (s.respond .floorPanel b).link.lineEnable = true) ∧
  (∀ (c : Instr) (p : Port) (s : State), requestPort c = some p → s.inProgress p = none → exec c s = .next s) ∧
  ∀ (c : Instr) (s : State) (body : List Byte), s.Asks .floorPanel c body → requestPort c = some .floorPanel →
    (c.lineOnly = true ∨ (∃ tag m lo hi k, c = .addSpan .floorPanel tag m lo hi k ∧ s.mayTouch .floorPanel tag = false) ∨
      (∃ tag m, c = .band .floorPanel tag m ∧ s.mayTouch .floorPanel tag = false) ∨
      ∃ n, c = .release .floorPanel n ∧ s.mayRelease .floorPanel n = false) →
    exec c s = .next (s.respond .floorPanel [body.headD 0, 0x07])

/-! ## The line computer port -/

/-- The frames at the line computer port. A well-formed request frame (R177, R178, R179) is in progress when the port has no request in
progress and holds no unread response, and is otherwise refused with LAST_REFUSED. A malformed request frame and a frame of another
code set LAST_MALFORMED, and a frame without a whole byte does nothing (R177, R178). A fetch frame (R180) shifts out the length and the
body of the unread response and then 00h, and removes the response when its last byte has gone out. Every frame with a whole byte shifts
out the status byte first and clears both flags as reported. Nothing beyond the port changes. The bytes shifted out are the model's own
record (log entry 19). A frame may also come in stretches, with other commands between them (the model's choice, log entry 7): the
stretches together do what the whole frame does; what is left of a frame that RESET_N has cut off is ignored (R176); the fall of chip
select latches the status byte (R177); and a response formed between the fall and the eighth clock of a fetch's code byte is delivered by
that fetch, whose status byte reports none, while one formed after that clock waits, and the fetch shifts out 00h (R180). -/
def Obligations.SpiFramesResult : Prop :=
  (∀ (body : List Byte) (x : FrameEdges) (s : State), x.resumes = none → x.pauses = none → 1 ≤ body.length → body.length ≤ 250 →
    exec (.spiRequestFrame body x) s = .next { s with line :=
      { phase := .noFrame
        frameLength := body.length
        frameCount := body.length
        buffer := []
        inProgress := if s.line.inProgress = none ∧ s.line.unread = none then some body else s.line.inProgress
        unread := s.line.unread
        lastRefused := decide ¬(s.line.inProgress = none ∧ s.line.unread = none)
        lastMalformed := false
        status := s.line.statusByte
        toShift := none
        shifted := s.line.statusByte :: List.replicate (body.length + 1) 0 } }) ∧
  (∀ (rest : List Byte) (x : FrameEdges) (s : State), x.resumes = none → x.pauses = none → requestFrameOk rest = false →
    ∃ l, exec (.spiMalformedFrame rest x) s = .next { s with line := l } ∧ l.inProgress = s.line.inProgress ∧
      l.unread = s.line.unread ∧ l.lastMalformed = true ∧ l.lastRefused = false ∧ l.phase = .noFrame ∧ l.buffer = [] ∧
      l.shifted = s.line.statusByte :: List.replicate rest.length 0) ∧
  (∀ (code : Byte) (rest : List Byte) (x : FrameEdges) (s : State), x.resumes = none → x.pauses = none → code ≠ 0x51 → code ≠ 0x46 →
    ∃ l, exec (.spiDiscardFrame (code :: rest) x) s = .next { s with line := l } ∧ l.inProgress = s.line.inProgress ∧
      l.unread = s.line.unread ∧ l.lastMalformed = true ∧ l.lastRefused = false ∧ l.phase = .noFrame ∧ l.buffer = [] ∧
      l.shifted = s.line.statusByte :: List.replicate rest.length 0) ∧
  (∀ (x : FrameEdges) (s : State), x.resumes = none → x.pauses = none → ∃ l, exec (.spiDiscardFrame [] x) s = .next { s with line := l } ∧
    l.inProgress = s.line.inProgress ∧ l.unread = s.line.unread ∧ l.lastMalformed = s.line.lastMalformed ∧
    l.lastRefused = s.line.lastRefused ∧ l.phase = .noFrame ∧ l.shifted = []) ∧
  (∀ (bytes : List Byte) (x : FrameEdges) (s : State), x.resumes = none → x.pauses = none →
    ∃ l, exec (.spiFetchFrame bytes x) s = .next { s with line := l } ∧
      l.inProgress = s.line.inProgress ∧ l.lastMalformed = false ∧ l.lastRefused = false ∧ l.phase = .noFrame ∧
      (s.line.unread = none → l.unread = none ∧ l.shifted = s.line.statusByte :: List.replicate bytes.length 0) ∧
      ∀ r, s.line.unread = some r →
        l.unread = (if r.length + 1 ≤ bytes.length then none else some r) ∧
          l.shifted = s.line.statusByte :: ((byte r.length :: r) ++ List.replicate bytes.length 0).take bytes.length) ∧
  (∀ (bytes : List Byte) (f : FrameEdges → Instr) (s : State),
    f = .spiRequestFrame bytes ∨ f = .spiMalformedFrame bytes ∨ f = .spiDiscardFrame bytes ∨ f = .spiFetchFrame bytes →
    (∀ x : FrameEdges, x.resumes ≠ none → s.line.phase = .noFrame → exec (f x) s = .next s) ∧
    (∀ (x : FrameEdges) (n : Nat), x.resumes.getD 0 ≤ n → (∀ k, x.pauses = some k → n ≤ k) →
      ∃ t : State, exec (f { x with pauses := some n }) s = .next t ∧ exec (f { x with resumes := some n }) t = exec (f x) s) ∧
    ∀ e : Fin 8, ∃ l, exec (f ⟨e, none, some 0⟩) s = .next { s with line := l } ∧ l.phase = .code ∧ l.status = s.line.statusByte ∧
      l.inProgress = s.line.inProgress ∧ l.unread = s.line.unread ∧ l.lastRefused = s.line.lastRefused ∧
      l.lastMalformed = s.line.lastMalformed ∧ l.shifted = []) ∧
  ∀ (bytes r : List Byte) (e : Fin 8) (s : State), s.line.unread = none →
    (s.line.statusByte &&& 1 = 0) ∧
    (∃ t u : State, exec (.spiFetchFrame bytes ⟨0, none, some 0⟩) s = .next t ∧
      exec (.spiFetchFrame bytes ⟨e, some 0, none⟩) (t.respond .lineComputer r) = .next u ∧
      u.line.unread = (if r.length + 1 ≤ bytes.length then none else some r) ∧
      u.line.shifted = s.line.statusByte :: ((byte r.length :: r) ++ List.replicate bytes.length 0).take bytes.length) ∧
    ∃ t u : State, exec (.spiFetchFrame bytes ⟨0, none, some 1⟩) s = .next t ∧
      exec (.spiFetchFrame bytes ⟨e, some 1, none⟩) (t.respond .lineComputer r) = .next u ∧ u.line.unread = some r ∧
      u.line.shifted = s.line.statusByte :: List.replicate bytes.length 0

/-! ## The floor panel link -/

/-- The roll call (R188 to R191): CALL, for which the line-enable is driven in CALLING once the link is not quiet, empties the pending
set and begins slot 1 with the line-enable released; the end of a slot judges its panel by the first byte that counts and goes on to the
next slot, after slot 8 to the first GRANT, with the line-enable driven, or, with no panel asking, to the next roll call; a change of
presence sets the PANEL flag. The quiet and the bytes sent are the model's own (log entries 18 and 19). -/
def Obligations.RollCallResult : Prop :=
  (∀ s : State, s.link.phase = .calling → s.link.quiet = false → s.link.lineEnable = true ∧
    ∃ l, exec .call s = .next { s with link := l } ∧
      l.phase = .slots ∧ l.slot = 0 ∧ l.sent = [0xC5] ∧ l.inProgress = s.link.inProgress ∧ l.unread = s.link.unread ∧
      l.lineEnable = s.link.unread.isSome ∧ ∀ n, l.panel n = { s.link.panel n with asked := false }) ∧
  (∀ s : State, s.link.phase ≠ .calling ∨ s.link.quiet = true → exec .call s = .next s) ∧
  (∀ (received : List LineByte) (s : State), s.link.phase ≠ .slots → exec (.panelSlotEnd received) s = .next s) ∧
  ∀ (received : List LineByte) (s : State) (n : PanelIx), s.link.phase = .slots → s.link.slot = n →
    let p := s.link.panel n
    let q : Panel := match received with
      | .whole b :: _ => ⟨true, 0, p.asked || decide (b = 0xA1), p.mask⟩
      | .badStop :: _ => ⟨true, 0, p.asked, p.mask⟩
      | [] => ⟨p.present && decide (p.silence + 1 < 3), min (p.silence + 1) 3, p.asked, p.mask⟩
    ∃ t : State, exec (.panelSlotEnd received) s = .next t ∧ (t.link.panel n).present = q.present ∧
      (t.link.panel n).silence = q.silence ∧ (t.link.panel n).mask = q.mask ∧
      (n.val < 7 → t.link.phase = .slots ∧ t.link.slot.val = n.val + 1 ∧ t.link.panel n = q ∧
        ∀ k, k ≠ n → t.link.panel k = s.link.panel k) ∧
      (n.val = 7 → q.asked = false → (∀ k, k ≠ n → (s.link.panel k).asked = false) →
        t.link.phase = .calling ∧ t.link.granted = none) ∧
      (n.val = 7 → ∀ k, k ≠ n → (s.link.panel k).asked = true → (∀ j, j < k → (s.link.panel j).asked = false) →
        t.link.phase = .granting ∧ t.link.lineEnable = true ∧ t.link.granted = some k ∧ t.link.sent = [0xC6, byte (k.val + 1)] ∧
          (t.link.panel k).asked = false) ∧
      (n.val = 7 → q.asked = true → (∀ j, j < n → (s.link.panel j).asked = false) →
        t.link.phase = .granting ∧ t.link.lineEnable = true ∧ t.link.granted = some n ∧ t.link.sent = [0xC6, 8] ∧
          (t.link.panel n).asked = false) ∧
      (q.present = p.present → t.attn = s.attn) ∧
      (q.present ≠ p.present → t.attn = { s.attn with flags := s.attn.flags ||| BitVec.ofNat 66 (2 ^ 64) }) ∧
      t.store = s.store ∧ t.heads = s.heads ∧ t.clock = s.clock ∧ t.line = s.line

/-- A frame from the granted panel, whose GRANT has been sent before it (R187, R190, R192; log entry 2): the body of a whole frame with
its address, a length from 1 to 60 that ends by the deadline and a good CRC is in progress; anything else is dropped and the link waits
for the deadline (the bytes that count are the model's reading, log entry 17). -/
def Obligations.PanelRequestFrameResult : Prop :=
  (∀ (n : PanelIx) (body : List Byte) (s : State), s.link.phase = .granting ∨ s.link.phase = .receiving → s.link.granted = some n →
    s.link.dropped = false → 1 ≤ body.length → body.length ≤ 60 →
    exec (.panelRequestFrame ((byte (n.val + 1) :: byte body.length :: body ++
        beBytes 2 (crc (byte (n.val + 1) :: byte body.length :: body)).toNat).map LineByte.whole)) s =
      .next { s with link := { s.link with phase := .answering, inProgress := some body } }) ∧
  (∀ (n : PanelIx) (received : List LineByte) (s : State), s.link.phase = .granting ∨ s.link.phase = .receiving →
    s.link.granted = some n → s.link.dropped = false → judgeFrame n received = none →
    exec (.panelRequestFrame received) s = .next { s with link := { s.link with phase := .receiving, dropped := true } }) ∧
  (∀ (received : List LineByte) (s : State),
    (s.link.phase ≠ .granting ∧ s.link.phase ≠ .receiving) ∨
      (s.link.phase = .receiving ∧ (s.link.granted = none ∨ s.link.dropped = true)) →
    exec (.panelRequestFrame received) s = .next s) ∧
  ∀ (n : PanelIx) (received : List LineByte) (body : List Byte), judgeFrame n received = some body →
    1 ≤ body.length ∧ body.length ≤ 60 ∧ ∃ rest, received = (byte (n.val + 1) :: byte body.length :: body ++
      beBytes 2 (crc (byte (n.val + 1) :: byte body.length :: body)).toNat).map LineByte.whole ++ rest

/-- The end of a grant (R188, R190, R192, R193): at the deadline, or when the response has been sent, the next GRANT goes to the lowest
panel of the pending set, with the line-enable driven; with none left the roll call begins anew. At any other time the two commands
change nothing. That a deadline is taken in GRANTING too, as the GRANT has then been sent before it, and where the sending ends is the
model's choice (log entry 2). The record of the bytes sent is the model's own (log entry 19). -/
def Obligations.PanelGrantsResult : Prop :=
  (∀ (s : State) (c : Instr) (l : PanelLink),
    (c = .panelFrameDeadline ∧ (s.link.phase = .granting ∨ s.link.phase = .receiving) ∧ l = s.link) ∨
      (c = .panelResponseSent ∧ s.link.phase = .answering ∧ s.link.unread.isSome = true ∧
        l = { s.link with unread := none }) →
    ((∀ n, (s.link.panel n).asked = false) →
      exec c s = .next { s with link := { l with phase := .calling, granted := none, dropped := false } }) ∧
    ∀ n, (s.link.panel n).asked = true → (∀ k, k < n → (s.link.panel k).asked = false) →
      exec c s = .next { s with link := { l with
        phase := .granting
        granted := some n
        dropped := false
        panels := s.link.panels.set n.val { s.link.panel n with asked := false } n.isLt
        sent := [0xC6, byte (n.val + 1)] } }) ∧
  (∀ s : State, s.link.phase ≠ .granting → s.link.phase ≠ .receiving → exec .panelFrameDeadline s = .next s) ∧
  (∀ s : State, s.link.phase ≠ .answering ∨ s.link.unread = none → exec .panelResponseSent s = .next s) ∧
  ∀ l : PanelLink, l.phase = .granting → l.lineEnable = true ∧ l.grantSent = { l with phase := .receiving }

/-! ## What every command keeps -/

/-- Every step keeps the store in order within its capacity (R3), the coil tag settings in range (R149), and the laws of every record:
its span list (R24, R25, R27, R28) and its counted lengths (R14, R23). -/
def Obligations.StepKeepsRecordLaws : Prop :=
  ∀ s t : State, s.StoreOk → s.CoilTagsOk → s.RecordsOk → step s = .next t → t.StoreOk ∧ t.CoilTagsOk ∧ t.RecordsOk

/-- Every step keeps the laws of every head: settings in their ranges (R77), the trim code within its limits (R115), a lay window's
latched settings and the spindle count in their ranges (R101, R102), the queue within its capacity and its orders in range (R149), the
settle count (R54) and the pitch fraction (R82). -/
def Obligations.StepKeepsHeadLaws : Prop :=
  ∀ s t : State, s.HeadsOk → step s = .next t → t.HeadsOk

/-- Every step keeps the bindings (R12): a head and a live record name each other or neither does, so that a record is bound to at most
one head in one role; it is MAKING, IN_USE or WINDING exactly while it is bound in the role tied to that state, at a head of a kind
that suits it, in READY or a running state; and it holds the state it was bound from exactly while it is bound as PRODUCT. -/
def Obligations.StepKeepsBindings : Prop :=
  ∀ s t : State, s.BindingsOk → step s = .next t → t.BindingsOk

/-- Every step keeps the coils of every rope (R30, R162): no WINDING or WOUND coil graded FIRST has a range that meets a span of its
source rope while the rope is live. Beside it every step keeps what that rests on: a coil that belongs to a rope belongs to a live one
that is MADE, IN_USE or SPENT, and a WINDING coil is the segment of its origin head, wound from the rope bound there, over the range
below its current end that was planned (R5, R12, R156). -/
def Obligations.StepKeepsCoilGrades : Prop :=
  ∀ s t : State, s.StoreOk → s.CoilTagsOk → s.RecordsOk → s.BindingsOk → s.CoilsOk → step s = .next t → t.CoilsOk

/-- The port takes the request that was sent (R33, R34, R181, R186): the body written from the tables for a well-formed request
command is read back as that command, with every field. -/
def Obligations.RequestBodyReadsBack : Prop :=
  ∀ (c : Instr) (p : Port), requestPort c = some p → c.wf = true → requestCommand p (requestBody c) = c

/-- The frame of work at a head. It leaves the queue, the clock, both ports, the coil tag prefix, the attention settings, every flag
already set, the head's settings and every other head as they were (R57, R77, R152, R167, R169, R171, R176, R189), but for a plan point
notified to another head (R5; the notice held until it is taken is the model's reading, log entry 23). And it leaves every record as it
was but those the head names, in a binding, a slot or its segment, and coils cut from a rope it names (R12). -/
def Obligations.HeadEventsKeepTheRest : Prop :=
  (∀ (c : Instr) (h : HeadIx) (s : State), c.eventAt = some h → ∃ t : State, exec c s = .next t ∧ s.Keeps h t) ∧
  ∀ (c : Instr) (h : HeadIx) (s : State), c.eventAt = some h → s.StoreOk → s.CoilTagsOk →
    ∃ t : State, exec c s = .next t ∧ s.LeavesRecords (s.names h) t

/-- The frame of a request that changes a head. It leaves every other head, but for a plan point notified to it as a coil leaves a full
store (R5, R70; held until it is taken, the model's reading, log entry 23), the clock, the ports but for the answer, the settings and the
flags already set as they were, and every record but those the head or the request names and coils cut from a rope so named (R12, R65,
R77, R167, R169, R171). -/
def Obligations.HeadRequestsKeepTheRest : Prop :=
  ∀ (c : Instr) (p : Port) (h : HeadIx) (s : State) (body : List Byte), c.headOperand = some h.val → s.StoreOk →
    s.CoilTagsOk → requestPort c = some p → s.Asks p c body →
    ∃ (t : State) (b : List Byte), exec c s = .next (t.respond p b) ∧ s.Keeps h t ∧
      s.LeavesRecords (fun n => s.names h n ∨ c.tagOperand = some n) t
end

