-- ==== Sys2Proof/Laws/Pieces.lean ====
section
/-! SUPPORT. Span lists and pieces: normalization and every holder operation keep the law of R24, R27 and R28. -/

namespace Sys2Proof.Machine

/-! ## Sets -/

@[simp] theorem KindSet.union_isEmpty (a b : KindSet) : (a.union b).isEmpty = (a.isEmpty && b.isEmpty) := by
  obtain ⟨a1, a2, a3, a4, a5, a6⟩ := a
  obtain ⟨b1, b2, b3, b4, b5, b6⟩ := b
  revert a1 a2 a3 a4 a5 a6 b1 b2 b3 b4 b5 b6
  simp only [KindSet.union, KindSet.isEmpty]
  intro a1 a2 a3 a4 a5 a6 b1 b2 b3 b4 b5 b6
  cases a1 <;> cases a2 <;> cases a3 <;> cases a4 <;> cases a5 <;> cases a6 <;> simp

@[simp] theorem KindSet.only_isEmpty (k : SpanKind) : (KindSet.only k).isEmpty = false := by cases k <;> rfl

@[simp] theorem HolderSet.union_isEmpty (a b : HolderSet) : (a.union b).isEmpty = (a.isEmpty && b.isEmpty) := by
  obtain ⟨a1, a2, a3, a4, a5, a6, a7, a8⟩ := a
  obtain ⟨b1, b2, b3, b4, b5, b6, b7, b8⟩ := b
  simp only [HolderSet.union, HolderSet.isEmpty]
  cases a1 <;> cases a2 <;> cases a3 <;> cases a4 <;> cases a5 <;> cases a6 <;> cases a7 <;> cases a8 <;> simp

@[simp] theorem HolderSet.add_isEmpty (s : HolderSet) (h : Holder) : (s.add h).isEmpty = false := by
  cases h with
  | feed n => fin_cases n <;> simp [HolderSet.add, HolderSet.put, HolderSet.isEmpty]
  | lay => simp [HolderSet.add, HolderSet.put, HolderSet.isEmpty]
  | flaw => simp [HolderSet.add, HolderSet.put, HolderSet.isEmpty]
  | guard => simp [HolderSet.add, HolderSet.put, HolderSet.isEmpty]
  | join => simp [HolderSet.add, HolderSet.put, HolderSet.isEmpty]

/-! ## Spans -/

variable {top : Nat} {n x y s : Span} {l : List Span}

/-- Two spans that do not meet are apart (R25). -/
theorem Span.apart_of_not_meets (hn : n.lo < n.hi) (hs : s.lo < s.hi) (h : n.meets s = false) :
    s.hi < n.lo ∨ n.hi < s.lo := by
  simp only [Span.meets, overlap, touch, Bool.or_eq_false_iff, decide_eq_false_iff_not] at h
  omega

theorem Span.unite_ok (hx : x.Ok top) (hy : y.Ok top) : (x.unite y).Ok top where
  nonempty := by
    have := hx.nonempty
    simp only [Span.unite]
    omega
  inside := by
    have := hx.inside
    have := hy.inside
    simp only [Span.unite]
    omega
  kinds := by simp [Span.unite, hx.kinds]
  openHolders := by simp [Span.unite, hx.openHolders, hy.openHolders]
  openTop := by
    have := hx.inside
    have := hy.inside
    intro e
    simp only [Span.unite, Bool.or_eq_true] at e ⊢
    rcases e with e | e
    · have := hx.openTop e
      omega
    · have := hy.openTop e
      omega

/-- A closed span with a kind, inside the piece. -/
theorem Span.closed_ok {lo hi : Nat} {k : KindSet} (h : lo < hi) (ht : hi ≤ top) (hk : k.isEmpty = false) :
    (Span.closed lo hi k).Ok top := ⟨h, ht, hk, rfl, by simp [Span.closed]⟩

/-! ## Insertion -/

theorem mem_insertSpan : x ∈ insertSpan n l ↔ x = n ∨ x ∈ l := by
  induction l with
  | nil => simp [insertSpan]
  | cons a l ih =>
    unfold insertSpan
    split
    · simp
    · simp only [List.mem_cons, ih]
      tauto

theorem insertSpan_length : (insertSpan n l).length = l.length + 1 := by
  induction l with
  | nil => rfl
  | cons a l ih =>
    unfold insertSpan
    split
    · rfl
    · simp [ih]

/-- Insertion keeps a list apart when the new span is apart from each of its spans. -/
theorem insertSpan_apart (hn : n.lo < n.hi) (hl : ∀ s ∈ l, s.lo < s.hi) (h : ∀ s ∈ l, s.hi < n.lo ∨ n.hi < s.lo)
    (p : l.Pairwise fun a b => a.hi < b.lo) : (insertSpan n l).Pairwise fun a b => a.hi < b.lo := by
  induction l with
  | nil => simp [insertSpan]
  | cons a l ih =>
    obtain ⟨pa, pl⟩ := List.pairwise_cons.mp p
    have ha := hl a (by simp)
    have da := h a (by simp)
    unfold insertSpan
    split
    · rename_i c
      refine List.pairwise_cons.mpr ⟨fun b hb => ?_, p⟩
      rcases List.mem_cons.mp hb with rfl | hb
      · omega
      · have := pa b hb
        omega
    · rename_i c
      refine List.pairwise_cons.mpr ⟨fun b hb => ?_, ih (fun s hs => hl s (by simp [hs])) (fun s hs => h s (by simp [hs])) pl⟩
      rcases mem_insertSpan.mp hb with rfl | hb
      · omega
      · exact pa b hb

/-! ## Gathering -/

/-- The gathered span begins at or below, and ends at or above, each of its parts. -/
theorem gather_bounds (l : List Span) (n : Span) :
    (l.foldl Span.unite n).lo ≤ n.lo ∧ n.hi ≤ (l.foldl Span.unite n).hi ∧
      ∀ s ∈ l, (l.foldl Span.unite n).lo ≤ s.lo ∧ s.hi ≤ (l.foldl Span.unite n).hi := by
  induction l generalizing n with
  | nil => simp
  | cons a l ih =>
    obtain ⟨h1, h2, h3⟩ := ih (n.unite a)
    simp only [Span.unite] at h1 h2 h3
    simp only [List.foldl_cons, List.mem_cons, forall_eq_or_imp, Span.unite]
    refine ⟨by omega, by omega, ⟨by omega, by omega⟩, h3⟩

/-- The gathered span's ends are ends of its parts. -/
theorem gather_above (l : List Span) (n : Span) (b : Nat) (hn : b < n.lo) (hl : ∀ s ∈ l, b < s.lo) :
    b < (l.foldl Span.unite n).lo := by
  induction l generalizing n with
  | nil => simpa
  | cons a l ih =>
    refine ih (n.unite a) ?_ fun s hs => hl s (by simp [hs])
    have := hl a (by simp)
    simp only [Span.unite]
    omega

theorem gather_below (l : List Span) (n : Span) (b : Nat) (hn : n.hi < b) (hl : ∀ s ∈ l, s.hi < b) :
    (l.foldl Span.unite n).hi < b := by
  induction l generalizing n with
  | nil => simpa
  | cons a l ih =>
    refine ih (n.unite a) ?_ fun s hs => hl s (by simp [hs])
    have := hl a (by simp)
    simp only [Span.unite]
    omega

theorem gather_ok (l : List Span) (n : Span) (hn : n.Ok top) (hl : ∀ s ∈ l, s.Ok top) : (l.foldl Span.unite n).Ok top := by
  induction l generalizing n with
  | nil => simpa
  | cons a l ih =>
    exact ih (n.unite a) (Span.unite_ok hn (hl a (by simp))) fun s hs => hl s (by simp [hs])

theorem gather_open (l : List Span) (n : Span) : (l.foldl Span.unite n).isOpen = (n.isOpen || l.any Span.isOpen) := by
  induction l generalizing n with
  | nil => simp
  | cons a l ih => simp [ih, Span.unite, Bool.or_assoc]

/-! ## Normalization -/

/-- Two spans of a list that is apart: one ends below the other. -/
theorem apart_of_mem (p : l.Pairwise fun a b => a.hi < b.lo) (hx : x ∈ l) (hy : y ∈ l) :
    x = y ∨ x.hi < y.lo ∨ y.hi < x.lo := by
  by_cases e : x = y
  · exact Or.inl e
  · refine Or.inr ?_
    induction l with
    | nil => simp at hx
    | cons a l ih =>
      obtain ⟨pa, pl⟩ := List.pairwise_cons.mp p
      rcases List.mem_cons.mp hx with rfl | hx' <;> rcases List.mem_cons.mp hy with rfl | hy'
      · exact absurd rfl e
      · exact Or.inl (pa y hy')
      · exact Or.inr (pa x hx')
      · exact ih pl hx' hy'

/-- A merge of `n` into the one span of the list that begins at `lo` keeps the list apart, when every span before it ends below
the union and every span after it begins above. -/
theorem uniteAt_apart {lo : Nat} (p : l.Pairwise fun a b => a.hi < b.lo)
    (hb : ∀ a ∈ l, ∀ s ∈ l, a.lo = lo → s.hi < a.lo → s.hi < (n.unite a).lo)
    (ha : ∀ a ∈ l, ∀ s ∈ l, a.lo = lo → a.hi < s.lo → (n.unite a).hi < s.lo) (hl : ∀ s ∈ l, s.lo < s.hi) :
    (uniteAt lo n l).Pairwise fun a b => a.hi < b.lo := by
  unfold uniteAt
  rw [List.pairwise_map]
  refine p.imp_of_mem fun {x y} hx hy hxy => ?_
  have := hl x hx
  have := hl y hy
  split <;> split
  · omega
  · exact ha x hx y hy ‹_› hxy
  · exact hb y hy x hx ‹_› hxy
  · exact hxy

/-- The last span of an apart list with a property has the greatest lo among those that have it. -/
theorem last_filter_le {q : Span → Bool} (p : l.Pairwise fun a b => a.hi < b.lo) (hl : ∀ s ∈ l, s.lo < s.hi)
    (h : (l.filter q).getLast? = some x) : x ∈ l ∧ q x = true ∧ ∀ s ∈ l, q s = true → s.lo ≤ x.lo := by
  have hm : x ∈ l.filter q := List.mem_of_getLast? h
  obtain ⟨hx, hq⟩ := List.mem_filter.mp hm
  refine ⟨hx, hq, fun s hs hqs => ?_⟩
  obtain ⟨l', e⟩ := List.getLast?_eq_some_iff.mp h
  have pf := p.filter q
  rw [e] at pf
  have hs' : s ∈ l' ++ [x] := e ▸ List.mem_filter.mpr ⟨hs, hqs⟩
  rcases List.mem_append.mp hs' with h1 | h1
  · have := (List.pairwise_append.mp pf).2.2 s h1 x (by simp)
    have := hl s hs
    omega
  · simp only [List.mem_singleton] at h1
    rw [h1]

/-- The first span of an apart list with a property has the least lo among those that have it. -/
theorem head_filter_le {q : Span → Bool} (p : l.Pairwise fun a b => a.hi < b.lo) (hl : ∀ s ∈ l, s.lo < s.hi)
    (h : (l.filter q).head? = some x) : x ∈ l ∧ q x = true ∧ ∀ s ∈ l, q s = true → x.lo ≤ s.lo := by
  have hm : x ∈ l.filter q := List.mem_of_head? h
  obtain ⟨hx, hq⟩ := List.mem_filter.mp hm
  refine ⟨hx, hq, fun s hs hqs => ?_⟩
  have pf := p.filter q
  have hs' : s ∈ l.filter q := List.mem_filter.mpr ⟨hs, hqs⟩
  cases e : l.filter q with
  | nil => rw [e] at h; simp at h
  | cons a m =>
    rw [e] at h pf hs'
    simp only [List.head?_cons, Option.some.injEq] at h
    subst h
    rcases List.mem_cons.mp hs' with rfl | h1
    · omega
    · have := (List.pairwise_cons.mp pf).1 s h1
      have := hl a hx
      omega

theorem uniteAt_ok {lo : Nat} (hn : n.Ok top) (hl : ∀ s ∈ l, s.Ok top) : ∀ s ∈ uniteAt lo n l, s.Ok top := by
  intro s hs
  obtain ⟨a, ha, rfl⟩ := List.mem_map.mp hs
  split
  · exact Span.unite_ok hn (hl a ha)
  · exact hl a ha

/-- Merge-nearest keeps the law of R24 (R26). -/
theorem mergeNearest_ok (hn : n.Ok top) (h : SpansOk top l) (hm : l.any n.meets = false) (hf : spanCap ≤ l.length) :
    SpansOk top (mergeNearest n l) := by
  have hne : ∀ s ∈ l, s.lo < s.hi := fun s hs => (h.spans s hs).nonempty
  have hap : ∀ s ∈ l, s.hi < n.lo ∨ n.hi < s.lo := fun s hs =>
    Span.apart_of_not_meets hn.nonempty (hne s hs) (by
      have := List.any_eq_false.mp hm s hs
      simpa using this)
  have hnn := hn.nonempty
  have low : ∀ a, (l.filter fun s => decide (s.lo < n.lo)).getLast? = some a → SpansOk top (uniteAt a.lo n l) := by
    intro a e
    obtain ⟨ha, hq, hmax⟩ := last_filter_le h.apart hne e
    simp only [decide_eq_true_eq] at hq hmax
    refine ⟨by simpa [uniteAt] using h.capacity, uniteAt_ok hn h.spans, uniteAt_apart h.apart ?_ ?_ hne⟩
    · intro b hb s hs e1 e2
      have := hap b hb
      have := hne b hb
      simp only [Span.unite]
      omega
    · intro b hb s hs e1 e2
      have := hmax s hs
      have := hap s hs
      have := hap b hb
      have := hne b hb
      have := hne s hs
      simp only [Span.unite]
      omega
  have high : ∀ a, (l.filter fun s => decide (n.lo < s.lo)).head? = some a → SpansOk top (uniteAt a.lo n l) := by
    intro a e
    obtain ⟨ha, hq, hmin⟩ := head_filter_le h.apart hne e
    simp only [decide_eq_true_eq] at hq hmin
    refine ⟨by simpa [uniteAt] using h.capacity, uniteAt_ok hn h.spans, uniteAt_apart h.apart ?_ ?_ hne⟩
    · intro b hb s hs e1 e2
      have := hmin s hs
      have := hap s hs
      have := hap b hb
      have := hne b hb
      have := hne s hs
      simp only [Span.unite]
      omega
    · intro b hb s hs e1 e2
      have := hap b hb
      have := hne b hb
      simp only [Span.unite]
      omega
  unfold mergeNearest
  split
  · rename_i a b ea eb
    split
    · exact low a ea
    · exact high b eb
  · rename_i a ea eb
    exact low a ea
  · rename_i b ea eb
    exact high b eb
  · rename_i ea eb
    exfalso
    rw [List.getLast?_eq_none_iff] at ea
    rw [List.head?_eq_none_iff] at eb
    cases l with
    | nil => simp [spanCap] at hf
    | cons s l =>
      have := hap s (by simp)
      have := hne s (by simp)
      have h1 := List.filter_eq_nil_iff.mp ea s (by simp)
      have h2 := List.filter_eq_nil_iff.mp eb s (by simp)
      simp only [decide_eq_true_eq] at h1 h2
      omega

/-- Normalization keeps the law of R24 (R25). -/
theorem normalize_ok (hn : n.Ok top) (h : SpansOk top l) : SpansOk top (normalize n l).1 := by
  have hne : ∀ s ∈ l, s.lo < s.hi := fun s hs => (h.spans s hs).nonempty
  unfold normalize
  split
  · rename_i c
    simp only [Bool.and_eq_true, Bool.not_eq_true', decide_eq_true_eq] at c
    exact mergeNearest_ok hn h c.1 c.2
  · rename_i c
    simp only [Bool.and_eq_true, Bool.not_eq_true', decide_eq_true_eq, not_and] at c
    have hg : ((l.filter n.meets).foldl Span.unite n).Ok top :=
      gather_ok _ _ hn fun s hs => h.spans s (List.mem_filter.mp hs).1
    have hsep : ∀ s ∈ l.filter (fun s => !n.meets s),
        s.hi < ((l.filter n.meets).foldl Span.unite n).lo ∨ ((l.filter n.meets).foldl Span.unite n).hi < s.lo := by
      intro s hs
      obtain ⟨hs, hm⟩ := List.mem_filter.mp hs
      have hm : n.meets s = false := by simpa using hm
      have hs' := hne s hs
      have key : ∀ x ∈ l.filter n.meets, s.hi < x.lo ∨ x.hi < s.lo := by
        intro x hx
        obtain ⟨hx, hxm⟩ := List.mem_filter.mp hx
        rcases apart_of_mem h.apart hx hs with rfl | e | e
        · rw [hm] at hxm; simp at hxm
        · exact Or.inr e
        · exact Or.inl e
      have meet : ∀ x ∈ l.filter n.meets, x.lo ≤ n.hi ∧ n.lo ≤ x.hi := by
        intro x hx
        obtain ⟨hx, hxm⟩ := List.mem_filter.mp hx
        have := hne x hx
        simp only [Span.meets, overlap, touch, Bool.or_eq_true, decide_eq_true_eq] at hxm
        have := hn.nonempty
        omega
      rcases Span.apart_of_not_meets hn.nonempty hs' hm with e | e
      · refine Or.inl (gather_above _ _ _ e fun x hx => ?_)
        have := key x hx
        have := meet x hx
        omega
      · refine Or.inr (gather_below _ _ _ e fun x hx => ?_)
        have := key x hx
        have := meet x hx
        omega
    refine ⟨?_, ?_, ?_⟩
    · rw [insertSpan_length]
      by_cases e : l.any n.meets = false
      · have := c e
        have := List.length_filter_le (fun s => !n.meets s) l
        have := h.capacity
        omega
      · have e : l.any n.meets = true := by simpa using e
        obtain ⟨x, hx, hxm⟩ := List.any_eq_true.mp e
        have : (l.filter fun s => !n.meets s).length < l.length :=
          List.length_filter_lt_length_iff_exists.mpr ⟨x, hx, by simp [hxm]⟩
        have := h.capacity
        omega
    · intro s hs
      rcases mem_insertSpan.mp hs with rfl | hs
      · exact hg
      · exact h.spans s (List.mem_filter.mp hs).1
    · exact insertSpan_apart hg.nonempty (fun s hs => hne s (List.mem_filter.mp hs).1) hsep (h.apart.filter _)

/-- A closed span normalized into a list without an open span leaves none. -/
theorem normalize_closed (hn : n.isOpen = false) (h : ∀ s ∈ l, s.isOpen = false) :
    ∀ s ∈ (normalize n l).1, s.isOpen = false := by
  have hu : ∀ lo, ∀ s ∈ uniteAt lo n l, s.isOpen = false := by
    intro lo s hs
    obtain ⟨a, ha, rfl⟩ := List.mem_map.mp hs
    split
    · simp [Span.unite, hn, h a ha]
    · exact h a ha
  intro s hs
  unfold normalize at hs
  split at hs
  · unfold mergeNearest at hs
    split at hs
    · split at hs
      · exact hu _ s hs
      · exact hu _ s hs
    · exact hu _ s hs
    · exact hu _ s hs
    · rcases mem_insertSpan.mp hs with rfl | hs
      · exact hn
      · exact h s hs
  · rcases mem_insertSpan.mp hs with rfl | hs
    · rw [gather_open, hn]
      simp only [Bool.false_or]
      rw [List.any_eq_false]
      intro x hx
      simp [h x (List.mem_filter.mp hx).1]
    · exact h s (List.mem_filter.mp hs).1

/-! ## Pieces -/

variable {p : Piece}

theorem Piece.openSpan_eq_none : p.openSpan = none ↔ ∀ s ∈ p.spans, s.isOpen = false := by
  simp [Piece.openSpan, List.find?_eq_none]

theorem Piece.openSpan_mem {o : Span} (h : p.openSpan = some o) : o ∈ p.spans ∧ o.isOpen = true :=
  ⟨List.mem_of_find?_eq_some h, by simpa using List.find?_some h⟩

/-- A span added by normalization keeps a piece, given that an open one meets no pending span. -/
theorem Piece.addSpan_ok (h : p.Ok) (hn : n.Ok p.made) (hp : n.isOpen = true → p.pending = none) :
    (p.addSpan n).1.Ok where
  list := normalize_ok hn h.list
  pending := by
    intro q hq
    have hq' : p.pending = some q := hq
    have k := h.pending q hq'
    have hno : n.isOpen = false := by
      by_contra e
      have := hp (by simpa using e)
      rw [this] at hq'
      simp at hq'
    exact ⟨k.atTop, k.kinds, k.holders,
      Piece.openSpan_eq_none.mpr (normalize_closed hno (Piece.openSpan_eq_none.mp k.alone))⟩

theorem Piece.addSpan_closed (h : p.Closed) (hn : n.isOpen = false) : (p.addSpan n).1.Closed :=
  ⟨Piece.openSpan_eq_none.mpr (normalize_closed hn (Piece.openSpan_eq_none.mp h.1)), h.2⟩

@[simp] theorem Piece.addSpan_made : (p.addSpan n).1.made = p.made := rfl

@[simp] theorem Piece.addSpan_pending : (p.addSpan n).1.pending = p.pending := rfl

@[simp] theorem Piece.mapOpen_made (f : Span → Span) : (p.mapOpen f).made = p.made := rfl

@[simp] theorem Piece.mapOpen_pending (f : Span → Span) : (p.mapOpen f).pending = p.pending := rfl

/-- Without an open span `mapOpen` changes nothing. -/
theorem Piece.mapOpen_of_none {f : Span → Span} (h : p.openSpan = none) : p.mapOpen f = p := by
  have e : p.spans.map (fun s => if s.isOpen then f s else s) = p.spans := by
    rw [List.map_congr_left (g := id)]
    · simp
    · intro s hs
      simp [Piece.openSpan_eq_none.mp h s hs]
  cases p
  simp_all [Piece.mapOpen]

/-- A change of the open span that keeps its bounds and its law keeps the list. -/
theorem Piece.mapOpen_spansOk {f : Span → Span} (h : SpansOk p.made p.spans)
    (hf : ∀ s, s.Ok p.made → s.isOpen = true → (f s).Ok p.made ∧ (f s).lo = s.lo ∧ (f s).hi = s.hi) :
    SpansOk p.made (p.mapOpen f).spans where
  capacity := by simpa [Piece.mapOpen] using h.capacity
  spans := by
    intro s hs
    obtain ⟨a, ha, rfl⟩ := List.mem_map.mp hs
    split
    · exact (hf a (h.spans a ha) ‹_›).1
    · exact h.spans a ha
  apart := by
    simp only [Piece.mapOpen]
    rw [List.pairwise_map]
    refine h.apart.imp_of_mem fun {x y} hx hy hxy => ?_
    split <;> split
    · rw [(hf x (h.spans x hx) ‹_›).2.2, (hf y (h.spans y hy) ‹_›).2.1]; exact hxy
    · rw [(hf x (h.spans x hx) ‹_›).2.2]; exact hxy
    · rw [(hf y (h.spans y hy) ‹_›).2.1]; exact hxy
    · exact hxy

/-- A holder added keeps the piece (R28). -/
theorem Piece.addHolder_ok {hd : Holder} {start : Nat} (h : p.Ok) : (p.addHolder hd start).1.Ok := by
  unfold Piece.addHolder
  dsimp only
  split
  · rename_i o eo
    have ho := Piece.openSpan_mem eo
    have hok := h.list.spans o ho.1
    split
    · refine ⟨Piece.mapOpen_spansOk h.list ?_, ?_⟩
      · intro s hs hopen
        refine ⟨⟨hs.nonempty, hs.inside, by simp [hs.kinds], ?_, fun _ => hs.openTop hopen⟩, rfl, rfl⟩
        simp [hopen]
      · intro q hq
        have := (h.pending q hq).alone
        rw [eo] at this
        simp at this
    · have hp : p.pending = none := by
        cases e : p.pending with
        | none => rfl
        | some q =>
          have := (h.pending q e).alone
          rw [eo] at this
          simp at this
      refine Piece.addSpan_ok h ⟨?_, le_refl _, by simp, by simp, fun _ => rfl⟩ fun _ => hp
      have := hok.nonempty
      have := hok.inside
      show start < p.made
      omega
  · rename_i eo
    split
    · rename_i q eq
      have k := h.pending q eq
      split
      · rename_i c
        have h' : Piece.Ok { p with pending := none } := ⟨h.list, by simp⟩
        exact Piece.addSpan_ok h' ⟨c, le_refl _, by simp, by simp, fun _ => rfl⟩ fun _ => rfl
      · refine ⟨h.list, fun q' e => ?_⟩
        simp only [Option.some.injEq] at e
        subst e
        exact ⟨k.atTop, by simp, by simp, k.alone⟩
    · rename_i eq
      split
      · rename_i c
        exact Piece.addSpan_ok h ⟨c, le_refl _, by simp, by simp, fun _ => rfl⟩ fun _ => eq
      · refine ⟨h.list, fun q' e => ?_⟩
        simp only [Option.some.injEq] at e
        subst e
        exact ⟨rfl, by simp, by simp, eo⟩

/-- A holder added leaves the made length. -/
@[simp] theorem Piece.addHolder_made {hd : Holder} {start : Nat} : (p.addHolder hd start).1.made = p.made := by
  unfold Piece.addHolder
  dsimp only
  repeat' split
  all_goals rfl

/-- A change of the open span that leaves closed spans alone keeps "no open span". -/
theorem Piece.mapOpen_none {f : Span → Span} (h : p.openSpan = none) : (p.mapOpen f).openSpan = none := by
  rw [Piece.mapOpen_of_none h]
  exact h

/-- A holder released keeps the piece (R29). -/
theorem Piece.releaseHolder_ok {hd : Holder} (h : p.Ok) : (p.releaseHolder hd).Ok := by
  refine ⟨Piece.mapOpen_spansOk h.list ?_, ?_⟩
  · intro s hs hopen
    unfold Span.settle
    split
    · rename_i c
      refine ⟨⟨hs.nonempty, hs.inside, hs.kinds, ?_, by simp⟩, rfl, rfl⟩
      simp only at c ⊢
      simp [c]
    · rename_i c
      refine ⟨⟨hs.nonempty, hs.inside, hs.kinds, ?_, fun _ => hs.openTop hopen⟩, rfl, rfl⟩
      simp only [Bool.not_eq_true] at c
      simp only at c ⊢
      simp [c, hopen]
  · intro q hq
    simp only [Piece.releaseHolder, Option.bind_eq_some_iff] at hq
    obtain ⟨q0, e0, hq⟩ := hq
    have k := h.pending q0 e0
    unfold Pending.settle at hq
    split at hq
    · simp at hq
    · rename_i c
      simp only [Option.some.injEq] at hq
      subst hq
      exact ⟨k.atTop, k.kinds, by simpa using c, Piece.mapOpen_none k.alone⟩

@[simp] theorem Piece.releaseHolder_made {hd : Holder} : (p.releaseHolder hd).made = p.made := rfl

/-- No holder released opens a span. -/
theorem Piece.releaseHolder_closed {hd : Holder} (h : p.Closed) : (p.releaseHolder hd).Closed := by
  refine ⟨Piece.mapOpen_none (f := fun s => Span.settle { s with holders := s.holders.drop hd }) h.1, ?_⟩
  simp [Piece.releaseHolder, h.2]

/-- A holder swapped keeps the piece (R29). -/
theorem Piece.swapHolder_ok {a b : Holder} (h : p.Ok) : (p.swapHolder a b).Ok := by
  refine ⟨Piece.mapOpen_spansOk h.list ?_, ?_⟩
  · intro s hs hopen
    exact ⟨⟨hs.nonempty, hs.inside, hs.kinds, by simp [hopen], fun _ => hs.openTop hopen⟩, rfl, rfl⟩
  · intro q hq
    simp only [Piece.swapHolder, Option.map_eq_some_iff] at hq
    obtain ⟨q0, e0, rfl⟩ := hq
    have k := h.pending q0 e0
    exact ⟨k.atTop, k.kinds, by simp, Piece.mapOpen_none k.alone⟩

@[simp] theorem Piece.swapHolder_made {a b : Holder} : (p.swapHolder a b).made = p.made := rfl

theorem Piece.swapHolder_closed {a b : Holder} (h : p.Closed) : (p.swapHolder a b).Closed := by
  refine ⟨Piece.mapOpen_none (f := fun s => { s with holders := (s.holders.drop a).add b }) h.1, ?_⟩
  simp [Piece.swapHolder, h.2]

/-- Every holder dropped keeps the piece and closes it (R18). -/
theorem Piece.dropHolders_ok (h : p.Ok) : p.dropHolders.Ok := by
  refine ⟨Piece.mapOpen_spansOk h.list ?_, by simp [Piece.dropHolders]⟩
  intro s hs hopen
  exact ⟨⟨hs.nonempty, hs.inside, hs.kinds, rfl, by simp⟩, rfl, rfl⟩

@[simp] theorem Piece.dropHolders_made : p.dropHolders.made = p.made := rfl

theorem Piece.dropHolders_closed : p.dropHolders.Closed := by
  refine ⟨Piece.openSpan_eq_none.mpr fun s hs => ?_, rfl⟩
  obtain ⟨a, ha, rfl⟩ := List.mem_map.mp hs
  split
  · rfl
  · rename_i c
    simpa using c

/-- An advance keeps the piece (R22, R28). -/
theorem Piece.advanceTo_ok {m : Nat} (h : p.Ok) (hm : p.made < m) : (p.advanceTo m).1.Ok := by
  have hl : SpansOk m (p.mapOpen fun s => { s with hi := m }).spans := by
    refine ⟨by simpa [Piece.mapOpen] using h.list.capacity, ?_, ?_⟩
    · intro s hs
      obtain ⟨a, ha, rfl⟩ := List.mem_map.mp hs
      have k := h.list.spans a ha
      have := k.nonempty
      have := k.inside
      split
      · refine ⟨?_, le_refl _, k.kinds, k.openHolders, fun _ => rfl⟩
        show a.lo < m
        omega
      · rename_i c
        exact ⟨k.nonempty, by omega, k.kinds, k.openHolders, fun e => absurd e (by simpa using c)⟩
    · simp only [Piece.mapOpen]
      rw [List.pairwise_map]
      refine h.list.apart.imp_of_mem fun {x y} hx hy hxy => ?_
      have kx := h.list.spans x hx
      have ky := h.list.spans y hy
      have := ky.nonempty
      have := ky.inside
      split
      · have := kx.openTop ‹_›
        split <;> (simp only; omega)
      · split <;> exact hxy
  unfold Piece.advanceTo
  dsimp only
  split
  · rename_i q e
    have e' : p.pending = some q := e
    have k := h.pending q e'
    refine Piece.addSpan_ok ⟨hl, by simp⟩ ⟨?_, le_refl _, k.kinds, ?_, fun _ => rfl⟩ fun _ => rfl
    · show q.pos < m
      rw [k.atTop]
      exact hm
    · simp [k.holders]
  · rename_i e
    have e' : p.pending = none := e
    refine ⟨hl, fun q hq => ?_⟩
    have hq' : p.pending = some q := hq
    rw [e'] at hq'
    simp at hq'

@[simp] theorem Piece.advanceTo_made {m : Nat} : (p.advanceTo m).1.made = m := by
  unfold Piece.advanceTo
  dsimp only
  split <;> rfl

theorem Piece.advanceTo_closed {m : Nat} (h : p.Closed) : (p.advanceTo m).1.Closed := by
  have e : (p.advanceTo m).1 = { p.mapOpen (fun s => { s with hi := m }) with made := m } := by
    unfold Piece.advanceTo
    simp [h.2]
  rw [e]
  exact ⟨Piece.mapOpen_none (f := fun s => { s with hi := m }) h.1, h.2⟩

end Sys2Proof.Machine
end

