-- ==== Sys2Proof/Laws/State.lean ====
section
/-! SUPPORT. The small lemmas of State: what each update leaves in each field, so that no proof unfolds a record update. -/

namespace Sys2Proof.Machine

variable (s : State)

/-! ## One head -/

@[simp] theorem State.updHead_pending (h : HeadIx) (f : Head → Head) : (s.updHead h f).pending = s.pending := rfl

@[simp] theorem State.updHead_store (h : HeadIx) (f : Head → Head) : (s.updHead h f).store = s.store := rfl

@[simp] theorem State.updHead_clock (h : HeadIx) (f : Head → Head) : (s.updHead h f).clock = s.clock := rfl

@[simp] theorem State.updHead_attn (h : HeadIx) (f : Head → Head) : (s.updHead h f).attn = s.attn := rfl

@[simp] theorem State.updHead_coilPrefix (h : HeadIx) (f : Head → Head) : (s.updHead h f).coilPrefix = s.coilPrefix := rfl

@[simp] theorem State.updHead_coilSerial (h : HeadIx) (f : Head → Head) : (s.updHead h f).coilSerial = s.coilSerial := rfl

@[simp] theorem State.updHead_line (h : HeadIx) (f : Head → Head) : (s.updHead h f).line = s.line := rfl

@[simp] theorem State.updHead_link (h : HeadIx) (f : Head → Head) : (s.updHead h f).link = s.link := rfl

@[simp] theorem State.updHead_freeCount (h : HeadIx) (f : Head → Head) : (s.updHead h f).freeCount = s.freeCount := rfl

@[simp] theorem State.updHead_head (h : HeadIx) (f : Head → Head) : (s.updHead h f).head h = f (s.head h) := by
  simp [State.updHead, State.head]

theorem State.updHead_head_ne {h k : HeadIx} (f : Head → Head) (hk : k ≠ h) : (s.updHead h f).head k = s.head k := by
  have : h.val ≠ k.val := fun e => hk (Fin.ext e.symm)
  simp [State.updHead, State.head, Vector.getElem_set_ne, this]

/-! ## One slot -/

@[simp] theorem State.updSlot_pending (h : HeadIx) (n : SlotIx) (f : FeedSlot → FeedSlot) : (s.updSlot h n f).pending = s.pending := rfl

@[simp] theorem State.updSlot_store (h : HeadIx) (n : SlotIx) (f : FeedSlot → FeedSlot) : (s.updSlot h n f).store = s.store := rfl

@[simp] theorem State.updSlot_clock (h : HeadIx) (n : SlotIx) (f : FeedSlot → FeedSlot) : (s.updSlot h n f).clock = s.clock := rfl

@[simp] theorem State.updSlot_attn (h : HeadIx) (n : SlotIx) (f : FeedSlot → FeedSlot) : (s.updSlot h n f).attn = s.attn := rfl

@[simp] theorem State.updSlot_coilPrefix (h : HeadIx) (n : SlotIx) (f : FeedSlot → FeedSlot) : (s.updSlot h n f).coilPrefix = s.coilPrefix := rfl

@[simp] theorem State.updSlot_coilSerial (h : HeadIx) (n : SlotIx) (f : FeedSlot → FeedSlot) : (s.updSlot h n f).coilSerial = s.coilSerial := rfl

@[simp] theorem State.updSlot_line (h : HeadIx) (n : SlotIx) (f : FeedSlot → FeedSlot) : (s.updSlot h n f).line = s.line := rfl

@[simp] theorem State.updSlot_link (h : HeadIx) (n : SlotIx) (f : FeedSlot → FeedSlot) : (s.updSlot h n f).link = s.link := rfl

@[simp] theorem State.updSlot_freeCount (h : HeadIx) (n : SlotIx) (f : FeedSlot → FeedSlot) : (s.updSlot h n f).freeCount = s.freeCount := rfl

@[simp] theorem State.updSlot_head (h : HeadIx) (n : SlotIx) (f : FeedSlot → FeedSlot) :
    (s.updSlot h n f).head h = (s.head h).updSlot n f := by
  simp [State.updSlot]

theorem State.updSlot_head_ne {h k : HeadIx} (n : SlotIx) (f : FeedSlot → FeedSlot) (hk : k ≠ h) :
    (s.updSlot h n f).head k = s.head k := s.updHead_head_ne _ hk

@[simp] theorem Head.updSlot_slot (x : Head) (n : SlotIx) (f : FeedSlot → FeedSlot) :
    (x.updSlot n f).slot n = f (x.slot n) := by
  simp [Head.updSlot, Head.slot]

theorem Head.updSlot_slot_ne (x : Head) {n k : SlotIx} (f : FeedSlot → FeedSlot) (hk : k ≠ n) :
    (x.updSlot n f).slot k = x.slot k := by
  have : n.val ≠ k.val := fun e => hk (Fin.ext e.symm)
  simp [Head.updSlot, Head.slot, Vector.getElem_set_ne, this]

/-! ## One record -/

@[simp] theorem State.updRec_pending (t : Nat) (f : Record → Record) : (s.updRec t f).pending = s.pending := rfl

@[simp] theorem State.updRec_store (t : Nat) (f : Record → Record) : (s.updRec t f).store = s.store.map fun r => if r.tag = t then f r else r := rfl

@[simp] theorem State.updRec_heads (t : Nat) (f : Record → Record) : (s.updRec t f).heads = s.heads := rfl

@[simp] theorem State.updRec_clock (t : Nat) (f : Record → Record) : (s.updRec t f).clock = s.clock := rfl

@[simp] theorem State.updRec_attn (t : Nat) (f : Record → Record) : (s.updRec t f).attn = s.attn := rfl

@[simp] theorem State.updRec_coilPrefix (t : Nat) (f : Record → Record) : (s.updRec t f).coilPrefix = s.coilPrefix := rfl

@[simp] theorem State.updRec_coilSerial (t : Nat) (f : Record → Record) : (s.updRec t f).coilSerial = s.coilSerial := rfl

@[simp] theorem State.updRec_line (t : Nat) (f : Record → Record) : (s.updRec t f).line = s.line := rfl

@[simp] theorem State.updRec_link (t : Nat) (f : Record → Record) : (s.updRec t f).link = s.link := rfl

@[simp] theorem State.updRec_freeCount (t : Nat) (f : Record → Record) : (s.updRec t f).freeCount = s.freeCount := rfl

@[simp] theorem State.updRec_head (t : Nat) (f : Record → Record) (h : HeadIx) : (s.updRec t f).head h = s.head h := rfl

/-! ## The attention unit -/

@[simp] theorem State.updAttn_pending (f : Attention → Attention) : (s.updAttn f).pending = s.pending := rfl

@[simp] theorem State.updAttn_store (f : Attention → Attention) : (s.updAttn f).store = s.store := rfl

@[simp] theorem State.updAttn_heads (f : Attention → Attention) : (s.updAttn f).heads = s.heads := rfl

@[simp] theorem State.updAttn_clock (f : Attention → Attention) : (s.updAttn f).clock = s.clock := rfl

@[simp] theorem State.updAttn_attn (f : Attention → Attention) : (s.updAttn f).attn = f s.attn := rfl

@[simp] theorem State.updAttn_coilPrefix (f : Attention → Attention) : (s.updAttn f).coilPrefix = s.coilPrefix := rfl

@[simp] theorem State.updAttn_coilSerial (f : Attention → Attention) : (s.updAttn f).coilSerial = s.coilSerial := rfl

@[simp] theorem State.updAttn_line (f : Attention → Attention) : (s.updAttn f).line = s.line := rfl

@[simp] theorem State.updAttn_link (f : Attention → Attention) : (s.updAttn f).link = s.link := rfl

@[simp] theorem State.updAttn_freeCount (f : Attention → Attention) : (s.updAttn f).freeCount = s.freeCount := rfl

@[simp] theorem State.updAttn_head (f : Attention → Attention) (h : HeadIx) : (s.updAttn f).head h = s.head h := rfl

@[simp] theorem State.updAttn_find (f : Attention → Attention) (t : Nat) : (s.updAttn f).find t = s.find t := rfl

/-! ## The operation raise -/

@[simp] theorem State.raise_pending (h : HeadIx) (f : HeadFlag) : (s.raise h f).pending = s.pending := rfl

@[simp] theorem State.raise_store (h : HeadIx) (f : HeadFlag) : (s.raise h f).store = s.store := rfl

@[simp] theorem State.raise_heads (h : HeadIx) (f : HeadFlag) : (s.raise h f).heads = s.heads := rfl

@[simp] theorem State.raise_clock (h : HeadIx) (f : HeadFlag) : (s.raise h f).clock = s.clock := rfl

@[simp] theorem State.raise_coilPrefix (h : HeadIx) (f : HeadFlag) : (s.raise h f).coilPrefix = s.coilPrefix := rfl

@[simp] theorem State.raise_coilSerial (h : HeadIx) (f : HeadFlag) : (s.raise h f).coilSerial = s.coilSerial := rfl

@[simp] theorem State.raise_line (h : HeadIx) (f : HeadFlag) : (s.raise h f).line = s.line := rfl

@[simp] theorem State.raise_link (h : HeadIx) (f : HeadFlag) : (s.raise h f).link = s.link := rfl

@[simp] theorem State.raise_freeCount (h : HeadIx) (f : HeadFlag) : (s.raise h f).freeCount = s.freeCount := rfl

@[simp] theorem State.raise_head (h : HeadIx) (f : HeadFlag) (k : HeadIx) : (s.raise h f).head k = s.head k := rfl

@[simp] theorem State.raise_find (h : HeadIx) (f : HeadFlag) (t : Nat) : (s.raise h f).find t = s.find t := rfl

/-! ## The operation raiseAlarm -/

@[simp] theorem State.raiseAlarm_pending (h : HeadIx) (x : Alarm) : (s.raiseAlarm h x).pending = s.pending := rfl

@[simp] theorem State.raiseAlarm_store (h : HeadIx) (x : Alarm) : (s.raiseAlarm h x).store = s.store := rfl

@[simp] theorem State.raiseAlarm_heads (h : HeadIx) (x : Alarm) : (s.raiseAlarm h x).heads = s.heads := rfl

@[simp] theorem State.raiseAlarm_clock (h : HeadIx) (x : Alarm) : (s.raiseAlarm h x).clock = s.clock := rfl

@[simp] theorem State.raiseAlarm_coilPrefix (h : HeadIx) (x : Alarm) : (s.raiseAlarm h x).coilPrefix = s.coilPrefix := rfl

@[simp] theorem State.raiseAlarm_coilSerial (h : HeadIx) (x : Alarm) : (s.raiseAlarm h x).coilSerial = s.coilSerial := rfl

@[simp] theorem State.raiseAlarm_line (h : HeadIx) (x : Alarm) : (s.raiseAlarm h x).line = s.line := rfl

@[simp] theorem State.raiseAlarm_link (h : HeadIx) (x : Alarm) : (s.raiseAlarm h x).link = s.link := rfl

@[simp] theorem State.raiseAlarm_freeCount (h : HeadIx) (x : Alarm) : (s.raiseAlarm h x).freeCount = s.freeCount := rfl

@[simp] theorem State.raiseAlarm_head (h : HeadIx) (x : Alarm) (k : HeadIx) : (s.raiseAlarm h x).head k = s.head k := rfl

@[simp] theorem State.raiseAlarm_find (h : HeadIx) (x : Alarm) (t : Nat) : (s.raiseAlarm h x).find t = s.find t := rfl

/-! ## The operation raiseStore -/

@[simp] theorem State.raiseStore_pending (f : StoreCauses → StoreCauses) : (s.raiseStore f).pending = s.pending := rfl

@[simp] theorem State.raiseStore_store (f : StoreCauses → StoreCauses) : (s.raiseStore f).store = s.store := rfl

@[simp] theorem State.raiseStore_heads (f : StoreCauses → StoreCauses) : (s.raiseStore f).heads = s.heads := rfl

@[simp] theorem State.raiseStore_clock (f : StoreCauses → StoreCauses) : (s.raiseStore f).clock = s.clock := rfl

@[simp] theorem State.raiseStore_coilPrefix (f : StoreCauses → StoreCauses) : (s.raiseStore f).coilPrefix = s.coilPrefix := rfl

@[simp] theorem State.raiseStore_coilSerial (f : StoreCauses → StoreCauses) : (s.raiseStore f).coilSerial = s.coilSerial := rfl

@[simp] theorem State.raiseStore_line (f : StoreCauses → StoreCauses) : (s.raiseStore f).line = s.line := rfl

@[simp] theorem State.raiseStore_link (f : StoreCauses → StoreCauses) : (s.raiseStore f).link = s.link := rfl

@[simp] theorem State.raiseStore_freeCount (f : StoreCauses → StoreCauses) : (s.raiseStore f).freeCount = s.freeCount := rfl

@[simp] theorem State.raiseStore_head (f : StoreCauses → StoreCauses) (k : HeadIx) : (s.raiseStore f).head k = s.head k := rfl

@[simp] theorem State.raiseStore_find (f : StoreCauses → StoreCauses) (t : Nat) : (s.raiseStore f).find t = s.find t := rfl

/-! ## The panel link -/

@[simp] theorem State.updLink_pending (f : PanelLink → PanelLink) : (s.updLink f).pending = s.pending := rfl

@[simp] theorem State.updLink_store (f : PanelLink → PanelLink) : (s.updLink f).store = s.store := rfl

@[simp] theorem State.updLink_heads (f : PanelLink → PanelLink) : (s.updLink f).heads = s.heads := rfl

@[simp] theorem State.updLink_clock (f : PanelLink → PanelLink) : (s.updLink f).clock = s.clock := rfl

@[simp] theorem State.updLink_attn (f : PanelLink → PanelLink) : (s.updLink f).attn = s.attn := rfl

@[simp] theorem State.updLink_coilPrefix (f : PanelLink → PanelLink) : (s.updLink f).coilPrefix = s.coilPrefix := rfl

@[simp] theorem State.updLink_coilSerial (f : PanelLink → PanelLink) : (s.updLink f).coilSerial = s.coilSerial := rfl

@[simp] theorem State.updLink_line (f : PanelLink → PanelLink) : (s.updLink f).line = s.line := rfl

@[simp] theorem State.updLink_link (f : PanelLink → PanelLink) : (s.updLink f).link = f s.link := rfl

@[simp] theorem State.updLink_freeCount (f : PanelLink → PanelLink) : (s.updLink f).freeCount = s.freeCount := rfl

/-! ## The queue -/

@[simp] theorem State.withQueue_pending (q : List Instr) : (s.withQueue q).pending = q := rfl

@[simp] theorem State.withQueue_store (q : List Instr) : (s.withQueue q).store = s.store := rfl

@[simp] theorem State.withQueue_heads (q : List Instr) : (s.withQueue q).heads = s.heads := rfl

@[simp] theorem State.withQueue_clock (q : List Instr) : (s.withQueue q).clock = s.clock := rfl

@[simp] theorem State.withQueue_attn (q : List Instr) : (s.withQueue q).attn = s.attn := rfl

@[simp] theorem State.withQueue_coilPrefix (q : List Instr) : (s.withQueue q).coilPrefix = s.coilPrefix := rfl

@[simp] theorem State.withQueue_coilSerial (q : List Instr) : (s.withQueue q).coilSerial = s.coilSerial := rfl

@[simp] theorem State.withQueue_line (q : List Instr) : (s.withQueue q).line = s.line := rfl

@[simp] theorem State.withQueue_link (q : List Instr) : (s.withQueue q).link = s.link := rfl

@[simp] theorem State.withQueue_freeCount (q : List Instr) : (s.withQueue q).freeCount = s.freeCount := rfl

/-! ## A frame at the line computer port -/

@[simp] theorem State.spiFrame_pending (e : FrameEdges) (l : List Byte) : (s.spiFrame e l).pending = s.pending := rfl

@[simp] theorem State.spiFrame_store (e : FrameEdges) (l : List Byte) : (s.spiFrame e l).store = s.store := rfl

@[simp] theorem State.spiFrame_heads (e : FrameEdges) (l : List Byte) : (s.spiFrame e l).heads = s.heads := rfl

@[simp] theorem State.spiFrame_clock (e : FrameEdges) (l : List Byte) : (s.spiFrame e l).clock = s.clock := rfl

@[simp] theorem State.spiFrame_attn (e : FrameEdges) (l : List Byte) : (s.spiFrame e l).attn = s.attn := rfl

@[simp] theorem State.spiFrame_coilPrefix (e : FrameEdges) (l : List Byte) : (s.spiFrame e l).coilPrefix = s.coilPrefix := rfl

@[simp] theorem State.spiFrame_coilSerial (e : FrameEdges) (l : List Byte) : (s.spiFrame e l).coilSerial = s.coilSerial := rfl

@[simp] theorem State.spiFrame_line (e : FrameEdges) (l : List Byte) : (s.spiFrame e l).line = s.line.frame e l := rfl

@[simp] theorem State.spiFrame_link (e : FrameEdges) (l : List Byte) : (s.spiFrame e l).link = s.link := rfl

@[simp] theorem State.spiFrame_freeCount (e : FrameEdges) (l : List Byte) : (s.spiFrame e l).freeCount = s.freeCount := rfl

/-! ## A step with nothing to do -/

@[simp] theorem State.idle_pending : s.idle.pending = s.pending := rfl

@[simp] theorem State.idle_store : s.idle.store = s.store := rfl

@[simp] theorem State.idle_heads : s.idle.heads = s.heads := rfl

@[simp] theorem State.idle_clock : s.idle.clock = s.clock := rfl

@[simp] theorem State.idle_attn : s.idle.attn = s.attn := rfl

@[simp] theorem State.idle_coilPrefix : s.idle.coilPrefix = s.coilPrefix := rfl

@[simp] theorem State.idle_coilSerial : s.idle.coilSerial = s.coilSerial := rfl

@[simp] theorem State.idle_line : s.idle.line = s.line := rfl

@[simp] theorem State.idle_freeCount : s.idle.freeCount = s.freeCount := rfl

@[simp] theorem State.idle_link : s.idle.link = s.link.grantSent := rfl

@[simp] theorem State.idle_head (h : HeadIx) : s.idle.head h = s.head h := rfl

@[simp] theorem State.idle_find (t : Nat) : s.idle.find t = s.find t := rfl

/-! ## Whole changes -/

@[simp] theorem State.commit_pending (b : State) : (b.commit s).pending = s.pending := rfl

@[simp] theorem State.commit_heads (b : State) : (b.commit s).heads = s.heads := rfl

@[simp] theorem State.commit_clock (b : State) : (b.commit s).clock = s.clock := rfl

@[simp] theorem State.commit_attn (b : State) : (b.commit s).attn = s.attn := rfl

@[simp] theorem State.commit_coilPrefix (b : State) : (b.commit s).coilPrefix = s.coilPrefix := rfl

@[simp] theorem State.commit_coilSerial (b : State) : (b.commit s).coilSerial = s.coilSerial := rfl

@[simp] theorem State.commit_line (b : State) : (b.commit s).line = s.line := rfl

@[simp] theorem State.commit_link (b : State) : (b.commit s).link = s.link := rfl

@[simp] theorem State.commit_freeCount (b : State) : (b.commit s).freeCount = s.freeCount := rfl

@[simp] theorem State.commit_head (b : State) (h : HeadIx) : (b.commit s).head h = s.head h := rfl

/-! ## Finding a head again -/

@[simp] theorem State.updHead_find (h : HeadIx) (f : Head → Head) (t : Nat) : (s.updHead h f).find t = s.find t := rfl

@[simp] theorem State.updSlot_find (h : HeadIx) (n : SlotIx) (f : FeedSlot → FeedSlot) (t : Nat) :
    (s.updSlot h n f).find t = s.find t := rfl

/-- A state is its fields. -/
theorem State.ext_fields {s t : State} (h1 : s.pending = t.pending) (h2 : s.store = t.store) (h3 : s.heads = t.heads)
    (h4 : s.clock = t.clock) (h5 : s.attn = t.attn) (h6 : s.coilPrefix = t.coilPrefix) (h7 : s.coilSerial = t.coilSerial)
    (h8 : s.line = t.line) (h9 : s.link = t.link) (h10 : s.freeCount = t.freeCount) : s = t := by
  cases s; cases t; simp_all

end Sys2Proof.Machine
end

