-- ==== Sys2Proof/Laws/Tags.lean ====
section
/-! SUPPORT. The order and the tags of the record store (R3): for each shared operation, the one lemma that says it keeps them. -/

namespace Sys2Proof.Machine

variable {h : HeadIx} {s t u : State}

/-! ## Finding in a store in order -/

theorem State.find_mem {n : Nat} {r : Record} (e : s.find n = some r) : r ∈ s.store ∧ r.tag = n :=
  ⟨List.mem_of_find?_eq_some e, by simpa using List.find?_some e⟩

theorem Ascending.find_of_mem {l : List Record} (p : Ascending l) {r : Record} (hr : r ∈ l) :
    l.find? (fun x => x.tag == r.tag) = some r := by
  induction l with
  | nil => cases hr
  | cons a l ih =>
    rw [Ascending, List.pairwise_cons] at p
    rcases List.mem_cons.mp hr with rfl | hm
    · simp
    · have : a.tag ≠ r.tag := Nat.ne_of_lt (p.1 r hm)
      simp [this, ih p.2 hm]

theorem State.StoreOk.find_of_mem (S : s.StoreOk) {r : Record} (hr : r ∈ s.store) : s.find r.tag = some r :=
  S.ascending.find_of_mem hr

theorem State.StoreOk.find_iff (S : s.StoreOk) {n : Nat} {r : Record} : s.find n = some r ↔ r ∈ s.store ∧ r.tag = n :=
  ⟨State.find_mem, fun e => e.2 ▸ S.find_of_mem e.1⟩

theorem State.find_updRec {n : Nat} {f : Record → Record} (hf : ∀ r, (f r).tag = r.tag) :
    (s.updRec n f).find n = (s.find n).map f := by
  unfold State.find State.updRec
  dsimp only
  induction s.store with
  | nil => rfl
  | cons a l ih => by_cases e : a.tag = n <;> simp [e, hf, ih]

theorem State.find_updRec_ne {n k : Nat} {f : Record → Record} (hf : ∀ r, (f r).tag = r.tag) (hk : k ≠ n) :
    (s.updRec n f).find k = s.find k := by
  unfold State.find State.updRec
  dsimp only
  induction s.store with
  | nil => rfl
  | cons a l ih =>
    by_cases e : a.tag = n
    · subst e; simp [hf, hk.symm, ih]
    · by_cases e' : a.tag = k <;> simp [e, e', ih]
      subst e'; simp [e]

/-! ## Operations that leave the tags as they are -/

/-- Same tags in the same order. -/
theorem State.StoreOk.of_tags (S : s.StoreOk) (e : t.store.map Record.tag = s.store.map Record.tag) : t.StoreOk := by
  have hp : ∀ l : List Record, Ascending l ↔ (l.map Record.tag).Pairwise (· < ·) := fun l => by
    rw [Ascending, List.pairwise_map]
  refine ⟨?_, ?_, ?_⟩
  · rw [hp, e, ← hp]; exact S.ascending
  · rw [← List.length_map (f := Record.tag), e, List.length_map]; exact S.capacity
  · intro r hr
    have : r.tag ∈ s.store.map Record.tag := e ▸ List.mem_map_of_mem hr
    obtain ⟨x, hx, hxe⟩ := List.mem_map.mp this
    exact hxe ▸ S.tags x hx

theorem State.updRec_tags {n : Nat} {f : Record → Record} (hf : ∀ r, (f r).tag = r.tag) :
    (t.updRec n f).store.map Record.tag = t.store.map Record.tag := by
  simp only [State.updRec_store, List.map_map]
  refine List.map_congr_left fun r _ => ?_
  dsimp only [Function.comp]
  split
  · exact hf r
  · rfl

/-- The store keeps its order and the coil tag settings their ranges. -/
structure State.TagsOk (s : State) : Prop where
  store : s.StoreOk
  coils : s.CoilTagsOk

theorem State.TagsOk.of_eq (T : t.TagsOk) (e : u.store.map Record.tag = t.store.map Record.tag)
    (e1 : u.coilPrefix = t.coilPrefix) (e2 : u.coilSerial = t.coilSerial) : u.TagsOk :=
  ⟨T.store.of_tags e, ⟨e1 ▸ T.coils.prefixRange, e2 ▸ T.coils.serialRange⟩⟩

@[simp] theorem State.updHead_tagsOk {k : HeadIx} {f : Head → Head} (T : t.TagsOk) : (t.updHead k f).TagsOk :=
  T.of_eq rfl rfl rfl

@[simp] theorem State.updSlot_tagsOk {k : HeadIx} {n : SlotIx} {f : FeedSlot → FeedSlot} (T : t.TagsOk) :
    (t.updSlot k n f).TagsOk := T.of_eq rfl rfl rfl

@[simp] theorem State.updAttn_tagsOk {f : Attention → Attention} (T : t.TagsOk) : (t.updAttn f).TagsOk :=
  T.of_eq rfl rfl rfl

@[simp] theorem State.updLink_tagsOk {f : PanelLink → PanelLink} (T : t.TagsOk) : (t.updLink f).TagsOk :=
  T.of_eq rfl rfl rfl

@[simp] theorem State.raise_tagsOk {k : HeadIx} {f : HeadFlag} (T : t.TagsOk) : (t.raise k f).TagsOk :=
  T.of_eq rfl rfl rfl

@[simp] theorem State.raiseAlarm_tagsOk {k : HeadIx} {x : Alarm} (T : t.TagsOk) : (t.raiseAlarm k x).TagsOk :=
  T.of_eq rfl rfl rfl

@[simp] theorem State.raiseStore_tagsOk {f : StoreCauses → StoreCauses} (T : t.TagsOk) : (t.raiseStore f).TagsOk :=
  T.of_eq rfl rfl rfl

@[simp] theorem State.raiseAt_tagsOk {b : Option (HeadIx × Role)} {x : Alarm} (T : t.TagsOk) : (t.raiseAt b x).TagsOk := by
  unfold State.raiseAt
  split <;> simp (maxDischargeDepth := 20) [T]

@[simp] theorem State.updRec_tagsOk {n : Nat} {f : Record → Record} (hf : ∀ r, (f r).tag = r.tag) (T : t.TagsOk) :
    (t.updRec n f).TagsOk := T.of_eq (State.updRec_tags hf) rfl rfl

theorem Record.stepMark_tag (now : Seconds) (a b : Record) : (Record.stepMark now a b).tag = b.tag := by
  unfold Record.stepMark
  split <;> rfl

@[simp] theorem State.commit_tagsOk {b : State} (T : t.TagsOk) : (b.commit t).TagsOk := by
  refine T.of_eq ?_ rfl rfl
  unfold State.commit
  simp only [List.map_map]
  refine List.map_congr_left fun r _ => ?_
  dsimp only [Function.comp]
  split
  · exact Record.stepMark_tag _ _ _
  · rfl

/-- A whole change keeps the store's order when the change does. -/
theorem State.change_tagsOk {f : State → State} (T : (f t).TagsOk) : (t.change f).TagsOk := State.commit_tagsOk T

/-- A fold keeps the order when each of its steps does. -/
theorem State.foldl_tagsOk {α : Type} {f : State → α → State} (hf : ∀ t a, t.TagsOk → (f t a).TagsOk) (l : List α)
    (T : t.TagsOk) : (l.foldl f t).TagsOk := by
  induction l generalizing t with
  | nil => exact T
  | cons a l ih => exact ih (hf t a T)

/-! ## Tags of changed records -/

@[simp] theorem Record.withPiece_tag (p : Piece) (r : Record) : (r.withPiece p).tag = r.tag := by
  cases r; rfl

@[simp] theorem Record.closeSources_tag (w : SlotIx → Bool) (n : Nat) (r : Record) : (r.closeSources w n).tag = r.tag := by
  cases r; rfl

@[simp] theorem Record.appendSource_tag (e : SourceEntry) (r : Record) : (r.appendSource e).tag = r.tag := by
  cases r; rfl

@[simp] theorem Record.bindAs_tag (st : RecordState) (k : HeadIx) (ro : Role) (r : Record) : (r.bindAs st k ro).tag = r.tag := by
  cases r; rfl

@[simp] theorem Record.onStrand_tag (f : StrandBody → StrandBody) (r : Record) : (r.onStrand f).tag = r.tag := by
  unfold Record.onStrand
  split <;> rfl

@[simp] theorem Record.onRope_tag (f : RopeBody → RopeBody) (r : Record) : (r.onRope f).tag = r.tag := by
  unfold Record.onRope
  split <;> rfl

@[simp] theorem Record.onPanel_tag (f : PanelBody → PanelBody) (r : Record) : (r.onPanel f).tag = r.tag := by
  unfold Record.onPanel
  split <;> rfl

@[simp] theorem Record.onCoil_tag (f : CoilBody → CoilBody) (r : Record) : (r.onCoil f).tag = r.tag := by
  unfold Record.onCoil
  split <;> rfl

@[simp] theorem Record.leaveMaking_tag (r : Record) : r.leaveMaking.tag = r.tag := by
  unfold Record.leaveMaking
  split <;> simp

@[simp] theorem Record.unbindTo_tag (st : RecordState) (r : Record) : (r.unbindTo st).tag = r.tag := by
  unfold Record.unbindTo
  dsimp only
  split <;> simp

@[simp] theorem Record.windTo_tag (w : CoilBody) (r : Record) : (r.windTo w).tag = r.tag := by
  simp [Record.windTo]

@[simp] theorem Record.interrupt_tag (r : Record) : r.interrupt.tag = r.tag := by
  simp [Record.interrupt]

@[simp] theorem Record.fresh_tag (n : Nat) (st : RecordState) (now : Seconds) (b : Body) :
    (Record.fresh n st now b).tag = n := rfl

/-! ## Entering and leaving -/

theorem mem_insertRecord {n x : Record} {l : List Record} : x ∈ insertRecord n l ↔ x = n ∨ x ∈ l := by
  induction l with
  | nil => simp [insertRecord]
  | cons a l ih =>
    unfold insertRecord
    split
    · simp
    · simp [ih, or_left_comm]

theorem insertRecord_length {n : Record} {l : List Record} : (insertRecord n l).length = l.length + 1 := by
  induction l with
  | nil => rfl
  | cons a l ih =>
    unfold insertRecord
    split <;> simp_all

theorem insertRecord_ascending {n : Record} {l : List Record} (p : Ascending l) (hn : ∀ r ∈ l, r.tag ≠ n.tag) :
    Ascending (insertRecord n l) := by
  induction l with
  | nil => simp [insertRecord, Ascending]
  | cons a l ih =>
    have q := List.pairwise_cons.mp p
    unfold insertRecord
    split
    · rename_i e
      refine List.pairwise_cons.mpr ⟨fun r hr => ?_, p⟩
      rcases List.mem_cons.mp hr with rfl | hr
      · exact e
      · exact Nat.lt_trans e (q.1 r hr)
    · rename_i e
      have ha := hn a (by simp)
      refine List.pairwise_cons.mpr ⟨fun r hr => ?_, ih q.2 fun r hr => hn r (List.mem_cons_of_mem _ hr)⟩
      rcases mem_insertRecord.mp hr with rfl | hr
      · omega
      · exact q.1 r hr

theorem State.live_eq_false {n : Nat} : s.live n = false ↔ ∀ r ∈ s.store, r.tag ≠ n := by
  simp [State.live, State.find]

theorem State.enter_store (s : State) (r : Record) : (s.enter r).store = insertRecord r s.store := by
  unfold State.enter
  dsimp only
  split <;> rfl

theorem State.enter_tagsOk {r : Record} (T : t.TagsOk) (hc : t.store.length < storeCap) (hl : t.live r.tag = false)
    (hr : 1 ≤ r.tag ∧ r.tag < tagTop) : (t.enter r).TagsOk := by
  have e : { t with store := insertRecord r t.store }.TagsOk := by
    refine ⟨⟨insertRecord_ascending T.store.ascending (State.live_eq_false.mp hl), ?_, fun x hx => ?_⟩,
      ⟨T.coils.prefixRange, T.coils.serialRange⟩⟩
    · dsimp only
      rw [insertRecord_length]
      omega
    · rcases mem_insertRecord.mp hx with rfl | hx
      · exact hr
      · exact T.store.tags x hx
  unfold State.enter
  dsimp only
  split
  · exact State.raiseStore_tagsOk e
  · exact e

@[simp] theorem State.notifyPlanners_tagsOk (T : t.TagsOk) : t.notifyPlanners.TagsOk := T.of_eq rfl rfl rfl

@[simp] theorem State.leave_tagsOk {n : Nat} (T : t.TagsOk) : (t.leave n).TagsOk := by
  unfold State.leave
  split
  · exact T
  rename_i r _
  dsimp only
  have h1 : { t with store := t.store.filter fun x => x.tag != n }.TagsOk :=
    ⟨⟨T.store.ascending.filter _, Nat.le_trans (List.length_filter_le _ _) T.store.capacity,
      fun x hx => T.store.tags x (List.mem_of_mem_filter hx)⟩, ⟨T.coils.prefixRange, T.coils.serialRange⟩⟩
  have h2 : State.TagsOk { t with store := if r.kind = RecordKind.rope then
      (t.store.filter fun x : Record => x.tag != n).map fun x : Record => x.onCoil (CoilBody.disown n)
      else (t.store.filter fun x : Record => x.tag != n) } := by
    split
    · refine h1.of_eq ?_ rfl rfl
      simp [List.map_map, Function.comp_def]
    · exact h1
  split
  · exact State.notifyPlanners_tagsOk h2
  · exact h2

@[simp] theorem State.onPiece_tagsOk {n : Nat} {f : Piece → Piece × Bool} (T : t.TagsOk) : (t.onPiece n f).TagsOk := by
  unfold State.onPiece
  dsimp only
  repeat' split
  all_goals simp (maxDischargeDepth := 20) [T]

@[simp] theorem State.normalizeInto_tagsOk {n : Nat} {x : Span} (T : t.TagsOk) : (t.normalizeInto n x).TagsOk :=
  State.onPiece_tagsOk T

@[simp] theorem State.addHolder_tagsOk {n st : Nat} {x : Holder} (T : t.TagsOk) : (t.addHolder n x st).TagsOk := by
  unfold State.addHolder
  repeat' split
  all_goals simp (maxDischargeDepth := 20) [T]

@[simp] theorem State.releaseHolder_tagsOk {n : Nat} {x : Holder} (T : t.TagsOk) : (t.releaseHolder n x).TagsOk :=
  State.onPiece_tagsOk T

@[simp] theorem State.swapHolder_tagsOk {n : Nat} {x y : Holder} (T : t.TagsOk) : (t.swapHolder n x y).TagsOk :=
  State.onPiece_tagsOk T

/-! ## Heads -/

@[simp] theorem State.makerFlawRise_tagsOk (T : t.TagsOk) : (t.makerFlawRise h).TagsOk := by
  unfold State.makerFlawRise
  dsimp only
  repeat' split
  all_goals simp (maxDischargeDepth := 20) [T]

@[simp] theorem State.flawRises_tagsOk (T : t.TagsOk) : (t.flawRises h).TagsOk := by
  unfold State.flawRises
  split <;> simp (maxDischargeDepth := 20) [T]

@[simp] theorem State.enterHeld_tagsOk (T : t.TagsOk) : (t.enterHeld h).TagsOk := by
  unfold State.enterHeld
  dsimp only
  split <;> simp (maxDischargeDepth := 20) [T]

@[simp] theorem State.addHold_tagsOk {x : HoldReason} (T : t.TagsOk) : (t.addHold h x).TagsOk := by
  unfold State.addHold
  dsimp only
  repeat' split
  all_goals simp (maxDischargeDepth := 20) [T]

@[simp] theorem State.dropHold_tagsOk {x : HoldReason} (T : t.TagsOk) : (t.dropHold h x).TagsOk := State.updHead_tagsOk T

@[simp] theorem State.enterCutting_tagsOk (T : t.TagsOk) : (t.enterCutting h).TagsOk := by
  unfold State.enterCutting
  split <;> simp (maxDischargeDepth := 20) [T]

@[simp] theorem State.checkEnd_tagsOk (T : t.TagsOk) : (t.checkEnd h).TagsOk := by
  unfold State.checkEnd
  repeat' split
  all_goals simp (maxDischargeDepth := 20) [T]

/-! ## Feeds -/

@[simp] theorem State.unbindSlot_tagsOk {st : RecordState} {pos : Nat} {n : SlotIx} (T : t.TagsOk) :
    (t.unbindSlot h st pos n).TagsOk := by
  unfold State.unbindSlot
  dsimp only
  repeat' split
  all_goals simp (maxDischargeDepth := 20) [T]

@[simp] theorem State.checkLow_tagsOk {n : SlotIx} {left : Nat} (T : t.TagsOk) : (t.checkLow h n left).TagsOk := by
  unfold State.checkLow
  dsimp only
  split <;> simp (maxDischargeDepth := 20) [T]

@[simp] theorem State.passFeed_tagsOk {rope : Nat} {n : SlotIx} {added : Bool} (T : t.TagsOk) :
    (t.passFeed rope n added).TagsOk := by
  unfold State.passFeed
  split <;> simp (maxDischargeDepth := 20) [T]

@[simp] theorem State.takeUpSlot_tagsOk {rope factor m m' : Nat} {n : SlotIx} (T : t.TagsOk) :
    (t.takeUpSlot h rope factor m m' n).TagsOk := by
  unfold State.takeUpSlot
  dsimp only
  repeat' split
  all_goals simp (maxDischargeDepth := 20) [T]

@[simp] theorem State.takeUp_tagsOk {m m' : Nat} (T : t.TagsOk) : (t.takeUp h m m').TagsOk := by
  unfold State.takeUp
  split
  · exact T
  · split
    · exact State.foldl_tagsOk (fun _ _ => State.takeUpSlot_tagsOk) _ T
    all_goals exact T

@[simp] theorem State.chargeSlot_tagsOk {amount pos : Nat} {a : State × Bool} {n : SlotIx} (T : a.1.TagsOk) :
    (State.chargeSlot h amount pos a n).1.TagsOk := by
  unfold State.chargeSlot
  dsimp only
  repeat' split
  all_goals simp (maxDischargeDepth := 20) [T]

@[simp] theorem State.chargeRow_tagsOk {amount pos : Nat} (T : t.TagsOk) : (t.chargeRow h amount pos).1.TagsOk := by
  unfold State.chargeRow
  have e : ([(0 : SlotIx), 1].foldl (State.chargeSlot h amount pos) (t, false)).1.TagsOk := by
    rw [List.foldl_cons, List.foldl_cons, List.foldl_nil]
    have e1 : (State.chargeSlot h amount pos (t, false) 0).1.TagsOk := State.chargeSlot_tagsOk T
    exact State.chargeSlot_tagsOk e1
  generalize [(0 : SlotIx), 1].foldl (State.chargeSlot h amount pos) (t, false) = x at e
  dsimp only
  split
  · exact State.addHold_tagsOk e
  · exact e

@[simp] theorem State.rejudgeTop_tagsOk {n : SlotIx} (T : t.TagsOk) : (t.rejudgeTop h n).TagsOk := by
  unfold State.rejudgeTop
  repeat' split
  all_goals simp (maxDischargeDepth := 20) [T]

/-! ## Length, lay and knots -/

@[simp] theorem State.limitReached_tagsOk (T : t.TagsOk) : (t.limitReached h).TagsOk := by
  unfold State.limitReached
  split <;> simp (maxDischargeDepth := 20) [T]

@[simp] theorem State.releaseGuard_tagsOk {n m : Nat} (T : t.TagsOk) : (t.releaseGuard h n m).TagsOk := by
  unfold State.releaseGuard
  split <;> simp (maxDischargeDepth := 20) [T]

@[simp] theorem State.releaseJoin_tagsOk {n m : Nat} (T : t.TagsOk) : (t.releaseJoin h n m).TagsOk := by
  unfold State.releaseJoin
  split <;> simp (maxDischargeDepth := 20) [T]

@[simp] theorem State.advanceMade_tagsOk {c : Nat} (T : t.TagsOk) : (t.advanceMade h c).TagsOk := by
  unfold State.advanceMade
  dsimp only
  repeat' split
  all_goals simp (maxDischargeDepth := 20) [T]

@[simp] theorem State.unwindCarry_tagsOk {c : Nat} (T : t.TagsOk) : (t.unwindCarry h c).TagsOk := by
  unfold State.unwindCarry
  dsimp only
  repeat' split
  all_goals simp (maxDischargeDepth := 20) [T]

@[simp] theorem State.encPulse_tagsOk (T : t.TagsOk) : (t.encPulse h).TagsOk := by
  unfold State.encPulse
  dsimp only
  repeat' split
  all_goals simp (maxDischargeDepth := 20) [T]

@[simp] theorem State.makerFlawFall_tagsOk (T : t.TagsOk) : (t.makerFlawFall h).TagsOk := by
  unfold State.makerFlawFall
  dsimp only
  repeat' split
  all_goals simp (maxDischargeDepth := 20) [T]

@[simp] theorem State.openJoin_tagsOk {n m : Nat} (T : t.TagsOk) : (t.openJoin h n m).TagsOk := by
  unfold State.openJoin
  dsimp only
  split <;> simp (maxDischargeDepth := 20) [T]

@[simp] theorem State.endWindow_tagsOk {r : Record} {w : LayWindow} (T : t.TagsOk) : (t.endWindow h r w).TagsOk := by
  unfold State.endWindow State.placeLay
  dsimp only
  repeat' split
  all_goals simp (maxDischargeDepth := 20) [T]

@[simp] theorem State.spinPulse_tagsOk (T : t.TagsOk) : (t.spinPulse h).TagsOk := by
  unfold State.spinPulse State.openWindow State.spinWithin
  repeat' split
  all_goals simp (maxDischargeDepth := 20) [T]

@[simp] theorem State.countRow_tagsOk {n : Nat} {k : KindSet} (T : t.TagsOk) : (t.countRow n k).TagsOk := by
  unfold State.countRow
  repeat' split
  all_goals simp (maxDischargeDepth := 20) [T]

@[simp] theorem State.countMissed_tagsOk {n m : Nat} (T : t.TagsOk) : (t.countMissed h n m).TagsOk := by
  unfold State.countMissed
  split <;> simp (maxDischargeDepth := 20) [T]

@[simp] theorem State.closeRow_tagsOk (T : t.TagsOk) : (t.closeRow h).TagsOk := by
  unfold State.closeRow
  dsimp only
  repeat' split
  all_goals simp (maxDischargeDepth := 20) [T]

@[simp] theorem State.openRow_tagsOk (T : t.TagsOk) : (t.openRow h).TagsOk := by
  unfold State.openRow
  repeat' split
  all_goals simp (maxDischargeDepth := 20) [T]

@[simp] theorem State.knotPulse_tagsOk (T : t.TagsOk) : (t.knotPulse h).TagsOk := by
  unfold State.knotPulse State.countKnot State.strayKnot
  dsimp only
  repeat' split
  all_goals simp (maxDischargeDepth := 20) [T]

@[simp] theorem State.rowPulse_tagsOk (T : t.TagsOk) : (t.rowPulse h).TagsOk := by
  unfold State.rowPulse
  split <;> simp (maxDischargeDepth := 20) [T]

@[simp] theorem State.rowExpiry_tagsOk (T : t.TagsOk) : (t.rowExpiry h).TagsOk := by
  unfold State.rowExpiry
  split <;> simp (maxDischargeDepth := 20) [T]

/-! ## Coils -/

theorem nextSerial_range {n : Nat} (h : 1 ≤ n ∧ n ≤ serialTop) : 1 ≤ nextSerial n ∧ nextSerial n ≤ serialTop := by
  unfold nextSerial serialTop at *
  split <;> omega

/-- The serial that the search finds lies in its range, and its tag is not live (R152). -/
theorem findSerial_spec {live : Nat → Bool} {pre fuel n k : Nat} (hn : 1 ≤ n ∧ n ≤ serialTop)
    (e : findSerial live pre fuel n = some k) : (1 ≤ k ∧ k ≤ serialTop) ∧ live (coilTag pre k) = false := by
  induction fuel generalizing n with
  | zero => simp [findSerial] at e
  | succ fuel ih =>
    unfold findSerial at e
    split at e
    · exact ih (nextSerial_range hn) e
    · rename_i hl
      cases e
      exact ⟨hn, by simpa using hl⟩

/-- A tag formed from a prefix and a serial lies in the range of tags (R3, R152). -/
theorem coilTag_range {pre n : Nat} (hp : pre ≤ 65535) (hn : 1 ≤ n ∧ n ≤ serialTop) :
    1 ≤ coilTag pre n ∧ coilTag pre n < tagTop := by
  unfold coilTag serialTop tagTop at *
  omega

theorem State.createCoil_tagsOk {rope e len : Nat} {g : Grade} {b : Bool} (T : t.TagsOk)
    (c : t.createCoil h rope e len g b = some u) : u.TagsOk := by
  unfold State.createCoil at c
  split at c
  · simp at c
  · rename_i hc
    obtain ⟨n, hn, rfl⟩ := Option.map_eq_some_iff.mp c
    obtain ⟨hr, hl⟩ := findSerial_spec T.coils.serialRange hn
    have T' : { t with coilSerial := nextSerial n }.TagsOk :=
      ⟨⟨T.store.ascending, T.store.capacity, T.store.tags⟩, ⟨T.coils.prefixRange, nextSerial_range hr⟩⟩
    exact State.updHead_tagsOk (State.enter_tagsOk T' (by simpa using hc) hl (coilTag_range T.coils.prefixRange hr))

@[simp] theorem State.downgradeCoils_tagsOk {n : Nat} (T : t.TagsOk) : (t.downgradeCoils n).TagsOk := by
  refine State.foldl_tagsOk (fun v r K => ?_) _ T
  unfold State.judgeCoil
  split <;> simp (maxDischargeDepth := 20) [State.downgradeCoil, K]

@[simp] theorem State.addRopeSpan_tagsOk {n : Nat} {x : Span} (T : t.TagsOk) : (t.addRopeSpan n x).TagsOk := by
  unfold State.addRopeSpan
  dsimp only
  split <;> simp (maxDischargeDepth := 20) [T]

@[simp] theorem State.coilerFlawFall_tagsOk {pf : Nat} (T : t.TagsOk) : (t.coilerFlawFall h pf).TagsOk := by
  unfold State.coilerFlawFall
  dsimp only
  repeat' split
  all_goals simp (maxDischargeDepth := 20) [T]

@[simp] theorem State.flawAtLeaving_tagsOk {pf : Nat} (T : t.TagsOk) : (t.flawAtLeaving h pf).TagsOk := by
  unfold State.flawAtLeaving
  split <;> simp (maxDischargeDepth := 20) [T]

@[simp] theorem State.addWaste_tagsOk {rope n : Nat} (T : t.TagsOk) : (t.addWaste rope n).TagsOk :=
  State.updRec_tagsOk (by simp) T

@[simp] theorem State.windCoil_tagsOk {n rope e a : Nat} {b : Bool} (T : t.TagsOk) : (t.windCoil h n rope e a b).TagsOk := by
  unfold State.windCoil
  dsimp only
  repeat' split
  all_goals simp (maxDischargeDepth := 20) [T]

@[simp] theorem State.completeSegment_tagsOk (T : t.TagsOk) : (t.completeSegment h).TagsOk := by
  unfold State.completeSegment
  dsimp only
  repeat' split
  all_goals simp (maxDischargeDepth := 20) [T]

@[simp] theorem State.cutShort_tagsOk {rope e : Nat} (T : t.TagsOk) : (t.cutShort h rope e).TagsOk := by
  unfold State.cutShort
  dsimp only
  repeat' split
  all_goals simp (maxDischargeDepth := 20) [T]

@[simp] theorem State.giveUpRope_tagsOk (T : t.TagsOk) : (t.giveUpRope h).TagsOk := by
  unfold State.giveUpRope
  repeat' split
  all_goals simp (maxDischargeDepth := 20) [T]

@[simp] theorem State.endSegment_tagsOk (T : t.TagsOk) : (t.endSegment h).TagsOk := by
  unfold State.endSegment
  dsimp only
  split <;> simp (maxDischargeDepth := 20) [T]

@[simp] theorem State.endRope_tagsOk {rope : Nat} (T : t.TagsOk) : (t.endRope h rope).TagsOk := by
  unfold State.endRope
  dsimp only
  simp (maxDischargeDepth := 20) [T]

@[simp] theorem State.planWaits_tagsOk {x : HoldReason} (T : t.TagsOk) : (t.planWaits h x).TagsOk := by
  unfold State.planWaits
  dsimp only
  split <;> simp (maxDischargeDepth := 20) [T]

@[simp] theorem State.planMade_tagsOk (T : t.TagsOk) : (t.planMade h).TagsOk := State.updHead_tagsOk T

@[simp] theorem State.applyPlan_tagsOk {rope e : Nat} {p : Plan} (T : t.TagsOk) : (t.applyPlan h rope e p).TagsOk := by
  unfold State.applyPlan
  split
  · simp (maxDischargeDepth := 20) [T]
  · simp (maxDischargeDepth := 20) [T]
  · split
    · rename_i c
      exact State.planMade_tagsOk (State.createCoil_tagsOk T c)
    · simp (maxDischargeDepth := 20) [T]

@[simp] theorem State.openPlan_tagsOk {rope e : Nat} (T : t.TagsOk) : (t.openPlan h rope e).TagsOk := by
  unfold State.openPlan
  dsimp only
  split <;> simp (maxDischargeDepth := 20) [T]

@[simp] theorem State.planPoint_tagsOk (T : t.TagsOk) : (t.planPoint h).TagsOk := by
  unfold State.planPoint
  dsimp only
  repeat' split
  all_goals simp (maxDischargeDepth := 20) [T]

@[simp] theorem State.storeFullNotification_tagsOk (T : t.TagsOk) : (t.storeFullNotification h).TagsOk := by
  unfold State.storeFullNotification
  dsimp only
  repeat' split
  all_goals simp (maxDischargeDepth := 20) [T]

/-! ## The head state machine -/

@[simp] theorem State.endMaking_tagsOk {f : Record → Record} (hf : ∀ r, (f r).tag = r.tag) (T : t.TagsOk) :
    (t.endMaking h f).TagsOk := by
  unfold State.endMaking
  split
  · exact T
  · exact State.updRec_tagsOk hf (State.foldl_tagsOk (fun _ _ => State.unbindSlot_tagsOk) _ T)

theorem State.settleRecords_tagsOk {f : Record → Record} (hf : ∀ r, (f r).tag = r.tag) (T : t.TagsOk) :
    (t.settleRecords h f).TagsOk := by
  unfold State.settleRecords State.undoBinding State.endRunning
  dsimp only
  repeat' split
  all_goals simp (maxDischargeDepth := 20) [T, hf]

@[simp] theorem State.releaseHead_tagsOk (T : t.TagsOk) : (t.releaseHead h).TagsOk :=
  State.updHead_tagsOk (State.settleRecords_tagsOk (by simp) T)

@[simp] theorem State.disconnect_tagsOk (T : t.TagsOk) : (t.disconnect h).TagsOk :=
  State.updHead_tagsOk (State.settleRecords_tagsOk (by simp) T)

@[simp] theorem State.completeCut_tagsOk (T : t.TagsOk) : (t.completeCut h).TagsOk := by
  unfold State.completeCut
  split <;> simp (maxDischargeDepth := 20) [T]

@[simp] theorem State.cutWaitExpiry_tagsOk (T : t.TagsOk) : (t.cutWaitExpiry h).TagsOk := by
  unfold State.cutWaitExpiry
  split <;> simp (maxDischargeDepth := 20) [T]

@[simp] theorem State.checkFeeds_tagsOk (T : t.TagsOk) : (t.checkFeeds h).TagsOk := by
  unfold State.checkFeeds
  split <;> simp (maxDischargeDepth := 20) [T]

@[simp] theorem State.runRise_tagsOk (T : t.TagsOk) : (t.runRise h).TagsOk := by
  unfold State.runRise
  dsimp only
  repeat' split
  all_goals simp (maxDischargeDepth := 20) [T]

@[simp] theorem State.runFall_tagsOk (T : t.TagsOk) : (t.runFall h).TagsOk := by
  unfold State.runFall
  dsimp only
  repeat' split
  all_goals simp (maxDischargeDepth := 20) [T]

@[simp] theorem State.flawRiseEdge_tagsOk (T : t.TagsOk) : (t.flawRiseEdge h).TagsOk := by
  unfold State.flawRiseEdge
  dsimp only
  split <;> simp (maxDischargeDepth := 20) [T]

@[simp] theorem State.flawFallEdge_tagsOk (T : t.TagsOk) : (t.flawFallEdge h).TagsOk := by
  unfold State.flawFallEdge
  dsimp only
  repeat' split
  all_goals simp (maxDischargeDepth := 20) [T]

@[simp] theorem State.senseSettled_tagsOk (T : t.TagsOk) : (t.senseSettled h).TagsOk := by
  unfold State.senseSettled
  dsimp only
  repeat' split
  all_goals simp (maxDischargeDepth := 20) [T]

/-! ## Requests -/

@[simp] theorem State.respond_tagsOk {p : Port} {b : List Byte} (T : t.TagsOk) : (t.respond p b).TagsOk := by
  cases p <;> exact T.of_eq rfl rfl rfl

/-- A request keeps the order when its answer does. -/
theorem State.takeRequest_tagsOk {p : Port} {c : Instr} {answer : State → State × Reply} (T : t.TagsOk)
    (ha : (answer t).1.TagsOk) : (t.takeRequest p c answer).TagsOk := by
  unfold State.takeRequest
  dsimp only
  repeat' split
  all_goals simp [T, ha]

@[simp] theorem State.refuse_tagsOk {c : Completion} (T : t.TagsOk) : (t.refuse c).1.TagsOk := T

@[simp] theorem State.doneMark_tagsOk {n : Nat} {f : State → State} (T : (f t).TagsOk) : (t.doneMark n f).1.TagsOk :=
  State.commit_tagsOk T

@[simp] theorem State.amend_tagsOk {n : Nat} {l : List Item} (T : t.TagsOk) : (t.amend n l).TagsOk := by
  unfold State.amend
  dsimp only
  repeat' split
  all_goals simp (maxDischargeDepth := 20) [T]

@[simp] theorem State.addSpanTo_tagsOk {r : Record} {n : Span} (T : t.TagsOk) : (t.addSpanTo r n).TagsOk := by
  unfold State.addSpanTo
  dsimp only
  repeat' split
  all_goals simp (maxDischargeDepth := 20) [T]

@[simp] theorem State.bandCoil_tagsOk {n : Nat} (T : t.TagsOk) : (t.bandCoil n).TagsOk := State.updRec_tagsOk (by simp) T

@[simp] theorem State.addEmptyFeeds_tagsOk {r : Record} (T : t.TagsOk) : (t.addEmptyFeeds h r).TagsOk := by
  unfold State.addEmptyFeeds
  split
  · refine State.foldl_tagsOk (fun v n K => ?_) _ T
    split <;> simp [K]
  all_goals exact T

@[simp] theorem State.joinResumed_tagsOk {r : Record} (T : t.TagsOk) : (t.joinResumed h r).TagsOk := by
  unfold State.joinResumed
  split <;> simp (maxDischargeDepth := 20) [T]

@[simp] theorem State.bindProduct_tagsOk {r : Record} (T : t.TagsOk) : (t.bindProduct h r).TagsOk := by
  unfold State.bindProduct
  simp (maxDischargeDepth := 20) [T]

@[simp] theorem State.bindSource_tagsOk {n : Nat} (T : t.TagsOk) : (t.bindSource h n).TagsOk := by
  unfold State.bindSource
  simp (maxDischargeDepth := 20) [T]

@[simp] theorem State.judgeTop_tagsOk {n : SlotIx} {b : StrandBody} {q : Record} (T : t.TagsOk) :
    (t.judgeTop h n b q).TagsOk := by
  unfold State.judgeTop
  dsimp only
  repeat' split
  all_goals simp (maxDischargeDepth := 20) [T]

@[simp] theorem State.bindFeed_tagsOk {n : SlotIx} {r q : Record} {b : StrandBody} (T : t.TagsOk) :
    (t.bindFeed h n r b q).TagsOk := by
  unfold State.bindFeed
  dsimp only
  split <;> simp (maxDischargeDepth := 20) [T]

@[simp] theorem State.emptySlot_tagsOk {n : SlotIx} {q : Record} (T : t.TagsOk) : (t.emptySlot h n q).TagsOk := by
  unfold State.emptySlot
  repeat' split
  all_goals simp (maxDischargeDepth := 20) [T]

@[simp] theorem State.unbindFeed_tagsOk {n : SlotIx} {q : Record} (T : t.TagsOk) : (t.unbindFeed h n q).TagsOk := by
  unfold State.unbindFeed
  dsimp only
  split <;> simp (maxDischargeDepth := 20) [T]

@[simp] theorem State.enqueue_tagsOk {o : CoilOrder} (T : t.TagsOk) : (t.enqueue h o).TagsOk := by
  unfold State.enqueue
  dsimp only
  split <;> simp (maxDischargeDepth := 20) [T]

/-- A device setting keeps the order of the store, and the coil tag settings in their ranges (R149, R174). -/
@[simp] theorem State.writeDevice_tagsOk {n v : Nat} (T : t.TagsOk) : (t.writeDevice n v).TagsOk := by
  unfold State.writeDevice
  split
  · simp (maxDischargeDepth := 20) [T]
  split
  · exact ⟨T.store.of_tags rfl, ⟨by simp [clampNat], T.coils.serialRange⟩⟩
  split
  · exact ⟨T.store.of_tags rfl, ⟨T.coils.prefixRange, by simp [clampNat, serialTop]⟩⟩
  split
  · exact T.of_eq rfl rfl rfl
  all_goals simp (maxDischargeDepth := 20) [T]

@[simp] theorem State.writeDeviceList_tagsOk {l : List Item} (T : t.TagsOk) : (t.writeDeviceList l).TagsOk := by
  refine State.foldl_tagsOk (fun v it K => ?_) _ T
  split <;> simp [K]

end Sys2Proof.Machine
end

