-- ==== Sys2Proof/Laws/Records.lean ====
section
/-! SUPPORT. The laws of the records (R23, R24, R27): for each shared operation, the one lemma that says it keeps them. -/

namespace Sys2Proof.Machine

variable {h : HeadIx} {s t u : State}

/-! ## One record -/

/-- A record whose piece, kind and counts are those of one that keeps the laws, and that is MAKING whenever that one is. -/
theorem Record.Ok.of_eq {r x : Record} (H : r.Ok) (hp : x.body.piece = r.body.piece) (hk : x.kind = r.kind)
    (hs : x.state ≠ .making → r.state ≠ .making) (hc : r.body.CountsOk → x.body.CountsOk) : x.Ok where
  piece p e := H.piece p (hp ▸ e)
  closedOutside n p e := H.closedOutside (hs n) p (hp ▸ e)
  closedPanel n p e := H.closedPanel (hk ▸ n) p (hp ▸ e)
  counts := hc H.counts

/-- The closing of source entries in the terms of the statements (R31, R123). -/
theorem closeEntries_eq_closedAt (out : SlotIx → Bool) (pos : Nat) (l : List SourceEntry) :
    closeEntries out pos l = closedAt out pos l := by
  unfold closeEntries closedAt
  refine List.map_congr_left fun e _ => ?_
  cases e.stop <;> cases out e.slot <;> rfl

/-- A draw spends the strand in a slot exactly where the consumption runs it out (R19, R131). -/
theorem State.runsOut_eq_spent {m : SlotIx} {r : Record} {b : StrandBody} (e : s.fedBy h m = some (r, b))
    (n : Nat) : s.runsOut h m n = (b.draw n).spent := by
  rw [State.runsOut, e]
  rfl
@[simp] theorem Body.withSources_piece (l : List SourceEntry) (b : Body) : (b.withSources l).piece = b.piece := by
  cases b <;> rfl

@[simp] theorem Body.withSources_kind (l : List SourceEntry) (b : Body) : (b.withSources l).kind = b.kind := by
  cases b <;> rfl

@[simp] theorem Body.withSources_counts (l : List SourceEntry) (b : Body) : (b.withSources l).CountsOk ↔ b.CountsOk := by
  cases b <;> rfl

@[simp] theorem Body.withPiece_kind (p : Piece) (b : Body) : (b.withPiece p).kind = b.kind := by
  cases b <;> rfl

theorem Body.withPiece_piece {p q : Piece} {b : Body} (e : b.piece = some q) : (b.withPiece p).piece = some p := by
  cases b <;> simp_all [Body.piece, Body.withPiece]

theorem Body.withPiece_counts {p q : Piece} {b : Body} (e : b.piece = some q) (hm : q.made ≤ p.made) (H : b.CountsOk) :
    (b.withPiece p).CountsOk := by
  cases b with
  | strand b => cases e; exact Nat.le_trans H hm
  | rope b => cases e; exact Nat.le_trans H hm
  | panel b => trivial
  | coil c => trivial

/-- A record whose piece has been replaced keeps the laws when the new piece does. -/
theorem Record.Ok.withPiece {r : Record} {p q : Piece} (H : r.Ok) (e : r.body.piece = some p) (hq : q.Ok)
    (hm : p.made ≤ q.made) (hc : r.state ≠ .making ∨ r.kind = .panel → q.Closed) : (r.withPiece q).Ok where
  piece x ex := by
    have : x = q := Option.some.inj (ex.symm.trans (Body.withPiece_piece e))
    exact this ▸ hq
  closedOutside n x ex := by
    have : x = q := Option.some.inj (ex.symm.trans (Body.withPiece_piece e))
    exact this ▸ hc (Or.inl n)
  closedPanel n x ex := by
    have : x = q := Option.some.inj (ex.symm.trans (Body.withPiece_piece e))
    exact this ▸ hc (Or.inr ((Body.withPiece_kind q r.body).symm.trans n))
  counts := Body.withPiece_counts e hm H.counts

theorem Record.closeSources_ok {w : SlotIx → Bool} {n : Nat} {r : Record} (H : r.Ok) : (r.closeSources w n).Ok :=
  H.of_eq (Body.withSources_piece _ _) (Body.withSources_kind _ _) (fun e => e) (fun e => (Body.withSources_counts _ _).mpr e)

theorem Record.appendSource_ok {e : SourceEntry} {r : Record} (H : r.Ok) : (r.appendSource e).Ok :=
  H.of_eq (Body.withSources_piece _ _) (Body.withSources_kind _ _) (fun e => e) (fun e => (Body.withSources_counts _ _).mpr e)

/-- A record that has left MAKING keeps the laws, with nothing open (R18). -/
theorem Record.leaveMaking_ok {r : Record} (H : r.Ok) :
    r.leaveMaking.Ok ∧ ∀ p, r.leaveMaking.body.piece = some p → p.Closed := by
  unfold Record.leaveMaking
  split
  · rename_i p e
    have hq := Piece.dropHolders_ok (H.piece p e)
    have hm : p.made ≤ p.dropHolders.made := Nat.le_refl _
    refine ⟨Record.closeSources_ok (H.withPiece e hq hm fun _ => Piece.dropHolders_closed), fun x ex => ?_⟩
    have e1 : ((r.withPiece p.dropHolders).closeSources (fun _ => true) p.made).body.piece = some p.dropHolders :=
      (Body.withSources_piece _ _).trans (Body.withPiece_piece e)
    have : x = p.dropHolders := Option.some.inj (ex.symm.trans e1)
    exact this ▸ Piece.dropHolders_closed
  · rename_i e
    exact ⟨H, fun p ep => by simp [e] at ep⟩

theorem Record.unbindTo_ok {st : RecordState} {r : Record} (H : r.Ok) : (r.unbindTo st).Ok := by
  unfold Record.unbindTo
  dsimp only
  split
  · obtain ⟨h1, h2⟩ := Record.leaveMaking_ok H
    exact ⟨h1.piece, fun _ p e => h2 p e, h1.closedPanel, h1.counts⟩
  · rename_i e
    exact H.of_eq rfl rfl (fun _ => e) (fun e => e)

theorem Record.interrupt_ok {r : Record} (H : r.Ok) : r.interrupt.Ok := by
  have := Record.unbindTo_ok (st := .interrupted) H
  exact this.of_eq rfl rfl (fun e => e) (fun e => e)

theorem Record.bindAs_making_ok {k : HeadIx} {ro : Role} {r : Record} (H : r.Ok) : (r.bindAs .making k ro).Ok :=
  H.of_eq rfl rfl (fun e => absurd rfl e) (fun e => e)

theorem Record.bindAs_ok {st : RecordState} {k : HeadIx} {ro : Role} {r : Record} (hs : r.state ≠ .making) (H : r.Ok) :
    (r.bindAs st k ro).Ok := H.of_eq rfl rfl (fun _ => hs) (fun e => e)

theorem Record.stepMark_ok {now : Seconds} {a b : Record} (H : b.Ok) : (Record.stepMark now a b).Ok := by
  unfold Record.stepMark
  split
  · exact H
  · exact H.of_eq rfl rfl (fun e => e) (fun e => e)

/-- A change to a strand's fields that keeps its piece, with the consumed length within the made length. -/
theorem Record.onStrand_ok {f : StrandBody → StrandBody} {r : Record} (hp : ∀ b, (f b).piece = b.piece)
    (hc : ∀ b, r.body = .strand b → b.consumed ≤ b.piece.made → (f b).consumed ≤ b.piece.made) (H : r.Ok) :
    (r.onStrand f).Ok := by
  unfold Record.onStrand
  split
  · rename_i b e
    have he : r.body.piece = some b.piece := by rw [e]; rfl
    refine H.of_eq ?_ ?_ (fun e => e) (fun c => ?_)
    · rw [he]; exact congrArg some (hp b)
    · rw [Record.kind, Record.kind, e]; rfl
    · rw [e] at c
      show (f b).consumed ≤ (f b).piece.made
      rw [hp]
      exact hc b e c
  all_goals exact H

/-- A change to a rope's fields that keeps its piece, with the packed and waste lengths within the made length. -/
theorem Record.onRope_ok {f : RopeBody → RopeBody} {r : Record} (hp : ∀ b, (f b).piece = b.piece)
    (hc : ∀ b, r.body = .rope b → b.packed + b.waste ≤ b.piece.made → (f b).packed + (f b).waste ≤ b.piece.made) (H : r.Ok) :
    (r.onRope f).Ok := by
  unfold Record.onRope
  split
  · rename_i b e
    have he : r.body.piece = some b.piece := by rw [e]; rfl
    refine H.of_eq ?_ ?_ (fun e => e) (fun c => ?_)
    · rw [he]; exact congrArg some (hp b)
    · rw [Record.kind, Record.kind, e]; rfl
    · rw [e] at c
      show (f b).packed + (f b).waste ≤ (f b).piece.made
      rw [hp]
      exact hc b e c
  all_goals exact H

theorem Record.onPanel_ok {f : PanelBody → PanelBody} {r : Record} (hp : ∀ b, (f b).piece = b.piece) (H : r.Ok) :
    (r.onPanel f).Ok := by
  unfold Record.onPanel
  split
  · rename_i b e
    have he : r.body.piece = some b.piece := by rw [e]; rfl
    refine H.of_eq ?_ ?_ (fun e => e) (fun _ => trivial)
    · rw [he]; exact congrArg some (hp b)
    · rw [Record.kind, Record.kind, e]; rfl
  all_goals exact H

/-- A COIL has no piece, so a change of its fields and its state keeps the laws. -/
theorem Record.Ok.of_coil {r : Record} {c : CoilBody} (e : r.body = .coil c) : r.Ok where
  piece p hp := by simp [e, Body.piece] at hp
  closedOutside _ p hp := by simp [e, Body.piece] at hp
  closedPanel _ p hp := by simp [e, Body.piece] at hp
  counts := by rw [e]; trivial

theorem Record.onCoil_ok {f : CoilBody → CoilBody} {r : Record} (H : r.Ok) : (r.onCoil f).Ok := by
  unfold Record.onCoil
  split
  · exact Record.Ok.of_coil rfl
  all_goals exact H

/-- A specification field leaves piece, kind and counts as they are (R45). -/
theorem Body.setSpec_piece (it : Item) (b : Body) : (b.setSpec it).piece = b.piece := by
  unfold Body.setSpec
  repeat' split
  all_goals rfl

theorem Body.setSpec_kind (it : Item) (b : Body) : (b.setSpec it).kind = b.kind := by
  unfold Body.setSpec
  repeat' split
  all_goals rfl

theorem Body.setSpec_counts (it : Item) (b : Body) : (b.setSpec it).CountsOk ↔ b.CountsOk := by
  unfold Body.setSpec
  repeat' split
  all_goals rfl

theorem Body.setSpecs_ok (l : List Item) (b : Body) :
    (l.foldl (fun b it => b.setSpec it) b).piece = b.piece ∧ (l.foldl (fun b it => b.setSpec it) b).kind = b.kind ∧
      ((l.foldl (fun b it => b.setSpec it) b).CountsOk ↔ b.CountsOk) := by
  induction l generalizing b with
  | nil => exact ⟨rfl, rfl, Iff.rfl⟩
  | cons it l ih =>
    obtain ⟨h1, h2, h3⟩ := ih (b.setSpec it)
    exact ⟨h1.trans (Body.setSpec_piece it b), h2.trans (Body.setSpec_kind it b), h3.trans (Body.setSpec_counts it b)⟩

/-! ## The laws of a state -/

/-- The store is in order and every record keeps its laws. -/
structure State.Sound (s : State) : Prop where
  tags : s.TagsOk
  records : s.RecordsOk

theorem State.Sound.of_eq (H : t.Sound) (e : u.store = t.store) (e1 : u.coilPrefix = t.coilPrefix)
    (e2 : u.coilSerial = t.coilSerial) : u.Sound :=
  ⟨H.tags.of_eq (congrArg _ e) e1 e2, fun r hr => H.records r (e ▸ hr)⟩

theorem State.Sound.find_ok {n : Nat} {r : Record} (H : s.Sound) (e : s.find n = some r) : r.Ok :=
  H.records r (State.find_mem e).1

@[simp] theorem State.updHead_sound {k : HeadIx} {f : Head → Head} (H : t.Sound) : (t.updHead k f).Sound := H.of_eq rfl rfl rfl

@[simp] theorem State.updSlot_sound {k : HeadIx} {n : SlotIx} {f : FeedSlot → FeedSlot} (H : t.Sound) :
    (t.updSlot k n f).Sound := H.of_eq rfl rfl rfl

@[simp] theorem State.updAttn_sound {f : Attention → Attention} (H : t.Sound) : (t.updAttn f).Sound := H.of_eq rfl rfl rfl

@[simp] theorem State.updLink_sound {f : PanelLink → PanelLink} (H : t.Sound) : (t.updLink f).Sound := H.of_eq rfl rfl rfl

@[simp] theorem State.raise_sound {k : HeadIx} {f : HeadFlag} (H : t.Sound) : (t.raise k f).Sound := H.of_eq rfl rfl rfl

@[simp] theorem State.raiseAlarm_sound {k : HeadIx} {x : Alarm} (H : t.Sound) : (t.raiseAlarm k x).Sound := H.of_eq rfl rfl rfl

@[simp] theorem State.raiseStore_sound {f : StoreCauses → StoreCauses} (H : t.Sound) : (t.raiseStore f).Sound :=
  H.of_eq rfl rfl rfl

@[simp] theorem State.raiseAt_sound {b : Option (HeadIx × Role)} {x : Alarm} (H : t.Sound) : (t.raiseAt b x).Sound := by
  unfold State.raiseAt
  split <;> simp (maxDischargeDepth := 20) [H]

/-- A change of one record keeps the laws when it keeps them for the record it finds. -/
theorem State.updRec_sound_of {n : Nat} {f : Record → Record} (hf : ∀ r, (f r).tag = r.tag)
    (ho : ∀ r, t.find n = some r → r.Ok → (f r).Ok) (H : t.Sound) : (t.updRec n f).Sound := by
  refine ⟨State.updRec_tagsOk hf H.tags, fun x hx => ?_⟩
  obtain ⟨r, hr, rfl⟩ := List.mem_map.mp hx
  split
  · rename_i e
    exact ho r (e ▸ H.tags.store.find_of_mem hr) (H.records r hr)
  · exact H.records r hr

/-- A change that keeps the laws of every record. -/
theorem State.updRec_sound {n : Nat} {f : Record → Record} (hf : ∀ r, (f r).tag = r.tag) (ho : ∀ r, r.Ok → (f r).Ok)
    (H : t.Sound) : (t.updRec n f).Sound := State.updRec_sound_of hf (fun r _ => ho r) H

@[simp] theorem State.unbindRec_sound {n : Nat} {st : RecordState} (H : t.Sound) :
    (t.updRec n fun r => r.unbindTo st).Sound := State.updRec_sound (by simp) (fun _ => Record.unbindTo_ok) H

@[simp] theorem State.closeRec_sound {n m : Nat} {w : SlotIx → Bool} (H : t.Sound) :
    (t.updRec n fun r => r.closeSources w m).Sound := State.updRec_sound (by simp) (fun _ => Record.closeSources_ok) H

@[simp] theorem State.appendRec_sound {n : Nat} {e : SourceEntry} (H : t.Sound) :
    (t.updRec n fun r => r.appendSource e).Sound := State.updRec_sound (by simp) (fun _ => Record.appendSource_ok) H

@[simp] theorem State.coilRec_sound {n : Nat} {f : CoilBody → CoilBody} (H : t.Sound) :
    (t.updRec n fun r => r.onCoil f).Sound := State.updRec_sound (by simp) (fun _ => Record.onCoil_ok) H

@[simp] theorem State.commit_sound {b : State} (H : t.Sound) : (b.commit t).Sound := by
  refine ⟨State.commit_tagsOk H.tags, fun x hx => ?_⟩
  obtain ⟨r, hr, rfl⟩ := List.mem_map.mp hx
  split
  · exact Record.stepMark_ok (H.records r hr)
  · exact H.records r hr

/-- A whole change keeps the laws when the change does. -/
theorem State.change_sound {f : State → State} (H : (f t).Sound) : (t.change f).Sound := State.commit_sound H

/-- A fold keeps the laws when each of its steps does. -/
theorem State.foldl_sound {α : Type} {f : State → α → State} (hf : ∀ t a, t.Sound → (f t a).Sound) (l : List α)
    (H : t.Sound) : (l.foldl f t).Sound := by
  induction l generalizing t with
  | nil => exact H
  | cons a l ih => exact ih (hf t a H)

theorem State.enter_sound {r : Record} (H : t.Sound) (hc : t.store.length < storeCap) (hl : t.live r.tag = false)
    (hr : 1 ≤ r.tag ∧ r.tag < tagTop) (ho : r.Ok) : (t.enter r).Sound := by
  refine ⟨State.enter_tagsOk H.tags hc hl hr, fun x hx => ?_⟩
  rw [State.enter_store] at hx
  rcases mem_insertRecord.mp hx with rfl | hx
  · exact ho
  · exact H.records x hx

@[simp] theorem State.leave_sound {n : Nat} (H : t.Sound) : (t.leave n).Sound := by
  refine ⟨State.leave_tagsOk H.tags, ?_⟩
  unfold State.leave
  split
  · exact H.records
  rename_i r _
  dsimp only
  have h1 : ∀ x ∈ t.store.filter fun x => x.tag != n, x.Ok := fun x hx => H.records x (List.mem_of_mem_filter hx)
  have h2 : ∀ x ∈ (if r.kind = RecordKind.rope then
      (t.store.filter fun x : Record => x.tag != n).map fun x : Record => x.onCoil (CoilBody.disown n)
      else (t.store.filter fun x : Record => x.tag != n)), x.Ok := by
    split
    · intro x hx
      obtain ⟨y, hy, rfl⟩ := List.mem_map.mp hx
      exact Record.onCoil_ok (h1 y hy)
    · exact h1
  split <;> exact h2

/-- A change of a piece keeps the laws when it keeps the piece's own. -/
theorem State.onPiece_sound {n : Nat} {f : Piece → Piece × Bool} (H : t.Sound)
    (hf : ∀ r p, t.find n = some r → r.body.piece = some p → p.Ok → (f p).1.Ok ∧ p.made ≤ (f p).1.made ∧
      (r.state ≠ .making ∨ r.kind = .panel → p.Closed → (f p).1.Closed)) : (t.onPiece n f).Sound := by
  unfold State.onPiece
  split
  · exact H
  rename_i r er
  split
  · exact H
  rename_i p ep
  dsimp only
  have key : (t.updRec n fun x => { x.withPiece (f p).1 with spansMerged := x.spansMerged || (f p).2 }).Sound := by
    refine State.updRec_sound_of (fun _ => rfl) (fun x ex hx => ?_) H
    have : x = r := Option.some.inj (ex.symm.trans er)
    subst this
    obtain ⟨h1, h2, h3⟩ := hf x p er ep (hx.piece p ep)
    have := hx.withPiece ep h1 h2 fun e => h3 e (e.elim (fun e => hx.closedOutside e p ep) fun e => hx.closedPanel e p ep)
    exact this.of_eq rfl rfl (fun e => e) (fun e => e)
  split
  · exact State.raiseAt_sound key
  · exact key

@[simp] theorem State.addHolder_sound {n st : Nat} {x : Holder} (H : t.Sound) : (t.addHolder n x st).Sound := by
  unfold State.addHolder
  split
  · rename_i r er
    split
    · rename_i g
      refine State.onPiece_sound H fun y p ey ep hp => ⟨Piece.addHolder_ok hp, Piece.addHolder_made.ge, fun e => ?_⟩
      have : y = r := Option.some.inj (ey.symm.trans er)
      subst this
      exact e.elim (fun e => absurd g.1 e) fun e => absurd e g.2
    · exact H
  · exact H

@[simp] theorem State.releaseHolder_sound {n : Nat} {x : Holder} (H : t.Sound) : (t.releaseHolder n x).Sound :=
  State.onPiece_sound H fun _ _ _ _ hp => ⟨Piece.releaseHolder_ok hp, Nat.le_refl _, fun _ => Piece.releaseHolder_closed⟩

@[simp] theorem State.swapHolder_sound {n : Nat} {x y : Holder} (H : t.Sound) : (t.swapHolder n x y).Sound :=
  State.onPiece_sound H fun _ _ _ _ hp => ⟨Piece.swapHolder_ok hp, Nat.le_refl _, fun _ => Piece.swapHolder_closed⟩

/-- A closed span inside the made length of the record it is put into. -/
theorem State.normalizeInto_sound {n : Nat} {x : Span} (H : t.Sound) (hx : x.isOpen = false)
    (ho : ∀ r p, t.find n = some r → r.body.piece = some p → x.Ok p.made) : (t.normalizeInto n x).Sound :=
  State.onPiece_sound H fun r p er ep hp =>
    ⟨Piece.addSpan_ok hp (ho r p er ep) (fun e => by simp [hx] at e), Nat.le_refl _, fun _ hc => Piece.addSpan_closed hc hx⟩

/-! ## Heads -/

@[simp] theorem State.makerFlawRise_sound (H : t.Sound) : (t.makerFlawRise h).Sound := by
  unfold State.makerFlawRise
  dsimp only
  repeat' split
  all_goals simp (maxDischargeDepth := 20) [H]

@[simp] theorem State.flawRises_sound (H : t.Sound) : (t.flawRises h).Sound := by
  unfold State.flawRises
  split <;> simp (maxDischargeDepth := 20) [H]

@[simp] theorem State.enterHeld_sound (H : t.Sound) : (t.enterHeld h).Sound := by
  unfold State.enterHeld
  dsimp only
  split <;> simp (maxDischargeDepth := 20) [H]

@[simp] theorem State.addHold_sound {x : HoldReason} (H : t.Sound) : (t.addHold h x).Sound := by
  unfold State.addHold
  dsimp only
  repeat' split
  all_goals simp (maxDischargeDepth := 20) [H]

@[simp] theorem State.dropHold_sound {x : HoldReason} (H : t.Sound) : (t.dropHold h x).Sound := State.updHead_sound H

@[simp] theorem State.enterCutting_sound (H : t.Sound) : (t.enterCutting h).Sound := by
  unfold State.enterCutting
  split <;> simp (maxDischargeDepth := 20) [H]

@[simp] theorem State.checkEnd_sound (H : t.Sound) : (t.checkEnd h).Sound := by
  unfold State.checkEnd
  repeat' split
  all_goals simp (maxDischargeDepth := 20) [H]

/-! ## Feeds -/

@[simp] theorem State.unbindSlot_sound {st : RecordState} {pos : Nat} {n : SlotIx} (H : t.Sound) :
    (t.unbindSlot h st pos n).Sound := by
  unfold State.unbindSlot
  dsimp only
  repeat' split
  all_goals simp (maxDischargeDepth := 20) [H]

@[simp] theorem State.checkLow_sound {n : SlotIx} {left : Nat} (H : t.Sound) : (t.checkLow h n left).Sound := by
  unfold State.checkLow
  dsimp only
  split <;> simp (maxDischargeDepth := 20) [H]

theorem State.fedBy_find {n : SlotIx} {r : Record} {b : StrandBody} (e : s.fedBy h n = some (r, b)) :
    s.find r.tag = some r ∧ r.body = .strand b := by
  unfold State.fedBy at e
  obtain ⟨m, -, e⟩ := Option.bind_eq_some_iff.mp e
  obtain ⟨x, ex, e⟩ := Option.bind_eq_some_iff.mp e
  split at e
  · rename_i hb
    cases e
    exact ⟨(State.find_mem ex).2 ▸ ex, hb⟩
  all_goals cases e

theorem State.sourceOf_find {r : Record} {b : RopeBody} (e : s.sourceOf h = some (r, b)) :
    s.find r.tag = some r ∧ r.body = .rope b := by
  unfold State.sourceOf at e
  obtain ⟨m, -, e⟩ := Option.bind_eq_some_iff.mp e
  obtain ⟨x, ex, e⟩ := Option.bind_eq_some_iff.mp e
  split at e
  · rename_i hb
    cases e
    exact ⟨(State.find_mem ex).2 ▸ ex, hb⟩
  all_goals cases e

theorem State.productOf_find {r : Record} (e : s.productOf h = some r) : s.find r.tag = some r := by
  obtain ⟨m, -, e⟩ := Option.bind_eq_some_iff.mp e
  exact (State.find_mem e).2 ▸ e

/-- A consumption draws within the made length (R131). -/
theorem StrandBody.draw_le {b : StrandBody} {n : Nat} (hb : b.consumed ≤ b.piece.made) :
    (b.draw n).consumed ≤ b.piece.made := by
  unfold StrandBody.draw StrandBody.top
  dsimp only
  omega

/-- What a consumption writes to a bound strand keeps the laws (R131). -/
theorem State.draw_sound {n : SlotIx} {r : Record} {b : StrandBody} {a : Nat} {f : StrandBody → StrandBody}
    (e : t.fedBy h n = some (r, b)) (hp : ∀ y, (f y).piece = y.piece) (hc : ∀ y, (f y).consumed = (b.draw a).consumed)
    (H : t.Sound) : (t.updRec r.tag fun x => x.onStrand f).Sound := by
  obtain ⟨er, eb⟩ := State.fedBy_find e
  refine State.updRec_sound_of (by simp) (fun x ex hx => Record.onStrand_ok hp (fun y ey _ => ?_) hx) H
  have : x = r := Option.some.inj (ex.symm.trans er)
  subst this
  have : y = b := by rw [eb] at ey; cases ey; rfl
  subst this
  rw [hc]
  have := hx.counts
  rw [eb] at this
  exact StrandBody.draw_le this

@[simp] theorem State.passFeed_sound {rope : Nat} {n : SlotIx} {added : Bool} (H : t.Sound) :
    (t.passFeed rope n added).Sound := by
  unfold State.passFeed
  split
  · exact State.releaseHolder_sound
      (State.updRec_sound (by simp) (fun _ => Record.onRope_ok (fun _ => rfl) (fun _ _ hc => hc)) H)
  · exact State.releaseHolder_sound H

@[simp] theorem State.takeUpSlot_sound {rope factor m m' : Nat} {n : SlotIx} (H : t.Sound) :
    (t.takeUpSlot h rope factor m m' n).Sound := by
  unfold State.takeUpSlot
  split
  · exact H
  rename_i r b e
  dsimp only
  have key := fun (a c : Nat) => State.draw_sound (a := a)
    (f := fun y => { y with consumed := (b.draw a).consumed, fraction := c }) e (fun _ => rfl) (fun _ => rfl) H
  repeat' split
  all_goals simp (maxDischargeDepth := 20) [key]

@[simp] theorem State.takeUp_sound {m m' : Nat} (H : t.Sound) : (t.takeUp h m m').Sound := by
  unfold State.takeUp
  split
  · exact H
  · split
    · exact State.foldl_sound (fun _ _ => State.takeUpSlot_sound) _ H
    all_goals exact H

@[simp] theorem State.chargeSlot_sound {amount pos : Nat} {a : State × Bool} {n : SlotIx} (H : a.1.Sound) :
    (State.chargeSlot h amount pos a n).1.Sound := by
  unfold State.chargeSlot
  dsimp only
  split
  · exact H
  split
  · exact H
  split
  · exact H
  rename_i r b e
  have key := State.draw_sound (a := amount) (f := fun y => { y with consumed := (b.draw amount).consumed }) e (fun _ => rfl)
    (fun _ => rfl) H
  split <;> simp (maxDischargeDepth := 20) [key]

@[simp] theorem State.chargeRow_sound {amount pos : Nat} (H : t.Sound) : (t.chargeRow h amount pos).1.Sound := by
  unfold State.chargeRow
  have e : ([(0 : SlotIx), 1].foldl (State.chargeSlot h amount pos) (t, false)).1.Sound := by
    rw [List.foldl_cons, List.foldl_cons, List.foldl_nil]
    have e1 : (State.chargeSlot h amount pos (t, false) 0).1.Sound := State.chargeSlot_sound H
    exact State.chargeSlot_sound e1
  generalize [(0 : SlotIx), 1].foldl (State.chargeSlot h amount pos) (t, false) = x at e
  dsimp only
  split
  · exact State.addHold_sound e
  · exact e

@[simp] theorem State.rejudgeTop_sound {n : SlotIx} (H : t.Sound) : (t.rejudgeTop h n).Sound := by
  unfold State.rejudgeTop
  repeat' split
  all_goals simp (maxDischargeDepth := 20) [H]

/-! ## Length, lay and knots -/

@[simp] theorem State.limitReached_sound (H : t.Sound) : (t.limitReached h).Sound := by
  unfold State.limitReached
  split <;> simp (maxDischargeDepth := 20) [H]

@[simp] theorem State.releaseGuard_sound {n m : Nat} (H : t.Sound) : (t.releaseGuard h n m).Sound := by
  unfold State.releaseGuard
  split <;> simp (maxDischargeDepth := 20) [H]

@[simp] theorem State.releaseJoin_sound {n m : Nat} (H : t.Sound) : (t.releaseJoin h n m).Sound := by
  unfold State.releaseJoin
  split <;> simp (maxDischargeDepth := 20) [H]

@[simp] theorem State.limitReached_find {n : Nat} : (s.limitReached h).find n = s.find n := by
  unfold State.limitReached
  split <;> rfl

/-- The made length of a record advances (R28). -/
theorem State.advanceTo_sound {r : Record} {m : Nat} (e : t.find r.tag = some r) (hm : r.made < m) (H : t.Sound) :
    (t.onPiece r.tag (Piece.advanceTo m)).Sound := by
  refine State.onPiece_sound H fun x p ex ep hp => ?_
  have : x = r := Option.some.inj (ex.symm.trans e)
  subst this
  have hmade : p.made < m := by simpa [Record.made, ep] using hm
  exact ⟨Piece.advanceTo_ok hp hmade, by rw [Piece.advanceTo_made]; omega, fun _ hc => Piece.advanceTo_closed hc⟩

@[simp] theorem State.advanceMade_sound {c : Nat} (H : t.Sound) : (t.advanceMade h c).Sound := by
  unfold State.advanceMade
  split
  · exact H
  rename_i r er
  dsimp only
  have e := State.productOf_find er
  generalize hs : (if lengthTop < r.made + c then
      (t.limitReached h).updHead h fun x => { x with pitchFraction := fine - 1 } else t) = s0
  have H0 : s0.Sound := by
    subst hs
    split <;> simp (maxDischargeDepth := 20) [H]
  have e0 : s0.find r.tag = some r := by
    subst hs
    split <;> simp [e]
  split
  · exact H0
  rename_i hm
  have key := State.advanceTo_sound e0 (Nat.lt_of_not_le hm) H0
  repeat' split
  all_goals simp (maxDischargeDepth := 20) [key]

@[simp] theorem State.unwindCarry_sound {c : Nat} (H : t.Sound) : (t.unwindCarry h c).Sound := by
  unfold State.unwindCarry
  dsimp only
  repeat' split
  all_goals simp (maxDischargeDepth := 20) [H]

@[simp] theorem State.encPulse_sound (H : t.Sound) : (t.encPulse h).Sound := by
  unfold State.encPulse
  dsimp only
  repeat' split
  all_goals simp (maxDischargeDepth := 20) [H]

@[simp] theorem State.makerFlawFall_sound (H : t.Sound) : (t.makerFlawFall h).Sound := by
  unfold State.makerFlawFall
  dsimp only
  repeat' split
  all_goals simp (maxDischargeDepth := 20) [H]

@[simp] theorem State.openJoin_sound {n m : Nat} (H : t.Sound) : (t.openJoin h n m).Sound := by
  unfold State.openJoin
  dsimp only
  split <;> simp (maxDischargeDepth := 20) [H]

@[simp] theorem State.endWindow_sound {r : Record} {w : LayWindow} (H : t.Sound) : (t.endWindow h r w).Sound := by
  unfold State.endWindow State.placeLay
  dsimp only
  repeat' split
  all_goals simp (maxDischargeDepth := 20) [H]

@[simp] theorem State.spinPulse_sound (H : t.Sound) : (t.spinPulse h).Sound := by
  unfold State.spinPulse State.openWindow State.spinWithin
  repeat' split
  all_goals simp (maxDischargeDepth := 20) [H]

theorem SpansOk.mono {a b : Nat} {l : List Span} (H : SpansOk a l) (hab : a ≤ b) (ho : ∀ x ∈ l, x.isOpen = false) :
    SpansOk b l where
  capacity := H.capacity
  spans x hx := ⟨(H.spans x hx).nonempty, Nat.le_trans (H.spans x hx).inside hab, (H.spans x hx).kinds,
    (H.spans x hx).openHolders, fun e => by rw [ho x hx] at e; cases e⟩
  apart := H.apart

theorem nextRow_bounds (n : Nat) : n ≤ nextRow n ∧ 1 ≤ nextRow n := by
  unfold nextRow rowTop
  split <;> omega

theorem Piece.countRow_ok {k : KindSet} {p : Piece} (hp : p.Ok) (hc : p.Closed) :
    (p.countRow k).1.Ok ∧ (p.countRow k).1.Closed := by
  have h1 : Piece.Ok { p with made := nextRow p.made } :=
    ⟨hp.list.mono (nextRow_bounds p.made).1 (Piece.openSpan_eq_none.mp hc.1), fun q e => by
      have : p.pending = some q := e
      simp [hc.2] at this⟩
  have h2 : Piece.Closed { p with made := nextRow p.made } := hc
  unfold Piece.countRow
  dsimp only
  split
  · exact ⟨h1, h2⟩
  · rename_i hk
    have hn := (nextRow_bounds p.made).2
    refine ⟨Piece.addSpan_ok h1 (Span.closed_ok (by omega) (Nat.le_refl _) (by simpa using hk)) (fun e => by cases e),
      Piece.addSpan_closed h2 rfl⟩

theorem Piece.countRow_made (k : KindSet) (p : Piece) : (p.countRow k).1.made = nextRow p.made := by
  unfold Piece.countRow
  dsimp only
  split <;> rfl

@[simp] theorem State.countRow_sound {n : Nat} {k : KindSet} (H : t.Sound) : (t.countRow n k).Sound := by
  unfold State.countRow
  split
  · rename_i r er
    split
    · rename_i hk
      refine State.onPiece_sound H fun x p ex ep hp => ?_
      have : x = r := Option.some.inj (ex.symm.trans er)
      subst this
      have := Piece.countRow_ok (k := k) hp ((H.find_ok er).closedPanel hk p ep)
      exact ⟨this.1, by rw [Piece.countRow_made]; exact (nextRow_bounds _).1, fun _ _ => this.2⟩
    · exact H
  · exact H

@[simp] theorem State.countMissed_sound {n m : Nat} (H : t.Sound) : (t.countMissed h n m).Sound := by
  unfold State.countMissed
  split
  · exact H
  · exact State.raiseAlarm_sound (State.updRec_sound (by simp) (fun _ => Record.onPanel_ok fun _ => rfl) H)

@[simp] theorem State.closeRow_sound (H : t.Sound) : (t.closeRow h).Sound := by
  unfold State.closeRow
  dsimp only
  repeat' split
  all_goals simp (maxDischargeDepth := 20) [H]

@[simp] theorem State.openRow_sound (H : t.Sound) : (t.openRow h).Sound := by
  unfold State.openRow
  repeat' split
  all_goals simp (maxDischargeDepth := 20) [H]

@[simp] theorem State.knotPulse_sound (H : t.Sound) : (t.knotPulse h).Sound := by
  unfold State.knotPulse State.countKnot State.strayKnot
  dsimp only
  repeat' split
  all_goals simp (maxDischargeDepth := 20) [H]

@[simp] theorem State.rowPulse_sound (H : t.Sound) : (t.rowPulse h).Sound := by
  unfold State.rowPulse
  split <;> simp (maxDischargeDepth := 20) [H]

@[simp] theorem State.rowExpiry_sound (H : t.Sound) : (t.rowExpiry h).Sound := by
  unfold State.rowExpiry
  split <;> simp (maxDischargeDepth := 20) [H]

end Sys2Proof.Machine
end

