-- ==== Sys2Proof/Laws/Answers.lean ====
section
/-! SUPPORT. The laws of the records, continued: the coil planner, the head state machine and the answers to requests. -/

namespace Sys2Proof.Machine

variable {h : HeadIx} {s t u : State}

/-! ## Coils -/

theorem State.createCoil_sound {rope e len : Nat} {g : Grade} {b : Bool} (H : t.Sound)
    (c : t.createCoil h rope e len g b = some u) : u.Sound := by
  unfold State.createCoil at c
  split at c
  · simp at c
  · rename_i hc
    obtain ⟨n, hn, rfl⟩ := Option.map_eq_some_iff.mp c
    obtain ⟨hr, hl⟩ := findSerial_spec H.tags.coils.serialRange hn
    have H' : { t with coilSerial := nextSerial n }.Sound :=
      ⟨⟨⟨H.tags.store.ascending, H.tags.store.capacity, H.tags.store.tags⟩,
        ⟨H.tags.coils.prefixRange, nextSerial_range hr⟩⟩, H.records⟩
    exact State.updHead_sound (State.enter_sound H' (by simpa using hc) hl (coilTag_range H.tags.coils.prefixRange hr)
      (Record.Ok.of_coil rfl))

@[simp] theorem State.downgradeCoils_sound {n : Nat} (H : t.Sound) : (t.downgradeCoils n).Sound := by
  refine State.foldl_sound (fun v r K => ?_) _ H
  unfold State.judgeCoil
  split <;> simp (maxDischargeDepth := 20) [State.downgradeCoil, K]

theorem State.addRopeSpan_sound {n : Nat} {x : Span} (H : t.Sound) (hx : x.isOpen = false)
    (ho : ∀ r p, t.find n = some r → r.body.piece = some p → x.Ok p.made) : (t.addRopeSpan n x).Sound := by
  have := State.normalizeInto_sound H hx ho
  unfold State.addRopeSpan
  dsimp only
  split <;> simp (maxDischargeDepth := 20) [this]

theorem State.unwindPosition_le {r : Record} {b : RopeBody} (e : s.sourceOf h = some (r, b)) :
    s.unwindPosition h ≤ b.currentEnd := by
  unfold State.unwindPosition
  rw [e]
  dsimp only
  omega

theorem RopeBody.currentEnd_le (b : RopeBody) : b.currentEnd ≤ b.piece.made := by
  unfold RopeBody.currentEnd
  omega

/-- A coiler's flaw interval lies inside the made length (R98). -/
theorem flawInterval_le {m g pr pf : Nat} (h : pf ≤ m) : (flawInterval m g pr pf).2 ≤ m := by
  unfold flawInterval
  repeat' split
  all_goals dsimp only
  all_goals omega

theorem State.coilerFlawFall_sound {pf : Nat} (H : t.Sound)
    (hp : ∀ r b, t.sourceOf h = some (r, b) → pf ≤ b.piece.made) : (t.coilerFlawFall h pf).Sound := by
  unfold State.coilerFlawFall
  split
  · rename_i pr r b _ es
    obtain ⟨er, eb⟩ := State.sourceOf_find es
    have hi := flawInterval_le (g := (t.head h).settings.guardMargin) (pr := pr) (hp r b es)
    dsimp only
    generalize flawInterval b.piece.made (t.head h).settings.guardMargin pr pf = i at hi
    have key : (if i.1 < i.2 then t.addRopeSpan r.tag (Span.closed i.1 i.2 (KindSet.only .flaw)) else t).Sound := by
      split
      · rename_i hlt
        refine State.addRopeSpan_sound H rfl fun x p ex ep => ?_
        have : x = r := Option.some.inj (ex.symm.trans er)
        subst this
        have : p = b.piece := by rw [eb] at ep; exact (Option.some.inj ep).symm
        subst this
        exact Span.closed_ok hlt hi rfl
      · exact H
    split <;> simp (maxDischargeDepth := 20) [key]
  · exact H

theorem State.flawAtLeaving_sound {pf : Nat} (H : t.Sound)
    (hp : ∀ r b, t.sourceOf h = some (r, b) → pf ≤ b.piece.made) : (t.flawAtLeaving h pf).Sound := by
  unfold State.flawAtLeaving
  split
  · exact State.coilerFlawFall_sound H hp
  · exact H

/-- The waste length of a rope rises by at most its current end (R14, R23). -/
theorem State.addWaste_sound {rope n : Nat} (H : t.Sound)
    (hn : ∀ r b, t.find rope = some r → r.body = .rope b → n ≤ b.currentEnd) : (t.addWaste rope n).Sound := by
  refine State.updRec_sound_of (by simp) (fun r er hr => Record.onRope_ok (fun _ => rfl) (fun b eb hc => ?_) hr) H
  have := hn r b er eb
  unfold RopeBody.currentEnd at this
  dsimp only
  omega

theorem State.coilOf_find {n : Nat} {c : CoilBody} (e : s.coilOf n = some c) : ∃ r, s.find n = some r ∧ r.body = .coil c := by
  unfold State.coilOf at e
  obtain ⟨r, er, e⟩ := Option.bind_eq_some_iff.mp e
  split at e
  · rename_i eb
    cases e
    exact ⟨r, er, eb⟩
  all_goals cases e

/-- A coil is wound over at most the rope's current end (R14, R23, R159). -/
theorem State.windCoil_sound {n rope e a : Nat} {cs : Bool} (H : t.Sound)
    (hn : ∀ r b, t.find rope = some r → r.body = .rope b → a ≤ b.currentEnd) : (t.windCoil h n rope e a cs).Sound := by
  unfold State.windCoil
  split
  · exact H
  rename_i c ec
  obtain ⟨x, ex, ebx⟩ := State.coilOf_find ec
  dsimp only
  generalize hw : c.wind (e - a) e cs (t.spansOf rope) = w
  have H1 : (t.updRec n fun r => r.windTo w).Sound :=
    State.updRec_sound_of (Record.windTo_tag w) (fun _ _ _ => Record.Ok.of_coil rfl) H
  have H2 : ((t.updRec n fun r => r.windTo w).updRec rope fun r =>
      r.onRope fun b => { b with packed := b.packed + a }).Sound := by
    refine State.updRec_sound_of (by simp) (fun r er hr => Record.onRope_ok (fun _ => rfl) (fun b eb hc => ?_) hr) H1
    by_cases en : rope = n
    · subst en
      rw [State.find_updRec (Record.windTo_tag w)] at er
      obtain ⟨y, -, rfl⟩ := Option.map_eq_some_iff.mp er
      cases eb
    · rw [State.find_updRec_ne (Record.windTo_tag w) en] at er
      have := hn r b er eb
      unfold RopeBody.currentEnd at this
      dsimp only
      omega
  split <;> simp (maxDischargeDepth := 20) [H2]

/-- The room that a source rope has for what is unwound from it (R14). -/
theorem State.sourceOf_room {r : Record} {b : RopeBody} {n : Nat} (e : s.sourceOf h = some (r, b)) (hn : n ≤ b.currentEnd) :
    ∀ x y, s.find r.tag = some x → x.body = .rope y → n ≤ y.currentEnd := by
  intro x y ex ey
  obtain ⟨er, eb⟩ := State.sourceOf_find e
  have : x = r := Option.some.inj (ex.symm.trans er)
  subst this
  rw [eb] at ey
  cases ey
  exact hn

@[simp] theorem State.completeSegment_sound (H : t.Sound) : (t.completeSegment h).Sound := by
  unfold State.completeSegment
  split
  · rename_i g r b _ es
    dsimp only
    have room := State.sourceOf_room es (Nat.min_le_right g.unwound b.currentEnd)
    split
    · rename_i n _
      have key := State.windCoil_sound (h := h) (n := n) (e := b.currentEnd) (cs := false) H room
      split <;> simp (maxDischargeDepth := 20) [key]
    · simp (maxDischargeDepth := 20) [State.addWaste_sound H room]
  · exact H

theorem State.cutShort_sound {r : Record} {b : RopeBody} (H : t.Sound) (es : t.sourceOf h = some (r, b)) :
    (t.cutShort h r.tag b.currentEnd).Sound := by
  unfold State.cutShort
  dsimp only
  split
  · rename_i g _
    refine State.raise_sound ?_
    split
    · exact State.windCoil_sound H (State.sourceOf_room es (Nat.min_le_right _ _))
    · exact State.addWaste_sound H (State.sourceOf_room es (Nat.min_le_right _ _))
  · have := State.addWaste_sound H (State.sourceOf_room es (Nat.min_le_right (t.head h).unplanned b.currentEnd))
    split <;> simp (maxDischargeDepth := 20) [this]

@[simp] theorem State.giveUpRope_sound (H : t.Sound) : (t.giveUpRope h).Sound := by
  unfold State.giveUpRope
  repeat' split
  all_goals simp (maxDischargeDepth := 20) [H]

@[simp] theorem State.endSegment_sound (H : t.Sound) : (t.endSegment h).Sound := by
  have Hf : (t.flawAtLeaving h (t.unwindPosition h)).Sound :=
    State.flawAtLeaving_sound H fun r b e => Nat.le_trans (State.unwindPosition_le e) b.currentEnd_le
  unfold State.endSegment
  dsimp only
  split
  · exact Hf
  · rename_i es
    exact State.giveUpRope_sound (State.cutShort_sound Hf es)

theorem State.endRope_sound {rope : Nat} (H : t.Sound) : (t.endRope h rope).Sound := by
  have : (t.flawAtLeaving h 0).Sound := State.flawAtLeaving_sound H fun _ _ _ => Nat.zero_le _
  unfold State.endRope
  dsimp only
  simp (maxDischargeDepth := 20) [this]

@[simp] theorem State.planWaits_sound {x : HoldReason} (H : t.Sound) : (t.planWaits h x).Sound := by
  unfold State.planWaits
  dsimp only
  split <;> simp (maxDischargeDepth := 20) [H]

@[simp] theorem State.planMade_sound (H : t.Sound) : (t.planMade h).Sound := State.updHead_sound H

@[simp] theorem State.applyPlan_sound {rope e : Nat} {p : Plan} (H : t.Sound) : (t.applyPlan h rope e p).Sound := by
  unfold State.applyPlan
  split
  · simp (maxDischargeDepth := 20) [H]
  · simp (maxDischargeDepth := 20) [H]
  · split
    · rename_i c
      exact State.planMade_sound (State.createCoil_sound H c)
    · simp (maxDischargeDepth := 20) [H]

@[simp] theorem State.planPoint_sound (H : t.Sound) : (t.planPoint h).Sound := by
  unfold State.planPoint
  split
  · exact H
  rename_i r b es
  dsimp only
  have key : (t.openPlan h r.tag b.currentEnd).Sound := by
    have := State.addWaste_sound H (State.sourceOf_room es (Nat.min_le_right (t.head h).unplanned b.currentEnd))
    unfold State.openPlan
    dsimp only
    split <;> simp (maxDischargeDepth := 20) [this]
  split
  · exact State.endRope_sound key
  · simp (maxDischargeDepth := 20) [key]

@[simp] theorem State.storeFullNotification_sound (H : t.Sound) : (t.storeFullNotification h).Sound := by
  unfold State.storeFullNotification
  dsimp only
  repeat' split
  all_goals simp (maxDischargeDepth := 20) [H]

/-! ## The head state machine -/

theorem State.endMaking_sound {f : Record → Record} (hf : ∀ r, (f r).tag = r.tag) (ho : ∀ r, r.Ok → (f r).Ok) (H : t.Sound) :
    (t.endMaking h f).Sound := by
  unfold State.endMaking
  split
  · exact H
  · exact State.updRec_sound hf ho (State.foldl_sound (fun _ _ => State.unbindSlot_sound) _ H)

theorem State.undoBinding_sound (H : t.Sound) : (t.undoBinding h).Sound := by
  unfold State.undoBinding
  dsimp only
  split
  · exact State.endMaking_sound (by simp) (fun _ => Record.unbindTo_ok) H
  · split <;> simp (maxDischargeDepth := 20) [H]

theorem State.settleRecords_sound {f : Record → Record} (hf : ∀ r, (f r).tag = r.tag) (ho : ∀ r, r.Ok → (f r).Ok)
    (H : t.Sound) : (t.settleRecords h f).Sound := by
  unfold State.settleRecords State.endRunning
  repeat' split
  all_goals
    first
    | exact State.undoBinding_sound H
    | exact State.endMaking_sound hf ho (State.closeRow_sound H)
    | exact State.endMaking_sound hf ho H
    | simp (maxDischargeDepth := 20) [H]

@[simp] theorem State.releaseHead_sound (H : t.Sound) : (t.releaseHead h).Sound :=
  State.updHead_sound (State.settleRecords_sound (by simp) (fun _ => Record.unbindTo_ok) H)

@[simp] theorem State.disconnect_sound (H : t.Sound) : (t.disconnect h).Sound :=
  State.updHead_sound (State.settleRecords_sound (by simp) (fun _ => Record.interrupt_ok) H)

@[simp] theorem State.completeCut_sound (H : t.Sound) : (t.completeCut h).Sound := by
  have key : ∀ v : State, v.Sound → (v.endMaking h fun r => r.unbindTo .made).Sound := fun v Hv =>
    State.endMaking_sound (by simp) (fun _ => Record.unbindTo_ok) Hv
  unfold State.completeCut
  split <;> simp (maxDischargeDepth := 20) [H, key]

@[simp] theorem State.cutWaitExpiry_sound (H : t.Sound) : (t.cutWaitExpiry h).Sound := by
  unfold State.cutWaitExpiry
  split <;> simp (maxDischargeDepth := 20) [H]

@[simp] theorem State.checkFeeds_sound (H : t.Sound) : (t.checkFeeds h).Sound := by
  unfold State.checkFeeds
  split <;> simp (maxDischargeDepth := 20) [H]

@[simp] theorem State.runRise_sound (H : t.Sound) : (t.runRise h).Sound := by
  unfold State.runRise
  dsimp only
  repeat' split
  all_goals simp (maxDischargeDepth := 20) [H]

@[simp] theorem State.runFall_sound (H : t.Sound) : (t.runFall h).Sound := by
  unfold State.runFall
  dsimp only
  repeat' split
  all_goals simp (maxDischargeDepth := 20) [H]

@[simp] theorem State.flawRiseEdge_sound (H : t.Sound) : (t.flawRiseEdge h).Sound := by
  unfold State.flawRiseEdge
  dsimp only
  split <;> simp (maxDischargeDepth := 20) [H]

@[simp] theorem State.flawFallEdge_sound (H : t.Sound) : (t.flawFallEdge h).Sound := by
  have e : (t.updHead h fun x => { x with flawHigh := false }).sourceOf h = t.sourceOf h := by
    simp [State.sourceOf]
  have key : ((t.updHead h fun x => { x with flawHigh := false }).coilerFlawFall h (t.unwindPosition h)).Sound :=
    State.coilerFlawFall_sound (State.updHead_sound H) fun r b es =>
      Nat.le_trans (State.unwindPosition_le (e ▸ es)) b.currentEnd_le
  unfold State.flawFallEdge
  dsimp only
  repeat' split
  all_goals simp (maxDischargeDepth := 20) [H, key]

@[simp] theorem State.senseSettled_sound (H : t.Sound) : (t.senseSettled h).Sound := by
  unfold State.senseSettled
  dsimp only
  repeat' split
  all_goals simp (maxDischargeDepth := 20) [H]

/-! ## The clock and reset -/

@[simp] theorem State.tick_sound {pins : Vector SensePins 16} (H : t.Sound) : (t.tick pins).Sound := H.of_eq rfl rfl rfl

@[simp] theorem State.trimPeriod_sound (H : t.Sound) : t.trimPeriod.Sound := H.of_eq rfl rfl rfl

theorem State.reset_sound : State.reset.Sound :=
  ⟨⟨⟨List.Pairwise.nil, Nat.zero_le _, fun _ e => by cases e⟩, ⟨Nat.zero_le _, by decide⟩⟩, fun _ e => by cases e⟩

theorem State.afterReset_sound (s : State) : s.afterReset.Sound := State.reset_sound.of_eq rfl rfl rfl

/-! ## The ports -/

@[simp] theorem State.spiFrame_sound {e : FrameEdges} {b : List Byte} (H : t.Sound) : (t.spiFrame e b).Sound := H.of_eq rfl rfl rfl

@[simp] theorem State.slotEnd_sound {l : List LineByte} (H : t.Sound) : (t.slotEnd l).Sound := by
  unfold State.slotEnd
  dsimp only
  repeat' split
  all_goals simp (maxDischargeDepth := 20) [H]

@[simp] theorem State.respond_sound {p : Port} {b : List Byte} (H : t.Sound) : (t.respond p b).Sound := by
  cases p <;> exact H.of_eq rfl rfl rfl

/-- A request keeps the laws when its answer does. -/
theorem State.takeRequest_sound {p : Port} {c : Instr} {answer : State → State × Reply} (H : t.Sound)
    (ha : (answer t).1.Sound) : (t.takeRequest p c answer).Sound := by
  unfold State.takeRequest
  dsimp only
  repeat' split
  all_goals simp (maxDischargeDepth := 20) [H, ha]

@[simp] theorem State.refuse_sound {c : Completion} (H : t.Sound) : (t.refuse c).1.Sound := H

theorem State.doneMark_sound {n : Nat} {f : State → State} (H : (f t).Sound) : (t.doneMark n f).1.Sound :=
  State.commit_sound H

/-! ## Requests on records -/

theorem State.withFreeCount_sound {n : Nat} (H : t.Sound) : { t with freeCount := n }.Sound := H.of_eq rfl rfl rfl

theorem answerLookup_sound {tag : Nat} (H : t.Sound) : (answerLookup tag t).1.Sound := by
  unfold answerLookup
  split <;> exact H

theorem answerNext_sound {a k st : Nat} (H : t.Sound) : (answerNext a k st t).1.Sound := by
  unfold answerNext
  repeat' split
  all_goals exact H

theorem answerReadSpans_sound {tag : Nat} (H : t.Sound) : (answerReadSpans tag t).1.Sound := by
  unfold answerReadSpans
  repeat' split
  all_goals exact H

theorem answerReadSources_sound {tag first : Nat} (H : t.Sound) : (answerReadSources tag first t).1.Sound := by
  unfold answerReadSources
  repeat' split
  all_goals first | exact H | exact State.withFreeCount_sound H

theorem Piece.fresh_ok : Piece.fresh.Ok := ⟨⟨Nat.zero_le _, by simp [Piece.fresh], List.Pairwise.nil⟩, by simp [Piece.fresh]⟩

theorem Piece.fresh_closed : Piece.fresh.Closed := ⟨rfl, rfl⟩

/-- A record as CREATE makes it keeps the laws (R42). -/
theorem freshBody_ok {l : List Item} {k : RecordKind} {b : Body} {n : Nat} {st : RecordState} {now : Seconds}
    (e : freshBody l k = some b) : (Record.fresh n st now b).Ok := by
  have hp : ∀ p, b.piece = some p → p = Piece.fresh := by
    intro p ep
    cases k <;> cases e <;> exact (Option.some.inj ep).symm
  refine ⟨fun p ep => hp p ep ▸ Piece.fresh_ok, fun _ p ep => hp p ep ▸ Piece.fresh_closed,
    fun _ p ep => hp p ep ▸ Piece.fresh_closed, ?_⟩
  cases k <;> cases e <;> simp [Record.fresh, Body.CountsOk]

theorem answerCreate_sound {p : Port} {tag kind : Nat} {l : List Item} (H : t.Sound) : (answerCreate p tag kind l t).1.Sound := by
  unfold answerCreate
  split
  · exact H
  split
  · exact H
  rename_i hl
  split
  · exact H
  split
  · exact H
  rename_i b eb
  split
  · exact H
  rename_i hb
  split
  · exact State.raiseStore_sound (f := fun c => { c with createFull := true }) H
  rename_i hc
  simp only [Bool.or_eq_true, decide_eq_true_eq, not_or] at hb
  exact State.change_sound (State.enter_sound H (by omega) (by simpa using hl)
    ⟨by have := hb.1.2; simp; omega, by have := hb.2; simp; omega⟩ (freshBody_ok eb))

@[simp] theorem State.amend_sound {n : Nat} {l : List Item} (H : t.Sound) : (t.amend n l).Sound := by
  have key : (t.updRec n fun r => { r with body := l.foldl (fun b it => b.setSpec it) r.body }).Sound := by
    refine State.updRec_sound (fun _ => rfl) (fun r hr => ?_) H
    obtain ⟨h1, h2, h3⟩ := Body.setSpecs_ok l r.body
    exact hr.of_eq h1 h2 (fun e => e) h3.mpr
  unfold State.amend
  dsimp only
  repeat' split
  all_goals simp (maxDischargeDepth := 20) [key]

theorem answerAmend_sound {p : Port} {tag : Nat} {m : Mark} {l : List Item} (H : t.Sound) : (answerAmend p tag m l t).1.Sound := by
  unfold answerAmend
  repeat' split
  all_goals first | exact H | exact State.doneMark_sound (State.amend_sound H)

theorem State.addSpanTo_sound {r : Record} {n : Span} (H : t.Sound) (e : t.find r.tag = some r) (hn : n.isOpen = false)
    (ho : n.Ok r.made) : (t.addSpanTo r n).Sound := by
  have ok : ∀ x p, t.find r.tag = some x → x.body.piece = some p → n.Ok p.made := by
    intro x p ex ep
    have : x = r := Option.some.inj (ex.symm.trans e)
    subst this
    simpa [Record.made, ep] using ho
  have key := State.normalizeInto_sound H hn ok
  have key2 := State.addRopeSpan_sound H hn ok
  unfold State.addSpanTo
  dsimp only
  repeat' split
  all_goals simp (maxDischargeDepth := 20) [key, key2]

theorem answerAddSpan_sound {p : Port} {tag : Nat} {m : Mark} {lo hi k : Nat} (H : t.Sound) :
    (answerAddSpan p tag m lo hi k t).1.Sound := by
  unfold answerAddSpan
  split
  · exact H
  split
  · exact H
  rename_i r er
  split
  · exact H
  split
  · exact H
  split
  · exact H
  split
  · exact H
  rename_i hr
  split
  · exact H
  dsimp only
  split
  · exact H
  have hr' := not_or.mp hr
  refine State.doneMark_sound (State.addSpanTo_sound H ((State.find_mem er).2 ▸ er) rfl
    (Span.closed_ok (by omega) (by omega) ?_))
  rename_i k' _ _
  cases k' <;> rfl

theorem answerConclude_sound {p : Port} {tag : Nat} {m : Mark} (H : t.Sound) : (answerConclude p tag m t).1.Sound := by
  unfold answerConclude
  split
  · exact H
  split
  · exact H
  rename_i r er
  split
  · exact H
  split
  · exact H
  rename_i hs
  split
  · exact H
  refine State.doneMark_sound (State.updRec_sound_of (fun _ => rfl) (fun x ex hx => ?_) H)
  have : x = r := Option.some.inj (ex.symm.trans er)
  subst this
  have : x.state = .interrupted := by simpa using hs
  exact hx.of_eq rfl rfl (fun _ => by rw [this]; decide) (fun e => e)

theorem answerBand_sound {p : Port} {tag : Nat} {m : Mark} (H : t.Sound) : (answerBand p tag m t).1.Sound := by
  unfold answerBand
  split
  · exact H
  split
  · exact H
  rename_i r er
  split
  · exact H
  rename_i hk
  split
  · exact H
  split
  · exact H
  refine State.doneMark_sound (State.updRec_sound_of (by simp) (fun x ex hx => ?_) H)
  have : x = r := Option.some.inj (ex.symm.trans er)
  subst this
  have hk' : x.kind = .coil := by simpa using hk
  cases eb : x.body with
  | coil c => exact Record.Ok.of_coil (c := { c with bandTime := some t.clock.seconds }) (by simp [Record.onCoil, eb])
  | strand b => simp [Record.kind, eb, Body.kind] at hk'
  | rope b => simp [Record.kind, eb, Body.kind] at hk'
  | panel b => simp [Record.kind, eb, Body.kind] at hk'

theorem answerRetire_sound {p : Port} {tag : Nat} {m : Mark} (H : t.Sound) : (answerRetire p tag m t).1.Sound := by
  unfold answerRetire
  repeat' split
  all_goals first | exact H | exact State.change_sound (State.leave_sound H)

/-! ## Requests on heads -/

@[simp] theorem State.addEmptyFeeds_sound {r : Record} (H : t.Sound) : (t.addEmptyFeeds h r).Sound := by
  unfold State.addEmptyFeeds
  split
  · refine State.foldl_sound (fun v n K => ?_) _ H
    split <;> simp (maxDischargeDepth := 20) [K]
  all_goals exact H

@[simp] theorem State.joinResumed_sound {r : Record} (H : t.Sound) : (t.joinResumed h r).Sound := by
  unfold State.joinResumed
  split <;> simp (maxDischargeDepth := 20) [H]

@[simp] theorem State.bindProduct_sound {r : Record} (H : t.Sound) : (t.bindProduct h r).Sound := by
  have key : (t.updRec r.tag fun x => x.bindAs .making h .product).Sound :=
    State.updRec_sound (by simp) (fun _ => Record.bindAs_making_ok) H
  unfold State.bindProduct
  simp (maxDischargeDepth := 20) [key]

theorem answerBindProduct_sound {p : Port} {n tag : Nat} {m : Mark} (H : t.Sound) : (answerBindProduct p n tag m t).1.Sound := by
  unfold answerBindProduct
  repeat' split
  all_goals first | exact H | exact State.doneMark_sound (State.bindProduct_sound H)

theorem State.bindInUse_sound {n : Nat} {ro : Role} {f : StrandBody → StrandBody} {r : Record} (H : t.Sound)
    (e : t.find n = some r) (hs : r.state ≠ .making) (hp : ∀ b, (f b).piece = b.piece)
    (hc : ∀ b, (f b).consumed = b.consumed) : (t.updRec n fun x => (x.bindAs .inUse h ro).onStrand f).Sound := by
  refine State.updRec_sound_of (by simp) (fun x ex hx => ?_) H
  have : x = r := Option.some.inj (ex.symm.trans e)
  subst this
  exact Record.onStrand_ok hp (fun b _ hb => by rw [hc]; exact hb) (Record.bindAs_ok hs hx)

theorem State.bindSource_sound {n : Nat} {r : Record} (H : t.Sound) (e : t.find n = some r) (hs : r.state ≠ .making) :
    (t.bindSource h n).Sound := by
  have key : (t.updRec n fun x => x.bindAs .inUse h .source).Sound := by
    refine State.updRec_sound_of (by simp) (fun x ex hx => ?_) H
    have : x = r := Option.some.inj (ex.symm.trans e)
    subst this
    exact Record.bindAs_ok hs hx
  unfold State.bindSource
  simp (maxDischargeDepth := 20) [key]

theorem answerBindSource_sound {p : Port} {n tag : Nat} {m : Mark} (H : t.Sound) : (answerBindSource p n tag m t).1.Sound := by
  unfold answerBindSource
  split
  · exact H
  split
  · exact H
  split
  · exact H
  rename_i r er
  split
  · exact H
  split
  · exact H
  split
  · exact H
  split
  · exact H
  rename_i hs
  split
  · exact H
  have : r.state = .made := by simpa using hs
  exact State.doneMark_sound (State.bindSource_sound H er (by rw [this]; decide))

@[simp] theorem State.judgeTop_sound {n : SlotIx} {b : StrandBody} {q : Record} (H : t.Sound) : (t.judgeTop h n b q).Sound := by
  unfold State.judgeTop
  dsimp only
  repeat' split
  all_goals simp (maxDischargeDepth := 20) [H]

theorem State.bindFeed_sound {n : SlotIx} {r q : Record} {b : StrandBody} (H : t.Sound) (e : t.find r.tag = some r)
    (hs : r.state ≠ .making) : (t.bindFeed h n r b q).Sound := by
  have key := State.bindInUse_sound (h := h) (ro := .feed n) (f := fun y => { y with fraction := 0 }) H e hs (fun _ => rfl)
    (fun _ => rfl)
  unfold State.bindFeed
  dsimp only
  split <;> simp (maxDischargeDepth := 20) [key]

theorem answerBindFeed_sound {p : Port} {n sl tag : Nat} {m : Mark} (H : t.Sound) : (answerBindFeed p n sl tag m t).1.Sound := by
  unfold answerBindFeed
  split
  · exact H
  split
  · exact H
  split
  · exact H
  rename_i r er
  split
  · exact H
  split
  · exact H
  · exact H
  · exact H
  split
  · exact H
  split
  · exact H
  split
  · exact H
  rename_i hs
  split
  · exact H
  split
  · exact H
  · exact H
  split
  · exact H
  have : r.state = .made := by simpa using hs
  exact State.doneMark_sound (State.bindFeed_sound H ((State.find_mem er).2 ▸ er) (by rw [this]; decide))

@[simp] theorem State.emptySlot_sound {n : SlotIx} {q : Record} (H : t.Sound) : (t.emptySlot h n q).Sound := by
  unfold State.emptySlot
  repeat' split
  all_goals simp (maxDischargeDepth := 20) [H]

@[simp] theorem State.unbindFeed_sound {n : SlotIx} {q : Record} (H : t.Sound) : (t.unbindFeed h n q).Sound := by
  unfold State.unbindFeed
  dsimp only
  split <;> simp (maxDischargeDepth := 20) [H]

theorem answerUnbindFeed_sound {p : Port} {n sl : Nat} (H : t.Sound) : (answerUnbindFeed p n sl t).1.Sound := by
  unfold answerUnbindFeed
  repeat' split
  all_goals first | exact H | exact State.change_sound (State.unbindFeed_sound H)

theorem answerRelease_sound {p : Port} {n : Nat} (H : t.Sound) : (answerRelease p n t).1.Sound := by
  unfold answerRelease
  repeat' split
  all_goals first | exact H | exact State.change_sound (State.releaseHead_sound H)

@[simp] theorem State.enqueue_sound {o : CoilOrder} (H : t.Sound) : (t.enqueue h o).Sound := by
  unfold State.enqueue
  dsimp only
  split <;> simp (maxDischargeDepth := 20) [H]

theorem answerEnqueue_sound {p : Port} {n l c g : Nat} (H : t.Sound) : (answerEnqueue p n l c g t).1.Sound := by
  unfold answerEnqueue
  dsimp only
  repeat' split
  all_goals first | exact H | exact State.change_sound (State.enqueue_sound H)

theorem answerClearQueue_sound {p : Port} {n : Nat} (H : t.Sound) : (answerClearQueue p n t).1.Sound := by
  unfold answerClearQueue
  repeat' split
  all_goals first | exact H | exact State.updHead_sound H

theorem answerHeadStatus_sound {n : Nat} (H : t.Sound) : (answerHeadStatus n t).1.Sound := by
  unfold answerHeadStatus
  split
  · exact H
  · exact State.withFreeCount_sound H

theorem answerSetHead_sound {p : Port} {n : Nat} {l : List Item} (H : t.Sound) : (answerSetHead p n l t).1.Sound := by
  unfold answerSetHead
  dsimp only
  repeat' split
  all_goals first | exact H | exact State.updHead_sound H

/-! ## Requests on the device -/

theorem answerSetClock_sound {p : Port} {n : Nat} (H : t.Sound) : (answerSetClock p n t).1.Sound := by
  unfold answerSetClock
  split
  · exact H
  · exact H.of_eq rfl rfl rfl

theorem answerReadEvents_sound {p : Port} (H : t.Sound) : (answerReadEvents p t).1.Sound := by
  unfold answerReadEvents
  repeat' split
  all_goals first | exact H | exact State.updAttn_sound (f := fun a => a.clear a.flags) H

theorem answerClearEvents_sound {p : Port} {w : FlagWord} (H : t.Sound) : (answerClearEvents p w t).1.Sound := by
  unfold answerClearEvents
  dsimp only
  split
  · exact H
  · exact State.updAttn_sound (f := fun a => a.clear w) H

theorem State.writeDevice_store (n v : Nat) : (t.writeDevice n v).store = t.store := by
  unfold State.writeDevice
  repeat' split
  all_goals rfl

theorem State.writeDeviceList_sound {l : List Item} (H : t.Sound) : (t.writeDeviceList l).Sound := by
  refine State.foldl_sound (fun v it K => ?_) _ H
  split
  · exact ⟨State.writeDevice_tagsOk K.tags, fun r hr => K.records r (State.writeDevice_store _ _ ▸ hr)⟩
  · exact K

theorem answerSetDevice_sound {p : Port} {l : List Item} (H : t.Sound) : (answerSetDevice p l t).1.Sound := by
  unfold answerSetDevice
  dsimp only
  repeat' split
  all_goals first | exact H | exact State.writeDeviceList_sound H

end Sys2Proof.Machine
end

