-- ==== Sys2Proof/Laws/Bytes.lean ====
section
/-! SUPPORT. Bytes of numbers and the parts of a request's body: what is written is read back (R181). -/

namespace Sys2Proof

/-! ## Numbers -/

@[simp] theorem beBytes_length (w n : Nat) : (beBytes w n).length = w := by
  induction w generalizing n with
  | zero => rfl
  | succ w ih => simp [beBytes, ih]

/-- Bytes read after others: the number so far moves up by one byte for each of them. -/
theorem beNat_foldl (bs : List Byte) (a : Nat) :
    bs.foldl (fun n b => n * 256 + b.toNat) a = a * 256 ^ bs.length + beNat bs := by
  induction bs generalizing a with
  | nil => simp [beNat]
  | cons b l ih =>
    have e : beNat (b :: l) = (0 * 256 + b.toNat) * 256 ^ l.length + beNat l := by rw [← ih]; rfl
    rw [List.foldl_cons, ih, e]
    simp only [List.length_cons, Nat.pow_succ]
    ring

theorem beNat_cons (b : Byte) (l : List Byte) : beNat (b :: l) = b.toNat * 256 ^ l.length + beNat l := by
  rw [beNat, List.foldl_cons, beNat_foldl]
  simp

/-- The bytes of a number spell it modulo their width (R181). -/
theorem beNat_beBytes (w n : Nat) : beNat (beBytes w n) = n % 256 ^ w := by
  induction w with
  | zero => simp [beBytes, beNat, Nat.mod_one]
  | succ w ih =>
    rw [beBytes, beNat_cons, beBytes_length, ih]
    have h : (BitVec.ofNat 8 (n / 256 ^ w)).toNat = n / 256 ^ w % 256 := by simp
    rw [h, Nat.pow_succ, Nat.mod_mul]
    ring

theorem beNat_beBytes_of_lt {w n : Nat} (h : n < 256 ^ w) : beNat (beBytes w n) = n := by
  rw [beNat_beBytes, Nat.mod_eq_of_lt h]

/-! ## Fields -/

theorem readFixed_fieldBytes {fs : List (Nat × Nat)} (h : fieldsFit fs = true) (rest : List Byte) :
    readFixed (fs.map Prod.fst) (fieldBytes fs ++ rest) = some (fs.map Prod.snd, rest) := by
  induction fs with
  | nil => rfl
  | cons f fs ih =>
    simp only [fieldsFit, List.all_cons, Bool.and_eq_true, decide_eq_true_eq] at h ih
    have e : fieldBytes (f :: fs) ++ rest = beBytes f.1 f.2 ++ (fieldBytes fs ++ rest) := by
      simp [fieldBytes]
    rw [e, List.map_cons, readFixed]
    have hl : (beBytes f.1 f.2).length = f.1 := beBytes_length _ _
    have h1 : (beBytes f.1 f.2 ++ (fieldBytes fs ++ rest)).take f.1 = beBytes f.1 f.2 := List.take_left' hl
    have h2 : (beBytes f.1 f.2 ++ (fieldBytes fs ++ rest)).drop f.1 = fieldBytes fs ++ rest := List.drop_left' hl
    rw [if_neg (by simp), h1, h2, ih h.2, beNat_beBytes_of_lt h.1]
    rfl

theorem readExact_fieldBytes {fs : List (Nat × Nat)} (h : fieldsFit fs = true) :
    readExact (fs.map Prod.fst) (fieldBytes fs) = some (fs.map Prod.snd) := by
  have := readFixed_fieldBytes h []
  rw [List.append_nil] at this
  rw [readExact, this]

/-! ## Lists of items -/

/-- The tables whose numbers fit their byte, those of AMEND with room for the absent bit. -/
def NumbersFit (width : Nat → Option Nat) (amend : Bool) : Prop :=
  ∀ n w, width n = some w → n < 256 ∧ (amend = true → n < 128)

theorem specWidth_fit (a : Bool) : NumbersFit specWidth a := by
  intro n w e
  unfold specWidth at e
  split at e <;> first | (cases e; done) | simp

theorem settingWidth_fit : NumbersFit settingWidth false := by
  intro n w e
  unfold settingWidth at e
  split at e <;> first | (cases e; done) | simp

theorem deviceWidth_fit : NumbersFit deviceWidth false := by
  intro n w e
  unfold deviceWidth at e
  refine ⟨?_, by simp⟩
  repeat' split at e
  all_goals first | omega | cases e

theorem readItems_listBytes {width : Nat → Option Nat} {amend : Bool} (hw : NumbersFit width amend) {l : List Item}
    (h : l.all (itemFits width amend) = true) : readItems width amend l.length (l.flatMap (itemBytes width)) = some l := by
  induction l with
  | nil => rfl
  | cons it l ih =>
    rw [List.all_cons, Bool.and_eq_true] at h
    rw [List.flatMap_cons, List.length_cons]
    obtain ⟨n, v⟩ := it
    have h1 := h.1
    cases v with
    | none =>
      simp only [itemFits] at h1
      cases e : width n with
      | none => simp [e] at h1
      | some w =>
        have ha : amend = true := by simpa [e] using h1
        have hn : n < 128 := (hw n w e).2 ha
        subst ha
        have hb : (BitVec.ofNat 8 (n + 128)).toNat = n + 128 := by simp; omega
        simp only [itemBytes, List.cons_append, List.nil_append, readItems, hb, ih h.2]
        simp
    | some x =>
      simp only [itemFits] at h1
      cases e : width n with
      | none => simp [e] at h1
      | some w =>
        have hx : x < 256 ^ w := by simpa [e] using h1
        have hn := hw n w e
        have hb : (BitVec.ofNat 8 n).toNat = n := by simp; omega
        have hc : (amend && decide (128 ≤ n)) = false := by
          cases amend with
          | false => rfl
          | true => simp; exact hn.2 rfl
        have hl : (beBytes w x).length = w := beBytes_length _ _
        simp only [itemBytes, e, Option.getD_some, List.cons_append, readItems, hb, hc]
        rw [List.take_left' hl, List.drop_left' hl, ih h.2, beNat_beBytes_of_lt hx]
        simp

/-- A list that fits is read back whole (R181). -/
theorem readList_listBytes {width : Nat → Option Nat} {amend : Bool} (hw : NumbersFit width amend) {l : List Item}
    (h : listFits width amend l = true) : readList width amend (listBytes width l) = some l := by
  simp only [listFits, Bool.and_eq_true, decide_eq_true_eq] at h
  have hb : (BitVec.ofNat 8 l.length).toNat = l.length := by simp; omega
  rw [listBytes, readList, hb]
  exact readItems_listBytes hw h.2

/-! ## Flag lists -/

@[simp] theorem flagBytes_length (w : FlagWord) : (flagBytes w).length = 9 := by simp [flagBytes]

/-- A flag list is read back whole (R186). -/
@[simp] theorem flagsOfBytes_flagBytes (w : FlagWord) : flagsOfBytes (flagBytes w) = w := by
  have h : w.toNat < 256 ^ 9 := Nat.lt_of_lt_of_le w.isLt (by decide)
  rw [flagsOfBytes, flagBytes, List.reverse_reverse, beNat_beBytes_of_lt h]
  simp

end Sys2Proof
end

