-- ==== Sys2Proof/Laws/Confined.lean ====
section
/-! SUPPORT. Which records a head's work may alter: those the head names, and coils cut from a rope it names. For each shared
operation, the one lemma that says so. -/

namespace Sys2Proof.Machine

variable {h : HeadIx} {P : Nat → Prop} {s t u : State}

/-- Work at head `h` that began in state `s` has come to `t`: the store is in order, the head names only tags in `P`, and records
outside `P` stand. -/
structure State.Confined (P : Nat → Prop) (h : HeadIx) (s t : State) : Prop where
  tags : t.TagsOk
  names : (t.head h).NamesOnly P
  records : s.LeavesRecords P t

theorem State.Confined.refl (T : s.TagsOk) (N : (s.head h).NamesOnly P) : s.Confined P h s := ⟨T, N, fun _ e _ => e⟩

/-- A head's own names confine its work. -/
theorem State.Confined.start (T : s.TagsOk) : s.Confined (s.names h) h s :=
  State.Confined.refl T ⟨fun _ e => Or.inl e, fun _ e => Or.inr (Or.inl e), fun m _ e => Or.inr (Or.inr (Or.inl ⟨m, e⟩)),
    fun g _ e1 e2 => Or.inr (Or.inr (Or.inr ⟨g, e1, e2⟩))⟩

theorem State.LeavesRecords.of_store (R : s.LeavesRecords P t) (e : u.store = t.store) : s.LeavesRecords P u := fun r er hr => by
  have := R r er hr
  rw [State.find] at this ⊢
  rw [e]
  exact this

/-! ## The plain updates -/

theorem State.updHead_confined_of {f : Head → Head} (hf : ∀ x, x.NamesOnly P → (f x).NamesOnly P) (H : s.Confined P h t) :
    s.Confined P h (t.updHead h f) :=
  ⟨State.updHead_tagsOk H.tags, by rw [State.updHead_head]; exact hf _ H.names, H.records.of_store rfl⟩

/-- What a head names. -/
abbrev Head.bindings (x : Head) : Option Nat × Option Nat × Vector FeedSlot 4 × Option Segment :=
  (x.product, x.source, x.slots, x.segment)

theorem Head.NamesOnly.of_bindings {x y : Head} (N : x.NamesOnly P) (e : y.bindings = x.bindings) : y.NamesOnly P := by
  simp only [Head.bindings, Prod.mk.injEq] at e
  obtain ⟨e1, e2, e3, e4⟩ := e
  exact ⟨e1 ▸ N.product, e2 ▸ N.source, fun m n e => N.slots m n (by rw [Head.slot, ← e3]; exact e), e4 ▸ N.segment⟩

@[simp] theorem State.updHead_confined {f : Head → Head} (hf : ∀ x, (f x).bindings = x.bindings) (H : s.Confined P h t) :
    s.Confined P h (t.updHead h f) := State.updHead_confined_of (fun x N => N.of_bindings (hf x)) H

@[simp] theorem State.updSlot_confined {n : SlotIx} {f : FeedSlot → FeedSlot}
    (hf : ∀ x, (f x).strand = x.strand ∨ (f x).strand = none) (H : s.Confined P h t) : s.Confined P h (t.updSlot h n f) := by
  refine State.updHead_confined_of (fun x N => ⟨N.product, N.source, fun m k e => ?_, N.segment⟩) H
  by_cases em : m = n
  · subst em
    rw [Head.updSlot_slot] at e
    rcases hf (x.slot m) with e1 | e1
    · exact N.slots m k (e1 ▸ e)
    · rw [e1] at e
      cases e
  · rw [Head.updSlot_slot_ne _ _ em] at e
    exact N.slots m k e

@[simp] theorem State.updAttn_confined {f : Attention → Attention} (H : s.Confined P h t) : s.Confined P h (t.updAttn f) :=
  ⟨State.updAttn_tagsOk H.tags, H.names, H.records.of_store rfl⟩

@[simp] theorem State.raise_confined {k : HeadIx} {f : HeadFlag} (H : s.Confined P h t) : s.Confined P h (t.raise k f) :=
  ⟨State.raise_tagsOk H.tags, H.names, H.records.of_store rfl⟩

@[simp] theorem State.raiseAlarm_confined {k : HeadIx} {x : Alarm} (H : s.Confined P h t) : s.Confined P h (t.raiseAlarm k x) :=
  ⟨State.raiseAlarm_tagsOk H.tags, H.names, H.records.of_store rfl⟩

@[simp] theorem State.raiseStore_confined {f : StoreCauses → StoreCauses} (H : s.Confined P h t) :
    s.Confined P h (t.raiseStore f) := ⟨State.raiseStore_tagsOk H.tags, H.names, H.records.of_store rfl⟩

@[simp] theorem State.raiseAt_confined {b : Option (HeadIx × Role)} {x : Alarm} (H : s.Confined P h t) :
    s.Confined P h (t.raiseAt b x) := by
  unfold State.raiseAt
  split <;> simp (maxDischargeDepth := 20) [H]

@[simp] theorem State.updRec_confined {n : Nat} {f : Record → Record} (hf : ∀ r, (f r).tag = r.tag) (hn : P n)
    (H : s.Confined P h t) : s.Confined P h (t.updRec n f) :=
  ⟨State.updRec_tagsOk hf H.tags, H.names, fun r er hr => by
    have : r.tag ≠ n := fun e => hr (Or.inl (e ▸ hn))
    rw [State.find_updRec_ne hf this]
    exact H.records r er hr⟩

/-- A whole change that began in `s` leaves the records outside `P` as they are. -/
theorem State.commit_leaves (R : s.LeavesRecords P t) : s.LeavesRecords P (s.commit t) := fun r er hr => by
  have e := R r er hr
  have key : ∀ l : List Record, l.find? (fun x => x.tag == r.tag) = some r →
      (l.map fun x => match s.find x.tag with
        | some r0 => Record.stepMark t.clock.seconds r0 x
        | none => x).find? (fun x => x.tag == r.tag) = some r := by
    intro l
    induction l with
    | nil => intro e; cases e
    | cons a l ih =>
      intro e
      have ht : (match s.find a.tag with
        | some r0 => Record.stepMark t.clock.seconds r0 a
        | none => a).tag = a.tag := by
        split
        · exact Record.stepMark_tag _ _ _
        · rfl
      rw [List.map_cons]
      by_cases ea : a.tag = r.tag
      · rw [List.find?_cons_of_pos (by simpa using ea)] at e
        cases e
        rw [List.find?_cons_of_pos (by rw [ht]; simp), er]
        simp [Record.stepMark]
      · rw [List.find?_cons_of_neg (by simpa using ea)] at e
        rw [List.find?_cons_of_neg (by rw [ht]; simpa using ea)]
        exact ih e
  exact key t.store e

/-- A fold confines its work when each of its steps does. -/
theorem State.foldl_confined {α : Type} {f : State → α → State}
    (hf : ∀ t a, s.Confined P h t → s.Confined P h (f t a)) (l : List α) (H : s.Confined P h t) :
    s.Confined P h (l.foldl f t) := by
  induction l generalizing t with
  | nil => exact H
  | cons a l ih => exact ih (hf t a H)

/-! ## Pieces -/

@[simp] theorem State.onPiece_confined {n : Nat} {f : Piece → Piece × Bool} (hn : P n) (H : s.Confined P h t) :
    s.Confined P h (t.onPiece n f) := by
  unfold State.onPiece
  dsimp only
  repeat' split
  all_goals simp (maxDischargeDepth := 20) [H, hn]

@[simp] theorem State.normalizeInto_confined {n : Nat} {x : Span} (hn : P n) (H : s.Confined P h t) :
    s.Confined P h (t.normalizeInto n x) := State.onPiece_confined hn H

@[simp] theorem State.addHolder_confined {n st : Nat} {x : Holder} (hn : P n) (H : s.Confined P h t) :
    s.Confined P h (t.addHolder n x st) := by
  unfold State.addHolder
  repeat' split
  all_goals simp (maxDischargeDepth := 20) [H, hn]

@[simp] theorem State.releaseHolder_confined {n : Nat} {x : Holder} (hn : P n) (H : s.Confined P h t) :
    s.Confined P h (t.releaseHolder n x) := State.onPiece_confined hn H

@[simp] theorem State.swapHolder_confined {n : Nat} {x y : Holder} (hn : P n) (H : s.Confined P h t) :
    s.Confined P h (t.swapHolder n x y) := State.onPiece_confined hn H

theorem State.Confined.product {r : Record} (H : s.Confined P h t) (e : t.productOf h = some r) : P r.tag := by
  obtain ⟨n, en, e⟩ := Option.bind_eq_some_iff.mp e
  exact (State.find_mem e).2 ▸ H.names.product n en

theorem State.Confined.source {r : Record} {b : RopeBody} (H : s.Confined P h t) (e : t.sourceOf h = some (r, b)) : P r.tag := by
  obtain ⟨n, en, e⟩ := Option.bind_eq_some_iff.mp e
  obtain ⟨x, ex, e⟩ := Option.bind_eq_some_iff.mp e
  split at e
  · cases e
    exact (State.find_mem ex).2 ▸ H.names.source n en
  all_goals cases e

theorem State.Confined.fed {n : SlotIx} {r : Record} {b : StrandBody} (H : s.Confined P h t) (e : t.fedBy h n = some (r, b)) :
    P r.tag := by
  obtain ⟨k, ek, e⟩ := Option.bind_eq_some_iff.mp e
  obtain ⟨x, ex, e⟩ := Option.bind_eq_some_iff.mp e
  split at e
  · cases e
    exact (State.find_mem ex).2 ▸ H.names.slots n k ek
  all_goals cases e

/-! ## Heads -/

@[simp] theorem State.makerFlawRise_confined (H : s.Confined P h t) : s.Confined P h (t.makerFlawRise h) := by
  unfold State.makerFlawRise
  split
  · exact H
  rename_i e
  have hn := H.product e
  dsimp only
  repeat' split
  all_goals simp (maxDischargeDepth := 20) [H, hn]

@[simp] theorem State.flawRises_confined (H : s.Confined P h t) : s.Confined P h (t.flawRises h) := by
  unfold State.flawRises
  split <;> simp (maxDischargeDepth := 20) [H]

@[simp] theorem State.enterHeld_confined (H : s.Confined P h t) : s.Confined P h (t.enterHeld h) := by
  unfold State.enterHeld
  dsimp only
  split <;> simp (maxDischargeDepth := 20) [H]

@[simp] theorem State.addHold_confined {x : HoldReason} (H : s.Confined P h t) : s.Confined P h (t.addHold h x) := by
  unfold State.addHold
  dsimp only
  repeat' split
  all_goals simp (maxDischargeDepth := 20) [H]

@[simp] theorem State.dropHold_confined {x : HoldReason} (H : s.Confined P h t) : s.Confined P h (t.dropHold h x) := by
  refine State.updHead_confined (fun y => ?_) H
  dsimp only
  split <;> rfl

@[simp] theorem State.enterCutting_confined (H : s.Confined P h t) : s.Confined P h (t.enterCutting h) := by
  unfold State.enterCutting
  split <;> simp (maxDischargeDepth := 20) [H]

@[simp] theorem State.checkEnd_confined (H : s.Confined P h t) : s.Confined P h (t.checkEnd h) := by
  unfold State.checkEnd
  repeat' split
  all_goals simp (maxDischargeDepth := 20) [H]

/-! ## Feeds -/

@[simp] theorem State.unbindSlot_confined {st : RecordState} {pos : Nat} {n : SlotIx} (H : s.Confined P h t) :
    s.Confined P h (t.unbindSlot h st pos n) := by
  unfold State.unbindSlot
  split
  · exact H
  rename_i k ek
  have hk := H.names.slots n k ek
  dsimp only
  cases ep : (t.head h).product with
  | none => simp (maxDischargeDepth := 20) [H, hk]
  | some p =>
    have hp := H.names.product p ep
    simp (maxDischargeDepth := 20) [H, hk, hp]

@[simp] theorem State.checkLow_confined {n : SlotIx} {left : Nat} (H : s.Confined P h t) : s.Confined P h (t.checkLow h n left) := by
  unfold State.checkLow
  dsimp only
  split <;> simp (maxDischargeDepth := 20) [H]

@[simp] theorem State.passFeed_confined {rope : Nat} {n : SlotIx} {added : Bool} (hr : P rope) (H : s.Confined P h t) :
    s.Confined P h (t.passFeed rope n added) := by
  unfold State.passFeed
  split <;> simp (maxDischargeDepth := 20) [H, hr]

theorem State.takeUpSlot_confined {rope factor m m' : Nat} {n : SlotIx} (hr : P rope) (H : s.Confined P h t) :
    s.Confined P h (t.takeUpSlot h rope factor m m' n) := by
  unfold State.takeUpSlot
  split
  · exact H
  rename_i e
  have hn := H.fed e
  dsimp only
  repeat' split
  all_goals simp (maxDischargeDepth := 20) [H, hn, hr]

@[simp] theorem State.takeUp_confined {m m' : Nat} (H : s.Confined P h t) : s.Confined P h (t.takeUp h m m') := by
  unfold State.takeUp
  split
  · exact H
  · rename_i e
    have hr := H.product e
    split
    · exact State.foldl_confined (fun _ _ => State.takeUpSlot_confined hr) _ H
    all_goals exact H

@[simp] theorem State.chargeSlot_confined {amount pos : Nat} {a : State × Bool} {n : SlotIx} (H : s.Confined P h a.1) :
    s.Confined P h (State.chargeSlot h amount pos a n).1 := by
  unfold State.chargeSlot
  dsimp only
  split
  · exact H
  split
  · exact H
  split
  · exact H
  rename_i e
  have hn := H.fed e
  split <;> simp (maxDischargeDepth := 20) [H, hn]

@[simp] theorem State.chargeRow_confined {amount pos : Nat} (H : s.Confined P h t) :
    s.Confined P h (t.chargeRow h amount pos).1 := by
  unfold State.chargeRow
  have e : s.Confined P h ([(0 : SlotIx), 1].foldl (State.chargeSlot h amount pos) (t, false)).1 := by
    rw [List.foldl_cons, List.foldl_cons, List.foldl_nil]
    have e1 : s.Confined P h (State.chargeSlot h amount pos (t, false) 0).1 := State.chargeSlot_confined H
    exact State.chargeSlot_confined e1
  generalize [(0 : SlotIx), 1].foldl (State.chargeSlot h amount pos) (t, false) = x at e
  dsimp only
  split
  · exact State.addHold_confined e
  · exact e

/-! ## Length, lay and knots -/

@[simp] theorem State.limitReached_confined (H : s.Confined P h t) : s.Confined P h (t.limitReached h) := by
  unfold State.limitReached
  split <;> simp (maxDischargeDepth := 20) [H]

@[simp] theorem State.releaseGuard_confined {n m : Nat} (hn : P n) (H : s.Confined P h t) :
    s.Confined P h (t.releaseGuard h n m) := by
  unfold State.releaseGuard
  split <;> simp (maxDischargeDepth := 20) [H, hn]

@[simp] theorem State.releaseJoin_confined {n m : Nat} (hn : P n) (H : s.Confined P h t) :
    s.Confined P h (t.releaseJoin h n m) := by
  unfold State.releaseJoin
  split <;> simp (maxDischargeDepth := 20) [H, hn]

@[simp] theorem State.toggleMark_confined {m m' : Nat} (H : s.Confined P h t) :
    s.Confined P h (t.updHead h (Head.toggleMark m m')) := by
  refine State.updHead_confined (fun x => ?_) H
  unfold Head.toggleMark
  split <;> rfl

@[simp] theorem State.advanceMade_confined {c : Nat} (H : s.Confined P h t) : s.Confined P h (t.advanceMade h c) := by
  unfold State.advanceMade
  split
  · exact H
  rename_i e
  have hn := H.product e
  dsimp only
  repeat' split
  all_goals simp (maxDischargeDepth := 20) [H, hn]

@[simp] theorem State.unwindCarry_confined {c : Nat} (H : s.Confined P h t) : s.Confined P h (t.unwindCarry h c) := by
  unfold State.unwindCarry
  split
  · dsimp only
    split <;> simp (maxDischargeDepth := 20) [H]
  iterate 3
    split
    · exact H
    · rename_i g eg
      dsimp only
      have key : ∀ v : State, s.Confined P h v →
          s.Confined P h (v.updHead h fun x => { x with segment := some { g with unwound := min (g.unwound + c) lengthTop } }) :=
        fun v Hv => State.updHead_confined_of (fun x N => ⟨N.product, N.source, N.slots, fun g' n e1 e2 => by
          cases e1
          exact H.names.segment g n eg e2⟩) Hv
      repeat' split
      all_goals simp (maxDischargeDepth := 20) [H, key]
  all_goals exact H

@[simp] theorem State.encPulse_confined (H : s.Confined P h t) : s.Confined P h (t.encPulse h) := by
  unfold State.encPulse
  dsimp only
  repeat' split
  all_goals simp (maxDischargeDepth := 20) [H]

@[simp] theorem State.makerFlawFall_confined (H : s.Confined P h t) : s.Confined P h (t.makerFlawFall h) := by
  unfold State.makerFlawFall
  split
  · exact H
  rename_i e
  have hn := H.product e
  dsimp only
  repeat' split
  all_goals simp (maxDischargeDepth := 20) [H, hn]

@[simp] theorem State.spinPulse_confined (H : s.Confined P h t) : s.Confined P h (t.spinPulse h) := by
  unfold State.spinPulse State.openWindow State.spinWithin State.endWindow State.placeLay
  split
  · split
    · exact H
    rename_i e
    have hn := H.product e
    dsimp only
    repeat' split
    all_goals simp (maxDischargeDepth := 20) [H, hn]
  · exact H

@[simp] theorem State.countRow_confined {n : Nat} {k : KindSet} (hn : P n) (H : s.Confined P h t) :
    s.Confined P h (t.countRow n k) := by
  unfold State.countRow
  repeat' split
  all_goals simp (maxDischargeDepth := 20) [H, hn]

@[simp] theorem State.countMissed_confined {n m : Nat} (hn : P n) (H : s.Confined P h t) :
    s.Confined P h (t.countMissed h n m) := by
  unfold State.countMissed
  split <;> simp (maxDischargeDepth := 20) [H, hn]

@[simp] theorem State.closeRow_confined (H : s.Confined P h t) : s.Confined P h (t.closeRow h) := by
  unfold State.closeRow
  split
  · exact H
  split
  · exact H
  rename_i e
  have hn := H.product e
  dsimp only
  simp (maxDischargeDepth := 20) [H, hn]

@[simp] theorem State.openRow_confined (H : s.Confined P h t) : s.Confined P h (t.openRow h) := by
  unfold State.openRow
  repeat' split
  all_goals simp (maxDischargeDepth := 20) [H]

@[simp] theorem State.knotPulse_confined (H : s.Confined P h t) : s.Confined P h (t.knotPulse h) := by
  unfold State.knotPulse State.countKnot State.strayKnot
  dsimp only
  repeat' split
  all_goals simp (maxDischargeDepth := 20) [H]

@[simp] theorem State.rowPulse_confined (H : s.Confined P h t) : s.Confined P h (t.rowPulse h) := by
  unfold State.rowPulse
  split <;> simp (maxDischargeDepth := 20) [H]

@[simp] theorem State.rowExpiry_confined (H : s.Confined P h t) : s.Confined P h (t.rowExpiry h) := by
  unfold State.rowExpiry
  split <;> simp (maxDischargeDepth := 20) [H]

/-! ## Coils -/

@[simp] theorem State.downgradeCoils_confined {n : Nat} (hn : P n) (H : s.Confined P h t) :
    s.Confined P h (t.downgradeCoils n) := by
  have key : ∀ l : List Record, (∀ r ∈ l, r ∈ t.store) → ∀ v, s.Confined P h v →
      s.Confined P h (l.foldl (State.judgeCoil n) v) := by
    intro l
    induction l with
    | nil => exact fun _ v Hv => Hv
    | cons a l ih =>
      intro hl v Hv
      refine ih (fun r hr => hl r (List.mem_cons_of_mem _ hr)) _ ?_
      unfold State.judgeCoil
      split
      · rename_i origin eo
        refine State.raiseAlarm_confined ⟨State.updRec_tagsOk (by simp) Hv.tags, Hv.names, fun x ex hx => ?_⟩
        have hv := Hv.records x ex hx
        by_cases e : x.tag = a.tag
        · exfalso
          have e1 := H.records x ex hx
          have e2 := H.tags.store.find_of_mem (hl a List.mem_cons_self)
          rw [e, e2] at e1
          cases e1
          unfold State.toDowngrade at eo
          split at eo
          · rename_i c ec
            dsimp only at eo
            split at eo
            · rename_i hc
              exact hx (Or.inr ⟨c, ec, hc.2.1 ▸ hn⟩)
            · cases eo
          all_goals cases eo
        · rw [State.find_updRec_ne (by simp) e]
          exact hv
      · exact Hv
  exact key t.store (fun _ hr => hr) t H

@[simp] theorem State.addRopeSpan_confined {n : Nat} {x : Span} (hn : P n) (H : s.Confined P h t) :
    s.Confined P h (t.addRopeSpan n x) := by
  unfold State.addRopeSpan
  dsimp only
  split <;> simp (maxDischargeDepth := 20) [H, hn]

@[simp] theorem State.coilerFlawFall_confined {pf : Nat} (H : s.Confined P h t) : s.Confined P h (t.coilerFlawFall h pf) := by
  unfold State.coilerFlawFall
  split
  · rename_i e
    have hn := H.source e
    dsimp only
    repeat' split
    all_goals simp (maxDischargeDepth := 20) [H, hn]
  · exact H

@[simp] theorem State.flawAtLeaving_confined {pf : Nat} (H : s.Confined P h t) : s.Confined P h (t.flawAtLeaving h pf) := by
  unfold State.flawAtLeaving
  split <;> simp (maxDischargeDepth := 20) [H]

theorem State.windCoil_confined {n rope e a : Nat} {b : Bool} (hn : P n) (hr : P rope) (H : s.Confined P h t) :
    s.Confined P h (t.windCoil h n rope e a b) := by
  unfold State.windCoil
  dsimp only
  repeat' split
  all_goals simp (maxDischargeDepth := 20) [H, hn, hr]

@[simp] theorem State.addWaste_confined {rope n : Nat} (hr : P rope) (H : s.Confined P h t) :
    s.Confined P h (t.addWaste rope n) := State.updRec_confined (by simp) hr H

theorem Head.NamesOnly.noSegment {x : Head} (N : x.NamesOnly P) : Head.NamesOnly P { x with segment := none } :=
  ⟨N.product, N.source, N.slots, fun _ _ e => by cases e⟩

@[simp] theorem State.completeSegment_confined (H : s.Confined P h t) : s.Confined P h (t.completeSegment h) := by
  unfold State.completeSegment
  split
  · rename_i g r b eg es
    have hr := H.source es
    dsimp only
    refine State.updHead_confined_of (fun x N => N.noSegment) (State.raise_confined ?_)
    split
    · rename_i n en
      have key := State.windCoil_confined (e := b.currentEnd) (a := min g.unwound b.currentEnd) (b := false)
        (H.names.segment g n eg en) hr H
      split <;> simp (maxDischargeDepth := 20) [key]
    · simp (maxDischargeDepth := 20) [H, hr]
  · exact H

theorem State.cutShort_confined {rope e : Nat} (hr : P rope) (H : s.Confined P h t) : s.Confined P h (t.cutShort h rope e) := by
  unfold State.cutShort
  split
  · rename_i g eg
    dsimp only
    refine State.raise_confined ?_
    split
    · rename_i n en
      exact State.windCoil_confined (H.names.segment g n eg en) hr H
    · simp (maxDischargeDepth := 20) [H, hr]
  · dsimp only
    split <;> simp (maxDischargeDepth := 20) [H, hr]

@[simp] theorem State.giveUpRope_confined (H : s.Confined P h t) : s.Confined P h (t.giveUpRope h) := by
  unfold State.giveUpRope
  split
  · exact H
  · rename_i e
    have hr := H.source e
    split <;> simp (maxDischargeDepth := 20) [H, hr]

@[simp] theorem State.endSegment_confined (H : s.Confined P h t) : s.Confined P h (t.endSegment h) := by
  have Hf : s.Confined P h (t.flawAtLeaving h (t.unwindPosition h)) := State.flawAtLeaving_confined H
  unfold State.endSegment
  dsimp only
  split
  · exact Hf
  · rename_i e
    exact State.giveUpRope_confined (State.cutShort_confined (Hf.source e) Hf)

theorem State.endRope_confined {rope : Nat} (hr : P rope) (H : s.Confined P h t) : s.Confined P h (t.endRope h rope) := by
  unfold State.endRope
  dsimp only
  refine State.raise_confined (State.raise_confined (State.updHead_confined_of (fun x N => ?_) ?_))
  · exact ⟨N.product, fun _ e => (by cases e), N.slots, fun _ _ e => (by cases e)⟩
  · simp (maxDischargeDepth := 20) [H, hr]

@[simp] theorem State.planWaits_confined {x : HoldReason} (H : s.Confined P h t) : s.Confined P h (t.planWaits h x) := by
  unfold State.planWaits
  dsimp only
  split <;> simp (maxDischargeDepth := 20) [H]

theorem State.createCoil_leaves {rope e len : Nat} {g : Grade} {b : Bool} (R : s.LeavesRecords P t)
    (c : t.createCoil h rope e len g b = some u) : s.LeavesRecords P u := by
  unfold State.createCoil at c
  split at c
  · simp at c
  · obtain ⟨n, hn, rfl⟩ := Option.map_eq_some_iff.mp c
    intro r er hr
    have e := R r er hr
    rw [State.updHead_find]
    unfold State.find
    rw [State.enter_store]
    have hl : ∀ fuel k, findSerial t.live t.coilPrefix fuel k = some n → t.live (coilTag t.coilPrefix n) = false := by
      intro fuel
      induction fuel with
      | zero => intro k e; cases e
      | succ fuel ih =>
        intro k e
        unfold findSerial at e
        split at e
        · exact ih _ e
        · rename_i hlive
          cases e
          simpa using hlive
    have hne := State.live_eq_false.mp (hl _ _ hn)
    have key : ∀ (x : Record) (l : List Record), x.tag ≠ r.tag →
        (insertRecord x l).find? (fun y => y.tag == r.tag) = l.find? fun y => y.tag == r.tag := by
      intro x l hx
      induction l with
      | nil => simp [insertRecord, hx]
      | cons a l ih =>
        unfold insertRecord
        split
        · rw [List.find?_cons_of_neg (by simpa using hx)]
        · by_cases ea : a.tag = r.tag
          · rw [List.find?_cons_of_pos (by simpa using ea), List.find?_cons_of_pos (by simpa using ea)]
          · rw [List.find?_cons_of_neg (by simpa using ea), List.find?_cons_of_neg (by simpa using ea), ih]
    rw [key]
    · exact e
    · intro e'
      exact hne r (State.find_mem e).1 e'.symm

/-- A plan point leaves the records outside `P` as they are: it touches the rope, and the coil it creates is new. -/
theorem State.planPoint_leaves (H : s.Confined P h t) : s.LeavesRecords P (t.planPoint h) := by
  unfold State.planPoint
  split
  · exact H.records
  rename_i r b es
  have hr := H.source es
  have H1 : s.Confined P h (t.openPlan h r.tag b.currentEnd) := by
    unfold State.openPlan
    dsimp only
    split <;> simp (maxDischargeDepth := 20) [H, hr]
  dsimp only
  split
  · exact (State.endRope_confined hr H1).records
  · unfold State.applyPlan
    split
    · exact (State.planWaits_confined H1).records
    · exact H1.records.of_store rfl
    · split
      · rename_i c
        exact (State.createCoil_leaves H1.records c).of_store rfl
      · exact (State.planWaits_confined H1).records

theorem State.storeFullNotification_leaves (H : s.Confined P h t) : s.LeavesRecords P (t.storeFullNotification h) := by
  unfold State.storeFullNotification
  dsimp only
  have H1 : s.Confined P h (t.updHead h fun x => { x with notified := false }) := State.updHead_confined (fun _ => rfl) H
  repeat' split
  · exact State.planPoint_leaves H1
  · exact H1.records
  · exact H.records

/-! ## The head state machine -/

theorem State.endMaking_confined {f : Record → Record} (hf : ∀ r, (f r).tag = r.tag) (H : s.Confined P h t) :
    s.Confined P h (t.endMaking h f) := by
  unfold State.endMaking
  split
  · exact H
  · rename_i e
    exact State.updRec_confined hf (H.product e) (State.foldl_confined (fun _ _ => State.unbindSlot_confined) _ H)

theorem State.endRunning_confined {f : Record → Record} (hf : ∀ r, (f r).tag = r.tag) (H : s.Confined P h t) :
    s.Confined P h (t.endRunning h f) := by
  unfold State.endRunning
  split
  · exact State.endSegment_confined H
  · exact State.endMaking_confined hf (State.closeRow_confined H)
  all_goals exact State.endMaking_confined hf H

/-- A record that leaves the store leaves every other as it is, but for the coils cut from it (R5, R53). -/
theorem State.leave_leaves {n : Nat} (hn : P n) (R : s.LeavesRecords P t) : s.LeavesRecords P (t.leave n) := by
  intro r er hr
  have e := R r er hr
  have hne : r.tag ≠ n := fun e => hr (Or.inl (e ▸ hn))
  have hc : r.onCoil (CoilBody.disown n) = r := by
    unfold Record.onCoil
    split
    · rename_i c ec
      have : c.sourceRope ≠ n := fun e => hr (Or.inr ⟨c, ec, e ▸ hn⟩)
      simp only [CoilBody.disown, this, if_false]
      rw [← ec]
    all_goals rfl
  have k1 : ∀ l : List Record, l.find? (fun x => x.tag == r.tag) = some r →
      (l.filter fun x => x.tag != n).find? (fun x => x.tag == r.tag) = some r := by
    intro l hl
    induction l with
    | nil => cases hl
    | cons a l ih =>
      by_cases ea : a.tag = r.tag
      · rw [List.find?_cons_of_pos (by simpa using ea)] at hl
        cases hl
        rw [List.filter_cons_of_pos (by simpa using hne), List.find?_cons_of_pos (by simp)]
      · rw [List.find?_cons_of_neg (by simpa using ea)] at hl
        by_cases en : a.tag = n
        · rw [List.filter_cons_of_neg (by simpa using en)]
          exact ih hl
        · rw [List.filter_cons_of_pos (by simpa using en), List.find?_cons_of_neg (by simpa using ea)]
          exact ih hl
  have k2 : ∀ l : List Record, l.find? (fun x => x.tag == r.tag) = some r →
      (l.map fun x => x.onCoil (CoilBody.disown n)).find? (fun x => x.tag == r.tag) = some r := by
    intro l hl
    induction l with
    | nil => cases hl
    | cons a l ih =>
      rw [List.map_cons]
      by_cases ea : a.tag = r.tag
      · rw [List.find?_cons_of_pos (by simpa using ea)] at hl
        cases hl
        rw [List.find?_cons_of_pos (by simp), hc]
      · rw [List.find?_cons_of_neg (by simpa using ea)] at hl
        rw [List.find?_cons_of_neg (by simpa using ea)]
        exact ih hl
  unfold State.leave
  split
  · exact e
  dsimp only
  rename_i x _
  have key : (if x.kind = RecordKind.rope then
      (t.store.filter fun x : Record => x.tag != n).map fun x : Record => x.onCoil (CoilBody.disown n)
      else (t.store.filter fun x : Record => x.tag != n)).find? (fun x => x.tag == r.tag) = some r := by
    split
    · exact k2 _ (k1 _ e)
    · exact k1 _ e
  split
  · exact key
  · exact key

theorem State.undoBinding_leaves (T : s.TagsOk) : s.LeavesRecords (s.names h) (s.undoBinding h) := by
  have H : s.Confined (s.names h) h s := State.Confined.start T
  unfold State.undoBinding
  split
  · exact (State.endMaking_confined (by simp) H).records
  rename_i n en
  have H1 : s.Confined (s.names h) h (s.updRec n fun r => r.unbindTo .made) :=
    State.updRec_confined (by simp) (H.names.source n en) H
  dsimp only
  split
  · rename_i k ek
    obtain ⟨g, eg, ek⟩ := Option.bind_eq_some_iff.mp ek
    exact State.leave_leaves (H.names.segment g k eg ek) H1.records
  · exact H1.records

theorem State.settleRecords_leaves {f : Record → Record} (hf : ∀ r, (f r).tag = r.tag) (T : s.TagsOk) :
    s.LeavesRecords (s.names h) (s.settleRecords h f) := by
  have H : s.Confined (s.names h) h s := State.Confined.start T
  unfold State.settleRecords
  split
  · exact State.undoBinding_leaves T
  iterate 4 exact (State.endRunning_confined hf H).records
  all_goals exact H.records

theorem State.releaseHead_leaves (T : s.TagsOk) : s.LeavesRecords (s.names h) (s.releaseHead h) :=
  (State.settleRecords_leaves (by simp) T).of_store rfl

theorem State.disconnect_leaves (T : s.TagsOk) : s.LeavesRecords (s.names h) (s.disconnect h) :=
  (State.settleRecords_leaves (by simp) T).of_store rfl

theorem State.senseSettled_leaves (T : s.TagsOk) : s.LeavesRecords (s.names h) (s.senseSettled h) := by
  have H : s.Confined (s.names h) h s := State.Confined.start T
  unfold State.senseSettled
  dsimp only
  repeat' split
  · exact (State.disconnect_leaves T).of_store rfl
  · exact H.records.of_store rfl
  · exact H.records

theorem State.completeCut_leaves (H : s.Confined P h t) : s.LeavesRecords P (t.completeCut h) := by
  unfold State.completeCut
  split
  · exact (State.planPoint_leaves (State.completeSegment_confined H)).of_store rfl
  · exact (State.endMaking_confined (by simp) (State.closeRow_confined H)).records.of_store rfl
  all_goals exact (State.endMaking_confined (by simp) H).records.of_store rfl

theorem State.cutWaitExpiry_leaves (H : s.Confined P h t) : s.LeavesRecords P (t.cutWaitExpiry h) := by
  unfold State.cutWaitExpiry
  split
  · exact State.completeCut_leaves H
  · exact H.records

@[simp] theorem State.checkFeeds_confined (H : s.Confined P h t) : s.Confined P h (t.checkFeeds h) := by
  unfold State.checkFeeds
  split <;> simp (maxDischargeDepth := 20) [H]

@[simp] theorem State.runRise_confined (H : s.Confined P h t) : s.Confined P h (t.runRise h) := by
  unfold State.runRise
  dsimp only
  repeat' split
  all_goals simp (maxDischargeDepth := 20) [H]

theorem State.runFall_leaves (H : s.Confined P h t) : s.LeavesRecords P (t.runFall h) := by
  have H1 : s.Confined P h (t.updHead h fun x => { x with runHigh := false }) := State.updHead_confined (fun _ => rfl) H
  unfold State.runFall
  dsimp only
  repeat' split
  all_goals first | exact State.completeCut_leaves H1 | exact H1.records.of_store rfl

@[simp] theorem State.flawRiseEdge_confined (H : s.Confined P h t) : s.Confined P h (t.flawRiseEdge h) := by
  unfold State.flawRiseEdge
  dsimp only
  split <;> simp (maxDischargeDepth := 20) [H]

@[simp] theorem State.flawFallEdge_confined (H : s.Confined P h t) : s.Confined P h (t.flawFallEdge h) := by
  unfold State.flawFallEdge
  dsimp only
  repeat' split
  all_goals simp (maxDischargeDepth := 20) [H]

end Sys2Proof.Machine
end

