-- ==== Sys2Proof/Laws/Keeps.lean ====
section
/-! SUPPORT. What the shared operations keep: for each, the one lemma that says what it leaves unchanged beyond its head. -/

namespace Sys2Proof.Machine

variable {h : HeadIx} {s t u : State}

/-! ## The relation -/

theorem State.Keeps.refl (h : HeadIx) (s : State) : s.Keeps h s :=
  ⟨rfl, rfl, rfl, rfl, rfl, rfl, rfl, rfl, rfl, fun _ e => e, rfl, fun _ _ => rfl⟩

theorem State.Keeps.trans (a : s.Keeps h t) (b : t.Keeps h u) : s.Keeps h u where
  pending := b.pending.trans a.pending
  clock := b.clock.trans a.clock
  coilPrefix := b.coilPrefix.trans a.coilPrefix
  line := b.line.trans a.line
  link := b.link.trans a.link
  freeCount := b.freeCount.trans a.freeCount
  masks := b.masks.trans a.masks
  routes := b.routes.trans a.routes
  clearMode := b.clearMode.trans a.clearMode
  flags := fun k e => b.flags k (a.flags k e)
  settings := b.settings.trans a.settings
  others := fun k hk => by
    have e1 := a.others k hk
    have e2 := b.others k hk
    rw [← e1, ← e2]

/-! ## The plain updates -/

@[simp] theorem State.updHead_keeps {f : Head → Head} (hf : ∀ x, (f x).settings = x.settings) (H : s.Keeps h t) :
    s.Keeps h (t.updHead h f) :=
  H.trans ⟨rfl, rfl, rfl, rfl, rfl, rfl, rfl, rfl, rfl, fun _ e => e, by simp [hf],
    fun k hk => by rw [State.updHead_head_ne _ _ hk]⟩

@[simp] theorem State.updSlot_keeps {n : SlotIx} {f : FeedSlot → FeedSlot} (H : s.Keeps h t) :
    s.Keeps h (t.updSlot h n f) := State.updHead_keeps (fun _ => rfl) H

@[simp] theorem State.updRec_keeps {n : Nat} {f : Record → Record} (H : s.Keeps h t) : s.Keeps h (t.updRec n f) :=
  H.trans ⟨rfl, rfl, rfl, rfl, rfl, rfl, rfl, rfl, rfl, fun _ e => e, rfl, fun _ _ => rfl⟩

theorem Attention.setFlag_flags (a : Attention) (n k : Nat) (e : a.flags.getLsbD k = true) :
    (a.setFlag n).flags.getLsbD k = true := by
  simp [Attention.setFlag, BitVec.getLsbD_or, e]

@[simp] theorem State.raise_keeps {k : HeadIx} {f : HeadFlag} (H : s.Keeps h t) : s.Keeps h (t.raise k f) :=
  H.trans ⟨rfl, rfl, rfl, rfl, rfl, rfl, rfl, rfl, rfl, fun _ e => Attention.setFlag_flags _ _ _ e, rfl, fun _ _ => rfl⟩

@[simp] theorem State.raiseAlarm_keeps {k : HeadIx} {x : Alarm} (H : s.Keeps h t) : s.Keeps h (t.raiseAlarm k x) :=
  H.trans ⟨rfl, rfl, rfl, rfl, rfl, rfl, rfl, rfl, rfl,
    fun j e => Attention.setFlag_flags { t.attn with causes := _ } _ j e, rfl, fun _ _ => rfl⟩

@[simp] theorem State.raiseStore_keeps {f : StoreCauses → StoreCauses} (H : s.Keeps h t) : s.Keeps h (t.raiseStore f) :=
  H.trans ⟨rfl, rfl, rfl, rfl, rfl, rfl, rfl, rfl, rfl,
    fun j e => Attention.setFlag_flags { t.attn with storeCauses := _ } _ j e, rfl, fun _ _ => rfl⟩

@[simp] theorem State.raiseAt_keeps {b : Option (HeadIx × Role)} {x : Alarm} (H : s.Keeps h t) :
    s.Keeps h (t.raiseAt b x) := by
  unfold State.raiseAt
  split <;> simp (maxDischargeDepth := 20) [H]

@[simp] theorem State.commit_keeps {b : State} (H : s.Keeps h t) : s.Keeps h (b.commit t) :=
  H.trans ⟨rfl, rfl, rfl, rfl, rfl, rfl, rfl, rfl, rfl, fun _ e => e, rfl, fun _ _ => rfl⟩

/-- A whole change keeps what the change keeps. -/
theorem State.change_keeps {f : State → State} (H : s.Keeps h (f s)) : s.Keeps h (s.change f) := State.commit_keeps H

/-- A fold keeps what each of its steps keeps. -/
theorem State.foldl_keeps {α : Type} {f : State → α → State} (hf : ∀ t a, s.Keeps h t → s.Keeps h (f t a)) (l : List α)
    (H : s.Keeps h t) : s.Keeps h (l.foldl f t) := by
  induction l generalizing t with
  | nil => exact H
  | cons a l ih => exact ih (hf t a H)

/-! ## The store and its pieces -/

@[simp] theorem State.enter_keeps {r : Record} (H : s.Keeps h t) : s.Keeps h (t.enter r) := by
  have e : s.Keeps h { t with store := insertRecord r t.store } :=
    H.trans ⟨rfl, rfl, rfl, rfl, rfl, rfl, rfl, rfl, rfl, fun _ e => e, rfl, fun _ _ => rfl⟩
  unfold State.enter
  split
  · exact State.raiseStore_keeps e
  · exact e

theorem State.notifyPlanners_head (s : State) (k : HeadIx) :
    s.notifyPlanners.head k = { s.head k with notified := (s.head k).holds.storeFull || (s.head k).notified } := by
  have e : s.notifyPlanners.head k =
      if (s.head k).holds.storeFull then { s.head k with notified := true } else s.head k := by
    simp [State.notifyPlanners, State.head]
  rw [e]
  cases (s.head k).holds.storeFull <;> simp

/-- New heads that keep the settings of `h` and every other head but `notified`. -/
theorem State.withHeads_keeps {v : Vector Head 16} (H : s.Keeps h t) (hs : (v[h.val]).settings = (t.head h).settings)
    (ho : ∀ k : HeadIx, k ≠ h → { v[k.val] with notified := (t.head k).notified } = t.head k) :
    s.Keeps h { t with heads := v } :=
  H.trans ⟨rfl, rfl, rfl, rfl, rfl, rfl, rfl, rfl, rfl, fun _ e => e, hs, ho⟩

@[simp] theorem State.notifyPlanners_keeps (H : s.Keeps h t) : s.Keeps h t.notifyPlanners := by
  refine State.withHeads_keeps H ?_ fun k _ => ?_
  · rw [Vector.getElem_ofFn]
    split <;> rfl
  · rw [Vector.getElem_ofFn]
    split <;> rfl

@[simp] theorem State.leave_keeps {n : Nat} (H : s.Keeps h t) : s.Keeps h (t.leave n) := by
  have e : ∀ l, s.Keeps h { t with store := l } := fun l =>
    H.trans ⟨rfl, rfl, rfl, rfl, rfl, rfl, rfl, rfl, rfl, fun _ e => e, rfl, fun _ _ => rfl⟩
  unfold State.leave
  split
  · exact H
  · dsimp only
    split
    · exact State.notifyPlanners_keeps (e _)
    · exact e _

@[simp] theorem State.onPiece_keeps {n : Nat} {f : Piece → Piece × Bool} (H : s.Keeps h t) : s.Keeps h (t.onPiece n f) := by
  unfold State.onPiece
  dsimp only
  repeat' split
  all_goals simp (maxDischargeDepth := 20) [H]

@[simp] theorem State.normalizeInto_keeps {n : Nat} {x : Span} (H : s.Keeps h t) : s.Keeps h (t.normalizeInto n x) :=
  State.onPiece_keeps H

@[simp] theorem State.addHolder_keeps {n st : Nat} {x : Holder} (H : s.Keeps h t) : s.Keeps h (t.addHolder n x st) := by
  unfold State.addHolder
  repeat' split
  all_goals simp (maxDischargeDepth := 20) [H]

@[simp] theorem State.releaseHolder_keeps {n : Nat} {x : Holder} (H : s.Keeps h t) : s.Keeps h (t.releaseHolder n x) :=
  State.onPiece_keeps H

@[simp] theorem State.swapHolder_keeps {n : Nat} {x y : Holder} (H : s.Keeps h t) : s.Keeps h (t.swapHolder n x y) :=
  State.onPiece_keeps H

/-! ## Heads -/

@[simp] theorem State.makerFlawRise_keeps (H : s.Keeps h t) : s.Keeps h (t.makerFlawRise h) := by
  unfold State.makerFlawRise
  dsimp only
  repeat' split
  all_goals simp (maxDischargeDepth := 20) [H]

@[simp] theorem State.flawRises_keeps (H : s.Keeps h t) : s.Keeps h (t.flawRises h) := by
  unfold State.flawRises
  split <;> simp (maxDischargeDepth := 20) [H]

@[simp] theorem State.enterHeld_keeps (H : s.Keeps h t) : s.Keeps h (t.enterHeld h) := by
  unfold State.enterHeld
  dsimp only
  split <;> simp (maxDischargeDepth := 20) [H]

@[simp] theorem State.addHold_keeps {x : HoldReason} (H : s.Keeps h t) : s.Keeps h (t.addHold h x) := by
  unfold State.addHold
  dsimp only
  repeat' split
  all_goals simp (maxDischargeDepth := 20) [H]

@[simp] theorem State.dropHold_keeps {x : HoldReason} (H : s.Keeps h t) : s.Keeps h (t.dropHold h x) := by
  refine State.updHead_keeps (fun y => ?_) H
  dsimp only
  split <;> rfl

@[simp] theorem State.enterCutting_keeps (H : s.Keeps h t) : s.Keeps h (t.enterCutting h) := by
  unfold State.enterCutting
  split <;> simp (maxDischargeDepth := 20) [H]

@[simp] theorem State.checkEnd_keeps (H : s.Keeps h t) : s.Keeps h (t.checkEnd h) := by
  unfold State.checkEnd
  repeat' split
  all_goals simp (maxDischargeDepth := 20) [H]

/-! ## Feeds -/

@[simp] theorem State.unbindSlot_keeps {st : RecordState} {pos : Nat} {n : SlotIx} (H : s.Keeps h t) :
    s.Keeps h (t.unbindSlot h st pos n) := by
  unfold State.unbindSlot
  dsimp only
  repeat' split
  all_goals simp (maxDischargeDepth := 20) [H]

@[simp] theorem State.checkLow_keeps {n : SlotIx} {left : Nat} (H : s.Keeps h t) : s.Keeps h (t.checkLow h n left) := by
  unfold State.checkLow
  dsimp only
  split <;> simp (maxDischargeDepth := 20) [H]

@[simp] theorem State.passFeed_keeps {rope : Nat} {n : SlotIx} {added : Bool} (H : s.Keeps h t) :
    s.Keeps h (t.passFeed rope n added) := by
  unfold State.passFeed
  split <;> simp (maxDischargeDepth := 20) [H]

@[simp] theorem State.takeUpSlot_keeps {rope factor m m' : Nat} {n : SlotIx} (H : s.Keeps h t) :
    s.Keeps h (t.takeUpSlot h rope factor m m' n) := by
  unfold State.takeUpSlot
  dsimp only
  repeat' split
  all_goals simp (maxDischargeDepth := 20) [H]

@[simp] theorem State.takeUp_keeps {m m' : Nat} (H : s.Keeps h t) : s.Keeps h (t.takeUp h m m') := by
  unfold State.takeUp
  split
  · exact H
  · split
    · exact State.foldl_keeps (fun _ _ => State.takeUpSlot_keeps) _ H
    all_goals exact H

@[simp] theorem State.chargeSlot_keeps {amount pos : Nat} {a : State × Bool} {n : SlotIx} (H : s.Keeps h a.1) :
    s.Keeps h (State.chargeSlot h amount pos a n).1 := by
  unfold State.chargeSlot
  dsimp only
  repeat' split
  all_goals simp (maxDischargeDepth := 20) [H]

@[simp] theorem State.chargeRow_keeps {amount pos : Nat} (H : s.Keeps h t) : s.Keeps h (t.chargeRow h amount pos).1 := by
  unfold State.chargeRow
  have e : s.Keeps h ([(0 : SlotIx), 1].foldl (State.chargeSlot h amount pos) (t, false)).1 := by
    rw [List.foldl_cons, List.foldl_cons, List.foldl_nil]
    have e1 : s.Keeps h (State.chargeSlot h amount pos (t, false) 0).1 := State.chargeSlot_keeps H
    exact State.chargeSlot_keeps e1
  generalize [(0 : SlotIx), 1].foldl (State.chargeSlot h amount pos) (t, false) = x at e
  dsimp only
  split
  · exact State.addHold_keeps e
  · exact e

@[simp] theorem State.rejudgeTop_keeps {n : SlotIx} (H : s.Keeps h t) : s.Keeps h (t.rejudgeTop h n) := by
  unfold State.rejudgeTop
  repeat' split
  all_goals simp (maxDischargeDepth := 20) [H]

/-! ## Length and lay -/

@[simp] theorem State.limitReached_keeps (H : s.Keeps h t) : s.Keeps h (t.limitReached h) := by
  unfold State.limitReached
  split <;> simp (maxDischargeDepth := 20) [H]

@[simp] theorem State.releaseGuard_keeps {n m : Nat} (H : s.Keeps h t) : s.Keeps h (t.releaseGuard h n m) := by
  unfold State.releaseGuard
  split <;> simp (maxDischargeDepth := 20) [H]

@[simp] theorem State.releaseJoin_keeps {n m : Nat} (H : s.Keeps h t) : s.Keeps h (t.releaseJoin h n m) := by
  unfold State.releaseJoin
  split <;> simp (maxDischargeDepth := 20) [H]

@[simp] theorem Head.toggleMark_settings (m m' : Nat) (x : Head) : (Head.toggleMark m m' x).settings = x.settings := by
  unfold Head.toggleMark
  split <;> rfl

@[simp] theorem State.advanceMade_keeps {c : Nat} (H : s.Keeps h t) : s.Keeps h (t.advanceMade h c) := by
  unfold State.advanceMade
  dsimp only
  repeat' split
  all_goals simp (maxDischargeDepth := 20) [H]

@[simp] theorem State.unwindCarry_keeps {c : Nat} (H : s.Keeps h t) : s.Keeps h (t.unwindCarry h c) := by
  unfold State.unwindCarry
  dsimp only
  repeat' split
  all_goals simp (maxDischargeDepth := 20) [H]

@[simp] theorem State.encPulse_keeps (H : s.Keeps h t) : s.Keeps h (t.encPulse h) := by
  unfold State.encPulse
  dsimp only
  repeat' split
  all_goals simp (maxDischargeDepth := 20) [H]

@[simp] theorem State.makerFlawFall_keeps (H : s.Keeps h t) : s.Keeps h (t.makerFlawFall h) := by
  unfold State.makerFlawFall
  dsimp only
  repeat' split
  all_goals simp (maxDischargeDepth := 20) [H]

@[simp] theorem State.openJoin_keeps {n m : Nat} (H : s.Keeps h t) : s.Keeps h (t.openJoin h n m) := by
  unfold State.openJoin
  dsimp only
  split <;> simp (maxDischargeDepth := 20) [H]

@[simp] theorem State.endWindow_keeps {r : Record} {w : LayWindow} (H : s.Keeps h t) : s.Keeps h (t.endWindow h r w) := by
  unfold State.endWindow State.placeLay
  dsimp only
  repeat' split
  all_goals simp (maxDischargeDepth := 20) [H]

@[simp] theorem State.spinPulse_keeps (H : s.Keeps h t) : s.Keeps h (t.spinPulse h) := by
  unfold State.spinPulse State.openWindow State.spinWithin
  repeat' split
  all_goals simp (maxDischargeDepth := 20) [H]

/-! ## Knots -/

@[simp] theorem State.countRow_keeps {n : Nat} {k : KindSet} (H : s.Keeps h t) : s.Keeps h (t.countRow n k) := by
  unfold State.countRow
  repeat' split
  all_goals simp (maxDischargeDepth := 20) [H]

@[simp] theorem State.countMissed_keeps {n m : Nat} (H : s.Keeps h t) : s.Keeps h (t.countMissed h n m) := by
  unfold State.countMissed
  split <;> simp (maxDischargeDepth := 20) [H]

@[simp] theorem State.closeRow_keeps (H : s.Keeps h t) : s.Keeps h (t.closeRow h) := by
  unfold State.closeRow
  dsimp only
  repeat' split
  all_goals simp (maxDischargeDepth := 20) [H]

@[simp] theorem State.openRow_keeps (H : s.Keeps h t) : s.Keeps h (t.openRow h) := by
  unfold State.openRow
  repeat' split
  all_goals simp (maxDischargeDepth := 20) [H]

@[simp] theorem State.knotPulse_keeps (H : s.Keeps h t) : s.Keeps h (t.knotPulse h) := by
  unfold State.knotPulse State.countKnot State.strayKnot
  dsimp only
  repeat' split
  all_goals simp (maxDischargeDepth := 20) [H]

@[simp] theorem State.rowPulse_keeps (H : s.Keeps h t) : s.Keeps h (t.rowPulse h) := by
  unfold State.rowPulse
  split <;> simp (maxDischargeDepth := 20) [H]

@[simp] theorem State.rowExpiry_keeps (H : s.Keeps h t) : s.Keeps h (t.rowExpiry h) := by
  unfold State.rowExpiry
  split <;> simp (maxDischargeDepth := 20) [H]

/-! ## Coils -/

theorem State.createCoil_keeps {rope e len : Nat} {g : Grade} {b : Bool} (H : s.Keeps h t)
    (c : t.createCoil h rope e len g b = some u) : s.Keeps h u := by
  unfold State.createCoil at c
  split at c
  · simp at c
  · obtain ⟨n, -, rfl⟩ := Option.map_eq_some_iff.mp c
    have k : s.Keeps h { t with coilSerial := nextSerial n } :=
      H.trans ⟨rfl, rfl, rfl, rfl, rfl, rfl, rfl, rfl, rfl, fun _ e => e, rfl, fun _ _ => rfl⟩
    simp [k]

@[simp] theorem State.downgradeCoils_keeps {n : Nat} (H : s.Keeps h t) : s.Keeps h (t.downgradeCoils n) := by
  refine State.foldl_keeps (fun v r K => ?_) _ H
  unfold State.judgeCoil
  split <;> simp (maxDischargeDepth := 20) [State.downgradeCoil, K]

@[simp] theorem State.addRopeSpan_keeps {n : Nat} {x : Span} (H : s.Keeps h t) : s.Keeps h (t.addRopeSpan n x) := by
  unfold State.addRopeSpan
  dsimp only
  split <;> simp (maxDischargeDepth := 20) [H]

@[simp] theorem State.coilerFlawFall_keeps {pf : Nat} (H : s.Keeps h t) : s.Keeps h (t.coilerFlawFall h pf) := by
  unfold State.coilerFlawFall
  dsimp only
  repeat' split
  all_goals simp (maxDischargeDepth := 20) [H]

@[simp] theorem State.flawAtLeaving_keeps {pf : Nat} (H : s.Keeps h t) : s.Keeps h (t.flawAtLeaving h pf) := by
  unfold State.flawAtLeaving
  split <;> simp (maxDischargeDepth := 20) [H]

@[simp] theorem State.windCoil_keeps {n rope e a : Nat} {b : Bool} (H : s.Keeps h t) :
    s.Keeps h (t.windCoil h n rope e a b) := by
  unfold State.windCoil
  dsimp only
  repeat' split
  all_goals simp (maxDischargeDepth := 20) [H]

@[simp] theorem State.addWaste_keeps {rope n : Nat} (H : s.Keeps h t) : s.Keeps h (t.addWaste rope n) :=
  State.updRec_keeps H

@[simp] theorem State.completeSegment_keeps (H : s.Keeps h t) : s.Keeps h (t.completeSegment h) := by
  unfold State.completeSegment
  dsimp only
  repeat' split
  all_goals simp (maxDischargeDepth := 20) [H]

@[simp] theorem State.cutShort_keeps {rope e : Nat} (H : s.Keeps h t) : s.Keeps h (t.cutShort h rope e) := by
  unfold State.cutShort
  dsimp only
  repeat' split
  all_goals simp (maxDischargeDepth := 20) [H]

@[simp] theorem State.giveUpRope_keeps (H : s.Keeps h t) : s.Keeps h (t.giveUpRope h) := by
  unfold State.giveUpRope
  repeat' split
  all_goals simp (maxDischargeDepth := 20) [H]

@[simp] theorem State.endSegment_keeps (H : s.Keeps h t) : s.Keeps h (t.endSegment h) := by
  unfold State.endSegment
  dsimp only
  split <;> simp (maxDischargeDepth := 20) [H]

@[simp] theorem State.endRope_keeps {rope : Nat} (H : s.Keeps h t) : s.Keeps h (t.endRope h rope) := by
  unfold State.endRope
  dsimp only
  simp (maxDischargeDepth := 20) [H]

@[simp] theorem State.planWaits_keeps {x : HoldReason} (H : s.Keeps h t) : s.Keeps h (t.planWaits h x) := by
  unfold State.planWaits
  dsimp only
  split <;> simp (maxDischargeDepth := 20) [H]

@[simp] theorem State.planMade_keeps (H : s.Keeps h t) : s.Keeps h (t.planMade h) := by
  refine State.updHead_keeps (fun y => ?_) H
  dsimp only
  split <;> rfl

@[simp] theorem State.applyPlan_keeps {rope e : Nat} {p : Plan} (H : s.Keeps h t) : s.Keeps h (t.applyPlan h rope e p) := by
  unfold State.applyPlan
  split
  · simp (maxDischargeDepth := 20) [H]
  · simp (maxDischargeDepth := 20) [H]
  · split
    · rename_i c
      exact State.planMade_keeps (State.createCoil_keeps H c)
    · simp (maxDischargeDepth := 20) [H]

@[simp] theorem State.openPlan_keeps {rope e : Nat} (H : s.Keeps h t) : s.Keeps h (t.openPlan h rope e) := by
  unfold State.openPlan
  dsimp only
  split <;> simp (maxDischargeDepth := 20) [H]

@[simp] theorem State.planPoint_keeps (H : s.Keeps h t) : s.Keeps h (t.planPoint h) := by
  unfold State.planPoint
  dsimp only
  repeat' split
  all_goals simp (maxDischargeDepth := 20) [H]

@[simp] theorem State.storeFullNotification_keeps (H : s.Keeps h t) : s.Keeps h (t.storeFullNotification h) := by
  unfold State.storeFullNotification
  dsimp only
  repeat' split
  all_goals simp (maxDischargeDepth := 20) [H]

/-! ## The head state machine -/

@[simp] theorem Head.free_settings (st : HeadState) (x : Head) : (x.free st).settings = x.settings := rfl

@[simp] theorem Head.complete_settings (x : Head) : x.complete.settings = x.settings := rfl

@[simp] theorem State.endMaking_keeps {f : Record → Record} (H : s.Keeps h t) : s.Keeps h (t.endMaking h f) := by
  unfold State.endMaking
  split
  · exact H
  · exact State.updRec_keeps (State.foldl_keeps (fun _ _ => State.unbindSlot_keeps) _ H)

@[simp] theorem State.settleRecords_keeps {f : Record → Record} (H : s.Keeps h t) : s.Keeps h (t.settleRecords h f) := by
  unfold State.settleRecords State.undoBinding State.endRunning
  dsimp only
  repeat' split
  all_goals simp (maxDischargeDepth := 20) [H]

@[simp] theorem State.releaseHead_keeps (H : s.Keeps h t) : s.Keeps h (t.releaseHead h) := by
  exact State.updHead_keeps (fun _ => rfl) (State.settleRecords_keeps H)

@[simp] theorem State.disconnect_keeps (H : s.Keeps h t) : s.Keeps h (t.disconnect h) := by
  exact State.updHead_keeps (fun _ => rfl) (State.settleRecords_keeps H)

@[simp] theorem State.completeCut_keeps (H : s.Keeps h t) : s.Keeps h (t.completeCut h) := by
  have e : ∀ x : Head, x.complete.settings = x.settings := fun _ => rfl
  unfold State.completeCut
  split
  · simp (maxDischargeDepth := 20) [H]
  · exact State.raise_keeps (State.updHead_keeps e (State.endMaking_keeps (State.closeRow_keeps H)))
  all_goals exact State.raise_keeps (State.updHead_keeps e (State.endMaking_keeps H))

@[simp] theorem State.cutWaitExpiry_keeps (H : s.Keeps h t) : s.Keeps h (t.cutWaitExpiry h) := by
  unfold State.cutWaitExpiry
  split <;> simp (maxDischargeDepth := 20) [H]

@[simp] theorem State.checkFeeds_keeps (H : s.Keeps h t) : s.Keeps h (t.checkFeeds h) := by
  unfold State.checkFeeds
  split <;> simp (maxDischargeDepth := 20) [H]

@[simp] theorem State.runRise_keeps (H : s.Keeps h t) : s.Keeps h (t.runRise h) := by
  unfold State.runRise
  dsimp only
  repeat' split
  all_goals simp (maxDischargeDepth := 20) [H]

@[simp] theorem State.runFall_keeps (H : s.Keeps h t) : s.Keeps h (t.runFall h) := by
  unfold State.runFall
  dsimp only
  repeat' split
  all_goals simp (maxDischargeDepth := 20) [H]

@[simp] theorem State.flawRiseEdge_keeps (H : s.Keeps h t) : s.Keeps h (t.flawRiseEdge h) := by
  unfold State.flawRiseEdge
  dsimp only
  split <;> simp (maxDischargeDepth := 20) [H]

@[simp] theorem State.flawFallEdge_keeps (H : s.Keeps h t) : s.Keeps h (t.flawFallEdge h) := by
  unfold State.flawFallEdge
  dsimp only
  repeat' split
  all_goals simp (maxDischargeDepth := 20) [H]

@[simp] theorem State.senseSettled_keeps (H : s.Keeps h t) : s.Keeps h (t.senseSettled h) := by
  unfold State.senseSettled
  dsimp only
  repeat' split
  all_goals simp (maxDischargeDepth := 20) [H]

end Sys2Proof.Machine
end

