-- ==== Sys2Proof/Laws/Heads.lean ====
section
/-! SUPPORT. The laws of the heads (R54, R77, R82, R115, R149): for each shared operation, the one lemma that says it keeps
them at every head. -/

namespace Sys2Proof.Machine

variable {h : HeadIx} {s t u : State}

/-! ## One head -/

/-- The fields of a head that its laws speak of. -/
abbrev Head.vitals (x : Head) : Settings × Nat × List CoilOrder × Nat × Nat :=
  (x.settings, x.trim, x.queue, x.settle, x.pitchFraction)

/-- The lay window stands or is cleared, and the spindle count stands (R101). -/
abbrev Head.LayKept (y x : Head) : Prop := (y.window = x.window ∨ y.window = none) ∧ y.spinCount = x.spinCount

theorem Head.LayKept.window {x y : Head} (K : y.LayKept x) (H : x.Ok) : ∀ w, y.window = some w → w.Ok := fun w e => by
  rcases K.1 with k | k
  · exact H.window w (k ▸ e)
  · rw [k] at e
    cases e

theorem Head.Ok.of_vitals {x y : Head} (H : x.Ok) (e : y.vitals = x.vitals)
    (K : y.LayKept x := by first | exact ⟨.inl rfl, rfl⟩ | exact ⟨.inr rfl, rfl⟩) : y.Ok := by
  simp only [Head.vitals, Prod.mk.injEq] at e
  obtain ⟨e1, e2, e3, e4, e5⟩ := e
  exact ⟨e1 ▸ H.settings, e1 ▸ e2 ▸ H.trim, K.window H, K.2 ▸ H.spinCount, e3 ▸ H.queueLength, e3 ▸ H.queue, e4 ▸ H.settle,
    e5 ▸ H.pitchFraction⟩

/-- A new pitch fraction below one millimetre keeps the laws. -/
theorem Head.Ok.withFraction {x y : Head} {n : Nat} (H : x.Ok) (hn : n < fine)
    (e : y.vitals = (x.settings, x.trim, x.queue, x.settle, n))
    (K : y.LayKept x := by first | exact ⟨.inl rfl, rfl⟩ | exact ⟨.inr rfl, rfl⟩) : y.Ok := by
  have : Head.Ok { x with pitchFraction := n } :=
    { H with pitchFraction := hn }
  exact this.of_vitals e K

/-- A new queue within its limits keeps the laws (R149). -/
theorem Head.Ok.withQueue {x y : Head} {q : List CoilOrder} (H : x.Ok) (hl : q.length ≤ 8) (ho : ∀ o ∈ q, o.Ok)
    (e : y.vitals = (x.settings, x.trim, q, x.settle, x.pitchFraction))
    (K : y.LayKept x := by first | exact ⟨.inl rfl, rfl⟩ | exact ⟨.inr rfl, rfl⟩) : y.Ok := by
  have : Head.Ok { x with queue := q } := { H with queueLength := hl, queue := ho }
  exact this.of_vitals e K

/-- A trim code within the limits keeps the laws (R115). -/
theorem Head.Ok.withTrim {x y : Head} {n : Nat} (H : x.Ok) (hn : x.settings.trimMin ≤ n ∧ n ≤ x.settings.trimMax)
    (e : y.vitals = (x.settings, n, x.queue, x.settle, x.pitchFraction))
    (K : y.LayKept x := by first | exact ⟨.inl rfl, rfl⟩ | exact ⟨.inr rfl, rfl⟩) : y.Ok := by
  have : Head.Ok { x with trim := n } := { H with trim := hn }
  exact this.of_vitals e K

theorem fine_pos : 0 < fine := by decide

theorem Settings.reset_ok : Settings.Ok {} := by constructor <;> decide

theorem Head.reset_ok : Head.reset.Ok where
  settings := Settings.reset_ok
  trim := by decide
  window w e := by cases e
  spinCount := Nat.zero_le _
  queueLength := Nat.zero_le _
  queue o e := by cases e
  settle := Nat.zero_le _
  pitchFraction := fine_pos

theorem Head.afterReset_ok (x : Head) : x.afterReset.Ok := Head.reset_ok.of_vitals rfl

theorem Head.sample_ok {p : SensePins} {x : Head} (H : x.Ok) : (x.sample p).Ok := by
  unfold Head.sample
  split
  · exact { H with settle := Nat.min_le_right _ _ }
  · exact { H with settle := show (1 : Nat) ≤ 64 by decide }

theorem Head.tick_ok {p : SensePins} {x : Head} (H : x.Ok) : (x.tick p).Ok :=
  (Head.sample_ok (p := p) H).of_vitals rfl

/-- The new trim code lies within the limits (R110, R115). -/
theorem trimCode_range {lo hi code : Nat} {step : Int} (h : lo ≤ hi) :
    lo ≤ trimCode lo hi code step ∧ trimCode lo hi code step ≤ hi := by
  unfold trimCode clampInt
  omega

theorem clampNat_range {lo hi v : Nat} (h : lo ≤ hi) : lo ≤ clampNat lo hi v ∧ clampNat lo hi v ≤ hi := by
  unfold clampNat
  omega

/-- A setting is written into its range (R77, R78). -/
theorem Settings.write_ok {s : Settings} {n v : Nat} (H : s.Ok) : (s.write n v).Ok := by
  have c := @clampNat_range
  unfold Settings.write
  split
  · exact { H with pitch := c (by decide) }
  · exact { H with spindle := c (by decide) }
  · exact { H with turns := c (by decide) }
  · exact { H with gain := (c (by decide)).2 }
  · exact { H with trimMin := (c (by decide)).2 }
  · exact { H with trimMax := c (by decide) }
  · exact { H with tolerance := c (by decide) }
  · exact { H with marker := (c (by decide)).2 }
  · exact { H with guardMargin := (c (by decide)).2 }
  · exact { H with knotWindow := c (by decide) }
  · exact { H with feedLow := (c (by decide)).2 }
  · exact { H with minCoil := c (by decide) }
  · exact { H with }
  · exact H

theorem Settings.writeList_ok {s : Settings} {l : List Item} (H : s.Ok) : (s.writeList l).Ok := by
  unfold Settings.writeList
  induction l generalizing s with
  | nil => exact H
  | cons it l ih =>
    rw [List.foldl_cons]
    apply ih
    split
    · exact Settings.write_ok H
    · exact H

/-- A list that names no trim limit leaves both as they are (R79). -/
theorem Settings.writeList_limits {s : Settings} {l : List Item} (hl : namesLimit l = false) :
    (s.writeList l).trimMin = s.trimMin ∧ (s.writeList l).trimMax = s.trimMax := by
  unfold Settings.writeList
  induction l generalizing s with
  | nil => exact ⟨rfl, rfl⟩
  | cons it l ih =>
    simp only [namesLimit, namesItem, List.any_cons, Bool.or_eq_false_iff, decide_eq_false_iff_not] at hl ih
    rw [List.foldl_cons]
    have h1 : ∀ v, (s.write it.number v).trimMin = s.trimMin ∧ (s.write it.number v).trimMax = s.trimMax := by
      intro v
      unfold Settings.write
      split
      all_goals first | exact ⟨rfl, rfl⟩ | omega
    cases it.value with
    | none => exact ih ⟨hl.1.2, hl.2.2⟩
    | some v =>
      have h2 := ih (s := s.write it.number v) ⟨hl.1.2, hl.2.2⟩
      exact ⟨h2.1.trans (h1 v).1, h2.2.trans (h1 v).2⟩

theorem Head.setHead_ok {l : List Item} {x : Head} (H : x.Ok) : (x.setHead l).Ok := by
  have hs := Settings.writeList_ok (l := l) H.settings
  refine { H with settings := hs, trim := ?_ }
  unfold Head.setHead
  dsimp only
  split
  · exact clampNat_range (Nat.le_trans hs.trimMin hs.trimMax.1)
  · rename_i e
    obtain ⟨e1, e2⟩ := Settings.writeList_limits (s := x.settings) (l := l) (by simpa using e)
    rw [e1, e2]
    exact H.trim

/-- The queue after a completed coil stays within its limits (R160). -/
theorem judgeQueue_ok {link : Bool} {c : CoilBody} {q : List CoilOrder} (hl : q.length ≤ 8) (ho : ∀ o ∈ q, o.Ok) :
    (judgeQueue link c q).length ≤ 8 ∧ ∀ o ∈ judgeQueue link c q, o.Ok := by
  unfold judgeQueue
  split
  · exact ⟨hl, ho⟩
  · rename_i o rest
    have hr : ∀ x ∈ rest, x.Ok := fun x hx => ho x (List.mem_cons_of_mem _ hx)
    have hlen : rest.length + 1 ≤ 8 := hl
    split
    · split
      · exact ⟨by omega, hr⟩
      · rename_i hc
        refine ⟨hl, fun x hx => ?_⟩
        rcases List.mem_cons.mp hx with rfl | hx
        · have := ho o List.mem_cons_self
          exact ⟨this.length, by have := this.count; dsimp only; omega⟩
        · exact hr x hx
    · exact ⟨hl, ho⟩

theorem Head.free_ok {st : HeadState} {x : Head} (H : x.Ok) : (x.free st).Ok := H.of_vitals rfl

theorem Head.complete_ok {x : Head} (H : x.Ok) : x.complete.Ok := H.of_vitals rfl

theorem Head.bindProduct_ok {n : Nat} {b : Body} {x : Head} (H : x.Ok) : (x.bindProduct n b).Ok :=
  { H with trim := ⟨H.settings.trimMin, H.settings.trimMax.1⟩, window := fun _ e => (by cases e), pitchFraction := fine_pos }

theorem Head.bindSource_ok {n : Nat} {x : Head} (H : x.Ok) : (x.bindSource n).Ok := H.withFraction fine_pos rfl

theorem Head.clearQueue_ok {x : Head} (H : x.Ok) : x.clearQueue.Ok :=
  H.withQueue (q := []) (Nat.zero_le _) (fun _ e => by cases e) rfl

/-! ## The laws of a state -/

theorem State.HeadsOk.of_heads (H : t.HeadsOk) (e : u.heads = t.heads) : u.HeadsOk := fun k => by
  have : u.head k = t.head k := by simp only [State.head, e]
  rw [this]
  exact H k

/-- A change of one head that keeps the laws. -/
theorem State.updHead_headsOk_of {k : HeadIx} {f : Head → Head} (hf : ∀ x, x.Ok → (f x).Ok) (H : t.HeadsOk) :
    (t.updHead k f).HeadsOk := fun j => by
  by_cases e : j = k
  · subst e
    rw [State.updHead_head]
    exact hf _ (H j)
  · rw [State.updHead_head_ne _ _ e]
    exact H j

theorem State.updHead_headsOk {k : HeadIx} {f : Head → Head} (hf : ∀ x, (f x).vitals = x.vitals) (H : t.HeadsOk)
    (hk : ∀ x, (f x).LayKept x := by first | exact fun _ => ⟨.inl rfl, rfl⟩ | exact fun _ => ⟨.inr rfl, rfl⟩) :
    (t.updHead k f).HeadsOk := State.updHead_headsOk_of (fun x hx => hx.of_vitals (hf x) (hk x)) H

@[simp] theorem State.updHead_headsOk_of_kept {k : HeadIx} {f : Head → Head} (hf : ∀ x, (f x).vitals = x.vitals)
    (hw : ∀ x, (f x).window = x.window ∨ (f x).window = none) (hc : ∀ x, (f x).spinCount = x.spinCount) (H : t.HeadsOk) :
    (t.updHead k f).HeadsOk := State.updHead_headsOk hf H fun x => ⟨hw x, hc x⟩

@[simp] theorem State.updSlot_headsOk {k : HeadIx} {n : SlotIx} {f : FeedSlot → FeedSlot} (H : t.HeadsOk) :
    (t.updSlot k n f).HeadsOk := State.updHead_headsOk (fun _ => rfl) H

@[simp] theorem State.updRec_headsOk {n : Nat} {f : Record → Record} (H : t.HeadsOk) : (t.updRec n f).HeadsOk := H.of_heads rfl

@[simp] theorem State.updAttn_headsOk {f : Attention → Attention} (H : t.HeadsOk) : (t.updAttn f).HeadsOk := H.of_heads rfl

@[simp] theorem State.updLink_headsOk {f : PanelLink → PanelLink} (H : t.HeadsOk) : (t.updLink f).HeadsOk := H.of_heads rfl

@[simp] theorem State.raise_headsOk {k : HeadIx} {f : HeadFlag} (H : t.HeadsOk) : (t.raise k f).HeadsOk := H.of_heads rfl

@[simp] theorem State.raiseAlarm_headsOk {k : HeadIx} {x : Alarm} (H : t.HeadsOk) : (t.raiseAlarm k x).HeadsOk := H.of_heads rfl

@[simp] theorem State.raiseStore_headsOk {f : StoreCauses → StoreCauses} (H : t.HeadsOk) : (t.raiseStore f).HeadsOk :=
  H.of_heads rfl

@[simp] theorem State.raiseAt_headsOk {b : Option (HeadIx × Role)} {x : Alarm} (H : t.HeadsOk) : (t.raiseAt b x).HeadsOk := by
  unfold State.raiseAt
  split <;> simp (maxDischargeDepth := 20) [H]

@[simp] theorem State.commit_headsOk {b : State} (H : t.HeadsOk) : (b.commit t).HeadsOk := H.of_heads rfl

/-- A whole change keeps the laws when the change does. -/
theorem State.change_headsOk {f : State → State} (H : (f t).HeadsOk) : (t.change f).HeadsOk := State.commit_headsOk H

/-- A fold keeps the laws when each of its steps does. -/
theorem State.foldl_headsOk {α : Type} {f : State → α → State} (hf : ∀ t a, t.HeadsOk → (f t a).HeadsOk) (l : List α)
    (H : t.HeadsOk) : (l.foldl f t).HeadsOk := by
  induction l generalizing t with
  | nil => exact H
  | cons a l ih => exact ih (hf t a H)

/-! ## The store and its pieces -/

@[simp] theorem State.enter_headsOk {r : Record} (H : t.HeadsOk) : (t.enter r).HeadsOk := by
  unfold State.enter
  dsimp only
  split <;> exact H.of_heads rfl

@[simp] theorem State.notifyPlanners_headsOk (H : t.HeadsOk) : t.notifyPlanners.HeadsOk := fun k => by
  rw [State.notifyPlanners_head]
  exact (H k).of_vitals rfl

@[simp] theorem State.leave_headsOk {n : Nat} (H : t.HeadsOk) : (t.leave n).HeadsOk := by
  unfold State.leave
  split
  · exact H
  · dsimp only
    have e : ∀ l, State.HeadsOk { t with store := l } := fun l => H.of_heads rfl
    split
    · exact State.notifyPlanners_headsOk (e _)
    · exact e _

@[simp] theorem State.onPiece_headsOk {n : Nat} {f : Piece → Piece × Bool} (H : t.HeadsOk) : (t.onPiece n f).HeadsOk := by
  unfold State.onPiece
  dsimp only
  repeat' split
  all_goals simp (maxDischargeDepth := 20) [H]

@[simp] theorem State.normalizeInto_headsOk {n : Nat} {x : Span} (H : t.HeadsOk) : (t.normalizeInto n x).HeadsOk :=
  State.onPiece_headsOk H

@[simp] theorem State.addHolder_headsOk {n st : Nat} {x : Holder} (H : t.HeadsOk) : (t.addHolder n x st).HeadsOk := by
  unfold State.addHolder
  repeat' split
  all_goals simp (maxDischargeDepth := 20) [H]

@[simp] theorem State.releaseHolder_headsOk {n : Nat} {x : Holder} (H : t.HeadsOk) : (t.releaseHolder n x).HeadsOk :=
  State.onPiece_headsOk H

@[simp] theorem State.swapHolder_headsOk {n : Nat} {x y : Holder} (H : t.HeadsOk) : (t.swapHolder n x y).HeadsOk :=
  State.onPiece_headsOk H

/-! ## Heads -/

@[simp] theorem State.makerFlawRise_headsOk (H : t.HeadsOk) : (t.makerFlawRise h).HeadsOk := by
  unfold State.makerFlawRise
  dsimp only
  repeat' split
  all_goals simp (maxDischargeDepth := 20) [H]

@[simp] theorem State.flawRises_headsOk (H : t.HeadsOk) : (t.flawRises h).HeadsOk := by
  unfold State.flawRises
  split <;> simp (maxDischargeDepth := 20) [H]

@[simp] theorem State.enterHeld_headsOk (H : t.HeadsOk) : (t.enterHeld h).HeadsOk := by
  unfold State.enterHeld
  dsimp only
  split <;> simp (maxDischargeDepth := 20) [H]

@[simp] theorem State.addHold_headsOk {x : HoldReason} (H : t.HeadsOk) : (t.addHold h x).HeadsOk := by
  unfold State.addHold
  dsimp only
  repeat' split
  all_goals simp (maxDischargeDepth := 20) [H]

@[simp] theorem State.dropHold_headsOk {x : HoldReason} (H : t.HeadsOk) : (t.dropHold h x).HeadsOk := by
  refine State.updHead_headsOk (fun y => ?_) H fun y => ?_
  · dsimp only
    split <;> rfl
  · dsimp only
    split <;> exact ⟨.inl rfl, rfl⟩

@[simp] theorem State.enterCutting_headsOk (H : t.HeadsOk) : (t.enterCutting h).HeadsOk := by
  unfold State.enterCutting
  split <;> simp (maxDischargeDepth := 20) [H]

@[simp] theorem State.checkEnd_headsOk (H : t.HeadsOk) : (t.checkEnd h).HeadsOk := by
  unfold State.checkEnd
  repeat' split
  all_goals simp (maxDischargeDepth := 20) [H]

/-! ## Feeds -/

@[simp] theorem State.unbindSlot_headsOk {st : RecordState} {pos : Nat} {n : SlotIx} (H : t.HeadsOk) : (t.unbindSlot h st pos n).HeadsOk := by
  unfold State.unbindSlot
  dsimp only
  repeat' split
  all_goals simp (maxDischargeDepth := 20) [H]

@[simp] theorem State.checkLow_headsOk {n : SlotIx} {left : Nat} (H : t.HeadsOk) : (t.checkLow h n left).HeadsOk := by
  unfold State.checkLow
  dsimp only
  split <;> simp (maxDischargeDepth := 20) [H]

@[simp] theorem State.passFeed_headsOk {rope : Nat} {n : SlotIx} {added : Bool} (H : t.HeadsOk) :
    (t.passFeed rope n added).HeadsOk := by
  unfold State.passFeed
  split <;> simp (maxDischargeDepth := 20) [H]

@[simp] theorem State.takeUpSlot_headsOk {rope factor m m' : Nat} {n : SlotIx} (H : t.HeadsOk) : (t.takeUpSlot h rope factor m m' n).HeadsOk := by
  unfold State.takeUpSlot
  dsimp only
  repeat' split
  all_goals simp (maxDischargeDepth := 20) [H]

@[simp] theorem State.takeUp_headsOk {m m' : Nat} (H : t.HeadsOk) : (t.takeUp h m m').HeadsOk := by
  unfold State.takeUp
  split
  · exact H
  · split
    · exact State.foldl_headsOk (fun _ _ => State.takeUpSlot_headsOk) _ H
    all_goals exact H

@[simp] theorem State.chargeSlot_headsOk {amount pos : Nat} {a : State × Bool} {n : SlotIx} (H : a.1.HeadsOk) :
    (State.chargeSlot h amount pos a n).1.HeadsOk := by
  unfold State.chargeSlot
  dsimp only
  repeat' split
  all_goals simp (maxDischargeDepth := 20) [H]

@[simp] theorem State.chargeRow_headsOk {amount pos : Nat} (H : t.HeadsOk) : (t.chargeRow h amount pos).1.HeadsOk := by
  unfold State.chargeRow
  have e : ([(0 : SlotIx), 1].foldl (State.chargeSlot h amount pos) (t, false)).1.HeadsOk := by
    rw [List.foldl_cons, List.foldl_cons, List.foldl_nil]
    have e1 : (State.chargeSlot h amount pos (t, false) 0).1.HeadsOk := State.chargeSlot_headsOk H
    exact State.chargeSlot_headsOk e1
  generalize [(0 : SlotIx), 1].foldl (State.chargeSlot h amount pos) (t, false) = x at e
  dsimp only
  split
  · exact State.addHold_headsOk e
  · exact e

@[simp] theorem State.rejudgeTop_headsOk {n : SlotIx} (H : t.HeadsOk) : (t.rejudgeTop h n).HeadsOk := by
  unfold State.rejudgeTop
  repeat' split
  all_goals simp (maxDischargeDepth := 20) [H]

/-! ## Length and lay -/

@[simp] theorem State.limitReached_headsOk (H : t.HeadsOk) : (t.limitReached h).HeadsOk := by
  unfold State.limitReached
  split <;> simp (maxDischargeDepth := 20) [H]

@[simp] theorem State.releaseGuard_headsOk {n m : Nat} (H : t.HeadsOk) : (t.releaseGuard h n m).HeadsOk := by
  unfold State.releaseGuard
  split <;> simp (maxDischargeDepth := 20) [H]

@[simp] theorem State.releaseJoin_headsOk {n m : Nat} (H : t.HeadsOk) : (t.releaseJoin h n m).HeadsOk := by
  unfold State.releaseJoin
  split <;> simp (maxDischargeDepth := 20) [H]

/-- A new pitch fraction below one millimetre at one head. -/
theorem State.withFraction_headsOk {n : Nat} (H : t.HeadsOk) (hn : n < fine) :
    (t.updHead h fun x => { x with pitchFraction := n }).HeadsOk :=
  State.updHead_headsOk_of (fun _ hx => hx.withFraction hn rfl) H

@[simp] theorem State.toggleMark_headsOk {m m' : Nat} (H : t.HeadsOk) : (t.updHead h (Head.toggleMark m m')).HeadsOk := by
  refine State.updHead_headsOk (fun x => ?_) H fun x => ?_
  all_goals
    unfold Head.toggleMark
    split
  all_goals first | rfl | exact ⟨.inl rfl, rfl⟩

@[simp] theorem State.advanceMade_headsOk {c : Nat} (H : t.HeadsOk) : (t.advanceMade h c).HeadsOk := by
  unfold State.advanceMade
  split
  · exact H
  rename_i r _
  dsimp only
  generalize hs : (if lengthTop < r.made + c then
      (t.limitReached h).updHead h fun x => { x with pitchFraction := fine - 1 } else t) = s0
  have H0 : s0.HeadsOk := by
    subst hs
    split
    · exact State.withFraction_headsOk (State.limitReached_headsOk H) (by decide)
    · exact H
  repeat' split
  all_goals simp (maxDischargeDepth := 20) [H0]

@[simp] theorem State.unwindCarry_headsOk {c : Nat} (H : t.HeadsOk) : (t.unwindCarry h c).HeadsOk := by
  unfold State.unwindCarry
  dsimp only
  repeat' split
  all_goals simp (maxDischargeDepth := 20) [H]

@[simp] theorem State.encPulse_headsOk (H : t.HeadsOk) : (t.encPulse h).HeadsOk := by
  have key : ∀ n, (t.updHead h fun x => { x with pitchFraction := n % fine }).HeadsOk := fun n =>
    State.withFraction_headsOk H (Nat.mod_lt _ fine_pos)
  unfold State.encPulse
  dsimp only
  repeat' split
  all_goals simp (maxDischargeDepth := 20) [H, key]

@[simp] theorem State.makerFlawFall_headsOk (H : t.HeadsOk) : (t.makerFlawFall h).HeadsOk := by
  unfold State.makerFlawFall
  dsimp only
  repeat' split
  all_goals simp (maxDischargeDepth := 20) [H]

@[simp] theorem State.openJoin_headsOk {n m : Nat} (H : t.HeadsOk) : (t.openJoin h n m).HeadsOk := by
  unfold State.openJoin
  dsimp only
  split <;> simp (maxDischargeDepth := 20) [H]

@[simp] theorem State.placeLay_headsOk {n : Nat} {w : LayWindow} {d : Int} (H : t.HeadsOk) : (t.placeLay n w d).HeadsOk := by
  unfold State.placeLay
  split <;> simp (maxDischargeDepth := 20) [H]

@[simp] theorem State.endWindow_headsOk {r : Record} {w : LayWindow} (H : t.HeadsOk) : (t.endWindow h r w).HeadsOk := by
  unfold State.endWindow
  dsimp only
  split
  · simp (maxDischargeDepth := 20) [H]
  · rename_i target _
    have key : ∀ (l : Nat) (d : Int) (st : Int), (t.updHead h fun x =>
        { x with
          window := none
          lastLay := some l
          lastDeviation := some d
          trim := trimCode (t.head h).settings.trimMin (t.head h).settings.trimMax x.trim st }).HeadsOk := by
      intro l d st k
      by_cases e : k = h
      · subst e
        rw [State.updHead_head]
        have hr := trimCode_range (code := (t.head k).trim) (step := st)
          (Nat.le_trans (H k).settings.trimMin (H k).settings.trimMax.1)
        exact (H k).withTrim hr rfl
      · rw [State.updHead_head_ne _ _ e]
        exact H k
    split <;> simp (maxDischargeDepth := 20) [key]

/-- A window that opens latches settings in their ranges (R102). -/
theorem State.openWindow_headsOk {r : Record} (H : t.HeadsOk) : (t.openWindow h r).HeadsOk :=
  State.updHead_headsOk_of (fun x hx =>
    { hx with
      window := fun w e => by cases e; exact ⟨hx.settings.spindle, hx.settings.turns⟩
      spinCount := Nat.zero_le _ }) H

/-- A pulse within a window counts below S × W, and so below 16 320 (R101, R103). -/
theorem State.spinWithin_headsOk {r : Record} {w : LayWindow} (ew : (t.head h).window = some w) (H : t.HeadsOk) :
    (t.spinWithin h r w).HeadsOk := by
  unfold State.spinWithin
  split
  · exact State.endWindow_headsOk H
  · rename_i hc
    intro k
    by_cases e : k = h
    · subst e
      rw [State.updHead_head]
      have hw := (H k).window w ew
      have := Nat.mul_le_mul hw.spindle.2 hw.turns.2
      exact { H k with spinCount := show (t.head k).spinCount + 1 ≤ 16319 by omega }
    · rw [State.updHead_head_ne _ _ e]
      exact H k

@[simp] theorem State.spinPulse_headsOk (H : t.HeadsOk) : (t.spinPulse h).HeadsOk := by
  unfold State.spinPulse
  repeat' split
  all_goals first | exact H | exact State.openWindow_headsOk H | exact State.spinWithin_headsOk (by assumption) H

/-! ## Knots -/

@[simp] theorem State.countRow_headsOk {n : Nat} {k : KindSet} (H : t.HeadsOk) : (t.countRow n k).HeadsOk := by
  unfold State.countRow
  repeat' split
  all_goals simp (maxDischargeDepth := 20) [H]

@[simp] theorem State.countMissed_headsOk {n m : Nat} (H : t.HeadsOk) : (t.countMissed h n m).HeadsOk := by
  unfold State.countMissed
  split <;> simp (maxDischargeDepth := 20) [H]

@[simp] theorem State.closeRow_headsOk (H : t.HeadsOk) : (t.closeRow h).HeadsOk := by
  unfold State.closeRow
  dsimp only
  repeat' split
  all_goals simp (maxDischargeDepth := 20) [H]

@[simp] theorem State.openRow_headsOk (H : t.HeadsOk) : (t.openRow h).HeadsOk := by
  unfold State.openRow
  repeat' split
  all_goals simp (maxDischargeDepth := 20) [H]

@[simp] theorem State.knotPulse_headsOk (H : t.HeadsOk) : (t.knotPulse h).HeadsOk := by
  unfold State.knotPulse State.countKnot State.strayKnot
  dsimp only
  repeat' split
  all_goals simp (maxDischargeDepth := 20) [H]

@[simp] theorem State.rowPulse_headsOk (H : t.HeadsOk) : (t.rowPulse h).HeadsOk := by
  unfold State.rowPulse
  split <;> simp (maxDischargeDepth := 20) [H]

@[simp] theorem State.rowExpiry_headsOk (H : t.HeadsOk) : (t.rowExpiry h).HeadsOk := by
  unfold State.rowExpiry
  split <;> simp (maxDischargeDepth := 20) [H]

/-! ## Coils -/

theorem State.createCoil_headsOk {rope e len : Nat} {g : Grade} {b : Bool} (H : t.HeadsOk)
    (c : t.createCoil h rope e len g b = some u) : u.HeadsOk := by
  unfold State.createCoil at c
  split at c
  · simp at c
  · obtain ⟨n, -, rfl⟩ := Option.map_eq_some_iff.mp c
    have k : State.HeadsOk { t with coilSerial := nextSerial n } := H.of_heads rfl
    exact State.updHead_headsOk (fun _ => rfl) (State.enter_headsOk k)

@[simp] theorem State.downgradeCoils_headsOk {n : Nat} (H : t.HeadsOk) : (t.downgradeCoils n).HeadsOk := by
  refine State.foldl_headsOk (fun v r K => ?_) _ H
  unfold State.judgeCoil
  split <;> simp (maxDischargeDepth := 20) [State.downgradeCoil, K]

@[simp] theorem State.addRopeSpan_headsOk {n : Nat} {x : Span} (H : t.HeadsOk) : (t.addRopeSpan n x).HeadsOk := by
  unfold State.addRopeSpan
  dsimp only
  split <;> simp (maxDischargeDepth := 20) [H]

@[simp] theorem State.coilerFlawFall_headsOk {pf : Nat} (H : t.HeadsOk) : (t.coilerFlawFall h pf).HeadsOk := by
  unfold State.coilerFlawFall
  dsimp only
  repeat' split
  all_goals simp (maxDischargeDepth := 20) [H]

@[simp] theorem State.flawAtLeaving_headsOk {pf : Nat} (H : t.HeadsOk) : (t.flawAtLeaving h pf).HeadsOk := by
  unfold State.flawAtLeaving
  split <;> simp (maxDischargeDepth := 20) [H]

@[simp] theorem State.windCoil_headsOk {n rope e a : Nat} {b : Bool} (H : t.HeadsOk) : (t.windCoil h n rope e a b).HeadsOk := by
  unfold State.windCoil
  dsimp only
  repeat' split
  all_goals simp (maxDischargeDepth := 20) [H]

@[simp] theorem State.addWaste_headsOk {rope n : Nat} (H : t.HeadsOk) : (t.addWaste rope n).HeadsOk := State.updRec_headsOk H

theorem State.judgeQueue_headsOk {link : Bool} {c : CoilBody} (H : t.HeadsOk) :
    (t.updHead h fun x => { x with queue := judgeQueue link c x.queue }).HeadsOk :=
  State.updHead_headsOk_of (fun _ hx => hx.withQueue (judgeQueue_ok hx.queueLength hx.queue).1
    (judgeQueue_ok hx.queueLength hx.queue).2 rfl) H

@[simp] theorem State.completeSegment_headsOk (H : t.HeadsOk) : (t.completeSegment h).HeadsOk := by
  unfold State.completeSegment
  split
  · rename_i g r b _ _
    dsimp only
    refine State.updHead_headsOk (fun _ => rfl) (State.raise_headsOk ?_)
    split
    · rename_i n _
      have key : (t.windCoil h n r.tag b.currentEnd (min g.unwound b.currentEnd) false).HeadsOk := State.windCoil_headsOk H
      split
      · exact State.judgeQueue_headsOk key
      · exact key
    · exact State.addWaste_headsOk H
  · exact H

@[simp] theorem State.cutShort_headsOk {rope e : Nat} (H : t.HeadsOk) : (t.cutShort h rope e).HeadsOk := by
  unfold State.cutShort
  dsimp only
  repeat' split
  all_goals simp (maxDischargeDepth := 20) [H]

@[simp] theorem State.giveUpRope_headsOk (H : t.HeadsOk) : (t.giveUpRope h).HeadsOk := by
  unfold State.giveUpRope
  repeat' split
  all_goals simp (maxDischargeDepth := 20) [H]

@[simp] theorem State.endSegment_headsOk (H : t.HeadsOk) : (t.endSegment h).HeadsOk := by
  unfold State.endSegment
  dsimp only
  split <;> simp (maxDischargeDepth := 20) [H]

@[simp] theorem State.endRope_headsOk {rope : Nat} (H : t.HeadsOk) : (t.endRope h rope).HeadsOk := by
  unfold State.endRope
  dsimp only
  simp (maxDischargeDepth := 20) [H]

@[simp] theorem State.planWaits_headsOk {x : HoldReason} (H : t.HeadsOk) : (t.planWaits h x).HeadsOk := by
  unfold State.planWaits
  dsimp only
  split <;> simp (maxDischargeDepth := 20) [H]

@[simp] theorem State.planMade_headsOk (H : t.HeadsOk) : (t.planMade h).HeadsOk := by
  refine State.updHead_headsOk (fun y => ?_) H fun y => ?_
  · dsimp only
    split <;> rfl
  · dsimp only
    split <;> exact ⟨.inl rfl, rfl⟩

@[simp] theorem State.applyPlan_headsOk {rope e : Nat} {p : Plan} (H : t.HeadsOk) : (t.applyPlan h rope e p).HeadsOk := by
  unfold State.applyPlan
  split
  · simp (maxDischargeDepth := 20) [H]
  · simp (maxDischargeDepth := 20) [H]
  · split
    · rename_i c
      exact State.planMade_headsOk (State.createCoil_headsOk H c)
    · simp (maxDischargeDepth := 20) [H]

@[simp] theorem State.openPlan_headsOk {rope e : Nat} (H : t.HeadsOk) : (t.openPlan h rope e).HeadsOk := by
  have key : ((t.addWaste rope (min (t.head h).unplanned e)).updHead h fun x =>
      { x with unplanned := 0, pitchFraction := 0 }).HeadsOk :=
    State.updHead_headsOk_of (fun _ hx => hx.withFraction fine_pos rfl) (State.addWaste_headsOk H)
  unfold State.openPlan
  dsimp only
  split <;> simp (maxDischargeDepth := 20) [key]

@[simp] theorem State.planPoint_headsOk (H : t.HeadsOk) : (t.planPoint h).HeadsOk := by
  unfold State.planPoint
  dsimp only
  repeat' split
  all_goals simp (maxDischargeDepth := 20) [H]

@[simp] theorem State.storeFullNotification_headsOk (H : t.HeadsOk) : (t.storeFullNotification h).HeadsOk := by
  unfold State.storeFullNotification
  dsimp only
  repeat' split
  all_goals simp (maxDischargeDepth := 20) [H]

/-! ## The head state machine -/

@[simp] theorem State.endMaking_headsOk {f : Record → Record} (H : t.HeadsOk) : (t.endMaking h f).HeadsOk := by
  unfold State.endMaking
  split
  · exact H
  · exact State.updRec_headsOk (State.foldl_headsOk (fun _ _ => State.unbindSlot_headsOk) _ H)

@[simp] theorem State.settleRecords_headsOk {f : Record → Record} (H : t.HeadsOk) : (t.settleRecords h f).HeadsOk := by
  unfold State.settleRecords State.undoBinding State.endRunning
  dsimp only
  repeat' split
  all_goals simp (maxDischargeDepth := 20) [H]

@[simp] theorem State.releaseHead_headsOk (H : t.HeadsOk) : (t.releaseHead h).HeadsOk :=
  State.updHead_headsOk_of (fun _ => Head.free_ok) (State.settleRecords_headsOk H)

@[simp] theorem State.disconnect_headsOk (H : t.HeadsOk) : (t.disconnect h).HeadsOk :=
  State.updHead_headsOk_of (fun _ hx => hx.withQueue (q := []) (Nat.zero_le _) (fun _ e => by cases e) rfl)
    (State.settleRecords_headsOk H)

@[simp] theorem State.completeCut_headsOk (H : t.HeadsOk) : (t.completeCut h).HeadsOk := by
  have key : ∀ v : State, v.HeadsOk → (v.updHead h Head.complete).HeadsOk := fun v Hv =>
    State.updHead_headsOk_of (fun _ => Head.complete_ok) Hv
  unfold State.completeCut
  split
  · simp (maxDischargeDepth := 20) [H]
  · exact State.raise_headsOk (key _ (State.endMaking_headsOk (State.closeRow_headsOk H)))
  all_goals exact State.raise_headsOk (key _ (State.endMaking_headsOk H))

@[simp] theorem State.cutWaitExpiry_headsOk (H : t.HeadsOk) : (t.cutWaitExpiry h).HeadsOk := by
  unfold State.cutWaitExpiry
  split <;> simp (maxDischargeDepth := 20) [H]

@[simp] theorem State.checkFeeds_headsOk (H : t.HeadsOk) : (t.checkFeeds h).HeadsOk := by
  unfold State.checkFeeds
  split <;> simp (maxDischargeDepth := 20) [H]

@[simp] theorem State.runRise_headsOk (H : t.HeadsOk) : (t.runRise h).HeadsOk := by
  unfold State.runRise
  dsimp only
  repeat' split
  all_goals simp (maxDischargeDepth := 20) [H]

@[simp] theorem State.runFall_headsOk (H : t.HeadsOk) : (t.runFall h).HeadsOk := by
  unfold State.runFall
  dsimp only
  repeat' split
  all_goals simp (maxDischargeDepth := 20) [H]

@[simp] theorem State.flawRiseEdge_headsOk (H : t.HeadsOk) : (t.flawRiseEdge h).HeadsOk := by
  unfold State.flawRiseEdge
  dsimp only
  split <;> simp (maxDischargeDepth := 20) [H]

@[simp] theorem State.flawFallEdge_headsOk (H : t.HeadsOk) : (t.flawFallEdge h).HeadsOk := by
  unfold State.flawFallEdge
  dsimp only
  repeat' split
  all_goals simp (maxDischargeDepth := 20) [H]

@[simp] theorem State.senseSettled_headsOk (H : t.HeadsOk) : (t.senseSettled h).HeadsOk := by
  unfold State.senseSettled
  dsimp only
  repeat' split
  all_goals simp (maxDischargeDepth := 20) [H]

/-! ## The clock and reset -/

@[simp] theorem State.tick_head (s : State) (pins : Vector SensePins 16) (k : HeadIx) :
    (s.tick pins).head k = (s.head k).tick pins[k.val] := by
  simp [State.tick, State.head]

@[simp] theorem State.trimPeriod_head (s : State) (k : HeadIx) :
    s.trimPeriod.head k = { s.head k with duty := (s.head k).trim } := by
  simp [State.trimPeriod, State.head]

@[simp] theorem State.afterReset_head (s : State) (k : HeadIx) : s.afterReset.head k = (s.head k).afterReset := by
  simp [State.afterReset, State.head]

theorem State.tick_headsOk {pins : Vector SensePins 16} (H : t.HeadsOk) : (t.tick pins).HeadsOk := fun k => by
  rw [State.tick_head]
  exact Head.tick_ok (H k)

theorem State.trimPeriod_headsOk (H : t.HeadsOk) : t.trimPeriod.HeadsOk := fun k => by
  rw [State.trimPeriod_head]
  exact (H k).of_vitals rfl

theorem State.afterReset_headsOk (s : State) : s.afterReset.HeadsOk := fun k => by
  rw [State.afterReset_head]
  exact Head.afterReset_ok _

/-! ## Requests -/

@[simp] theorem State.spiFrame_headsOk {e : FrameEdges} {l : List Byte} (H : t.HeadsOk) : (t.spiFrame e l).HeadsOk :=
  H.of_heads rfl

@[simp] theorem State.slotEnd_headsOk {l : List LineByte} (H : t.HeadsOk) : (t.slotEnd l).HeadsOk := by
  unfold State.slotEnd
  dsimp only
  repeat' split
  all_goals simp (maxDischargeDepth := 20) [H]

@[simp] theorem State.respond_headsOk {p : Port} {b : List Byte} (H : t.HeadsOk) : (t.respond p b).HeadsOk := by
  cases p <;> exact H.of_heads rfl

/-- A request keeps the laws when its answer does. -/
theorem State.takeRequest_headsOk {p : Port} {c : Instr} {answer : State → State × Reply} (H : t.HeadsOk)
    (ha : (answer t).1.HeadsOk) : (t.takeRequest p c answer).HeadsOk := by
  unfold State.takeRequest
  dsimp only
  repeat' split
  all_goals simp (maxDischargeDepth := 20) [H, ha]

theorem State.doneMark_headsOk {n : Nat} {f : State → State} (H : (f t).HeadsOk) : (t.doneMark n f).1.HeadsOk :=
  State.commit_headsOk H

@[simp] theorem State.amend_headsOk {n : Nat} {l : List Item} (H : t.HeadsOk) : (t.amend n l).HeadsOk := by
  unfold State.amend
  dsimp only
  repeat' split
  all_goals simp (maxDischargeDepth := 20) [H]

@[simp] theorem State.addSpanTo_headsOk {r : Record} {n : Span} (H : t.HeadsOk) : (t.addSpanTo r n).HeadsOk := by
  unfold State.addSpanTo
  dsimp only
  repeat' split
  all_goals simp (maxDischargeDepth := 20) [H]

@[simp] theorem State.addEmptyFeeds_headsOk {r : Record} (H : t.HeadsOk) : (t.addEmptyFeeds h r).HeadsOk := by
  unfold State.addEmptyFeeds
  split
  · refine State.foldl_headsOk (fun v n K => ?_) _ H
    split <;> simp (maxDischargeDepth := 20) [K]
  all_goals exact H

@[simp] theorem State.joinResumed_headsOk {r : Record} (H : t.HeadsOk) : (t.joinResumed h r).HeadsOk := by
  unfold State.joinResumed
  split <;> simp (maxDischargeDepth := 20) [H]

@[simp] theorem State.bindProduct_headsOk {r : Record} (H : t.HeadsOk) : (t.bindProduct h r).HeadsOk := by
  have key : ((t.updRec r.tag fun x => x.bindAs .making h .product).updHead h fun x => x.bindProduct r.tag r.body).HeadsOk :=
    State.updHead_headsOk_of (fun _ => Head.bindProduct_ok) (State.updRec_headsOk H)
  unfold State.bindProduct
  simp (maxDischargeDepth := 20) [key]

@[simp] theorem State.bindSource_headsOk {n : Nat} (H : t.HeadsOk) : (t.bindSource h n).HeadsOk := by
  have key : ((t.updRec n fun x => x.bindAs .inUse h .source).updHead h fun x => x.bindSource n).HeadsOk :=
    State.updHead_headsOk_of (fun _ => Head.bindSource_ok) (State.updRec_headsOk H)
  unfold State.bindSource
  simp (maxDischargeDepth := 20) [key]

@[simp] theorem State.judgeTop_headsOk {n : SlotIx} {b : StrandBody} {q : Record} (H : t.HeadsOk) : (t.judgeTop h n b q).HeadsOk := by
  unfold State.judgeTop
  dsimp only
  repeat' split
  all_goals simp (maxDischargeDepth := 20) [H]

@[simp] theorem State.bindFeed_headsOk {n : SlotIx} {r q : Record} {b : StrandBody} (H : t.HeadsOk) : (t.bindFeed h n r b q).HeadsOk := by
  unfold State.bindFeed
  dsimp only
  split <;> simp (maxDischargeDepth := 20) [H]

@[simp] theorem State.emptySlot_headsOk {n : SlotIx} {q : Record} (H : t.HeadsOk) : (t.emptySlot h n q).HeadsOk := by
  unfold State.emptySlot
  repeat' split
  all_goals simp (maxDischargeDepth := 20) [H]

@[simp] theorem State.unbindFeed_headsOk {n : SlotIx} {q : Record} (H : t.HeadsOk) : (t.unbindFeed h n q).HeadsOk := by
  unfold State.unbindFeed
  dsimp only
  split <;> simp (maxDischargeDepth := 20) [H]

/-- An order within its ranges, put into a queue with a free place (R150). -/
theorem State.enqueue_headsOk {o : CoilOrder} (H : t.HeadsOk) (ho : o.Ok) (hl : (t.head h).queue.length < 8) :
    (t.enqueue h o).HeadsOk := by
  have key : (t.updHead h fun x => { x with queue := x.queue ++ [o] }).HeadsOk := fun k => by
    by_cases e : k = h
    · subst e
      rw [State.updHead_head]
      refine (H k).withQueue (q := (t.head k).queue ++ [o]) (by simpa using hl) (fun x hx => ?_) rfl
      rcases List.mem_append.mp hx with hx | hx
      · exact (H k).queue x hx
      · simp only [List.mem_singleton] at hx
        exact hx ▸ ho
    · rw [State.updHead_head_ne _ _ e]
      exact H k
  unfold State.enqueue
  dsimp only
  split <;> simp (maxDischargeDepth := 20) [key]

theorem orderOf_ok {l c g : Nat} {o : CoilOrder} (e : orderOf l c g = some o) : o.Ok := by
  unfold orderOf at e
  split at e
  · rename_i hr
    obtain ⟨x, -, rfl⟩ := Option.map_eq_some_iff.mp e
    exact ⟨⟨hr.1, hr.2.1⟩, ⟨hr.2.2.1, hr.2.2.2⟩⟩
  · cases e

theorem answerRecords_headsOk {p : Port} {tag a k st first kind lo hi : Nat} {m : Mark} {l : List Item} (H : t.HeadsOk) :
    (answerLookup tag t).1.HeadsOk ∧ (answerNext a k st t).1.HeadsOk ∧ (answerReadSpans tag t).1.HeadsOk ∧
      (answerReadSources tag first t).1.HeadsOk ∧ (answerCreate p tag kind l t).1.HeadsOk ∧
      (answerAmend p tag m l t).1.HeadsOk ∧ (answerAddSpan p tag m lo hi kind t).1.HeadsOk ∧
      (answerConclude p tag m t).1.HeadsOk ∧ (answerBand p tag m t).1.HeadsOk ∧ (answerRetire p tag m t).1.HeadsOk := by
  refine ⟨?_, ?_, ?_, ?_, ?_, ?_, ?_, ?_, ?_, ?_⟩
  · unfold answerLookup
    split <;> exact H
  · unfold answerNext
    repeat' split
    all_goals exact H
  · unfold answerReadSpans
    repeat' split
    all_goals exact H
  · unfold answerReadSources
    repeat' split
    all_goals exact H.of_heads rfl
  · unfold answerCreate
    repeat' split
    all_goals
      first
      | exact H.of_heads rfl
      | exact State.change_headsOk (State.enter_headsOk H)
  · unfold answerAmend
    repeat' split
    all_goals first | exact H | exact State.doneMark_headsOk (State.amend_headsOk H)
  · unfold answerAddSpan
    dsimp only
    repeat' split
    all_goals first | exact H | exact State.doneMark_headsOk (State.addSpanTo_headsOk H)
  · unfold answerConclude
    repeat' split
    all_goals exact H.of_heads rfl
  · unfold answerBand
    repeat' split
    all_goals exact H.of_heads rfl
  · unfold answerRetire
    repeat' split
    all_goals first | exact H | exact State.change_headsOk (State.leave_headsOk H)

theorem answerBinds_headsOk {p : Port} {n sl tag : Nat} {m : Mark} (H : t.HeadsOk) :
    (answerBindProduct p n tag m t).1.HeadsOk ∧ (answerBindSource p n tag m t).1.HeadsOk ∧
      (answerBindFeed p n sl tag m t).1.HeadsOk ∧ (answerUnbindFeed p n sl t).1.HeadsOk ∧ (answerRelease p n t).1.HeadsOk := by
  refine ⟨?_, ?_, ?_, ?_, ?_⟩
  · unfold answerBindProduct
    repeat' split
    all_goals first | exact H | exact State.doneMark_headsOk (State.bindProduct_headsOk H)
  · unfold answerBindSource
    repeat' split
    all_goals first | exact H | exact State.doneMark_headsOk (State.bindSource_headsOk H)
  · unfold answerBindFeed
    repeat' split
    all_goals first | exact H | exact State.doneMark_headsOk (State.bindFeed_headsOk H)
  · unfold answerUnbindFeed
    repeat' split
    all_goals first | exact H | exact State.change_headsOk (State.unbindFeed_headsOk H)
  · unfold answerRelease
    repeat' split
    all_goals first | exact H | exact State.change_headsOk (State.releaseHead_headsOk H)

theorem answerQueues_headsOk {p : Port} {n len c g : Nat} {l : List Item} (H : t.HeadsOk) :
    (answerEnqueue p n len c g t).1.HeadsOk ∧ (answerClearQueue p n t).1.HeadsOk ∧ (answerHeadStatus n t).1.HeadsOk ∧
      (answerSetHead p n l t).1.HeadsOk := by
  refine ⟨?_, ?_, ?_, ?_⟩
  · unfold answerEnqueue
    split
    · exact H
    split
    · exact H
    split
    · exact H
    split
    · exact H
    rename_i o eo
    split
    · exact H
    rename_i hq
    exact State.change_headsOk (State.enqueue_headsOk H (orderOf_ok eo) (by unfold queueCap at hq; omega))
  · unfold answerClearQueue
    repeat' split
    all_goals first | exact H | exact State.updHead_headsOk_of (fun _ => Head.clearQueue_ok) H
  · unfold answerHeadStatus
    split <;> exact H.of_heads rfl
  · unfold answerSetHead
    dsimp only
    repeat' split
    all_goals first | exact H | exact State.updHead_headsOk_of (fun _ => Head.setHead_ok) H

theorem State.writeDevice_heads (n v : Nat) : (t.writeDevice n v).heads = t.heads := by
  unfold State.writeDevice
  repeat' split
  all_goals rfl

theorem answerDevice_headsOk {p : Port} {n : Nat} {w : FlagWord} {l : List Item} (H : t.HeadsOk) :
    (answerSetClock p n t).1.HeadsOk ∧ (answerReadEvents p t).1.HeadsOk ∧ (answerClearEvents p w t).1.HeadsOk ∧
      (answerSetDevice p l t).1.HeadsOk := by
  refine ⟨?_, ?_, ?_, ?_⟩
  · unfold answerSetClock
    split <;> exact H.of_heads rfl
  · unfold answerReadEvents
    repeat' split
    all_goals exact H.of_heads rfl
  · unfold answerClearEvents
    dsimp only
    split <;> exact H.of_heads rfl
  · unfold answerSetDevice
    dsimp only
    repeat' split
    · exact H
    · exact H
    · refine State.foldl_headsOk (fun v it K => ?_) _ H
      split
      · exact K.of_heads (State.writeDevice_heads _ _)
      · exact K

end Sys2Proof.Machine
end

