-- ==== Sys2Proof/Laws/Requests.lean ====
section
/-! SUPPORT. The requests on heads: what each change keeps beyond its head, and which records it may alter; and what taking a
request does to the port. -/

namespace Sys2Proof.Machine

variable {h : HeadIx} {P : Nat → Prop} {s t u : State}

/-! ## Beyond the head -/

@[simp] theorem State.addEmptyFeeds_keeps {r : Record} (H : s.Keeps h t) : s.Keeps h (t.addEmptyFeeds h r) := by
  unfold State.addEmptyFeeds
  split
  · refine State.foldl_keeps (fun v n K => ?_) _ H
    split <;> simp (maxDischargeDepth := 20) [K]
  all_goals exact H

@[simp] theorem State.joinResumed_keeps {r : Record} (H : s.Keeps h t) : s.Keeps h (t.joinResumed h r) := by
  unfold State.joinResumed
  split <;> simp (maxDischargeDepth := 20) [H]

theorem State.bindProduct_keeps {r : Record} (H : s.Keeps h t) : s.Keeps h (t.bindProduct h r) := by
  have key : s.Keeps h ((t.updRec r.tag fun x => x.bindAs .making h .product).updHead h fun x => x.bindProduct r.tag r.body) :=
    State.updHead_keeps (fun _ => rfl) (State.updRec_keeps H)
  unfold State.bindProduct
  simp (maxDischargeDepth := 20) [key]

theorem State.bindSource_keeps {n : Nat} (H : s.Keeps h t) : s.Keeps h (t.bindSource h n) := by
  have key : s.Keeps h ((t.updRec n fun x => x.bindAs .inUse h .source).updHead h fun x => x.bindSource n) :=
    State.updHead_keeps (fun _ => rfl) (State.updRec_keeps H)
  unfold State.bindSource
  simp (maxDischargeDepth := 20) [key]

@[simp] theorem State.judgeTop_keeps {n : SlotIx} {b : StrandBody} {q : Record} (H : s.Keeps h t) :
    s.Keeps h (t.judgeTop h n b q) := by
  unfold State.judgeTop
  dsimp only
  repeat' split
  all_goals simp (maxDischargeDepth := 20) [H]

theorem State.bindFeed_keeps {n : SlotIx} {r q : Record} {b : StrandBody} (H : s.Keeps h t) :
    s.Keeps h (t.bindFeed h n r b q) := by
  unfold State.bindFeed
  dsimp only
  split <;> simp (maxDischargeDepth := 20) [H]

@[simp] theorem State.emptySlot_keeps {n : SlotIx} {q : Record} (H : s.Keeps h t) : s.Keeps h (t.emptySlot h n q) := by
  unfold State.emptySlot
  repeat' split
  all_goals simp (maxDischargeDepth := 20) [H]

theorem State.unbindFeed_keeps {n : SlotIx} {q : Record} (H : s.Keeps h t) : s.Keeps h (t.unbindFeed h n q) := by
  unfold State.unbindFeed
  dsimp only
  split <;> simp (maxDischargeDepth := 20) [H]

theorem State.enqueue_keeps {o : CoilOrder} (H : s.Keeps h t) : s.Keeps h (t.enqueue h o) := by
  unfold State.enqueue
  dsimp only
  split <;> simp (maxDischargeDepth := 20) [H]

/-! ## The records -/

@[simp] theorem State.addEmptyFeeds_confined {r : Record} (hr : P r.tag) (H : s.Confined P h t) :
    s.Confined P h (t.addEmptyFeeds h r) := by
  unfold State.addEmptyFeeds
  split
  · refine State.foldl_confined (fun v n K => ?_) _ H
    split <;> simp (maxDischargeDepth := 20) [K, hr]
  all_goals exact H

@[simp] theorem State.joinResumed_confined {r : Record} (hr : P r.tag) (H : s.Confined P h t) :
    s.Confined P h (t.joinResumed h r) := by
  unfold State.joinResumed State.openJoin
  dsimp only
  repeat' split
  all_goals simp (maxDischargeDepth := 20) [H, hr]

theorem requiredSlots_strand (b : Body) (m : SlotIx) : ((requiredSlots b)[m.val]).strand = none := by
  simp [requiredSlots]

theorem State.bindProduct_confined {r : Record} (hr : P r.tag) (H : s.Confined P h t) :
    s.Confined P h (t.bindProduct h r) := by
  have H1 : s.Confined P h (t.updRec r.tag fun x => x.bindAs .making h .product) := by
    simp (maxDischargeDepth := 20) [H, hr]
  have H2 : s.Confined P h
      ((t.updRec r.tag fun x => x.bindAs .making h .product).updHead h fun x => x.bindProduct r.tag r.body) := by
    refine State.updHead_confined_of (fun x _ => ⟨fun n e => ?_, fun n e => ?_, fun m n e => ?_, fun g n e => ?_⟩) H1
    · cases e
      exact hr
    · cases e
    · have := requiredSlots_strand r.body m
      have e' : ((requiredSlots r.body)[m.val]).strand = some n := e
      rw [this] at e'
      cases e'
    · cases e
  unfold State.bindProduct
  simp (maxDischargeDepth := 20) [H2, hr]

theorem State.bindSource_leaves {n : Nat} (hn : P n) (H : s.Confined P h t) : s.LeavesRecords P (t.bindSource h n) := by
  have H1 : s.Confined P h (t.updRec n fun x => x.bindAs .inUse h .source) := by simp (maxDischargeDepth := 20) [H, hn]
  have H2 : s.Confined P h ((t.updRec n fun x => x.bindAs .inUse h .source).updHead h fun x => x.bindSource n) := by
    refine State.updHead_confined_of (fun x _ => ⟨fun n e => ?_, fun k e => ?_, fun m n e => ?_, fun g n e => ?_⟩) H1
    · cases e
    · cases e
      exact hn
    · have e' : ((Vector.replicate 4 ({} : FeedSlot))[m.val]).strand = some n := e
      simp at e'
    · cases e
  exact State.planPoint_leaves H2

@[simp] theorem State.judgeTop_confined {n : SlotIx} {b : StrandBody} {q : Record} (hq : P q.tag) (H : s.Confined P h t) :
    s.Confined P h (t.judgeTop h n b q) := by
  unfold State.judgeTop
  dsimp only
  repeat' split
  all_goals simp (maxDischargeDepth := 20) [H, hq]

theorem State.bindFeed_confined {n : SlotIx} {r q : Record} {b : StrandBody} (hr : P r.tag) (hq : P q.tag)
    (H : s.Confined P h t) : s.Confined P h (t.bindFeed h n r b q) := by
  have H1 : s.Confined P h (t.updRec r.tag fun x => (x.bindAs .inUse h (.feed n)).onStrand fun y => { y with fraction := 0 }) := by
    simp (maxDischargeDepth := 20) [H, hr]
  have H2 : s.Confined P h ((t.updRec r.tag fun x => (x.bindAs .inUse h (.feed n)).onStrand fun y =>
      { y with fraction := 0 }).updSlot h n fun x => { required := x.required, strand := some r.tag }) := by
    refine State.updHead_confined_of (fun x N => ⟨N.product, N.source, fun m k e => ?_, N.segment⟩) H1
    by_cases em : m = n
    · subst em
      rw [Head.updSlot_slot] at e
      cases e
      exact hr
    · rw [Head.updSlot_slot_ne _ _ em] at e
      exact N.slots m k e
  unfold State.bindFeed
  dsimp only
  split <;> simp (maxDischargeDepth := 20) [H2, hq]

@[simp] theorem State.emptySlot_confined {n : SlotIx} {q : Record} (hq : P q.tag) (H : s.Confined P h t) :
    s.Confined P h (t.emptySlot h n q) := by
  unfold State.emptySlot
  repeat' split
  all_goals simp (maxDischargeDepth := 20) [H, hq]

theorem State.unbindFeed_confined {n : SlotIx} {q : Record} (hq : P q.tag) (H : s.Confined P h t) :
    s.Confined P h (t.unbindFeed h n q) := by
  unfold State.unbindFeed
  dsimp only
  split <;> simp (maxDischargeDepth := 20) [H, hq]

theorem State.enqueue_leaves {o : CoilOrder} (H : s.Confined P h t) : s.LeavesRecords P (t.enqueue h o) := by
  have H1 : s.Confined P h (t.updHead h fun x => { x with queue := x.queue ++ [o] }) := State.updHead_confined (fun _ => rfl) H
  unfold State.enqueue
  dsimp only
  split
  · exact State.planPoint_leaves H1
  · exact H1.records

/-! ## Taking a request -/

/-- What taking a request answers, when its body stands in progress at its port (R33). -/
theorem State.takeRequest_eq {p : Port} {c : Instr} {answer : State → State × Reply} {body : List Byte}
    (hp : s.inProgress p = some body) (hb : requestCommand p body = c) :
    s.takeRequest p c answer = (answer s).1.respond p (body.headD 0 :: (answer s).2.code.code :: (answer s).2.fields) := by
  unfold State.takeRequest
  rw [hp]
  dsimp only
  rw [if_pos hb]

/-- Without a request in progress nothing is taken (log entry 4). -/
theorem State.takeRequest_none {p : Port} {c : Instr} {answer : State → State × Reply} (hp : s.inProgress p = none) :
    s.takeRequest p c answer = s := by
  unfold State.takeRequest
  rw [hp]

end Sys2Proof.Machine
end

