-- ==== Sys2Proof/Laws/Changes.lean ====
section
/-! SUPPORT. Whole changes and what they leave of a record's measures: its kind, its made amount and its specification. For each shared
operation that leaves them, the one lemma that says so. -/

namespace Sys2Proof.Machine

variable {h : HeadIx} {s t u : State}

/-! ## Whole changes -/

/-- A record after a whole change (R7, R9). -/
theorem State.commit_find (s t : State) (n : Nat) :
    (s.commit t).find n = (t.find n).map fun r => match s.find n with
      | some r0 => Record.stepMark t.clock.seconds r0 r
      | none => r := by
  have key : ∀ l : List Record,
      (l.map fun x => match s.find x.tag with
        | some r0 => Record.stepMark t.clock.seconds r0 x
        | none => x).find? (fun x => x.tag == n) =
      (l.find? fun x => x.tag == n).map fun r => match s.find n with
        | some r0 => Record.stepMark t.clock.seconds r0 r
        | none => r := by
    intro l
    induction l with
    | nil => rfl
    | cons a l ih =>
      have ht : (match s.find a.tag with
        | some r0 => Record.stepMark t.clock.seconds r0 a
        | none => a).tag = a.tag := by
        split
        · exact Record.stepMark_tag _ _ _
        · rfl
      rw [List.map_cons]
      by_cases ea : a.tag = n
      · rw [List.find?_cons_of_pos (by rw [ht]; simpa using ea), List.find?_cons_of_pos (by simpa using ea)]
        simp [ea]
      · rw [List.find?_cons_of_neg (by rw [ht]; simpa using ea), List.find?_cons_of_neg (by simpa using ea)]
        exact ih
  exact key t.store

/-- A change that alters no record is taken as it is. -/
theorem State.change_of_store {f : State → State} (S : s.StoreOk) (e : (f s).store = s.store) : s.change f = f s := by
  have e2 : ((f s).store.map fun r => match s.find r.tag with
      | some r0 => Record.stepMark (f s).clock.seconds r0 r
      | none => r) = (f s).store := by
    rw [e]
    conv => rhs; rw [← List.map_id s.store]
    refine List.map_congr_left fun r hr => ?_
    rw [S.find_of_mem hr]
    simp [Record.stepMark]
  exact State.ext_fields rfl e2 rfl rfl rfl rfl rfl rfl rfl rfl

/-- A record that keeps what its mark counts is left as the change left it (R9). -/
theorem Record.stepMark_same {now : Seconds} {a b : Record} (e : a.counted = b.counted) : Record.stepMark now a b = b := by
  simp [Record.stepMark, e]

/-- A record altered in what its mark counts has its mark stepped and its changed time set (R9, R10). -/
theorem Record.stepMark_step {now : Seconds} {a b : Record} (e : a.counted ≠ b.counted) :
    Record.stepMark now a b = { b with mark := a.mark + 1, changed := now } := by
  simp [Record.stepMark, e]

/-- A stepped record is the record but for its mark and its changed time. -/
theorem Record.stepMark_fields (now : Seconds) (a b : Record) :
    (Record.stepMark now a b).state = b.state ∧ (Record.stepMark now a b).body = b.body ∧
      (Record.stepMark now a b).bound = b.bound ∧ (Record.stepMark now a b).boundFrom = b.boundFrom ∧
      (Record.stepMark now a b).interruptedOnce = b.interruptedOnce := by
  unfold Record.stepMark
  split <;> exact ⟨rfl, rfl, rfl, rfl, rfl⟩

/-! ## Measures -/

/-- What the pulses measure of a record and compare with: its kind, its made amount and its specification. -/
def Record.measure (r : Record) : RecordKind × Nat × List (Option Nat) := (r.kind, r.made, r.body.spec)

/-- The same records live in `t` as in `s`, with the same measures. -/
def State.SameMeasures (s t : State) : Prop := ∀ n, (t.find n).map Record.measure = (s.find n).map Record.measure

theorem State.SameMeasures.refl (s : State) : s.SameMeasures s := fun _ => rfl

theorem State.SameMeasures.trans (a : s.SameMeasures t) (b : t.SameMeasures u) : s.SameMeasures u := fun n => (b n).trans (a n)

theorem State.SameMeasures.of_store (H : s.SameMeasures t) (e : u.store = t.store) : s.SameMeasures u := fun n => by
  rw [← H n, State.find, State.find, e]

theorem State.SameMeasures.find_some (H : s.SameMeasures t) {n : Nat} {r : Record} (e : s.find n = some r) :
    ∃ x, t.find n = some x ∧ x.measure = r.measure := by
  have := H n
  rw [e] at this
  simpa using this

theorem State.SameMeasures.find_some' (H : s.SameMeasures t) {n : Nat} {x : Record} (e : t.find n = some x) :
    ∃ r, s.find n = some r ∧ x.measure = r.measure := by
  have := H n
  rw [e] at this
  simpa [eq_comm] using this

theorem State.SameMeasures.madeOf (H : s.SameMeasures t) (n : Nat) : t.madeOf n = s.madeOf n := by
  have := congrArg (Option.map fun m : RecordKind × Nat × List (Option Nat) => m.2.1) (H n)
  simpa [State.madeOf, Option.map_map, Function.comp_def, Record.measure] using this

/-- The end point is part of the specification, so the cut point is a measure (R60, R92, R145). -/
theorem Record.atEnd_of_measure {r x : Record} (e : x.measure = r.measure) : x.atEnd = r.atEnd := by
  simp only [Record.measure, Prod.mk.injEq, Record.kind] at e
  obtain ⟨e1, e2, e3⟩ := e
  unfold Record.atEnd Record.endPoint
  rw [e2]
  cases h1 : r.body <;> cases h2 : x.body <;> simp_all [Body.kind, Body.spec]

@[simp] theorem State.updHead_sameMeasures {k : HeadIx} {f : Head → Head} (H : s.SameMeasures t) : s.SameMeasures (t.updHead k f) :=
  H.of_store rfl

@[simp] theorem State.updSlot_sameMeasures {k : HeadIx} {n : SlotIx} {f : FeedSlot → FeedSlot} (H : s.SameMeasures t) :
    s.SameMeasures (t.updSlot k n f) := H.of_store rfl

@[simp] theorem State.raise_sameMeasures {k : HeadIx} {f : HeadFlag} (H : s.SameMeasures t) : s.SameMeasures (t.raise k f) :=
  H.of_store rfl

@[simp] theorem State.raiseAlarm_sameMeasures {k : HeadIx} {x : Alarm} (H : s.SameMeasures t) :
    s.SameMeasures (t.raiseAlarm k x) := H.of_store rfl

@[simp] theorem State.raiseStore_sameMeasures {f : StoreCauses → StoreCauses} (H : s.SameMeasures t) :
    s.SameMeasures (t.raiseStore f) := H.of_store rfl

@[simp] theorem State.raiseAt_sameMeasures {b : Option (HeadIx × Role)} {x : Alarm} (H : s.SameMeasures t) :
    s.SameMeasures (t.raiseAt b x) := by
  unfold State.raiseAt
  split <;> simp [H]

theorem State.updRec_sameMeasures_of {n : Nat} {f : Record → Record} (hf : ∀ r, (f r).tag = r.tag)
    (hm : ∀ r, t.find n = some r → (f r).measure = r.measure) (H : s.SameMeasures t) : s.SameMeasures (t.updRec n f) := fun k => by
  rw [← H k]
  by_cases e : k = n
  · subst e
    rw [State.find_updRec hf]
    cases er : t.find k with
    | none => rfl
    | some r => simp [hm r er]
  · rw [State.find_updRec_ne hf e]

@[simp] theorem State.updRec_sameMeasures {n : Nat} {f : Record → Record} (hf : ∀ r, (f r).tag = r.tag)
    (hm : ∀ r, (f r).measure = r.measure) (H : s.SameMeasures t) : s.SameMeasures (t.updRec n f) :=
  State.updRec_sameMeasures_of hf (fun r _ => hm r) H

theorem Record.stepMark_measure (now : Seconds) (a b : Record) : (Record.stepMark now a b).measure = b.measure := by
  unfold Record.stepMark
  split <;> rfl

@[simp] theorem State.commit_sameMeasures {b : State} (H : s.SameMeasures t) : s.SameMeasures (b.commit t) := fun n => by
  rw [← H n, State.commit_find]
  cases t.find n with
  | none => rfl
  | some r =>
    rw [Option.map_some]
    split
    · simp [Record.stepMark_measure]
    · rfl

theorem State.foldl_sameMeasures {α : Type} {f : State → α → State} (hf : ∀ t a, s.SameMeasures t → s.SameMeasures (f t a)) (l : List α)
    (H : s.SameMeasures t) : s.SameMeasures (l.foldl f t) := by
  induction l generalizing t with
  | nil => exact H
  | cons a l ih => exact ih (hf t a H)

/-! ## Records -/

theorem Record.withPiece_measure {p : Piece} {r : Record} (e : ∀ q, r.body.piece = some q → p.made = q.made) :
    (r.withPiece p).measure = r.measure := by
  unfold Record.measure Record.made Record.withPiece Record.kind
  cases h : r.body <;> simp_all [Body.withPiece, Body.kind, Body.piece, Body.spec]

@[simp] theorem Record.closeSources_measure (w : SlotIx → Bool) (n : Nat) (r : Record) : (r.closeSources w n).measure = r.measure := by
  unfold Record.measure Record.made Record.closeSources Record.kind
  cases h : r.body <;> rfl

@[simp] theorem Record.appendSource_measure (e : SourceEntry) (r : Record) : (r.appendSource e).measure = r.measure := by
  unfold Record.measure Record.made Record.appendSource Record.kind
  cases h : r.body <;> rfl

@[simp] theorem Record.bindAs_measure (st : RecordState) (k : HeadIx) (ro : Role) (r : Record) :
    (r.bindAs st k ro).measure = r.measure := rfl

@[simp] theorem Record.leaveMaking_measure (r : Record) : r.leaveMaking.measure = r.measure := by
  unfold Record.leaveMaking
  split
  · rename_i p e
    rw [Record.closeSources_measure, Record.withPiece_measure]
    intro q eq
    rw [e] at eq
    cases eq
    rfl
  · rfl

@[simp] theorem Record.unbindTo_measure (st : RecordState) (r : Record) : (r.unbindTo st).measure = r.measure := by
  unfold Record.unbindTo
  dsimp only
  split
  · exact Record.leaveMaking_measure r
  · rfl

@[simp] theorem Record.interrupt_measure (r : Record) : r.interrupt.measure = r.measure := Record.unbindTo_measure .interrupted r

theorem Record.onStrand_measure {f : StrandBody → StrandBody}
    (hf : ∀ b, (f b).piece.made = b.piece.made ∧ (f b).targetLay = b.targetLay ∧ (f b).orderedLength = b.orderedLength) (r : Record) :
    (r.onStrand f).measure = r.measure := by
  unfold Record.onStrand
  split
  · rename_i b e
    have := hf b
    simp [Record.measure, Record.kind, Record.made, e, Body.kind, Body.piece, Body.spec, this]
  all_goals rfl

/-! ## Pieces -/

theorem State.onPiece_sameMeasures {n : Nat} {f : Piece → Piece × Bool} (hf : ∀ p, (f p).1.made = p.made) (H : s.SameMeasures t) :
    s.SameMeasures (t.onPiece n f) := by
  unfold State.onPiece
  split
  · exact H
  · rename_i r er
    split
    · exact H
    · rename_i p ep
      dsimp only
      have K : s.SameMeasures (t.updRec n fun x => { x.withPiece (f p).1 with spansMerged := x.spansMerged || (f p).2 }) := by
        refine State.updRec_sameMeasures_of (fun r => by cases r; rfl) (fun x ex => ?_) H
        rw [er] at ex
        cases ex
        refine (show _ = (r.withPiece (f p).1).measure from rfl).trans (Record.withPiece_measure fun q eq => ?_)
        rw [ep] at eq
        cases eq
        exact hf p
      split
      · exact State.raiseAt_sameMeasures K
      · exact K

@[simp] theorem State.normalizeInto_sameMeasures {n : Nat} {x : Span} (H : s.SameMeasures t) : s.SameMeasures (t.normalizeInto n x) :=
  State.onPiece_sameMeasures (fun _ => rfl) H

@[simp] theorem State.addHolder_sameMeasures {n st : Nat} {x : Holder} (H : s.SameMeasures t) : s.SameMeasures (t.addHolder n x st) := by
  unfold State.addHolder
  repeat' split
  all_goals first
    | exact State.onPiece_sameMeasures (fun p => by simp) H
    | exact H

@[simp] theorem State.releaseHolder_sameMeasures {n : Nat} {x : Holder} (H : s.SameMeasures t) : s.SameMeasures (t.releaseHolder n x) :=
  State.onPiece_sameMeasures (fun _ => rfl) H

@[simp] theorem State.swapHolder_sameMeasures {n : Nat} {x y : Holder} (H : s.SameMeasures t) : s.SameMeasures (t.swapHolder n x y) :=
  State.onPiece_sameMeasures (fun _ => rfl) H

/-! ## The head's work -/

@[simp] theorem State.makerFlawRise_sameMeasures (H : s.SameMeasures t) : s.SameMeasures (t.makerFlawRise h) := by
  unfold State.makerFlawRise
  dsimp only
  repeat' split
  all_goals simp (maxDischargeDepth := 20) [H]

@[simp] theorem State.flawRises_sameMeasures (H : s.SameMeasures t) : s.SameMeasures (t.flawRises h) := by
  unfold State.flawRises
  split <;> simp (maxDischargeDepth := 20) [H]

@[simp] theorem State.enterHeld_sameMeasures (H : s.SameMeasures t) : s.SameMeasures (t.enterHeld h) := by
  unfold State.enterHeld
  dsimp only
  split <;> simp (maxDischargeDepth := 20) [H]

@[simp] theorem State.addHold_sameMeasures {x : HoldReason} (H : s.SameMeasures t) : s.SameMeasures (t.addHold h x) := by
  unfold State.addHold
  dsimp only
  repeat' split
  all_goals simp (maxDischargeDepth := 20) [H]

@[simp] theorem State.dropHold_sameMeasures {x : HoldReason} (H : s.SameMeasures t) : s.SameMeasures (t.dropHold h x) :=
  State.updHead_sameMeasures H

@[simp] theorem State.enterCutting_sameMeasures (H : s.SameMeasures t) : s.SameMeasures (t.enterCutting h) := by
  unfold State.enterCutting
  split <;> simp (maxDischargeDepth := 20) [H]

@[simp] theorem State.checkEnd_sameMeasures (H : s.SameMeasures t) : s.SameMeasures (t.checkEnd h) := by
  unfold State.checkEnd
  repeat' split
  all_goals simp (maxDischargeDepth := 20) [H]

@[simp] theorem State.unbindSlot_sameMeasures {st : RecordState} {pos : Nat} {n : SlotIx} (H : s.SameMeasures t) :
    s.SameMeasures (t.unbindSlot h st pos n) := by
  unfold State.unbindSlot
  split
  · exact H
  · dsimp only
    split <;> simp (maxDischargeDepth := 20) [H]

@[simp] theorem State.checkLow_sameMeasures {n : SlotIx} {left : Nat} (H : s.SameMeasures t) : s.SameMeasures (t.checkLow h n left) := by
  unfold State.checkLow
  dsimp only
  split <;> simp (maxDischargeDepth := 20) [H]

@[simp] theorem Record.consume_measure (c : Nat) (r : Record) :
    (r.onStrand fun y => { y with consumed := c }).measure = r.measure := by
  apply Record.onStrand_measure
  exact fun _ => ⟨rfl, rfl, rfl⟩

@[simp] theorem Record.takeUp_measure (c f : Nat) (r : Record) :
    (r.onStrand fun y => { y with consumed := c, fraction := f }).measure = r.measure := by
  apply Record.onStrand_measure
  exact fun _ => ⟨rfl, rfl, rfl⟩

@[simp] theorem Record.passed_measure (r : Record) :
    (r.onRope fun b => { b with passed := b.passed + 1 }).measure = r.measure := by
  unfold Record.onRope
  split
  · rename_i b e
    simp [Record.measure, Record.kind, Record.made, e, Body.kind, Body.piece, Body.spec]
  all_goals rfl

@[simp] theorem State.passFeed_sameMeasures {rope : Nat} {n : SlotIx} {added : Bool} (H : s.SameMeasures t) :
    s.SameMeasures (t.passFeed rope n added) := by
  unfold State.passFeed
  split <;> simp (maxDischargeDepth := 20) [H]

@[simp] theorem State.takeUpSlot_sameMeasures {rope factor m m' : Nat} {n : SlotIx} (H : s.SameMeasures t) :
    s.SameMeasures (t.takeUpSlot h rope factor m m' n) := by
  unfold State.takeUpSlot
  dsimp only
  repeat' split
  all_goals simp (maxDischargeDepth := 20) [H]

@[simp] theorem State.takeUp_sameMeasures {m m' : Nat} (H : s.SameMeasures t) : s.SameMeasures (t.takeUp h m m') := by
  unfold State.takeUp
  repeat' split
  all_goals first
    | exact State.foldl_sameMeasures (fun _ _ K => State.takeUpSlot_sameMeasures K) _ H
    | exact H

@[simp] theorem State.chargeSlot_sameMeasures {amount pos : Nat} {a : State × Bool} {n : SlotIx} (H : s.SameMeasures a.1) :
    s.SameMeasures (State.chargeSlot h amount pos a n).1 := by
  unfold State.chargeSlot
  dsimp only
  repeat' split
  all_goals simp (maxDischargeDepth := 20) [H]

@[simp] theorem State.chargeRow_sameMeasures {amount pos : Nat} (H : s.SameMeasures t) :
    s.SameMeasures (t.chargeRow h amount pos).1 := by
  have K : s.SameMeasures ([(0 : SlotIx), 1].foldl (State.chargeSlot h amount pos) (t, false)).1 := by
    simp only [List.foldl_cons, List.foldl_nil]
    exact State.chargeSlot_sameMeasures (State.chargeSlot_sameMeasures H)
  unfold State.chargeRow
  dsimp only
  split
  · exact State.addHold_sameMeasures K
  · exact K

@[simp] theorem State.rejudgeTop_sameMeasures {n : SlotIx} (H : s.SameMeasures t) : s.SameMeasures (t.rejudgeTop h n) := by
  unfold State.rejudgeTop
  repeat' split
  all_goals simp (maxDischargeDepth := 20) [H]

@[simp] theorem State.limitReached_sameMeasures (H : s.SameMeasures t) : s.SameMeasures (t.limitReached h) := by
  unfold State.limitReached
  split <;> simp (maxDischargeDepth := 20) [H]

@[simp] theorem State.releaseGuard_sameMeasures {n m : Nat} (H : s.SameMeasures t) : s.SameMeasures (t.releaseGuard h n m) := by
  unfold State.releaseGuard
  split <;> simp (maxDischargeDepth := 20) [H]

@[simp] theorem State.releaseJoin_sameMeasures {n m : Nat} (H : s.SameMeasures t) : s.SameMeasures (t.releaseJoin h n m) := by
  unfold State.releaseJoin
  split <;> simp (maxDischargeDepth := 20) [H]

@[simp] theorem State.placeLay_sameMeasures {n : Nat} {w : LayWindow} {d : Int} (H : s.SameMeasures t) :
    s.SameMeasures (t.placeLay n w d) := by
  unfold State.placeLay
  split <;> simp (maxDischargeDepth := 20) [H]

@[simp] theorem Record.countMissed_measure (m : Nat) (r : Record) :
    (r.onPanel fun b => { b with missed := min (b.missed + m) lengthTop }).measure = r.measure := by
  unfold Record.onPanel Record.measure Record.kind Record.made
  cases h : r.body <;> simp_all [Body.kind, Body.piece, Body.spec]

@[simp] theorem State.countMissed_sameMeasures {n m : Nat} (H : s.SameMeasures t) : s.SameMeasures (t.countMissed h n m) := by
  unfold State.countMissed
  split <;> simp (maxDischargeDepth := 20) [H]

/-! ## What alters a made amount -/

theorem State.onPiece_find_ne {n k : Nat} {f : Piece → Piece × Bool} (hk : k ≠ n) : (t.onPiece n f).find k = t.find k := by
  unfold State.onPiece
  split
  · rfl
  · split
    · rfl
    · dsimp only
      have : ∀ u : State, ∀ b x, (u.raiseAt b x).find k = u.find k := fun u b x => by
        unfold State.raiseAt
        split <;> rfl
      split
      · rw [this]
        exact State.find_updRec_ne (fun r => by cases r; rfl) hk
      · exact State.find_updRec_ne (fun r => by cases r; rfl) hk

/-- A live record after a change of its piece. -/
theorem State.onPiece_find {n : Nat} {f : Piece → Piece × Bool} {r : Record} {p : Piece} (er : t.find n = some r)
    (ep : r.body.piece = some p) :
    (t.onPiece n f).find n = some { r.withPiece (f p).1 with spansMerged := r.spansMerged || (f p).2 } := by
  have : ∀ u : State, ∀ b x, (u.raiseAt b x).find n = u.find n := fun u b x => by
    unfold State.raiseAt
    split <;> rfl
  unfold State.onPiece
  rw [er]
  dsimp only
  rw [ep]
  dsimp only
  split
  · rw [this, State.find_updRec (fun r => by cases r; rfl), er]
    rfl
  · rw [State.find_updRec (fun r => by cases r; rfl), er]
    rfl

end Sys2Proof.Machine
end

