-- ==== Sys2Proof/Laws/Bindings.lean ====
section
/-! SUPPORT. The bindings of heads and records (R12): for each shared operation, the one lemma that says it keeps them. In the
midst of a change a head may still name a record that is already unbound; the roles it does so in are carried along. -/

namespace Sys2Proof.Machine

variable {g h : HeadIx} {X : Role → Prop} {K : HeadIx → Option MachineKind} {s t u : State}

/-! ## The bindings in the midst of a change -/

/-- What the bindings say of a record: its kind, its state, where it is bound, and from which state. -/
abbrev Record.tie (r : Record) : RecordKind × RecordState × Option (HeadIx × Role) × Option RecordState :=
  (r.kind, r.state, r.bound, r.boundFrom)

/-- What the bindings say of a head: its machine, whether it may name records, whether its coiler waits, and its names. -/
abbrev Head.grip (x : Head) :
    SenseResult × Bool × Bool × Option Nat × Option Nat × Vector (Option Nat) 4 × Option Nat :=
  (x.accepted, x.state.takesFeeds, x.holds.queueEmpty || x.holds.storeFull, x.product, x.source, x.slots.map FeedSlot.strand,
    x.segment.bind Segment.coil)

/-- The bindings hold (R12), but for the roles `X` of head `g`, in which the head's names are stale: no record is bound to it
in such a role. The kinds of machine are `K`. -/
structure State.BoundBut (g : HeadIx) (X : Role → Prop) (K : HeadIx → Option MachineKind) (s : State) : Prop where
  kinds : ∀ h, (s.head h).kind = K h
  named : ∀ h ro n, (s.head h).named ro = some n → (h = g ∧ X ro) ∨ ∃ r k, s.find n = some r ∧ r.bound = some (h, ro) ∧
    (s.head h).kind = some k ∧ k.binds r.kind ro = true ∧ (s.head h).state.takesFeeds = true
  bound : ∀ n r h ro, s.find n = some r → r.bound = some (h, ro) → (s.head h).named ro = some n ∧ ¬(h = g ∧ X ro)
  tied : ∀ n r, s.find n = some r → r.Tied
  feeds : ∀ h n, (s.head h).named (.feed n) ≠ none → (s.head h).product ≠ none
  coils : ∀ h, (s.head h).named .segment ≠ none → (s.head h).source ≠ none
  waiting : ∀ h, (s.head h).holds.queueEmpty = true ∨ (s.head h).holds.storeFull = true → (s.head h).named .segment = none

/-- No role: nothing that a head names is stale. -/
def noRole (_ : Role) : Prop := False

theorem State.BindingsOk.but (B : s.BindingsOk) (g : HeadIx) : s.BoundBut g noRole fun k => (s.head k).kind where
  kinds _ := rfl
  named h ro n e := Or.inr (B.named h ro n e)
  bound n r h ro e eb := ⟨B.bound n r h ro e eb, fun x => x.2⟩
  tied := B.tied
  feeds := B.feeds
  coils := B.coils
  waiting := B.waiting

theorem State.BoundBut.ok (B : s.BoundBut g noRole K) : s.BindingsOk where
  named h ro n e := (B.named h ro n e).resolve_left fun x => x.2
  bound n r h ro e eb := (B.bound n r h ro e eb).1
  tied := B.tied
  feeds := B.feeds
  coils := B.coils
  waiting := B.waiting

theorem Head.grip_named {x y : Head} (e : y.grip = x.grip) (ro : Role) : y.named ro = x.named ro := by
  simp only [Head.grip, Prod.mk.injEq] at e
  obtain ⟨-, -, -, e4, e5, e6, e7⟩ := e
  cases ro with
  | product => exact e4
  | feed n => simpa [Head.named, Head.slot] using congrArg (fun v : Vector (Option Nat) 4 => v[n.val]) e6
  | source => exact e5
  | segment => exact e7

theorem Head.grip_kind {x y : Head} (e : y.grip = x.grip) : y.kind = x.kind := by
  simp only [Head.grip, Prod.mk.injEq] at e
  unfold Head.kind
  rw [e.1]

theorem Record.Tied.of_tie {r x : Record} (e : x.tie = r.tie) (T : r.Tied) : x.Tied := by
  simp only [Record.tie, Prod.mk.injEq] at e
  obtain ⟨-, e2, e3, e4⟩ := e
  exact ⟨fun a => e2 ▸ T.loose (e3 ▸ a), fun k ro a => e2 ▸ T.held k ro (e3 ▸ a), fun k a => e4 ▸ T.since k (e3 ▸ a),
    fun a => e4 ▸ T.plain (e3 ▸ a)⟩

/-- The bindings depend on nothing but the ties of the records and the grips of the heads. -/
theorem State.BoundBut.of_same (B : s.BoundBut g X K) (hr : ∀ n, (t.find n).map Record.tie = (s.find n).map Record.tie)
    (hh : ∀ k, (t.head k).grip = (s.head k).grip) : t.BoundBut g X K := by
  have hn : ∀ k ro, (t.head k).named ro = (s.head k).named ro := fun k ro => Head.grip_named (hh k) ro
  have fwd : ∀ {n r}, s.find n = some r → ∃ x, t.find n = some x ∧ x.tie = r.tie := fun {n r} e => by
    have := hr n
    rw [e] at this
    simpa using this
  have bwd : ∀ {n x}, t.find n = some x → ∃ r, s.find n = some r ∧ x.tie = r.tie := fun {n x} e => by
    have := hr n
    rw [e] at this
    simpa [eq_comm] using this
  have hg := fun k => hh k
  simp only [Head.grip, Prod.mk.injEq] at hg
  constructor
  · exact fun k => (Head.grip_kind (hh k)).trans (B.kinds k)
  · intro k ro n e
    rw [hn] at e
    rcases B.named k ro n e with hx | ⟨r, kd, e1, e2, e3, e4, e5⟩
    · exact Or.inl hx
    · obtain ⟨x, ex, et⟩ := fwd e1
      simp only [Record.tie, Prod.mk.injEq] at et
      exact Or.inr ⟨x, kd, ex, et.2.2.1.trans e2, (Head.grip_kind (hh k)).trans e3, et.1 ▸ e4, (hg k).2.1.trans e5⟩
  · intro n x k ro e eb
    obtain ⟨r, er, et⟩ := bwd e
    simp only [Record.tie, Prod.mk.injEq] at et
    rw [hn]
    exact B.bound n r k ro er (et.2.2.1 ▸ eb)
  · intro n x e
    obtain ⟨r, er, et⟩ := bwd e
    exact (B.tied n r er).of_tie et
  · intro k n e
    rw [hn] at e
    rw [(hg k).2.2.2.1]
    exact B.feeds k n e
  · intro k e
    rw [hn] at e
    rw [(hg k).2.2.2.2.1]
    exact B.coils k e
  · intro k e
    rw [hn]
    have := (hg k).2.2.1
    exact B.waiting k (by simpa [this] using (Bool.or_eq_true _ _).mpr e)

/-! ## Updates that no binding sees -/

theorem State.BoundBut.of_fields (B : t.BoundBut g X K) (e : u.store = t.store) (e1 : u.heads = t.heads) : u.BoundBut g X K :=
  B.of_same (fun n => by simp only [State.find, e]) fun k => by simp only [State.head, e1]

/-- One head changed so that its grip stays. -/
theorem State.updHead_boundBut_of {f : Head → Head} (hf : (f (t.head h)).grip = (t.head h).grip) (B : t.BoundBut g X K) :
    (t.updHead h f).BoundBut g X K :=
  B.of_same (fun n => rfl) fun k => by
    by_cases e : k = h
    · subst e
      rw [State.updHead_head]
      exact hf
    · rw [State.updHead_head_ne _ _ e]

@[simp] theorem State.updHead_boundBut {f : Head → Head} (hf : ∀ x, (f x).grip = x.grip) (B : t.BoundBut g X K) :
    (t.updHead h f).BoundBut g X K := State.updHead_boundBut_of (hf _) B

@[simp] theorem State.updSlot_boundBut {n : SlotIx} {f : FeedSlot → FeedSlot} (hf : ∀ x, (f x).strand = x.strand)
    (B : t.BoundBut g X K) : (t.updSlot h n f).BoundBut g X K := by
  refine State.updHead_boundBut (fun x => ?_) B
  simp only [Head.grip, Prod.mk.injEq]
  refine ⟨rfl, rfl, rfl, rfl, rfl, ?_, rfl⟩
  refine Vector.ext fun m hm => ?_
  have e : (x.updSlot n f).slots[m] = (x.updSlot n f).slot ⟨m, hm⟩ := rfl
  have e' : x.slots[m] = x.slot ⟨m, hm⟩ := rfl
  rw [Vector.getElem_map, Vector.getElem_map, e, e']
  by_cases en : (⟨m, hm⟩ : SlotIx) = n
  · subst en
    rw [Head.updSlot_slot, hf]
  · rw [Head.updSlot_slot_ne _ _ en]

theorem State.updRec_boundBut_of {n : Nat} {f : Record → Record} (hf : ∀ r, (f r).tag = r.tag)
    (ht : ∀ r, t.find n = some r → (f r).tie = r.tie) (B : t.BoundBut g X K) : (t.updRec n f).BoundBut g X K :=
  B.of_same (fun k => by
    by_cases e : k = n
    · subst e
      rw [State.find_updRec hf]
      cases er : t.find k with
      | none => rfl
      | some r => simp only [Option.map_some, ht r er]
    · rw [State.find_updRec_ne hf e]) fun _ => rfl

@[simp] theorem State.updRec_boundBut {n : Nat} {f : Record → Record} (hf : ∀ r, (f r).tag = r.tag) (ht : ∀ r, (f r).tie = r.tie)
    (B : t.BoundBut g X K) : (t.updRec n f).BoundBut g X K := State.updRec_boundBut_of hf (fun r _ => ht r) B

@[simp] theorem State.updAttn_boundBut {f : Attention → Attention} (B : t.BoundBut g X K) : (t.updAttn f).BoundBut g X K :=
  B.of_fields rfl rfl

@[simp] theorem State.updLink_boundBut {f : PanelLink → PanelLink} (B : t.BoundBut g X K) : (t.updLink f).BoundBut g X K :=
  B.of_fields rfl rfl

@[simp] theorem State.raise_boundBut {k : HeadIx} {f : HeadFlag} (B : t.BoundBut g X K) : (t.raise k f).BoundBut g X K :=
  B.of_fields rfl rfl

@[simp] theorem State.raiseAlarm_boundBut {k : HeadIx} {x : Alarm} (B : t.BoundBut g X K) : (t.raiseAlarm k x).BoundBut g X K :=
  B.of_fields rfl rfl

@[simp] theorem State.raiseStore_boundBut {f : StoreCauses → StoreCauses} (B : t.BoundBut g X K) : (t.raiseStore f).BoundBut g X K :=
  B.of_fields rfl rfl

@[simp] theorem State.raiseAt_boundBut {b : Option (HeadIx × Role)} {x : Alarm} (B : t.BoundBut g X K) :
    (t.raiseAt b x).BoundBut g X K := by
  unfold State.raiseAt
  split <;> simp (maxDischargeDepth := 20) [B]

theorem Record.stepMark_tie (now : Seconds) (a b : Record) : (Record.stepMark now a b).tie = b.tie := by
  unfold Record.stepMark
  split <;> rfl

@[simp] theorem State.commit_boundBut {b : State} (B : t.BoundBut g X K) : (b.commit t).BoundBut g X K :=
  B.of_same (fun n => by
    rw [State.commit_find]
    cases t.find n with
    | none => rfl
    | some r =>
      rw [Option.map_some]
      split
      · simp only [Option.map_some, Record.stepMark_tie]
      · rfl) fun _ => rfl

theorem State.foldl_boundBut {α : Type} {f : State → α → State} (hf : ∀ t a, t.BoundBut g X K → (f t a).BoundBut g X K) (l : List α)
    (B : t.BoundBut g X K) : (l.foldl f t).BoundBut g X K := by
  induction l generalizing t with
  | nil => exact B
  | cons a l ih => exact ih (hf t a B)

/-! ## Records -/

@[simp] theorem Record.withPiece_tie (p : Piece) (r : Record) : (r.withPiece p).tie = r.tie := by
  simp [Record.tie, Record.withPiece, Record.kind]

@[simp] theorem Record.closeSources_tie (w : SlotIx → Bool) (n : Nat) (r : Record) : (r.closeSources w n).tie = r.tie := by
  simp [Record.tie, Record.closeSources, Record.kind]

@[simp] theorem Record.appendSource_tie (e : SourceEntry) (r : Record) : (r.appendSource e).tie = r.tie := by
  simp [Record.tie, Record.appendSource, Record.kind]

@[simp] theorem Record.onStrand_tie (f : StrandBody → StrandBody) (r : Record) : (r.onStrand f).tie = r.tie := by
  unfold Record.onStrand
  split
  · rename_i b e
    simp [Record.tie, Record.kind, e, Body.kind]
  all_goals rfl

@[simp] theorem Record.onRope_tie (f : RopeBody → RopeBody) (r : Record) : (r.onRope f).tie = r.tie := by
  unfold Record.onRope
  split
  · rename_i b e
    simp [Record.tie, Record.kind, e, Body.kind]
  all_goals rfl

@[simp] theorem Record.onPanel_tie (f : PanelBody → PanelBody) (r : Record) : (r.onPanel f).tie = r.tie := by
  unfold Record.onPanel
  split
  · rename_i b e
    simp [Record.tie, Record.kind, e, Body.kind]
  all_goals rfl

@[simp] theorem Record.onCoil_tie (f : CoilBody → CoilBody) (r : Record) : (r.onCoil f).tie = r.tie := by
  unfold Record.onCoil
  split
  · rename_i b e
    simp [Record.tie, Record.kind, e, Body.kind]
  all_goals rfl

theorem Record.unbindTo_kind (st : RecordState) (r : Record) : (r.unbindTo st).kind = r.kind :=
  congrArg (fun m : RecordKind × Nat × List (Option Nat) => m.1) (Record.unbindTo_measure st r)

/-! ## A binding that ends, and a head that lets go -/

/-- A record that is bound to no head and holds no state it was bound from. -/
structure Record.Loose (r : Record) : Prop where
  bound : r.bound = none
  state : r.state.loose = true
  since : r.boundFrom = none

theorem Record.Loose.tied {r : Record} (L : r.Loose) : r.Tied :=
  ⟨fun _ => L.state, fun k ro e => by simp [L.bound] at e, fun k e => by simp [L.bound] at e, fun _ => L.since⟩

theorem Record.unbindTo_loose {st : RecordState} {r : Record} (hs : st.loose = true) : (r.unbindTo st).Loose := ⟨rfl, hs, rfl⟩

theorem Record.interrupt_loose {r : Record} : r.interrupt.Loose := ⟨rfl, rfl, rfl⟩

/-- A record bound to head `g` is unbound: the role becomes one in which the head's name is stale. -/
theorem State.updRec_unbound {n : Nat} {r : Record} {ro : Role} {f : Record → Record} (hf : ∀ r, (f r).tag = r.tag)
    (hl : (f r).Loose) (er : t.find n = some r) (eb : r.bound = some (g, ro)) (B : t.BoundBut g X K) :
    (t.updRec n f).BoundBut g (fun x => X x ∨ x = ro) K where
  kinds := B.kinds
  named k x m e := by
    rw [State.updRec_head] at e
    rcases B.named k x m e with ⟨rfl, hx⟩ | ⟨y, kd, e1, e2, e3, e4, e5⟩
    · exact Or.inl ⟨rfl, Or.inl hx⟩
    · by_cases em : m = n
      · subst em
        rw [er] at e1
        cases e1
        rw [eb] at e2
        cases e2
        exact Or.inl ⟨rfl, Or.inr rfl⟩
      · exact Or.inr ⟨y, kd, by rw [State.find_updRec_ne hf em]; exact e1, e2, e3, e4, e5⟩
  bound m y k x e ey := by
    by_cases em : m = n
    · subst em
      rw [State.find_updRec hf, er] at e
      cases e
      simp [hl.bound] at ey
    · rw [State.find_updRec_ne hf em] at e
      obtain ⟨b1, b2⟩ := B.bound m y k x e ey
      refine ⟨b1, fun hx => ?_⟩
      rcases hx.2 with hx2 | rfl
      · exact b2 ⟨hx.1, hx2⟩
      · have := (B.bound n r g x er eb).1
        rw [hx.1] at b1
        rw [b1] at this
        exact em (by simpa using this)
  tied m y e := by
    by_cases em : m = n
    · subst em
      rw [State.find_updRec hf, er] at e
      cases e
      exact hl.tied
    · rw [State.find_updRec_ne hf em] at e
      exact B.tied m y e
  feeds := B.feeds
  coils := B.coils
  waiting := B.waiting

/-- Head `g` lets go of the names that are stale, and keeps the others. -/
theorem State.updHead_let_go {f : Head → Head} (hk : (f (t.head g)).kind = (t.head g).kind)
    (hs : (f (t.head g)).state.takesFeeds = (t.head g).state.takesFeeds)
    (hn : ∀ ro, X ro ∧ (f (t.head g)).named ro = none ∨ ¬X ro ∧ (f (t.head g)).named ro = (t.head g).named ro)
    (hf : ∀ n, (f (t.head g)).named (.feed n) ≠ none → (f (t.head g)).product ≠ none)
    (hc : (f (t.head g)).named .segment ≠ none → (f (t.head g)).source ≠ none)
    (hw : (f (t.head g)).holds.queueEmpty = true ∨ (f (t.head g)).holds.storeFull = true → (f (t.head g)).named .segment = none)
    (B : t.BoundBut g X K) : (t.updHead g f).BoundBut g noRole K where
  kinds k := by
    by_cases ek : k = g
    · subst ek
      rw [State.updHead_head, hk]
      exact B.kinds k
    · rw [State.updHead_head_ne _ _ ek]
      exact B.kinds k
  named k ro m e := by
    by_cases ek : k = g
    · subst ek
      rw [State.updHead_head] at e ⊢
      rcases hn ro with ⟨-, e0⟩ | ⟨nx, e0⟩
      · rw [e0] at e
        cases e
      · rw [e0] at e
        have := (B.named k ro m e).resolve_left fun x => nx x.2
        rw [hk, hs]
        exact Or.inr this
    · rw [State.updHead_head_ne _ _ ek] at e ⊢
      exact Or.inr ((B.named k ro m e).resolve_left fun x => ek x.1)
  bound m y k ro e ey := by
    obtain ⟨b1, b2⟩ := B.bound m y k ro e ey
    refine ⟨?_, fun x => x.2⟩
    by_cases ek : k = g
    · subst ek
      rw [State.updHead_head]
      rcases hn ro with ⟨hx, -⟩ | ⟨-, e0⟩
      · exact absurd ⟨rfl, hx⟩ b2
      · exact e0.trans b1
    · rw [State.updHead_head_ne _ _ ek]
      exact b1
  tied := B.tied
  feeds k n e := by
    by_cases ek : k = g
    · subst ek
      rw [State.updHead_head] at e ⊢
      exact hf n e
    · rw [State.updHead_head_ne _ _ ek] at e ⊢
      exact B.feeds k n e
  coils k e := by
    by_cases ek : k = g
    · subst ek
      rw [State.updHead_head] at e ⊢
      exact hc e
    · rw [State.updHead_head_ne _ _ ek] at e ⊢
      exact B.coils k e
  waiting k e := by
    by_cases ek : k = g
    · subst ek
      rw [State.updHead_head] at e ⊢
      exact hw e
    · rw [State.updHead_head_ne _ _ ek] at e ⊢
      exact B.waiting k e

/-- No record is bound to head `g`: whatever it still names is stale. -/
def State.Freed (g : HeadIx) (K : HeadIx → Option MachineKind) (t : State) : Prop :=
  ∃ X, t.BoundBut g X K ∧ ∀ ro, X ro ∨ (t.head g).named ro = none

/-- A head to which no record is bound, changed to one that names none. -/
theorem State.updHead_freed {f : Head → Head} (hn : ∀ ro, (f (t.head g)).named ro = none) (F : t.Freed g K) :
    (t.updHead g f).BindingsOk := by
  obtain ⟨X, B, hX⟩ := F
  constructor
  · intro k ro m e
    by_cases ek : k = g
    · subst ek
      rw [State.updHead_head, hn] at e
      cases e
    · rw [State.updHead_head_ne _ _ ek] at e ⊢
      exact (B.named k ro m e).resolve_left fun x => ek x.1
  · intro m y k ro e ey
    obtain ⟨b1, b2⟩ := B.bound m y k ro e ey
    by_cases ek : k = g
    · subst ek
      rcases hX ro with hx | e0
      · exact absurd ⟨rfl, hx⟩ b2
      · rw [e0] at b1
        cases b1
    · rw [State.updHead_head_ne _ _ ek]
      exact b1
  · exact B.tied
  all_goals
    intro k
    by_cases ek : k = g
    · subst ek
      rw [State.updHead_head]
      simp [hn]
    · rw [State.updHead_head_ne _ _ ek]
      first
        | exact B.feeds k
        | exact B.coils k
        | exact B.waiting k

/-! ## Pieces -/

@[simp] theorem State.onPiece_boundBut {n : Nat} {f : Piece → Piece × Bool} (B : t.BoundBut g X K) : (t.onPiece n f).BoundBut g X K := by
  have key : ∀ q : Piece × Bool,
      (t.updRec n fun x => { x.withPiece q.1 with spansMerged := x.spansMerged || q.2 }).BoundBut g X K := fun q =>
    State.updRec_boundBut (fun r => by cases r; rfl) (fun r => Record.withPiece_tie q.1 r) B
  unfold State.onPiece
  split
  · exact B
  · split
    · exact B
    · rename_i p _
      have := key (f p)
      dsimp only at this ⊢
      split
      · exact State.raiseAt_boundBut this
      · exact this

@[simp] theorem State.normalizeInto_boundBut {n : Nat} {x : Span} (B : t.BoundBut g X K) : (t.normalizeInto n x).BoundBut g X K :=
  State.onPiece_boundBut B

@[simp] theorem State.addHolder_boundBut {n st : Nat} {x : Holder} (B : t.BoundBut g X K) : (t.addHolder n x st).BoundBut g X K := by
  unfold State.addHolder
  repeat' split
  all_goals simp (maxDischargeDepth := 20) [B]

@[simp] theorem State.releaseHolder_boundBut {n : Nat} {x : Holder} (B : t.BoundBut g X K) : (t.releaseHolder n x).BoundBut g X K :=
  State.onPiece_boundBut B

@[simp] theorem State.swapHolder_boundBut {n : Nat} {x y : Holder} (B : t.BoundBut g X K) : (t.swapHolder n x y).BoundBut g X K :=
  State.onPiece_boundBut B

/-! ## The head's work -/

@[simp] theorem State.makerFlawRise_boundBut (B : t.BoundBut g X K) : (t.makerFlawRise h).BoundBut g X K := by
  unfold State.makerFlawRise
  dsimp only
  repeat' split
  all_goals simp (maxDischargeDepth := 20) [B]

@[simp] theorem State.flawRises_boundBut (B : t.BoundBut g X K) : (t.flawRises h).BoundBut g X K := by
  unfold State.flawRises
  split <;> simp (maxDischargeDepth := 20) [B]

theorem State.enterHeld_boundBut (ha : (t.head h).state.takesFeeds = true) (B : t.BoundBut g X K) : (t.enterHeld h).BoundBut g X K := by
  have key : (t.updHead h fun x => { x with state := .held, window := none }).BoundBut g X K :=
    State.updHead_boundBut_of (by simp only [Head.grip, ha]; rfl) B
  unfold State.enterHeld
  dsimp only
  split <;> simp (maxDischargeDepth := 20) [key]

@[simp] theorem State.addHoldFeed_boundBut (B : t.BoundBut g X K) : (t.addHold h .feedShort).BoundBut g X K := by
  have key : (t.updHead h fun y => { y with holds := y.holds.put true .feedShort }).BoundBut g X K := State.updHead_boundBut (fun _ => rfl) B
  unfold State.addHold
  dsimp only
  split
  · exact B
  · split
    all_goals rename_i e
    all_goals first
      | exact key
      | exact State.enterHeld_boundBut (by simp [e, HeadState.takesFeeds]) key

@[simp] theorem State.dropHoldFeed_boundBut (B : t.BoundBut g X K) : (t.dropHold h .feedShort).BoundBut g X K := by
  refine State.updHead_boundBut (fun y => ?_) B
  dsimp only
  split
  · rename_i e
    have e1 : y.state = .held := e.1
    simp only [Head.grip, e1, Head.byRun]
    split <;> rfl
  · rfl

@[simp] theorem State.enterCutting_boundBut (B : t.BoundBut g X K) : (t.enterCutting h).BoundBut g X K := by
  unfold State.enterCutting
  split
  all_goals rename_i e
  all_goals first
    | exact B
    | exact State.raise_boundBut (State.updHead_boundBut_of (by simp only [Head.grip, e]; rfl) B)

@[simp] theorem State.checkEnd_boundBut (B : t.BoundBut g X K) : (t.checkEnd h).BoundBut g X K := by
  unfold State.checkEnd
  repeat' split
  all_goals simp (maxDischargeDepth := 20) [B]

@[simp] theorem State.checkLow_boundBut {n : SlotIx} {left : Nat} (B : t.BoundBut g X K) : (t.checkLow h n left).BoundBut g X K := by
  unfold State.checkLow
  dsimp only
  split <;> simp (maxDischargeDepth := 20) [B]

@[simp] theorem State.rejudgeTop_boundBut {n : SlotIx} (B : t.BoundBut g X K) : (t.rejudgeTop h n).BoundBut g X K := by
  unfold State.rejudgeTop
  repeat' split
  all_goals simp (maxDischargeDepth := 20) [B]

@[simp] theorem State.limitReached_boundBut (B : t.BoundBut g X K) : (t.limitReached h).BoundBut g X K := by
  unfold State.limitReached
  split <;> simp (maxDischargeDepth := 20) [B]

@[simp] theorem State.releaseGuard_boundBut {n m : Nat} (B : t.BoundBut g X K) : (t.releaseGuard h n m).BoundBut g X K := by
  unfold State.releaseGuard
  split <;> simp (maxDischargeDepth := 20) [B]

@[simp] theorem State.releaseJoin_boundBut {n m : Nat} (B : t.BoundBut g X K) : (t.releaseJoin h n m).BoundBut g X K := by
  unfold State.releaseJoin
  split <;> simp (maxDischargeDepth := 20) [B]

@[simp] theorem State.toggleMark_boundBut {m m' : Nat} (B : t.BoundBut g X K) : (t.updHead h (Head.toggleMark m m')).BoundBut g X K := by
  refine State.updHead_boundBut (fun x => ?_) B
  unfold Head.toggleMark
  split <;> rfl

@[simp] theorem State.unwindCarry_boundBut {c : Nat} (B : t.BoundBut g X K) : (t.unwindCarry h c).BoundBut g X K := by
  unfold State.unwindCarry
  split
  · dsimp only
    split <;> simp (maxDischargeDepth := 20) [B]
  all_goals first
    | exact B
    | skip
  all_goals
    split
    · exact B
    · rename_i sg es
      have key : ∀ (v : State) (f : Segment → Segment), v.BoundBut g X K → (v.head h).segment = some sg → (f sg).coil = sg.coil →
          (v.updHead h fun x => { x with segment := some (f sg) }).BoundBut g X K := fun v f Bv ev ef =>
        State.updHead_boundBut_of (by simp [Head.grip, ev, ef]) Bv
      have e1 : ((t.limitReached h).head h).segment = some sg := by
        unfold State.limitReached
        split <;> simp [es]
      dsimp only
      repeat' split
      all_goals first
        | exact State.enterCutting_boundBut (key _ (fun y => { y with unwound := min (y.unwound + c) lengthTop })
            (State.limitReached_boundBut B) e1 rfl)
        | exact State.enterCutting_boundBut (key _ (fun y => { y with unwound := min (y.unwound + c) lengthTop }) B es rfl)
        | exact key _ (fun y => { y with unwound := min (y.unwound + c) lengthTop }) (State.limitReached_boundBut B) e1 rfl
        | exact key _ (fun y => { y with unwound := min (y.unwound + c) lengthTop }) B es rfl

@[simp] theorem State.makerFlawFall_boundBut (B : t.BoundBut g X K) : (t.makerFlawFall h).BoundBut g X K := by
  unfold State.makerFlawFall
  dsimp only
  repeat' split
  all_goals simp (maxDischargeDepth := 20) [B]

@[simp] theorem State.openJoin_boundBut {n m : Nat} (B : t.BoundBut g X K) : (t.openJoin h n m).BoundBut g X K := by
  unfold State.openJoin
  dsimp only
  split <;> simp (maxDischargeDepth := 20) [B]

@[simp] theorem State.spinPulse_boundBut (B : t.BoundBut g X K) : (t.spinPulse h).BoundBut g X K := by
  unfold State.spinPulse State.openWindow State.spinWithin State.endWindow State.placeLay
  dsimp only
  repeat' split
  all_goals simp (maxDischargeDepth := 20) [B]

@[simp] theorem State.countRow_boundBut {n : Nat} {k : KindSet} (B : t.BoundBut g X K) : (t.countRow n k).BoundBut g X K := by
  unfold State.countRow
  repeat' split
  all_goals simp (maxDischargeDepth := 20) [B]

@[simp] theorem State.countMissed_boundBut {n m : Nat} (B : t.BoundBut g X K) : (t.countMissed h n m).BoundBut g X K := by
  unfold State.countMissed
  split <;> simp (maxDischargeDepth := 20) [B]

@[simp] theorem State.openRow_boundBut (B : t.BoundBut g X K) : (t.openRow h).BoundBut g X K := by
  unfold State.openRow
  repeat' split
  all_goals simp (maxDischargeDepth := 20) [B]

@[simp] theorem State.strayKnot_boundBut (B : t.BoundBut g X K) : (t.strayKnot h).BoundBut g X K := by
  unfold State.strayKnot
  dsimp only
  split <;> simp (maxDischargeDepth := 20) [B]

@[simp] theorem State.checkFeeds_boundBut (B : t.BoundBut g X K) : (t.checkFeeds h).BoundBut g X K := by
  unfold State.checkFeeds
  split <;> simp (maxDischargeDepth := 20) [B]

@[simp] theorem State.runRise_boundBut (B : t.BoundBut g X K) : (t.runRise h).BoundBut g X K := by
  have B1 : (t.updHead h fun x => { x with runHigh := true }).BoundBut g X K := State.updHead_boundBut (fun _ => rfl) B
  unfold State.runRise
  dsimp only
  split
  all_goals rename_i e
  all_goals first
    | exact B1
    | skip
  all_goals
    have B2 : ((t.updHead h fun x => { x with runHigh := true }).updHead h fun x => { x with state := .run }).BoundBut g X K :=
      State.updHead_boundBut_of (by simp [Head.grip, e, HeadState.takesFeeds]) B1
    repeat' split
    all_goals simp (maxDischargeDepth := 20) [B2]

@[simp] theorem State.downgradeCoils_boundBut {n : Nat} (B : t.BoundBut g X K) : (t.downgradeCoils n).BoundBut g X K := by
  refine State.foldl_boundBut (fun v r K => ?_) _ B
  unfold State.judgeCoil State.downgradeCoil
  split <;> simp (maxDischargeDepth := 20) [K]

@[simp] theorem State.addRopeSpan_boundBut {n : Nat} {x : Span} (B : t.BoundBut g X K) : (t.addRopeSpan n x).BoundBut g X K := by
  unfold State.addRopeSpan
  dsimp only
  split <;> simp (maxDischargeDepth := 20) [B]

@[simp] theorem State.coilerFlawFall_boundBut {pf : Nat} (B : t.BoundBut g X K) : (t.coilerFlawFall h pf).BoundBut g X K := by
  unfold State.coilerFlawFall
  dsimp only
  repeat' split
  all_goals simp (maxDischargeDepth := 20) [B]

@[simp] theorem State.flawAtLeaving_boundBut {pf : Nat} (B : t.BoundBut g X K) : (t.flawAtLeaving h pf).BoundBut g X K := by
  unfold State.flawAtLeaving
  split <;> simp (maxDischargeDepth := 20) [B]

@[simp] theorem State.flawRiseEdge_boundBut (B : t.BoundBut g X K) : (t.flawRiseEdge h).BoundBut g X K := by
  unfold State.flawRiseEdge
  dsimp only
  split <;> simp (maxDischargeDepth := 20) [B]

@[simp] theorem State.flawFallEdge_boundBut (B : t.BoundBut g X K) : (t.flawFallEdge h).BoundBut g X K := by
  unfold State.flawFallEdge
  dsimp only
  repeat' split
  all_goals simp (maxDischargeDepth := 20) [B]

@[simp] theorem State.addWaste_boundBut {n m : Nat} (B : t.BoundBut g X K) : (t.addWaste n m).BoundBut g X K := by
  unfold State.addWaste
  simp (maxDischargeDepth := 20) [B]

@[simp] theorem State.openPlan_boundBut {rope e : Nat} (B : t.BoundBut g X K) : (t.openPlan h rope e).BoundBut g X K := by
  unfold State.openPlan
  dsimp only
  split <;> simp (maxDischargeDepth := 20) [B]

/-! ## Feeds that end -/

/-- A record that a head names in a role, when nothing is stale. -/
theorem State.BoundBut.get (B : t.BoundBut g noRole K) {ro : Role} {n : Nat} (e : (t.head h).named ro = some n) :
    ∃ r k, t.find n = some r ∧ r.bound = some (h, ro) ∧ (t.head h).kind = some k ∧ k.binds r.kind ro = true ∧
      (t.head h).state.takesFeeds = true := (B.named h ro n e).resolve_left fun x => x.2

theorem State.unbindSlot_boundBut {st : RecordState} {pos : Nat} {n : SlotIx} (hs : st.loose = true)
    (B : t.BoundBut h noRole K) : (t.unbindSlot h st pos n).BoundBut h noRole K := by
  unfold State.unbindSlot
  split
  · exact B
  · rename_i m em
    obtain ⟨r, k, er, eb, ek, -, ea⟩ := B.get (ro := .feed n) em
    have B1 := State.updRec_unbound (Record.unbindTo_tag st) (Record.unbindTo_loose hs) er eb B
    have key : ∀ v : State, v.head h = t.head h → v.BoundBut h (fun x => noRole x ∨ x = .feed n) K →
        (v.updSlot h n fun x => { required := x.required }).BoundBut h noRole K := fun v ev Bv => by
      refine State.updHead_let_go rfl rfl (fun ro => ?_) (fun j ej => ?_) (fun ej => Bv.coils h ej) (fun ej => Bv.waiting h ej) Bv
      · by_cases e : ro = .feed n
        · subst e
          exact Or.inl ⟨Or.inr rfl, by simp [Head.named]⟩
        · refine Or.inr ⟨fun x => e (x.resolve_left fun y => y), ?_⟩
          cases ro with
          | feed j =>
            exact congrArg FeedSlot.strand (Head.updSlot_slot_ne _ _ fun ej => e (ej ▸ rfl))
          | product => rfl
          | source => rfl
          | segment => rfl
      · by_cases e : j = n
        · subst e
          simp [Head.named] at ej
        · have : ((v.head h).updSlot n fun x => { required := x.required }).named (.feed j) = (v.head h).named (.feed j) :=
            congrArg FeedSlot.strand (Head.updSlot_slot_ne _ _ e)
          rw [this] at ej
          exact Bv.feeds h j ej
    dsimp only
    split
    · exact key _ rfl (State.updRec_boundBut (Record.closeSources_tag _ _) (Record.closeSources_tie _ _) B1)
    · exact key _ rfl B1

@[simp] theorem State.spendSlot_boundBut {pos : Nat} {n : SlotIx} (B : t.BoundBut h noRole K) :
    (t.unbindSlot h .spent pos n).BoundBut h noRole K := State.unbindSlot_boundBut rfl B

@[simp] theorem State.passFeed_boundBut {rope : Nat} {n : SlotIx} {added : Bool} (B : t.BoundBut g X K) :
    (t.passFeed rope n added).BoundBut g X K := by
  unfold State.passFeed
  split <;> simp (maxDischargeDepth := 20) [B]

@[simp] theorem State.takeUpSlot_boundBut {rope factor m m' : Nat} {n : SlotIx} (B : t.BoundBut h noRole K) :
    (t.takeUpSlot h rope factor m m' n).BoundBut h noRole K := by
  unfold State.takeUpSlot
  dsimp only
  repeat' split
  all_goals simp (maxDischargeDepth := 20) [B]

@[simp] theorem State.takeUp_boundBut {m m' : Nat} (B : t.BoundBut h noRole K) :
    (t.takeUp h m m').BoundBut h noRole K := by
  unfold State.takeUp
  repeat' split
  all_goals first
    | exact State.foldl_boundBut (fun _ _ => State.takeUpSlot_boundBut) _ B
    | exact B

@[simp] theorem State.chargeSlot_boundBut {amount pos : Nat} {a : State × Bool} {n : SlotIx} (B : a.1.BoundBut h noRole K) :
    (State.chargeSlot h amount pos a n).1.BoundBut h noRole K := by
  unfold State.chargeSlot
  dsimp only
  repeat' split
  all_goals simp (maxDischargeDepth := 20) [B]

@[simp] theorem State.chargeRow_boundBut {amount pos : Nat} (B : t.BoundBut h noRole K) :
    (t.chargeRow h amount pos).1.BoundBut h noRole K := by
  have K : ([(0 : SlotIx), 1].foldl (State.chargeSlot h amount pos) (t, false)).1.BoundBut h noRole K := by
    simp only [List.foldl_cons, List.foldl_nil]
    exact State.chargeSlot_boundBut (State.chargeSlot_boundBut B)
  unfold State.chargeRow
  dsimp only
  split
  · exact State.addHoldFeed_boundBut K
  · exact K

@[simp] theorem State.advanceMade_boundBut {c : Nat} (B : t.BoundBut h noRole K) :
    (t.advanceMade h c).BoundBut h noRole K := by
  unfold State.advanceMade
  dsimp only
  repeat' split
  all_goals simp (maxDischargeDepth := 20) [B]

@[simp] theorem State.encPulse_boundBut (B : t.BoundBut h noRole K) : (t.encPulse h).BoundBut h noRole K := by
  unfold State.encPulse
  dsimp only
  repeat' split
  all_goals simp (maxDischargeDepth := 20) [B]

@[simp] theorem State.closeRow_boundBut (B : t.BoundBut h noRole K) : (t.closeRow h).BoundBut h noRole K := by
  unfold State.closeRow
  dsimp only
  repeat' split
  all_goals simp (maxDischargeDepth := 20) [B]

@[simp] theorem State.knotPulse_boundBut (B : t.BoundBut h noRole K) : (t.knotPulse h).BoundBut h noRole K := by
  unfold State.knotPulse State.countKnot
  dsimp only
  repeat' split
  all_goals simp (maxDischargeDepth := 20) [B]

@[simp] theorem State.rowPulse_boundBut (B : t.BoundBut h noRole K) : (t.rowPulse h).BoundBut h noRole K := by
  unfold State.rowPulse
  split <;> simp (maxDischargeDepth := 20) [B]

@[simp] theorem State.rowExpiry_boundBut (B : t.BoundBut h noRole K) : (t.rowExpiry h).BoundBut h noRole K := by
  unfold State.rowExpiry
  split <;> simp (maxDischargeDepth := 20) [B]

/-! ## The end of a binding -/

/-- A record of a coiler's kind names nothing else: a source and a coil stand at a coiler alone. -/
theorem State.BoundBut.source_none (B : t.BoundBut g noRole K) (hk : K h ≠ some .coiler) : (t.head h).source = none := by
  cases e : (t.head h).source with
  | none => rfl
  | some n =>
    obtain ⟨r, k, -, -, ek, eb, -⟩ := B.get (ro := .source) e
    rw [B.kinds] at ek
    simp only [MachineKind.binds, Bool.and_eq_true, decide_eq_true_eq] at eb
    exact absurd (eb.1 ▸ ek) hk

/-- A coiler has no product. -/
theorem State.BoundBut.product_none (B : t.BoundBut g noRole K) (hk : K h = some .coiler) : (t.head h).product = none := by
  cases e : (t.head h).product with
  | none => rfl
  | some n =>
    obtain ⟨r, k, -, -, ek, eb, -⟩ := B.get (ro := .product) e
    rw [B.kinds, hk] at ek
    cases ek
    simp [MachineKind.binds, MachineKind.product] at eb

/-- A head with a source is a coiler. -/
theorem State.BoundBut.coiler (B : t.BoundBut g noRole K) {n : Nat} (e : (t.head h).source = some n) : K h = some .coiler := by
  by_contra hk
  rw [B.source_none hk] at e
  cases e

/-- A head without a product holds no strand. -/
theorem State.BoundBut.slots_none (B : t.BoundBut g X K) (e : (t.head h).product = none) (n : SlotIx) :
    (t.head h).named (.feed n) = none := by
  by_contra hn
  exact B.feeds h n hn e

/-- A head without a source has no coil. -/
theorem State.BoundBut.coil_none (B : t.BoundBut g X K) (e : (t.head h).source = none) : (t.head h).named .segment = none := by
  by_contra hn
  exact B.coils h hn e

theorem State.unbindSlot_head (s : State) (h : HeadIx) (st : RecordState) (pos : Nat) (n : SlotIx) :
    ((s.unbindSlot h st pos n).head h).product = (s.head h).product ∧ ((s.unbindSlot h st pos n).head h).source = (s.head h).source ∧
      (((s.unbindSlot h st pos n).head h).slot n).strand = none ∧
      ∀ m, ((s.head h).slot m).strand = none → (((s.unbindSlot h st pos n).head h).slot m).strand = none := by
  have key : ∀ v : State, v.head h = s.head h →
      (((v.updSlot h n fun x => { required := x.required }).head h).product = (s.head h).product ∧
        ((v.updSlot h n fun x => { required := x.required }).head h).source = (s.head h).source ∧
        (((v.updSlot h n fun x => { required := x.required }).head h).slot n).strand = none ∧
        ∀ m, ((s.head h).slot m).strand = none →
          (((v.updSlot h n fun x => { required := x.required }).head h).slot m).strand = none) := fun v ev => by
    rw [State.updSlot_head, ev]
    refine ⟨rfl, rfl, by simp, fun m em => ?_⟩
    by_cases e : m = n
    · subst e
      simp
    · rw [Head.updSlot_slot_ne _ _ e]
      exact em
  unfold State.unbindSlot
  split
  · rename_i e
    exact ⟨rfl, rfl, e, fun _ em => em⟩
  · dsimp only
    split <;> exact key _ rfl

/-- All four slots unbound (R123). -/
theorem State.unbindAll_boundBut {st : RecordState} {pos : Nat} (hs : st.loose = true) (B : t.BoundBut h noRole K) :
    (allSlots.foldl (State.unbindSlot h st pos) t).BoundBut h noRole K ∧
      ((allSlots.foldl (State.unbindSlot h st pos) t).head h).product = (t.head h).product ∧
      ((allSlots.foldl (State.unbindSlot h st pos) t).head h).source = (t.head h).source ∧
      ∀ m, (((allSlots.foldl (State.unbindSlot h st pos) t).head h).slot m).strand = none := by
  have key : ∀ (l : List SlotIx) (v : State),
      ((l.foldl (State.unbindSlot h st pos) v).head h).product = (v.head h).product ∧
        ((l.foldl (State.unbindSlot h st pos) v).head h).source = (v.head h).source ∧
        ∀ m, m ∈ l ∨ ((v.head h).slot m).strand = none → (((l.foldl (State.unbindSlot h st pos) v).head h).slot m).strand = none := by
    intro l
    induction l with
    | nil => exact fun v => ⟨rfl, rfl, fun m e => e.resolve_left (by simp)⟩
    | cons n l ih =>
      intro v
      obtain ⟨b1, b2, b3, b4⟩ := State.unbindSlot_head v h st pos n
      obtain ⟨c1, c2, c3⟩ := ih (v.unbindSlot h st pos n)
      rw [List.foldl_cons]
      refine ⟨c1.trans b1, c2.trans b2, fun m e => c3 m ?_⟩
      rcases e with e | e
      · rcases List.mem_cons.mp e with rfl | e
        · exact Or.inr b3
        · exact Or.inl e
      · exact Or.inr (b4 m e)
  obtain ⟨a1, a2, a3⟩ := key allSlots t
  exact ⟨State.foldl_boundBut (fun _ _ => State.unbindSlot_boundBut hs) _ B, a1, a2, fun m => a3 m (Or.inl (by revert m; decide))⟩

/-- A product leaves MAKING (R18): no record is bound to the head any more. -/
theorem State.endMaking_freed {f : Record → Record} (hf : ∀ r, (f r).tag = r.tag)
    (hl : ∀ r : Record, r.boundFrom = some .draft ∨ r.boundFrom = some .interrupted → (f r).Loose) (B : t.BoundBut h noRole K)
    (hsrc : (t.head h).source = none) : (t.endMaking h f).Freed h K := by
  unfold State.endMaking
  split
  · rename_i ep
    have hp : (t.head h).product = none := by
      cases e : (t.head h).product with
      | none => rfl
      | some n =>
        obtain ⟨r, k, er, -⟩ := B.get (ro := .product) e
        simp [State.productOf, e, er] at ep
    refine ⟨noRole, B, fun ro => Or.inr ?_⟩
    cases ro with
    | product => exact hp
    | feed n => exact B.slots_none hp n
    | source => exact hsrc
    | segment => exact B.coil_none hsrc
  · rename_i r ep
    have hp : (t.head h).product = some r.tag := by
      obtain ⟨n, e1, e2⟩ := Option.bind_eq_some_iff.mp ep
      rw [e1, (State.find_mem e2).2]
    obtain ⟨B1, e1, e2, e3⟩ := State.unbindAll_boundBut (st := .made) (pos := r.made) rfl B
    generalize allSlots.foldl (State.unbindSlot h .made r.made) t = v at B1 e1 e2 e3 ⊢
    obtain ⟨q, k, eq, eb, -⟩ := B1.get (ro := .product) (e1.trans hp)
    have B2 := State.updRec_unbound hf (hl q ((B1.tied _ _ eq).since h eb)) eq eb B1
    refine ⟨_, B2, fun ro => ?_⟩
    cases ro with
    | product => exact Or.inl (Or.inr rfl)
    | feed n => exact Or.inr (e3 n)
    | source => exact Or.inr (e2.trans hsrc)
    | segment => exact Or.inr (B2.coil_none (e2.trans hsrc))

/-! ## Leaving the store -/

theorem find_map_tags {l : List Record} {f : Record → Record} (hf : ∀ r, (f r).tag = r.tag) (n : Nat) :
    (l.map f).find? (fun x => x.tag == n) = (l.find? fun x => x.tag == n).map f := by
  have e : ((fun x : Record => x.tag == n) ∘ f) = fun x => x.tag == n := funext fun x => by simp [hf]
  rw [List.find?_map, e]

theorem State.BoundBut.congr {Y : Role → Prop} (hX : ∀ ro, X ro ↔ Y ro) (B : t.BoundBut g X K) : t.BoundBut g Y K := by
  have : X = Y := funext fun ro => propext (hX ro)
  exact this ▸ B

/-- What a leaving record does to the others: they keep their ties, and it is live no more (R5). -/
theorem State.leave_ties (s : State) (n : Nat) :
    (s.leave n).find n = none ∧ (∀ m, m ≠ n → ((s.leave n).find m).map Record.tie = (s.find m).map Record.tie) ∧
      ∀ k, ((s.leave n).head k).grip = (s.head k).grip := by
  unfold State.leave
  split
  · rename_i e
    exact ⟨e, fun _ _ => rfl, fun _ => rfl⟩
  · rename_i r er
    have f0 : (s.store.filter fun x => x.tag != n).find? (fun x => x.tag == n) = none := by
      simp
    have f1 : ∀ m, m ≠ n → (s.store.filter fun x => x.tag != n).find? (fun x => x.tag == m) =
        s.store.find? fun x => x.tag == m := fun m hm => by
      rw [List.find?_filter]
      congr 1
      funext x
      by_cases e : x.tag = m <;> simp [e, hm]
    dsimp only
    have key : ∀ l : List Record, l.find? (fun x => x.tag == n) = none →
        (∀ m, m ≠ n → (l.find? fun x => x.tag == m).map Record.tie = (s.find m).map Record.tie) →
        ∀ u : State, u.store = l → (∀ k, (u.head k).grip = (s.head k).grip) →
          u.find n = none ∧ (∀ m, m ≠ n → (u.find m).map Record.tie = (s.find m).map Record.tie) ∧
            ∀ k, (u.head k).grip = (s.head k).grip := fun l e1 e2 u eu eh =>
      ⟨by rw [State.find, eu, e1], fun m hm => by rw [State.find, eu, e2 m hm], eh⟩
    have key2 : ∀ l : List Record, l.find? (fun x => x.tag == n) = none →
        (∀ m, m ≠ n → (l.find? fun x => x.tag == m).map Record.tie = (s.find m).map Record.tie) →
        ∀ c : Prop, ∀ _ : Decidable c, (if c then State.notifyPlanners { s with store := l } else { s with store := l }).find n = none ∧
          (∀ m, m ≠ n → ((if c then State.notifyPlanners { s with store := l } else { s with store := l }).find m).map Record.tie =
            (s.find m).map Record.tie) ∧
          ∀ k, ((if c then State.notifyPlanners { s with store := l } else { s with store := l }).head k).grip =
            (s.head k).grip := fun l e1 e2 c _ => by
      split
      · exact key l e1 e2 _ rfl fun k => by rw [State.notifyPlanners_head]; rfl
      · exact key l e1 e2 _ rfl fun _ => rfl
    refine key2 _ ?_ ?_ _ _
    · split
      · rw [find_map_tags (Record.onCoil_tag _), f0]
        rfl
      · exact f0
    · intro m hm
      split
      · rw [find_map_tags (Record.onCoil_tag _), f1 m hm, Option.map_map]
        congr 1
        funext x
        exact Record.onCoil_tie _ _
      · rw [f1 m hm]
        rfl

/-- A record that leaves the store and was bound nowhere but to head `g`. -/
theorem State.leave_boundBut {n : Nat} {r : Record} (er : t.find n = some r) (hb : ∀ k ro, r.bound = some (k, ro) → k = g)
    (B : t.BoundBut g X K) : (t.leave n).BoundBut g (fun x => X x ∨ r.bound = some (g, x)) K := by
  obtain ⟨l0, l1, l2⟩ := State.leave_ties t n
  have hn : ∀ k ro, ((t.leave n).head k).named ro = (t.head k).named ro := fun k ro => Head.grip_named (l2 k) ro
  have hg := l2
  simp only [Head.grip, Prod.mk.injEq] at hg
  constructor
  · exact fun k => (Head.grip_kind (l2 k)).trans (B.kinds k)
  · intro k ro m e
    rw [hn] at e
    rcases B.named k ro m e with ⟨rfl, hx⟩ | ⟨y, kd, e1, e2, e3, e4, e5⟩
    · exact Or.inl ⟨rfl, Or.inl hx⟩
    · by_cases em : m = n
      · subst em
        rw [er] at e1
        cases e1
        have := hb k ro e2
        subst this
        exact Or.inl ⟨rfl, Or.inr e2⟩
      · have := l1 m em
        rw [e1] at this
        obtain ⟨x, ex, et⟩ := Option.map_eq_some_iff.mp this
        simp only [Record.tie, Prod.mk.injEq] at et
        exact Or.inr ⟨x, kd, ex, et.2.2.1.trans e2, (Head.grip_kind (l2 k)).trans e3, et.1 ▸ e4, (hg k).2.1.trans e5⟩
  · intro m y k ro e ey
    have em : m ≠ n := fun em => by rw [em, l0] at e; cases e
    have := l1 m em
    rw [e, Option.map_some, eq_comm] at this
    obtain ⟨x, ex, et⟩ := Option.map_eq_some_iff.mp this
    simp only [Record.tie, Prod.mk.injEq] at et
    obtain ⟨b1, b2⟩ := B.bound m x k ro ex (et.2.2.1.trans ey)
    rw [hn]
    refine ⟨b1, fun hx => ?_⟩
    rcases hx.2 with hx2 | hx2
    · exact b2 ⟨hx.1, hx2⟩
    · have := (B.bound n r g ro er hx2).1
      rw [hx.1, this] at b1
      exact em (by simpa using b1.symm)
  · intro m y e
    have em : m ≠ n := fun em => by rw [em, l0] at e; cases e
    have := l1 m em
    rw [e, Option.map_some, eq_comm] at this
    obtain ⟨x, ex, et⟩ := Option.map_eq_some_iff.mp this
    exact (B.tied m x ex).of_tie et.symm
  · intro k n e
    rw [hn] at e
    rw [(hg k).2.2.2.1]
    exact B.feeds k n e
  · intro k e
    rw [hn] at e
    rw [(hg k).2.2.2.2.1]
    exact B.coils k e
  · intro k e
    rw [hn]
    have := (hg k).2.2.1
    exact B.waiting k (by simpa [this] using (Bool.or_eq_true _ _).mpr e)

/-- RELEASE or disconnect in READY (R70): no record is bound to the head any more. -/
theorem State.undoBinding_freed (B : t.BoundBut h noRole K) : (t.undoBinding h).Freed h K := by
  unfold State.undoBinding
  split
  · rename_i e
    exact State.endMaking_freed (fun r => Record.unbindTo_tag _ r) (fun r hr => Record.unbindTo_loose (by
      rcases hr with hr | hr <;> simp [hr, RecordState.loose])) B e
  · rename_i n e
    have hp := B.product_none (B.coiler e)
    obtain ⟨r, k, er, eb, -⟩ := B.get (ro := .source) e
    have B1 := State.updRec_unbound (Record.unbindTo_tag .made) (Record.unbindTo_loose (st := .made) rfl) er eb B
    dsimp only
    split
    · rename_i c ec
      have ec1 : (t.head h).named .segment = some c := ec
      have nx : ∀ x : Role, x = .segment → ¬(noRole x ∨ x = .source) := fun x e1 e2 => by subst e1; simp [noRole] at e2
      obtain ⟨q, k2, eq, eqb, -⟩ := (B1.named h .segment c ec1).resolve_left fun x => nx _ rfl x.2
      have B2 := State.leave_boundBut eq (fun k ro e3 => by rw [eqb] at e3; cases e3; rfl) B1
      have hh := (State.leave_ties (t.updRec n fun r => r.unbindTo .made) c).2.2 h
      refine ⟨_, B2, fun ro => ?_⟩
      rw [Head.grip_named hh]
      cases ro with
      | product => exact Or.inr hp
      | feed m => exact Or.inr (B.slots_none hp m)
      | source => exact Or.inl (Or.inl (Or.inr rfl))
      | segment => exact Or.inl (Or.inr eqb)
    · rename_i ec
      refine ⟨_, B1, fun ro => ?_⟩
      cases ro with
      | product => exact Or.inr hp
      | feed m => exact Or.inr (B.slots_none hp m)
      | source => exact Or.inl (Or.inr rfl)
      | segment => exact Or.inr ec

/-! ## Segments that end -/

/-- The rope of a coiler, found by its name. -/
theorem State.BoundBut.sourceOf {n : Nat} (B : t.BoundBut g X K) (e : (t.head h).source = some n) (hx : ¬(h = g ∧ X .source)) :
    ∃ r b, t.sourceOf h = some (r, b) ∧ r.tag = n ∧ t.find n = some r ∧ r.bound = some (h, .source) := by
  obtain ⟨r, k, er, eb, -, ebk, -⟩ := (B.named h .source n e).resolve_left hx
  simp only [MachineKind.binds, Bool.and_eq_true, decide_eq_true_eq] at ebk
  have hk := ebk.2
  unfold Record.kind Body.kind at hk
  cases ed : r.body with
  | rope b => exact ⟨r, b, by simp [State.sourceOf, e, er, ed], (State.find_mem er).2, er, eb⟩
  | strand b => simp [ed] at hk
  | panel b => simp [ed] at hk
  | coil b => simp [ed] at hk

theorem State.sourceOf_source {r : Record} {b : RopeBody} (e : t.sourceOf h = some (r, b)) :
    (t.head h).source = some r.tag ∧ t.find r.tag = some r := by
  obtain ⟨n, e1, e2⟩ := Option.bind_eq_some_iff.mp e
  obtain ⟨q, e3, e4⟩ := Option.bind_eq_some_iff.mp e2
  have : q = r := by
    split at e4
    · cases e4
      rfl
    all_goals cases e4
  subst this
  have := (State.find_mem e3).2
  subst this
  exact ⟨e1, e3⟩

@[simp] theorem State.addWaste_head (s : State) (rope n : Nat) (k : HeadIx) : (s.addWaste rope n).head k = s.head k := rfl

@[simp] theorem State.windCoil_head (s : State) (c rope e a : Nat) (b : Bool) (k : HeadIx) :
    (s.windCoil h c rope e a b).head k = s.head k := by
  unfold State.windCoil
  split
  · rfl
  · dsimp only
    split <;> rfl

/-- The coil of the segment is WOUND (R159): the head's name of it is stale. -/
theorem State.windCoil_boundBut {c rope e a : Nat} {b : Bool} (ec : (t.head h).named .segment = some c) (B : t.BoundBut h noRole K) :
    (t.windCoil h c rope e a b).BoundBut h (fun x => noRole x ∨ x = .segment) K := by
  obtain ⟨r, k, er, eb, -, ebk, -⟩ := B.get ec
  simp only [MachineKind.binds, Bool.and_eq_true, decide_eq_true_eq] at ebk
  have hk := ebk.2
  unfold Record.kind Body.kind at hk
  unfold State.windCoil
  split
  · rename_i en
    cases ed : r.body with
    | coil b => simp [State.coilOf, er, ed] at en
    | strand b => simp [ed] at hk
    | panel b => simp [ed] at hk
    | rope b => simp [ed] at hk
  · rename_i cb _
    have B1 : ∀ w : CoilBody, (t.updRec c fun r => r.windTo w).BoundBut h (fun x => noRole x ∨ x = .segment) K := fun w =>
      State.updRec_unbound (Record.windTo_tag w) ⟨rfl, rfl, rfl⟩ er eb B
    dsimp only
    split <;> simp (maxDischargeDepth := 20) [B1]

/-- A head without its segment. -/
theorem State.dropSegment_boundBut (hx : ∀ ro, X ro → ro = .segment) (hs : X .segment ∨ (t.head h).named .segment = none)
    (B : t.BoundBut h X K) : (t.updHead h fun x => { x with segment := none }).BoundBut h noRole K := by
  refine State.updHead_let_go rfl rfl (fun ro => ?_) (fun n e => B.feeds h n e) (fun e => absurd rfl e) (fun _ => rfl) B
  by_cases e : ro = .segment
  · subst e
    by_cases hX : X .segment
    · exact Or.inl ⟨hX, rfl⟩
    · exact Or.inr ⟨hX, (hs.resolve_left hX).symm⟩
  · refine Or.inr ⟨fun hX => e (hx ro hX), ?_⟩
    cases ro with
    | segment => exact absurd rfl e
    | product => rfl
    | feed n => rfl
    | source => rfl

/-- The completion of a segment (R159, R160): no coil is bound to the head any more, and it names none. -/
theorem State.completeSegment_boundBut (B : t.BoundBut h noRole K) :
    (t.completeSegment h).BoundBut h noRole K ∧ ((t.completeSegment h).sourceOf h ≠ none → ((t.completeSegment h).head h).named .segment = none) := by
  unfold State.completeSegment
  split
  · rename_i sg r b es eo
    have key : ∀ (v : State) (X : Role → Prop), v.BoundBut h X K → (∀ ro, X ro → ro = .segment) →
        (X .segment ∨ (v.head h).named .segment = none) →
        ((v.raise h .coil).updHead h fun x => { x with segment := none }).BoundBut h noRole K ∧
          ((((v.raise h .coil).updHead h fun x => { x with segment := none }).sourceOf h ≠ none) →
            (((v.raise h .coil).updHead h fun x => { x with segment := none }).head h).named .segment = none) := fun v X Bv e1 e2 =>
      ⟨State.dropSegment_boundBut e1 e2 (State.raise_boundBut Bv), fun _ => by rw [State.updHead_head]; rfl⟩
    dsimp only
    split
    · rename_i c ec
      have en : (t.head h).named .segment = some c := by simp [Head.named, es, ec]
      have B1 := State.windCoil_boundBut (rope := r.tag) (e := b.currentEnd) (a := min sg.unwound b.currentEnd) (b := false) en B
      have h1 : ∀ ro : Role, noRole ro ∨ ro = .segment → ro = .segment := fun ro e => e.resolve_left fun y => y
      split
      · exact key _ _ (State.updHead_boundBut (fun _ => rfl) B1) h1 (Or.inl (Or.inr rfl))
      · exact key _ _ B1 h1 (Or.inl (Or.inr rfl))
    · rename_i ec
      exact key _ noRole (State.addWaste_boundBut B) (fun _ x => x.elim) (Or.inr (by simp [Head.named, es, ec]))
  · rename_i en
    refine ⟨B, fun eo => ?_⟩
    cases es : (t.head h).segment with
    | none => simp [Head.named, es]
    | some sg =>
      cases eo2 : t.sourceOf h with
      | none => exact absurd eo2 eo
      | some q => exact absurd eo2 (en sg q.1 q.2 es)

/-- RELEASE or disconnect of a coiler in a running state (R72): no record is bound to the head any more. -/
theorem State.endSegment_freed (hk : K h = some .coiler) (B : t.BoundBut h noRole K) : (t.endSegment h).Freed h K := by
  have B1 : (t.flawAtLeaving h (t.unwindPosition h)).BoundBut h noRole K := State.flawAtLeaving_boundBut B
  unfold State.endSegment
  dsimp only
  generalize t.flawAtLeaving h (t.unwindPosition h) = v at B1 ⊢
  have hp := B1.product_none hk
  split
  · rename_i eo
    have hs : (v.head h).source = none := by
      cases e : (v.head h).source with
      | none => rfl
      | some n =>
        obtain ⟨r, b, e1, -⟩ := B1.sourceOf e fun x => x.2
        rw [eo] at e1
        cases e1
    refine ⟨noRole, B1, fun ro => Or.inr ?_⟩
    cases ro with
    | product => exact hp
    | feed n => exact B1.slots_none hp n
    | source => exact hs
    | segment => exact B1.coil_none hs
  · rename_i r b eo
    obtain ⟨es, er⟩ := State.sourceOf_source eo
    have key : ∀ (w : State) (X : Role → Prop), w.BoundBut h X K → (∀ ro, X ro → ro = .segment) → w.head h = v.head h →
        (X .segment ∨ (v.head h).named .segment = none) → (w.giveUpRope h).Freed h K := fun w X Bw e1 eh e2 => by
      obtain ⟨q, d, eq1, eq2, eq3, eq4⟩ := Bw.sourceOf (h := h) (eh ▸ es) fun x => by cases e1 _ x.2
      have Bu : ∀ st : RecordState, st.loose = true → (w.updRec q.tag fun y => y.unbindTo st).BoundBut h (fun x => X x ∨ x = .source) K :=
        fun st hst => State.updRec_unbound (Record.unbindTo_tag st) (Record.unbindTo_loose hst) (eq2 ▸ eq3) eq4 Bw
      have fr : ∀ z : State, z.BoundBut h (fun x => X x ∨ x = .source) K → z.head h = v.head h → z.Freed h K := fun z Bz ez => by
        refine ⟨_, Bz, fun ro => ?_⟩
        rw [ez]
        cases ro with
        | product => exact Or.inr hp
        | feed n => exact Or.inr (B1.slots_none hp n)
        | source => exact Or.inl (Or.inr rfl)
        | segment => exact e2.imp_left Or.inl
      unfold State.giveUpRope
      rw [eq1]
      dsimp only
      split
      · exact fr _ (State.raise_boundBut (Bu .spent rfl)) eh
      · exact fr _ (Bu .made rfl) eh
    unfold State.cutShort
    dsimp only
    split
    · rename_i sg eg
      split
      · rename_i c ec
        have en : (v.head h).named .segment = some c := by simp [Head.named, eg, ec]
        exact key _ _ (State.raise_boundBut (State.windCoil_boundBut en B1)) (fun ro e => e.resolve_left fun y => y)
          (by simp) (Or.inl (Or.inr rfl))
      · rename_i ec
        exact key _ noRole (State.raise_boundBut (State.addWaste_boundBut B1)) (fun _ x => x.elim) (by simp)
          (Or.inr (by simp [Head.named, eg, ec]))
    · rename_i eg
      split
      · exact key _ noRole (State.raise_boundBut (State.addWaste_boundBut B1)) (fun _ x => x.elim) (by simp)
          (Or.inr (by simp [Head.named, eg]))
      · exact key _ noRole (State.addWaste_boundBut B1) (fun _ x => x.elim) (by simp) (Or.inr (by simp [Head.named, eg]))

/-! ## The end of a head's work -/

theorem Head.free_named (st : HeadState) (x : Head) (ro : Role) : (x.free st).named ro = none := by
  cases ro with
  | feed n => simp [Head.named, Head.slot, Head.free]
  | product => rfl
  | source => rfl
  | segment => rfl

/-- The end of a binding leaves no record bound to the head (R70 to R75). -/
theorem State.settleRecords_freed {f : Record → Record} (hf : ∀ r, (f r).tag = r.tag) (hl : ∀ r, (f r).Loose)
    (B : t.BoundBut h noRole K) : (t.settleRecords h f).Freed h K := by
  have idle : (t.head h).state.takesFeeds = false → t.Freed h K := fun e =>
    ⟨noRole, B, fun ro => Or.inr (by
      by_contra hn
      obtain ⟨n, en⟩ := Option.ne_none_iff_exists'.mp hn
      obtain ⟨-, -, -, -, -, -, ea⟩ := B.get en
      rw [e] at ea
      cases ea)⟩
  have run : (t.endRunning h f).Freed h K := by
    have making : ∀ v : State, v.BoundBut h noRole K → K h ≠ some .coiler → (v.endMaking h f).Freed h K := fun v Bv hk =>
      State.endMaking_freed hf (fun r _ => hl r) Bv (Bv.source_none hk)
    unfold State.endRunning
    split
    all_goals rename_i e
    all_goals rw [B.kinds] at e
    · exact State.endSegment_freed e B
    · exact making _ (State.closeRow_boundBut B) (by simp [e])
    all_goals exact making _ B (by simp [e])
  unfold State.settleRecords
  split
  all_goals rename_i e
  all_goals first
    | exact State.undoBinding_freed B
    | exact run
    | exact idle (by rw [e]; rfl)

theorem State.releaseHead_bindingsOk (B : t.BindingsOk) : (t.releaseHead h).BindingsOk :=
  State.updHead_freed (fun ro => Head.free_named _ _ ro)
    (State.settleRecords_freed (fun r => Record.unbindTo_tag _ r) (fun _ => Record.unbindTo_loose rfl) (B.but h))

theorem State.disconnect_bindingsOk (B : t.BindingsOk) :
    (t.disconnect h).BindingsOk ∧ ∀ ro, ((t.disconnect h).head h).named ro = none := by
  have hn : ∀ (x : Head) ro, Head.named { x.free .empty with queue := [] } ro = none := fun x ro => by
    rw [← Head.free_named .empty x ro]
    cases ro <;> rfl
  refine ⟨State.updHead_freed (fun ro => hn _ ro)
    (State.settleRecords_freed Record.interrupt_tag (fun _ => Record.interrupt_loose) (B.but h)), fun ro => ?_⟩
  unfold State.disconnect
  rw [State.updHead_head]
  exact hn _ ro

theorem State.senseSettled_bindingsOk (B : t.BindingsOk) : (t.senseSettled h).BindingsOk := by
  have key : ∀ (v : State) (r : SenseResult), v.BindingsOk → (∀ ro, (v.head h).named ro = none) →
      ((v.updHead h fun x => { x with accepted := r, state := r.state }).raise h .sense).BindingsOk := fun v r Bv hn => by
    have : (v.updHead h fun x => { x with accepted := r, state := r.state }).BindingsOk :=
      State.updHead_freed (K := fun k => (v.head k).kind) (fun ro => by rw [← hn ro]; cases ro <;> rfl)
        ⟨noRole, Bv.but h, fun ro => Or.inr (hn ro)⟩
    exact (State.raise_boundBut (this.but h)).ok
  unfold State.senseSettled
  dsimp only
  split
  · split
    · obtain ⟨B1, hn⟩ := State.disconnect_bindingsOk (h := h) B
      exact key _ _ B1 hn
    · rename_i ek
      refine key _ _ B fun ro => ?_
      by_contra hn
      obtain ⟨n, en⟩ := Option.ne_none_iff_exists'.mp hn
      obtain ⟨_, _, _, _, e3, _⟩ := B.named h ro n en
      simp [e3] at ek
  · exact B

/-! ## A binding that begins -/

theorem Record.Tied.of_bound {r : Record} {k : HeadIx} {ro : Role} (eb : r.bound = some (k, ro)) (es : r.state = ro.state)
    (h1 : ro = .product → r.boundFrom = some .draft ∨ r.boundFrom = some .interrupted) (h2 : ro ≠ .product → r.boundFrom = none) :
    r.Tied where
  loose e := by
    rw [eb] at e
    cases e
  held j x e := by
    rw [eb] at e
    cases e
    exact es
  since j e := by
    rw [eb] at e
    cases e
    exact h1 rfl
  plain e := h2 fun ex => e k (ex ▸ eb)

/-- Record `n`, bound to no head in `t`, is bound to head `g` in role `ro` in `u`, and the head names it (R12). -/
theorem State.BoundBut.bind {n : Nat} {r : Record} {ro : Role} {k : MachineKind} (B : t.BoundBut g noRole K)
    (hr : ∀ m, m ≠ n → (u.find m).map Record.tie = (t.find m).map Record.tie) (h0 : ∀ q, t.find n = some q → q.bound = none)
    (er : u.find n = some r) (eb : r.bound = some (g, ro)) (T : r.Tied) (ek : K g = some k) (hb : k.binds r.kind ro = true)
    (ha : (u.head g).state.takesFeeds = true) (hh : ∀ j, j ≠ g → u.head j = t.head j) (hk : (u.head g).kind = (t.head g).kind)
    (hn : ∀ x, x ≠ ro → (u.head g).named x = (t.head g).named x) (en : (u.head g).named ro = some n)
    (e0 : (t.head g).named ro = none) (hf : ∀ m, (u.head g).named (.feed m) ≠ none → (u.head g).product ≠ none)
    (hc : (u.head g).named .segment ≠ none → (u.head g).source ≠ none)
    (hw : (u.head g).holds.queueEmpty = true ∨ (u.head g).holds.storeFull = true → (u.head g).named .segment = none) :
    u.BoundBut g noRole K := by
  have kinds : ∀ j, (u.head j).kind = K j := fun j => by
    by_cases ej : j = g
    · subst ej
      exact hk.trans (B.kinds j)
    · rw [hh j ej]
      exact B.kinds j
  have fwd : ∀ {m q}, m ≠ n → t.find m = some q → ∃ x, u.find m = some x ∧ x.tie = q.tie := fun {m q} em e => by
    have := hr m em
    rw [e] at this
    simpa using this
  have bwd : ∀ {m x}, m ≠ n → u.find m = some x → ∃ q, t.find m = some q ∧ x.tie = q.tie := fun {m x} em e => by
    have := hr m em
    rw [e] at this
    simpa [eq_comm] using this
  have old : ∀ j x m, (t.head j).named x = some m → ∃ q kd, u.find m = some q ∧ q.bound = some (j, x) ∧ K j = some kd ∧
      kd.binds q.kind x = true ∧ (t.head j).state.takesFeeds = true := fun j x m e => by
    obtain ⟨q, kd, e1, e2, e3, e4, e5⟩ := B.get e
    have em : m ≠ n := fun em => by
      subst em
      rw [h0 q e1] at e2
      cases e2
    obtain ⟨y, ey, et⟩ := fwd em e1
    simp only [Record.tie, Prod.mk.injEq] at et
    exact ⟨y, kd, ey, et.2.2.1.trans e2, (B.kinds j) ▸ e3, et.1 ▸ e4, e5⟩
  constructor
  · exact kinds
  · intro j x m e
    by_cases ej : j = g
    · subst ej
      by_cases ex : x = ro
      · subst ex
        rw [en] at e
        cases e
        exact Or.inr ⟨r, k, er, eb, (kinds j).trans ek, hb, ha⟩
      · rw [hn x ex] at e
        obtain ⟨q, kd, e1, e2, e3, e4, -⟩ := old j x m e
        exact Or.inr ⟨q, kd, e1, e2, (kinds j).trans e3, e4, ha⟩
    · rw [hh j ej] at e ⊢
      obtain ⟨q, kd, e1, e2, e3, e4, e5⟩ := old j x m e
      exact Or.inr ⟨q, kd, e1, e2, (B.kinds j).trans e3, e4, e5⟩
  · intro m y j x e ey
    refine ⟨?_, fun z => z.2⟩
    by_cases em : m = n
    · subst em
      rw [er] at e
      cases e
      rw [eb] at ey
      cases ey
      exact en
    · obtain ⟨q, e1, et⟩ := bwd em e
      simp only [Record.tie, Prod.mk.injEq] at et
      have b1 := (B.bound m q j x e1 (et.2.2.1 ▸ ey)).1
      by_cases ej : j = g
      · subst ej
        have ex : x ≠ ro := fun ex => by
          subst ex
          rw [e0] at b1
          cases b1
        rw [hn x ex]
        exact b1
      · rw [hh j ej]
        exact b1
  · intro m y e
    by_cases em : m = n
    · subst em
      rw [er] at e
      cases e
      exact T
    · obtain ⟨q, e1, et⟩ := bwd em e
      exact (B.tied m q e1).of_tie et
  · intro j m e
    by_cases ej : j = g
    · subst ej
      exact hf m e
    · rw [hh j ej] at e ⊢
      exact B.feeds j m e
  · intro j e
    by_cases ej : j = g
    · subst ej
      exact hc e
    · rw [hh j ej] at e ⊢
      exact B.coils j e
  · intro j e
    by_cases ej : j = g
    · subst ej
      exact hw e
    · rw [hh j ej] at e ⊢
      exact B.waiting j e

/-- A record put into the store under a tag that is not live (R4). -/
theorem State.enter_find {r : Record} (hl : t.live r.tag = false) (m : Nat) :
    (t.enter r).find m = if m = r.tag then some r else t.find m := by
  have h0 := State.live_eq_false.mp hl
  have key : ∀ l : List Record, (∀ x ∈ l, x.tag ≠ r.tag) →
      (insertRecord r l).find? (fun x => x.tag == m) = if m = r.tag then some r else l.find? fun x => x.tag == m := by
    intro l
    induction l with
    | nil =>
      intro _
      by_cases e : m = r.tag
      · simp [insertRecord, e]
      · simp [insertRecord, e, Ne.symm e]
    | cons a l ih =>
      intro hl
      have ha := hl a List.mem_cons_self
      have := ih fun x hx => hl x (List.mem_cons_of_mem _ hx)
      unfold insertRecord
      split
      · by_cases e : m = r.tag
        · simp [e]
        · simp [e, Ne.symm e]
      · by_cases ea : a.tag = m
        · have : m ≠ r.tag := fun e => ha (ea.trans e)
          simp [ea, this]
        · rw [List.find?_cons_of_neg (by simpa using ea), this]
          split
          · rfl
          · rw [List.find?_cons_of_neg (by simpa using ea)]
  rw [State.find, State.enter_store, key _ h0]
  rfl

theorem State.enter_heads (s : State) (r : Record) : (s.enter r).heads = s.heads := by
  unfold State.enter
  dsimp only
  split <;> rfl

/-- A record that is bound to no head enters the store (R4, R42). -/
theorem State.enter_boundBut {r : Record} (hl : t.live r.tag = false) (L : r.Loose) (B : t.BoundBut g noRole K) :
    (t.enter r).BoundBut g noRole K := by
  have hh : ∀ k, (t.enter r).head k = t.head k := fun k => by rw [State.head, State.enter_heads]; rfl
  have hf := State.enter_find (t := t) hl
  have h0 : t.find r.tag = none := by simpa [State.live] using hl
  constructor
  · intro k
    rw [hh]
    exact B.kinds k
  · intro k ro m e
    rw [hh] at e ⊢
    obtain ⟨q, kd, e1, e2, e3, e4, e5⟩ := B.get e
    have em : m ≠ r.tag := fun em => by
      rw [em, h0] at e1
      cases e1
    exact Or.inr ⟨q, kd, by rw [hf, if_neg em]; exact e1, e2, e3, e4, e5⟩
  · intro m y k ro e ey
    rw [hh]
    rw [hf] at e
    split at e
    · cases e
      rw [L.bound] at ey
      cases ey
    · exact B.bound m y k ro e ey
  · intro m y e
    rw [hf] at e
    split at e
    · cases e
      exact L.tied
    · exact B.tied m y e
  all_goals
    intro k
    rw [hh]
    first
      | exact B.feeds k
      | exact B.coils k
      | exact B.waiting k

/-! ## Plan points -/

/-- A head with a source, in which nothing is stale, may name records. -/
theorem State.BoundBut.active (B : t.BoundBut g noRole K) {n : Nat} (e : (t.head h).source = some n) :
    (t.head h).state.takesFeeds = true := by
  obtain ⟨_, _, _, _, _, _, ea⟩ := B.get (ro := .source) e
  exact ea

/-- A plan point that waits (R157) without a coil. -/
theorem State.planWaits_boundBut {x : HoldReason} {n : Nat} (es : (t.head h).source = some n)
    (e0 : (t.head h).named .segment = none) (B : t.BoundBut h noRole K) : (t.planWaits h x).BoundBut h noRole K := by
  have B1 : (t.updHead h fun y =>
      { y with holds := (y.holds.put (decide (x = .queueEmpty)) .queueEmpty).put (decide (x = .storeFull)) .storeFull }).BoundBut
        h noRole K :=
    State.updHead_let_go rfl rfl (fun ro => Or.inr ⟨fun y => y, by cases ro <;> rfl⟩) (fun n e => B.feeds h n e)
      (fun e => B.coils h e) (fun _ => e0) B
  unfold State.planWaits
  dsimp only
  split
  all_goals first
    | exact B1
    | exact State.enterHeld_boundBut (by rw [State.updHead_head]; exact B.active es) B1

/-- What a plan point that made a segment does to its head (R157). -/
theorem Head.planMade_named (y : Head) (ro : Role) :
    ((match y.state with
      | .cutting | .held =>
        { { y with holds := (y.holds.put false .queueEmpty).put false .storeFull } with state := y.byRun }
      | .empty | .idle | .ready | .run | .stopped | .done =>
        { y with holds := (y.holds.put false .queueEmpty).put false .storeFull } : Head)).named ro = y.named ro := by
  cases y.state <;> cases ro <;> rfl

/-- A plan point that made a segment leaves the names, keeps the head active and waits for nothing (R157). -/
theorem State.planMade_head (s : State) (h : HeadIx) :
    (∀ ro, ((s.planMade h).head h).named ro = (s.head h).named ro) ∧ ((s.planMade h).head h).kind = (s.head h).kind ∧
      ((s.planMade h).head h).state.takesFeeds = (s.head h).state.takesFeeds ∧
      ((s.planMade h).head h).holds.queueEmpty = false ∧ ((s.planMade h).head h).holds.storeFull = false ∧
      ∀ k, k ≠ h → (s.planMade h).head k = s.head k := by
  have hk : ∀ k, k ≠ h → (s.planMade h).head k = s.head k := fun k e => State.updHead_head_ne _ _ e
  unfold State.planMade at *
  rw [State.updHead_head]
  dsimp only
  refine ⟨fun ro => Head.planMade_named _ ro, ?_, ?_, ?_, ?_, hk⟩
  all_goals cases e : (s.head h).state
  all_goals first
    | rfl
    | (simp only [Head.byRun]; split <;> rfl)

theorem State.planMade_boundBut (B : t.BoundBut h noRole K) : (t.planMade h).BoundBut h noRole K := by
  obtain ⟨h1, h2, h3, h4, h5, -⟩ := State.planMade_head t h
  have ep : t.planMade h = t.updHead h fun _ => (t.planMade h).head h := by
    unfold State.planMade
    rw [State.updHead_head]
    rfl
  rw [ep]
  refine State.updHead_let_go h2 h3 (fun ro => Or.inr ⟨fun y => y, h1 ro⟩) (fun n e => ?_) (fun e => ?_) (fun e => ?_) B
  · rw [h1] at e
    have := B.feeds h n e
    rw [show ((t.planMade h).head h).product = (t.head h).product from h1 .product]
    exact this
  · rw [h1] at e
    have := B.coils h e
    rw [show ((t.planMade h).head h).source = (t.head h).source from h1 .source]
    exact this
  · rw [h4, h5] at e
    simp at e

/-- The serial found names a tag that is not live (R152). -/
theorem findSerial_live {live : Nat → Bool} {pre fuel n m : Nat} (e : findSerial live pre fuel n = some m) :
    live (coilTag pre m) = false := by
  induction fuel generalizing n with
  | zero => cases e
  | succ fuel ih =>
    unfold findSerial at e
    split at e
    · exact ih e
    · rename_i hl
      cases e
      simpa using hl

/-- A coil is created as the current segment (R156), and the plan point ends. -/
theorem State.createCoil_boundBut {rope e len n : Nat} {gr : Grade} {sh : Bool} (es : (t.head h).source = some n)
    (e0 : (t.head h).named .segment = none) (B : t.BoundBut h noRole K) (ec : t.createCoil h rope e len gr sh = some u) :
    (u.planMade h).BoundBut h noRole K := by
  unfold State.createCoil at ec
  split at ec
  · cases ec
  · obtain ⟨m, em, rfl⟩ := Option.map_eq_some_iff.mp ec
    have hl := findSerial_live em
    dsimp only
    generalize er : ({ Record.fresh (coilTag t.coilPrefix m) .winding t.clock.seconds (.coil {
        sourceRope := rope
        origin := h
        lo := e - len
        hi := e
        planned := len
        grade := gr
        short := sh
        bandTime := none
        belongs := true }) with bound := some (h, .segment) } : Record) = r
    have r1 : r.tag = coilTag t.coilPrefix m := by rw [← er]; rfl
    have r2 : r.bound = some (h, .segment) := by rw [← er]
    have r3 : r.state = .winding := by rw [← er]; rfl
    have r4 : r.kind = .coil := by rw [← er]; rfl
    have r5 : r.boundFrom = none := by rw [← er]; rfl
    have hl' : State.live { t with coilSerial := nextSerial m } r.tag = false := by rw [r1]; exact hl
    have hf := State.enter_find (t := { t with coilSerial := nextSerial m }) hl'
    have hh : ∀ k, (State.enter r { t with coilSerial := nextSerial m }).head k = t.head k := fun k => by
      rw [State.head, State.enter_heads]; rfl
    generalize State.enter r { t with coilSerial := nextSerial m } = v at hf hh ⊢
    rw [← r1]
    have w1 : ∀ ro, ((v.updHead h fun x => { x with segment := some ⟨some r.tag, len, e - len, 0, true⟩ }).head h).named ro =
        if ro = .segment then some r.tag else (t.head h).named ro := fun ro => by
      rw [State.updHead_head, hh]
      cases ro <;> rfl
    have w2 : ((v.updHead h fun x => { x with segment := some ⟨some r.tag, len, e - len, 0, true⟩ }).head h).kind = (t.head h).kind ∧
        ((v.updHead h fun x => { x with segment := some ⟨some r.tag, len, e - len, 0, true⟩ }).head h).state.takesFeeds =
          (t.head h).state.takesFeeds := by
      rw [State.updHead_head, hh]
      exact ⟨rfl, rfl⟩
    have w3 : ∀ k, k ≠ h → (v.updHead h fun x => { x with segment := some ⟨some r.tag, len, e - len, 0, true⟩ }).head k =
        t.head k := fun k ek => by rw [State.updHead_head_ne _ _ ek, hh]
    have w4 : ∀ j, (v.updHead h fun x => { x with segment := some ⟨some r.tag, len, e - len, 0, true⟩ }).find j = v.find j :=
      fun _ => rfl
    generalize (v.updHead h fun x => { x with segment := some ⟨some r.tag, len, e - len, 0, true⟩ }) = w at w1 w2 w3 w4 ⊢
    obtain ⟨p1, p2, p3, p4, p5, p6⟩ := State.planMade_head w h
    have p0 : ∀ j, (w.planMade h).find j = v.find j := w4
    have pn : ∀ x, x ≠ Role.segment → ((w.planMade h).head h).named x = (t.head h).named x := fun x ex => by
      rw [p1, w1, if_neg ex]
    refine B.bind (r := r) (n := r.tag) (ro := .segment) (k := .coiler) (fun j ej => by rw [p0, hf, if_neg ej]; rfl)
      (fun q eq => ?_) (by rw [p0, hf, if_pos rfl]) r2 ?_ (B.coiler es) (by rw [r4]; rfl) (by rw [p3, w2.2]; exact B.active es)
      (fun j ej => (p6 j ej).trans (w3 j ej)) (p2.trans w2.1) pn (by rw [p1, w1, if_pos rfl]) e0 (fun x ex => ?_) (fun _ => ?_)
      (fun ex => ?_)
    · have : State.live t r.tag = false := hl'
      simp [State.live, eq] at this
    · exact Record.Tied.of_bound r2 r3 (fun e => by cases e) fun _ => r5
    · rw [pn _ (by simp)] at ex
      have : ((w.planMade h).head h).product = (t.head h).product := pn .product (by simp)
      rw [this]
      exact B.feeds h x ex
    · have : ((w.planMade h).head h).source = (t.head h).source := pn .source (by simp)
      rw [this, es]
      simp
    · rw [p4, p5] at ex
      simp at ex

theorem State.applyPlan_boundBut {rope e n : Nat} {p : Plan} (es : (t.head h).source = some n)
    (e0 : (t.head h).named .segment = none) (B : t.BoundBut h noRole K) : (t.applyPlan h rope e p).BoundBut h noRole K := by
  unfold State.applyPlan
  split
  · exact State.planWaits_boundBut es e0 B
  · rename_i len
    have e1 : (t.head h).segment.bind Segment.coil = none := e0
    exact State.planMade_boundBut (State.updHead_boundBut_of (by simp [Head.grip, e1]) B)
  · split
    · rename_i ec
      exact State.createCoil_boundBut es e0 B ec
    · exact State.planWaits_boundBut es e0 B

/-- The flaw span of a coiler leaves what its head names. -/
theorem State.flawAtLeaving_named (s : State) (h : HeadIx) (pf : Nat) (ro : Role) :
    ((s.flawAtLeaving h pf).head h).named ro = (s.head h).named ro := by
  have key : ∀ (v : State) (k : Nat) (x : Span), (v.addRopeSpan k x).head h = v.head h := fun v k x => by
    have onp : ∀ (w : State) (f : Piece → Piece × Bool), (w.onPiece k f).head h = w.head h := fun w f => by
      unfold State.onPiece State.raiseAt
      dsimp only
      repeat' split
      all_goals rfl
    have dn : ∀ (l : List Record) (w : State), (l.foldl (State.judgeCoil k) w).head h = w.head h := fun l => by
      induction l with
      | nil => exact fun _ => rfl
      | cons a l ih =>
        intro w
        rw [List.foldl_cons, ih]
        unfold State.judgeCoil
        split <;> rfl
    unfold State.addRopeSpan
    dsimp only
    split
    · exact onp _ _
    · exact (dn _ _).trans (onp _ _)
  unfold State.flawAtLeaving State.coilerFlawFall
  dsimp only
  repeat' split
  all_goals first
    | rfl
    | (simp only [State.updHead_head, State.raiseAlarm_head, key]; cases ro <;> rfl)

/-- One head changed so that its grip stays. -/
theorem State.updHead_bindingsOk {f : Head → Head} (hf : ∀ x, (f x).grip = x.grip) (B : t.BindingsOk) : (t.updHead h f).BindingsOk :=
  (State.updHead_boundBut hf (B.but h)).ok

theorem State.BindingsOk.raise {k : HeadIx} {f : HeadFlag} (B : t.BindingsOk) : (t.raise k f).BindingsOk :=
  (State.raise_boundBut (B.but k)).ok

/-- A plan point that ends the rope (R164). -/
theorem State.endRope_bindingsOk {n : Nat} (es : (t.head h).source = some n) (e0 : (t.head h).named .segment = none)
    (B : t.BoundBut h noRole K) : (t.endRope h n).BindingsOk := by
  have hp := B.product_none (B.coiler es)
  have B1 : (t.flawAtLeaving h 0).BoundBut h noRole K := State.flawAtLeaving_boundBut B
  have hn := State.flawAtLeaving_named t h 0
  unfold State.endRope
  dsimp only
  generalize t.flawAtLeaving h 0 = v at B1 hn ⊢
  have q1 : (v.head h).product = none := (hn .product).trans hp
  have q2 : (v.head h).source = some n := (hn .source).trans es
  have q3 : (v.head h).named .segment = none := (hn .segment).trans e0
  obtain ⟨r, k, er, eb, -⟩ := B1.get (ro := .source) q2
  have B2 := State.updRec_unbound (Record.unbindTo_tag .spent) (Record.unbindTo_loose (st := .spent) rfl) er eb B1
  refine State.BindingsOk.raise (State.BindingsOk.raise (State.updHead_freed (K := K) (fun ro => ?_) ⟨_, B2, fun ro => ?_⟩))
  · cases ro with
    | product => exact q1
    | feed m => exact B1.slots_none q1 m
    | source => rfl
    | segment => rfl
  · cases ro with
    | product => exact Or.inr q1
    | feed m => exact Or.inr (B1.slots_none q1 m)
    | source => exact Or.inl (Or.inr rfl)
    | segment => exact Or.inr q3

/-- A plan point of a coiler that winds no coil (R153). -/
theorem State.planPoint_bindingsOk (e0 : t.sourceOf h ≠ none → (t.head h).named .segment = none) (B : t.BindingsOk) :
    (t.planPoint h).BindingsOk := by
  unfold State.planPoint
  split
  · exact B
  · rename_i r b eo
    have en := e0 (by rw [eo]; simp)
    obtain ⟨es, -⟩ := State.sourceOf_source eo
    have B1 : (t.openPlan h r.tag b.currentEnd).BoundBut h noRole fun k => (t.head k).kind := State.openPlan_boundBut (B.but h)
    have hn : ∀ ro, ((t.openPlan h r.tag b.currentEnd).head h).named ro = (t.head h).named ro := fun ro => by
      unfold State.openPlan
      dsimp only
      split
      · rw [State.raise_head, State.updHead_head]
        cases ro <;> rfl
      · rw [State.updHead_head]
        cases ro <;> rfl
    dsimp only
    split
    · exact State.endRope_bindingsOk ((hn .source).trans es) ((hn .segment).trans en) B1
    · exact (State.applyPlan_boundBut ((hn .source).trans es) ((hn .segment).trans en) B1).ok

@[simp] theorem State.sourceOf_eq_source (s : State) (h : HeadIx) (e : (s.head h).source = none) : s.sourceOf h = none := by
  simp [State.sourceOf, e]

theorem Head.complete_named (x : Head) (ro : Role) : x.complete.named ro = none := by
  rw [← Head.free_named .done x ro]
  cases ro <;> rfl

/-- A cut completes (R63, R64). -/
theorem State.completeCut_bindingsOk (B : t.BindingsOk) : (t.completeCut h).BindingsOk := by
  have maker : ∀ v : State, (v.BoundBut h noRole fun k => (t.head k).kind) → (t.head h).kind ≠ some .coiler →
      (((v.endMaking h fun r => r.unbindTo .made).updHead h Head.complete).raise h .state).BindingsOk := fun v Bv hk =>
    State.BindingsOk.raise (State.updHead_freed (fun ro => Head.complete_named _ ro)
      (State.endMaking_freed (fun r => Record.unbindTo_tag _ r) (fun _ _ => Record.unbindTo_loose rfl) Bv (Bv.source_none hk)))
  unfold State.completeCut
  split
  · obtain ⟨B1, e1⟩ := State.completeSegment_boundBut (B.but h)
    exact State.updHead_bindingsOk (fun _ => rfl) (State.planPoint_bindingsOk e1 B1.ok)
  all_goals rename_i e
  · exact maker _ (State.closeRow_boundBut (B.but h)) (by simp [e])
  all_goals exact maker _ (B.but h) (by simp [e])

theorem State.cutWaitExpiry_bindingsOk (B : t.BindingsOk) : (t.cutWaitExpiry h).BindingsOk := by
  unfold State.cutWaitExpiry
  split
  · exact State.completeCut_bindingsOk B
  · exact B

theorem State.runFall_bindingsOk (B : t.BindingsOk) : (t.runFall h).BindingsOk := by
  have B1 : (t.updHead h fun x => { x with runHigh := false }).BindingsOk := State.updHead_bindingsOk (fun _ => rfl) B
  unfold State.runFall
  dsimp only
  split
  all_goals rename_i e
  all_goals first
    | exact B1
    | exact (State.updHead_boundBut_of (by simp [Head.grip, e, HeadState.takesFeeds]) (B1.but h)).ok
    | skip
  split
  · exact State.completeCut_bindingsOk B1
  · exact B1

theorem State.storeFullNotification_bindingsOk (B : t.BindingsOk) : (t.storeFullNotification h).BindingsOk := by
  have B1 : (t.updHead h fun x => { x with notified := false }).BindingsOk := State.updHead_bindingsOk (fun _ => rfl) B
  unfold State.storeFullNotification
  dsimp only
  split
  · split
    · rename_i e
      refine State.planPoint_bindingsOk (fun _ => ?_) B1
      rw [State.updHead_head]
      exact B.waiting h (Or.inr e)
    · exact B1
  · exact B

theorem State.enqueue_bindingsOk {o : CoilOrder} (B : t.BindingsOk) : (t.enqueue h o).BindingsOk := by
  have B1 : (t.updHead h fun x => { x with queue := x.queue ++ [o] }).BindingsOk := State.updHead_bindingsOk (fun _ => rfl) B
  unfold State.enqueue
  dsimp only
  split
  · rename_i e
    refine State.planPoint_bindingsOk (fun _ => ?_) B1
    rw [State.updHead_head]
    exact B.waiting h (Or.inl e.2)
  · exact B1

/-! ## Binding requests -/

/-- A record whose state is that of no role is bound to no head. -/
theorem State.BindingsOk.unbound {n : Nat} {r : Record} (B : t.BindingsOk) (er : t.find n = some r) (hs : r.state.loose = true) :
    r.bound = none := by
  cases e : r.bound with
  | none => rfl
  | some p =>
    have := (B.tied n r er).held p.1 p.2 e
    rw [this] at hs
    cases hp : p.2 <;> rw [hp] at hs <;> cases hs

/-- A head that is IDLE names no record. -/
theorem State.BindingsOk.names_none (B : t.BindingsOk) (e : (t.head h).state = .idle) (ro : Role) : (t.head h).named ro = none := by
  by_contra hn
  obtain ⟨n, en⟩ := Option.ne_none_iff_exists'.mp hn
  obtain ⟨_, _, _, _, _, _, ea⟩ := B.named h ro n en
  rw [e] at ea
  cases ea

theorem Head.bindProduct_named (n : Nat) (b : Body) (x : Head) (ro : Role) :
    (x.bindProduct n b).named ro = if ro = .product then some n else none := by
  cases ro with
  | product => rfl
  | feed m => exact requiredSlots_strand b m
  | source => rfl
  | segment => rfl

@[simp] theorem State.joinResumed_boundBut {r : Record} (B : t.BoundBut g X K) : (t.joinResumed h r).BoundBut g X K := by
  unfold State.joinResumed
  split <;> simp (maxDischargeDepth := 20) [B]

@[simp] theorem State.addEmptyFeeds_boundBut {r : Record} (B : t.BoundBut g X K) : (t.addEmptyFeeds h r).BoundBut g X K := by
  unfold State.addEmptyFeeds
  split
  · refine State.foldl_boundBut (fun v n H => ?_) _ B
    split <;> simp (maxDischargeDepth := 20) [H]
  all_goals exact B

/-- BIND_PRODUCT (R66, R67). -/
theorem State.bindProduct_bindingsOk {r : Record} {k : RecordKind} (er : t.find r.tag = some r)
    (ek : (t.head h).kind.bind MachineKind.product = some k) (hk : r.kind = k) (hi : (t.head h).state = .idle)
    (hs : r.state = .draft ∨ r.state = .interrupted) (B : t.BindingsOk) : (t.bindProduct h r).BindingsOk := by
  obtain ⟨mk, e1, e2⟩ := Option.bind_eq_some_iff.mp ek
  have hn := B.names_none hi
  have B1 : ((t.updRec r.tag fun x => x.bindAs .making h .product).updHead h fun x => x.bindProduct r.tag r.body).BoundBut h noRole
      fun k => (t.head k).kind := by
    have w : ∀ ro, (((t.updRec r.tag fun x => x.bindAs .making h .product).updHead h fun x => x.bindProduct r.tag r.body).head
        h).named ro = if ro = .product then some r.tag else none := fun ro => by
      rw [State.updHead_head]
      exact Head.bindProduct_named _ _ _ ro
    refine (B.but h).bind (r := r.bindAs .making h .product) (n := r.tag) (ro := .product) (k := mk) (fun m em => ?_)
      (fun q eq => ?_) ?_ rfl (Record.Tied.of_bound rfl rfl (fun _ => ?_) fun e => absurd rfl e) e1 ?_ ?_
      (fun j ej => State.updHead_head_ne _ _ ej) ?_ (fun x ex => ?_) ?_ (hn _) (fun m em => ?_) (fun em => ?_) fun _ => ?_
    · rw [State.updHead_find, State.find_updRec_ne (Record.bindAs_tag _ _ _) em]
    · rw [er] at eq
      cases eq
      exact B.unbound er (by rcases hs with hs | hs <;> rw [hs] <;> rfl)
    · rw [State.updHead_find, State.find_updRec (Record.bindAs_tag _ _ _), er]
      rfl
    · show some r.state = _ ∨ some r.state = _
      rcases hs with hs | hs <;> simp [hs]
    · show mk.binds r.kind .product = true
      simp [MachineKind.binds, hk, e2]
    · rw [State.updHead_head]
      rfl
    · rw [State.updHead_head]
      rfl
    · rw [w, if_neg ex, hn]
    · rw [w, if_pos rfl]
    · rw [w] at em
      simp at em
    · rw [w] at em
      simp at em
    · rw [w]
      simp
  unfold State.bindProduct
  exact (State.addEmptyFeeds_boundBut (State.joinResumed_boundBut B1)).ok

theorem Head.bindSource_named (n : Nat) (x : Head) (ro : Role) :
    (x.bindSource n).named ro = if ro = .source then some n else none := by
  cases ro with
  | source => rfl
  | feed m => exact Head.free_named .ready x (.feed m)
  | product => rfl
  | segment => rfl

/-- BIND_SOURCE (R68). -/
theorem State.bindSource_bindingsOk {n : Nat} {r : Record} (er : t.find n = some r) (ek : (t.head h).kind = some .coiler)
    (hk : r.kind = .rope) (hi : (t.head h).state = .idle) (hs : r.state = .made) (B : t.BindingsOk) :
    (t.bindSource h n).BindingsOk := by
  have hn := B.names_none hi
  have w : ∀ ro, (((t.updRec n fun x => x.bindAs .inUse h .source).updHead h fun x => x.bindSource n).head
      h).named ro = if ro = .source then some n else none := fun ro => by
    rw [State.updHead_head]
    exact Head.bindSource_named _ _ ro
  have B1 : ((t.updRec n fun x => x.bindAs .inUse h .source).updHead h fun x => x.bindSource n).BoundBut h noRole
      fun k => (t.head k).kind := by
    refine (B.but h).bind (r := r.bindAs .inUse h .source) (n := n) (ro := .source) (k := .coiler) (fun m em => ?_)
      (fun q eq => ?_) ?_ rfl (Record.Tied.of_bound rfl rfl (fun e => by cases e) fun _ => rfl) ek ?_ ?_
      (fun j ej => State.updHead_head_ne _ _ ej) ?_ (fun x ex => ?_) ?_ (hn _) (fun m em => ?_) (fun em => ?_) fun _ => ?_
    · rw [State.updHead_find, State.find_updRec_ne (Record.bindAs_tag _ _ _) em]
    · rw [er] at eq
      cases eq
      exact B.unbound er (by rw [hs]; rfl)
    · rw [State.updHead_find, State.find_updRec (Record.bindAs_tag _ _ _), er]
      rfl
    · show MachineKind.coiler.binds r.kind .source = true
      simp [MachineKind.binds, hk]
    · rw [State.updHead_head]
      rfl
    · rw [State.updHead_head]
      rfl
    · rw [w, if_neg ex, hn]
    · rw [w, if_pos rfl]
    · rw [w] at em
      simp at em
    · rw [w] at em
      simp at em
    · rw [w]
      simp
  unfold State.bindSource
  exact State.planPoint_bindingsOk (fun _ => by rw [w]; simp) B1.ok

@[simp] theorem State.judgeTop_boundBut {n : SlotIx} {b : StrandBody} {q : Record} (B : t.BoundBut g X K) :
    (t.judgeTop h n b q).BoundBut g X K := by
  unfold State.judgeTop
  dsimp only
  repeat' split
  all_goals simp (maxDischargeDepth := 20) [B]

/-- BIND_FEED (R120, R121). -/
theorem State.bindFeed_bindingsOk {n : SlotIx} {r q : Record} {b : StrandBody} (er : t.find r.tag = some r)
    (ha : (t.head h).state.takesFeeds = true) (hsl : (t.head h).hasSlot n = true) (h0 : ((t.head h).slot n).strand = none)
    (hk : r.body = .strand b) (hs : r.state = .made) (hq : t.productOf h = some q) (B : t.BindingsOk) :
    (t.bindFeed h n r b q).BindingsOk := by
  have hp : (t.head h).product ≠ none := fun e => by simp [State.productOf, e] at hq
  obtain ⟨mk, e1, e2⟩ : ∃ mk, (t.head h).kind = some mk ∧ mk.hasSlot n = true := by
    unfold Head.hasSlot at hsl
    split at hsl
    · rename_i mk e
      exact ⟨mk, e, hsl⟩
    · cases hsl
  have ft : ∀ x : Record, ((x.bindAs .inUse h (.feed n)).onStrand fun y => { y with fraction := 0 }).tag = x.tag := fun x => by simp
  have ht := Record.onStrand_tie (fun y => { y with fraction := 0 }) (r.bindAs .inUse h (.feed n))
  simp only [Record.tie, Prod.mk.injEq] at ht
  have w : ∀ ro, (((t.updRec r.tag fun x => (x.bindAs .inUse h (.feed n)).onStrand fun y => { y with fraction := 0 }).updSlot h n
      fun x => { required := x.required, strand := some r.tag }).head h).named ro =
      if ro = .feed n then some r.tag else (t.head h).named ro := fun ro => by
    rw [State.updSlot_head, State.updRec_head]
    cases ro with
    | feed m =>
      by_cases e : m = n
      · subst e
        simp [Head.named]
      · simp [Head.named, Head.updSlot_slot_ne _ _ e, e]
    | product => rfl
    | source => rfl
    | segment => rfl
  have B1 : ((t.updRec r.tag fun x => (x.bindAs .inUse h (.feed n)).onStrand fun y => { y with fraction := 0 }).updSlot h n
      fun x => { required := x.required, strand := some r.tag }).BoundBut h noRole fun k => (t.head k).kind := by
    refine (B.but h).bind (r := (r.bindAs .inUse h (.feed n)).onStrand fun y => { y with fraction := 0 }) (n := r.tag) (ro := .feed n)
      (k := mk) (fun m em => ?_) (fun q eq => ?_) ?_ ht.2.2.1 (Record.Tied.of_bound ht.2.2.1 ht.2.1 (fun e => by cases e) fun _ => ht.2.2.2)
      e1 ?_ ?_ (fun j ej => State.updSlot_head_ne _ _ _ ej) ?_ (fun x ex => ?_) ?_ h0 (fun m em => ?_) (fun em => ?_) fun hw => ?_
    · rw [State.updSlot_find, State.find_updRec_ne ft em]
    · rw [er] at eq
      cases eq
      exact B.unbound er (by rw [hs]; rfl)
    · rw [State.updSlot_find, State.find_updRec ft, er]
      rfl
    · rw [ht.1]
      show mk.binds r.kind (.feed n) = true
      simp [MachineKind.binds, e2, Record.kind, hk, Body.kind]
    · rw [State.updSlot_head]
      exact ha
    · rw [State.updSlot_head]
      rfl
    · rw [w, if_neg ex]
    · rw [w, if_pos rfl]
    · rw [State.updSlot_head]
      exact hp
    · rw [w] at em
      rw [State.updSlot_head]
      exact B.coils h (by simpa using em)
    · rw [State.updSlot_head] at hw
      rw [w]
      simpa using B.waiting h hw
  unfold State.bindFeed
  dsimp only
  split <;> exact (by simp (maxDischargeDepth := 20) [B1] : State.BoundBut h noRole (fun k => (t.head k).kind) _).ok

@[simp] theorem State.emptySlot_boundBut {n : SlotIx} {q : Record} (B : t.BoundBut g X K) : (t.emptySlot h n q).BoundBut g X K := by
  unfold State.emptySlot
  repeat' split
  all_goals simp (maxDischargeDepth := 20) [B]

/-- UNBIND_FEED (R122, R123). -/
theorem State.unbindFeed_bindingsOk {n : SlotIx} {q : Record} (B : t.BindingsOk) : (t.unbindFeed h n q).BindingsOk := by
  have B1 := State.emptySlot_boundBut (h := h) (n := n) (q := q)
    (State.unbindSlot_boundBut (st := .made) (pos := q.made) (n := n) rfl (B.but h))
  unfold State.unbindFeed
  dsimp only
  split
  · exact (State.addHoldFeed_boundBut B1).ok
  · exact B1.ok

/-! ## Requests -/

/-- A whole change keeps the bindings when the change does. -/
theorem State.change_bindingsOk {f : State → State} (B : (f t).BindingsOk) : (t.change f).BindingsOk :=
  (State.commit_boundBut (B.but 0)).ok

theorem State.doneMark_bindingsOk {n : Nat} {f : State → State} (B : (f t).BindingsOk) : (t.doneMark n f).1.BindingsOk :=
  State.change_bindingsOk B

theorem State.BindingsOk.of_fields (B : t.BindingsOk) (e : u.store = t.store) (e1 : u.heads = t.heads) : u.BindingsOk :=
  ((B.but 0).of_fields e e1).ok

/-- A record bound to no head moves between states in which it is bound to none. -/
theorem State.updRec_loose {n : Nat} {r : Record} {f : Record → Record} (hf : ∀ r, (f r).tag = r.tag) (er : t.find n = some r)
    (e0 : r.bound = none) (L : (f r).Loose) (B : t.BindingsOk) : (t.updRec n f).BindingsOk where
  named k ro m e := by
    obtain ⟨q, kd, e1, e2, e3, e4, e5⟩ := B.named k ro m e
    have em : m ≠ n := fun em => by
      rw [em, er] at e1
      cases e1
      rw [e0] at e2
      cases e2
    exact ⟨q, kd, by rw [State.find_updRec_ne hf em]; exact e1, e2, e3, e4, e5⟩
  bound m y k ro e ey := by
    by_cases em : m = n
    · subst em
      rw [State.find_updRec hf, er] at e
      cases e
      rw [L.bound] at ey
      cases ey
    · rw [State.find_updRec_ne hf em] at e
      exact B.bound m y k ro e ey
  tied m y e := by
    by_cases em : m = n
    · subst em
      rw [State.find_updRec hf, er] at e
      cases e
      exact L.tied
    · rw [State.find_updRec_ne hf em] at e
      exact B.tied m y e
  feeds := B.feeds
  coils := B.coils
  waiting := B.waiting

/-- A record in a state of no role holds no state it was bound from. -/
theorem State.BindingsOk.since_none {n : Nat} {r : Record} (B : t.BindingsOk) (er : t.find n = some r) (e0 : r.bound = none) :
    r.boundFrom = none := (B.tied n r er).plain fun k => by simp [e0]

theorem Body.setSpecs_kind (l : List Item) (b : Body) : (l.foldl (fun b it => b.setSpec it) b).kind = b.kind :=
  (Body.setSpecs_ok l b).2.1

theorem State.amend_bindingsOk {n : Nat} {l : List Item} (B : t.BindingsOk) : (t.amend n l).BindingsOk := by
  have B1 : (t.updRec n fun r => { r with body := l.foldl (fun b it => b.setSpec it) r.body }).BindingsOk :=
    (State.updRec_boundBut (fun r => by cases r; rfl) (fun r => by simp [Record.tie, Record.kind, Body.setSpecs_kind]) (B.but 0)).ok
  unfold State.amend
  dsimp only
  repeat' split
  all_goals first
    | exact B1
    | exact (State.checkEnd_boundBut (B1.but 0)).ok

theorem State.addSpanTo_bindingsOk {r : Record} {n : Span} (B : t.BindingsOk) : (t.addSpanTo r n).BindingsOk := by
  have B0 := B.but 0
  unfold State.addSpanTo
  dsimp only
  repeat' split
  all_goals exact (by simp (maxDischargeDepth := 20) [B0] : State.BoundBut 0 noRole (fun k => (t.head k).kind) _).ok

theorem State.leave_bindingsOk {n : Nat} {r : Record} (er : t.find n = some r) (e0 : r.bound = none) (B : t.BindingsOk) :
    (t.leave n).BindingsOk :=
  ((State.leave_boundBut (g := 0) er (fun k ro e => by rw [e0] at e; cases e) (B.but 0)).congr fun ro => by
    simp [e0]).ok

theorem answerRecords_bindingsOk {p : Port} {tag a k st first kind lo hi : Nat} {m : Mark} {l : List Item} (B : t.BindingsOk) :
    (answerLookup tag t).1.BindingsOk ∧ (answerNext a k st t).1.BindingsOk ∧ (answerReadSpans tag t).1.BindingsOk ∧
      (answerReadSources tag first t).1.BindingsOk ∧ (answerCreate p tag kind l t).1.BindingsOk ∧
      (answerAmend p tag m l t).1.BindingsOk ∧ (answerAddSpan p tag m lo hi kind t).1.BindingsOk ∧
      (answerConclude p tag m t).1.BindingsOk ∧ (answerBand p tag m t).1.BindingsOk ∧ (answerRetire p tag m t).1.BindingsOk := by
  refine ⟨?_, ?_, ?_, ?_, ?_, ?_, ?_, ?_, ?_, ?_⟩
  · unfold answerLookup
    split <;> exact B
  · unfold answerNext
    repeat' split
    all_goals exact B
  · unfold answerReadSpans
    repeat' split
    all_goals exact B
  · unfold answerReadSources
    repeat' split
    all_goals exact B.of_fields rfl rfl
  · unfold answerCreate
    split
    · exact B
    split
    · exact B
    rename_i hl
    repeat' split
    all_goals
      first
      | exact B.of_fields rfl rfl
      | exact State.change_bindingsOk
          (State.enter_boundBut (r := Record.fresh tag .draft t.clock.seconds _) (by simpa using hl) ⟨rfl, rfl, rfl⟩ (B.but 0)).ok
  · unfold answerAmend
    repeat' split
    all_goals first | exact B | exact State.doneMark_bindingsOk (State.amend_bindingsOk B)
  · unfold answerAddSpan
    dsimp only
    repeat' split
    all_goals first | exact B | exact State.doneMark_bindingsOk (State.addSpanTo_bindingsOk B)
  · unfold answerConclude
    split
    · exact B
    split
    · exact B
    rename_i r er
    split
    · exact B
    split
    · exact B
    rename_i hs
    split
    · exact B
    have e0 := B.unbound er (by rw [Decidable.not_not.mp hs]; rfl)
    have e1 := B.since_none er e0
    exact State.doneMark_bindingsOk (State.updRec_loose (fun r => by cases r; rfl) er e0 ⟨e0, rfl, e1⟩ B)
  · unfold answerBand
    split
    · exact B
    split
    · exact B
    rename_i r er
    split
    · exact B
    split
    · exact B
    rename_i hs
    split
    · exact B
    have e0 := B.unbound er (by rw [Decidable.not_not.mp hs]; rfl)
    have ht := fun f => Record.onCoil_tie f r
    simp only [Record.tie, Prod.mk.injEq] at ht
    exact State.doneMark_bindingsOk (State.updRec_loose (fun r => Record.onCoil_tag _ r) er e0
      ⟨(ht _).2.2.1.trans e0, rfl, (ht _).2.2.2.trans (B.since_none er e0)⟩ B)
  · unfold answerRetire
    split
    · exact B
    split
    · exact B
    rename_i r er
    split
    · exact B
    rename_i hs
    split
    · exact B
    refine State.change_bindingsOk (State.leave_bindingsOk er (B.unbound er ?_) B)
    revert hs
    cases r.state <;> simp [RecordState.retirable, RecordState.loose]

theorem answerBinds_bindingsOk {p : Port} {n sl tag : Nat} {m : Mark} (B : t.BindingsOk) :
    (answerBindProduct p n tag m t).1.BindingsOk ∧ (answerBindSource p n tag m t).1.BindingsOk ∧
      (answerBindFeed p n sl tag m t).1.BindingsOk ∧ (answerUnbindFeed p n sl t).1.BindingsOk ∧
      (answerRelease p n t).1.BindingsOk := by
  refine ⟨?_, ?_, ?_, ?_, ?_⟩
  · unfold answerBindProduct
    split
    · exact B
    split
    · exact B
    split
    · exact B
    rename_i r er
    split
    · exact B
    rename_i k ek
    split
    · exact B
    rename_i hk
    split
    · exact B
    rename_i hi
    split
    · exact B
    rename_i hs
    split
    · exact B
    have et := (State.find_mem er).2
    exact State.doneMark_bindingsOk (State.bindProduct_bindingsOk (et.symm ▸ er) ek (Decidable.not_not.mp hk) (Decidable.not_not.mp hi)
      (by by_contra hc; exact hs ⟨fun e => hc (Or.inl e), fun e => hc (Or.inr e)⟩) B)
  · unfold answerBindSource
    split
    · exact B
    split
    · exact B
    split
    · exact B
    rename_i r er
    split
    · exact B
    rename_i ek
    split
    · exact B
    rename_i hk
    split
    · exact B
    rename_i hi
    split
    · exact B
    rename_i hs
    split
    · exact B
    exact State.doneMark_bindingsOk (State.bindSource_bindingsOk er (Decidable.not_not.mp ek) (Decidable.not_not.mp hk)
      (Decidable.not_not.mp hi) (Decidable.not_not.mp hs) B)
  · unfold answerBindFeed
    split
    · exact B
    split
    · exact B
    split
    · exact B
    rename_i r er
    split
    · exact B
    split
    · exact B
    · exact B
    · exact B
    rename_i b eb
    split
    · exact B
    rename_i ha
    split
    · exact B
    rename_i hf
    split
    · exact B
    rename_i hs
    split
    · exact B
    split
    · exact B
    · exact B
    rename_i i q ei eq
    split
    · exact B
    have et := (State.find_mem er).2
    have hf' := hf
    simp only [Head.slotFree, ei, Bool.not_eq_true', Bool.not_eq_false, Bool.and_eq_true, Option.isNone_iff_eq_none] at hf'
    exact State.doneMark_bindingsOk (State.bindFeed_bindingsOk (et.symm ▸ er) (by simpa using ha) hf'.1 hf'.2 eb
      (Decidable.not_not.mp hs) eq B)
  · unfold answerUnbindFeed
    repeat' split
    all_goals first | exact B | exact State.change_bindingsOk (State.unbindFeed_bindingsOk B)
  · unfold answerRelease
    repeat' split
    all_goals first | exact B | exact State.change_bindingsOk (State.releaseHead_bindingsOk B)

theorem answerQueues_bindingsOk {p : Port} {n len c gr : Nat} {l : List Item} (B : t.BindingsOk) :
    (answerEnqueue p n len c gr t).1.BindingsOk ∧ (answerClearQueue p n t).1.BindingsOk ∧ (answerHeadStatus n t).1.BindingsOk ∧
      (answerSetHead p n l t).1.BindingsOk := by
  refine ⟨?_, ?_, ?_, ?_⟩
  · unfold answerEnqueue
    dsimp only
    repeat' split
    all_goals first | exact B | exact State.change_bindingsOk (State.enqueue_bindingsOk B)
  · unfold answerClearQueue
    repeat' split
    all_goals first
      | exact B
      | exact State.updHead_bindingsOk (fun x => by cases e : x.segment <;> simp [Head.grip, Head.clearQueue, e]) B
  · unfold answerHeadStatus
    split <;> exact B.of_fields rfl rfl
  · unfold answerSetHead
    dsimp only
    repeat' split
    all_goals first | exact B | exact State.updHead_bindingsOk (fun _ => rfl) B

/-! ## Ticks and ports -/

/-- Every head changed so that its grip stays. -/
theorem State.BindingsOk.of_heads (B : t.BindingsOk) (e : u.store = t.store) (hh : ∀ k, (u.head k).grip = (t.head k).grip) :
    u.BindingsOk := ((B.but 0).of_same (fun n => by simp only [State.find, e]) hh).ok

theorem State.tick_bindingsOk {pins : Vector SensePins 16} (B : t.BindingsOk) : (t.tick pins).BindingsOk :=
  B.of_heads rfl fun k => by
    rw [State.tick_head]
    unfold Head.tick Head.sample
    split <;> rfl

theorem State.trimPeriod_bindingsOk (B : t.BindingsOk) : t.trimPeriod.BindingsOk :=
  B.of_heads rfl fun k => by rw [State.trimPeriod_head]

/-- A store without records and heads that name none. -/
theorem State.afterReset_bindingsOk (s : State) : s.afterReset.BindingsOk := by
  have hn : ∀ k ro, (s.afterReset.head k).named ro = none := fun k ro => by
    rw [State.afterReset_head]
    cases ro with
    | feed n => simp [Head.named, Head.slot, Head.afterReset, Head.reset]
    | product => rfl
    | source => rfl
    | segment => rfl
  have hs : ∀ n, s.afterReset.find n = none := fun n => rfl
  refine ⟨fun k ro n e => ?_, fun n r k ro e => ?_, fun n r e => ?_, fun k n e => ?_, fun k e => ?_, fun k _ => hn k _⟩
  · rw [hn] at e
    cases e
  · rw [hs] at e
    cases e
  · rw [hs] at e
    cases e
  · exact absurd (hn k _) e
  · exact absurd (hn k _) e

theorem State.respond_bindingsOk {p : Port} {b : List Byte} (B : t.BindingsOk) : (t.respond p b).BindingsOk := by
  cases p <;> exact B.of_fields rfl rfl

/-- A request keeps the bindings when its answer does. -/
theorem State.takeRequest_bindingsOk {p : Port} {c : Instr} {answer : State → State × Reply} (B : t.BindingsOk)
    (ha : (answer t).1.BindingsOk) : (t.takeRequest p c answer).BindingsOk := by
  unfold State.takeRequest
  dsimp only
  repeat' split
  all_goals first
    | exact B
    | exact State.respond_bindingsOk ha

theorem answerDevice_bindingsOk {p : Port} {n : Nat} {w : FlagWord} {l : List Item} (B : t.BindingsOk) :
    (answerSetClock p n t).1.BindingsOk ∧ (answerReadEvents p t).1.BindingsOk ∧ (answerClearEvents p w t).1.BindingsOk ∧
      (answerSetDevice p l t).1.BindingsOk := by
  refine ⟨?_, ?_, ?_, ?_⟩
  · unfold answerSetClock
    split <;> exact B.of_fields rfl rfl
  · unfold answerReadEvents
    repeat' split
    all_goals exact B.of_fields rfl rfl
  · unfold answerClearEvents
    dsimp only
    split <;> exact B.of_fields rfl rfl
  · unfold answerSetDevice
    dsimp only
    repeat' split
    · exact B
    · exact B
    · have key : ∀ (l : List Item) (v : State), v.BindingsOk → (l.foldl (fun t it => match it.value with
          | some v => t.writeDevice it.number v
          | none => t) v).BindingsOk := by
        intro l
        induction l with
        | nil => exact fun _ Bv => Bv
        | cons a l ih =>
          intro v Bv
          rw [List.foldl_cons]
          apply ih
          split
          · refine Bv.of_fields ?_ (State.writeDevice_heads _ _)
            unfold State.writeDevice
            repeat' split
            all_goals rfl
          · exact Bv
      exact key _ _ B

theorem State.spiFrame_bindingsOk {e : FrameEdges} {l : List Byte} (B : t.BindingsOk) : (t.spiFrame e l).BindingsOk := B.of_fields rfl rfl

theorem State.updLink_bindingsOk {f : PanelLink → PanelLink} (B : t.BindingsOk) : (t.updLink f).BindingsOk := B.of_fields rfl rfl

theorem State.slotEnd_bindingsOk {l : List LineByte} (B : t.BindingsOk) : (t.slotEnd l).BindingsOk := by
  unfold State.slotEnd
  dsimp only
  repeat' split
  all_goals exact B.of_fields rfl rfl

end Sys2Proof.Machine
end

