-- ==== Sys2Proof/Laws/LinePort.lean ====
section
/-! SUPPORT. The line computer port: what the parts of a frame do, and that a frame may be taken in stretches. -/

namespace Sys2Proof.Machine

variable {p : LinePort} {b : Byte} {n : Nat} {e x : FrameEdges} {l : List Byte}

@[simp] theorem LinePort.begin_none : p.begin none = p.select := rfl

@[simp] theorem LinePort.begin_some : p.begin (some n) = p := rfl

@[simp] theorem LinePort.finish_none : p.finish none = p.deselect := rfl

@[simp] theorem LinePort.finish_some : p.finish (some n) = p := rfl

@[simp] theorem LinePort.select_phase : p.select.phase = .code := rfl

@[simp] theorem LinePort.select_status : p.select.status = p.statusByte := rfl

@[simp] theorem LinePort.select_inProgress : p.select.inProgress = p.inProgress := rfl

@[simp] theorem LinePort.select_unread : p.select.unread = p.unread := rfl

@[simp] theorem LinePort.select_lastRefused : p.select.lastRefused = p.lastRefused := rfl

@[simp] theorem LinePort.select_lastMalformed : p.select.lastMalformed = p.lastMalformed := rfl

@[simp] theorem LinePort.select_shifted : p.select.shifted = [] := rfl

/-- A port in phase NONE takes no byte (R176). -/
theorem LinePort.takeByte_noFrame (h : p.phase = .noFrame) : p.takeByte b = p := by simp [LinePort.takeByte, h]

/-- The rise of chip select does nothing in phase NONE (R176). -/
theorem LinePort.deselect_noFrame (h : p.phase = .noFrame) : p.deselect = p := by simp [LinePort.deselect, h]

/-- A port in phase NONE takes no bytes (R176). -/
theorem LinePort.takeBytes_noFrame (h : p.phase = .noFrame) : l.foldl LinePort.takeByte p = p := by
  induction l with
  | nil => rfl
  | cons b l ih => rw [List.foldl_cons, LinePort.takeByte_noFrame h, ih]

/-- What is left of a frame that RESET_N has cut off is ignored (R176). -/
theorem LinePort.frame_noFrame (h : p.phase = .noFrame) (hx : x.resumes ≠ none) : p.frame x l = p := by
  obtain ⟨m, hm⟩ := Option.ne_none_iff_exists'.mp hx
  rw [LinePort.frame, hm, LinePort.begin_some, LinePort.takeBytes_noFrame h, LinePort.finish]
  split
  · exact LinePort.deselect_noFrame h
  · rfl

/-- The bytes of two stretches that follow one another are those of the two together. -/
theorem frameStretch_cut (hr : x.resumes.getD 0 ≤ n) (hp : ∀ k, x.pauses = some k → n ≤ k) :
    frameStretch { x with pauses := some n } l ++ frameStretch { x with resumes := some n } l = frameStretch x l := by
  obtain ⟨bits, r, z⟩ := x
  have key : ∀ m : List Byte, l.take n = m.take n → (l.take n).drop (r.getD 0) ++ m.drop n = m.drop (r.getD 0) := by
    intro m hm
    rw [hm]
    conv_rhs => rw [← List.take_append_drop n m]
    rw [List.drop_append]
    by_cases hl : n ≤ m.length
    · have hz : r.getD 0 - (m.take n).length = 0 := by
        rw [List.length_take]
        simp only at hr
        omega
      rw [hz, List.drop_zero]
    · have hz : m.drop n = [] := List.drop_of_length_le (by omega)
      rw [hz, List.drop_nil]
  cases z with
  | none => exact key l rfl
  | some k => exact key (l.take k) (by rw [List.take_take, Nat.min_eq_left (hp k rfl)])

/-- A frame, or a stretch of one, may be cut in two at any whole byte. -/
theorem LinePort.frame_cut (hr : x.resumes.getD 0 ≤ n) (hp : ∀ k, x.pauses = some k → n ≤ k) :
    (p.frame { x with pauses := some n } l).frame { x with resumes := some n } l = p.frame x l := by
  simp only [LinePort.frame, LinePort.finish_some, LinePort.begin_some]
  rw [← List.foldl_append, frameStretch_cut hr hp]

end Sys2Proof.Machine
end

