-- ==== Sys2Proof/Laws/Meter.lean ====
section
/-! SUPPORT. What work at a head leaves of the head's meters and of what has been raised: the pitch fraction, MARK, the trim code and
the last measurements stand, and a flag or an alarm cause once set stays set. For each shared operation, the one lemma that says so. -/

namespace Sys2Proof.Machine

variable {h : HeadIx} {s t u : State}

/-- The measuring state of a head and what names its product. -/
abbrev Head.meter (x : Head) :=
  (x.accepted, x.settings, x.product, x.source, x.pitchFraction, x.limitNoted, x.markHigh, x.trim, x.lastLay, x.lastDeviation,
    x.runHigh, x.flawHigh)

/-- The meters of head `h` stand, and what was raised stays raised. -/
structure State.Carries (h : HeadIx) (s t : State) : Prop where
  meter : (t.head h).meter = (s.head h).meter
  flags : ∀ k, s.attn.flag k = true → t.attn.flag k = true
  causes : ∀ k x, (s.attn.causesOf k).has x = true → (t.attn.causesOf k).has x = true

theorem State.Carries.refl (h : HeadIx) (s : State) : s.Carries h s := ⟨rfl, fun _ e => e, fun _ _ e => e⟩

theorem State.Carries.trans (a : s.Carries h t) (b : t.Carries h u) : s.Carries h u :=
  ⟨b.meter.trans a.meter, fun k e => b.flags k (a.flags k e), fun k x e => b.causes k x (a.causes k x e)⟩

theorem State.Carries.of_eq (H : s.Carries h t) (e : (u.head h).meter = (t.head h).meter) (ea : u.attn = t.attn) : s.Carries h u :=
  H.trans ⟨e, fun _ x => by rw [ea]; exact x, fun _ _ x => by rw [ea]; exact x⟩

@[simp] theorem State.updHead_carries {f : Head → Head} (hf : ∀ x, (f x).meter = x.meter) (H : s.Carries h t) :
    s.Carries h (t.updHead h f) := H.of_eq (by simp only [State.updHead_head]; exact hf _) rfl

@[simp] theorem State.updSlot_carries {n : SlotIx} {f : FeedSlot → FeedSlot} (H : s.Carries h t) :
    s.Carries h (t.updSlot h n f) := State.updHead_carries (fun _ => rfl) H

@[simp] theorem State.updRec_carries {n : Nat} {f : Record → Record} (H : s.Carries h t) : s.Carries h (t.updRec n f) :=
  H.of_eq rfl rfl

@[simp] theorem State.commit_carries {b : State} (H : s.Carries h t) : s.Carries h (b.commit t) := H.of_eq rfl rfl

theorem Attention.setFlag_flag (a : Attention) (n k : Nat) (e : a.flag k = true) : (a.setFlag n).flag k = true := by
  have : a.flags.getLsbD k = true := e
  simp [Attention.flag, Attention.setFlag, this]

theorem Attention.setFlag_self (a : Attention) {n : Nat} (hn : n < 66) : (a.setFlag n).flag n = true := by
  have : (flagBit n).getLsbD n = true := by
    unfold flagBit
    rw [BitVec.getLsbD_ofNat]
    simp [hn]
  simp [Attention.flag, Attention.setFlag, this]

theorem flagNumber_lt (h : HeadIx) (f : HeadFlag) : flagNumber h f < 66 := by
  cases f <;> simp only [flagNumber] <;> omega

theorem State.raise_flagged (s : State) (h : HeadIx) (f : HeadFlag) : (s.raise h f).flagged h f = true :=
  Attention.setFlag_self _ (flagNumber_lt h f)

theorem State.raiseAlarm_flagged (s : State) (h : HeadIx) (x : Alarm) : (s.raiseAlarm h x).flagged h .alarm = true :=
  Attention.setFlag_self _ (flagNumber_lt h .alarm)

theorem AlarmSet.add_has (a : AlarmSet) (x y : Alarm) : (a.add x).has y = (decide (x = y) || a.has y) := by
  cases x <;> cases y <;> rfl

theorem State.raiseAlarm_causes (s : State) (h k : HeadIx) (x : Alarm) :
    (s.raiseAlarm h x).attn.causesOf k = if k = h then (s.attn.causesOf h).add x else s.attn.causesOf k := by
  show (s.attn.causes.set h.val _ h.isLt)[k.val] = _
  by_cases e : k = h
  · subst e
    simp
  · have : h.val ≠ k.val := fun e' => e (Fin.ext e'.symm)
    rw [Vector.getElem_set_ne _ _ this, if_neg e]
    rfl

theorem State.raiseAlarm_has (s : State) (h : HeadIx) (x : Alarm) : ((s.raiseAlarm h x).attn.causesOf h).has x = true := by
  rw [State.raiseAlarm_causes, if_pos rfl, AlarmSet.add_has]
  simp

@[simp] theorem State.raise_carries {k : HeadIx} {f : HeadFlag} (H : s.Carries h t) : s.Carries h (t.raise k f) :=
  H.trans ⟨rfl, fun _ e => Attention.setFlag_flag _ _ _ e, fun _ _ e => e⟩

@[simp] theorem State.raiseAlarm_carries {k : HeadIx} {x : Alarm} (H : s.Carries h t) : s.Carries h (t.raiseAlarm k x) :=
  H.trans ⟨rfl, fun _ e => Attention.setFlag_flag { t.attn with causes := _ } _ _ e, fun j y e => by
    rw [State.raiseAlarm_causes]
    split
    · rename_i ej
      subst ej
      rw [AlarmSet.add_has, e, Bool.or_true]
    · exact e⟩

@[simp] theorem State.raiseStore_carries {f : StoreCauses → StoreCauses} (H : s.Carries h t) : s.Carries h (t.raiseStore f) :=
  H.trans ⟨rfl, fun _ e => Attention.setFlag_flag { t.attn with storeCauses := _ } _ _ e, fun _ _ e => e⟩

@[simp] theorem State.raiseAt_carries {b : Option (HeadIx × Role)} {x : Alarm} (H : s.Carries h t) : s.Carries h (t.raiseAt b x) := by
  unfold State.raiseAt
  split <;> simp [H]

theorem State.foldl_carries {α : Type} {f : State → α → State} (hf : ∀ t a, s.Carries h t → s.Carries h (f t a)) (l : List α)
    (H : s.Carries h t) : s.Carries h (l.foldl f t) := by
  induction l generalizing t with
  | nil => exact H
  | cons a l ih => exact ih (hf t a H)

/-! ## Pieces -/

@[simp] theorem State.onPiece_carries {n : Nat} {f : Piece → Piece × Bool} (H : s.Carries h t) : s.Carries h (t.onPiece n f) := by
  unfold State.onPiece
  dsimp only
  repeat' split
  all_goals simp (maxDischargeDepth := 20) [H]

@[simp] theorem State.normalizeInto_carries {n : Nat} {x : Span} (H : s.Carries h t) : s.Carries h (t.normalizeInto n x) :=
  State.onPiece_carries H

@[simp] theorem State.addHolder_carries {n st : Nat} {x : Holder} (H : s.Carries h t) : s.Carries h (t.addHolder n x st) := by
  unfold State.addHolder
  repeat' split
  all_goals simp [H]

@[simp] theorem State.releaseHolder_carries {n : Nat} {x : Holder} (H : s.Carries h t) : s.Carries h (t.releaseHolder n x) :=
  State.onPiece_carries H

@[simp] theorem State.swapHolder_carries {n : Nat} {x y : Holder} (H : s.Carries h t) : s.Carries h (t.swapHolder n x y) :=
  State.onPiece_carries H

/-! ## The head's work -/

@[simp] theorem State.makerFlawRise_carries (H : s.Carries h t) : s.Carries h (t.makerFlawRise h) := by
  unfold State.makerFlawRise
  dsimp only
  repeat' split
  all_goals simp (maxDischargeDepth := 20) [H]

@[simp] theorem State.flawRises_carries (H : s.Carries h t) : s.Carries h (t.flawRises h) := by
  unfold State.flawRises
  split <;> simp (maxDischargeDepth := 20) [H]

@[simp] theorem State.enterHeld_carries (H : s.Carries h t) : s.Carries h (t.enterHeld h) := by
  unfold State.enterHeld
  dsimp only
  split <;> simp (maxDischargeDepth := 20) [H]

@[simp] theorem State.addHold_carries {x : HoldReason} (H : s.Carries h t) : s.Carries h (t.addHold h x) := by
  unfold State.addHold
  dsimp only
  repeat' split
  all_goals simp (maxDischargeDepth := 20) [H]

@[simp] theorem State.dropHold_carries {x : HoldReason} (H : s.Carries h t) : s.Carries h (t.dropHold h x) := by
  refine State.updHead_carries (fun y => ?_) H
  dsimp only
  split <;> rfl

@[simp] theorem State.enterCutting_carries (H : s.Carries h t) : s.Carries h (t.enterCutting h) := by
  unfold State.enterCutting
  split <;> simp (maxDischargeDepth := 20) [H]

@[simp] theorem State.checkEnd_carries (H : s.Carries h t) : s.Carries h (t.checkEnd h) := by
  unfold State.checkEnd
  repeat' split
  all_goals simp (maxDischargeDepth := 20) [H]

@[simp] theorem State.unbindSlot_carries {st : RecordState} {pos : Nat} {n : SlotIx} (H : s.Carries h t) :
    s.Carries h (t.unbindSlot h st pos n) := by
  unfold State.unbindSlot
  split
  · exact H
  · dsimp only
    split <;> simp (maxDischargeDepth := 20) [H]

@[simp] theorem State.checkLow_carries {n : SlotIx} {left : Nat} (H : s.Carries h t) : s.Carries h (t.checkLow h n left) := by
  unfold State.checkLow
  dsimp only
  split <;> simp (maxDischargeDepth := 20) [H]

@[simp] theorem State.passFeed_carries {rope : Nat} {n : SlotIx} {added : Bool} (H : s.Carries h t) :
    s.Carries h (t.passFeed rope n added) := by
  unfold State.passFeed
  split <;> simp (maxDischargeDepth := 20) [H]

@[simp] theorem State.takeUpSlot_carries {rope factor m m' : Nat} {n : SlotIx} (H : s.Carries h t) :
    s.Carries h (t.takeUpSlot h rope factor m m' n) := by
  unfold State.takeUpSlot
  dsimp only
  repeat' split
  all_goals simp (maxDischargeDepth := 20) [H]

@[simp] theorem State.takeUp_carries {m m' : Nat} (H : s.Carries h t) : s.Carries h (t.takeUp h m m') := by
  unfold State.takeUp
  repeat' split
  all_goals first
    | exact State.foldl_carries (fun _ _ K => State.takeUpSlot_carries K) _ H
    | exact H

@[simp] theorem State.chargeSlot_carries {amount pos : Nat} {a : State × Bool} {n : SlotIx} (H : s.Carries h a.1) :
    s.Carries h (State.chargeSlot h amount pos a n).1 := by
  unfold State.chargeSlot
  dsimp only
  repeat' split
  all_goals simp (maxDischargeDepth := 20) [H]

@[simp] theorem State.chargeRow_carries {amount pos : Nat} (H : s.Carries h t) : s.Carries h (t.chargeRow h amount pos).1 := by
  have K : s.Carries h ([(0 : SlotIx), 1].foldl (State.chargeSlot h amount pos) (t, false)).1 := by
    simp only [List.foldl_cons, List.foldl_nil]
    exact State.chargeSlot_carries (State.chargeSlot_carries H)
  unfold State.chargeRow
  dsimp only
  split
  · exact State.addHold_carries K
  · exact K

@[simp] theorem State.releaseGuard_carries {n m : Nat} (H : s.Carries h t) : s.Carries h (t.releaseGuard h n m) := by
  unfold State.releaseGuard
  split <;> simp (maxDischargeDepth := 20) [H]

@[simp] theorem State.releaseJoin_carries {n m : Nat} (H : s.Carries h t) : s.Carries h (t.releaseJoin h n m) := by
  unfold State.releaseJoin
  split <;> simp (maxDischargeDepth := 20) [H]

@[simp] theorem State.placeLay_carries {n : Nat} {w : LayWindow} {d : Int} (H : s.Carries h t) : s.Carries h (t.placeLay n w d) := by
  unfold State.placeLay
  split <;> simp (maxDischargeDepth := 20) [H]

@[simp] theorem State.countMissed_carries {n m : Nat} (H : s.Carries h t) : s.Carries h (t.countMissed h n m) := by
  unfold State.countMissed
  split <;> simp (maxDischargeDepth := 20) [H]

@[simp] theorem State.countRow_carries {n : Nat} {k : KindSet} (H : s.Carries h t) : s.Carries h (t.countRow n k) := by
  unfold State.countRow
  repeat' split
  all_goals simp (maxDischargeDepth := 20) [H]

@[simp] theorem State.closeRow_carries (H : s.Carries h t) : s.Carries h (t.closeRow h) := by
  unfold State.closeRow
  dsimp only
  repeat' split
  all_goals simp (maxDischargeDepth := 20) [H]

@[simp] theorem State.openRow_carries (H : s.Carries h t) : s.Carries h (t.openRow h) := by
  unfold State.openRow
  repeat' split
  all_goals simp (maxDischargeDepth := 20) [H]

end Sys2Proof.Machine
end

