-- ==== Sys2Proof/Tests/Slice0.lean ====
section
/-! SUPPORT. The model's own tests: the checks of WellFormed, one step of the spec's worked examples, and for every statement with
hypotheses a state and operands that meet them. -/

namespace Sys2Proof.Tests

open Sys2Proof Sys2Proof.Machine

set_option Elab.async false

/-! ## A bench -/

/-- The next state of a command, the same state where there is none. -/
def after (c : Instr) (s : State) : State :=
  match exec c s with
  | .next t => t
  | .fault _ | .refused _ => s

/-- The machine after reset with one head and a store put in. -/
def bench (h : HeadIx) (x : Head) (l : List Record) : State := { State.reset.updHead h fun _ => x with store := l }

/-- A closed span. -/
def span (lo hi : Nat) (k : SpanKind) : Span := Span.closed lo hi (KindSet.only k)

/-- An open span with one holder. -/
def openSpan (lo hi : Nat) (x : Holder) : Span := ⟨lo, hi, KindSet.only x.kind, true, HolderSet.add {} x⟩

/-- A record with mark 3. -/
def record (tag : Nat) (st : RecordState) (bound : Option (HeadIx × Role)) (b : Body) : Record :=
  ⟨tag, st, 3, 0, 0, false, false, bound, none, b⟩

/-- A strand of a made and a consumed length. -/
def strand (m consumed : Nat) (l : List Span) : Body := .strand ⟨some 5120, none, ⟨m, l, none⟩, consumed, 0⟩

/-- What a rope of three strands holds. -/
def ropeBody (m packed : Nat) (l : List Span) (sources : List SourceEntry) : RopeBody :=
  ⟨none, some 250000, 3, 70779, ⟨m, l, none⟩, packed, 0, sources, 0⟩

/-- A rope of three strands. -/
def rope (m packed : Nat) (l : List Span) : Body := .rope (ropeBody m packed l [])

/-- A panel of 200 knots a row. -/
def panel (rows : Nat) : Body := .panel ⟨200, 50, 12, some 121, ⟨rows, [], none⟩, 40, []⟩

/-- A coil of rope 7 from head 9. -/
def coil (lo hi : Nat) (g : Grade) : Body := .coil ⟨7, 9, lo, hi, hi - lo, g, false, none, true⟩

/-- A maker of the product 7. -/
def maker (k : MachineKind) (st : HeadState) : Head :=
  { Head.reset with accepted := .machine k, state := st, product := some 7 }

/-- A coiler of the rope 7. -/
def coiler (st : HeadState) : Head :=
  { Head.reset with accepted := .machine .coiler, state := st, source := some 7 }

/-- A head of a kind with nothing bound. -/
def vacant (k : MachineKind) (st : HeadState) : Head := { Head.reset with accepted := .machine k, state := st }

/-- The strand 7 in making at head 3. -/
def strandAt3 (m : Nat) : Record := { record 7 .making (some (3, .product)) (strand m 0 []) with boundFrom := some .draft }

/-- The rope 7 in making at head 5. -/
def ropeAt5 (m : Nat) : Record := { record 7 .making (some (5, .product)) (rope m 0 []) with boundFrom := some .draft }

/-- The panel 7 in making at head 12. -/
def panelAt12 (rows : Nat) : Record := { record 7 .making (some (12, .product)) (panel rows) with boundFrom := some .draft }

/-- The rope 7 in use at head 9. -/
def ropeAt9 (m packed : Nat) (l : List Span) : Record := record 7 .inUse (some (9, .source)) (rope m packed l)

/-- A strand that feeds slot `n` of head `h`. -/
def feedAt (tag : Nat) (h : HeadIx) (n : SlotIx) (m consumed : Nat) (l : List Span) : Record :=
  record tag .inUse (some (h, .feed n)) (strand m consumed l)

/-- A head with a strand in a required slot. -/
def fed (n : SlotIx) (tag : Nat) (x : Head) : Head := x.updSlot n fun y => { y with strand := some tag, required := true }

/-- A frame of whole bytes, taken in one command. -/
def whole : FrameEdges := ⟨0, none, none⟩

/-- The machine with a request of the line computer in progress. -/
def asked (c : Instr) (s : State) : State := { s with line := { s.line with inProgress := some (requestBody c) } }

/-- The machine with a request of panel 1 in progress, which may act on the heads of `m`. -/
def askedPanel (c : Instr) (m : HeadMask) (s : State) : State :=
  { s with link := { s.link with
      phase := .answering
      granted := some 0
      panels := s.link.panels.set 0 ⟨true, 0, false, m⟩
      inProgress := some (requestBody c) } }

/-- The response that a port holds. -/
def answered (s : State) : Option (List Byte) := s.line.unread

theorem asked_asks (c : Instr) (s : State) (h : requestCommand .lineComputer (requestBody c) = c) :
    (asked c s).Asks .lineComputer c (requestBody c) := ⟨rfl, h⟩

theorem askedPanel_asks (c : Instr) (m : HeadMask) (s : State) (h : requestCommand .floorPanel (requestBody c) = c) :
    (askedPanel c m s).Asks .floorPanel c (requestBody c) := ⟨rfl, h⟩

/-- The store is in order, within its capacity, and its tags in range. -/
def storeOk (s : State) : Bool :=
  decide (s.store.Pairwise fun a b => a.tag < b.tag) && decide (s.store.length ≤ 256) &&
    s.store.all fun r => decide (1 ≤ r.tag) && decide (r.tag < 281474976710656)

theorem storeOk_of (s : State) (h : storeOk s = true) : s.StoreOk := by
  simp only [storeOk, Bool.and_eq_true, decide_eq_true_eq, List.all_eq_true] at h
  exact ⟨h.1.1, h.1.2, h.2⟩

/-- A span keeps the laws of its piece. -/
def spanOk (top : Nat) (x : Span) : Bool :=
  decide (x.lo < x.hi) && decide (x.hi ≤ top) && !x.kinds.isEmpty && x.isOpen == !x.holders.isEmpty &&
    (!x.isOpen || decide (x.hi = top))

/-- A span list keeps the laws of its piece. -/
def spansOk (top : Nat) (l : List Span) : Bool :=
  decide (l.length ≤ 24) && l.all (spanOk top) && decide (l.Pairwise fun a b => a.hi < b.lo)

theorem spansOk_of {top : Nat} {l : List Span} (h : spansOk top l = true) : SpansOk top l := by
  simp only [spansOk, Bool.and_eq_true, decide_eq_true_eq, List.all_eq_true] at h
  refine ⟨h.1.1, fun x hx => ?_, h.2⟩
  have e := h.1.2 x hx
  simp only [spanOk, Bool.and_eq_true, decide_eq_true_eq, Bool.not_eq_true', beq_iff_eq, Bool.or_eq_true] at e
  exact ⟨e.1.1.1.1, e.1.1.1.2, e.1.1.2, e.1.2, fun o => e.2.resolve_left (by simp [o])⟩

/-- A piece has neither an open nor a pending span. -/
def closed (p : Piece) : Bool := p.openSpan.isNone && p.pending.isNone

/-- A piece keeps the laws of its spans. -/
def pieceOk (p : Piece) : Bool :=
  spansOk p.made p.spans && match p.pending with
    | none => true
    | some q => decide (q.pos = p.made) && !q.kinds.isEmpty && !q.holders.isEmpty && p.openSpan.isNone

/-- A record keeps its laws. -/
def recordOk (r : Record) : Bool :=
  (match r.body.piece with
    | none => true
    | some p => pieceOk p && (closed p || decide (r.state = .making) && decide (r.kind ≠ .panel))) &&
  match r.body with
  | .strand b => decide (b.consumed ≤ b.piece.made)
  | .rope b => decide (b.packed + b.waste ≤ b.piece.made)
  | .panel _ | .coil _ => true

theorem recordOk_of (r : Record) (h : recordOk r = true) : r.Ok := by
  simp only [recordOk, Bool.and_eq_true] at h
  have key : ∀ p, r.body.piece = some p → p.Ok ∧ (p.Closed ∨ r.state = .making ∧ r.kind ≠ .panel) := by
    intro p e
    have a := h.1
    rw [e] at a
    simp only [Bool.and_eq_true, Bool.or_eq_true, pieceOk, closed, decide_eq_true_eq, Option.isNone_iff_eq_none] at a
    refine ⟨⟨spansOk_of a.1.1, fun q eq => ?_⟩, a.2⟩
    have b := a.1.2
    rw [eq] at b
    simp only [Bool.and_eq_true, decide_eq_true_eq, Bool.not_eq_true', Option.isNone_iff_eq_none] at b
    exact ⟨b.1.1.1, b.1.1.2, b.1.2, b.2⟩
  refine ⟨fun p e => (key p e).1, fun n p e => (key p e).2.resolve_right fun x => n x.1,
    fun n p e => (key p e).2.resolve_right fun x => x.2 n, ?_⟩
  have c := h.2
  revert c
  cases r.body <;> simp [Body.CountsOk]

/-- The roles of a head. -/
def roles : List Role := [.product, .feed 0, .feed 1, .feed 2, .feed 3, .source, .segment]

theorem mem_roles (ro : Role) : ro ∈ roles := by
  cases ro with
  | feed n => revert n; decide
  | product | source | segment => decide

/-- What a head names in a role is a live record that says so, of a kind that suits it. -/
def namedOk (s : State) (h : HeadIx) (ro : Role) : Bool :=
  match (s.head h).named ro with
  | none => true
  | some n =>
    match s.find n, (s.head h).kind with
    | some r, some k => decide (r.bound = some (h, ro)) && k.binds r.kind ro && (s.head h).state.takesFeeds
    | _, _ => false

/-- A record is named where it is bound, and in the state tied to the role. -/
def boundOk (s : State) (r : Record) : Bool :=
  match r.bound with
  | none => r.state.loose && r.boundFrom.isNone
  | some (h, ro) => decide ((s.head h).named ro = some r.tag) && decide (r.state = ro.state) &&
      (if ro = .product then decide (r.boundFrom = some .draft) || decide (r.boundFrom = some .interrupted) else r.boundFrom.isNone)

/-- A head's strands stand beside a product, its coil beside a source, and a coiler that waits has no coil. -/
def gripOk (x : Head) : Bool :=
  (x.product.isSome || allSlots.all fun n => (x.slot n).strand.isNone) &&
    (x.source.isSome || (x.named .segment).isNone) && (!(x.holds.queueEmpty || x.holds.storeFull) || (x.named .segment).isNone)

theorem bindingsOk_of (s : State) (h1 : ∀ h : HeadIx, roles.all (namedOk s h) = true) (h2 : s.store.all (boundOk s) = true)
    (h3 : ∀ h : HeadIx, gripOk (s.head h) = true) : s.BindingsOk := by
  have hb : ∀ n r, s.find n = some r → boundOk s r = true ∧ r.tag = n := fun n r e =>
    ⟨List.all_eq_true.mp h2 r (List.mem_of_find?_eq_some e), by simpa using List.find?_some e⟩
  refine ⟨fun h ro n e => ?_, fun n r h ro e eb => ?_, fun n r e => ?_, fun h n e => ?_, fun h e => ?_, fun h e => ?_⟩
  · have := List.all_eq_true.mp (h1 h) ro (mem_roles ro)
    unfold namedOk at this
    rw [e] at this
    dsimp only at this
    split at this
    · rename_i r k er ek
      simp only [Bool.and_eq_true, decide_eq_true_eq] at this
      exact ⟨r, k, er, this.1.1, ek, this.1.2, this.2⟩
    · cases this
  · obtain ⟨a, et⟩ := hb n r e
    unfold boundOk at a
    rw [eb] at a
    simp only [Bool.and_eq_true, decide_eq_true_eq] at a
    exact et ▸ a.1.1
  · obtain ⟨a, -⟩ := hb n r e
    unfold boundOk at a
    split at a
    · rename_i eb
      simp only [Bool.and_eq_true, Option.isNone_iff_eq_none] at a
      exact ⟨fun _ => a.1, fun h ro e => by simp [eb] at e, fun h e => by simp [eb] at e, fun _ => a.2⟩
    · rename_i h ro eb
      simp only [Bool.and_eq_true, decide_eq_true_eq] at a
      refine ⟨fun e => by simp [eb] at e, fun k x e => ?_, fun k e => ?_, fun e => ?_⟩
      · rw [eb] at e
        cases e
        exact a.1.2
      · rw [eb] at e
        cases e
        simpa using a.2
      · have : ro ≠ .product := fun x => e h (x ▸ eb)
        simpa [this] using a.2
  all_goals
    have a := h3 h
    simp only [gripOk, Bool.and_eq_true, Bool.or_eq_true, Option.isSome_iff_ne_none, Option.isNone_iff_eq_none] at a
  · refine a.1.1.resolve_right fun x => ?_
    have := List.all_eq_true.mp x n (by clear e; revert n; decide)
    exact e (by simpa [Head.named] using this)
  · exact a.1.2.resolve_right e
  · refine a.2.resolve_left fun x => ?_
    simp only [Bool.not_eq_true', Bool.or_eq_false_iff] at x
    rcases e with e | e
    · rw [x.1] at e
      cases e
    · rw [x.2] at e
      cases e

/-- Every record is named where it is bound, and every head grips what it names. -/
def bindingsOk (s : State) : Bool :=
  decide (∀ h : HeadIx, roles.all (namedOk s h) = true) && s.store.all (boundOk s) && decide (∀ h : HeadIx, gripOk (s.head h) = true)

/-- A coil keeps the laws of its rope. -/
def coilOk (s : State) (r : Record) (c : CoilBody) : Bool :=
  (!c.belongs || (s.find c.sourceRope).any fun q =>
    decide (q.kind = .rope) && decide (q.state = .made ∨ q.state = .inUse ∨ q.state = .spent)) &&
  (decide (r.state ≠ .winding) || c.belongs && match (s.head c.origin).segment, s.sourceOf c.origin with
    | some g, some (q, b) => decide (g.coil = some r.tag) && decide (g.plannedLo = c.lo) && decide (q.tag = c.sourceRope) &&
        decide (b.currentEnd = c.hi)
    | _, _ => false) &&
  (!c.belongs || decide (r.state ≠ .winding ∧ r.state ≠ .wound) || decide (c.grade ≠ .first) ||
    !meetsList c.lo c.hi (s.spansOf c.sourceRope))

/-- Every coil keeps the laws of its rope. -/
def coilsOk (s : State) : Bool := s.store.all fun r =>
  match r.body with
  | .coil c => coilOk s r c
  | .strand _ | .rope _ | .panel _ => true

theorem coilsOk_of (s : State) (h : coilsOk s = true) : s.CoilsOk := by
  have key : ∀ n r c, s.find n = some r → r.body = .coil c → coilOk s r c = true ∧ r.tag = n := by
    intro n r c e eb
    have a := List.all_eq_true.mp h r (List.mem_of_find?_eq_some e)
    rw [eb] at a
    exact ⟨a, by simpa using List.find?_some e⟩
  refine ⟨fun n r c e eb hb => ?_, fun n r c e eb hs => ?_, fun n r c e eb hb hs hg => ?_⟩ <;> obtain ⟨a, rfl⟩ := key n r c e eb <;>
    simp only [coilOk, Bool.and_eq_true, Bool.or_eq_true, Bool.not_eq_true', decide_eq_true_eq] at a
  · have x := a.1.1.resolve_left (by simp [hb])
    cases hq : s.find c.sourceRope with
    | none => simp [hq] at x
    | some q => exact ⟨q, rfl, by simpa [hq] using x⟩
  · obtain ⟨hb, a⟩ := a.1.2.resolve_left (fun x => x hs)
    refine ⟨hb, ?_⟩
    split at a
    · rename_i g q b eg eq
      simp only [Bool.and_eq_true, decide_eq_true_eq] at a
      exact ⟨g, q, b, eg, a.1.1.1, a.1.1.2, eq, a.1.2, a.2⟩
    · cases a
  · rcases a.2 with ((x | x) | x) | x
    · simp [hb] at x
    · exact absurd hs (by simp [x.1, x.2])
    · exact absurd hg x
    · exact x

/-- A machine that keeps every law the statements assume of it. -/
structure Stands (s : State) : Prop where
  store : s.StoreOk
  tags : s.CoilTagsOk
  records : s.RecordsOk
  bindings : s.BindingsOk
  coils : s.CoilsOk

/-- The same as a check. -/
def stands (s : State) : Bool :=
  storeOk s && (decide (s.coilPrefix ≤ 65535) && decide (1 ≤ s.coilSerial) && decide (s.coilSerial ≤ serialTop)) &&
    s.store.all recordOk && bindingsOk s && coilsOk s

theorem stands_of (s : State) (h : stands s = true) : Stands s := by
  simp only [stands, bindingsOk, Bool.and_eq_true, decide_eq_true_eq] at h
  exact ⟨storeOk_of s h.1.1.1.1, ⟨h.1.1.1.2.1.1, h.1.1.1.2.1.2, h.1.1.1.2.2⟩,
    fun r hr => recordOk_of r (List.all_eq_true.mp h.1.1.2 r hr), bindingsOk_of s h.1.2.1.1 h.1.2.1.2 h.1.2.2, coilsOk_of s h.2⟩

/-! ## The checks of WellFormed -/

theorem test_wf_accepts : (Instr.lookup .lineComputer 281474976710655).wf = true ∧
    (Instr.create .lineComputer 7 2 [⟨3, some 3⟩, ⟨4, some 70779⟩]).wf = true ∧
    (Instr.amend .lineComputer 7 3 [⟨1, none⟩]).wf = true ∧ (Instr.spiRequestFrame [0x01] whole).wf = true ∧
    (Instr.spiDiscardFrame [] ⟨7, some 0, none⟩).wf = true ∧
    (Instr.spiFetchFrame [0, 0] ⟨0, some 1, some 3⟩).wf = true := by decide

theorem test_wf_refuses_a_wide_field : (Instr.lookup .lineComputer 281474976710656).wf = false ∧
    (Instr.enqueue .lineComputer 9 4294967296 1 1).wf = false := by decide

theorem test_wf_refuses_a_wide_item : (Instr.create .lineComputer 7 1 [⟨1, some 65536⟩]).wf = false ∧
    (Instr.setHead .lineComputer 3 [⟨2, some 256⟩]).wf = false ∧
    (Instr.setDevice .lineComputer [⟨16, some 256⟩]).wf = false := by decide

theorem test_wf_refuses_an_unknown_item : (Instr.amend .lineComputer 7 0 [⟨9, some 1⟩]).wf = false ∧
    (Instr.setHead .lineComputer 3 [⟨14, some 1⟩]).wf = false ∧ (Instr.setDevice .lineComputer [⟨12, some 1⟩]).wf = false := by
  decide

theorem test_wf_refuses_an_absent_item_outside_amend : (Instr.create .lineComputer 7 1 [⟨1, none⟩]).wf = false ∧
    (Instr.setHead .lineComputer 3 [⟨1, none⟩]).wf = false := by decide

theorem test_wf_refuses_a_long_list : (Instr.setDevice .lineComputer (List.replicate 256 ⟨2, some 1⟩)).wf = false := by
  decide +kernel

theorem test_wf_refuses_a_wide_code : (Instr.unknownRequest .lineComputer 256).wf = false := by decide

theorem test_wf_refuses_a_body_of_a_wrong_size : (Instr.spiRequestFrame [] whole).wf = false ∧
    (Instr.spiRequestFrame (List.replicate 251 0) whole).wf = false := by decide +kernel

theorem test_wf_refuses_a_malformed_frame_that_is_well_formed : (Instr.spiMalformedFrame [0x01, 0x21] whole).wf = false := by decide

theorem test_wf_refuses_a_stretch_outside_its_frame : (Instr.spiFetchFrame [0, 0] ⟨0, none, some 4⟩).wf = false ∧
    (Instr.spiFetchFrame [0, 0] ⟨0, some 2, some 1⟩).wf = false ∧ (Instr.spiRequestFrame [0x21] ⟨0, some 4, none⟩).wf = false ∧
    (Instr.spiMalformedFrame [] ⟨0, none, some 2⟩).wf = false ∧ (Instr.spiDiscardFrame [0x00] ⟨0, none, some 2⟩).wf = false := by decide

theorem test_wf_refuses_a_discard_of_a_known_code : (Instr.spiDiscardFrame [0x51] whole).wf = false ∧
    (Instr.spiDiscardFrame [0x46, 0x00] whole).wf = false := by decide

/-! ## One step of the spec's worked examples -/

theorem test_crc_check_value : crc [0x31, 0x32, 0x33, 0x34, 0x35, 0x36, 0x37, 0x38, 0x39] = 0x29B1 := by decide +kernel

theorem test_tick_wraps_the_second :
    (after (.tick (Vector.replicate 16 ⟨true, true, true, false⟩)) { State.reset with clock := ⟨4294967295, 1023⟩ }).clock = ⟨0, 0⟩ ∧
      ((after (.tick (Vector.replicate 16 ⟨true, true, true, false⟩)) State.reset).head 4).settle = 1 := by decide +kernel

/-- A closer plugged in with a bounce: the 64th equal sample is accepted. -/
theorem test_sense_accepts_a_closer :
    let s := after (.senseSettled 4) (bench 4 { Head.reset with candidate := ⟨true, true, true, false⟩, settle := 64 } [])
    (s.head 4).kind = some .closer ∧ (s.head 4).state = .idle ∧ s.flagged 4 .sense = true := by decide +kernel

/-- A coiler pulled out in the middle of a coil. -/
theorem test_sense_disconnects_a_coiler :
    let x : Head := { coiler .run with
      settle := 64
      candidate := ⟨false, false, false, false⟩
      queue := [⟨500000, 2, .firstOnly⟩]
      segment := some ⟨some 1, 500000, 700000, 312400, true⟩ }
    let a := record 1 .winding (some (9, .segment)) (coil 700000 1200000 .first)
    let s := after (.senseSettled 9) (bench 9 x [a, ropeAt9 1200000 0 []])
    (s.find 1).map Record.state = some .wound ∧
      s.coilOf 1 = some ⟨7, 9, 887600, 1200000, 500000, .first, true, none, true⟩ ∧
      s.find 7 = some { record 7 .made none (rope 1200000 312400 []) with mark := 4 } ∧ (s.head 9).queue = [] ∧
      (s.head 9).state = .empty ∧ s.flagged 9 .sense = true ∧ s.flagged 9 .coil = true := by decide +kernel

theorem test_trim_period_takes_the_code :
    let s := after .trimPeriodStart (bench 3 { maker .strander .run with trim := 437 } [])
    (s.head 3).duty = 437 ∧ (s.head 3).out0 436 = true ∧ (s.head 3).out0 437 = false := by decide +kernel

/-- A fine pitch: pulse 2. -/
theorem test_enc_pulse_carries :
    let x : Head := { maker .strander .run with settings := { pitch := 40000 }, pitchFraction := 40000 }
    let s := after (.encPulse 3) (bench 3 x [strandAt3 7200])
    (s.head 3).pitchFraction = 14464 ∧ s.find 7 = some (strandAt3 7201) := by decide +kernel

/-- A strand runs out on a closer: the second advance of 100 mm. -/
theorem test_enc_pulse_runs_a_strand_out :
    let x := (fed 0 21 (fed 1 22 (fed 2 23 { maker .closer .run with settings := { pitch := 6553600 } }))).updSlot 2
      fun y => { y with acc := 12, lowNoted := true }
    let r : Record := record 7 .making (some (4, .product))
      (.rope ⟨none, none, 3, 70779, ⟨212000, [], none⟩, 0, 0, [⟨23, 2, 0, none⟩], 0⟩)
    let s := after (.encPulse 4) (bench 4 x
      [r, feedAt 21 4 0 500000 0 [], feedAt 22 4 1 500000 0 [], feedAt 23 4 2 80000 79900 []])
    (s.head 4).state = .held ∧ (s.head 4).holds = ⟨true, false, false⟩ ∧ s.flagged 4 .state = true ∧
      s.find 23 = some { record 23 .spent none
        (.strand ⟨some 5120, none, ⟨80000, [], none⟩, 80000, 7077912 % 65536⟩) with mark := 4 } ∧
      s.find 7 = some { r with
        mark := 4
        body := .rope ⟨none, none, 3, 70779, ⟨212100, [openSpan 212000 212100 (.feed 2)], none⟩, 0, 0,
          [⟨23, 2, 0, some 212100⟩], 0⟩ } := by decide +kernel

/-- A span of a strand crossed whole in one advance, beside a span held open by FLAW: FEED is marked, and the mark steps once. -/
theorem test_enc_pulse_crosses_a_span :
    let x := fed 0 21 (fed 1 22 (fed 2 23 { maker .closer .run with settings := { pitch := 655360 } }))
    let r (m : Nat) (k : KindSet) : Record := record 7 .making (some (4, .product)) (rope m 0 [⟨100, m, k, true, { flaw := true }⟩])
    let s := after (.encPulse 4) (bench 4 x [r 200 { flaw := true, feed := true }, feedAt 21 4 0 900 0 [span 893 894 .flaw],
      feedAt 22 4 1 900 0 [], feedAt 23 4 2 900 0 []])
    (s.find 7).map Record.spans = some [⟨100, 210, { flaw := true, feed := true }, true, { flaw := true }⟩] ∧
      (s.find 7).map Record.mark = some 4 := by decide +kernel

theorem test_spin_pulse_opens_a_window :
    ((after (.spinPulse 3) (bench 3 { maker .strander .run with pitchFraction := 5 } [strandAt3 2])).head 3).window =
      some ⟨131077, 1, 8, 0, 50, some 5120⟩ := by decide +kernel

/-- The examples of rounding. -/
theorem test_lay_rounding : measuredLay 104448 1 = 26 ∧ measuredLay 104447 1 = 25 ∧ deviation 5184 5120 = 13 ∧
    deviation 5056 5120 = -13 ∧ trimStep 13 24 = 20 ∧ trimStep (-13) 24 = -20 ∧ trimStep (-1) 8 = -1 ∧ trimStep 1 7 = 0 := by
  decide +kernel

theorem test_run_rise_starts :
    ((after (.runRise 3) (bench 3 (maker .strander .ready) [strandAt3 0])).head 3).state = .run := by decide +kernel

/-- A cut on a closer that is still turning: RUN falls at made length 250 050. -/
theorem test_run_fall_completes_a_cut :
    let x : Head := { maker .closer .cutting with runHigh := true, cutRunHigh := true, guardRelease := some 250100 }
    let r : Record := record 7 .making (some (6, .product)) (rope 250050 0 [openSpan 248700 250050 .guard])
    let s := after (.runFall 6) (bench 6 x [r])
    (s.head 6).state = .done ∧ s.flagged 6 .state = true ∧
      s.find 7 = some { record 7 .made none (rope 250050 0 [span 248700 250050 .flaw]) with mark := 4 } := by decide +kernel

/-- A hold on a full store, then overrun into a span: the cut of coil D, here coil 1, and the plan point after it. -/
theorem test_run_fall_completes_a_coil :
    let x : Head := { coiler .cutting with
      runHigh := true
      cutRunHigh := true
      queue := [⟨120000, 3, .secondOk⟩]
      segment := some ⟨some 1, 120000, 227600, 120350, true⟩ }
    let l := [span 227000 227300 .flaw]
    let s := after (.runFall 9) (bench 9 x
      [record 1 .winding (some (9, .segment)) (coil 227600 347600 .first), ropeAt9 897600 550000 l])
    s.find 1 = some { record 1 .wound none (.coil ⟨7, 9, 227250, 347600, 120000, .second, false, none, true⟩) with mark := 4 } ∧
      (s.attn.causesOf 9).coilDowngraded = true ∧ (s.head 9).queue = [⟨120000, 2, .secondOk⟩] ∧ (s.head 9).state = .stopped ∧
      s.find 2 = some { Record.fresh 2 .winding 0 (.coil ⟨7, 9, 107250, 227250, 120000, .second, false, none, true⟩) with
        bound := some (9, .segment) } := by decide +kernel

theorem test_cut_wait_expiry_completes :
    let x : Head := { maker .strander .cutting with cutWait := some 0 }
    ((after (.cutWaitExpiry 3) (bench 3 x [strandAt3 60000])).head 3).state = .done := by decide +kernel

/-- A flaw on a strander: the rise. -/
theorem test_flaw_rise_opens_a_span :
    let x : Head := { maker .strander .run with settings := { guardMargin := 250 } }
    let b := strand 18400 0 [span 2000 2600 .splice]
    (after (.flawRise 3) (bench 3 x [record 7 .making (some (3, .product)) b])).find 7 =
      some { record 7 .making (some (3, .product))
        (strand 18400 0 [span 2000 2600 .splice, openSpan 18150 18400 .flaw]) with mark := 4 } := by decide +kernel

/-- A flaw on a strander: the fall. -/
theorem test_flaw_fall_leaves_guard :
    let x : Head := { maker .strander .run with settings := { guardMargin := 250 }, flawHigh := true }
    let s := after (.flawFall 3) (bench 3 x
      [record 7 .making (some (3, .product)) (strand 18900 0 [openSpan 18150 18900 .flaw])])
    (s.head 3).guardRelease = some 19150 ∧ s.find 7 = some { record 7 .making (some (3, .product))
      (strand 18900 0 [openSpan 18150 18900 .guard]) with mark := 4 } := by decide +kernel

/-- A flaw across a cut: FLAW falls, and both coils become SECOND. -/
theorem test_flaw_fall_downgrades_coils :
    let x : Head := { coiler .run with
      settings := { guardMargin := 500 }
      flawHigh := true
      flawRise := some 600800
      segment := some ⟨some 2, 300000, 299600, 900, true⟩ }
    let s := after (.flawFall 9) (bench 9 x [record 1 .wound none (coil 599600 900000 .first),
      record 2 .winding (some (9, .segment)) (coil 299600 599600 .first), ropeAt9 900000 300400 []])
    s.find 7 = some { ropeAt9 900000 300400 [span 598200 601300 .flaw] with mark := 4 } ∧
      s.find 1 = some { record 1 .wound none (coil 599600 900000 .second) with mark := 4 } ∧
      s.find 2 = some { record 2 .winding (some (9, .segment)) (coil 299600 599600 .second) with mark := 4 } ∧
      (s.attn.causesOf 9).coilDowngraded = true ∧ (s.head 9).flawRise = none := by decide +kernel

/-- A run of rows: the 200th knot of row 118, with 600 ticks left and FLAW seen. -/
theorem test_knot_pulse_closes_a_row :
    let x := fed 0 21 (fed 1 22 { maker .loom .run with row := some ⟨118, 199, 600, true, 200, 50, 12⟩ })
    let b : Body := .panel ⟨200, 50, 12, some 121, ⟨118, [span 117 118 .knot], none⟩, 43, []⟩
    let s := after (.knotPulse 12) (bench 12 x [record 7 .making (some (12, .product)) b,
      feedAt 21 12 0 500000 0 [], feedAt 22 12 1 500000 0 []])
    (s.head 12).row = none ∧ (s.head 12).excessWatch = 600 ∧
      (s.find 7).map Record.spans = some [⟨117, 119, { flaw := true, knot := true }, false, {}⟩] ∧
      (s.find 7).map Record.mark = some 4 ∧ s.find 21 = some (feedAt 21 12 0 500000 12400 []) := by decide +kernel

theorem test_knot_pulse_is_stray :
    let s := after (.knotPulse 12) (bench 12 { maker .loom .run with excessWatch := 600 } [panelAt12 119])
    (s.attn.causesOf 12) = { knotStray := true, knotExcess := true } ∧ s.flagged 12 .alarm = true := by decide +kernel

/-- A run of rows: ROW with row 119 open at 150 knots. -/
theorem test_row_pulse_closes_and_opens :
    let x := fed 0 21 (fed 1 22 { maker .loom .run with row := some ⟨119, 150, 900, false, 200, 50, 12⟩ })
    let s := after (.rowPulse 12) (bench 12 x [panelAt12 119, feedAt 21 12 0 500000 0 [], feedAt 22 12 1 500000 0 []])
    (s.head 12).row = some ⟨120, 0, 1024, false, 200, 50, 12⟩ ∧
      (s.find 7).map Record.body = some (.panel ⟨200, 50, 12, some 121, ⟨120, [span 119 120 .knot], none⟩, 90, []⟩) ∧
      s.find 22 = some (feedAt 22 12 1 500000 9300 []) := by decide +kernel

/-- One count, four causes: the expiry of row 117 at 197 knots. -/
theorem test_row_expiry_counts_missed_knots :
    let x := fed 0 21 (fed 1 22 { maker .loom .run with row := some ⟨117, 197, 0, false, 200, 50, 12⟩ })
    let s := after (.rowExpiry 12) (bench 12 x [panelAt12 117, feedAt 21 12 0 500000 0 [], feedAt 22 12 1 500000 0 []])
    (s.head 12).row = none ∧ (s.attn.causesOf 12).knotShort = true ∧
      (s.find 7).map Record.body = some (.panel ⟨200, 50, 12, some 121, ⟨118, [span 117 118 .knot], none⟩, 43, []⟩) ∧
      s.find 21 = some (feedAt 21 12 0 500000 12214 []) := by decide +kernel

theorem test_excess_watch_end :
    ((after (.excessWatchEnd 12) (bench 12 { maker .loom .run with excessWatch := 1 } [])).head 12).excessWatch = 0 := by
  decide +kernel

/-- One LOOKUP: the response of a panel has 38 bytes. -/
theorem test_lookup_answers_a_panel :
    let c : Instr := .lookup .lineComputer 7
    (answered (after c (asked c (bench 12 (maker .loom .run) [panelAt12 117])))).map List.length = some 38 := by decide +kernel

theorem test_next_skips_by_kind :
    let c : Instr := .nextRecord .lineComputer 0 1 0
    (answered (after c (asked c (bench 9 (coiler .run) [ropeAt9 10 0 [], feedAt 21 4 0 5 0 []])))).map (List.take 8) =
      some [2, 0, 0, 0, 0, 0, 0, 21] := by decide +kernel

theorem test_read_spans_entry :
    let c : Instr := .readSpans .lineComputer 7
    answered (after c (asked c (bench 9 (coiler .run) [ropeAt9 900 0 [span 1 258 .knot]]))) =
      some [3, 0, 3, 0, 0, 3, 132, 0, 1, 0, 0, 0, 1, 0, 0, 1, 2, 32, 0] := by decide +kernel

theorem test_read_sources_closed_entry :
    let c : Instr := .readSources .lineComputer 7 0
    let r := record 7 .made none (.rope ⟨none, none, 3, 70779, ⟨9, [], none⟩, 0, 0, [⟨21, 2, 0, some 9⟩], 0⟩)
    answered (after c (asked c (bench 9 Head.reset [r]))) =
      some [4, 0, 3, 1, 0, 1, 0, 0, 0, 0, 0, 21, 130, 0, 0, 0, 0, 0, 0, 0, 9] := by decide +kernel

theorem test_create_enters_a_draft :
    let c : Instr := .create .lineComputer 7 2 [⟨3, some 3⟩, ⟨4, some 70779⟩]
    let s := after c (asked c State.reset)
    s.find 7 = some (Record.fresh 7 .draft 0 (.rope ⟨none, none, 3, 70779, ⟨0, [], none⟩, 0, 0, [], 0⟩)) ∧
      answered s = some [5, 0, 0] := by decide +kernel

/-- An ordered length amended below the made length. -/
theorem test_amend_reaches_the_end :
    let c : Instr := .amend .lineComputer 7 3 [⟨2, some 60000⟩]
    let s := after c (asked c (bench 3 { maker .strander .run with runHigh := true } [strandAt3 62450]))
    (s.head 3).state = .cutting ∧ answered s = some [6, 0, 4] := by decide +kernel

/-- Three spans added to a rope in making: the first. -/
theorem test_add_span_lowers_the_open_span :
    let c : Instr := .addSpan .lineComputer 7 3 51000 51900 1
    let r (l : List Span) : Record := record 7 .making (some (5, .product)) (rope 52300 0 l)
    let s := after c (asked c (bench 5 (maker .closer .run) [r [span 12000 12400 .lay, openSpan 51800 52300 (.feed 1)]]))
    (s.find 7).map Record.spans = some [span 12000 12400 .lay,
      ⟨51000, 52300, { feed := true, splice := true }, true, { feed1 := true }⟩] ∧ answered s = some [7, 0, 4] := by
  decide +kernel

/-- A span refused at a banded coil. -/
theorem test_add_span_stops_at_a_banded_coil :
    let c : Instr := .addSpan .lineComputer 7 3 699000 700000 2
    let s := after c (asked c (bench 9 (coiler .run)
      [record 1 .banded none (coil 700000 1200000 .first), ropeAt9 1200000 500000 [span 430000 431500 .flaw]]))
    answered s = some [7, 4] ∧ s.store = [record 1 .banded none (coil 700000 1200000 .first),
      ropeAt9 1200000 500000 [span 430000 431500 .flaw]] := by decide +kernel

theorem test_conclude :
    let c : Instr := .conclude .lineComputer 7 3
    let s := after c (asked c (bench 0 Head.reset [record 7 .interrupted none (strand 5 0 [])]))
    s.find 7 = some { record 7 .made none (strand 5 0 []) with mark := 4 } ∧ answered s = some [8, 0, 4] := by decide +kernel

theorem test_band_sets_the_band_time :
    let c : Instr := .band .lineComputer 1 3
    let s := after c (asked c { bench 0 Head.reset [record 1 .wound none (coil 0 9 .first)] with clock := ⟨77, 5⟩ })
    s.coilOf 1 = some ⟨7, 9, 0, 9, 9, .first, false, some 77, true⟩ ∧ answered s = some [9, 0, 4] := by decide +kernel

/-- Retiring a spent rope: its coils belong to it no more. -/
theorem test_retire_disowns_coils :
    let c : Instr := .retire .lineComputer 7 3
    let s := after c (asked c (bench 0 Head.reset
      [record 1 .wound none (coil 0 9 .first), record 7 .spent none (rope 9 9 [])]))
    s.store = [record 1 .wound none (.coil ⟨7, 9, 0, 9, 9, .first, false, none, false⟩)] ∧ answered s = some [10, 0] := by
  decide +kernel

/-- Resuming an interrupted strand. -/
theorem test_bind_product_resumes :
    let c : Instr := .bindProduct .lineComputer 3 7 3
    let x : Head := { vacant .strander .idle with settings := { guardMargin := 250 }, trim := 437 }
    let l := ⟨18150, 19420, { flaw := true, lay := true }, false, {}⟩
    let s := after c (asked c (bench 3 x [record 7 .interrupted none (strand 19420 0 [span 2000 2600 .splice, l])]))
    (s.find 7).map Record.spans = some [span 2000 2600 .splice,
      ⟨18150, 19420, { flaw := true, lay := true, join := true }, true, { join := true }⟩] ∧ (s.head 3).state = .ready ∧
      (s.head 3).trim = 512 ∧ (s.head 3).joinRelease = some 19670 ∧ answered s = some [16, 0, 4] := by decide +kernel

theorem test_bind_source_plans_a_coil :
    let c : Instr := .bindSource .lineComputer 9 7 3
    let x : Head := { vacant .coiler .idle with queue := [⟨300000, 2, .firstOnly⟩] }
    let s := after c (asked c (bench 9 x [record 7 .made none (rope 900000 0 [])]))
    (s.head 9).state = .ready ∧ (s.head 9).segment = some ⟨some 1, 300000, 600000, 0, true⟩ ∧ s.coilSerial = 2 ∧
      s.find 1 = some { Record.fresh 1 .winding 0 (coil 600000 900000 .first) with bound := some (9, .segment) } := by
  decide +kernel

/-- A hold on a full store: the plan point after a place is freed. -/
theorem test_store_full_notification_plans :
    let x : Head := { coiler .held with
      holds := ⟨false, false, true⟩
      notified := true
      unplanned := 2400
      queue := [⟨120000, 3, .secondOk⟩] }
    let l := [span 227000 227300 .flaw]
    let s := after (.storeFullNotification 9) (bench 9 x [ropeAt9 900000 550000 l])
    (s.head 9).state = .stopped ∧ (s.head 9).holds = {} ∧ (s.head 9).segment = some ⟨some 1, 120000, 227600, 0, true⟩ ∧
      s.coilOf 1 = some (⟨7, 9, 227600, 347600, 120000, .first, false, none, true⟩) ∧ s.flagged 9 .coil = true := by
  decide +kernel

/-- A strand bound again on a closer that has run short. -/
theorem test_bind_feed_ends_the_hold :
    let c : Instr := .bindFeed .lineComputer 4 2 23 3
    let x := (fed 0 21 (fed 1 22 { maker .closer .held with holds := ⟨true, false, false⟩ })).updSlot 2
      fun y => { y with required := true }
    let r : Record := record 7 .making (some (4, .product)) (rope 212160 0 [openSpan 212000 212160 (.feed 2)])
    let s := after c (asked c (bench 4 x [r, feedAt 21 4 0 500000 0 [], feedAt 22 4 1 500000 0 [],
      record 23 .made none (strand 80000 0 [])]))
    (s.head 4).state = .stopped ∧ (s.head 4).holds = {} ∧
      s.find 7 = some { r with
        mark := 4
        body := .rope (ropeBody 212160 0 [span 212000 212160 .feed] [⟨23, 2, 212160, none⟩]) } := by
  decide +kernel

theorem test_unbind_feed_holds_the_closer :
    let c : Instr := .unbindFeed .lineComputer 4 0
    let s := after c (asked c (bench 4 (fed 0 21 (maker .closer .run))
      [record 7 .making (some (4, .product)) (rope 5 0 []), feedAt 21 4 0 500000 9 []]))
    (s.head 4).state = .held ∧ (s.find 21).map Record.state = some .made ∧ answered s = some [19, 0] := by decide +kernel

/-- One count, four causes: RELEASE. -/
theorem test_release_closes_the_row :
    let c : Instr := .release .lineComputer 12
    let x := fed 0 21 (fed 1 22 { maker .loom .run with row := some ⟨117, 197, 900, false, 200, 50, 12⟩ })
    let s := after c (asked c (bench 12 x [panelAt12 117, feedAt 21 12 0 500000 0 [], feedAt 22 12 1 500000 0 []]))
    (s.head 12).state = .idle ∧ (s.find 7).map Record.state = some .made ∧ s.madeOf 7 = some 118 ∧
      (s.find 21).map Record.state = some .made := by decide +kernel

theorem test_enqueue_and_clear_queue :
    let c : Instr := .enqueue .lineComputer 9 1000 255 2
    let d : Instr := .clearQueue .lineComputer 9
    let s := after c (asked c (bench 9 (vacant .coiler .idle) []))
    (s.head 9).queue = [⟨1000, 255, .secondOk⟩] ∧ answered s = some [21, 0, 1] ∧
      answered (after d (asked d s)) = some [22, 0, 1] := by decide +kernel

theorem test_head_status_of_an_absent_head :
    let c : Instr := .headStatus .lineComputer 16
    answered (after c (asked c State.reset)) = some [23, 9] := by decide +kernel

/-- A trim minimum of 700 is stored as 512, a window turns of 0 as 1, and a guard margin of 12 000 as 9 999. -/
theorem test_set_head_clamps :
    let c : Instr := .setHead .lineComputer 15 [⟨5, some 700⟩, ⟨3, some 0⟩, ⟨9, some 12000⟩]
    let s := after c (asked c State.reset)
    (s.head 15).settings = { trimMin := 512, turns := 1, guardMargin := 9999 } := by decide +kernel

theorem test_set_clock :
    let c : Instr := .setClock .lineComputer 4294967295
    let s := after c (asked c { State.reset with clock := ⟨3, 900⟩ })
    s.clock = ⟨4294967295, 0⟩ ∧ answered s = some [32, 0, 255, 255, 255, 255] := by decide +kernel

theorem test_read_events_clears_under_read_clears :
    let c : Instr := .readEvents .lineComputer
    let s := after c (asked c ((State.reset.writeDevice 1 1).raiseAlarm 4 .feedLow))
    s.attn.flags = 0 ∧ s.attn.causesOf 4 = {} ∧ (answered s).map (List.take 6) = some [33, 0, 1, 0, 0, 4] := by decide +kernel

/-- One closer routed to two lines: CLEAR_EVENTS listing head 4 STATE releases line A. -/
theorem test_clear_events_releases_a_line :
    let c : Instr := .clearEvents .lineComputer (flagBit 17)
    let s := asked c (((State.reset.writeDeviceList [⟨33, some 0⟩, ⟨113, some 1⟩, ⟨34, some 0⟩, ⟨114, some 2⟩]).raise 4
      .state).raiseAlarm 4 .feedLow)
    s.attnA = true ∧ s.attnB = true ∧ (after c s).attnA = false ∧ (after c s).attnB = true := by decide +kernel

theorem test_set_device_answers_every_setting :
    let c : Instr := .setDevice .lineComputer [⟨3, some 0⟩, ⟨11, some 48⟩]
    let s := after c (asked c State.reset)
    s.coilSerial = 1 ∧ (s.link.panel 7).mask = 48 ∧ (answered s).map List.length = some 100 := by decide +kernel

theorem test_unknown_request :
    let c : Instr := .unknownRequest .lineComputer 0x99
    answered (after c (asked c State.reset)) = some [0x99, 8] := by decide +kernel

/-- One LOOKUP: the second request frame is refused, and reports RESPONSE_READY in its status byte. -/
theorem test_spi_request_frame_is_refused :
    let s := after (.spiRequestFrame [1, 0, 0, 0, 0, 0, 7] whole) { State.reset with line := { LinePort.reset with unread := some [1, 1] } }
    s.line.lastRefused = true ∧ s.line.inProgress = none ∧ s.line.unread = some [1, 1] ∧ s.line.shifted.head? = some 1 := by
  decide +kernel

theorem test_spi_frames_out_of_form :
    (after (.spiMalformedFrame [2, 0x21] ⟨3, none, none⟩) State.reset).line.lastMalformed = true ∧
      (after (.spiDiscardFrame [0x99] whole) State.reset).line.lastMalformed = true ∧
      (after (.spiDiscardFrame [] ⟨5, none, none⟩) State.reset).line.lastMalformed = false ∧
      after (.spiRequestFrame [1, 0, 0, 0, 0, 0, 7] ⟨0, some 0, none⟩) State.reset = State.reset := by decide +kernel

/-- A response formed within a fetch: before the eighth clock of its code byte, after it, and cut off by RESET_N. -/
theorem test_response_formed_within_a_fetch :
    let t := after (.spiFetchFrame [0, 0, 0] ⟨0, none, some 0⟩) State.reset
    let u := after (.spiFetchFrame [0, 0, 0] ⟨0, none, some 1⟩) State.reset
    let v := after (.spiFetchFrame [0, 0, 0] ⟨0, some 0, none⟩) (t.respond .lineComputer [1, 1])
    let w := after (.spiFetchFrame [0, 0, 0] ⟨0, some 1, none⟩) (u.respond .lineComputer [1, 1])
    t.line.phase = .code ∧ u.line.phase = .fetch ∧ (v.line.shifted = [0, 2, 1, 1] ∧ v.line.unread = none) ∧
      (w.line.shifted = [0, 0, 0, 0] ∧ w.line.unread = some [1, 1]) ∧
      after (.spiFetchFrame [0, 0, 0] ⟨0, some 1, none⟩) (after .resetN u) = after .resetN u := by decide +kernel

/-- One LOOKUP: a fetch that stops early leaves the response, and a whole one removes it. -/
theorem test_spi_fetch_frame :
    let s : State := { State.reset with line := { LinePort.reset with unread := some [1, 1], lastRefused := true } }
    (after (.spiFetchFrame [0, 0] whole) s).line.unread = some [1, 1] ∧ (after (.spiFetchFrame [0, 0, 0] whole) s).line.unread = none ∧
      (after (.spiFetchFrame [0, 0, 0] whole) s).line.shifted = [3, 2, 1, 1] := by decide +kernel

/-- One roll call with two requests and a lost panel: the end of slot 8, and GRANT 3. -/
theorem test_roll_call_loses_a_panel :
    let p : Panel := ⟨true, 0, false, 0⟩
    let l : PanelLink := { PanelLink.reset with
      phase := .slots
      slot := 7
      panels := #v[p, p, { p with asked := true }, p, p, { p with asked := true }, p, { p with silence := 2 }] }
    let s := after (.panelSlotEnd []) { State.reset with link := l }
    s.link.panel 7 = ⟨false, 3, false, 0⟩ ∧ s.attn.flag 64 = true ∧ s.link.granted = some 2 ∧ s.link.sent = [0xC6, 3] ∧
      (after .panelFrameDeadline s).link.sent = [0xC6, 6] := by decide +kernel

theorem test_call_begins_the_slots :
    (after .call { State.reset with link := { PanelLink.reset with quiet := false } }).link.phase = .slots ∧
      (after .call State.reset).link.phase = .calling := by decide +kernel

/-- A LOOKUP frame from panel 3 is accepted, and dropped with one bit of its CRC wrong. -/
theorem test_panel_request_frame :
    let l : PanelLink := { PanelLink.reset with phase := .receiving, granted := some 2 }
    let f := panelFrame 2 [1, 0, 0, 0, 0, 0, 7]
    f.length = 11 ∧
      (after (.panelRequestFrame (f.map .whole)) { State.reset with link := l }).link.inProgress = some [1, 0, 0, 0, 0, 0, 7] ∧
      (after (.panelRequestFrame ((f.dropLast ++ [f.getLastD 0 ^^^ 1]).map .whole)) { State.reset with link := l }).link.dropped =
        true := by decide +kernel

/-- The line-enable is driven while GRANT is sent, until the next step finds no command. -/
theorem test_idle_ends_a_grant :
    let s : State := { State.reset with link := { PanelLink.reset with phase := .granting, granted := some 2 } }
    s.link.lineEnable = true ∧ step s = .next { s with link := { s.link with phase := .receiving } } ∧
      ({ s.link with phase := .receiving } : PanelLink).lineEnable = false := ⟨rfl, rfl, rfl⟩

theorem test_panel_response_sent_calls_again :
    (after .panelResponseSent { State.reset with link := { PanelLink.reset with phase := .answering, unread := some [1, 1] } }).link.phase
      = .calling := by decide +kernel

/-! ## States that meet the hypotheses of the statements -/

theorem witness_StepTakesFrontCommand : State.reset.pending = [] ∧ exec .call State.reset = .next State.reset := ⟨rfl, rfl⟩

theorem witness_TickResult : State.reset.link.phase = .calling := rfl

theorem witness_TrimPeriodResult :
    let n := bench 0 (maker .strander .ready) []
    let i := bench 15 { maker .closer .done with settings := { polarity := .inverted } } []
    (n.head 0).laysLength = true ∧ (n.head 0).state ≠ .empty ∧ (n.head 0).state ≠ .idle ∧
      (n.head 0).settings.polarity = .normal ∧ (i.head 15).laysLength = true ∧ (i.head 15).state ≠ .empty ∧
      (i.head 15).state ≠ .idle ∧ (i.head 15).settings.polarity = .inverted := by decide +kernel

/-- The outputs of a strander being cut with MARK high, of a loom that is held, and of a head without a machine. -/
theorem witness_TrimPeriodResult_outputs :
    let m := { maker .strander .cutting with markHigh := true }
    let l := { maker .loom .held with holds := ⟨true, false, false⟩, markHigh := true }
    (m.kind = some .strander ∧ m.cut = true ∧ m.hold = false ∧ m.out2 = true) ∧
      (l.kind ≠ some .strander ∧ l.kind ≠ some .closer ∧ l.cut = false ∧ l.hold = true ∧ l.out2 = false ∧ l.out0 0 = false) ∧
      Head.reset.kind = none ∧ Head.reset.state = .empty := by decide +kernel

theorem witness_SenseSettledResult :
    let s := bench 15 { Head.reset with candidate := ⟨true, true, true, true⟩, settle := 64 } []
    let d := bench 0 { maker .strander .run with settle := 64 } []
    (s.head 15).settle = 64 ∧ senseResult (s.head 15).candidate ≠ (s.head 15).accepted ∧ (d.head 0).settle = 64 ∧
      senseResult (d.head 0).candidate ≠ (d.head 0).accepted ∧ (d.head 0).kind.isSome = true := by decide +kernel

theorem witness_DisconnectInterruptsProduct :
    ∃ (s : State) (r : Record), Stands s ∧ (s.head 3).settle = 64 ∧ senseResult (s.head 3).candidate ≠ (s.head 3).accepted ∧
      (s.head 3).kind = some .strander ∧ (s.head 3).state.running = true ∧ s.productOf 3 = some r ∧ r.state = .making :=
  ⟨bench 3 { maker .strander .cutting with settle := 64 } [strandAt3 0], strandAt3 0, stands_of _ (by decide +kernel),
    by decide +kernel⟩

/-- One step short of a millimetre; a head in READY; a loom. -/
theorem witness_EncPulseBelowOneMillimetre :
    let s := bench 3 { maker .strander .run with pitchFraction := 65534, settings := { pitch := 1 } } [strandAt3 5]
    (Stands s ∧ (s.head 3).state.running = true ∧ (s.head 3).kind = some .strander ∧
        (s.head 3).pitchFraction + (s.head 3).settings.pitch = 65535) ∧
      ((bench 3 (maker .strander .ready) []).head 3).state.running = false ∧
      ((bench 3 (maker .loom .run) []).head 3).kind = some .loom :=
  ⟨⟨stands_of _ (by decide +kernel), by decide +kernel⟩, by decide +kernel⟩

/-- Once with room for the advance, and once with the top passed and the limit not yet noted. -/
theorem witness_EncPulseAdvancesProduct : ∀ m ∈ [0, 4294967295],
    ∃ s : State, Stands s ∧ (s.head 3).state.running = true ∧ (s.head 3).laysLength = true ∧
      s.productOf 3 = some (strandAt3 m) ∧ (strandAt3 m).body.piece.isSome = true ∧ (strandAt3 m).made = m ∧
      65536 ≤ (s.head 3).pitchFraction + (s.head 3).settings.pitch ∧ (s.head 3).limitNoted = false := by
  intro m hm
  refine ⟨bench 3 (maker .strander .run) [strandAt3 m], ?_⟩
  simp only [List.mem_cons, List.not_mem_nil, or_false] at hm
  rcases hm with h | h <;> subst h <;> exact ⟨stands_of _ (by decide +kernel), by decide +kernel⟩

/-- An open span with GUARD and JOIN at made length 9, where the advance to 10 reaches one release and not the other, and the end
point; and a pending span, with the other release reached and no end point. -/
theorem witness_EncPulseAdvancesProduct_spans :
    let p : Piece := ⟨9, [⟨5, 9, { flaw := true, join := true }, true, { guard := true, join := true }⟩], none⟩
    let q : Piece := ⟨0, [], some ⟨0, { flaw := true, join := true }, { guard := true, join := true }⟩⟩
    let r := { strandAt3 9 with body := .strand ⟨none, some 10, p, 0, 0⟩ }
    let v := { strandAt3 0 with body := .strand ⟨none, none, q, 0, 0⟩ }
    let s := bench 3 { maker .strander .stopped with guardRelease := some 10, joinRelease := some 11 } [r]
    let t := bench 3 { maker .strander .run with guardRelease := some 2, joinRelease := some 1 } [v]
    (Stands s ∧ s.productOf 3 = some r ∧ r.endPoint = some 10 ∧ (s.head 3).state ≠ .cutting ∧ r.body.piece = some p ∧
        s.hasHolder 7 .join = true ∧ 65536 ≤ (s.head 3).settings.pitch) ∧
      Stands t ∧ t.productOf 3 = some v ∧ v.body.piece = some q ∧ v.endPoint = none ∧ t.hasHolder 7 .guard = true ∧
        (t.head 3).kind = some .strander ∧ 65536 ≤ (t.head 3).settings.pitch :=
  ⟨⟨stands_of _ (by decide +kernel), by decide +kernel⟩, stands_of _ (by decide +kernel), by decide +kernel⟩

/-- In RUN at the last millimetre before the planned length, in CUTTING at the top of the unwound length, and in HELD at the top of
the unplanned count. -/
theorem witness_EncPulseUnwinds :
    let g : Segment := ⟨none, 10, 0, 9, false⟩
    let k : Segment := ⟨none, 10, 0, 4294967295, false⟩
    let s := bench 9 { coiler .run with segment := some g } [ropeAt9 10 0 []]
    let t := bench 9 { coiler .cutting with segment := some k } [ropeAt9 10 0 []]
    let u := bench 9 { coiler .held with unplanned := 4294967295 } [ropeAt9 10 0 []]
    (Stands s ∧ (s.head 9).kind = some .coiler ∧ 65536 ≤ (s.head 9).settings.pitch ∧ (s.head 9).state = .run ∧
        (s.head 9).segment = some g ∧ g.planned ≤ min (g.unwound + 1) 4294967295) ∧
      (Stands t ∧ (t.head 9).state = .cutting ∧ (t.head 9).segment = some k ∧ (t.head 9).limitNoted = false) ∧
      Stands u ∧ (u.head 9).state = .held ∧ (u.head 9).unplanned = 4294967295 ∧ (u.head 9).limitNoted = false :=
  ⟨⟨stands_of _ (by decide +kernel), by decide +kernel⟩, ⟨stands_of _ (by decide +kernel), by decide +kernel⟩,
    stands_of _ (by decide +kernel), by decide +kernel⟩

/-- A feed of which the advance leaves a millimetre, and one that it spends. -/
theorem witness_EncPulseTakesUpFeed : ∀ m ∈ [2, 1],
    ∃ (s : State) (b : StrandBody), Stands s ∧ (s.head 5).state.running = true ∧ (s.head 5).kind = some .closer ∧
      s.productOf 5 = some (ropeAt5 0) ∧ ((s.head 5).slot 3).strand = some 21 ∧
      s.find 21 = some (feedAt 21 5 3 9 (9 - m) []) ∧ (feedAt 21 5 3 9 (9 - m) []).body = .strand b ∧
      65536 ≤ (s.head 5).pitchFraction + (s.head 5).settings.pitch ∧ ((s.head 5).slot 3).required = true ∧
      (((s.head 5).slot 3).acc + ((s.head 5).pitchFraction + (s.head 5).settings.pitch) / 65536 * 70779) / 65536 = 1 ∧
      b.piece.made - b.consumed = m := by
  intro m hm
  refine ⟨bench 5 (fed 3 21 (maker .closer .run)) [ropeAt5 0, feedAt 21 5 3 9 (9 - m) []],
    ⟨some 5120, none, ⟨9, [], none⟩, 9 - m, 0⟩, ?_⟩
  simp only [List.mem_cons, List.not_mem_nil, or_false] at hm
  rcases hm with h | h <;> subst h <;> exact ⟨stands_of _ (by decide +kernel), by decide +kernel⟩

/-- A closer whose advance of two millimetres draws two from the feed in slot 3, with a threshold of one metre. -/
def drawing (required : Bool) (made consumed : Nat) (l : List Span) : State :=
  let x := { maker .closer .run with settings := { pitch := 131072, feedLow := 1 } }
  bench 5 (x.updSlot 3 fun y => { y with strand := some 21, required := required }) [ropeAt5 4, feedAt 21 5 3 made consumed l]

/-- The rope's source list has an open entry of the strand that the advance spends, and one of another slot's, which stands. -/
theorem witness_EncPulseTakesUpFeed_sources :
    let l : List SourceEntry := [⟨21, 3, 0, none⟩, ⟨22, 0, 0, none⟩]
    let q := { ropeAt5 4 with body := .rope (ropeBody 4 0 [] l) }
    let s := bench 5 (fed 3 21 (fed 0 22 (maker .closer .run))) [q, feedAt 21 5 3 9 8 [], feedAt 22 5 0 9 0 []]
    Stands s ∧ (s.head 5).state.running = true ∧ (s.head 5).kind = some .closer ∧ s.productOf 5 = some q ∧
      ((s.head 5).slot 3).strand = some 21 ∧ s.find 21 = some (feedAt 21 5 3 9 8 []) ∧
      65536 ≤ (s.head 5).pitchFraction + (s.head 5).settings.pitch ∧ s.runsOut 5 3 1 = true ∧ s.runsOut 5 0 1 = false ∧
      ((after (.encPulse 5) s).find 7).map (fun r => r.body.sources) = some [⟨21, 3, 0, some 5⟩, ⟨22, 0, 0, none⟩] :=
  ⟨stands_of _ (by decide +kernel), by decide +kernel⟩

/-- A strand of a required slot spent to the millimetre, over a faulty stretch and over a clear one. -/
theorem witness_EncPulseCarriesFaults_exact :
    (let s := drawing true 9 7 [span 0 1 .flaw]
     Stands s ∧ s.productOf 5 = some (ropeAt5 4) ∧ s.find 21 = some (feedAt 21 5 3 9 7 [span 0 1 .flaw]) ∧ (9 - 7 : Nat) = 2 ∧
       ((s.head 5).slot 3).required = true ∧ meetsList 0 2 [span 0 1 .flaw] = true ∧
       (after (.encPulse 5) s).spansOf 7 = [openSpan 4 6 (.feed 3)]) ∧
    (let s := drawing true 9 7 []
     Stands s ∧ (after (.encPulse 5) s).spansOf 7 = [] ∧ (after (.encPulse 5) s).hasHolder 7 (.feed 3) = true) :=
  ⟨⟨stands_of _ (by decide +kernel), by decide +kernel⟩, stands_of _ (by decide +kernel), by decide +kernel⟩

/-- The new top inside a span; at a span's lo, with the span crossed whole; a strand run short in a required slot, and in an optional
one. -/
theorem witness_EncPulseCarriesFaults :
    (Stands (drawing true 9 0 [span 5 8 .flaw]) ∧ meetsList 7 9 [span 5 8 .flaw] = true) ∧
      (Stands (drawing true 9 0 [span 7 8 .flaw]) ∧ meetsList 7 9 [span 7 8 .flaw] = true ∧
        ∀ x ∈ [span 7 8 .flaw], 7 ≤ x.lo ∨ x.hi < 7) ∧
      (Stands (drawing true 9 8 []) ∧ (9 - 8 : Nat) < 2) ∧ Stands (drawing false 9 8 []) ∧
      (let s := drawing true 9 8 []
       (s.head 5).state.running = true ∧ s.productOf 5 = some (ropeAt5 4) ∧ ((s.head 5).slot 3).strand = some 21 ∧
         s.find 21 = some (feedAt 21 5 3 9 8 []) ∧ (2 * 70779) / 65536 = 2 ∧ ((s.head 5).slot 3).lowNoted = false ∧
         65536 ≤ (s.head 5).settings.pitch) :=
  ⟨⟨stands_of _ (by decide +kernel), by decide +kernel⟩, ⟨stands_of _ (by decide +kernel), by decide +kernel⟩,
    ⟨stands_of _ (by decide +kernel), by decide⟩, stands_of _ (by decide +kernel), by decide +kernel⟩

/-- Without a window, within one, and outside the states that count. -/
theorem witness_SpinPulseResult :
    let w : LayWindow := ⟨0, 6, 1, 8, 50, none⟩
    let s := bench 3 (maker .strander .run) [strandAt3 5]
    let t := bench 3 { maker .strander .cutting with window := some w, spinCount := 4 } [strandAt3 5]
    Stands s ∧ Stands t ∧ (s.head 3).laysLength = true ∧ (s.head 3).state = .run ∧ s.productOf 3 = some (strandAt3 5) ∧
      (s.head 3).window = none ∧ (t.head 3).laysLength = true ∧ (t.head 3).state = .cutting ∧
      t.productOf 3 = some (strandAt3 5) ∧ (t.head 3).window = some w ∧ (t.head 3).spinCount + 1 < w.spindle * w.turns ∧
      ((bench 3 (maker .strander .stopped) []).head 3).state = .stopped :=
  ⟨stands_of _ (by decide +kernel), stands_of _ (by decide +kernel), by decide +kernel⟩

/-- A window of one pulse over 8 mm: without a target lay, with one it meets, and with one it misses by more than the tolerance, the
trim code at its limit. -/
theorem witness_SpinPulseResult_end : ∀ target ∈ [none, some 128, some 64],
    ∃ (s : State) (w : LayWindow), Stands s ∧ (s.head 3).laysLength = true ∧ (s.head 3).state = .run ∧
      s.productOf 3 = some (strandAt3 8) ∧ (strandAt3 8).state = .making ∧ (strandAt3 8).kind ≠ .panel ∧
      (strandAt3 8).body.piece.isSome = true ∧ (s.head 3).window = some w ∧ w.spindle * w.turns ≤ (s.head 3).spinCount + 1 ∧
      w.target = target ∧
      (target = some 128 → (deviation (measuredLay 524288 w.turns) 128).natAbs ≤ w.tolerance) ∧
      (target = some 64 → w.tolerance < (deviation (measuredLay 524288 w.turns) 64).natAbs ∧
        trimClamped (s.head 3).settings.trimMin (s.head 3).settings.trimMax (s.head 3).trim
          (trimStep (deviation (measuredLay 524288 w.turns) 64) w.gain) = true) := by
  intro target ht
  refine ⟨bench 3 { maker .strander .run with trim := 0, window := some ⟨0, 1, 1, 255, 50, target⟩ } [strandAt3 8],
    ⟨0, 1, 1, 255, 50, target⟩, ?_⟩
  simp only [List.mem_cons, List.not_mem_nil, or_false] at ht
  rcases ht with h | h | h <;> subst h <;> exact ⟨stands_of _ (by decide +kernel), by decide +kernel⟩

/-- A window of one pulse over 8 mm, against a target lay of 112. -/
theorem witness_LayArithmetic_window :
    let w : LayWindow := ⟨0, 1, 1, 16, 50, some 112⟩
    let s := bench 3 { maker .strander .run with window := some w } [strandAt3 8]
    Stands s ∧ (s.head 3).laysLength = true ∧ (s.head 3).state = .run ∧ s.productOf 3 = some (strandAt3 8) ∧
      (s.head 3).window = some w ∧ w.spindle * w.turns ≤ (s.head 3).spinCount + 1 ∧
      ((after (.spinPulse 3) s).head 3).lastLay = some 128 ∧ ((after (.spinPulse 3) s).head 3).lastDeviation = some 143 ∧
      ((after (.spinPulse 3) s).head 3).trim = 369 :=
  ⟨stands_of _ (by decide +kernel), by decide +kernel⟩

/-- The thresholds of stage 1 for a window of one turn, the bounds of stage 2 with the least error that reaches them, and stage 4 at
both limits and one code beyond. -/
theorem witness_LayArithmetic : (measuredLay 2047 1 = 0 ∧ measuredLay 2048 1 = 1 ∧ measuredLay 268429311 1 = 65534 ∧
      measuredLay 268429312 1 = 65535 ∧ deviation 0 1 = -999 ∧ deviation 65535 1 = 999 ∧ deviation 998 1000 = -2 ∧
      deviation 3996 2000 = 998 ∧ deviation 3997 2000 = 999 ∧
      deviation 1000 1000 = 0) ∧
    trimCode 0 1023 512 512 = 0 ∧ trimClamped 0 1023 512 512 = false ∧ trimCode 0 1023 512 513 = 0 ∧
    trimClamped 0 1023 512 513 = true ∧ trimCode 0 1023 512 (-511) = 1023 ∧ trimClamped 0 1023 512 (-511) = false ∧
    trimClamped 0 1023 512 (-512) = true ∧ trimStep (-999) 255 = -15922 ∧ trimStep 999 255 = 15922 := by decide +kernel

theorem witness_RunEdges :
    (let s := bench 3 (maker .strander .ready) [strandAt3 0]
     (s.head 3).state = .ready ∧ (s.head 3).flawHigh = false ∧ (s.head 3).feedMissing = false ∧
       (s.productOf 3).map Record.atEnd = some false) ∧
    (let s := bench 5 ((maker .closer .ready).updSlot 3 fun y => { y with required := true }) [ropeAt5 249999]
     (s.head 5).state = .ready ∧ (s.head 5).feedMissing = true ∧ (s.head 5).holds.feedShort = false ∧
       (s.productOf 5).map Record.atEnd = some false) ∧
    (let s := bench 5 (maker .closer .ready) [ropeAt5 250000]
     (s.head 5).state = .ready ∧ s.productOf 5 = some (ropeAt5 250000) ∧ (ropeAt5 250000).atEnd = true) ∧
    (let s := bench 5 (maker .closer .stopped) [ropeAt5 0]
     (s.head 5).state = .stopped ∧ (s.head 5).feedMissing = false) ∧
    ((bench 5 (maker .closer .run) []).head 5).state = .run ∧ ((bench 5 (maker .closer .cutting) []).head 5).cutRunHigh = false ∧
    Stands (bench 5 (maker .closer .run) [ropeAt5 0]) := by
  refine ⟨by decide +kernel, by decide +kernel, by decide +kernel, by decide +kernel, by decide +kernel, by decide +kernel,
    stands_of _ (by decide +kernel)⟩

/-- FLAW high at a rise of RUN from READY: a coiler, a loom, and a strander at its end point. -/
theorem witness_RunEdges_flaw :
    (let s := bench 9 { coiler .ready with flawHigh := true } [ropeAt9 10 0 []]
     Stands s ∧ (s.head 9).state = .ready ∧ (s.head 9).flawHigh = true ∧ (s.head 9).kind = some .coiler ∧
       (s.head 9).feedMissing = false ∧ s.productOf 9 = none) ∧
    (let s := bench 12 { maker .loom .ready with flawHigh := true } [panelAt12 0]
     Stands s ∧ (s.head 12).state = .ready ∧ (s.head 12).flawHigh = true ∧ s.productOf 12 = some (panelAt12 0)) ∧
    (let s := bench 5 { maker .closer .ready with flawHigh := true } [ropeAt5 250000]
     Stands s ∧ (s.head 5).laysLength = true ∧ s.productOf 5 = some (ropeAt5 250000) ∧ (ropeAt5 250000).atEnd = true ∧
       (ropeAt5 250000).state = .making ∧ (ropeAt5 250000).kind ≠ .panel ∧ (ropeAt5 250000).body.piece.isSome = true ∧
       s.hasHolder 7 .flaw = false) :=
  ⟨⟨stands_of _ (by decide +kernel), by decide +kernel⟩, ⟨stands_of _ (by decide +kernel), by decide +kernel⟩,
    stands_of _ (by decide +kernel), by decide +kernel⟩

/-- A cut at the end of its wait, and one at the fall of RUN; a wait of one tick has not ended. -/
theorem witness_CutCompletesProduct :
    let s := bench 3 { maker .strander .cutting with cutWait := some 0 } [strandAt3 9]
    let t := bench 3 { maker .strander .cutting with cutRunHigh := true, runHigh := true } [strandAt3 9]
    let u := bench 3 { maker .strander .cutting with cutWait := some 1 } [strandAt3 9]
    Stands s ∧ Stands t ∧ Stands u ∧ (s.head 3).state = .cutting ∧ (s.head 3).kind = some .strander ∧
      s.productOf 3 = some (strandAt3 9) ∧ (strandAt3 9).state = .making ∧ (s.head 3).cutWait = some 0 ∧
      (t.head 3).state = .cutting ∧ t.productOf 3 = some (strandAt3 9) ∧ (t.head 3).cutRunHigh = true ∧
      (u.head 3).state = .cutting ∧ (u.head 3).cutWait ≠ some 0 :=
  ⟨stands_of _ (by decide +kernel), stands_of _ (by decide +kernel), stands_of _ (by decide +kernel), by decide +kernel⟩

/-- A closer in a cut with a strand in a slot and its open source entry: a cut completion, a disconnect and a RELEASE. -/
theorem witness_EndsMaking :
    let q := { ropeAt5 9 with body := .rope (ropeBody 9 0 [] [⟨20, 3, 0, some 2⟩, ⟨21, 3, 2, none⟩]) }
    let c : Instr := .release .lineComputer 5
    let s := asked c (bench 5 (fed 3 21 { maker .closer .cutting with cutWait := some 0, settle := 64 }) [q, feedAt 21 5 3 9 5 []])
    Stands s ∧ s.Asks .lineComputer c (requestBody c) ∧ s.mayRelease .lineComputer 5 = true ∧ s.productOf 5 = some q ∧
      senseResult (s.head 5).candidate ≠ (s.head 5).accepted ∧ (s.head 5).cutWait = some 0 ∧ ((s.head 5).slot 3).strand = some 21 ∧
      (s.head 5).kind = some .closer ∧ ∀ i ∈ [c, .cutWaitExpiry 5, .senseSettled 5],
        ((after i s).find 21).map Record.state = some .made ∧ ((after i s).find 21).map Record.bound = some none ∧
        ((after i s).find 7).map (fun r => r.body.sources) = some [⟨20, 3, 0, some 2⟩, ⟨21, 3, 2, some 9⟩] :=
  ⟨stands_of _ (by decide +kernel), asked_asks _ _ (by decide +kernel), by decide +kernel⟩

/-- The coil 1 that head 9 winds. -/
def winding (lo hi : Nat) : Record := record 1 .winding (some (9, .segment)) (coil lo hi .first)

/-- A coil cut at the end of a wait with an overrun past the rope's end into a span below the coil, the entry linked; and a WASTE
segment cut at the fall of RUN, with an unplanned length. -/
theorem witness_CutCompletesCoil :
    let g : Segment := ⟨some 1, 5, 5, 11, true⟩
    let o : CoilOrder := ⟨1000, 2, .secondOk⟩
    let s := bench 9 { coiler .cutting with cutWait := some 0, segment := some g, queue := [o] }
      [winding 5 10, ropeAt9 10 0 [span 2 3 .flaw]]
    let k : Segment := ⟨none, 10, 0, 4, false⟩
    let t := bench 9 { coiler .cutting with cutRunHigh := true, segment := some k, unplanned := 7 } [ropeAt9 10 0 []]
    (Stands s ∧ (s.head 9).state = .cutting ∧ (s.head 9).kind = some .coiler ∧
        s.sourceOf 9 = some (ropeAt9 10 0 [span 2 3 .flaw], ropeBody 10 0 [span 2 3 .flaw] []) ∧ (s.head 9).segment = some g ∧
        s.find 1 = some (winding 5 10) ∧ (s.head 9).cutWait = some 0 ∧ (s.head 9).queue = [o] ∧
        meetsList 0 10 [span 2 3 .flaw] = true) ∧
      Stands t ∧ (t.head 9).state = .cutting ∧ t.sourceOf 9 = some (ropeAt9 10 0 [], ropeBody 10 0 [] []) ∧
        (t.head 9).segment = some k ∧ (t.head 9).cutRunHigh = true :=
  ⟨⟨stands_of _ (by decide +kernel), by decide +kernel⟩, stands_of _ (by decide +kernel), by decide +kernel⟩

/-- The plan point after a cut of the planned coil: with nothing left and FLAW high, which reaches the coil; with waste left; and with
a coil's length left, with an order and without one. -/
theorem witness_CutCompletesCoil_plans :
    let o : CoilOrder := ⟨1000, 2, .firstOnly⟩
    let s := fun (m : Nat) (q : List CoilOrder) => bench 9
      { coiler .cutting with
        cutWait := some 0
        flawHigh := true
        flawRise := some 2
        segment := some ⟨some 1, 1000, m - 1000, 1000, true⟩
        queue := q
        settings := { minCoil := 1000 } }
      [winding (m - 1000) m, ropeAt9 m 0 []]
    let t := fun (m : Nat) (q : List CoilOrder) => (after (.cutWaitExpiry 9) (s m q)).head 9
    (Stands (s 1000 [o]) ∧ Stands (s 1999 [o]) ∧ Stands (s 2000 [o]) ∧ Stands (s 2000 [])) ∧ ((s 2000 [o]).head 9).cutWait = some 0 ∧
      ((t 1000 [o]).state = .done ∧ (after (.cutWaitExpiry 9) (s 1000 [o])).spansOf 7 = [span 0 2 .flaw] ∧
        ((after (.cutWaitExpiry 9) (s 1000 [o])).coilOf 1).map CoilBody.grade = some .second) ∧
      ((t 1999 [o]).state = .stopped ∧ (t 1999 [o]).segment = some ⟨none, 999, 0, 0, false⟩) ∧
      ((t 2000 [o]).queue = [⟨1000, 1, .firstOnly⟩] ∧ (t 2000 [o]).segment = some ⟨some 2, 1000, 0, 0, true⟩) ∧
      (t 2000 []).state = .held ∧ (t 2000 []).holds = ⟨false, true, false⟩ :=
  ⟨⟨stands_of _ (by decide +kernel), stands_of _ (by decide +kernel), stands_of _ (by decide +kernel), stands_of _ (by decide +kernel)⟩,
    by decide +kernel⟩

/-- A disconnect in the middle of a coil whose overrun reaches a span; a WASTE segment that takes the whole rope, given up by RELEASE; and
an unplanned length given up by RELEASE from a panel. -/
theorem witness_CoilerGivesUpRope :
    let c : Instr := .release .lineComputer 9
    let d : Instr := .release .floorPanel 9
    let s := bench 9 { coiler .run with settle := 64, segment := some ⟨some 1, 5, 5, 8, true⟩ }
      [winding 5 10, ropeAt9 10 0 [span 2 3 .flaw]]
    let t := asked c (bench 9 { coiler .stopped with segment := some ⟨none, 10, 0, 10, false⟩ } [ropeAt9 10 0 []])
    let u := askedPanel d 512 (bench 9 { coiler .held with unplanned := 3 } [ropeAt9 10 0 []])
    (Stands s ∧ (s.head 9).settle = 64 ∧ senseResult (s.head 9).candidate ≠ (s.head 9).accepted ∧ (s.head 9).flawHigh = false ∧
        s.sourceOf 9 = some (ropeAt9 10 0 [span 2 3 .flaw], ropeBody 10 0 [span 2 3 .flaw] []) ∧ s.find 1 = some (winding 5 10) ∧
        meetsList 2 10 [span 2 3 .flaw] = true) ∧
      (Stands t ∧ t.Asks .lineComputer c (requestBody c) ∧ t.mayRelease .lineComputer 9 = true ∧ (t.head 9).state.running = true ∧
        t.sourceOf 9 = some (ropeAt9 10 0 [], ropeBody 10 0 [] [])) ∧
      Stands u ∧ u.Asks .floorPanel d (requestBody d) ∧ u.mayRelease .floorPanel 9 = true ∧ (u.head 9).segment = none :=
  ⟨⟨stands_of _ (by decide +kernel), by decide +kernel⟩,
    ⟨stands_of _ (by decide +kernel), asked_asks _ _ (by decide +kernel), by decide +kernel⟩,
    stands_of _ (by decide +kernel), askedPanel_asks _ _ _ (by decide +kernel), by decide +kernel⟩

/-- FLAW high over the top of the segment and a BANDED coil above it: the coil being wound is reached below what was wound. -/
theorem witness_CoilerGivesUpRope_flaw :
    let c : Instr := .release .lineComputer 9
    let s := asked c (bench 9 { coiler .run with flawHigh := true, flawRise := some 4, segment := some ⟨some 1, 6, 0, 1, true⟩ }
      [winding 0 6, record 2 .banded none (coil 6 10 .first), record 3 .wound none (coil 4 7 .first), ropeAt9 10 4 []])
    Stands s ∧ s.Asks .lineComputer c (requestBody c) ∧ s.mayRelease .lineComputer 9 = true ∧ (s.head 9).state.running = true ∧
      s.sourceOf 9 = some (ropeAt9 10 4 [], ropeBody 10 4 [] []) ∧ s.unwindPosition 9 = 5 ∧ (s.head 9).flawHigh = true ∧
      (s.head 9).flawRise = some 4 ∧ coilerFlaw 10 0 4 5 = span 5 6 .flaw ∧ s.reachesBanded 7 (span 5 6 .flaw) = true ∧
      (s.head 9).named .segment ≠ some 3 ∧ (after c s).spansOf 7 = [span 5 6 .flaw] ∧
      ((after c s).coilOf 1).map CoilBody.grade = some .second ∧ ((after c s).coilOf 3).map CoilBody.grade = some .second ∧
      ((after c s).attn.causesOf 9).bandedFlaw = true :=
  ⟨stands_of _ (by decide +kernel), asked_asks _ _ (by decide +kernel), by decide +kernel⟩

theorem witness_FlawRiseResult :
    ((bench 3 (maker .strander .ready) []).head 3).state.running = false ∧
    (let s := bench 9 (coiler .held) []
     (s.head 9).state.running = true ∧ (s.head 9).kind = some .coiler) ∧
    (let s := bench 12 (maker .loom .stopped) []
     (s.head 12).state.running = true ∧ (s.head 12).kind = some .loom) ∧
    (let s := bench 3 (maker .strander .run) [strandAt3 5]
     (s.head 3).state.running = true ∧ (s.head 3).laysLength = true ∧ s.productOf 3 = some (strandAt3 5) ∧
       (strandAt3 5).state = .making ∧ (strandAt3 5).kind ≠ .panel ∧ (strandAt3 5).body.piece.isSome = true ∧
       s.hasHolder 7 .flaw = false) ∧ Stands (bench 3 (maker .strander .run) [strandAt3 5]) :=
  ⟨by decide +kernel, by decide +kernel, by decide +kernel, by decide +kernel, stands_of _ (by decide +kernel)⟩

/-- FLAW rises while GUARD is held, with a margin raised since; and where FLAW is held already. -/
theorem witness_FlawRiseResult_held :
    let r := fun x : Holder => { strandAt3 9 with body := strand 9 0 [openSpan 5 9 x] }
    let s := fun x : Holder => bench 3 { maker .strander .run with guardRelease := some 11, settings := { guardMargin := 6 } } [r x]
    (Stands (s .guard) ∧ (s .guard).productOf 3 = some (r .guard) ∧ ((s .guard).head 3).state.running = true ∧
        (s .guard).hasHolder 7 .flaw = false ∧ (s .guard).hasHolder 7 .guard = true ∧
        (after (.flawRise 3) (s .guard)).spansOf 7 = [openSpan 3 9 .flaw] ∧
        ((after (.flawRise 3) (s .guard)).head 3).guardRelease = none) ∧
      Stands (s .flaw) ∧ (s .flaw).productOf 3 = some (r .flaw) ∧ (s .flaw).hasHolder 7 .flaw = true :=
  ⟨⟨stands_of _ (by decide +kernel), by decide +kernel⟩, stands_of _ (by decide +kernel), by decide +kernel⟩

/-- On a strander with a FLAW holder and a margin; on a coiler whose interval is empty at the rope's made length; and on one whose
flaw reaches the coil it winds and a BANDED coil. -/
theorem witness_FlawFallResult :
    let r := { strandAt3 9 with body := strand 9 0 [openSpan 5 9 .flaw] }
    let s := bench 3 { maker .strander .run with settings := { guardMargin := 1 } } [r]
    let t := bench 9 { coiler .run with flawRise := some 10 } [ropeAt9 10 0 []]
    let u := bench 9 { coiler .run with flawRise := some 8, segment := some ⟨some 1, 6, 0, 3, true⟩ }
      [winding 0 6, record 2 .banded none (coil 6 10 .first), ropeAt9 10 4 []]
    ((bench 12 (maker .loom .run) []).head 12).kind = some .loom ∧
    (Stands s ∧ (s.head 3).state.running = true ∧ (s.head 3).laysLength = true ∧ s.productOf 3 = some r ∧
       s.hasHolder r.tag .flaw = true ∧ 0 < (s.head 3).settings.guardMargin) ∧
    (Stands t ∧ (t.head 9).state.running = true ∧ (t.head 9).kind = some .coiler ∧
       t.sourceOf 9 = some (ropeAt9 10 0 [], ropeBody 10 0 [] []) ∧ (t.head 9).flawRise = some 10 ∧ t.unwindPosition 9 = 10) ∧
    Stands u ∧ u.sourceOf 9 = some (ropeAt9 10 4 [], ropeBody 10 4 [] []) ∧ u.unwindPosition 9 = 3 ∧
      u.reachesBanded 7 ⟨3, 8, KindSet.only .flaw, false, {}⟩ = true ∧ meetsList 0 6 [span 3 8 .flaw] = true :=
  ⟨by decide +kernel, ⟨stands_of _ (by decide +kernel), by decide +kernel⟩,
    ⟨stands_of _ (by decide +kernel), by decide +kernel⟩, stands_of _ (by decide +kernel), by decide +kernel⟩

/-- A panel being made on the loom at head 12, and the loom with a row in progress. -/
def weaving (w : Option RowWindow) (rows excess : Nat) : State :=
  bench 12 { maker .loom .run with row := w, excessWatch := excess } [panelAt12 rows]

theorem witness_KnotPulseResult :
    ((bench 3 (maker .strander .run) []).head 3).kind ≠ some .loom ∧
    (let s := weaving none 0 0
     (s.head 12).kind = some .loom ∧ (s.head 12).state.running = true ∧ (s.head 12).row = none ∧ (s.head 12).excessWatch = 0) ∧
    (let s := weaving none 0 1
     (s.head 12).row = none ∧ 0 < (s.head 12).excessWatch) ∧
    (let w : RowWindow := ⟨0, 198, 5, false, 200, 50, 12⟩
     ((weaving (some w) 0 0).head 12).row = some w ∧ w.count + 1 < w.knots) ∧
    (let w : RowWindow := ⟨0, 199, 5, false, 200, 50, 12⟩
     let s := weaving (some w) 65535 0
     (s.head 12).row = some w ∧ w.knots ≤ w.count + 1 ∧ s.productOf 12 = some (panelAt12 65535) ∧
       (panelAt12 65535).kind = .panel) ∧ Stands (weaving none 65535 1) :=
  ⟨by decide +kernel, by decide +kernel, by decide +kernel, by decide +kernel, by decide +kernel, stands_of _ (by decide +kernel)⟩

theorem witness_RowPulseResult :
    ((bench 12 (maker .loom .ready) []).head 12).state.running = false ∧
    (let s := weaving none 0 0
     (s.head 12).kind = some .loom ∧ (s.head 12).state.running = true ∧ s.productOf 12 = some (panelAt12 0) ∧
       (panelAt12 0).body = .panel ⟨200, 50, 12, some 121, ⟨0, [], none⟩, 40, []⟩ ∧ (s.head 12).row = none) ∧
    (let w : RowWindow := ⟨0, 0, 5, false, 200, 50, 12⟩
     let s := weaving (some w) 65535 0
     (s.head 12).row = some w ∧ s.productOf 12 = some (panelAt12 65535)) ∧ Stands (weaving none 0 0) :=
  ⟨by decide +kernel, by decide +kernel, by decide +kernel, stands_of _ (by decide +kernel)⟩

theorem witness_RowExpiryResult :
    ((weaving none 0 0).head 12).row = none ∧
    (let w : RowWindow := ⟨0, 0, 1, false, 200, 50, 12⟩
     ((weaving (some w) 0 0).head 12).row = some w ∧ 0 < w.expiry) ∧
    (let w : RowWindow := ⟨0, 199, 0, true, 200, 50, 12⟩
     let s := weaving (some w) 65535 0
     (s.head 12).row = some w ∧ w.expiry = 0 ∧ s.productOf 12 = some (panelAt12 65535) ∧
       (panelAt12 65535).body = .panel ⟨200, 50, 12, some 121, ⟨65535, [], none⟩, 40, []⟩ ∧ w.count < w.knots ∧
       w.flawSeen = true) ∧ Stands (weaving none 0 0) :=
  ⟨by decide +kernel, by decide +kernel, by decide +kernel, stands_of _ (by decide +kernel)⟩

/-- A loom at row `rows` of 121 with strands 21 and 22 of `m` millimetres in its slots, and a row of `n` knots counted. -/
def rowOf (n rows m : Nat) : State :=
  bench 12 (fed 0 21 (fed 1 22 { maker .loom .run with
    row := some ⟨rows, n, 0, false, 2, 3, 1⟩
    settings := { feedLow := 1 } })) [panelAt12 rows, feedAt 21 12 0 m 0 [], feedAt 22 12 1 900 0 []]

/-- A row without a knot, which charges nothing; a whole row before the last; the last row, whose charge spends a strand to the
millimetre; and a row with an empty slot. -/
theorem witness_RowCloseResult :
    (Stands (rowOf 0 0 900) ∧ (rowOf 0 0 900).productOf 12 = some (panelAt12 0)) ∧
      (Stands (rowOf 2 119 900) ∧ meetsList 892 900 [] = false ∧ ((rowOf 2 119 900).head 12).row = some ⟨119, 2, 0, false, 2, 3, 1⟩) ∧
      (Stands (rowOf 1 120 8) ∧ ((rowOf 1 120 8).head 12).kind = some .loom ∧ (8 : Nat) ≤ (1 + 1) * (3 + 1) ∧
        ((rowOf 1 120 8).find 21) = some (feedAt 21 12 0 8 0 []) ∧ (((rowOf 1 120 8).head 12).slot 0).required = true ∧
        (((rowOf 1 120 8).head 12).slot 1).lowNoted = false) ∧
      ((weaving (some ⟨0, 1, 0, false, 2, 3, 1⟩) 0 0).head 12).row = some ⟨0, 1, 0, false, 2, 3, 1⟩ ∧
        (((weaving none 0 0).head 12).slot 1).strand = none :=
  ⟨⟨stands_of _ (by decide +kernel), by decide +kernel⟩, ⟨stands_of _ (by decide +kernel), by decide +kernel⟩,
    ⟨stands_of _ (by decide +kernel), by decide +kernel⟩, by decide +kernel⟩

/-- The last row of a panel, one knot of two tied, open as the binding ends: by RELEASE and by a disconnect in RUN, where the head
passes CUTTING on the way, and by both ways in which a cut completes. Its charge spends strand 21 to the millimetre. -/
theorem witness_RowCloseResult_ends :
    let c : Instr := .release .lineComputer 12
    let s := asked c { (rowOf 1 120 4).updHead 12 fun x => { x with settle := 64 } with store := (rowOf 1 120 4).store.map fun r =>
      { r with body := r.body.withSources [⟨21, 0, 0, none⟩, ⟨22, 1, 5, none⟩] } }
    let t := s.updHead 12 fun x => { x with state := .cutting, cutWait := some 0, cutRunHigh := true }
    (Stands s ∧ Stands t) ∧ s.Asks .lineComputer c (requestBody c) ∧ s.mayRelease .lineComputer 12 = true ∧
      senseResult (s.head 12).candidate ≠ (s.head 12).accepted ∧ (s.head 12).settle = 64 ∧ (s.head 12).state = .run ∧
      (s.head 12).row = some ⟨120, 1, 0, false, 2, 3, 1⟩ ∧ s.runsOut 12 0 4 = true ∧ (s.head 12).holds.feedShort = false ∧
      (t.head 12).cutWait = some 0 ∧ (t.head 12).cutRunHigh = true ∧
      ∀ u ∈ [after c s, after (.senseSettled 12) s, after (.cutWaitExpiry 12) t, after (.runFall 12) t],
        (u.find 21).map Record.state = some .spent ∧ (u.find 22).map Record.state = some .made ∧ u.flagged 12 .state = true ∧
        u.madeOf 7 = some 121 ∧ (u.find 7).map (fun r => r.body.sources) = some [⟨21, 0, 0, some 121⟩, ⟨22, 1, 5, some 121⟩] :=
  ⟨⟨stands_of _ (by decide +kernel), stands_of _ (by decide +kernel)⟩, asked_asks _ _ (by decide +kernel), by decide +kernel⟩

/-! ### Requests -/

/-- A store of `n` records alike but for their tags. -/
def many (n : Nat) (st : RecordState) (bound : Option (HeadIx × Role)) (b : Body) : List Record :=
  (List.range n).map fun i => record (i + 1) st bound b

/-- A store of `n` banded coils. -/
def coils (n : Nat) : List Record := many n .banded none (coil 0 9 .first)

theorem many_storeOk (s : State) (n : Nat) (st : RecordState) (bound : Option (HeadIx × Role)) (b : Body)
    (h : s.store = many n st bound b) (hn : n ≤ 256) : s.StoreOk := by
  refine ⟨?_, ?_, ?_⟩
  · unfold Ascending
    rw [h, many, List.pairwise_map]
    exact List.pairwise_lt_range.imp fun h => Nat.succ_lt_succ h
  · rw [h]
    simpa [many, storeCap] using hn
  · intro r hr
    rw [h, many, List.mem_map] at hr
    obtain ⟨i, hi, rfl⟩ := hr
    have hi' : i < n := List.mem_range.mp hi
    simp only [record, tagTop]
    omega

/-- Both ports bring a LOOKUP: the line computer, and panel 1; tag 0 is of no record. A NEXT whose filter names no value, one that
finds nothing, and one that finds the record of the smallest tag. -/
theorem witness_LookupAndNextAnswer :
    let b := bench 3 Head.reset [strandAt3 5]
    let c : Instr := .lookup .lineComputer 7
    let d : Instr := .lookup .floorPanel 7
    let e : Instr := .lookup .lineComputer 0
    let f : Instr := .nextRecord .lineComputer 0 5 0
    let g : Instr := .nextRecord .lineComputer 7 1 0
    let k : Instr := .nextRecord .lineComputer 6 1 2
    ((asked c b).Asks .lineComputer c (requestBody c) ∧ (askedPanel d 0 b).Asks .floorPanel d (requestBody d) ∧
        (asked e b).Asks .lineComputer e (requestBody e)) ∧
      ((asked f b).Asks .lineComputer f (requestBody f) ∧ (asked g b).Asks .lineComputer g (requestBody g) ∧
        (asked k b).Asks .lineComputer k (requestBody k)) ∧
      b.StoreOk ∧ (asked c b).find 7 = some (strandAt3 5) ∧ (askedPanel d 0 b).find 7 = some (strandAt3 5) ∧
      (asked e b).find 0 = none ∧ recordKindOf 5 = none ∧ recordKindOf 1 = some (strandAt3 5).kind ∧
      recordStateOf 2 = some (strandAt3 5).state ∧ (asked k b).store = [strandAt3 5] ∧ (strandAt3 5).tag = 7 :=
  ⟨⟨asked_asks _ _ (by decide +kernel), askedPanel_asks _ _ _ (by decide +kernel), asked_asks _ _ (by decide +kernel)⟩,
    ⟨asked_asks _ _ (by decide +kernel), asked_asks _ _ (by decide +kernel), asked_asks _ _ (by decide +kernel)⟩,
    storeOk_of _ (by decide +kernel), by decide +kernel⟩

theorem witness_ReadListsAnswer :
    let b := bench 9 Head.reset [record 1 .wound none (coil 0 9 .first), ropeAt9 9 0 []]
    let r1 : Instr := .readSpans .lineComputer 7
    let r2 : Instr := .readSpans .lineComputer 1
    let r3 : Instr := .readSources .lineComputer 7 15
    let r4 : Instr := .readSources .lineComputer 7 16
    let r5 : Instr := .readSources .lineComputer 1 0
    ((asked r1 b).Asks .lineComputer r1 (requestBody r1) ∧ (asked r2 b).Asks .lineComputer r2 (requestBody r2) ∧
        (asked r3 b).Asks .lineComputer r3 (requestBody r3) ∧ (asked r4 b).Asks .lineComputer r4 (requestBody r4) ∧
        (asked r5 b).Asks .lineComputer r5 (requestBody r5)) ∧
      (asked r1 b).find 7 = some (ropeAt9 9 0 []) ∧ (ropeAt9 9 0 []).body.piece = some ⟨9, [], none⟩ ∧
      (ropeAt9 9 0 []).kind = .rope ∧ ((asked r2 b).find 1).map Record.kind = some .coil :=
  ⟨⟨asked_asks _ _ (by decide +kernel), asked_asks _ _ (by decide +kernel), asked_asks _ _ (by decide +kernel),
      asked_asks _ _ (by decide +kernel), asked_asks _ _ (by decide +kernel)⟩, by decide +kernel⟩

theorem witness_ReadListsAnswer_absent :
    let c : Instr := .readSpans .lineComputer 7
    let d : Instr := .readSources .floorPanel 7 16
    (asked c State.reset).Asks .lineComputer c (requestBody c) ∧ (askedPanel d 0 State.reset).Asks .floorPanel d (requestBody d) ∧
      State.reset.find 7 = none :=
  ⟨asked_asks _ _ (by decide +kernel), askedPanel_asks _ _ _ (by decide +kernel), rfl⟩

theorem witness_HeadStatusAnswer : ∀ n ∈ [0, 15, 16], (asked (.headStatus .lineComputer n) State.reset).Asks .lineComputer
    (.headStatus .lineComputer n) (requestBody (.headStatus .lineComputer n)) := by
  intro n hn
  simp only [List.mem_cons, List.not_mem_nil, or_false] at hn
  rcases hn with h | h | h <;> subst h <;> exact asked_asks _ _ (by decide +kernel)

/-- A record not live; a COIL that AMEND may not name; an INTERRUPTED strand, which BAND may not name for its kind nor a panel's ADD_SPAN
refuse for its state; a MADE one that CONCLUDE may not name; and each mark but the present one. -/
theorem witness_RecordRefusals :
    let b := bench 3 Head.reset [record 1 .wound none (coil 0 9 .first), record 7 .interrupted none (strand 5 0 []),
      record 8 .made none (strand 5 0 [])]
    let c1 : Instr := .amend .lineComputer 1 3 []
    let c2 : Instr := .retire .lineComputer 9 3
    let c3 : Instr := .conclude .lineComputer 8 3
    let c4 : Instr := .addSpan .floorPanel 7 4 0 1 1
    let c5 : Instr := .band .lineComputer 7 3
    ((asked c1 b).Asks .lineComputer c1 (requestBody c1) ∧ (asked c2 b).Asks .lineComputer c2 (requestBody c2) ∧
        (asked c3 b).Asks .lineComputer c3 (requestBody c3) ∧ (askedPanel c4 0 b).Asks .floorPanel c4 (requestBody c4) ∧
        (asked c5 b).Asks .lineComputer c5 (requestBody c5)) ∧
      actsOnKind c1 .coil = false ∧ b.find 9 = none ∧ actsOnKind c3 .strand = true ∧ actsInState c3 .strand .made = false ∧
      c4.lineOnly = false ∧ c4.recordOperand = some (7, 4) ∧ actsOnKind c4 .strand = true ∧
      actsInState c4 .strand .interrupted = true ∧ (4 : Mark) ≠ 3 ∧ actsOnKind c5 .strand = false :=
  ⟨⟨asked_asks _ _ (by decide +kernel), asked_asks _ _ (by decide +kernel), asked_asks _ _ (by decide +kernel),
      askedPanel_asks _ _ _ (by decide +kernel), asked_asks _ _ (by decide +kernel)⟩, by decide +kernel⟩

/-- A panel may send the ADD_SPAN of `witness_RecordRefusals` for a record of a head that its mask holds. -/
theorem witness_RecordRefusals_panel :
    let c : Instr := .addSpan .floorPanel 7 4 0 1 1
    let s := askedPanel c 8 (bench 3 (maker .strander .run) [strandAt3 5])
    s.mayTouch .floorPanel 7 = true ∧ s.find 7 = some (strandAt3 5) := by decide +kernel

/-- Into an empty store, as the 240th record, and into a full store. -/
theorem witness_CreateResult : ∀ n ∈ [0, 239, 256],
    ∃ (s : State) (b : Body), s.StoreOk ∧
      s.Asks .lineComputer (.create .lineComputer 281474976710655 1 []) (requestBody (.create .lineComputer 281474976710655 1 [])) ∧
      s.find 281474976710655 = none ∧ recordKindOf 1 = some .strand ∧ freshBody [] .strand = some b ∧
      createListOk .strand [] = true ∧ s.store.length = n := by
  intro n hn
  refine ⟨asked (.create .lineComputer 281474976710655 1 []) (bench 0 Head.reset (coils n)), .strand ⟨none, none, Piece.fresh, 0, 0⟩, ?_⟩
  simp only [List.mem_cons, List.not_mem_nil, or_false] at hn
  rcases hn with h | h | h <;> subst h <;>
    exact ⟨many_storeOk _ _ _ _ _ rfl (by decide), asked_asks _ _ (by decide +kernel), by decide +kernel, rfl, rfl,
      by decide +kernel⟩

/-- The refusals of CREATE: a live tag, a COIL, kinds without a name, tag 0, and specifications that fail the field check. -/
theorem witness_CreateResult_refused :
    let live := bench 3 Head.reset [strandAt3 5]
    let c := fun (tag kind : Nat) (l : List Item) => Instr.create .lineComputer tag kind l
    ((asked (c 7 4 []) live).Asks .lineComputer (c 7 4 []) (requestBody (c 7 4 [])) ∧ live.find 7 ≠ none ∧
        answered (after (c 7 4 []) (asked (c 7 4 []) live)) = some [5, 2]) ∧
      ((asked (c 8 4 [⟨1, some 0⟩]) live).Asks .lineComputer (c 8 4 [⟨1, some 0⟩]) (requestBody (c 8 4 [⟨1, some 0⟩])) ∧
        live.find 8 = none ∧ answered (after (c 8 4 [⟨1, some 0⟩]) (asked (c 8 4 [⟨1, some 0⟩]) live)) = some [5, 5]) ∧
      (∀ n ∈ [0, 5], (asked (c 8 n []) live).Asks .lineComputer (c 8 n []) (requestBody (c 8 n []))) ∧
      (asked (c 0 1 []) live).Asks .lineComputer (c 0 1 []) (requestBody (c 0 1 [])) ∧
      badSpec false .strand [⟨1, some 15⟩] ∧ badSpec false .rope [⟨3, some 3⟩] ∧ badSpec true .panel [⟨5, none⟩] ∧
      badSpec true .strand [⟨2, none⟩, ⟨2, some 1⟩] ∧ badSpec true .strand [⟨3, some 3⟩] := by
  refine ⟨⟨asked_asks _ _ (by decide +kernel), by decide +kernel⟩, ⟨asked_asks _ _ (by decide +kernel), by decide +kernel⟩, ?_,
    asked_asks _ _ (by decide +kernel), .inl ⟨_, List.mem_singleton_self _, .inr (.inl ⟨15, rfl, fun w => ?_⟩)⟩,
    .inr (.inr ⟨rfl, 4, .inr rfl, by decide⟩), .inl ⟨_, List.mem_singleton_self _, .inr (.inr ⟨rfl, .inr (by decide)⟩)⟩,
    .inr (.inl (by decide)), .inl ⟨_, List.mem_singleton_self _, .inl (by decide)⟩⟩
  · intro n hn
    simp only [List.mem_cons, List.not_mem_nil, or_false] at hn
    rcases hn with h | h <;> subst h <;> exact asked_asks _ _ (by decide +kernel)
  · exact absurd (w.1 rfl).1 (by decide)

/-- The specification values of a ROPE at their least and their greatest, and those of a PANEL. -/
theorem witness_CreateResult_kinds :
    let r : List Item := [⟨3, some 3⟩, ⟨4, some 65536⟩, ⟨1, some 16⟩]
    let t : List Item := [⟨3, some 4⟩, ⟨4, some 131071⟩, ⟨2, some 4294967295⟩]
    let p : List Item := [⟨5, some 1023⟩, ⟨6, some 2000⟩, ⟨7, some 500⟩, ⟨8, some 65535⟩]
    let c : Instr := .create .lineComputer 1 2 t
    let d : Instr := .create .lineComputer 1 3 p
    ((asked c State.reset).Asks .lineComputer c (requestBody c) ∧ (asked d State.reset).Asks .lineComputer d (requestBody d)) ∧
      createListOk .rope r = true ∧ (freshBody r .rope).isSome = true ∧ createListOk .rope t = true ∧
      (freshBody t .rope).isSome = true ∧ createListOk .panel p = true ∧ (freshBody p .panel).isSome = true :=
  ⟨⟨asked_asks _ _ (by decide +kernel), asked_asks _ _ (by decide +kernel)⟩, by decide +kernel⟩

/-- An AMEND that brings a running strand to its end, and one that names what stands. -/
theorem witness_AmendResult : ∀ l ∈ [[⟨2, some 9⟩], [⟨1, some 5120⟩]],
    ∃ s : State, s.StoreOk ∧ s.Asks .lineComputer (.amend .lineComputer 7 3 l) (requestBody (.amend .lineComputer 7 3 l)) ∧
      s.find 7 = some (strandAt3 9) ∧ (strandAt3 9).kind ≠ .coil ∧ amendStateOk (strandAt3 9).kind (strandAt3 9).state l = true ∧
      (strandAt3 9).mark = 3 ∧ amendListOk (strandAt3 9).kind l = true ∧ (strandAt3 9).bound = some (3, .product) ∧
      (s.head 3).product = some 7 ∧ (s.head 3).state = .run := by
  intro l hl
  refine ⟨asked (.amend .lineComputer 7 3 l) (bench 3 (maker .strander .run) [strandAt3 9]), ?_⟩
  simp only [List.mem_cons, List.not_mem_nil, or_false] at hl
  rcases hl with h | h <;> subst h <;> exact ⟨storeOk_of _ (by decide +kernel), asked_asks _ _ (by decide +kernel), by decide +kernel⟩

/-- Every field of a ROPE and of a PANEL in DRAFT, one of them made absent. -/
theorem witness_AmendResult_refused :
    let c : Instr := .amend .lineComputer 7 3 [⟨5, some 1⟩]
    let s := asked c (bench 3 (maker .strander .run) [strandAt3 5])
    s.Asks .lineComputer c (requestBody c) ∧ s.find 7 = some (strandAt3 5) ∧
      amendStateOk (strandAt3 5).kind (strandAt3 5).state [⟨5, some 1⟩] = true ∧ (strandAt3 5).kind = .strand ∧ badSpec true .strand [⟨5, some 1⟩] ∧
      answered (after c s) = some [6, 8] :=
  ⟨asked_asks _ _ (by decide +kernel), by decide +kernel, by decide +kernel, rfl,
    .inl ⟨_, List.mem_singleton_self _, .inl (by decide)⟩, by decide +kernel⟩

theorem witness_AmendResult_kinds :
    let b := bench 3 Head.reset [record 7 .draft none (rope 0 0 []), record 8 .draft none (panel 0)]
    let l : List Item := [⟨1, some 16⟩, ⟨2, none⟩, ⟨3, some 4⟩, ⟨4, some 65536⟩]
    let k : List Item := [⟨5, some 1⟩, ⟨6, some 1⟩, ⟨7, some 0⟩, ⟨8, none⟩]
    let c : Instr := .amend .lineComputer 7 3 l
    let d : Instr := .amend .lineComputer 8 3 k
    ((asked c b).Asks .lineComputer c (requestBody c) ∧ (asked d b).Asks .lineComputer d (requestBody d)) ∧ b.StoreOk ∧
      amendStateOk .rope .draft l = true ∧ amendListOk .rope l = true ∧ amendStateOk .panel .draft k = true ∧
      amendListOk .panel k = true :=
  ⟨⟨asked_asks _ _ (by decide +kernel), asked_asks _ _ (by decide +kernel)⟩, storeOk_of _ (by decide +kernel), by decide +kernel⟩

/-- A SPLICE from the line computer over the whole piece, and a FLAW from a panel; a span of no length, and one past the made length. -/
theorem witness_AddSpanResult :
    let c : Instr := .addSpan .lineComputer 7 3 0 9 1
    let d : Instr := .addSpan .floorPanel 7 3 8 9 2
    let e : Instr := .addSpan .lineComputer 7 3 9 9 1
    let f : Instr := .addSpan .lineComputer 7 3 9 10 1
    let b := bench 5 (maker .closer .run) [ropeAt5 9]
    Stands b ∧ ((asked c b).Asks .lineComputer c (requestBody c) ∧ (asked e b).Asks .lineComputer e (requestBody e) ∧
        (asked f b).Asks .lineComputer f (requestBody f)) ∧ (askedPanel d 32 b).Asks .floorPanel d (requestBody d) ∧
      (askedPanel d 32 b).mayTouch .floorPanel 7 = true ∧ (asked c b).mayTouch .lineComputer 7 = true ∧
      b.find 7 = some (ropeAt5 9) ∧ (ropeAt5 9).kind ≠ .coil ∧ (ropeAt5 9).state = .making ∧ (ropeAt5 9).mark = 3 ∧
      (ropeAt5 9).made = 9 ∧ (ropeAt5 9).bound = some (5, .product) ∧
      b.reachesBanded 7 ⟨0, 9, KindSet.only .splice, false, {}⟩ = false :=
  ⟨stands_of _ (by decide +kernel),
    ⟨asked_asks _ _ (by decide +kernel), asked_asks _ _ (by decide +kernel), asked_asks _ _ (by decide +kernel)⟩,
    askedPanel_asks _ _ _ (by decide +kernel), by decide +kernel⟩

/-- Twenty-four spans of one millimetre, two apart. -/
def crowd : List Span := (List.range 24).map fun i => span (3 * i) (3 * i + 1) .flaw

/-- A BANDED coil reached; a WOUND coil to be downgraded; a list of 24 spans, on a record bound to no head and on one bound to a
closer's slot, whose top the new span takes in. -/
theorem witness_AddSpanResult_effects :
    let c : Instr := .addSpan .lineComputer 7 3 0 1 2
    let d : Instr := .addSpan .lineComputer 21 3 80 90 2
    let s := bench 9 Head.reset [record 1 .banded none (coil 0 4 .first), record 2 .wound none (coil 1 9 .first),
      record 7 .made none (rope 9 0 [])]
    let t := bench 9 Head.reset [record 21 .made none (strand 90 0 crowd)]
    let u := bench 5 (fed 3 21 (maker .closer .run)) [ropeAt5 4, feedAt 21 5 3 90 0 crowd]
    Stands s ∧ Stands t ∧ Stands u ∧ (asked c s).Asks .lineComputer c (requestBody c) ∧
      (asked d t).Asks .lineComputer d (requestBody d) ∧ (asked d u).Asks .lineComputer d (requestBody d) ∧
      s.reachesBanded 7 ⟨0, 1, KindSet.only .flaw, false, {}⟩ = true ∧
      s.reachesBanded 7 ⟨5, 6, KindSet.only .flaw, false, {}⟩ = false ∧ meetsList 1 9 [span 5 6 .flaw] = true ∧
      (normalize ⟨80, 90, KindSet.only .flaw, false, {}⟩ crowd).2 = true ∧ ((u.head 5).slot 3).spanHolding = false ∧
      (normalize ⟨80, 90, KindSet.only .flaw, false, {}⟩ crowd).1 ≠ crowd ∧
      (∃ x ∈ (normalize ⟨80, 90, KindSet.only .flaw, false, {}⟩ crowd).1, x.lo < 90 ∧ 90 ≤ x.hi) ∧
      u.productOf 5 = some (ropeAt5 4) :=
  ⟨stands_of _ (by decide +kernel), stands_of _ (by decide +kernel), stands_of _ (by decide +kernel),
    asked_asks _ _ (by decide +kernel), asked_asks _ _ (by decide +kernel), asked_asks _ _ (by decide +kernel), by decide +kernel⟩

theorem witness_ConcludeAndBandResult :
    let c : Instr := .conclude .lineComputer 7 3
    let d : Instr := .band .floorPanel 1 3
    let r := record 7 .interrupted none (strand 5 0 [])
    let x := record 1 .wound none (coil 0 9 .first)
    let s := asked c (bench 0 Head.reset [r])
    let t := askedPanel d 512 (bench 0 Head.reset [x])
    s.StoreOk ∧ s.Asks .lineComputer c (requestBody c) ∧ t.StoreOk ∧ t.Asks .floorPanel d (requestBody d) ∧
      s.find 7 = some r ∧ r.kind ≠ .coil ∧ r.state = .interrupted ∧ r.mark = 3 ∧ t.mayTouch .floorPanel 1 = true ∧
      t.find 1 = some x ∧ x.body = .coil ⟨7, 9, 0, 9, 9, .first, false, none, true⟩ ∧ x.state = .wound ∧ x.mark = 3 :=
  ⟨storeOk_of _ (by decide +kernel), asked_asks _ _ (by decide +kernel), storeOk_of _ (by decide +kernel),
    askedPanel_asks _ _ _ (by decide +kernel), by decide +kernel⟩

/-- From a full store, and the last record of a store. -/
theorem witness_RetireResult : ∀ n ∈ [1, 256],
    ∃ (s : State) (r : Record), s.StoreOk ∧ s.Asks .lineComputer (.retire .lineComputer 1 3) (requestBody (.retire .lineComputer 1 3)) ∧
      s.find 1 = some r ∧ r.state = .banded ∧ r.mark = 3 ∧ s.store.length = n := by
  intro n hn
  refine ⟨asked (.retire .lineComputer 1 3) (bench 0 Head.reset (coils n)), record 1 .banded none (coil 0 9 .first), ?_⟩
  simp only [List.mem_cons, List.not_mem_nil, or_false] at hn
  rcases hn with h | h <;> subst h <;>
    exact ⟨many_storeOk _ _ _ _ _ rfl (by decide), asked_asks _ _ (by decide +kernel), by decide +kernel⟩

/-- A change that the mark counts, and one that it does not. -/
theorem witness_MarkSteps :
    let s := bench 3 Head.reset [strandAt3 5]
    let f (t : State) : State := t.updRec 7 fun r => { r with state := .made }
    let g (t : State) : State := t.updRec 7 fun r => { r with bound := none }
    s.StoreOk ∧ (f s).StoreOk ∧ (g s).StoreOk ∧ s.find (strandAt3 5).tag = some (strandAt3 5) ∧
      (f s).find (strandAt3 5).tag = some { strandAt3 5 with state := .made } ∧
      (g s).find (strandAt3 5).tag = some { strandAt3 5 with bound := none } ∧
      ({ strandAt3 5 with state := .made } : Record).counted ≠ (strandAt3 5).counted ∧
      ({ strandAt3 5 with bound := none } : Record).counted = (strandAt3 5).counted :=
  ⟨storeOk_of _ (by decide +kernel), storeOk_of _ (by decide +kernel), storeOk_of _ (by decide +kernel), by decide +kernel⟩

/-- A span that meets one of 24, one that meets none, between two gaps of one millimetre, and one that meets none of a short list. -/
theorem witness_MergeNearest :
    let l := (List.range 24).map fun i => span (4 * i) (4 * i + 1) .flaw
    SpansOk 99 l ∧ l.length = 24 ∧ (∃ x ∈ l, (span 1 3 .splice).meets x = true) ∧ (∀ x ∈ l, (span 2 3 .splice).meets x = false) ∧
      (normalize (span 2 3 .splice) l).1.head? = some ⟨0, 3, { flaw := true, splice := true }, false, {}⟩ ∧ SpansOk 99 [] ∧
      (span 2 3 .splice).lo < (span 2 3 .splice).hi :=
  ⟨spansOk_of (by decide +kernel), by decide +kernel, by decide +kernel, by decide +kernel, by decide +kernel,
    spansOk_of (by decide +kernel), by decide +kernel⟩

/-! ### Requests on heads -/

theorem witness_BindProductResult :
    ∀ x ∈ [(MachineKind.strander, strand 0 0 []), (MachineKind.closer, rope 0 0 []), (MachineKind.loom, panel 0)],
    ∃ (s : State) (r : Record), Stands s ∧
      s.Asks .lineComputer (.bindProduct .lineComputer 15 7 3) (requestBody (.bindProduct .lineComputer 15 7 3)) ∧
      (s.head 15).state = .idle ∧ (s.head 15).kind = some x.1 ∧ x.1.product = some r.kind ∧ s.find 7 = some r ∧ r.state = .draft ∧
      r.mark = 3 := by
  intro x hx
  refine ⟨asked (.bindProduct .lineComputer 15 7 3) (bench 15 (vacant x.1 .idle) [record 7 .draft none x.2]),
    record 7 .draft none x.2, ?_⟩
  simp only [List.mem_cons, List.not_mem_nil, or_false] at hx
  rcases hx with h | h | h <;> subst h <;> exact ⟨stands_of _ (by decide +kernel), asked_asks _ _ (by decide +kernel), by decide +kernel⟩

/-- An INTERRUPTED rope resumed with a margin of 250 mm. -/
theorem witness_BindProductResult_resumes :
    let c : Instr := .bindProduct .lineComputer 15 7 3
    let r := record 7 .interrupted none (rope 9 0 [])
    let s := asked c (bench 15 { vacant .closer .idle with settings := { guardMargin := 250 } } [r])
    Stands s ∧ s.Asks .lineComputer c (requestBody c) ∧ s.find 7 = some r ∧ r.state = .interrupted ∧ r.kind ≠ .panel ∧
      0 < (s.head 15).settings.guardMargin ∧ r.body = .rope (ropeBody 9 0 [] []) ∧ r.body.piece = some ⟨9, [], none⟩ :=
  ⟨stands_of _ (by decide +kernel), asked_asks _ _ (by decide +kernel), by decide +kernel⟩

/-- With one millimetre left on the rope, and with none. -/
theorem witness_BindSourceResult : ∀ packed ∈ [8, 9],
    ∃ (s : State) (r : Record) (b : RopeBody), s.StoreOk ∧ s.CoilTagsOk ∧
      s.Asks .lineComputer (.bindSource .lineComputer 9 7 3) (requestBody (.bindSource .lineComputer 9 7 3)) ∧
      (s.head 9).state = .idle ∧ (s.head 9).kind = some .coiler ∧ s.find 7 = some r ∧ r.body = .rope b ∧ r.state = .made ∧
      r.mark = 3 ∧ b.currentEnd = 9 - packed := by
  intro p hp
  refine ⟨asked (.bindSource .lineComputer 9 7 3) (bench 9 (vacant .coiler .idle) [record 7 .made none (rope 9 p [])]),
    record 7 .made none (rope 9 p []), ropeBody 9 p [] [], ?_⟩
  simp only [List.mem_cons, List.not_mem_nil, or_false] at hp
  rcases hp with h | h <;> subst h <;>
    exact ⟨storeOk_of _ (by decide +kernel), ⟨by decide +kernel, by decide +kernel⟩, asked_asks _ _ (by decide +kernel),
      by decide +kernel⟩

/-- The first plan point of a rope with waste left, with a coil's length left and an order, and with no order while FLAW is high. -/
theorem witness_BindSourceResult_plans :
    let o : CoilOrder := ⟨1000, 1, .firstOnly⟩
    let c : Instr := .bindSource .lineComputer 9 7 3
    let s := fun (m : Nat) (q : List CoilOrder) => asked c (bench 9
      { vacant .coiler .idle with queue := q, flawHigh := true, settings := { minCoil := 1000 } } [record 7 .made none (rope m 0 [])])
    let t := fun (m : Nat) (q : List CoilOrder) => (after c (s m q)).head 9
    (Stands (s 999 [o]) ∧ Stands (s 1000 [o]) ∧ Stands (s 1000 [])) ∧ (s 1000 [o]).Asks .lineComputer c (requestBody c) ∧
      ((t 999 [o]).state = .ready ∧ (t 999 [o]).segment = some ⟨none, 999, 0, 0, false⟩) ∧
      ((t 1000 [o]).state = .ready ∧ (t 1000 [o]).segment = some ⟨some 1, 1000, 0, 0, true⟩) ∧
      (t 1000 []).state = .held ∧ (t 1000 []).holds = ⟨false, true, false⟩ ∧ (t 1000 []).flawRise = some 1000 :=
  ⟨⟨stands_of _ (by decide +kernel), stands_of _ (by decide +kernel), stands_of _ (by decide +kernel)⟩,
    asked_asks _ _ (by decide +kernel), by decide +kernel⟩

/-- The strand 21, MADE, whose top 9 lies inside a span or not. -/
def loose (l : List Span) : Record := record 21 .made none (strand 9 0 l)

/-- A strand for a closer in READY, its top inside a span; one for a closer HELD for FEED_SHORT, with a second required slot empty or
none; and one for a loom. -/
theorem witness_BindFeedResult :
    let c : Instr := .bindFeed .lineComputer 5 3 21 3
    let d : Instr := .bindFeed .lineComputer 12 1 21 3
    let x := (maker .closer .ready).updSlot 3 fun y => { y with required := true }
    let k := { x with state := .held, holds := ⟨true, false, false⟩ }
    let q := { ropeAt5 0 with body := .rope { ropeBody 0 0 [] [] with piece := ⟨0, [], some ⟨0, KindSet.only .feed, { feed3 := true }⟩⟩ } }
    let s := bench 5 x [q, loose [span 8 9 .flaw]]
    let t := bench 5 k [q, loose []]
    let u := bench 5 (k.updSlot 2 fun y => { y with required := true }) [q, loose []]
    let v := bench 12 (maker .loom .held) [panelAt12 0, loose []]
    (Stands s ∧ Stands t ∧ Stands u ∧ Stands v) ∧ (asked c s).Asks .lineComputer c (requestBody c) ∧
      (asked c t).Asks .lineComputer c (requestBody c) ∧ (asked c u).Asks .lineComputer c (requestBody c) ∧
      (asked d v).Asks .lineComputer d (requestBody d) ∧
      (s.head 5).kind = some .closer ∧ (s.head 5).state = .ready ∧ ((s.head 5).slot 3).strand = none ∧
      s.find 21 = some (loose [span 8 9 .flaw]) ∧ (loose [span 8 9 .flaw]).state = .made ∧ s.productOf 5 = some q ∧
      q.kind = .rope ∧ q.state = .making ∧ q.body.sources.length < 16 ∧ (t.head 5).state = .held ∧
      ((after c (asked c t)).head 5).feedMissing = false ∧ ((after c (asked c u)).head 5).feedMissing = true ∧
      (v.head 12).kind = some .loom ∧ ((v.head 12).slot 1).strand = none ∧ v.productOf 12 = some (panelAt12 0) :=
  ⟨⟨stands_of _ (by decide +kernel), stands_of _ (by decide +kernel), stands_of _ (by decide +kernel), stands_of _ (by decide +kernel)⟩,
    asked_asks _ _ (by decide +kernel), asked_asks _ _ (by decide +kernel), asked_asks _ _ (by decide +kernel),
    asked_asks _ _ (by decide +kernel), by decide +kernel⟩

/-- On a closer in READY, whose slot is required, and on a running loom. -/
theorem witness_UnbindFeedResult :
    let c : Instr := .unbindFeed .lineComputer 5 3
    let d : Instr := .unbindFeed .lineComputer 12 1
    let s := asked c (bench 5 (fed 3 21 (maker .closer .ready)) [ropeAt5 0, feedAt 21 5 3 9 0 []])
    let t := asked d (bench 12 (fed 1 21 (maker .loom .run)) [panelAt12 0, feedAt 21 12 1 9 0 []])
    (Stands s ∧ Stands t) ∧ s.Asks .lineComputer c (requestBody c) ∧ t.Asks .lineComputer d (requestBody d) ∧
      (s.head 5).kind = some .closer ∧ (s.head 5).state = .ready ∧ ((s.head 5).slot 3).strand = some 21 ∧
      s.find 21 = some (feedAt 21 5 3 9 0 []) ∧ s.productOf 5 = some (ropeAt5 0) ∧ (t.head 12).kind = some .loom ∧
      (t.head 12).state.running = true ∧ ((t.head 12).slot 1).strand = some 21 ∧ ((t.head 12).slot 1).required = true ∧
      (t.head 12).state ≠ .ready ∧ t.find 21 = some (feedAt 21 12 1 9 0 []) ∧ t.productOf 12 = some (panelAt12 0) :=
  ⟨⟨stands_of _ (by decide +kernel), stands_of _ (by decide +kernel)⟩, asked_asks _ _ (by decide +kernel),
    asked_asks _ _ (by decide +kernel), by decide +kernel⟩

/-- A running maker released by the line computer, one in READY released by a panel whose mask holds the head, and a coiler in READY. -/
theorem witness_ReleaseResult :
    let c : Instr := .release .lineComputer 5
    let d : Instr := .release .floorPanel 5
    let e : Instr := .release .lineComputer 9
    let s := asked c (bench 5 (fed 3 21 (maker .closer .cutting)) [ropeAt5 0, feedAt 21 5 3 9 0 []])
    let t := askedPanel d 32 (bench 5 (fed 3 21 (maker .closer .ready)) [ropeAt5 0, feedAt 21 5 3 9 0 []])
    let u := asked e (bench 9 { coiler .ready with segment := some ⟨some 1, 10, 0, 0, true⟩ } [winding 0 10, ropeAt9 10 0 []])
    (Stands s ∧ Stands t ∧ Stands u) ∧ s.Asks .lineComputer c (requestBody c) ∧ t.Asks .floorPanel d (requestBody d) ∧
      u.Asks .lineComputer e (requestBody e) ∧ s.mayRelease .lineComputer 5 = true ∧ (s.head 5).state.running = true ∧
      s.productOf 5 = some (ropeAt5 0) ∧ t.mayRelease .floorPanel 5 = true ∧ (t.head 5).state = .ready ∧
      t.productOf 5 = some (ropeAt5 0) ∧ ((t.head 5).slot 3).strand = some 21 ∧ u.mayRelease .lineComputer 9 = true ∧
      (u.head 9).state = .ready ∧ (u.head 9).source = some 7 ∧ (u.head 9).segment.bind Segment.coil = some 1 :=
  ⟨⟨stands_of _ (by decide +kernel), stands_of _ (by decide +kernel), stands_of _ (by decide +kernel)⟩,
    asked_asks _ _ (by decide +kernel), askedPanel_asks _ _ _ (by decide +kernel), asked_asks _ _ (by decide +kernel),
    by decide +kernel⟩

/-- An ENQUEUE as the eighth entry, one into the empty queue of a coiler that waits for it, and a CLEAR_QUEUE. -/
theorem witness_QueueRequestsResult :
    let c : Instr := .enqueue .lineComputer 9 4000000000 1 1
    let d : Instr := .clearQueue .lineComputer 9
    let s := asked c (bench 9 { vacant .coiler .idle with queue := List.replicate 7 ⟨1000, 255, .secondOk⟩ } [])
    let t := asked c (bench 9 { coiler .held with holds := ⟨false, true, false⟩ } [ropeAt9 900000 0 []])
    let u := asked d (bench 9 (vacant .coiler .done) [])
    (s.StoreOk ∧ t.StoreOk) ∧ s.Asks .lineComputer c (requestBody c) ∧ t.Asks .lineComputer c (requestBody c) ∧
      u.Asks .lineComputer d (requestBody d) ∧ (s.head 9).state ≠ .empty ∧ (s.head 9).kind = some .coiler ∧
      (s.head 9).queue.length = 7 ∧ (t.head 9).state ≠ .empty ∧ (t.head 9).kind = some .coiler ∧ (t.head 9).queue = [] ∧
      (t.head 9).holds.queueEmpty = true ∧ (u.head 9).state ≠ .empty ∧ (u.head 9).kind = some .coiler :=
  ⟨⟨storeOk_of _ (by decide +kernel), storeOk_of _ (by decide +kernel)⟩, asked_asks _ _ (by decide +kernel),
    asked_asks _ _ (by decide +kernel), asked_asks _ _ (by decide +kernel), by decide +kernel⟩

/-- A coiler that waits for an order, with 5 mm unplanned: with nothing left and FLAW high, with waste left, and with a coil's length left. -/
theorem witness_QueueRequestsResult_plans :
    let o : CoilOrder := ⟨1000, 1, .firstOnly⟩
    let c : Instr := .enqueue .lineComputer 9 1000 1 1
    let s := fun m : Nat => asked c (bench 9
      { coiler .held with
        holds := ⟨false, true, false⟩
        unplanned := 5
        flawHigh := true
        flawRise := some 2
        settings := { minCoil := 1000 } }
      [record 2 .banded none (coil 0 4 .first), ropeAt9 m 0 []])
    (Stands (s 5) ∧ Stands (s 1004) ∧ Stands (s 1005)) ∧ (s 5).Asks .lineComputer c (requestBody c) ∧
      ((s 5).head 9).queue = [] ∧ ((s 5).head 9).holds.queueEmpty = true ∧ ((s 5).head 9).state = .held ∧
      (s 5).sourceOf 9 = some (ropeAt9 5 0 [], ropeBody 5 0 [] []) ∧
      (s 5).reachesBanded 7 (coilerFlaw 5 0 2 0) = true ∧ planSegment 1000 999 [o] [] = .waste 999 ∧
      planSegment 1000 1000 [o] [] = .coil 1000 .first false ∧ ((after c (s 5)).head 9).state = .done ∧
      (after c (s 5)).spansOf 7 = [span 0 2 .flaw] ∧ ((after c (s 1005)).head 9).segment = some ⟨some 1, 1000, 0, 0, true⟩ :=
  ⟨⟨stands_of _ (by decide +kernel), stands_of _ (by decide +kernel), stands_of _ (by decide +kernel)⟩,
    asked_asks _ _ (by decide +kernel), by decide +kernel⟩

/-- A list of no setting, one with both trim limits, and one that names an item twice; and an index above 15. -/
theorem witness_SetHeadResult :
    let l : List Item := [⟨5, some 512⟩, ⟨6, some 0⟩]
    let k : List Item := [⟨5, some 512⟩, ⟨5, some 0⟩]
    let c : Instr := .setHead .lineComputer 15 []
    let d : Instr := .setHead .lineComputer 15 l
    let e : Instr := .setHead .lineComputer 15 k
    let g : Instr := .setHead .lineComputer 16 k
    ((asked g State.reset).Asks .lineComputer g (requestBody g) ∧ answered (after g (asked g State.reset)) = some [24, 9]) ∧
    ((asked c State.reset).Asks .lineComputer c (requestBody c) ∧ (asked d State.reset).Asks .lineComputer d (requestBody d) ∧
        (asked e State.reset).Asks .lineComputer e (requestBody e)) ∧
      settingListOk [] = true ∧ settingListOk l = true ∧ settingListOk k = false :=
  ⟨⟨asked_asks _ _ (by decide +kernel), by decide +kernel⟩, ⟨asked_asks _ _ (by decide +kernel), asked_asks _ _ (by decide +kernel), asked_asks _ _ (by decide +kernel)⟩, by decide +kernel⟩

/-- The refusals of the bindings: an absent head, an EMPTY one, a tag not live, a machine that does not suit, a kind that does not, a
head and a record in another state, another mark, and a slot and a source list beyond their ends. -/
theorem witness_HeadRefusals :
    let full := List.replicate 16 (⟨21, 0, 0, some 0⟩ : SourceEntry)
    let b := bench 5 (maker .closer .ready)
      [{ ropeAt5 0 with body := .rope (ropeBody 0 0 [] full) }, record 8 .made none (rope 9 0 []), loose []]
    let c : Nat → Nat → Mark → Instr := .bindProduct .lineComputer
    let f : Nat → Instr := fun n => .bindFeed .lineComputer 5 n 21 3
    (∀ n ∈ [16, 4, 5], ∀ t ∈ [8, 9, 21], (asked (c n t 3) b).Asks .lineComputer (c n t 3) (requestBody (c n t 3))) ∧
      (∀ n ∈ [3, 4], (asked (f n) b).Asks .lineComputer (f n) (requestBody (f n))) ∧ (b.head 4).state = .empty ∧ b.find 9 = none ∧
      (b.head 5).kind = some .closer ∧ suitsMachine (.bindSource .lineComputer 5 8 3) .closer = false ∧
      suitsMachine (c 5 21 3) .closer = true ∧ suitsRecord (c 5 21 3) .closer .strand = false ∧
      suitsRecord (c 5 8 3) .closer .rope = true ∧ readyFor (c 5 8 3) (b.head 5) = false ∧ bindableIn (c 5 8 3) .made = false ∧
      readyFor (f 3) (b.head 5) = true ∧ readyFor (f 4) (b.head 5) = true ∧ bindableIn (f 3) .made = true ∧
      suitsMachine (f 3) .closer = true ∧ suitsRecord (f 3) .closer .strand = true ∧
      (b.productOf 5).map (fun q => q.body.sources.length) = some 16 := by
  refine ⟨fun n hn t ht => asked_asks _ _ ?_, fun n hn => asked_asks _ _ ?_, by decide +kernel⟩
  · revert n t
    decide +kernel
  · revert n
    decide +kernel

/-- The refusals of UNBIND_FEED, RELEASE, ENQUEUE and CLEAR_QUEUE. -/
theorem witness_HeadRefusals_others :
    let b := bench 5 (maker .closer .ready) [ropeAt5 0]
    let e := bench 9 { vacant .coiler .idle with queue := List.replicate 8 ⟨1000, 1, .firstOnly⟩ } []
    let l : List Instr := [.unbindFeed .lineComputer 16 0, .unbindFeed .lineComputer 4 0, .unbindFeed .lineComputer 5 0,
      .unbindFeed .lineComputer 5 4, .release .lineComputer 16, .release .lineComputer 4, .enqueue .lineComputer 16 1000 1 1,
      .enqueue .lineComputer 5 1000 1 1, .clearQueue .lineComputer 16, .clearQueue .lineComputer 5]
    let k : List Instr := [.unbindFeed .lineComputer 9 0, .release .lineComputer 9, .enqueue .lineComputer 9 999 1 1,
      .enqueue .lineComputer 9 1000 256 3, .enqueue .lineComputer 9 1000 1 1]
    (∀ c ∈ l, (asked c b).Asks .lineComputer c (requestBody c)) ∧
      (∀ c ∈ [k.headD .call, .release .lineComputer 9, .enqueue .lineComputer 9 999 1 1, .enqueue .lineComputer 9 1000 0 3,
        .enqueue .lineComputer 9 1000 1 1], (asked c e).Asks .lineComputer c (requestBody c)) ∧
      (b.head 4).state = .empty ∧ (b.head 5).state.takesFeeds = true ∧ (b.head 5).slotFilled 0 = false ∧
      (b.head 5).slotFilled 4 = true ∧ (e.head 9).state = .idle ∧ (e.head 9).queue.length = 8 ∧ gradeRuleOf 3 = none := by
  refine ⟨fun c hc => asked_asks _ _ ?_, fun c hc => asked_asks _ _ ?_, by decide +kernel⟩
  · revert c
    decide +kernel
  · revert c
    decide +kernel

/-- A coiler notified while it waits for room, with a rope of `m` millimetres, 5 of them unplanned, and an order of 1 m. -/
def waiting (m : Nat) (queue : List CoilOrder) : Head :=
  { coiler .held with
    notified := true
    holds := ⟨false, false, true⟩
    unplanned := 5
    queue := queue
    settings := { minCoil := 1000 }
    source := some m }

/-- No notification; one to a coiler that holds STORE_FULL no more; and one with nothing left, with waste left, with no order, and with
the least coil length left to the millimetre. -/
theorem witness_StoreFullNotificationResult :
    let o : CoilOrder := ⟨1000, 1, .firstOnly⟩
    let s := fun (m : Nat) (q : List CoilOrder) => bench 9 (waiting 7 q) [ropeAt9 m 0 []]
    ((bench 9 (coiler .run) []).head 9).notified = false ∧
    (let t := bench 9 { coiler .run with notified := true } []
     (t.head 9).notified = true ∧ (t.head 9).holds.storeFull = false) ∧
    (Stands (s 5 [o]) ∧ Stands (s 1004 [o]) ∧ Stands (s 1005 []) ∧ Stands (s 1005 [o])) ∧
    ((s 5 [o]).head 9).notified = true ∧ ((s 5 [o]).head 9).holds.storeFull = true ∧ ((s 5 [o]).head 9).state = .held ∧
      (s 1005 [o]).sourceOf 9 = some (ropeAt9 1005 0 [], ropeBody 1005 0 [] []) ∧
      planSegment 1000 999 [o] [] = .waste 999 ∧ planSegment 1000 1000 [] [] = .noOrder ∧
      planSegment 1000 1000 [o] [] = .coil 1000 .first false :=
  ⟨by decide +kernel, by decide +kernel,
    ⟨stands_of _ (by decide +kernel), stands_of _ (by decide +kernel), stands_of _ (by decide +kernel), stands_of _ (by decide +kernel)⟩,
    by decide +kernel⟩

/-- The same in a full store, in one with a single place, and in one of 239 records. -/
theorem witness_StoreFullNotificationResult_room : ∀ n ∈ [239, 255, 256],
    let r := record 1 .inUse (some (9, .source)) (rope 1005 0 [])
    let s := bench 9 (waiting 1 [⟨1000, 1, .firstOnly⟩]) (r :: (many n .made none (strand 0 0 [])).drop 1)
    Stands s ∧ (s.head 9).notified = true ∧ (s.head 9).holds.storeFull = true ∧ (s.head 9).state = .held ∧
      s.sourceOf 9 = some (r, ropeBody 1005 0 [] []) ∧ s.store.length = n := by
  intro n hn
  simp only [List.mem_cons, List.not_mem_nil, or_false] at hn
  rcases hn with h | h | h <;> subst h <;> exact ⟨stands_of _ (by decide +kernel), by decide +kernel⟩

/-- The least coil length left to the millimetre with an empty queue, one less, a FIRST coil, a SECOND one, a short one above the
highest of two spans, and waste down to it. -/
theorem witness_PlanDecision :
    (planSegment 10 9 [] [] = .waste 9 ∧ planSegment 10 10 [] [] = .noOrder ∧
      planSegment 10 30 [⟨1000, 1, .firstOnly⟩] [] = .coil 30 .first true ∧
      planSegment 10 30 [⟨20, 1, .secondOk⟩] [span 5 11 .flaw] = .coil 20 .second false ∧
      planSegment 10 30 [⟨20, 1, .firstOnly⟩] [span 12 14 .flaw, span 15 20 .flaw] = .coil 10 .first true ∧
      planSegment 10 30 [⟨20, 1, .firstOnly⟩] [span 12 14 .flaw, span 15 21 .flaw] = .waste 15) ∧
    SpansOk 30 [span 12 14 .flaw, span 15 21 .flaw] ∧ (bench 9 Head.reset (coils 255)).StoreOk ∧
    (bench 9 Head.reset (coils 255)).CoilTagsOk ∧ (bench 9 Head.reset (coils 255)).store.length < 256 ∧
      findSerial (bench 9 Head.reset (coils 255)).live 0 256 1 = some 256 ∧
      findSerial (bench 9 Head.reset (coils 255)).live 0 256 4294967295 = some 4294967295 ∧ nextSerial 4294967295 = 1 :=
  ⟨by decide +kernel, spansOk_of (by decide +kernel), many_storeOk _ 255 _ _ _ rfl (by decide),
    ⟨by decide +kernel, by decide +kernel⟩, by decide +kernel⟩

/-! ### Requests on the device -/

/-- The last second of the counter from the line computer, with the next state and the tick that follows, and a panel's request. -/
theorem witness_SetClockResult :
    let c : Instr := .setClock .lineComputer 4294967295
    let d : Instr := .setClock .floorPanel 0
    (asked c State.reset).Asks .lineComputer c (requestBody c) ∧
      (∃ t u, exec c (asked c State.reset) = .next t ∧ exec (.tick (Vector.replicate 16 ⟨false, false, false, false⟩)) t = .next u) ∧
      (askedPanel d 0 State.reset).Asks .floorPanel d (requestBody d) :=
  ⟨asked_asks _ _ (by decide +kernel), ⟨_, _, rfl, rfl⟩, askedPanel_asks _ _ _ (by decide +kernel)⟩

/-- READ_EVENTS in each clear mode, with the last head's ALARM and STORE set, and CLEAR_EVENTS from each port. -/
theorem witness_EventRequestsResult :
    let c : Instr := .readEvents .lineComputer
    let s := asked c ((State.reset.raiseAlarm 15 .bandedFlaw).raiseStore fun x => { x with createFull := true })
    let t := asked c (((State.reset.writeDevice 1 1).raiseAlarm 15 .bandedFlaw).raiseStore fun x => { x with createFull := true })
    let d : Instr := .clearEvents .lineComputer (flagBit 65 ||| flagBit 62)
    let e : Instr := .clearEvents .floorPanel 0
    (s.Asks .lineComputer c (requestBody c) ∧ t.Asks .lineComputer c (requestBody c)) ∧
      ((asked d State.reset).Asks .lineComputer d (requestBody d) ∧ (askedPanel e 0 State.reset).Asks .floorPanel e (requestBody e)) ∧
      s.attn.clearMode = .explicit ∧ t.attn.clearMode = .readClears ∧ t.flagged 15 .alarm = true ∧ t.attn.flag 65 = true :=
  ⟨⟨asked_asks _ _ (by decide +kernel), asked_asks _ _ (by decide +kernel)⟩,
    ⟨asked_asks _ _ (by decide +kernel), askedPanel_asks _ _ _ (by decide +kernel)⟩, by decide +kernel⟩

/-- The highest numbers of the masks and routes, the last panel's head mask, and values to be clamped; and a route that names no line. -/
theorem witness_SetDeviceResult :
    let l : List Item := [⟨81, some 0⟩, ⟨161, some 2⟩, ⟨11, some 65535⟩, ⟨3, some 0⟩, ⟨1, some 1⟩]
    let c : Instr := .setDevice .lineComputer l
    let d : Instr := .setDevice .lineComputer [⟨96, some 3⟩]
    ((asked c State.reset).Asks .lineComputer c (requestBody c) ∧ (asked d State.reset).Asks .lineComputer d (requestBody d)) ∧
      deviceListOk l = true ∧ deviceListOk [⟨96, some 3⟩] = false ∧ routeOf 2 = some .b ∧ clearModeOf 1 = some .readClears ∧
      ((State.reset.writeDeviceList l).raiseStore id).attnB = true ∧ (State.reset.writeDeviceList l).attnB = false :=
  ⟨⟨asked_asks _ _ (by decide +kernel), asked_asks _ _ (by decide +kernel)⟩, by decide +kernel⟩

/-- A code of no request, from each port; a request that a panel may never make, and each of the three on what lies outside its mask. -/
theorem witness_PortAnswers :
    let u : Instr := .unknownRequest .lineComputer 255
    let v : Instr := .unknownRequest .floorPanel 33
    let a : Instr := .conclude .floorPanel 7 3
    let b : Instr := .addSpan .floorPanel 7 3 0 1 1
    let c : Instr := .band .floorPanel 7 3
    let d : Instr := .release .floorPanel 16
    let s := bench 3 (maker .strander .run) [strandAt3 5]
    ((asked u State.reset).Asks .lineComputer u (requestBody u) ∧ (askedPanel v 0 State.reset).Asks .floorPanel v (requestBody v)) ∧
      ((askedPanel a 65535 s).Asks .floorPanel a (requestBody a) ∧ (askedPanel b 65527 s).Asks .floorPanel b (requestBody b) ∧
        (askedPanel c 65527 s).Asks .floorPanel c (requestBody c) ∧ (askedPanel d 65535 s).Asks .floorPanel d (requestBody d)) ∧
      (askedPanel v 0 State.reset).link.granted = some 0 ∧ requestPort u = some .lineComputer ∧
      State.reset.inProgress .lineComputer = none ∧ a.lineOnly = true ∧ requestPort a = some .floorPanel ∧
      (askedPanel b 65527 s).mayTouch .floorPanel 7 = false ∧ (askedPanel c 65527 s).mayTouch .floorPanel 7 = false ∧
      (askedPanel d 65535 s).mayRelease .floorPanel 16 = false :=
  ⟨⟨asked_asks _ _ (by decide +kernel), askedPanel_asks _ _ _ (by decide +kernel)⟩,
    ⟨askedPanel_asks _ _ _ (by decide +kernel), askedPanel_asks _ _ _ (by decide +kernel), askedPanel_asks _ _ _ (by decide +kernel),
      askedPanel_asks _ _ _ (by decide +kernel)⟩, by decide +kernel⟩

/-! ### The ports -/

/-- Bodies of 1 and of 250 bytes, frames out of form, a code of no frame, an unread response, a frame across a reset, and the first and
the middle stretch of a frame. -/
theorem witness_SpiFramesResult : (∀ n ∈ [1, 250], 1 ≤ (List.replicate n (0 : Byte)).length ∧
      (List.replicate n (0 : Byte)).length ≤ 250) ∧ requestFrameOk [] = false ∧ requestFrameOk [0x00] = false ∧
    requestFrameOk [0x02, 0x21] = false ∧ (0x50 : Byte) ≠ 0x51 ∧ (0x50 : Byte) ≠ 0x46 ∧
    ({ LinePort.reset with unread := some [1, 1] } : LinePort).unread = some [1, 1] ∧ (whole.resumes = none ∧ whole.pauses = none) ∧
    (⟨0, some 3, none⟩ : FrameEdges).resumes ≠ none ∧ State.reset.line.phase = .noFrame ∧ State.reset.line.unread = none ∧
    ((⟨0, none, some 1⟩ : FrameEdges).resumes.getD 0 ≤ 0 ∧ (⟨0, some 1, some 3⟩ : FrameEdges).resumes.getD 0 ≤ 2) := by decide +kernel

/-- The link that may send CALL, the first and the last slot, and each way the roll call goes on after slot 8. -/
theorem witness_RollCallResult :
    let p : Panel := ⟨true, 2, false, 0⟩
    let l : PanelLink := { PanelLink.reset with phase := .slots, quiet := false }
    (let e : PanelLink := { PanelLink.reset with quiet := false }
     e.phase = .calling ∧ e.quiet = false) ∧ PanelLink.reset.quiet = true ∧
      (l.phase = .slots ∧ l.slot = 0 ∧ (0 : PanelIx).val < 7) ∧
      (let e := { l with slot := 7 }
       e.slot.val = 7 ∧ ∀ k, (e.panel k).asked = false) ∧
      (let e := { l with slot := 7, panels := l.panels.set 3 { p with asked := true } }
       e.slot.val = 7 ∧ (e.panel 3).asked = true ∧ ∀ j, j < 3 → (e.panel j).asked = false) ∧
      (let e := { l with slot := 7, panels := l.panels.set 7 p }
       e.slot.val = 7 ∧ (e.panel 7).present = true ∧ ∀ j, j < 7 → (e.panel j).asked = false) := by decide +kernel

/-- A GRANT being sent and a link that waits for the frame; bodies of 1 and of 60 bytes, frames that are dropped, and a link that waits
for no frame. -/
theorem witness_PanelRequestFrameResult :
    let g : PanelLink := { PanelLink.reset with phase := .granting, granted := some 7 }
    let l : PanelLink := { PanelLink.reset with phase := .receiving, granted := some 7 }
    g.phase = .granting ∧ g.granted = some 7 ∧ g.dropped = false ∧ l.phase = .receiving ∧ l.granted = some 7 ∧ l.dropped = false ∧
      judgeFrame 7 [.badStop] = none ∧ judgeFrame 7 [] = none ∧ judgeFrame 7 ((panelFrame 7 [0x99]).map .whole) = some [0x99] ∧
      (List.replicate 60 (0 : Byte)).length = 60 ∧ judgeFrame 7 [.whole 8, .whole 61] = none ∧ PanelLink.reset.phase = .calling := by
  decide +kernel

theorem witness_PanelGrantsResult :
    let g : PanelLink := { PanelLink.reset with phase := .granting, granted := some 2 }
    let l : PanelLink := { PanelLink.reset with phase := .receiving, granted := some 2 }
    let e : PanelLink := { l with phase := .answering, unread := some [1, 1], panels := l.panels.set 7 ⟨true, 0, true, 0⟩ }
    g.phase = .granting ∧ l.phase = .receiving ∧ (∀ n, (l.panel n).asked = false) ∧ e.phase = .answering ∧
      e.unread.isSome = true ∧ (e.panel 7).asked = true ∧ ∀ k, k < 7 → (e.panel k).asked = false := by decide +kernel

/-! ### What every command keeps -/

theorem witness_StepKeepsRecordLaws :
    let b := bench 3 (maker .strander .run) [strandAt3 5]
    Stands { b with pending := [.encPulse 3] } ∧ (∃ t, step { b with pending := [.encPulse 3] } = .next t) ∧
      (after (.encPulse 3) b).store ≠ b.store :=
  ⟨stands_of _ (by decide +kernel), ⟨_, rfl⟩, by decide +kernel⟩

theorem witness_StepKeepsBindings :
    let c : Instr := .release .lineComputer 5
    let s := asked c (bench 5 (fed 3 21 (maker .closer .cutting)) [ropeAt5 0, feedAt 21 5 3 9 0 []])
    Stands { s with pending := [c] } ∧ (∃ t, step { s with pending := [c] } = .next t) ∧ (after c s).store ≠ s.store :=
  ⟨stands_of _ (by decide +kernel), ⟨_, rfl⟩, by decide +kernel⟩

/-- A span that reaches a WOUND coil of grade FIRST is added to its rope: the coil becomes SECOND. -/
theorem witness_StepKeepsCoilGrades :
    let c : Instr := .addSpan .lineComputer 7 3 0 1 2
    let s := asked c (bench 9 Head.reset [record 1 .wound none (coil 0 9 .first), record 7 .made none (rope 9 0 [])])
    Stands { s with pending := [c] } ∧ (∃ t, step { s with pending := [c] } = .next t) ∧
      ((after c s).coilOf 1).map CoilBody.grade = some .second :=
  ⟨stands_of _ (by decide +kernel), ⟨_, rfl⟩, by decide +kernel⟩

theorem witness_StepKeepsHeadLaws :
    let s : State := { State.reset with pending := [.senseSettled 15] }
    s.HeadsOk ∧ ∃ t, step s = .next t := by
  refine ⟨fun h => ?_, _, rfl⟩
  have e : State.reset.head h = Head.reset := by revert h; decide +kernel
  exact e ▸ ⟨by constructor <;> decide, by decide, fun w hw => (by cases hw), by decide, by decide, fun o ho => (by cases ho),
    by decide, by decide⟩

theorem witness_RequestBodyReadsBack :
    let c : Instr := .addSpan .floorPanel 281474976710655 255 4294967295 4294967295 255
    let d : Instr := .amend .lineComputer 0 0 [⟨2, some 4294967295⟩, ⟨1, none⟩]
    requestPort c = some .floorPanel ∧ c.wf = true ∧ requestPort d = some .lineComputer ∧ d.wf = true := by decide +kernel

theorem witness_HeadEventsKeepTheRest :
    let s := bench 3 (maker .strander .run) [strandAt3 5]
    (Instr.encPulse 15).eventAt = some 15 ∧ (Instr.storeFullNotification 0).eventAt = some 0 ∧
      (Instr.runFall 3).eventAt = some 3 ∧ Stands s ∧ s.names 3 7 :=
  ⟨by decide, by decide, by decide, stands_of _ (by decide +kernel), Or.inl (by decide +kernel)⟩

theorem witness_HeadRequestsKeepTheRest :
    let c : Instr := .release .floorPanel 15
    let s := askedPanel c 32768 (bench 3 (maker .strander .run) [strandAt3 5])
    Stands s ∧ s.Asks .floorPanel c (requestBody c) ∧ c.headOperand = some (15 : HeadIx).val ∧ requestPort c = some .floorPanel :=
  ⟨stands_of _ (by decide +kernel), askedPanel_asks _ _ _ (by decide +kernel), by decide, by decide⟩

end Sys2Proof.Tests
end

section
/-! PROOF. The lay arithmetic (R107 to R110): how each rounding and each clamp of the four stages behaves, and what the end of a
window leaves in its head. -/

namespace Sys2Proof.Machine

/-! ## Rounding and clamping -/

/-- What it is to reach a whole number after rounding half up; every threshold and bound of the stages follows from it. -/
theorem le_roundHalfUp_iff {n d k : Nat} (hd : 0 < d) : k ≤ roundHalfUp n d ↔ 2 * d * k ≤ 2 * n + d := by
  unfold roundHalfUp
  rw [Nat.le_div_iff_mul_le (by omega), Nat.mul_comm]

theorem roundHalfUp_bounds {n d : Nat} (hd : 0 < d) :
    2 * d * roundHalfUp n d ≤ 2 * n + d ∧ 2 * n + d < 2 * d * (roundHalfUp n d + 1) :=
  ⟨(le_roundHalfUp_iff hd).mp (Nat.le_refl _),
    Nat.lt_of_not_le fun h => Nat.not_succ_le_self _ ((le_roundHalfUp_iff hd).mpr h)⟩

@[simp] theorem roundHalfUp_zero (d : Nat) : roundHalfUp 0 d = 0 := by
  rcases Nat.eq_zero_or_pos d with rfl | hd
  · rfl
  · exact Nat.div_eq_of_lt (by omega)

theorem natAbs_roundAway (n : Int) (d : Nat) : (roundAway n d).natAbs = roundHalfUp n.natAbs d := by
  unfold roundAway
  split <;> simp

/-- Rounding away from zero keeps the sign, or gives 0. -/
theorem roundAway_sign (n : Int) (d : Nat) : (0 < roundAway n d → 0 < n) ∧ (roundAway n d < 0 → n < 0) := by
  rcases Int.lt_trichotomy n 0 with hn | rfl | hn
  · rw [roundAway, if_neg (by omega)]
    exact ⟨fun h => by simp at h; omega, fun _ => hn⟩
  · simp [roundAway]
  · rw [roundAway, if_pos (by omega)]
    exact ⟨fun _ => hn, fun h => by simp at h; omega⟩

theorem natAbs_clampInt_neg (b : Nat) (x : Int) : (clampInt (-b) b x).natAbs = min b x.natAbs := by
  unfold clampInt
  omega

/-! ## Stage 1 -/

theorem measuredLay_le (q turns : Nat) : measuredLay q turns ≤ 65535 := Nat.min_le_right _ _

theorem measuredLay_of_lt {q turns : Nat} (h : measuredLay q turns < 65535) :
    measuredLay q turns = roundHalfUp q (turns * 4096) := by
  unfold measuredLay at h ⊢
  omega

theorem measuredLay_eq_zero {q turns : Nat} (h : q < 2048 * turns) : measuredLay q turns = 0 := by
  have hr : ¬ 1 ≤ roundHalfUp q (turns * 4096) := by
    rw [le_roundHalfUp_iff (by omega)]
    omega
  unfold measuredLay
  omega

theorem measuredLay_eq_top_iff {q turns : Nat} (ht : 0 < turns) : measuredLay q turns = 65535 ↔ 268429312 * turns ≤ q := by
  have hr : 65535 ≤ roundHalfUp q (turns * 4096) ↔ 268429312 * turns ≤ q := by
    rw [le_roundHalfUp_iff (by omega)]
    omega
  rw [← hr, measuredLay, min_eq_right_iff]

/-! ## Stage 2 -/

theorem deviation_range (lay target : Nat) : -999 ≤ deviation lay target ∧ deviation lay target ≤ 999 := by
  unfold deviation clampInt
  omega

/-- The deviation has the sign of the error, or is 0. -/
theorem deviation_sign (lay target : Nat) :
    (deviation lay target < 0 → lay < target) ∧ (0 < deviation lay target → target < lay) := by
  have hs := roundAway_sign (1000 * ((lay : Int) - target)) target
  unfold deviation clampInt
  omega

theorem natAbs_deviation (lay target : Nat) :
    (deviation lay target).natAbs = min 999 (roundHalfUp (1000 * ((lay : Int) - target).natAbs) target) := by
  calc (deviation lay target).natAbs
    _ = min 999 (roundAway (1000 * ((lay : Int) - target)) target).natAbs := natAbs_clampInt_neg 999 _
    _ = _ := by rw [natAbs_roundAway, Int.natAbs_mul]; rfl

theorem deviation_self (target : Nat) : deviation target target = 0 := by
  have hs := deviation_sign target target
  omega

/-- Within the clamp the deviation is the nearest whole number to the quotient. -/
theorem deviation_bounds {lay target : Nat} (ht : 0 < target) (h : (deviation lay target).natAbs < 999) :
    2 * 1000 * ((lay : Int) - target).natAbs < (2 * (deviation lay target).natAbs + 1) * target ∧
      2 * (deviation lay target).natAbs * target ≤ 2 * 1000 * ((lay : Int) - target).natAbs + target := by
  obtain ⟨hle, hlt⟩ := roundHalfUp_bounds (n := 1000 * ((lay : Int) - target).natAbs) ht
  have hd := natAbs_deviation lay target
  rw [show roundHalfUp (1000 * ((lay : Int) - target).natAbs) target = (deviation lay target).natAbs by omega] at hle hlt
  constructor <;> linarith

theorem natAbs_deviation_eq_top_iff {lay target : Nat} (ht : 0 < target) :
    (deviation lay target).natAbs = 999 ↔ 1997 * target ≤ 2000 * ((lay : Int) - target).natAbs := by
  rw [natAbs_deviation, min_eq_left_iff, le_roundHalfUp_iff ht]
  omega

/-- A lay of 0 has the raw value −1000, and is clamped (R108). -/
theorem deviation_zero_left {target : Nat} (ht : 0 < target) : deviation 0 target = -999 := by
  have hs := deviation_sign 0 target
  have hd := (natAbs_deviation_eq_top_iff (lay := 0) ht).mpr (by omega)
  omega

/-! ## Stage 3 -/

theorem natAbs_trimStep (d : Int) (gain : Nat) : (trimStep d gain).natAbs = roundHalfUp (d.natAbs * gain) 16 := by
  rw [trimStep, natAbs_roundAway, Int.natAbs_mul, Int.natAbs_natCast]

theorem trimStep_bounds (d : Int) (gain : Nat) :
    2 * (trimStep d gain).natAbs * 16 ≤ 2 * (d.natAbs * gain) + 16 ∧
      2 * (d.natAbs * gain) < 2 * (trimStep d gain).natAbs * 16 + 16 := by
  have hr := roundHalfUp_bounds (n := d.natAbs * gain) (d := 16) (by decide)
  rw [natAbs_trimStep]
  omega

/-- The step has the sign of the deviation, or is 0 (R109). -/
theorem trimStep_sign (d : Int) (gain : Nat) : (0 < trimStep d gain → 0 < d) ∧ (trimStep d gain < 0 → d < 0) :=
  have hs := roundAway_sign (d * gain) 16
  ⟨fun h => pos_of_mul_pos_left (hs.1 h) (Int.natCast_nonneg gain),
    fun h => neg_of_mul_neg_left (hs.2 h) (Int.natCast_nonneg gain)⟩

@[simp] theorem trimStep_gain_zero (d : Int) : trimStep d 0 = 0 := by
  simp [trimStep, roundAway]

/-- The step of a clamped deviation and a gain of one byte: at most 999 × 255 ÷ 16, rounded (R109). -/
theorem trimStep_range {d : Int} {gain : Nat} (hd : d.natAbs ≤ 999) (hg : gain ≤ 255) :
    -15922 ≤ trimStep d gain ∧ trimStep d gain ≤ 15922 := by
  have hm : d.natAbs * gain ≤ 999 * 255 := Nat.mul_le_mul hd hg
  have hb := trimStep_bounds d gain
  omega

/-! ## Stage 4 -/

section
variable {lo hi code : Nat} {step : Int}

theorem trimClamped_iff : trimClamped lo hi code step = true ↔ (code : Int) - step < lo ∨ (hi : Int) < code - step := by
  rw [trimClamped, trimCandidate, Bool.or_eq_true, decide_eq_true_iff, decide_eq_true_iff]

theorem trimCode_within (hl : (lo : Int) ≤ code - step) (hh : (code : Int) - step ≤ hi) :
    (trimCode lo hi code step : Int) = code - step ∧ trimClamped lo hi code step = false := by
  rw [← Bool.not_eq_true, trimClamped_iff, trimCode, trimCandidate, clampInt]
  omega

theorem trimCode_below (hc : (code : Int) - step < lo) :
    trimCode lo hi code step = lo ∧ trimClamped lo hi code step = true := by
  refine ⟨?_, trimClamped_iff.mpr (.inl hc)⟩
  rw [trimCode, trimCandidate, clampInt]
  omega

theorem trimCode_above (h : lo ≤ hi) (hc : (hi : Int) < code - step) :
    trimCode lo hi code step = hi ∧ trimClamped lo hi code step = true := by
  refine ⟨?_, trimClamped_iff.mpr (.inr hc)⟩
  rw [trimCode, trimCandidate, clampInt]
  omega

theorem trimCode_step_zero (hl : lo ≤ code) (hh : code ≤ hi) :
    trimCode lo hi code 0 = code ∧ trimClamped lo hi code 0 = false := by
  obtain ⟨hc, hn⟩ := trimCode_within (lo := lo) (hi := hi) (code := code) (step := 0) (by omega) (by omega)
  exact ⟨by omega, hn⟩

/-- A positive step slows the capstan, a negative one speeds it up (R110). -/
theorem trimCode_direction (hl : lo ≤ code) (hh : code ≤ hi) :
    (0 ≤ step → trimCode lo hi code step ≤ code) ∧ (step ≤ 0 → code ≤ trimCode lo hi code step) := by
  simp only [trimCode, trimCandidate, clampInt]
  omega

end

/-! ## The end of a window -/

variable {s : State} {h : HeadIx} {r : Record} {w : LayWindow}

theorem HeadState.spinning_iff (x : HeadState) : x.spinning = true ↔ x = .run ∨ x = .cutting := by
  cases x <;> decide

theorem exec_spinPulse (h : HeadIx) (s : State) : exec (.spinPulse h) s = .next (s.change (State.spinPulse h)) := rfl

/-- A followed SPIN pulse that brings the count to S × W is the end of the window, whole. -/
theorem exec_spinPulse_endWindow (hl : (s.head h).laysLength = true) (hs : (s.head h).state = .run ∨ (s.head h).state = .cutting)
    (hr : s.productOf h = some r) (hw : (s.head h).window = some w) (hc : w.spindle * w.turns ≤ (s.head h).spinCount + 1) :
    exec (.spinPulse h) s = .next (s.change (State.endWindow h r w)) := by
  have hp : s.spinPulse h = s.endWindow h r w := by
    simp only [State.spinPulse, hl, (HeadState.spinning_iff _).mpr hs, hr, hw, State.spinWithin, if_pos hc, Bool.and_self, if_true]
  rw [exec_spinPulse, State.change, State.change, hp]

/-- Without a target lay a window gives stage 1 alone (R114). -/
theorem State.endWindow_head_of_no_target (ht : w.target = none) :
    (s.endWindow h r w).head h = { s.head h with
      window := none
      lastLay := some (measuredLay (s.position h r - w.start) w.turns)
      lastDeviation := none } := by
  simp only [State.endWindow, ht, State.updHead_head]

/-- With a target lay the window's result stands in the head's meters; the holder and the alarm of R111 and R112 leave them. -/
theorem State.endWindow_meter_of_target {target : Nat} (ht : w.target = some target) :
    let lay := measuredLay (s.position h r - w.start) w.turns
    ((s.endWindow h r w).head h).meter = Head.meter { s.head h with
      lastLay := some lay
      lastDeviation := some (deviation lay target)
      trim := trimCode (s.head h).settings.trimMin (s.head h).settings.trimMax (s.head h).trim
        (trimStep (deviation lay target) w.gain) } := by
  have hplace (u : State) (d : Int) : ((u.placeLay r.tag w d).head h).meter = (u.head h).meter :=
    (State.placeLay_carries (State.Carries.refl h u)).meter
  simp only [State.endWindow, ht]
  split
  · rw [State.raiseAlarm_head, hplace, State.updHead_head]
  · rw [hplace, State.updHead_head]

/-- What a window's end leaves in its head of the four stages. -/
theorem State.endWindow_result (s : State) (h : HeadIx) (r : Record) (w : LayWindow) :
    let lay := measuredLay (s.position h r - w.start) w.turns
    let x := (s.endWindow h r w).head h
    x.lastLay = some lay ∧ x.lastDeviation = w.target.map (deviation lay) ∧
      (w.target = none → x.trim = (s.head h).trim) ∧
      ∀ target, w.target = some target → x.trim = trimCode (s.head h).settings.trimMin (s.head h).settings.trimMax
        (s.head h).trim (trimStep (deviation lay target) w.gain) := by
  intro lay x
  cases ht : w.target with
  | none =>
    have hx := State.endWindow_head_of_no_target (s := s) (h := h) (r := r) ht
    exact ⟨congrArg Head.lastLay hx, congrArg Head.lastDeviation hx, fun _ => (congrArg Head.trim hx :), nofun⟩
  | some target =>
    have hx := State.endWindow_meter_of_target (s := s) (h := h) (r := r) ht
    simp only [Head.meter, Prod.mk.injEq] at hx
    obtain ⟨-, -, -, -, -, -, -, htrim, hlay, hdev, -⟩ := hx
    exact ⟨hlay, hdev, nofun, fun _ e => Option.some.inj e ▸ htrim⟩

/-! ## The obligation -/

/-- Settles O14: the four stages by the rounding lemma `le_roundHalfUp_iff`, and a window's end by what it leaves in the head. -/
theorem layArithmetic : Obligations.LayArithmetic := by
  unfold Obligations.LayArithmetic
  refine ⟨⟨fun q turns ht => ?stage1, fun lay target ht => ?stage2⟩, fun d gain => ?stage3, fun lo hi code step hlh => ?stage4,
    fun h s r w _ hl hs hr hw hc => ?windowEnd⟩
  case stage1 =>
    refine ⟨measuredLay_le q turns, fun hq => ?_, measuredLay_eq_zero, (measuredLay_eq_top_iff ht).symm⟩
    rw [measuredLay_of_lt hq]
    exact roundHalfUp_bounds (by omega)
  case stage2 =>
    obtain ⟨hneg, hpos⟩ := deviation_sign lay target
    refine ⟨deviation_range lay target, hneg, hpos, fun e => e ▸ deviation_self lay, deviation_bounds ht, ?_,
      natAbs_deviation_eq_top_iff ht, deviation_zero_left ht, by decide⟩
    rw [natAbs_deviation, roundHalfUp, ← Nat.mul_assoc]
  case stage3 =>
    obtain ⟨hpos, hneg⟩ := trimStep_sign d gain
    exact ⟨trimStep_bounds d gain, hpos, hneg, trimStep_gain_zero d, fun _ _ => trimStep_range (by omega), by decide⟩
  case stage4 =>
    exact ⟨trimCode_within, trimCode_below, trimCode_above hlh, trimCode_step_zero,
      fun hl hh => (trimCode_direction hl hh).1, fun hl hh => (trimCode_direction hl hh).2⟩
  case windowEnd =>
    exact ⟨_, exec_spinPulse_endWindow hl hs hr hw hc, State.endWindow_result s h r w⟩

end Sys2Proof.Machine
end

section
/-! PROOF. SET_CLOCK (R168) and the ticks after it (R167): how the works clock counts within a second, and what the request answers from
each port. -/

namespace Sys2Proof.Machine

/-! ## The works clock -/

theorem Clock.tick_of_lt {c : Clock} (hc : c.ticks + 1 < ticksPerSecond) : c.tick = { c with ticks := c.ticks + 1 } :=
  if_pos hc

theorem Clock.tick_of_le {c : Clock} (hc : ticksPerSecond ≤ c.ticks + 1) : c.tick = ⟨c.seconds + 1, 0⟩ :=
  if_neg (Nat.not_lt.mpr hc)

/-- Ticks that do not reach the end of the second leave the seconds as they stand (R167). -/
theorem Clock.iterate_tick {c : Clock} (n : Nat) (hn : c.ticks + n < ticksPerSecond) :
    Clock.tick^[n] c = { c with ticks := c.ticks + n } := by
  induction n with
  | zero => rfl
  | succ n ih =>
    rw [Function.iterate_succ_apply', ih (by omega), Clock.tick_of_lt hn, Nat.add_assoc]

/-! ## What a tick and a response leave -/

theorem exec_tick (pins : Vector SensePins 16) (s : State) : exec (.tick pins) s = .next (s.tick pins) := rfl

@[simp] theorem State.tick_clock (pins : Vector SensePins 16) (s : State) : (s.tick pins).clock = s.clock.tick := rfl

@[simp] theorem State.tick_store (pins : Vector SensePins 16) (s : State) : (s.tick pins).store = s.store := rfl

@[simp] theorem State.respond_clock (p : Port) (body : List Byte) (s : State) : (s.respond p body).clock = s.clock := by
  cases p <;> rfl

@[simp] theorem State.respond_store (p : Port) (body : List Byte) (s : State) : (s.respond p body).store = s.store := by
  cases p <;> rfl

/-! ## The request -/

section
variable {p : Port} {v : Nat} {s : State} {body : List Byte}

theorem answerSetClock_line (v : Nat) (s : State) :
    answerSetClock .lineComputer v s = ({ s with clock := ⟨BitVec.ofNat 32 v, 0⟩ }, Reply.done (beBytes 4 v)) := rfl

theorem answerSetClock_panel (v : Nat) (s : State) : answerSetClock .floorPanel v s = s.refuse .denied := rfl

/-- The SET_CLOCK in progress at a port is taken: its answer goes out there, and what it leaves is the machine (R33). -/
theorem exec_setClock_of_asks (h : s.Asks p (.setClock p v) body) :
    exec (.setClock p v) s = .next (State.respond p
      (body.headD 0 :: (answerSetClock p v s).2.code.code :: (answerSetClock p v s).2.fields) (answerSetClock p v s).1) :=
  have ⟨hbody, hcommand⟩ := h
  congrArg Host.Outcome.next (State.takeRequest_eq hbody hcommand)

theorem exec_setClock_line (h : s.Asks .lineComputer (.setClock .lineComputer v) body) :
    exec (.setClock .lineComputer v) s = .next (State.respond .lineComputer (body.headD 0 :: 0x00 :: beBytes 4 v)
      { s with clock := ⟨BitVec.ofNat 32 v, 0⟩ }) := by
  rw [exec_setClock_of_asks h, answerSetClock_line]
  rfl

theorem exec_setClock_panel (h : s.Asks .floorPanel (.setClock .floorPanel v) body) :
    exec (.setClock .floorPanel v) s = .next (s.respond .floorPanel [body.headD 0, 0x07]) := by
  rw [exec_setClock_of_asks h, answerSetClock_panel]
  rfl

/-- A tick taken right after SET_CLOCK is tick 1 of the second that it set. -/
theorem exec_tick_after_setClock {pins : Vector SensePins 16} {t u : State}
    (h : s.Asks .lineComputer (.setClock .lineComputer v) body) (ht : exec (.setClock .lineComputer v) s = .next t)
    (hu : exec (.tick pins) t = .next u) : u.clock = ⟨BitVec.ofNat 32 v, 1⟩ ∧ u.store = s.store := by
  rw [exec_setClock_line h] at ht
  rw [exec_tick] at hu
  cases ht
  cases hu
  constructor
  · have hone : 0 + 1 < ticksPerSecond := by decide
    rw [State.tick_clock, State.respond_clock, Clock.tick_of_lt hone]
  · rw [State.tick_store, State.respond_store]

end

/-! ## The obligation -/

/-- Settles O46: the answers by port, and the ticks after them by the count within a second and its wrap. -/
theorem setClockResult : Obligations.SetClockResult := by
  unfold Obligations.SetClockResult
  refine fun v s body _ => ⟨fun h => ⟨exec_setClock_line h, fun pins t u => exec_tick_after_setClock h⟩, fun n hn => ?stands, ?wraps,
    exec_setClock_panel⟩
  case stands =>
    have hsecond : 0 + n < ticksPerSecond := by
      rw [ticksPerSecond]
      omega
    rw [Clock.iterate_tick n hsecond, Nat.zero_add]
  case wraps =>
    have hlast : ticksPerSecond ≤ 1023 + 1 := by decide
    exact Clock.tick_of_le hlast

end Sys2Proof.Machine
end

section
/-! PROOF. What every step keeps: the laws of the records, of the heads and of the bindings. A law that no command sees in the queue
and that every command keeps is kept by every step. -/

namespace Sys2Proof.Machine

variable {s t : State}

/-! ## From commands to steps -/

/-- A law that does not speak of the queue, is kept by a step with nothing to do and by every command, is kept by every step. -/
theorem step_induction {P : State → Prop} (queue : ∀ s q, P s → P (s.withQueue q)) (idle : ∀ s, P s → P s.idle)
    (command : ∀ c s t, P s → exec c s = .next t → P t) (H : P s) (e : step s = .next t) : P t := by
  unfold step at e
  split at e
  case h_1 =>
    cases e
    exact idle s H
  case h_2 c rest _ => exact command c _ t (queue s rest H) e

/-! ## The records -/

/-- Every command keeps the laws of the store and of the records. -/
theorem exec_sound {c : Instr} (H : s.Sound) (e : exec c s = .next t) : t.Sound := by
  cases c <;> cases e
  case resetN => exact State.afterReset_sound s
  case tick => exact State.tick_sound H
  case trimPeriodStart => exact State.trimPeriod_sound H
  case senseSettled => exact State.change_sound (State.senseSettled_sound H)
  case encPulse => exact State.change_sound (State.encPulse_sound H)
  case spinPulse => exact State.change_sound (State.spinPulse_sound H)
  case runRise => exact State.change_sound (State.runRise_sound H)
  case runFall => exact State.change_sound (State.runFall_sound H)
  case cutWaitExpiry => exact State.change_sound (State.cutWaitExpiry_sound H)
  case flawRise => exact State.change_sound (State.flawRiseEdge_sound H)
  case flawFall => exact State.change_sound (State.flawFallEdge_sound H)
  case knotPulse => exact State.change_sound (State.knotPulse_sound H)
  case rowPulse => exact State.change_sound (State.rowPulse_sound H)
  case rowExpiry => exact State.change_sound (State.rowExpiry_sound H)
  case storeFullNotification => exact State.change_sound (State.storeFullNotification_sound H)
  case excessWatchEnd => exact State.updHead_sound H
  case lookup => exact State.takeRequest_sound H (answerLookup_sound H)
  case nextRecord => exact State.takeRequest_sound H (answerNext_sound H)
  case readSpans => exact State.takeRequest_sound H (answerReadSpans_sound H)
  case readSources => exact State.takeRequest_sound H (answerReadSources_sound H)
  case create => exact State.takeRequest_sound H (answerCreate_sound H)
  case amend => exact State.takeRequest_sound H (answerAmend_sound H)
  case addSpan => exact State.takeRequest_sound H (answerAddSpan_sound H)
  case conclude => exact State.takeRequest_sound H (answerConclude_sound H)
  case band => exact State.takeRequest_sound H (answerBand_sound H)
  case retire => exact State.takeRequest_sound H (answerRetire_sound H)
  case bindProduct => exact State.takeRequest_sound H (answerBindProduct_sound H)
  case bindSource => exact State.takeRequest_sound H (answerBindSource_sound H)
  case bindFeed => exact State.takeRequest_sound H (answerBindFeed_sound H)
  case unbindFeed => exact State.takeRequest_sound H (answerUnbindFeed_sound H)
  case release => exact State.takeRequest_sound H (answerRelease_sound H)
  case enqueue => exact State.takeRequest_sound H (answerEnqueue_sound H)
  case clearQueue => exact State.takeRequest_sound H (answerClearQueue_sound H)
  case headStatus => exact State.takeRequest_sound H (answerHeadStatus_sound H)
  case setHead => exact State.takeRequest_sound H (answerSetHead_sound H)
  case setClock => exact State.takeRequest_sound H (answerSetClock_sound H)
  case readEvents => exact State.takeRequest_sound H (answerReadEvents_sound H)
  case clearEvents => exact State.takeRequest_sound H (answerClearEvents_sound H)
  case setDevice => exact State.takeRequest_sound H (answerSetDevice_sound H)
  case unknownRequest => exact State.takeRequest_sound H (State.refuse_sound H)
  case spiRequestFrame => exact State.spiFrame_sound H
  case spiMalformedFrame => exact State.spiFrame_sound H
  case spiDiscardFrame => exact State.spiFrame_sound H
  case spiFetchFrame => exact State.spiFrame_sound H
  case panelSlotEnd => exact State.slotEnd_sound H
  all_goals exact State.updLink_sound H

/-- Settles O54: the laws of the store and of the records are kept by every command. -/
theorem stepKeepsRecordLaws : Obligations.StepKeepsRecordLaws := by
  intro s t store coils records e
  have H : t.Sound := step_induction (P := State.Sound) (fun _ _ H => H.of_eq rfl rfl rfl) (fun _ H => H.of_eq rfl rfl rfl)
    (fun _ _ _ H => exec_sound H) ⟨⟨store, coils⟩, records⟩ e
  exact ⟨H.tags.store, H.tags.coils, H.records⟩

/-! ## The heads -/

/-- Every command keeps the laws of the heads. -/
theorem exec_headsOk {c : Instr} (H : s.HeadsOk) (e : exec c s = .next t) : t.HeadsOk := by
  have records (p tag a k st first kind lo hi m l) := answerRecords_headsOk (p := p) (tag := tag) (a := a) (k := k) (st := st)
    (first := first) (kind := kind) (lo := lo) (hi := hi) (m := m) (l := l) H
  have binds (p n sl tag m) := answerBinds_headsOk (p := p) (n := n) (sl := sl) (tag := tag) (m := m) H
  have queues (p n len c g l) := answerQueues_headsOk (p := p) (n := n) (len := len) (c := c) (g := g) (l := l) H
  have device (p n w l) := answerDevice_headsOk (p := p) (n := n) (w := w) (l := l) H
  cases c <;> cases e
  case resetN => exact State.afterReset_headsOk s
  case tick => exact State.tick_headsOk H
  case trimPeriodStart => exact State.trimPeriod_headsOk H
  case senseSettled => exact State.change_headsOk (State.senseSettled_headsOk H)
  case encPulse => exact State.change_headsOk (State.encPulse_headsOk H)
  case spinPulse => exact State.change_headsOk (State.spinPulse_headsOk H)
  case runRise => exact State.change_headsOk (State.runRise_headsOk H)
  case runFall => exact State.change_headsOk (State.runFall_headsOk H)
  case cutWaitExpiry => exact State.change_headsOk (State.cutWaitExpiry_headsOk H)
  case flawRise => exact State.change_headsOk (State.flawRiseEdge_headsOk H)
  case flawFall => exact State.change_headsOk (State.flawFallEdge_headsOk H)
  case knotPulse => exact State.change_headsOk (State.knotPulse_headsOk H)
  case rowPulse => exact State.change_headsOk (State.rowPulse_headsOk H)
  case rowExpiry => exact State.change_headsOk (State.rowExpiry_headsOk H)
  case storeFullNotification => exact State.change_headsOk (State.storeFullNotification_headsOk H)
  case excessWatchEnd => exact State.updHead_headsOk (fun _ => rfl) H
  case lookup _ tag =>
    obtain ⟨A, -⟩ := records .lineComputer tag 0 0 0 0 0 0 0 0 []
    exact State.takeRequest_headsOk H A
  case nextRecord _ a k st =>
    obtain ⟨-, A, -⟩ := records .lineComputer 0 a k st 0 0 0 0 0 []
    exact State.takeRequest_headsOk H A
  case readSpans _ tag =>
    obtain ⟨-, -, A, -⟩ := records .lineComputer tag 0 0 0 0 0 0 0 0 []
    exact State.takeRequest_headsOk H A
  case readSources _ tag first =>
    obtain ⟨-, -, -, A, -⟩ := records .lineComputer tag 0 0 0 first 0 0 0 0 []
    exact State.takeRequest_headsOk H A
  case create p tag kind l =>
    obtain ⟨-, -, -, -, A, -⟩ := records p tag 0 0 0 0 kind 0 0 0 l
    exact State.takeRequest_headsOk H A
  case amend p tag m l =>
    obtain ⟨-, -, -, -, -, A, -⟩ := records p tag 0 0 0 0 0 0 0 m l
    exact State.takeRequest_headsOk H A
  case addSpan p tag m lo hi kind =>
    obtain ⟨-, -, -, -, -, -, A, -⟩ := records p tag 0 0 0 0 kind lo hi m []
    exact State.takeRequest_headsOk H A
  case conclude p tag m =>
    obtain ⟨-, -, -, -, -, -, -, A, -⟩ := records p tag 0 0 0 0 0 0 0 m []
    exact State.takeRequest_headsOk H A
  case band p tag m =>
    obtain ⟨-, -, -, -, -, -, -, -, A, -⟩ := records p tag 0 0 0 0 0 0 0 m []
    exact State.takeRequest_headsOk H A
  case retire p tag m =>
    obtain ⟨-, -, -, -, -, -, -, -, -, A⟩ := records p tag 0 0 0 0 0 0 0 m []
    exact State.takeRequest_headsOk H A
  case bindProduct p n tag m =>
    obtain ⟨A, -⟩ := binds p n 0 tag m
    exact State.takeRequest_headsOk H A
  case bindSource p n tag m =>
    obtain ⟨-, A, -⟩ := binds p n 0 tag m
    exact State.takeRequest_headsOk H A
  case bindFeed p n sl tag m =>
    obtain ⟨-, -, A, -⟩ := binds p n sl tag m
    exact State.takeRequest_headsOk H A
  case unbindFeed p n sl =>
    obtain ⟨-, -, -, A, -⟩ := binds p n sl 0 0
    exact State.takeRequest_headsOk H A
  case release p n =>
    obtain ⟨-, -, -, -, A⟩ := binds p n 0 0 0
    exact State.takeRequest_headsOk H A
  case enqueue p n len c g =>
    obtain ⟨A, -⟩ := queues p n len c g []
    exact State.takeRequest_headsOk H A
  case clearQueue p n =>
    obtain ⟨-, A, -⟩ := queues p n 0 0 0 []
    exact State.takeRequest_headsOk H A
  case headStatus _ n =>
    obtain ⟨-, -, A, -⟩ := queues .lineComputer n 0 0 0 []
    exact State.takeRequest_headsOk H A
  case setHead p n l =>
    obtain ⟨-, -, -, A⟩ := queues p n 0 0 0 l
    exact State.takeRequest_headsOk H A
  case setClock p n =>
    obtain ⟨A, -⟩ := device p n 0 []
    exact State.takeRequest_headsOk H A
  case readEvents p =>
    obtain ⟨-, A, -⟩ := device p 0 0 []
    exact State.takeRequest_headsOk H A
  case clearEvents p w =>
    obtain ⟨-, -, A, -⟩ := device p 0 w []
    exact State.takeRequest_headsOk H A
  case setDevice p l =>
    obtain ⟨-, -, -, A⟩ := device p 0 0 l
    exact State.takeRequest_headsOk H A
  case unknownRequest => exact State.takeRequest_headsOk H H
  case spiRequestFrame => exact State.spiFrame_headsOk H
  case spiMalformedFrame => exact State.spiFrame_headsOk H
  case spiDiscardFrame => exact State.spiFrame_headsOk H
  case spiFetchFrame => exact State.spiFrame_headsOk H
  case panelSlotEnd => exact State.slotEnd_headsOk H
  all_goals exact State.updLink_headsOk H

/-- Settles O55: the laws of the heads are kept by every command. -/
theorem stepKeepsHeadLaws : Obligations.StepKeepsHeadLaws := fun _ _ =>
  step_induction (P := State.HeadsOk) (fun _ _ H => H.of_heads rfl) (fun _ H => H.of_heads rfl) fun _ _ _ => exec_headsOk

/-! ## The bindings -/

/-- Work that keeps the bindings in the midst of a change keeps them. -/
theorem State.BindingsOk.of_boundBut {f : State → State} {h : HeadIx} (B : s.BindingsOk)
    (hf : ∀ K, s.BoundBut h noRole K → (f s).BoundBut h noRole K) : (f s).BindingsOk :=
  (hf _ (B.but h)).ok

/-- Every command keeps the bindings. -/
theorem exec_bindingsOk {c : Instr} (H : s.BindingsOk) (e : exec c s = .next t) : t.BindingsOk := by
  have records (p tag a k st first kind lo hi m l) := answerRecords_bindingsOk (p := p) (tag := tag) (a := a) (k := k) (st := st)
    (first := first) (kind := kind) (lo := lo) (hi := hi) (m := m) (l := l) H
  have binds (p n sl tag m) := answerBinds_bindingsOk (p := p) (n := n) (sl := sl) (tag := tag) (m := m) H
  have queues (p n len c g l) := answerQueues_bindingsOk (p := p) (n := n) (len := len) (c := c) (gr := g) (l := l) H
  have device (p n w l) := answerDevice_bindingsOk (p := p) (n := n) (w := w) (l := l) H
  have work (h : HeadIx) {f : State → State} := H.of_boundBut (f := f) (h := h)
  cases c <;> cases e
  case resetN => exact State.afterReset_bindingsOk s
  case tick => exact State.tick_bindingsOk H
  case trimPeriodStart => exact State.trimPeriod_bindingsOk H
  case senseSettled => exact State.change_bindingsOk (State.senseSettled_bindingsOk H)
  case encPulse h => exact State.change_bindingsOk (work h fun _ => State.encPulse_boundBut)
  case spinPulse h => exact State.change_bindingsOk (work h fun _ => State.spinPulse_boundBut)
  case runRise h => exact State.change_bindingsOk (work h fun _ => State.runRise_boundBut)
  case runFall => exact State.change_bindingsOk (State.runFall_bindingsOk H)
  case cutWaitExpiry => exact State.change_bindingsOk (State.cutWaitExpiry_bindingsOk H)
  case flawRise h => exact State.change_bindingsOk (work h fun _ => State.flawRiseEdge_boundBut)
  case flawFall h => exact State.change_bindingsOk (work h fun _ => State.flawFallEdge_boundBut)
  case knotPulse h => exact State.change_bindingsOk (work h fun _ => State.knotPulse_boundBut)
  case rowPulse h => exact State.change_bindingsOk (work h fun _ => State.rowPulse_boundBut)
  case rowExpiry h => exact State.change_bindingsOk (work h fun _ => State.rowExpiry_boundBut)
  case storeFullNotification => exact State.change_bindingsOk (State.storeFullNotification_bindingsOk H)
  case excessWatchEnd => exact State.updHead_bindingsOk (fun _ => rfl) H
  case lookup _ tag =>
    obtain ⟨A, -⟩ := records .lineComputer tag 0 0 0 0 0 0 0 0 []
    exact State.takeRequest_bindingsOk H A
  case nextRecord _ a k st =>
    obtain ⟨-, A, -⟩ := records .lineComputer 0 a k st 0 0 0 0 0 []
    exact State.takeRequest_bindingsOk H A
  case readSpans _ tag =>
    obtain ⟨-, -, A, -⟩ := records .lineComputer tag 0 0 0 0 0 0 0 0 []
    exact State.takeRequest_bindingsOk H A
  case readSources _ tag first =>
    obtain ⟨-, -, -, A, -⟩ := records .lineComputer tag 0 0 0 first 0 0 0 0 []
    exact State.takeRequest_bindingsOk H A
  case create p tag kind l =>
    obtain ⟨-, -, -, -, A, -⟩ := records p tag 0 0 0 0 kind 0 0 0 l
    exact State.takeRequest_bindingsOk H A
  case amend p tag m l =>
    obtain ⟨-, -, -, -, -, A, -⟩ := records p tag 0 0 0 0 0 0 0 m l
    exact State.takeRequest_bindingsOk H A
  case addSpan p tag m lo hi kind =>
    obtain ⟨-, -, -, -, -, -, A, -⟩ := records p tag 0 0 0 0 kind lo hi m []
    exact State.takeRequest_bindingsOk H A
  case conclude p tag m =>
    obtain ⟨-, -, -, -, -, -, -, A, -⟩ := records p tag 0 0 0 0 0 0 0 m []
    exact State.takeRequest_bindingsOk H A
  case band p tag m =>
    obtain ⟨-, -, -, -, -, -, -, -, A, -⟩ := records p tag 0 0 0 0 0 0 0 m []
    exact State.takeRequest_bindingsOk H A
  case retire p tag m =>
    obtain ⟨-, -, -, -, -, -, -, -, -, A⟩ := records p tag 0 0 0 0 0 0 0 m []
    exact State.takeRequest_bindingsOk H A
  case bindProduct p n tag m =>
    obtain ⟨A, -⟩ := binds p n 0 tag m
    exact State.takeRequest_bindingsOk H A
  case bindSource p n tag m =>
    obtain ⟨-, A, -⟩ := binds p n 0 tag m
    exact State.takeRequest_bindingsOk H A
  case bindFeed p n sl tag m =>
    obtain ⟨-, -, A, -⟩ := binds p n sl tag m
    exact State.takeRequest_bindingsOk H A
  case unbindFeed p n sl =>
    obtain ⟨-, -, -, A, -⟩ := binds p n sl 0 0
    exact State.takeRequest_bindingsOk H A
  case release p n =>
    obtain ⟨-, -, -, -, A⟩ := binds p n 0 0 0
    exact State.takeRequest_bindingsOk H A
  case enqueue p n len c g =>
    obtain ⟨A, -⟩ := queues p n len c g []
    exact State.takeRequest_bindingsOk H A
  case clearQueue p n =>
    obtain ⟨-, A, -⟩ := queues p n 0 0 0 []
    exact State.takeRequest_bindingsOk H A
  case headStatus _ n =>
    obtain ⟨-, -, A, -⟩ := queues .lineComputer n 0 0 0 []
    exact State.takeRequest_bindingsOk H A
  case setHead p n l =>
    obtain ⟨-, -, -, A⟩ := queues p n 0 0 0 l
    exact State.takeRequest_bindingsOk H A
  case setClock p n =>
    obtain ⟨A, -⟩ := device p n 0 []
    exact State.takeRequest_bindingsOk H A
  case readEvents p =>
    obtain ⟨-, A, -⟩ := device p 0 0 []
    exact State.takeRequest_bindingsOk H A
  case clearEvents p w =>
    obtain ⟨-, -, A, -⟩ := device p 0 w []
    exact State.takeRequest_bindingsOk H A
  case setDevice p l =>
    obtain ⟨-, -, -, A⟩ := device p 0 0 l
    exact State.takeRequest_bindingsOk H A
  case unknownRequest => exact State.takeRequest_bindingsOk H H
  case spiRequestFrame => exact State.spiFrame_bindingsOk H
  case spiMalformedFrame => exact State.spiFrame_bindingsOk H
  case spiDiscardFrame => exact State.spiFrame_bindingsOk H
  case spiFetchFrame => exact State.spiFrame_bindingsOk H
  case panelSlotEnd => exact State.slotEnd_bindingsOk H
  all_goals exact State.updLink_bindingsOk H

/-- Settles O56: the bindings are kept by every command. -/
theorem stepKeepsBindings : Obligations.StepKeepsBindings := fun _ _ =>
  step_induction (P := State.BindingsOk) (fun _ _ B => B.of_fields rfl rfl) (fun _ B => B.of_fields rfl rfl) fun _ _ _ =>
    exec_bindingsOk

end Sys2Proof.Machine
end

section
/-! PROOF. What the answer to a request leaves: the state as it was, or the request's one change, with the checks that let it
through. -/

namespace Sys2Proof.Machine

variable {p : Port} {n tag : Nat} {m : Mark} {l : List Item} {s : State} {h : HeadIx}

/-! ## Head and slot operands -/

theorem headOf_eq_some : headOf n = some h ↔ n = h.val := by
  unfold headOf
  split
  case isTrue hn => simp [Fin.ext_iff]
  case isFalse hn =>
    have := h.isLt
    simp
    omega

@[simp] theorem headOf_val (h : HeadIx) : headOf h.val = some h := headOf_eq_some.mpr rfl

theorem headOf_of_le (hn : 15 < n) : headOf n = none := dif_neg (by omega)

theorem slotOf_eq_some {k : SlotIx} : slotOf n = some k ↔ n = k.val := by
  unfold slotOf
  split
  case isTrue hn => simp [Fin.ext_iff]
  case isFalse hn =>
    have := k.isLt
    simp
    omega

@[simp] theorem slotOf_val (k : SlotIx) : slotOf k.val = some k := slotOf_eq_some.mpr rfl

theorem slotOf_of_le (hn : 3 < n) : slotOf n = none := dif_neg (by omega)

theorem State.presentHead_of_le (hn : 15 < n) : s.presentHead n = none := by
  rw [State.presentHead, headOf_of_le hn]

theorem State.presentHead_empty (he : (s.head h).state = .empty) : s.presentHead h.val = none := by
  rw [State.presentHead, headOf_val]
  exact if_pos he

theorem State.presentHead_val (he : (s.head h).state ≠ .empty) : s.presentHead h.val = some h := by
  rw [State.presentHead, headOf_val]
  exact if_neg he

theorem State.presentHead_eq_some : s.presentHead n = some h ↔ n = h.val ∧ (s.head h).state ≠ .empty := by
  constructor
  · intro e
    unfold State.presentHead at e
    split at e
    case h_1 k ek =>
      split at e
      · cases e
      case isFalse he =>
        cases e
        exact ⟨headOf_eq_some.mp ek, he⟩
    case h_2 => cases e
  · rintro ⟨rfl, he⟩
    exact State.presentHead_val he

@[simp] theorem fromLine_eq_false : (fromLine p) = false ↔ p = .floorPanel := by
  cases p <;> decide

theorem recordKindOf_eq_some {k : RecordKind} : recordKindOf n = some k ↔ n = k.code := by
  constructor
  · intro e
    unfold recordKindOf at e
    split at e <;> cases e <;> rfl
  · rintro rfl
    cases k <;> rfl

/-! ## Requests on records -/

theorem answerCreate_cases (p : Port) (tag kind : Nat) (l : List Item) (s : State) :
    (answerCreate p tag kind l s).1 = s ∨ (∃ f, (answerCreate p tag kind l s).1 = s.raiseStore f) ∨
      ∃ k b, freshBody l k = some b ∧ s.live tag = false ∧ s.store.length < storeCap ∧ (1 ≤ tag ∧ tag < tagTop) ∧
        (answerCreate p tag kind l s).1 = s.change (State.enter (Record.fresh tag .draft s.clock.seconds b)) := by
  unfold answerCreate
  split
  · exact .inl rfl
  split
  · exact .inl rfl
  case isFalse hlive =>
    split
    · exact .inl rfl
    case h_2 k _ =>
      split
      · exact .inl rfl
      case h_2 b hb =>
        split
        · exact .inl rfl
        case isFalse hok =>
          split
          · exact .inr (.inl ⟨fun c => { c with createFull := true }, rfl⟩)
          case isFalse hroom =>
            simp only [Bool.or_eq_true, decide_eq_true_eq, not_or] at hok
            exact .inr (.inr ⟨k, b, hb, by simpa using hlive, by omega, by omega, rfl⟩)

theorem answerAmend_cases (p : Port) (tag : Nat) (m : Mark) (l : List Item) (s : State) :
    (answerAmend p tag m l s).1 = s ∨ ∃ r, s.find tag = some r ∧ r.kind ≠ .coil ∧
      (answerAmend p tag m l s).1 = s.change (State.amend tag l) := by
  unfold answerAmend
  split
  · exact .inl rfl
  split
  · exact .inl rfl
  case h_2 r hr =>
    split
    · exact .inl rfl
    case isFalse hk =>
      split
      · exact .inl rfl
      split
      · exact .inl rfl
      split
      · exact .inl rfl
      · exact .inr ⟨r, hr, hk, rfl⟩

theorem answerAddSpan_cases (p : Port) (tag : Nat) (m : Mark) (lo hi kind : Nat) (s : State) :
    (answerAddSpan p tag m lo hi kind s).1 = s ∨ ∃ r k, s.find tag = some r ∧ r.kind ≠ .coil ∧ r.state.takesSpans = true ∧
      lo < hi ∧ hi ≤ r.made ∧
      (answerAddSpan p tag m lo hi kind s).1 = s.change (State.addSpanTo r (Span.closed lo hi (KindSet.only k))) := by
  unfold answerAddSpan
  split
  · exact .inl rfl
  split
  · exact .inl rfl
  case h_2 r hr =>
    split
    · exact .inl rfl
    case isFalse hk =>
      split
      · exact .inl rfl
      case isFalse ht =>
        split
        · exact .inl rfl
        split
        · exact .inl rfl
        case isFalse hb =>
          split
          · exact .inl rfl
          case h_2 k _ =>
            dsimp only
            split
            · exact .inl rfl
            · exact .inr ⟨r, k, hr, hk, by simpa using ht, by omega, by omega, rfl⟩

theorem answerConclude_cases (p : Port) (tag : Nat) (m : Mark) (s : State) :
    (answerConclude p tag m s).1 = s ∨ ∃ r, s.find tag = some r ∧ r.kind ≠ .coil ∧ r.state = .interrupted ∧
      (answerConclude p tag m s).1 = s.change fun t => t.updRec tag fun x => { x with state := .made } := by
  unfold answerConclude
  split
  · exact .inl rfl
  split
  · exact .inl rfl
  case h_2 r hr =>
    split
    · exact .inl rfl
    case isFalse hk =>
      split
      · exact .inl rfl
      case isFalse hs =>
        split
        · exact .inl rfl
        · exact .inr ⟨r, hr, hk, by simpa using hs, rfl⟩

theorem answerBand_cases (p : Port) (tag : Nat) (m : Mark) (s : State) :
    (answerBand p tag m s).1 = s ∨ ∃ r, s.find tag = some r ∧ r.kind = .coil ∧ r.state = .wound ∧
      (answerBand p tag m s).1 = s.change (State.bandCoil tag) := by
  unfold answerBand
  split
  · exact .inl rfl
  split
  · exact .inl rfl
  case h_2 r hr =>
    split
    · exact .inl rfl
    case isFalse hk =>
      split
      · exact .inl rfl
      case isFalse hs =>
        split
        · exact .inl rfl
        · exact .inr ⟨r, hr, by simpa using hk, by simpa using hs, rfl⟩

theorem answerRetire_cases (p : Port) (tag : Nat) (m : Mark) (s : State) :
    (answerRetire p tag m s).1 = s ∨ ∃ r, s.find tag = some r ∧ r.state.retirable = true ∧
      (answerRetire p tag m s).1 = s.change (State.leave tag) := by
  unfold answerRetire
  split
  · exact .inl rfl
  split
  · exact .inl rfl
  case h_2 r hr =>
    split
    · exact .inl rfl
    case isFalse hs =>
      split
      · exact .inl rfl
      · exact .inr ⟨r, hr, by simpa using hs, rfl⟩

/-! ## Requests on heads -/

theorem answerBindProduct_cases (p : Port) (n tag : Nat) (m : Mark) (s : State) :
    (answerBindProduct p n tag m s).1 = s ∨ ∃ h r k, n = h.val ∧ s.find tag = some r ∧
      (s.head h).kind.bind MachineKind.product = some k ∧ r.kind = k ∧ (s.head h).state = .idle ∧
      (r.state = .draft ∨ r.state = .interrupted) ∧
      (answerBindProduct p n tag m s).1 = s.change (State.bindProduct h r) := by
  unfold answerBindProduct
  split
  · exact .inl rfl
  split
  · exact .inl rfl
  case h_2 h hh =>
    split
    · exact .inl rfl
    case h_2 r hr =>
      split
      · exact .inl rfl
      case h_2 k hk =>
        split
        · exact .inl rfl
        case isFalse hkind =>
          split
          · exact .inl rfl
          case isFalse hidle =>
            split
            · exact .inl rfl
            case isFalse hst =>
              split
              · exact .inl rfl
              · exact .inr ⟨h, r, k, (State.presentHead_eq_some.mp hh).1, hr, hk, by simpa using hkind, by simpa using hidle,
                  by tauto, rfl⟩

theorem answerBindSource_cases (p : Port) (n tag : Nat) (m : Mark) (s : State) :
    (answerBindSource p n tag m s).1 = s ∨ ∃ h r, n = h.val ∧ s.find tag = some r ∧ (s.head h).kind = some .coiler ∧
      r.kind = .rope ∧ (s.head h).state = .idle ∧ r.state = .made ∧
      (answerBindSource p n tag m s).1 = s.change (State.bindSource h tag) := by
  unfold answerBindSource
  split
  · exact .inl rfl
  split
  · exact .inl rfl
  case h_2 h hh =>
    split
    · exact .inl rfl
    case h_2 r hr =>
      split
      · exact .inl rfl
      case isFalse hkind =>
        split
        · exact .inl rfl
        case isFalse hrope =>
          split
          · exact .inl rfl
          case isFalse hidle =>
            split
            · exact .inl rfl
            case isFalse hst =>
              split
              · exact .inl rfl
              · exact .inr ⟨h, r, (State.presentHead_eq_some.mp hh).1, hr, by simpa using hkind, by simpa using hrope,
                  by simpa using hidle, by simpa using hst, rfl⟩

theorem answerBindFeed_cases (p : Port) (n slot tag : Nat) (m : Mark) (s : State) :
    (answerBindFeed p n slot tag m s).1 = s ∨ ∃ h r b k q, n = h.val ∧ s.find tag = some r ∧ r.body = .strand b ∧
      (s.head h).state.takesFeeds = true ∧ slot = k.val ∧ (s.head h).slotFree slot = true ∧ r.state = .made ∧
      s.productOf h = some q ∧ (answerBindFeed p n slot tag m s).1 = s.change (State.bindFeed h k r b q) := by
  unfold answerBindFeed
  split
  · exact .inl rfl
  split
  · exact .inl rfl
  case h_2 h hh =>
    split
    · exact .inl rfl
    case h_2 r hr =>
      split
      · exact .inl rfl
      split
      case h_4 b hb =>
        split
        · exact .inl rfl
        case isFalse hfeeds =>
          split
          · exact .inl rfl
          case isFalse hfree =>
            split
            · exact .inl rfl
            case isFalse hst =>
              split
              · exact .inl rfl
              split
              case h_3 k q hslot hq =>
                split
                · exact .inl rfl
                · exact .inr ⟨h, r, b, k, q, (State.presentHead_eq_some.mp hh).1, hr, hb, by simpa using hfeeds,
                    slotOf_eq_some.mp hslot, by simpa using hfree, by simpa using hst, hq, rfl⟩
              all_goals exact .inl rfl
      all_goals exact .inl rfl

theorem answerUnbindFeed_cases (p : Port) (n slot : Nat) (s : State) :
    (answerUnbindFeed p n slot s).1 = s ∨ ∃ h k q, n = h.val ∧ slot = k.val ∧ s.productOf h = some q ∧
      (answerUnbindFeed p n slot s).1 = s.change (State.unbindFeed h k q) := by
  unfold answerUnbindFeed
  split
  · exact .inl rfl
  split
  · exact .inl rfl
  case h_2 h hh =>
    split
    · exact .inl rfl
    split
    · exact .inl rfl
    split
    · exact .inl rfl
    split
    case h_3 k q hslot hq =>
      exact .inr ⟨h, k, q, (State.presentHead_eq_some.mp hh).1, slotOf_eq_some.mp hslot, hq, rfl⟩
    all_goals exact .inl rfl

theorem answerRelease_cases (p : Port) (n : Nat) (s : State) :
    (answerRelease p n s).1 = s ∨ ∃ h : HeadIx, n = h.val ∧ (answerRelease p n s).1 = s.change (State.releaseHead h) := by
  unfold answerRelease
  split
  · exact .inl rfl
  split
  · exact .inl rfl
  case h_2 h hh =>
    split
    · exact .inl rfl
    · exact .inr ⟨h, (State.presentHead_eq_some.mp hh).1, rfl⟩

theorem answerEnqueue_cases (p : Port) (n length count rule : Nat) (s : State) :
    (answerEnqueue p n length count rule s).1 = s ∨ ∃ (h : HeadIx) (o : CoilOrder), n = h.val ∧
      (answerEnqueue p n length count rule s).1 = s.change (State.enqueue h o) := by
  unfold answerEnqueue
  split
  · exact .inl rfl
  split
  · exact .inl rfl
  case h_2 h hh =>
    split
    · exact .inl rfl
    split
    · exact .inl rfl
    case h_2 o _ =>
      split
      · exact .inl rfl
      · exact .inr ⟨h, o, (State.presentHead_eq_some.mp hh).1, rfl⟩

theorem answerClearQueue_cases (p : Port) (n : Nat) (s : State) :
    (answerClearQueue p n s).1 = s ∨ ∃ h : HeadIx, n = h.val ∧ (answerClearQueue p n s).1 = s.updHead h Head.clearQueue := by
  unfold answerClearQueue
  split
  · exact .inl rfl
  split
  · exact .inl rfl
  case h_2 h hh =>
    split
    · exact .inl rfl
    · exact .inr ⟨h, (State.presentHead_eq_some.mp hh).1, rfl⟩

end Sys2Proof.Machine
end

section
/-! PROOF. The frames: what work at a head and a request on a head leave unchanged, and that no command alters the queue. -/

namespace Sys2Proof.Machine

variable {c : Instr} {h : HeadIx} {s t : State}

/-! ## Work at a head -/

/-- Work at a head leaves what lies beyond the head. -/
theorem exec_event_keeps (hc : c.eventAt = some h) (s : State) : ∃ t, exec c s = .next t ∧ s.Keeps h t := by
  have H := State.Keeps.refl h s
  cases c <;> cases hc
  case senseSettled => exact ⟨_, rfl, State.change_keeps (State.senseSettled_keeps H)⟩
  case encPulse => exact ⟨_, rfl, State.change_keeps (State.encPulse_keeps H)⟩
  case spinPulse => exact ⟨_, rfl, State.change_keeps (State.spinPulse_keeps H)⟩
  case runRise => exact ⟨_, rfl, State.change_keeps (State.runRise_keeps H)⟩
  case runFall => exact ⟨_, rfl, State.change_keeps (State.runFall_keeps H)⟩
  case cutWaitExpiry => exact ⟨_, rfl, State.change_keeps (State.cutWaitExpiry_keeps H)⟩
  case flawRise => exact ⟨_, rfl, State.change_keeps (State.flawRiseEdge_keeps H)⟩
  case flawFall => exact ⟨_, rfl, State.change_keeps (State.flawFallEdge_keeps H)⟩
  case knotPulse => exact ⟨_, rfl, State.change_keeps (State.knotPulse_keeps H)⟩
  case rowPulse => exact ⟨_, rfl, State.change_keeps (State.rowPulse_keeps H)⟩
  case rowExpiry => exact ⟨_, rfl, State.change_keeps (State.rowExpiry_keeps H)⟩
  case storeFullNotification => exact ⟨_, rfl, State.change_keeps (State.storeFullNotification_keeps H)⟩
  case excessWatchEnd => exact ⟨_, rfl, State.updHead_keeps (fun _ => rfl) H⟩

/-- Work at a head leaves every record but those the head names and coils cut from a rope it names. -/
theorem exec_event_leaves (hc : c.eventAt = some h) (T : s.TagsOk) :
    ∃ t, exec c s = .next t ∧ s.LeavesRecords (s.names h) t := by
  have H := State.Confined.start (h := h) T
  cases c <;> cases hc
  case senseSettled => exact ⟨_, rfl, State.commit_leaves (State.senseSettled_leaves T)⟩
  case encPulse => exact ⟨_, rfl, State.commit_leaves (State.encPulse_confined H).records⟩
  case spinPulse => exact ⟨_, rfl, State.commit_leaves (State.spinPulse_confined H).records⟩
  case runRise => exact ⟨_, rfl, State.commit_leaves (State.runRise_confined H).records⟩
  case runFall => exact ⟨_, rfl, State.commit_leaves (State.runFall_leaves H)⟩
  case cutWaitExpiry => exact ⟨_, rfl, State.commit_leaves (State.cutWaitExpiry_leaves H)⟩
  case flawRise => exact ⟨_, rfl, State.commit_leaves (State.flawRiseEdge_confined H).records⟩
  case flawFall => exact ⟨_, rfl, State.commit_leaves (State.flawFallEdge_confined H).records⟩
  case knotPulse => exact ⟨_, rfl, State.commit_leaves (State.knotPulse_confined H).records⟩
  case rowPulse => exact ⟨_, rfl, State.commit_leaves (State.rowPulse_confined H).records⟩
  case rowExpiry => exact ⟨_, rfl, State.commit_leaves (State.rowExpiry_confined H).records⟩
  case storeFullNotification => exact ⟨_, rfl, State.commit_leaves (State.storeFullNotification_leaves H)⟩
  case excessWatchEnd => exact ⟨_, rfl, H.records.of_store rfl⟩

/-- Settles O59: the two frames of work at a head. -/
theorem headEventsKeepTheRest : Obligations.HeadEventsKeepTheRest :=
  ⟨fun _ _ s hc => exec_event_keeps hc s, fun _ _ _ hc S C => exec_event_leaves hc ⟨S, C⟩⟩

/-! ## Requests on a head -/

theorem State.LeavesRecords.refl (P : Nat → Prop) (s : State) : s.LeavesRecords P s := fun _ hr _ => hr

theorem State.LeavesRecords.mono {P Q : Nat → Prop} (H : s.LeavesRecords P t) (hPQ : ∀ n, P n → Q n) : s.LeavesRecords Q t :=
  fun r hr hq => H r hr fun hp => hq (hp.imp (hPQ _) fun ⟨c, hc, hp⟩ => ⟨c, hc, hPQ _ hp⟩)

theorem Head.NamesOnly.mono {P Q : Nat → Prop} {x : Head} (N : x.NamesOnly P) (hPQ : ∀ n, P n → Q n) : x.NamesOnly Q where
  product n e := hPQ n (N.product n e)
  source n e := hPQ n (N.source n e)
  slots k n e := hPQ n (N.slots k n e)
  segment g n e e' := hPQ n (N.segment g n e e')

/-- The frame of a request's answer: beyond the head, and beyond the records in `P`. -/
def State.Frames (P : Nat → Prop) (h : HeadIx) (s t : State) : Prop := s.Keeps h t ∧ s.LeavesRecords P t

theorem State.Frames.refl (P : Nat → Prop) (h : HeadIx) (s : State) : s.Frames P h s := ⟨.refl h s, .refl P s⟩

theorem State.change_frames {P : Nat → Prop} {f : State → State} (K : s.Keeps h (f s)) (L : s.LeavesRecords P (f s)) :
    s.Frames P h (s.change f) :=
  ⟨State.change_keeps K, State.commit_leaves L⟩

/-- A head and the records that a request adds to those it names begin a frame. -/
theorem State.Confined.startWith {P : Nat → Prop} (T : s.TagsOk) (hP : ∀ n, s.names h n → P n) : s.Confined P h s :=
  .refl T ((State.Confined.start T).names.mono hP)

theorem State.names_product {r : Record} (e : s.productOf h = some r) : s.names h r.tag := by
  obtain ⟨n, hn, hr⟩ := Option.bind_eq_some_iff.mp e
  exact .inl ((State.find_mem hr).2 ▸ hn)

section
variable {p : Port} {n slot tag length count rule : Nat} {m : Mark}

theorem answerBindProduct_frames (T : s.TagsOk) :
    s.Frames (fun k => s.names h k ∨ k = tag) h (answerBindProduct p h.val tag m s).1 := by
  rcases answerBindProduct_cases p h.val tag m s with e | ⟨k, r, -, hk, hr, -, -, -, -, e⟩ <;> rw [e]
  · exact .refl ..
  · cases Fin.ext hk
    exact State.change_frames (State.bindProduct_keeps (.refl h s))
      (State.bindProduct_confined (.inr (State.find_mem hr).2) (.startWith T fun _ => .inl)).records

theorem answerBindSource_frames (T : s.TagsOk) :
    s.Frames (fun k => s.names h k ∨ k = tag) h (answerBindSource p h.val tag m s).1 := by
  rcases answerBindSource_cases p h.val tag m s with e | ⟨k, r, hk, hr, -, -, -, -, e⟩ <;> rw [e]
  · exact .refl ..
  · cases Fin.ext hk
    exact State.change_frames (State.bindSource_keeps (.refl h s))
      (State.bindSource_leaves (.inr rfl) (.startWith T fun _ => .inl))

theorem answerBindFeed_frames (T : s.TagsOk) :
    s.Frames (fun k => s.names h k ∨ k = tag) h (answerBindFeed p h.val slot tag m s).1 := by
  rcases answerBindFeed_cases p h.val slot tag m s with e | ⟨k, r, b, j, q, hk, hr, -, -, -, -, -, hq, e⟩ <;> rw [e]
  · exact .refl ..
  · cases Fin.ext hk
    exact State.change_frames (State.bindFeed_keeps (.refl h s))
      (State.bindFeed_confined (.inr (State.find_mem hr).2) (.inl (State.names_product hq)) (.startWith T fun _ => .inl)).records

theorem answerUnbindFeed_frames (T : s.TagsOk) : s.Frames (s.names h) h (answerUnbindFeed p h.val slot s).1 := by
  rcases answerUnbindFeed_cases p h.val slot s with e | ⟨k, j, q, hk, -, hq, e⟩ <;> rw [e]
  · exact .refl ..
  · cases Fin.ext hk
    exact State.change_frames (State.unbindFeed_keeps (.refl h s))
      (State.unbindFeed_confined (State.names_product hq) (.start T)).records

theorem answerRelease_frames (T : s.TagsOk) : s.Frames (s.names h) h (answerRelease p h.val s).1 := by
  rcases answerRelease_cases p h.val s with e | ⟨k, hk, e⟩ <;> rw [e]
  · exact .refl ..
  · cases Fin.ext hk
    exact State.change_frames (State.releaseHead_keeps (.refl h s)) (State.releaseHead_leaves T)

theorem answerEnqueue_frames (T : s.TagsOk) : s.Frames (s.names h) h (answerEnqueue p h.val length count rule s).1 := by
  rcases answerEnqueue_cases p h.val length count rule s with e | ⟨k, o, hk, e⟩ <;> rw [e]
  · exact .refl ..
  · cases Fin.ext hk
    exact State.change_frames (State.enqueue_keeps (.refl h s)) (State.enqueue_leaves (.start T))

theorem answerClearQueue_frames (P : Nat → Prop) : s.Frames P h (answerClearQueue p h.val s).1 := by
  rcases answerClearQueue_cases p h.val s with e | ⟨k, hk, e⟩ <;> rw [e]
  · exact .refl ..
  · cases Fin.ext hk
    exact ⟨State.updHead_keeps (fun _ => rfl) (.refl h s), (State.LeavesRecords.refl P s).of_store rfl⟩

end

/-- Settles O60: the frame of each request's answer, which is then sent. -/
theorem headRequestsKeepTheRest : Obligations.HeadRequestsKeepTheRest := by
  intro c p h s body hh S C hp ⟨hbody, hcommand⟩
  have T : s.TagsOk := ⟨S, C⟩
  suffices ∃ answer : State → State × Reply, exec c s = .next (s.takeRequest p c answer) ∧
      s.Frames (fun n => s.names h n ∨ c.tagOperand = some n) h (answer s).1 by
    obtain ⟨answer, e, K, L⟩ := this
    exact ⟨_, _, e.trans (congrArg _ (State.takeRequest_eq hbody hcommand)), K, L⟩
  have named {t : State} (F : s.Frames (s.names h) h t) {P : Nat → Prop} : s.Frames (fun n => s.names h n ∨ P n) h t :=
    ⟨F.1, F.2.mono fun _ => .inl⟩
  have bound {t : State} {tag : Nat} (F : s.Frames (fun n => s.names h n ∨ n = tag) h t) :
      s.Frames (fun n => s.names h n ∨ some tag = some n) h t :=
    ⟨F.1, F.2.mono fun _ => Or.imp_right fun e => congrArg some e.symm⟩
  cases c <;> cases hh <;> cases hp
  case bindProduct => exact ⟨_, rfl, bound (answerBindProduct_frames T)⟩
  case bindSource => exact ⟨_, rfl, bound (answerBindSource_frames T)⟩
  case bindFeed => exact ⟨_, rfl, bound (answerBindFeed_frames T)⟩
  case unbindFeed => exact ⟨_, rfl, named (answerUnbindFeed_frames T)⟩
  case release => exact ⟨_, rfl, named (answerRelease_frames T)⟩
  case enqueue => exact ⟨_, rfl, named (answerEnqueue_frames T)⟩
  case clearQueue => exact ⟨_, rfl, named (answerClearQueue_frames _)⟩

end Sys2Proof.Machine
end

section
/-! PROOF. The queue (R33): a step takes its front command, and no command alters it. -/

namespace Sys2Proof.Machine

variable {c : Instr} {h : HeadIx} {s t : State}

/-! ## The queue -/

theorem State.change_pending {f : State → State} (H : (f s).pending = s.pending) : (s.change f).pending = s.pending := H

@[simp] theorem State.respond_pending (s : State) (p : Port) (b : List Byte) : (s.respond p b).pending = s.pending := by
  cases p <;> rfl

theorem State.takeRequest_pending {p : Port} {answer : State → State × Reply} (ha : (answer s).1.pending = s.pending) :
    (s.takeRequest p c answer).pending = s.pending := by
  cases hp : s.inProgress p with
  | none => rw [State.takeRequest_none hp]
  | some body =>
    by_cases hb : requestCommand p body = c
    · rw [State.takeRequest_eq hp hb, State.respond_pending, ha]
    · simp only [State.takeRequest, hp, if_neg hb]

section
variable {p : Port} {n slot tag length count rule kind lo hi : Nat} {m : Mark} {l : List Item}

theorem answerLookup_fst (tag : Nat) (s : State) : (answerLookup tag s).1 = s := by
  unfold answerLookup
  split <;> rfl

theorem answerNext_fst (a k st : Nat) (s : State) : (answerNext a k st s).1 = s := by
  unfold answerNext
  split
  · split <;> rfl
  · rfl

theorem answerReadSpans_fst (tag : Nat) (s : State) : (answerReadSpans tag s).1 = s := by
  unfold answerReadSpans
  split
  · rfl
  · split <;> rfl

/-- READ_SOURCES changes at most the counter of free values (log entry 1). -/
theorem answerReadSources_fst (tag first : Nat) (s : State) :
    (answerReadSources tag first s).1 = s ∨ (answerReadSources tag first s).1 = { s with freeCount := s.freeCount + 1 } := by
  unfold answerReadSources
  split
  · exact .inl rfl
  split
  · exact .inl rfl
  split
  · exact .inl rfl
  · exact .inr rfl

/-- HEAD_STATUS changes at most the counter of free values (log entry 1). -/
theorem answerHeadStatus_fst (n : Nat) (s : State) :
    (answerHeadStatus n s).1 = s ∨ (answerHeadStatus n s).1 = { s with freeCount := s.freeCount + 1 } := by
  unfold answerHeadStatus
  split
  · exact .inl rfl
  · exact .inr rfl

theorem answerSetHead_cases (p : Port) (n : Nat) (l : List Item) (s : State) :
    (answerSetHead p n l s).1 = s ∨ ∃ h : HeadIx, n = h.val ∧ (answerSetHead p n l s).1 = s.updHead h (Head.setHead l) := by
  unfold answerSetHead
  split
  · exact .inl rfl
  split
  · exact .inl rfl
  case h_2 h hh =>
    split
    · exact .inl rfl
    · exact .inr ⟨h, headOf_eq_some.mp hh, rfl⟩

theorem State.amend_pending (tag : Nat) (l : List Item) (s : State) : (s.amend tag l).pending = s.pending := by
  unfold State.amend
  split
  case h_1 h _ =>
    have K := State.updRec_keeps (h := h) (n := tag) (f := fun r => { r with body := l.foldl (fun b it => b.setSpec it) r.body })
      (.refl h s)
    dsimp only
    split
    · exact (State.checkEnd_keeps K).pending
    · exact K.pending
  all_goals rfl

theorem State.addSpanTo_pending (r : Record) (n : Span) (s : State) : (s.addSpanTo r n).pending = s.pending := by
  have K (h : HeadIx) := State.normalizeInto_keeps (n := r.tag) (x := n) (State.Keeps.refl h s)
  unfold State.addSpanTo
  split
  · exact (State.addRopeSpan_keeps (.refl 0 s)).pending
  · dsimp only
    split
    case h_1 h _ _ =>
      split
      · exact (K h).pending
      · exact (State.rejudgeTop_keeps (K h)).pending
    all_goals exact (K 0).pending
  all_goals exact (K 0).pending

theorem State.writeDevice_pending (n v : Nat) (s : State) : (s.writeDevice n v).pending = s.pending := by
  unfold State.writeDevice
  repeat' split
  all_goals rfl

theorem State.writeDeviceList_pending (l : List Item) (s : State) : (s.writeDeviceList l).pending = s.pending := by
  unfold State.writeDeviceList
  induction l generalizing s with
  | nil => rfl
  | cons it l ih =>
    rw [List.foldl_cons, ih]
    split
    · exact State.writeDevice_pending _ _ s
    · rfl

end

/-- A command that is no work at a head leaves the queue. -/
theorem exec_pending_of_no_event (he : c.eventAt = none) (e : exec c s = .next t) : t.pending = s.pending := by
  have K := State.Keeps.refl (0 : HeadIx) s
  cases c <;> cases he <;> cases e
  case lookup => exact State.takeRequest_pending (congrArg _ (answerLookup_fst ..))
  case nextRecord => exact State.takeRequest_pending (congrArg _ (answerNext_fst ..))
  case readSpans => exact State.takeRequest_pending (congrArg _ (answerReadSpans_fst ..))
  case readSources => exact State.takeRequest_pending ((answerReadSources_fst ..).elim (congrArg _) (congrArg State.pending))
  case headStatus => exact State.takeRequest_pending ((answerHeadStatus_fst ..).elim (congrArg _) (congrArg State.pending))
  case create p tag kind l =>
    apply State.takeRequest_pending
    rcases answerCreate_cases p tag kind l s with e | ⟨f, e⟩ | ⟨k, b, -, -, -, -, e⟩ <;> rw [e]
    · exact (State.raiseStore_keeps K).pending
    · exact State.change_pending (State.enter_keeps K).pending
  case amend p tag m l =>
    apply State.takeRequest_pending
    rcases answerAmend_cases p tag m l s with e | ⟨r, -, -, e⟩ <;> rw [e]
    exact State.change_pending (State.amend_pending tag l s)
  case addSpan p tag m lo hi kind =>
    apply State.takeRequest_pending
    rcases answerAddSpan_cases p tag m lo hi kind s with e | ⟨r, k, -, -, -, -, -, e⟩ <;> rw [e]
    exact State.change_pending (State.addSpanTo_pending r _ s)
  case conclude p tag m =>
    apply State.takeRequest_pending
    rcases answerConclude_cases p tag m s with e | ⟨r, -, -, -, e⟩ <;> rw [e]
    exact State.change_pending (State.updRec_pending ..)
  case band p tag m =>
    apply State.takeRequest_pending
    rcases answerBand_cases p tag m s with e | ⟨r, -, -, -, e⟩ <;> rw [e]
    exact State.change_pending (State.updRec_pending ..)
  case retire p tag m =>
    apply State.takeRequest_pending
    rcases answerRetire_cases p tag m s with e | ⟨r, -, -, e⟩ <;> rw [e]
    exact State.change_pending (State.leave_keeps K).pending
  case bindProduct p n tag m =>
    apply State.takeRequest_pending
    rcases answerBindProduct_cases p n tag m s with e | ⟨h, r, k, -, -, -, -, -, -, e⟩ <;> rw [e]
    exact State.change_pending (State.bindProduct_keeps (.refl h s)).pending
  case bindSource p n tag m =>
    apply State.takeRequest_pending
    rcases answerBindSource_cases p n tag m s with e | ⟨h, r, -, -, -, -, -, -, e⟩ <;> rw [e]
    exact State.change_pending (State.bindSource_keeps (.refl h s)).pending
  case bindFeed p n slot tag m =>
    apply State.takeRequest_pending
    rcases answerBindFeed_cases p n slot tag m s with e | ⟨h, r, b, k, q, -, -, -, -, -, -, -, -, e⟩ <;> rw [e]
    exact State.change_pending (State.bindFeed_keeps (.refl h s)).pending
  case unbindFeed p n slot =>
    apply State.takeRequest_pending
    rcases answerUnbindFeed_cases p n slot s with e | ⟨h, k, q, -, -, -, e⟩ <;> rw [e]
    exact State.change_pending (State.unbindFeed_keeps (.refl h s)).pending
  case release p n =>
    apply State.takeRequest_pending
    rcases answerRelease_cases p n s with e | ⟨h, -, e⟩ <;> rw [e]
    exact State.change_pending (State.releaseHead_keeps (.refl h s)).pending
  case enqueue p n length count rule =>
    apply State.takeRequest_pending
    rcases answerEnqueue_cases p n length count rule s with e | ⟨h, o, -, e⟩ <;> rw [e]
    exact State.change_pending (State.enqueue_keeps (.refl h s)).pending
  case clearQueue p n =>
    apply State.takeRequest_pending
    rcases answerClearQueue_cases p n s with e | ⟨h, -, e⟩ <;> rw [e]
    exact State.updHead_pending ..
  case setHead p n l =>
    apply State.takeRequest_pending
    rcases answerSetHead_cases p n l s with e | ⟨h, -, e⟩ <;> rw [e]
    exact State.updHead_pending ..
  case setClock p n =>
    apply State.takeRequest_pending
    cases p <;> rfl
  case readEvents p =>
    apply State.takeRequest_pending
    unfold answerReadEvents
    split
    · rfl
    · split <;> rfl
  case clearEvents p w =>
    apply State.takeRequest_pending
    cases p <;> rfl
  case setDevice p l =>
    apply State.takeRequest_pending
    unfold answerSetDevice
    split
    · rfl
    split
    · rfl
    · exact State.writeDeviceList_pending l s
  case unknownRequest => exact State.takeRequest_pending rfl
  case panelSlotEnd received =>
    unfold State.slotEnd
    split
    · dsimp only
      split <;> rfl
    · rfl
  all_goals rfl

/-- No command alters the queue. -/
theorem exec_pending (e : exec c s = .next t) : t.pending = s.pending := by
  cases he : c.eventAt with
  | some h =>
    obtain ⟨u, eu, H⟩ := exec_event_keeps he s
    rw [e] at eu
    cases eu
    exact H.pending
  | none => exact exec_pending_of_no_event he e

theorem step_of_nil (hs : s.pending = []) : step s = .next s.idle := by
  unfold step
  rw [hs]

theorem State.idle_eq (s : State) :
    s.idle = { s with link := { s.link with phase := if s.link.phase = .granting then .receiving else s.link.phase } } := by
  unfold State.idle State.updLink PanelLink.grantSent
  split <;> rfl

/-- Settles O1: a step by its definition, and the queue by the lemma over the commands. -/
theorem stepTakesFrontCommand : Obligations.StepTakesFrontCommand := by
  refine ⟨fun c q s => rfl, fun s hs => ?_, fun c s t => exec_pending⟩
  rw [step_of_nil hs, State.idle_eq]

end Sys2Proof.Machine
end

section
/-! PROOF. Reset (R32), ticks (R54, R167), the TRIM period and the outputs of a head (R58, R59), and sensing (R55). -/

namespace Sys2Proof.Machine

variable {h : HeadIx} {s t : State}

/-! ## Reset -/

@[simp] theorem State.reset_head (h : HeadIx) : State.reset.head h = Head.reset := by
  simp [State.head, State.reset]

@[simp] theorem Head.reset_slot (n : SlotIx) : Head.reset.slot n = {} := by
  simp [Head.slot, Head.reset]

theorem Head.reset_named (ro : Role) : Head.reset.named ro = none := by
  cases ro with
  | feed n => rw [Head.named, Head.reset_slot]
  | product | source | segment => rfl

theorem State.reset_find (n : Nat) : State.reset.find n = none := rfl

theorem State.reset_headsOk : State.reset.HeadsOk := fun h => State.reset_head h ▸ Head.reset_ok

theorem State.reset_bindingsOk : State.reset.BindingsOk where
  named h ro n e := by simp [Head.reset_named] at e
  bound n r h ro e := by simp [State.reset_find] at e
  tied n r e := by simp [State.reset_find] at e
  feeds h n e := by simp [Head.reset_named] at e
  coils h e := by simp [Head.reset_named] at e
  waiting h e := by simp [Head.reset_named]

theorem State.reset_coilsOk : State.reset.CoilsOk := by
  constructor <;> intro n r c e <;> simp [State.reset_find] at e

/-- Settles O2: the values by computation, the laws by the lemmas on the reset state. -/
theorem resetState : Obligations.ResetState := by
  have flags (k : Fin 66) : State.reset.attn.masks.getLsbD k.val = true ∧ State.reset.attn.routes[k.val] = .none := by
    refine ⟨?_, by simp [State.reset, Attention.reset]⟩
    exact (BitVec.getLsbD_allOnes ..).trans (decide_eq_true k.isLt)
  have causes (h : HeadIx) : State.reset.attn.causesOf h = {} := by
    simp [State.reset, Attention.reset, Attention.causesOf]
  have panels (n : PanelIx) : State.reset.link.panel n = ⟨false, 3, false, 0⟩ := by
    simp [State.reset, PanelLink.reset, PanelLink.panel]
  refine ⟨rfl, rfl, rfl, rfl, rfl, fun h => ?heads, rfl, causes, rfl, flags, rfl, rfl, rfl, rfl, rfl, rfl, rfl, rfl, rfl, rfl, rfl,
    rfl, panels, State.reset_sound.tags.store, State.reset_sound.tags.coils, State.reset_sound.records, State.reset_headsOk,
    State.reset_bindingsOk, State.reset_coilsOk⟩
  rw [State.reset_head]
  exact ⟨rfl, rfl, rfl, rfl, rfl, rfl, rfl, rfl, rfl, rfl, rfl, rfl, rfl, rfl, rfl, rfl, rfl, rfl, rfl, rfl, rfl, rfl, rfl, rfl,
    Head.reset_slot⟩

/-- Settles O3: the machine after RESET_N, field by field. -/
theorem resetNResult : Obligations.ResetNResult := by
  refine fun s => ⟨s.afterReset, rfl, rfl, rfl, rfl, rfl, rfl, rfl, rfl, rfl, fun h => ?_⟩
  rw [State.afterReset_head, State.reset_head]
  rfl

/-! ## Ticks -/

theorem State.tick_rest (pins : Vector SensePins 16) (s : State) : (s.tick pins).pending = s.pending ∧
    (s.tick pins).store = s.store ∧ (s.tick pins).attn = s.attn ∧ (s.tick pins).coilPrefix = s.coilPrefix ∧
    (s.tick pins).coilSerial = s.coilSerial ∧ (s.tick pins).line = s.line ∧ (s.tick pins).freeCount = s.freeCount := by
  simp [State.tick]

/-- Settles O4: the clock by its two cases, each head by `Head.tick`, and the line-enable in CALLING once the link is not quiet. -/
theorem tickResult : Obligations.TickResult := by
  refine fun pins s => ⟨s.tick pins, rfl, ?clock, fun h => ?heads, rfl, fun hc => ?enable, State.tick_rest pins s⟩
  case clock =>
    rw [State.tick_clock]
    split
    case isTrue hlt => exact Clock.tick_of_lt (Nat.add_lt_add_right hlt 1)
    case isFalse hge => exact Clock.tick_of_le (Nat.add_le_add_right (Nat.le_of_not_lt hge) 1)
  case heads =>
    rw [State.tick_head, Head.tick]
    by_cases hp : pins[h.val] = (s.head h).candidate <;> simp [Head.sample, settleTop, hp]
  case enable =>
    simp [State.tick, PanelLink.lineEnable, hc]

/-! ## The TRIM period and the outputs -/

theorem HoldSet.isEmpty_iff (x : HoldSet) : x.isEmpty = true ↔ x = {} := by
  obtain ⟨a, b, c⟩ := x
  cases a <;> cases b <;> cases c <;> decide

theorem Head.laysLength_iff (x : Head) : x.laysLength = true ↔ x.kind = some .strander ∨ x.kind = some .closer := by
  simp [Head.laysLength]

theorem Head.carriesTrim_iff (x : Head) : x.carriesTrim = true ↔ x.laysLength = true ∧ x.state ≠ .empty ∧ x.state ≠ .idle := by
  simp [Head.carriesTrim]

/-- OUT0 of a head that carries the waveform is active for the first steps of the period, duty many of them (R59). -/
theorem Head.out0_of_carries {x : Head} (hx : x.carriesTrim = true) (i : Nat) :
    (x.settings.polarity = .normal → x.out0 i = decide (i < x.duty)) ∧
      (x.settings.polarity = .inverted → x.out0 i = decide (x.duty ≤ i)) := by
  constructor <;> intro hp
  · simp [Head.out0, hx, hp]
  · simp [Head.out0, hx, hp, ← decide_not]

theorem Head.out0_of_not_carries {x : Head} (hx : x.carriesTrim = false) (i : Nat) :
    x.out0 i = decide (x.settings.polarity = .inverted) := by
  simp [Head.out0, hx]

theorem State.trimPeriod_rest (s : State) : s.trimPeriod.pending = s.pending ∧ s.trimPeriod.store = s.store ∧
    s.trimPeriod.clock = s.clock ∧ s.trimPeriod.attn = s.attn ∧ s.trimPeriod.coilPrefix = s.coilPrefix ∧
    s.trimPeriod.coilSerial = s.coilSerial ∧ s.trimPeriod.line = s.line ∧ s.trimPeriod.link = s.link ∧
    s.trimPeriod.freeCount = s.freeCount := by
  simp [State.trimPeriod]

/-- Settles O5: the duty of each head, and the outputs by their definitions. -/
theorem trimPeriodResult : Obligations.TrimPeriodResult := by
  refine ⟨fun s => ?period, fun x => ⟨?cut, ?hold, fun hk => ?mark, fun hs hc => ?low, fun i hk => ?inactive⟩⟩
  case period =>
    obtain ⟨h1, h2, h3, h4, h5, h6, h7, h8, h9⟩ := State.trimPeriod_rest s
    refine ⟨s.trimPeriod, rfl, State.trimPeriod_head s, h1, h2, h3, h4, h5, h6, h7, h8, h9, fun h i hl he hi => ?_⟩
    rw [State.trimPeriod_head]
    exact Head.out0_of_carries (x := { s.head h with duty := (s.head h).trim }) ((Head.carriesTrim_iff _).mpr ⟨hl, he, hi⟩) i
  case cut => exact decide_eq_true_iff
  case hold => rw [Head.hold, Bool.not_eq_true', ← Bool.not_eq_true, HoldSet.isEmpty_iff]
  case mark => rw [Head.out2, (Head.laysLength_iff x).mpr hk, Bool.true_and]
  case low => simp [Head.out2, Head.laysLength, hs, hc]
  case inactive =>
    refine Head.out0_of_not_carries (Bool.eq_false_iff.mpr fun hx => ?_) i
    obtain ⟨hl, he, hi⟩ := (Head.carriesTrim_iff x).mp hx
    have hl := (Head.laysLength_iff x).mp hl
    tauto

/-! ## Sensing -/

theorem exec_senseSettled (h : HeadIx) (s : State) : exec (.senseSettled h) s = .next (s.change (State.senseSettled h)) := rfl

/-- What a disconnect leaves in its head (R74 to R76). -/
theorem State.disconnect_head (h : HeadIx) (s : State) : (s.disconnect h).head h =
    { ((s.settleRecords h Record.interrupt).head h).free .empty with queue := [] } := by
  rw [State.disconnect, State.updHead_head]

/-- A combination that is accepted: a connected machine is disconnected, and the result's state is entered (R55). -/
theorem State.senseSettled_of_new (hs : (s.head h).settle = 64) (hn : senseResult (s.head h).candidate ≠ (s.head h).accepted) :
    s.senseSettled h = ((if (s.head h).kind.isSome then s.disconnect h else s).updHead h fun x =>
      { x with
        accepted := senseResult (s.head h).candidate
        state := (senseResult (s.head h).candidate).state }).raise h .sense := by
  simp only [State.senseSettled, settleTop, hs, Nat.le_refl, true_and, if_pos hn]

/-- Settles O6: the table of the pins by cases, and the accepting head by the disconnect and what follows it. -/
theorem senseSettledResult : Obligations.SenseSettledResult := by
  refine ⟨fun _ _ => ⟨rfl, rfl, rfl⟩, rfl, rfl, rfl, rfl, fun h s hs hn => ?_⟩
  refine ⟨_, exec_senseSettled h s, ?_⟩
  simp only [State.change, State.commit_head]
  rw [State.senseSettled_of_new hs hn]
  refine ⟨by simp, ?_, State.raise_flagged _ h .sense, fun hk => ?_⟩
  · rw [State.raise_head, State.updHead_head]
    rfl
  rw [State.raise_head, State.updHead_head, if_pos hk, State.disconnect_head]
  refine ⟨rfl, rfl, rfl, rfl, rfl, rfl, fun n => ?_⟩
  simp [Head.free, Head.slot]

end Sys2Proof.Machine
end

section
/-! PROOF. The answers to requests: a request in progress is answered by its own answer function, the requests that read, the
port answers, and the order of the refusals of a request on a record. -/

namespace Sys2Proof.Machine

/-! ## A request in progress is answered -/

/-- The answer function of each request; of a command that is no request it says nothing (`exec_of_asks`). -/
def answerOf : Instr → State → State × Reply
  | .lookup _ tag => answerLookup tag
  | .nextRecord _ after kind state => answerNext after kind state
  | .readSpans _ tag => answerReadSpans tag
  | .readSources _ tag first => answerReadSources tag first
  | .create p tag kind l => answerCreate p tag kind l
  | .amend p tag m l => answerAmend p tag m l
  | .addSpan p tag m lo hi k => answerAddSpan p tag m lo hi k
  | .conclude p tag m => answerConclude p tag m
  | .band p tag m => answerBand p tag m
  | .retire p tag m => answerRetire p tag m
  | .bindProduct p n tag m => answerBindProduct p n tag m
  | .bindSource p n tag m => answerBindSource p n tag m
  | .bindFeed p n slot tag m => answerBindFeed p n slot tag m
  | .unbindFeed p n slot => answerUnbindFeed p n slot
  | .release p n => answerRelease p n
  | .enqueue p n length count rule => answerEnqueue p n length count rule
  | .clearQueue p n => answerClearQueue p n
  | .headStatus _ n => answerHeadStatus n
  | .setHead p n l => answerSetHead p n l
  | .setClock p v => answerSetClock p v
  | .readEvents p => answerReadEvents p
  | .clearEvents p w => answerClearEvents p w
  | .setDevice p l => answerSetDevice p l
  | .unknownRequest _ _ => fun s => s.refuse .badField
  | _ => fun s => s.refuse .badField

variable {c : Instr} {p : Port} {n tag : Nat} {m : Mark} {s t : State} {body : List Byte} {r : Record}

theorem exec_request (hc : requestPort c = some p) : exec c s = .next (s.takeRequest p c (answerOf c)) := by
  cases c <;> cases hc <;> rfl

theorem exec_of_asks (a : s.Asks p c body) (hc : requestPort c = some p) : exec c s =
    .next ((answerOf c s).1.respond p (body.headD 0 :: (answerOf c s).2.code.code :: (answerOf c s).2.fields)) := by
  obtain ⟨hbody, hcommand⟩ := a
  rw [exec_request hc, State.takeRequest_eq hbody hcommand]

/-- What a request is answered, once its answer function is known. -/
theorem exec_answer {x : Reply} (a : s.Asks p c body) (hc : requestPort c = some p) (e : answerOf c s = (t, x)) :
    exec c s = .next (t.respond p (body.headD 0 :: x.code.code :: x.fields)) := by
  rw [exec_of_asks a hc, e]

/-- A refused request leaves everything but its port. -/
theorem exec_refused {x : Completion} (a : s.Asks p c body) (hc : requestPort c = some p) (e : answerOf c s = s.refuse x) :
    exec c s = .next (s.respond p [body.headD 0, x.code]) :=
  exec_answer a hc e

/-! ## The requests that read -/

theorem answerLookup_of_find (e : s.find tag = some r) : answerLookup tag s = (s, Reply.done r.summary) := by
  simp only [answerLookup, e]

theorem answerLookup_of_absent (e : s.find tag = none) : answerLookup tag s = s.refuse .notFound := by
  simp only [answerLookup, e]

/-- Tag 0 is that of no record (R3). -/
theorem State.StoreOk.find_zero (S : s.StoreOk) : s.find 0 = none := by
  cases e : s.find 0 with
  | none => rfl
  | some r =>
    obtain ⟨hmem, htag⟩ := State.find_mem e
    have := (S.tags r hmem).1
    omega

/-- A filter that names a value, or none, passes what it names. -/
theorem filterOf_isSome {α : Type} {decode : Nat → Option α} (h : n = 0 ∨ (decode n).isSome = true) :
    ∃ k, filterOf decode n = some k ∧ ∀ x, (∀ y, k = some y → x = y) ↔ n = 0 ∨ decode n = some x := by
  by_cases hn : n = 0
  · exact ⟨none, if_pos hn, by simp [hn]⟩
  · obtain ⟨y, hy⟩ := Option.isSome_iff_exists.mp (h.resolve_left hn)
    refine ⟨some y, by simp [filterOf, hn, hy], fun x => ?_⟩
    simp [hn, hy, eq_comm]

theorem filterOf_eq_none {α : Type} {decode : Nat → Option α} (hn : n ≠ 0) (h : decode n = none) :
    filterOf decode n = none := by
  simp [filterOf, hn, h]

theorem Record.passes_iff {after : Nat} {k : Option RecordKind} {st : Option RecordState} : r.passes after k st = true ↔
    after < r.tag ∧ (∀ x, k = some x → r.kind = x) ∧ ∀ x, st = some x → r.state = x := by
  cases k <;> cases st <;> simp [Record.passes, and_assoc]

/-- In a store in order the first record that passes is the one of the smallest tag (R6). -/
theorem Ascending.find_least {l : List Record} {q : Record → Bool} (a : Ascending l) (hr : r ∈ l) (hq : q r = true)
    (hl : ∀ x ∈ l, q x = true → r.tag ≤ x.tag) : l.find? q = some r := by
  induction l with
  | nil => cases hr
  | cons x xs ih =>
    obtain ⟨hx, hxs⟩ := List.pairwise_cons.mp a
    rcases List.mem_cons.mp hr with rfl | hr
    · exact List.find?_cons_of_pos hq
    · have hnot : ¬q x = true := fun hqx => absurd (hx r hr) (by have := hl x List.mem_cons_self hqx; omega)
      rw [List.find?_cons_of_neg hnot]
      exact ih hxs hr fun y hy => hl y (List.mem_cons_of_mem _ hy)

theorem answerNext_of_find {after kind state : Nat} {k : Option RecordKind} {st : Option RecordState}
    (hk : filterOf recordKindOf kind = some k) (hst : filterOf recordStateOf state = some st)
    (e : s.store.find? (Record.passes after k st) = some r) : answerNext after kind state s = (s, Reply.done r.summary) := by
  simp only [answerNext, hk, hst, e]

theorem answerNext_of_none {after kind state : Nat} {k : Option RecordKind} {st : Option RecordState}
    (hk : filterOf recordKindOf kind = some k) (hst : filterOf recordStateOf state = some st)
    (e : s.store.find? (Record.passes after k st) = none) : answerNext after kind state s = s.refuse .notFound := by
  simp only [answerNext, hk, hst, e]

theorem answerNext_badField {after kind state : Nat}
    (h : (kind ≠ 0 ∧ recordKindOf kind = none) ∨ (state ≠ 0 ∧ recordStateOf state = none)) :
    answerNext after kind state s = s.refuse .badField := by
  unfold answerNext
  rcases h with ⟨h0, h⟩ | ⟨h0, h⟩
  · rw [filterOf_eq_none h0 h]
  · rw [filterOf_eq_none h0 h]
    cases filterOf recordKindOf kind <;> rfl

/-- Settles O25: LOOKUP reads the record its tag names; NEXT finds the first record that passes, which is the smallest. -/
theorem lookupAndNextAnswer : Obligations.LookupAndNextAnswer := by
  unfold Obligations.LookupAndNextAnswer
  refine ⟨fun p tag s body a => ⟨fun r e => exec_answer a rfl (answerLookup_of_find e),
    fun e => exec_refused a rfl (answerLookup_of_absent e), State.StoreOk.find_zero⟩, ?_⟩
  intro p after kind state s body S a
  refine ⟨fun h => exec_refused a rfl (answerNext_badField h), fun hkind hstate => ?_⟩
  obtain ⟨k, hk, kPasses⟩ := filterOf_isSome hkind
  obtain ⟨st, hst, stPasses⟩ := filterOf_isSome hstate
  have passes : ∀ r : Record, r.passes after k st = true ↔ after < r.tag ∧ (kind = 0 ∨ recordKindOf kind = some r.kind) ∧
      (state = 0 ∨ recordStateOf state = some r.state) := fun r => by rw [Record.passes_iff, kPasses, stPasses]
  constructor
  · intro none
    exact exec_refused a rfl
      (answerNext_of_none hk hst (List.find?_eq_none.mpr fun r hr e => none r hr ((passes r).mp e)))
  · intro r hr hpass hleast
    exact exec_answer a rfl (answerNext_of_find hk hst
      (S.ascending.find_least hr ((passes r).mpr hpass) fun x hx e => hleast x hx ((passes x).mp e)))

theorem answerReadSpans_of_piece {q : Piece} (e : s.find tag = some r) (hq : r.body.piece = some q) :
    answerReadSpans tag s = (s, Reply.done (r.mark :: q.report)) := by
  simp only [answerReadSpans, e, hq]

theorem Record.piece_of_coil (h : r.kind = .coil) : r.body.piece = none := by
  cases e : r.body <;> simp_all [Record.kind, Body.kind, Body.piece]

theorem answerReadSpans_of_coil (e : s.find tag = some r) (h : r.kind = .coil) :
    answerReadSpans tag s = s.refuse .wrongKind := by
  simp only [answerReadSpans, e, Record.piece_of_coil h]

theorem RecordKind.hasSources_iff {k : RecordKind} : k.hasSources = true ↔ k = .rope ∨ k = .panel := by
  cases k <;> decide

theorem answerReadSources_of_le {first : Nat} (e : s.find tag = some r) (hk : r.kind = .rope ∨ r.kind = .panel)
    (hf : first ≤ 15) : answerReadSources tag first s =
      ({ s with freeCount := s.freeCount + 1 }, Reply.done (r.mark :: sourcesReport s.freeCount first r.body.sources)) := by
  simp [answerReadSources, e, RecordKind.hasSources_iff.mpr hk, Nat.not_lt.mpr hf]

theorem answerReadSources_badField {first : Nat} (e : s.find tag = some r) (hk : r.kind = .rope ∨ r.kind = .panel)
    (hf : 15 < first) : answerReadSources tag first s = s.refuse .badField := by
  simp [answerReadSources, e, RecordKind.hasSources_iff.mpr hk, hf]

theorem answerReadSources_wrongKind {first : Nat} (e : s.find tag = some r) (hk : r.kind = .strand ∨ r.kind = .coil) :
    answerReadSources tag first s = s.refuse .wrongKind := by
  rcases hk with hk | hk <;> simp [answerReadSources, e, hk, RecordKind.hasSources]

theorem answer_readList_of_absent {first : Nat} (e : s.find tag = none) :
    answerReadSpans tag s = s.refuse .notFound ∧ answerReadSources tag first s = s.refuse .notFound := by
  simp only [answerReadSpans, answerReadSources, e, and_self]

theorem Piece.report_eq (q : Piece) : q.report = beBytes 4 q.made ++ [byte (if q.pending.isSome then 1 else 0),
    byte q.spans.length] ++ q.spans.flatMap Span.entry := by
  simp only [Piece.report, bit, Nat.pow_zero]

/-- Settles O26: the two lists, each from the record that its tag names. -/
theorem readListsAnswer : Obligations.ReadListsAnswer := by
  unfold Obligations.ReadListsAnswer
  refine ⟨?_, ?_, ?_⟩
  · rintro c p tag s body a (rfl | ⟨first, rfl⟩) e
    · exact exec_refused a rfl (answer_readList_of_absent (first := 0) e).1
    · exact exec_refused a rfl (answer_readList_of_absent e).2
  · intro p tag s body r a e
    refine ⟨fun q hq => ?_, fun hk => exec_refused a rfl (answerReadSpans_of_coil e hk)⟩
    rw [← Piece.report_eq]
    exact exec_answer a rfl (answerReadSpans_of_piece e hq)
  · intro p tag first s body r a e
    exact ⟨fun hk hf => exec_answer a rfl (answerReadSources_of_le e hk hf),
      fun hk hf => exec_refused a rfl (answerReadSources_badField e hk hf),
      fun hk => exec_refused a rfl (answerReadSources_wrongKind e hk)⟩

theorem answerHeadStatus_val (h : HeadIx) : answerHeadStatus h.val s =
    ({ s with freeCount := s.freeCount + 1 }, Reply.done ((s.head h).report s.freeCount (s.attn.causesOf h))) := by
  simp only [answerHeadStatus, headOf_val]

theorem answerHeadStatus_of_le (hn : 15 < n) : answerHeadStatus n s = s.refuse .noHead := by
  simp only [answerHeadStatus, headOf_of_le hn]

/-- Settles O27: the report of the head that the index names. -/
theorem headStatusAnswer : Obligations.HeadStatusAnswer := by
  unfold Obligations.HeadStatusAnswer
  intro p n s body a
  exact ⟨fun h hn => by subst hn; exact exec_answer a rfl (answerHeadStatus_val h),
    fun hn => exec_refused a rfl (answerHeadStatus_of_le hn)⟩

/-! ## Port permission and the port -/

theorem State.takeRequest_of_none {f : State → State × Reply} (h : s.inProgress p = none) : s.takeRequest p c f = s := by
  simp only [State.takeRequest, h]

/-- What only the line computer may ask is refused to a panel before any other check (R35, R65). -/
theorem answerOf_lineOnly (h : c.lineOnly = true) (hc : requestPort c = some .floorPanel) : answerOf c s = s.refuse .denied := by
  cases c <;> cases hc <;> cases h <;> rfl

theorem answer_outsideMask {lo hi k : Nat} (h : s.mayTouch p tag = false) :
    answerAddSpan p tag m lo hi k s = s.refuse .denied ∧ answerBand p tag m s = s.refuse .denied := by
  simp [answerAddSpan, answerBand, h]

theorem answerRelease_outsideMask (h : s.mayRelease p n = false) : answerRelease p n s = s.refuse .denied := by
  simp [answerRelease, h]

theorem PanelLink.lineEnable_of_unread {l : PanelLink} (h : l.unread.isSome = true) : l.lineEnable = true := by
  simp [PanelLink.lineEnable, h]

/-- Settles O49: what a response does to its port, and the refusals that come before every other check. -/
theorem portAnswers : Obligations.PortAnswers := by
  unfold Obligations.PortAnswers
  refine ⟨fun p code s body a => exec_refused a rfl rfl, fun s b => rfl, ?_, fun s b => PanelLink.lineEnable_of_unread rfl, ?_, ?_⟩
  · intro s b n hn
    simp only [State.respond, hn, panelFrame, panelAddress, crcBytes, List.cons_append, List.nil_append]
  · intro c p s hc h
    rw [exec_request hc, State.takeRequest_of_none h]
  · rintro c s body a hc (h | ⟨tag, m, lo, hi, k, rfl, h⟩ | ⟨tag, m, rfl, h⟩ | ⟨n, rfl, h⟩)
    · exact exec_refused a hc (answerOf_lineOnly h hc)
    · exact exec_refused a hc (answer_outsideMask h).1
    · exact exec_refused a hc (answer_outsideMask (lo := 0) (hi := 0) (k := 0) h).2
    · exact exec_refused a hc (answerRelease_outsideMask h)

end Sys2Proof.Machine
end

section
/-! PROOF. The refusals of a request on a record, in their order, and CONCLUDE and BAND. -/

namespace Sys2Proof.Machine

variable {c : Instr} {p : Port} {n tag : Nat} {m : Mark} {s : State} {body : List Byte} {r : Record}

/-! ## The order of the checks -/

theorem State.mayTouch_line (s : State) (tag : Nat) : s.mayTouch .lineComputer tag = true := rfl

theorem RecordState.takesSpans_iff {st : RecordState} :
    st.takesSpans = true ↔ st = .making ∨ st = .interrupted ∨ st = .made ∨ st = .inUse := by
  cases st <;> decide

theorem RecordState.retirable_iff {st : RecordState} :
    st.retirable = true ↔ st = .draft ∨ st = .interrupted ∨ st = .made ∨ st = .spent ∨ st = .banded := by
  cases st <;> decide

/-- A request on a record that its port may make. -/
def Permitted (c : Instr) (p : Port) (tag : Nat) (s : State) : Prop :=
  p = .lineComputer ∨ c.lineOnly = false ∧ s.mayTouch p tag = true

theorem Permitted.line (h : Permitted c p tag s) (hc : c.lineOnly = true) : p = .lineComputer := by
  simpa [Permitted, hc] using h

theorem Permitted.mayTouch (h : Permitted c p tag s) : s.mayTouch p tag = true := by
  rcases h with rfl | h
  · exact State.mayTouch_line s tag
  · exact h.2

theorem answerOf_notFound (hc : requestPort c = some p) (ho : c.recordOperand = some (tag, m)) (hp : Permitted c p tag s)
    (e : s.find tag = none) : answerOf c s = s.refuse .notFound := by
  cases c <;> cases ho <;> cases hc
  case amend => cases hp.line rfl; simp [answerOf, answerAmend, e, fromLine]
  case addSpan => simp [answerOf, answerAddSpan, e, hp.mayTouch]
  case conclude => cases hp.line rfl; simp [answerOf, answerConclude, e, fromLine]
  case band => simp [answerOf, answerBand, e, hp.mayTouch]
  case retire => cases hp.line rfl; simp [answerOf, answerRetire, e, fromLine]

theorem answerOf_wrongKind (hc : requestPort c = some p) (ho : c.recordOperand = some (tag, m)) (hp : Permitted c p tag s)
    (e : s.find tag = some r) (hk : actsOnKind c r.kind = false) : answerOf c s = s.refuse .wrongKind := by
  cases c <;> cases ho <;> cases hc <;> simp only [actsOnKind, decide_eq_false_iff_not, reduceCtorEq, not_not] at hk
  case amend => cases hp.line rfl; simp [answerOf, answerAmend, e, fromLine, hk]
  case addSpan => simp [answerOf, answerAddSpan, e, hp.mayTouch, hk]
  case conclude => cases hp.line rfl; simp [answerOf, answerConclude, e, fromLine, hk]
  case band => simp [answerOf, answerBand, e, hp.mayTouch, hk]

theorem answerOf_wrongState (hc : requestPort c = some p) (ho : c.recordOperand = some (tag, m)) (hp : Permitted c p tag s)
    (e : s.find tag = some r) (hk : actsOnKind c r.kind = true) (hst : actsInState c r.kind r.state = false) :
    answerOf c s = s.refuse .wrongState := by
  cases c <;> cases ho <;> cases hc <;> simp only [actsOnKind, decide_eq_true_eq] at hk
  case amend => cases hp.line rfl; simp_all [answerOf, answerAmend, fromLine, actsInState]
  case addSpan =>
    rw [actsInState, decide_eq_false_iff_not, ← RecordState.takesSpans_iff] at hst
    simp [answerOf, answerAddSpan, e, hp.mayTouch, hk, hst]
  case conclude => cases hp.line rfl; simp_all [answerOf, answerConclude, fromLine, actsInState]
  case band => simp_all [answerOf, answerBand, hp.mayTouch, actsInState]
  case retire =>
    cases hp.line rfl
    rw [actsInState, decide_eq_false_iff_not, ← RecordState.retirable_iff] at hst
    simp [answerOf, answerRetire, e, fromLine, hst]

theorem answerOf_stale (hc : requestPort c = some p) (ho : c.recordOperand = some (tag, m)) (hp : Permitted c p tag s)
    (e : s.find tag = some r) (hk : actsOnKind c r.kind = true) (hst : actsInState c r.kind r.state = true) (hm : m ≠ r.mark) :
    answerOf c s = (s, Reply.stale r.mark) := by
  cases c <;> cases ho <;> cases hc <;> simp only [actsOnKind, decide_eq_true_eq] at hk
  case amend => cases hp.line rfl; simp_all [answerOf, answerAmend, fromLine, actsInState]
  case addSpan =>
    rw [actsInState, decide_eq_true_iff, ← RecordState.takesSpans_iff] at hst
    simp [answerOf, answerAddSpan, e, hp.mayTouch, hk, hst, hm]
  case conclude => cases hp.line rfl; simp_all [answerOf, answerConclude, fromLine, actsInState]
  case band => simp_all [answerOf, answerBand, hp.mayTouch, actsInState]
  case retire =>
    cases hp.line rfl
    rw [actsInState, decide_eq_true_iff, ← RecordState.retirable_iff] at hst
    simp [answerOf, answerRetire, e, fromLine, hst, hm]

/-- Settles O28: the checks of the five requests, in the order of R35. -/
theorem recordRefusals : Obligations.RecordRefusals := by
  unfold Obligations.RecordRefusals
  intro c p tag m s body a hc ho hp
  refine ⟨fun e => exec_refused a hc (answerOf_notFound hc ho hp e), fun r e => ⟨fun hk => ?_, fun hk hst => ?_, fun hk hst hm => ?_⟩⟩
  · exact exec_refused a hc (answerOf_wrongKind hc ho hp e hk)
  · exact exec_refused a hc (answerOf_wrongState hc ho hp e hk hst)
  · exact exec_answer a hc (answerOf_stale hc ho hp e hk hst hm)

/-! ## CONCLUDE and BAND -/

/-- A whole change of one record: its mark steps by what the change altered in it. -/
theorem State.change_updRec {f : Record → Record} (S : s.StoreOk) (hf : ∀ r, (f r).tag = r.tag) :
    s.change (State.updRec · n f) = s.updRec n fun r => Record.stepMark s.clock.seconds r (f r) := by
  refine State.ext_fields rfl ?_ rfl rfl rfl rfl rfl rfl rfl rfl
  simp only [State.change, State.commit, State.updRec_store, State.updRec_clock, List.map_map]
  refine List.map_congr_left fun x hx => ?_
  by_cases hn : x.tag = n
  · subst hn
    simp only [Function.comp_apply, if_true, hf, S.find_of_mem hx]
  · simp only [Function.comp_apply, hn, if_false, S.find_of_mem hx, Record.stepMark_same rfl]

theorem State.updRec_congr {f g : Record → Record} (S : s.StoreOk) (e : s.find n = some r) (h : f r = g r) :
    s.updRec n f = s.updRec n g := by
  refine State.ext_fields rfl ?_ rfl rfl rfl rfl rfl rfl rfl rfl
  refine List.map_congr_left fun x hx => ?_
  by_cases hn : x.tag = n
  · have hx : x = r := by
      have := S.find_of_mem hx
      rw [hn, e] at this
      exact (Option.some.inj this).symm
    simp only [hx, h]
  · simp only [hn, if_false]

theorem State.markOf_updRec {f : Record → Record} (e : s.find n = some r) (hf : ∀ r, (f r).tag = r.tag) :
    (s.updRec n f).markOf n = (f r).mark := by
  simp only [State.markOf, State.find_updRec hf, e, Option.map_some, Option.getD_some]

/-- A change that alters, of one record, what the mark counts. -/
theorem State.doneMark_updRec {f g : Record → Record} (S : s.StoreOk) (hf : ∀ r, (f r).tag = r.tag)
    (hg : ∀ r, (g r).tag = r.tag) (e : s.find n = some r) (h : r.counted ≠ (f r).counted)
    (hfg : { f r with mark := r.mark + 1, changed := s.clock.seconds } = g r) (hmark : (g r).mark = r.mark + 1) :
    s.doneMark n (State.updRec · n f) = (s.updRec n g, Reply.done [r.mark + 1]) := by
  have hsame : s.change (State.updRec · n f) = s.updRec n g :=
    (State.change_updRec S hf).trans (State.updRec_congr S e ((Record.stepMark_step h).trans hfg))
  rw [State.doneMark, hsame, State.markOf_updRec e hg, hmark]

theorem Record.counted_of_state {a b : Record} (h : a.state ≠ b.state) : a.counted ≠ b.counted :=
  fun e => h (congrArg Counted.state e)

theorem answerConclude_interrupted (S : s.StoreOk) (e : s.find tag = some r) (hk : r.kind ≠ .coil) (hst : r.state = .interrupted)
    (hm : m = r.mark) : answerConclude .lineComputer tag m s = (s.updRec tag fun x =>
      { x with state := .made, mark := x.mark + 1, changed := s.clock.seconds }, Reply.done [r.mark + 1]) := by
  have hchange := State.doneMark_updRec (f := fun x => { x with state := .made }) (g := fun x =>
    { x with state := .made, mark := x.mark + 1, changed := s.clock.seconds }) S (fun _ => rfl) (fun _ => rfl) e
    (Record.counted_of_state (by simp [hst])) rfl rfl
  simp only [answerConclude, e, hk, hst, hm, fromLine, Bool.not_true, if_false, Bool.false_eq_true, ne_eq, not_true_eq_false, hchange]

theorem answerBand_wound {c : CoilBody} (S : s.StoreOk) (hp : s.mayTouch p tag = true) (e : s.find tag = some r)
    (hb : r.body = .coil c) (hst : r.state = .wound) (hm : m = r.mark) : answerBand p tag m s = (s.updRec tag fun x =>
      { x with
        state := .banded
        mark := x.mark + 1
        changed := s.clock.seconds
        body := .coil { c with bandTime := some s.clock.seconds } }, Reply.done [r.mark + 1]) := by
  have hchange := State.doneMark_updRec (f := fun x =>
      { x.onCoil fun c => { c with bandTime := some s.clock.seconds } with state := .banded }) (g := fun x =>
    { x with
      state := .banded
      mark := x.mark + 1
      changed := s.clock.seconds
      body := .coil { c with bandTime := some s.clock.seconds } }) S (by simp) (fun _ => rfl) e
    (Record.counted_of_state (by simp [hst])) (by simp [Record.onCoil, hb]) rfl
  have hk : r.kind = .coil := by rw [Record.kind, hb]; rfl
  simp only [answerBand, e, hp, hk, hst, hm, Bool.not_true, if_false, Bool.false_eq_true, ne_eq, not_true_eq_false]
  exact hchange

/-- Settles O32: each of the two changes alters one record, and steps its mark. -/
theorem concludeAndBandResult : Obligations.ConcludeAndBandResult := by
  unfold Obligations.ConcludeAndBandResult
  exact ⟨fun tag m s body r S a e hk hst hm => exec_answer a rfl (answerConclude_interrupted S e hk hst hm),
    fun p tag m s body r c S a hp e hb hst hm => exec_answer a rfl (answerBand_wound S hp e hb hst hm)⟩

/-! ## The mark -/

theorem State.change_find {f : State → State} {x : Record} (e : s.find n = some r) (ex : (f s).find n = some x) :
    (s.change f).find n = some (Record.stepMark (f s).clock.seconds r x) := by
  simp only [State.change, State.commit_find, ex, e, Option.map_some]

/-- Settles O34: the mark steps by one exactly where a change altered what it counts. -/
theorem markSteps : Obligations.MarkSteps := by
  unfold Obligations.MarkSteps
  intro f s r x S Sf e ex
  rw [State.change_find e ex]
  exact ⟨fun h => by rw [Record.stepMark_same h.symm], fun h => by rw [Record.stepMark_step (Ne.symm h)]⟩

end Sys2Proof.Machine
end

section
/-! PROOF. A record that leaves the store, and RETIRE. -/

namespace Sys2Proof.Machine

variable {p : Port} {n k tag : Nat} {m : Mark} {s t : State} {body : List Byte} {r : Record}

/-! ## Whole changes -/

@[simp] theorem State.change_head (f : State → State) (s : State) (h : HeadIx) : (s.change f).head h = (f s).head h := rfl
@[simp] theorem State.change_heads (f : State → State) (s : State) : (s.change f).heads = (f s).heads := rfl
@[simp] theorem State.change_clock (f : State → State) (s : State) : (s.change f).clock = (f s).clock := rfl
@[simp] theorem State.change_attn (f : State → State) (s : State) : (s.change f).attn = (f s).attn := rfl
@[simp] theorem State.change_coilPrefix (f : State → State) (s : State) : (s.change f).coilPrefix = (f s).coilPrefix := rfl
@[simp] theorem State.change_coilSerial (f : State → State) (s : State) : (s.change f).coilSerial = (f s).coilSerial := rfl
@[simp] theorem State.change_line (f : State → State) (s : State) : (s.change f).line = (f s).line := rfl
@[simp] theorem State.change_link (f : State → State) (s : State) : (s.change f).link = (f s).link := rfl

theorem State.change_store_length (f : State → State) (s : State) : (s.change f).store.length = (f s).store.length :=
  List.length_map ..

/-- A change leaves the mark of a record that it leaves as it counts. -/
theorem State.change_find_same {f : State → State} {x : Record} (e : s.find n = some r) (ex : (f s).find n = some x)
    (h : r.counted = x.counted) : (s.change f).find n = some x := by
  rw [State.change_find e ex, Record.stepMark_same h]

/-- A record that a change brings into the store, or takes out of it, is as the change left it. -/
theorem State.change_find_new {f : State → State} (e : s.find n = none ∨ (f s).find n = none) :
    (s.change f).find n = (f s).find n := by
  simp only [State.change, State.commit_find]
  rcases e with e | e <;> rw [e]
  · cases (f s).find n <;> rfl
  · rfl

theorem State.change_find_absent {f : State → State} (e : (f s).find n = none) : (s.change f).find n = none :=
  (State.change_find_new (.inr e)).trans e

/-! ## Leaving the store -/

/-- A record of the store as the leaving of record `r` leaves it: a ROPE's coils stop belonging to it (R5). -/
def Record.afterLeaving (r x : Record) : Record := if r.kind = .rope then x.onCoil (CoilBody.disown r.tag) else x

@[simp] theorem Record.afterLeaving_tag (r x : Record) : (r.afterLeaving x).tag = x.tag := by
  unfold Record.afterLeaving
  split <;> simp

theorem Record.afterLeaving_counted (r x : Record) : (r.afterLeaving x).counted = x.counted := by
  unfold Record.afterLeaving
  split
  case isFalse => rfl
  case isTrue =>
    cases e : x.body <;> simp only [Record.onCoil, e]
    case coil c =>
      unfold CoilBody.disown
      split <;> simp [Record.counted, Record.spans, Body.spec, Body.piece, Body.sources, e]

theorem State.leave_store (e : s.find n = some r) :
    (s.leave n).store = (s.store.filter fun x => x.tag != n).map r.afterLeaving := by
  obtain ⟨-, rfl⟩ := State.find_mem e
  have hkept : (if r.kind = .rope then (s.store.filter fun x => x.tag != r.tag).map fun x => x.onCoil (CoilBody.disown r.tag)
      else s.store.filter fun x => x.tag != r.tag) = (s.store.filter fun x => x.tag != r.tag).map r.afterLeaving := by
    unfold Record.afterLeaving
    split
    · rfl
    · exact (List.map_id' _).symm
  simp only [State.leave, e]
  split <;> exact hkept

theorem State.leave_find (e : s.find n = some r) : (s.leave n).find n = none := by
  rw [State.find, State.leave_store e, find_map_tags (Record.afterLeaving_tag r)]
  simp

theorem State.leave_find_ne (e : s.find n = some r) (hk : k ≠ n) : (s.leave n).find k = (s.find k).map r.afterLeaving := by
  rw [State.find, State.leave_store e, find_map_tags (Record.afterLeaving_tag r), List.find?_filter, State.find]
  congr 2
  funext x
  by_cases h : x.tag = k <;> simp [h, hk]

theorem Ascending.length_filter_ne {l : List Record} (a : Ascending l) (hr : r ∈ l) :
    (l.filter fun x => x.tag != r.tag).length + 1 = l.length := by
  induction l with
  | nil => cases hr
  | cons x xs ih =>
    obtain ⟨hx, hxs⟩ := List.pairwise_cons.mp a
    rcases List.mem_cons.mp hr with rfl | hr
    · rw [List.filter_cons_of_neg (by simp), List.filter_eq_self.mpr, List.length_cons]
      intro y hy
      have := hx y hy
      simp only [bne_iff_ne, ne_eq]
      omega
    · have := hx r hr
      rw [List.filter_cons_of_pos (by simp only [bne_iff_ne, ne_eq]; omega), List.length_cons, List.length_cons, ih hxs hr]

theorem State.leave_length (S : s.StoreOk) (e : s.find n = some r) : (s.leave n).store.length + 1 = s.store.length := by
  obtain ⟨hr, rfl⟩ := State.find_mem e
  rw [State.leave_store e, List.length_map, S.ascending.length_filter_ne hr]

theorem State.leave_head (e : s.find n = some r) (h : HeadIx) : (s.leave n).head h = { s.head h with
    notified := (s.head h).notified || (decide (s.store.length = storeCap) && (s.head h).holds.storeFull) } := by
  simp only [State.leave, e]
  split
  case isTrue hfull =>
    rw [State.notifyPlanners_head, decide_eq_true hfull, Bool.true_and, Bool.or_comm]
    rfl
  case isFalse hroom =>
    rw [decide_eq_false hroom, Bool.false_and, Bool.or_false]
    rfl

theorem State.leave_rest (s : State) (n : Nat) : (s.leave n).clock = s.clock ∧ (s.leave n).attn = s.attn ∧
    (s.leave n).coilPrefix = s.coilPrefix ∧ (s.leave n).coilSerial = s.coilSerial ∧ (s.leave n).line = s.line ∧
    (s.leave n).link = s.link := by
  unfold State.leave
  split
  · exact ⟨rfl, rfl, rfl, rfl, rfl, rfl⟩
  · dsimp only
    split <;> exact ⟨rfl, rfl, rfl, rfl, rfl, rfl⟩

/-! ## RETIRE -/

theorem answerRetire_retirable (e : s.find tag = some r) (hst : r.state.retirable = true) (hm : m = r.mark) :
    answerRetire .lineComputer tag m s = (s.change (State.leave tag), Reply.done []) := by
  simp [answerRetire, e, hst, hm, fromLine]

/-- Settles O33: the record leaves, its rope's coils stop belonging to it, and a full store that gets a place tells its planners. -/
theorem retireResult : Obligations.RetireResult := by
  unfold Obligations.RetireResult
  intro tag m s body r S a e hst hm
  obtain ⟨hclock, hattn, hprefix, hserial, hline, hlink⟩ := State.leave_rest s tag
  obtain ⟨-, rfl⟩ := State.find_mem e
  refine ⟨_, exec_answer a rfl (answerRetire_retirable e (RecordState.retirable_iff.mpr hst) hm),
    State.change_find_absent (State.leave_find e), fun n hn => ?_, ?_, State.leave_head e, hclock, hattn, hprefix, hserial, hline,
    hlink⟩
  · cases ex : s.find n with
    | none => exact State.change_find_absent (by rw [State.leave_find_ne e hn, ex]; rfl)
    | some x => exact State.change_find_same ex (by rw [State.leave_find_ne e hn, ex]; rfl) (Record.afterLeaving_counted r x).symm
  · rw [State.change_store_length, State.leave_length S e]

end Sys2Proof.Machine
end

section
/-! PROOF. Lists of items written one after the other, and SET_HEAD. -/

namespace Sys2Proof.Machine

variable {n k : Nat} {l : List Item} {it : Item} {s t : State} {body : List Byte}

/-! ## Lists of items -/

theorem distinctItems_cons : distinctItems (it :: l) = true ↔ (∀ x ∈ l, x.number ≠ it.number) ∧ distinctItems l = true := by
  simp [distinctItems]

theorem itemValue_cons_same : itemValue (it :: l) it.number = it.value := by
  simp [itemValue]

theorem itemValue_cons_ne (h : it.number ≠ n) : itemValue (it :: l) n = itemValue l n := by
  simp [itemValue, h]

theorem itemValue_of_absent (h : ∀ x ∈ l, x.number ≠ n) : itemValue l n = none := by
  rw [itemValue, List.find?_eq_none.mpr fun x hx => by simpa using h x hx]
  rfl

/-- One item of a list written by `write`; an item without a value writes nothing. -/
def writeItem {σ : Type} (write : σ → Nat → Nat → σ) (t : σ) (it : Item) : σ := it.value.elim t (write t it.number)

/-- What a list of distinct items leaves of a part `view` of what it writes: it depends on the one value that the list gives to the
item `k`. -/
theorem view_writeItems {σ α : Type} {write : σ → Nat → Nat → σ} {view : σ → α} {g : Nat → α → α}
    (hk : ∀ x v, view (write x k v) = g v (view x)) (hne : ∀ x n v, n ≠ k → view (write x n v) = view x) :
    ∀ (l : List Item) (x : σ), distinctItems l = true →
      view (l.foldl (writeItem write) x) = (itemValue l k).elim (view x) fun v => g v (view x)
  | [], x, _ => rfl
  | it :: l, x, hd => by
    obtain ⟨hfresh, hl⟩ := distinctItems_cons.mp hd
    rw [List.foldl_cons, view_writeItems hk hne l _ hl]
    by_cases h : it.number = k
    · subst h
      rw [itemValue_cons_same, itemValue_of_absent hfresh, writeItem]
      cases it.value with
      | none => rfl
      | some v => exact hk x v
    · rw [itemValue_cons_ne h, writeItem]
      cases it.value with
      | none => rfl
      | some v => rw [Option.elim_some, hne x _ v h]

/-! ## Settings -/

/-- Each setting is written by its own item, clamped into its range (R77, R78). -/
theorem Settings.write_eq (s : Settings) (n v : Nat) : s.write n v =
    { pitch := if n = 1 then clampNat 1 16777215 v else s.pitch
      spindle := if n = 2 then clampNat 1 255 v else s.spindle
      turns := if n = 3 then clampNat 1 64 v else s.turns
      gain := if n = 4 then clampNat 0 255 v else s.gain
      trimMin := if n = 5 then clampNat 0 512 v else s.trimMin
      trimMax := if n = 6 then clampNat 512 1023 v else s.trimMax
      tolerance := if n = 7 then clampNat 1 500 v else s.tolerance
      marker := if n = 8 then clampNat 0 255 v else s.marker
      guardMargin := if n = 9 then clampNat 0 9999 v else s.guardMargin
      knotWindow := if n = 10 then clampNat 1 65535 v else s.knotWindow
      feedLow := if n = 11 then clampNat 0 65535 v else s.feedLow
      minCoil := if n = 12 then clampNat 1000 1000000 v else s.minCoil
      polarity := if n = 13 then (polarityOf v).getD s.polarity else s.polarity } := by
  unfold Settings.write
  split <;> simp_all

theorem Settings.writeList_eq (l : List Item) (s : Settings) : s.writeList l = l.foldl (writeItem Settings.write) s := by
  rw [Settings.writeList]
  congr 1
  funext t it
  rw [writeItem]
  cases it.value <;> rfl

/-- A numeric setting after a list: the value its item gives, clamped, or the one it had. -/
theorem Settings.view_writeList {view : Settings → Nat} {lo hi : Nat} (hl : distinctItems l = true)
    (hview : ∀ s n v, view (Settings.write s n v) = if n = k then clampNat lo hi v else view s) (s : Settings) :
    view (s.writeList l) = (itemValue l k).elim (view s) (clampNat lo hi) := by
  rw [Settings.writeList_eq]
  exact view_writeItems (g := fun v _ => clampNat lo hi v) (fun x v => by rw [hview, if_pos rfl])
    (fun x n v h => by rw [hview, if_neg h]) l s hl

/-- The polarity after a list. -/
theorem Settings.polarity_writeList (l : List Item) (s : Settings) (hl : distinctItems l = true) : (s.writeList l).polarity =
    if itemValue l 13 = some 0 then .normal else if itemValue l 13 = some 1 then .inverted else s.polarity := by
  rw [Settings.writeList_eq, view_writeItems (k := 13) (view := Settings.polarity) (g := fun v old => (polarityOf v).getD old)
    (fun x v => by rw [Settings.write_eq, if_pos rfl]) (fun x n v h => by rw [Settings.write_eq, if_neg h]) l s hl]
  match itemValue l 13 with
  | none => rfl
  | some 0 => rfl
  | some 1 => rfl
  | some (v + 2) => simp [polarityOf]

theorem clamp_elim (x : Option Nat) (lo hi old : Nat) : x.elim old (clampNat lo hi) = (match x with
    | some v => max lo (min v hi)
    | none => old) := by
  cases x <;> rfl

/-! ## SET_HEAD -/

theorem settingListOk_distinct (h : settingListOk l = true) : distinctItems l = true := by
  rw [settingListOk, Bool.and_eq_true] at h
  exact h.2

theorem answerSetHead_of_ok (h : HeadIx) (hl : settingListOk l = true) : answerSetHead .lineComputer h.val l s =
    (s.updHead h (Head.setHead l), Reply.done ((s.head h).settings.writeList l).bytes) := by
  simp [answerSetHead, fromLine, hl, Head.setHead]

theorem answerSetHead_badField (h : HeadIx) (hl : settingListOk l = false) :
    answerSetHead .lineComputer h.val l s = s.refuse .badField := by
  simp [answerSetHead, fromLine, hl]

theorem answerSetHead_noHead (hn : 15 < n) : answerSetHead .lineComputer n l s = s.refuse .noHead := by
  simp [answerSetHead, fromLine, headOf_of_le hn]

/-- Settles O42: each setting depends on one item of the list alone. -/
theorem setHeadResult : Obligations.SetHeadResult := by
  unfold Obligations.SetHeadResult
  refine ⟨fun n l s body a hn => exec_refused a rfl (answerSetHead_noHead hn), fun h l s body a =>
    ⟨fun hl => exec_refused a rfl (answerSetHead_badField h hl), fun hl => exec_answer a rfl (answerSetHead_of_ok h hl)⟩, ?_⟩
  intro l x hl within
  have numeric {view : Settings → Nat} {k lo hi : Nat}
      (hview : ∀ s n v, view (Settings.write s n v) = if n = k then clampNat lo hi v else view s) :
      within k lo hi (view x) = view (x.writeList l) :=
    ((Settings.view_writeList (settingListOk_distinct hl) hview x).trans (clamp_elim ..)).symm
  rw [← Settings.polarity_writeList l x (settingListOk_distinct hl),
    numeric (view := Settings.pitch) fun s n v => by rw [Settings.write_eq],
    numeric (view := Settings.spindle) fun s n v => by rw [Settings.write_eq],
    numeric (view := Settings.turns) fun s n v => by rw [Settings.write_eq],
    numeric (view := Settings.gain) fun s n v => by rw [Settings.write_eq],
    numeric (view := Settings.trimMin) fun s n v => by rw [Settings.write_eq],
    numeric (view := Settings.trimMax) fun s n v => by rw [Settings.write_eq],
    numeric (view := Settings.tolerance) fun s n v => by rw [Settings.write_eq],
    numeric (view := Settings.marker) fun s n v => by rw [Settings.write_eq],
    numeric (view := Settings.guardMargin) fun s n v => by rw [Settings.write_eq],
    numeric (view := Settings.knotWindow) fun s n v => by rw [Settings.write_eq],
    numeric (view := Settings.feedLow) fun s n v => by rw [Settings.write_eq],
    numeric (view := Settings.minCoil) fun s n v => by rw [Settings.write_eq]]

end Sys2Proof.Machine
end

section
/-! PROOF. The requests on the device: the event image and its clearing, and SET_DEVICE. -/

namespace Sys2Proof.Machine

variable {n k : Nat} {l : List Item} {s t : State} {body : List Byte} {h : HeadIx}

/-! ## Flags -/

theorem flagBit_getLsbD {j : Nat} (hk : k < 66) : (flagBit j).getLsbD k = decide (j = k) := by
  rw [flagBit, BitVec.getLsbD_ofNat, Nat.testBit_two_pow]
  simp [hk]

theorem Attention.clear_flag {a : Attention} {w : FlagWord} (hk : k < 66) : (a.clear w).flag k = (a.flag k && !w.getLsbD k) := by
  simp [Attention.flag, Attention.clear, hk]

theorem Attention.clear_causesOf (a : Attention) (w : FlagWord) (h : HeadIx) :
    (a.clear w).causesOf h = if w.getLsbD (flagNumber h .alarm) then {} else a.causesOf h := by
  simp [Attention.causesOf, Attention.clear]

theorem Attention.clear_self (a : Attention) : (a.clear a.flags).flags = 0 := by
  refine BitVec.eq_of_getLsbD_eq fun k hk => ?_
  simp [Attention.clear, hk]

/-! ## READ_EVENTS and CLEAR_EVENTS -/

theorem answerReadEvents_explicit (h : s.attn.clearMode = .explicit) :
    answerReadEvents .lineComputer s = (s, Reply.done s.attn.image) := by
  simp [answerReadEvents, fromLine, h]

theorem answerReadEvents_readClears (h : s.attn.clearMode = .readClears) :
    answerReadEvents .lineComputer s = (s.updAttn fun a => a.clear a.flags, Reply.done s.attn.image) := by
  simp [answerReadEvents, fromLine, h]

/-- Settles O47: a clear takes the marked flags with their cause sets, and nothing else. -/
theorem eventRequestsResult : Obligations.EventRequestsResult := by
  unfold Obligations.EventRequestsResult
  refine ⟨fun s body a => ⟨fun hm => exec_answer a rfl (answerReadEvents_explicit hm), fun hm =>
    ⟨_, exec_answer a rfl (answerReadEvents_readClears hm), Attention.clear_self _, rfl, rfl, rfl, fun h hf => ?_, fun hf => ?_,
      rfl, rfl, rfl, rfl, rfl⟩⟩, fun w s body => ⟨fun a => ⟨_, exec_answer a rfl rfl, fun k => Attention.clear_flag k.isLt,
      fun h => Attention.clear_causesOf .., rfl, rfl, rfl, rfl, rfl, rfl, rfl, rfl, rfl, rfl, rfl⟩,
      fun a => exec_refused (x := .denied) a rfl rfl⟩⟩
  · exact (Attention.clear_causesOf ..).trans (if_pos hf)
  · exact if_pos hf

/-! ## Device settings -/

theorem headMaskItem_iff {p : PanelIx} : headMaskItem n = some p ↔ n = 4 + p.val := by
  unfold headMaskItem
  split <;> simp [Fin.ext_iff] <;> omega

theorem maskItem_iff {k : Fin 66} : maskItem n = some k ↔ n = 16 + k.val := by
  unfold maskItem
  split <;> simp [Fin.ext_iff] <;> omega

theorem routeItem_iff {k : Fin 66} : routeItem n = some k ↔ n = 96 + k.val := by
  unfold routeItem
  split <;> simp [Fin.ext_iff] <;> omega

/-- What one item of SET_DEVICE leaves of every device setting (R152, R171, R174, R194). -/
structure State.WritesDevice (s : State) (n v : Nat) (t : State) : Prop where
  clearMode : t.attn.clearMode = if n = 1 then (clearModeOf v).getD s.attn.clearMode else s.attn.clearMode
  coilPrefix : t.coilPrefix = if n = 2 then clampNat 0 65535 v else s.coilPrefix
  coilSerial : t.coilSerial = if n = 3 then clampNat 1 serialTop v else s.coilSerial
  panel : ∀ p, t.link.panel p =
    if n = 4 + p.val then { s.link.panel p with mask := BitVec.ofNat 16 v } else s.link.panel p
  mask : ∀ k : Fin 66, t.attn.masks.getLsbD k.val = if n = 16 + k.val then decide (v = 1) else s.attn.masks.getLsbD k.val
  route : ∀ k : Fin 66, t.attn.routes[k.val] = if n = 96 + k.val then (routeOf v).getD .none else s.attn.routes[k.val]
  flags : t.attn.flags = s.attn.flags
  causes : t.attn.causes = s.attn.causes
  storeCauses : t.attn.storeCauses = s.attn.storeCauses
  store : t.store = s.store
  heads : t.heads = s.heads
  clock : t.clock = s.clock
  line : t.line = s.line

theorem Attention.setMask_mask (a : Attention) (k j : Fin 66) (v : Bool) :
    (a.setMask k v).masks.getLsbD j.val = if k = j then v else a.masks.getLsbD j.val := by
  have hbit : (flagBit k.val).getLsbD j.val = decide (k = j) := (flagBit_getLsbD j.isLt).trans (by simp [Fin.ext_iff])
  cases v
  · rw [Attention.setMask, if_neg (by decide), BitVec.getLsbD_and, BitVec.getLsbD_not, hbit, decide_eq_true j.isLt]
    by_cases h : k = j <;> simp [h]
  · rw [Attention.setMask, if_pos rfl, BitVec.getLsbD_or, hbit]
    by_cases h : k = j <;> simp [h]

theorem Attention.setRoute_route (a : Attention) (k j : Fin 66) (r : Route) :
    (a.setRoute k r).routes[j.val] = if k = j then r else a.routes[j.val] := by
  by_cases h : k = j
  · subst h
    simp [Attention.setRoute]
  · rw [if_neg h]
    exact Vector.getElem_set_ne k.isLt j.isLt (fun e => h (Fin.ext e))

theorem PanelLink.setMask_panel (l : PanelLink) (p j : PanelIx) (v : HeadMask) :
    ({ l with panels := l.panels.set p.val { l.panels[p.val] with mask := v } p.isLt } : PanelLink).panel j =
      if p = j then { l.panel j with mask := v } else l.panel j := by
  by_cases h : p = j
  · subst h
    simp [PanelLink.panel]
  · rw [if_neg h]
    exact Vector.getElem_set_ne p.isLt j.isLt (fun e => h (Fin.ext e))

/-- A number that is no item of SET_DEVICE writes nothing. -/
theorem State.WritesDevice.none (s : State) (v : Nat) (h1 : n ≠ 1) (h2 : n ≠ 2) (h3 : n ≠ 3) (hp : headMaskItem n = .none) (hm : maskItem n = .none)
    (hr : routeItem n = .none) : s.WritesDevice n v s := by
  constructor
  case panel => exact fun p => by rw [if_neg fun e => by simp [headMaskItem_iff.mpr e] at hp]
  case mask => exact fun k => by rw [if_neg fun e => by simp [maskItem_iff.mpr e] at hm]
  case route => exact fun k => by rw [if_neg fun e => by simp [routeItem_iff.mpr e] at hr]
  case clearMode => rw [if_neg h1]
  case coilPrefix => rw [if_neg h2]
  case coilSerial => rw [if_neg h3]
  all_goals rfl

theorem State.writeDevice_writes (s : State) (n v : Nat) : s.WritesDevice n v (s.writeDevice n v) := by
  unfold State.writeDevice
  split
  case isTrue h => subst h; constructor <;> simp <;> omega
  case isFalse h1 =>
  split
  case isTrue h => subst h; constructor <;> simp <;> omega
  case isFalse h2 =>
  split
  case isTrue h => subst h; constructor <;> simp <;> omega
  case isFalse h3 =>
  split
  case h_1 p hp =>
    obtain rfl := headMaskItem_iff.mp hp
    have := p.isLt
    constructor
    case panel => exact fun q => (PanelLink.setMask_panel ..).trans (by simp [Fin.ext_iff])
    all_goals simp <;> omega
  case h_2 k _ hk =>
    obtain rfl := maskItem_iff.mp hk
    have := k.isLt
    constructor
    case mask => exact fun q => (Attention.setMask_mask ..).trans (by simp [Fin.ext_iff])
    case route => exact fun q => by rw [if_neg (by omega)]; rfl
    all_goals simp [Attention.setMask] <;> omega
  case h_3 k _ _ hk =>
    obtain rfl := routeItem_iff.mp hk
    have := k.isLt
    constructor
    case route => exact fun q => (Attention.setRoute_route ..).trans (by simp [Fin.ext_iff])
    all_goals simp [Attention.setRoute] <;> omega
  case h_4 hp hm hr =>
    exact State.WritesDevice.none s v h1 h2 h3 hp hm hr

theorem State.writeDeviceList_eq (l : List Item) (s : State) : s.writeDeviceList l = l.foldl (writeItem State.writeDevice) s := by
  rw [State.writeDeviceList]
  congr 1
  funext t it
  rw [writeItem]
  cases it.value <;> rfl

/-- A part of the state that no item of SET_DEVICE writes. -/
theorem State.writeDeviceList_view {α : Type} {view : State → α} (hv : ∀ x n v, view (x.writeDevice n v) = view x) (l : List Item)
    (s : State) : view (s.writeDeviceList l) = view s := by
  rw [State.writeDeviceList_eq]
  induction l generalizing s with
  | nil => rfl
  | cons it l ih =>
    rw [List.foldl_cons, ih, writeItem]
    cases it.value with
    | none => rfl
    | some v => exact hv ..

/-- A part of the state that one item of SET_DEVICE writes. -/
theorem State.view_writeDeviceList {α : Type} {view : State → α} {g : Nat → α → α} (hl : distinctItems l = true)
    (hv : ∀ x n v, view (x.writeDevice n v) = if n = k then g v (view x) else view x) (s : State) :
    view (s.writeDeviceList l) = (itemValue l k).elim (view s) fun v => g v (view s) := by
  rw [State.writeDeviceList_eq]
  exact view_writeItems (fun x v => by rw [hv, if_pos rfl]) (fun x n v h => by rw [hv, if_neg h]) l s hl

theorem itemValue_mem {v : Nat} (e : itemValue l n = some v) : ∃ it ∈ l, it.number = n ∧ it.value = some v := by
  obtain ⟨it, hit, hv⟩ := Option.bind_eq_some_iff.mp e
  exact ⟨it, List.mem_of_find?_eq_some hit, by simpa using List.find?_some hit, hv⟩

/-- A route that a list which passes its check names is a route. -/
theorem deviceListOk_route {v : Nat} {k : Fin 66} (hl : deviceListOk l = true) (e : itemValue l (96 + k.val) = some v) :
    v = 0 ∨ v = 1 ∨ v = 2 := by
  obtain ⟨it, hit, hn, hv⟩ := itemValue_mem e
  have hok : deviceItemOk it = true := by
    rw [deviceListOk, Bool.and_eq_true] at hl
    exact List.all_eq_true.mp hl.1 it hit
  have hroute : (routeOf v).isSome = true := by
    simp only [deviceItemOk, hv, hn, routeItem_iff.mpr rfl, Bool.and_eq_true, Option.isSome_some, Bool.not_true, Bool.false_or] at hok
    exact hok.2
  match v, hroute with
  | 0, _ => simp
  | 1, _ => simp
  | 2, _ => simp
  | v + 3, h => simp [routeOf] at h

/-! ## SET_DEVICE -/

theorem answerSetDevice_ok (hl : deviceListOk l = true) :
    answerSetDevice .lineComputer l s = (s.writeDeviceList l, Reply.done (s.writeDeviceList l).deviceBytes) := by
  simp [answerSetDevice, fromLine, hl]

theorem answerSetDevice_badField (hl : deviceListOk l = false) : answerSetDevice .lineComputer l s = s.refuse .badField := by
  simp [answerSetDevice, fromLine, hl]

theorem Attention.asserted_iff {a : Attention} {r : Route} : a.asserted r = true ↔
    ∃ k : Fin 66, a.flag k.val = true ∧ a.masks.getLsbD k.val = false ∧ a.routes[k.val] = r := by
  simp only [Attention.asserted, List.any_eq_true, List.mem_finRange, true_and, Attention.drives, Attention.flag, Bool.and_eq_true,
    Bool.not_eq_true', decide_eq_true_eq, and_assoc]

/-- Settles O48: each device setting depends on one item of the list alone. -/
theorem setDeviceResult : Obligations.SetDeviceResult := by
  unfold Obligations.SetDeviceResult
  refine ⟨fun l s body a => ⟨fun hl => exec_refused a rfl (answerSetDevice_badField hl), fun hl =>
    ⟨_, exec_answer a rfl (answerSetDevice_ok hl), rfl, ?_, ?_, ?_, ?_, ?_, ?_, ?_⟩⟩,
    fun s => ⟨Attention.asserted_iff, Attention.asserted_iff⟩, ?_⟩
  · exact State.writeDeviceList_view (view := fun x => x.attn.flags) (fun x n v => (x.writeDevice_writes n v).flags) l s
  · exact State.writeDeviceList_view (view := fun x => x.attn.causes) (fun x n v => (x.writeDevice_writes n v).causes) l s
  · exact State.writeDeviceList_view (view := fun x => x.attn.storeCauses) (fun x n v => (x.writeDevice_writes n v).storeCauses) l s
  · exact State.writeDeviceList_view (fun x n v => (x.writeDevice_writes n v).store) l s
  · exact State.writeDeviceList_view (fun x n v => (x.writeDevice_writes n v).heads) l s
  · exact State.writeDeviceList_view (fun x n v => (x.writeDevice_writes n v).clock) l s
  · exact State.writeDeviceList_view (fun x n v => (x.writeDevice_writes n v).line) l s
  · intro l s hl t
    have hd : distinctItems l = true := by
      rw [deviceListOk, Bool.and_eq_true] at hl
      exact hl.2
    refine ⟨?_, ?_, ?_, fun p => ?_, fun k => ⟨?_, ?_⟩⟩
    · rw [State.view_writeDeviceList (view := fun x => x.attn.clearMode) (g := fun v old => (clearModeOf v).getD old) hd
        fun x n v => (x.writeDevice_writes n v).clearMode]
      match itemValue l 1 with
      | none => rfl
      | some 0 => rfl
      | some 1 => rfl
      | some (v + 2) => simp [clearModeOf]
    · rw [State.view_writeDeviceList (view := State.coilPrefix) (g := fun v _ => clampNat 0 65535 v) hd
        fun x n v => (x.writeDevice_writes n v).coilPrefix]
      cases itemValue l 2 <;> simp [clampNat]
    · rw [State.view_writeDeviceList (view := State.coilSerial) (g := fun v _ => clampNat 1 serialTop v) hd
        fun x n v => (x.writeDevice_writes n v).coilSerial]
      cases itemValue l 3 <;> rfl
    · rw [State.view_writeDeviceList (view := fun x => x.link.panel p) (g := fun v old => { old with mask := BitVec.ofNat 16 v }) hd
        fun x n v => (x.writeDevice_writes n v).panel p]
      cases itemValue l (4 + p.val) <;> rfl
    · rw [State.view_writeDeviceList (view := fun x => x.attn.masks.getLsbD k.val) (g := fun v _ => decide (v = 1)) hd
        fun x n v => (x.writeDevice_writes n v).mask k]
      cases itemValue l (16 + k.val) <;> rfl
    · rw [State.view_writeDeviceList (view := fun x => x.attn.routes[k.val]) (g := fun v _ => (routeOf v).getD .none) hd
        fun x n v => (x.writeDevice_writes n v).route k]
      cases e : itemValue l (96 + k.val) with
      | none => rfl
      | some v => rcases deviceListOk_route hl e with rfl | rfl | rfl <;> rfl

end Sys2Proof.Machine
end

section
/-! PROOF. The floor panel link: the order of the grants, the frames of the granted panel, and the roll call. -/

namespace Sys2Proof.Machine

variable {l : PanelLink} {n : PanelIx} {s t : State}

/-! ## The next grant -/

theorem PanelLink.lowestAsked_eq_none (h : ∀ n, (l.panel n).asked = false) : l.lowestAsked = none :=
  List.find?_eq_none.mpr fun n _ => by simp [h n]

theorem PanelLink.lowestAsked_eq_some (hn : (l.panel n).asked = true) (h : ∀ k, k < n → (l.panel k).asked = false) :
    l.lowestAsked = some n :=
  List.find?_eq_some_iff_getElem.mpr ⟨hn, n.val, by simp, by simp, fun j hj => by
    simpa using h ⟨j, by omega⟩ hj⟩

theorem PanelLink.grantNext_of_none (h : ∀ n, (l.panel n).asked = false) :
    l.grantNext = { l with phase := .calling, granted := none, dropped := false } := by
  simp only [PanelLink.grantNext, PanelLink.lowestAsked_eq_none h]

theorem PanelLink.grantNext_of_first (hn : (l.panel n).asked = true) (h : ∀ k, k < n → (l.panel k).asked = false) :
    l.grantNext = { l with
      phase := .granting
      granted := some n
      dropped := false
      panels := l.panels.set n.val { l.panel n with asked := false } n.isLt
      sent := [0xC6, byte (n.val + 1)] } := by
  simp only [PanelLink.grantNext, PanelLink.lowestAsked_eq_some hn h]
  rfl

/-- A link that awaits a frame: the GRANT has been sent, or is taken to have been (log entry 2). -/
theorem PanelLink.grantSent_awaits (h : l.phase = .granting ∨ l.phase = .receiving) : l.grantSent = { l with phase := .receiving } := by
  rcases h with h | h
  · exact if_pos h
  · rw [PanelLink.grantSent, if_neg (by simp [h]), ← h]

theorem PanelLink.grantSent_other (h : l.phase ≠ .granting) : l.grantSent = l := if_neg h

theorem PanelLink.deadline_awaits (h : l.phase = .granting ∨ l.phase = .receiving) : l.deadline = l.grantNext := by
  rw [PanelLink.deadline, PanelLink.grantSent_awaits h, if_pos rfl]

theorem PanelLink.deadline_other (hg : l.phase ≠ .granting) (hr : l.phase ≠ .receiving) : l.deadline = l := by
  rw [PanelLink.deadline, PanelLink.grantSent_other hg, if_neg hr]

theorem PanelLink.responseSent_answering (h : l.phase = .answering) (hu : l.unread.isSome = true) :
    l.responseSent = { l with unread := none }.grantNext := by
  rw [PanelLink.responseSent, if_pos (by simp [h, hu])]

theorem PanelLink.responseSent_other (h : l.phase ≠ .answering ∨ l.unread = none) : l.responseSent = l := by
  rw [PanelLink.responseSent, if_neg]
  rcases h with h | h <;> simp [h]

theorem exec_panelFrameDeadline (e : s.link.deadline = l) : exec .panelFrameDeadline s = .next { s with link := l } := by
  rw [← e]
  rfl

theorem exec_panelResponseSent (e : s.link.responseSent = l) : exec .panelResponseSent s = .next { s with link := l } := by
  rw [← e]
  rfl

/-- Settles O53: the next grant goes to the lowest panel of the pending set. -/
theorem panelGrantsResult : Obligations.PanelGrantsResult := by
  unfold Obligations.PanelGrantsResult
  refine ⟨?_, fun s hg hr => exec_panelFrameDeadline (PanelLink.deadline_other hg hr),
    fun s h => exec_panelResponseSent (PanelLink.responseSent_other h), fun l h => ⟨by simp [PanelLink.lineEnable, h], if_pos h⟩⟩
  rintro s c l (⟨rfl, h, rfl⟩ | ⟨rfl, h, hu, rfl⟩)
  · exact ⟨fun hn => exec_panelFrameDeadline ((PanelLink.deadline_awaits h).trans (PanelLink.grantNext_of_none hn)),
      fun n hn hk => exec_panelFrameDeadline ((PanelLink.deadline_awaits h).trans (PanelLink.grantNext_of_first hn hk))⟩
  · have e := PanelLink.responseSent_answering h hu
    exact ⟨fun hn => exec_panelResponseSent (e.trans (PanelLink.grantNext_of_none (l := { s.link with unread := none }) hn)),
      fun n hn hk => exec_panelResponseSent (e.trans (PanelLink.grantNext_of_first (l := { s.link with unread := none }) hn hk))⟩

/-! ## The frames of the granted panel -/

theorem wholeBytes_map (bs : List Byte) : wholeBytes (bs.map LineByte.whole) = some bs := by
  induction bs with
  | nil => rfl
  | cons b bs ih => rw [List.map_cons, wholeBytes, ih, Option.map_some]

theorem wholeBytes_eq_some : ∀ {received : List LineByte} {bs : List Byte}, wholeBytes received = some bs →
    received = bs.map LineByte.whole
  | [], bs, e => by cases e; rfl
  | .whole b :: received, bs, e => by
    obtain ⟨cs, hcs, rfl⟩ := Option.map_eq_some_iff.mp e
    rw [wholeBytes_eq_some hcs, List.map_cons]

/-- The frame of a request from panel `n` (R187, R192). -/
theorem judgeFrame_frame {body : List Byte} (h1 : 1 ≤ body.length) (h60 : body.length ≤ 60) :
    judgeFrame n ((byte (n.val + 1) :: byte body.length :: body ++
      beBytes 2 (crc (byte (n.val + 1) :: byte body.length :: body)).toNat).map LineByte.whole) = some body := by
  have hlen : (byte body.length).toNat = body.length := by
    simp [byte]
    omega
  have htake (bs : List Byte) (x : List Byte) (hx : x.length = 2) :
      ((bs ++ x).map LineByte.whole).take (bs.length + 2) = (bs ++ x).map LineByte.whole :=
    List.take_of_length_le (by simp [hx])
  simp only [List.cons_append, List.map_cons, judgeFrame, hlen, panelAddress]
  rw [if_pos ⟨trivial, h1, by simp [bodyTop]; omega, by simp [deadlineBytes]; omega⟩, htake _ _ rfl, wholeBytes_map]
  simp [crcBytes]

theorem judgeFrame_eq_some {received : List LineByte} {body : List Byte} (e : judgeFrame n received = some body) :
    1 ≤ body.length ∧ body.length ≤ 60 ∧ ∃ rest, received = (byte (n.val + 1) :: byte body.length :: body ++
      beBytes 2 (crc (byte (n.val + 1) :: byte body.length :: body)).toNat).map LineByte.whole ++ rest := by
  unfold judgeFrame at e
  split at e
  case h_2 => cases e
  case h_1 a len rest =>
  dsimp only at e
  split at e
  case isFalse => cases e
  case isTrue hhead =>
  obtain ⟨rfl, h1, -, hdeadline⟩ := hhead
  split at e
  case h_1 => cases e
  case h_2 bs hbs =>
  split at e
  case isFalse => cases e
  case isTrue hcrc =>
  obtain ⟨hlen, hcrc⟩ := hcrc
  cases e
  have htop : len.toNat + 4 ≤ 64 := hdeadline
  have hk : (bs.take len.toNat).length = len.toNat := by
    rw [List.length_take]
    omega
  have hbyte : byte (bs.take len.toNat).length = len := by
    rw [hk]
    simp [byte]
  refine ⟨by omega, by omega, rest.drop (len.toNat + 2), ?_⟩
  rw [hbyte, ← panelAddress, ← crcBytes, ← hcrc, List.cons_append, List.cons_append, List.take_append_drop, List.map_cons,
    List.map_cons, ← wholeBytes_eq_some hbs, List.cons_append, List.cons_append, List.take_append_drop]

theorem PanelLink.takeFrame_good {received : List LineByte} {body : List Byte} (hp : l.phase = .receiving)
    (hn : l.granted = some n) (hd : l.dropped = false) (e : judgeFrame n received = some body) :
    l.takeFrame received = { l with phase := .answering, inProgress := some body } := by
  simp only [PanelLink.takeFrame, hp, hn, hd, e, if_false, Bool.false_eq_true]

theorem PanelLink.takeFrame_bad {received : List LineByte} (hp : l.phase = .receiving) (hn : l.granted = some n)
    (hd : l.dropped = false) (e : judgeFrame n received = none) : l.takeFrame received = { l with dropped := true } := by
  simp only [PanelLink.takeFrame, hp, hn, hd, e, if_false, Bool.false_eq_true]

theorem PanelLink.takeFrame_other {received : List LineByte} (h : l.phase ≠ .receiving ∨ l.granted = none ∨ l.dropped = true) :
    l.takeFrame received = l := by
  unfold PanelLink.takeFrame
  split
  case h_1 hp hn => simp_all
  case h_2 => rfl

theorem exec_panelRequestFrame {received : List LineByte} (e : s.link.grantSent.takeFrame received = l) :
    exec (.panelRequestFrame received) s = .next { s with link := l } := by
  rw [← e]
  rfl

/-- Settles O52: the frame that the link takes from the granted panel, and what it makes of any other. -/
theorem panelRequestFrameResult : Obligations.PanelRequestFrameResult := by
  unfold Obligations.PanelRequestFrameResult
  refine ⟨fun n body s h hn hd h1 h60 => exec_panelRequestFrame ?_, fun n received s h hn hd e => exec_panelRequestFrame ?_,
    fun received s h => exec_panelRequestFrame ?_, fun n received body e => judgeFrame_eq_some e⟩
  · rw [PanelLink.grantSent_awaits h]
    exact PanelLink.takeFrame_good rfl hn hd (judgeFrame_frame h1 h60)
  · rw [PanelLink.grantSent_awaits h]
    exact PanelLink.takeFrame_bad rfl hn hd e
  · rcases h with ⟨hg, hr⟩ | ⟨hr, h⟩
    · rw [PanelLink.grantSent_other hg, PanelLink.takeFrame_other (.inl hr)]
    · rw [PanelLink.grantSent_other (by simp [hr]), PanelLink.takeFrame_other (.inr h)]

/-! ## The roll call -/

@[simp] theorem PanelLink.updPanel_panel (l : PanelLink) (n : PanelIx) (f : Panel → Panel) :
    (l.updPanel n f).panel n = f (l.panel n) := by
  simp [PanelLink.updPanel, PanelLink.panel]

theorem PanelLink.updPanel_panel_ne {k : PanelIx} (f : Panel → Panel) (h : k ≠ n) : (l.updPanel n f).panel k = l.panel k :=
  Vector.getElem_set_ne n.isLt k.isLt (fun e => h (Fin.ext e.symm))

theorem PanelLink.call_calling (h : l.phase = .calling) (hq : l.quiet = false) : l.call = { l with
    phase := .slots
    slot := 0
    panels := Vector.ofFn fun n => { l.panel n with asked := false }
    sent := [0xC5] } := by
  rw [PanelLink.call, if_pos (by simp [h, hq])]
  rfl

theorem PanelLink.call_other (h : l.phase ≠ .calling ∨ l.quiet = true) : l.call = l := by
  rw [PanelLink.call, if_neg]
  rcases h with h | h <;> simp [h]

theorem exec_call (e : s.link.call = l) : exec .call s = .next { s with link := l } := by
  rw [← e]
  rfl

/-- A panel at the end of its slot, as R191 has it. -/
theorem Panel.slotEnd_eq (p : Panel) (received : List LineByte) : p.slotEnd received.head? = (match received with
    | .whole b :: _ => ⟨true, 0, p.asked || decide (b = 0xA1), p.mask⟩
    | .badStop :: _ => ⟨true, 0, p.asked, p.mask⟩
    | [] => ⟨p.present && decide (p.silence + 1 < 3), min (p.silence + 1) 3, p.asked, p.mask⟩) := by
  match received with
  | .whole b :: _ => rfl
  | .badStop :: _ => rfl
  | [] =>
    have hsilent : decide (min (p.silence + 1) 3 < 3) = decide (p.silence + 1 < 3) := by
      rw [decide_eq_decide]
      omega
    exact congrArg (fun b => (⟨p.present && b, min (p.silence + 1) 3, p.asked, p.mask⟩ : Panel)) hsilent

/-- The end of a slot in the slots of the roll call: the panel judged, the link after it, and the PANEL flag (R191). -/
theorem exec_panelSlotEnd {received : List LineByte} (h : s.link.phase = .slots) (hn : s.link.slot = n) :
    exec (.panelSlotEnd received) s = .next { s with
      link := (s.link.updPanel n fun p => p.slotEnd received.head?).afterSlot n
      attn := if (s.link.panel n).present = ((s.link.panel n).slotEnd received.head?).present then s.attn
        else s.attn.setFlag panelFlag } := by
  subst hn
  refine congrArg Host.Outcome.next ?_
  rw [State.slotEnd, if_pos h]
  dsimp only
  split <;> rfl

theorem PanelLink.afterSlot_of_lt (h : n.val < 7) : l.afterSlot n = { l with slot := ⟨n.val + 1, by omega⟩ } :=
  dif_pos (by omega)

theorem PanelLink.afterSlot_last (h : n.val = 7) : l.afterSlot n = l.grantNext := dif_neg (by omega)

/-- A grant alters nothing of a panel but its place in the pending set. -/
theorem PanelLink.grantNext_panel (l : PanelLink) (k : PanelIx) : (l.grantNext.panel k).present = (l.panel k).present ∧
    (l.grantNext.panel k).silence = (l.panel k).silence ∧ (l.grantNext.panel k).mask = (l.panel k).mask := by
  unfold PanelLink.grantNext
  split
  case h_2 => exact ⟨rfl, rfl, rfl⟩
  case h_1 n _ =>
    have hpanel (f : Panel → Panel) (x : LinkPhase) (g : Option PanelIx) (d : Bool) (b : List Byte) : ({ l.updPanel n f with
        phase := x, granted := g, dropped := d, sent := b } : PanelLink).panel k = (l.updPanel n f).panel k := rfl
    rw [hpanel]
    by_cases h : k = n
    · subst h
      simp
    · simp [PanelLink.updPanel_panel_ne _ h]

theorem PanelLink.afterSlot_panel (l : PanelLink) (n k : PanelIx) : ((l.afterSlot n).panel k).present = (l.panel k).present ∧
    ((l.afterSlot n).panel k).silence = (l.panel k).silence ∧ ((l.afterSlot n).panel k).mask = (l.panel k).mask := by
  unfold PanelLink.afterSlot
  split
  · exact ⟨rfl, rfl, rfl⟩
  · exact l.grantNext_panel k

/-- A grant to the lowest panel of the pending set (R190). -/
theorem PanelLink.grantNext_grants (hn : (l.panel n).asked = true) (h : ∀ k, k < n → (l.panel k).asked = false) :
    l.grantNext.phase = .granting ∧ l.grantNext.lineEnable = true ∧ l.grantNext.granted = some n ∧
      l.grantNext.sent = [0xC6, byte (n.val + 1)] ∧ (l.grantNext.panel n).asked = false := by
  rw [PanelLink.grantNext_of_first hn h]
  exact ⟨rfl, by simp [PanelLink.lineEnable], rfl, rfl, by simp [PanelLink.panel]⟩

/-- Settles O51: each slot judges its own panel, and the last one begins the grants. -/
theorem rollCallResult : Obligations.RollCallResult := by
  unfold Obligations.RollCallResult
  refine ⟨fun s h hq => ⟨by simp [PanelLink.lineEnable, h, hq], _, exec_call (PanelLink.call_calling h hq), rfl, rfl, rfl, rfl, rfl,
    by simp [PanelLink.lineEnable], fun n => by simp [PanelLink.panel]⟩, fun s h => exec_call (PanelLink.call_other h),
    fun received s h => congrArg Host.Outcome.next (if_neg h), ?_⟩
  intro received s n h hn p q
  have hq : p.slotEnd received.head? = q := Panel.slotEnd_eq p received
  let l := s.link.updPanel n fun p => p.slotEnd received.head?
  have hpanel : l.panel n = q := (PanelLink.updPanel_panel ..).trans hq
  have hother (k : PanelIx) (hk : k ≠ n) : l.panel k = s.link.panel k := PanelLink.updPanel_panel_ne _ hk
  obtain ⟨hpresent, hsilence, hmask⟩ := l.afterSlot_panel n n
  rw [hpanel] at hpresent hsilence hmask
  refine ⟨_, exec_panelSlotEnd h hn, hpresent, hsilence, hmask, fun h7 => ?_, fun h7 hasked hnone => ?_, fun h7 k hk hasked hleast => ?_,
    fun h7 hasked hleast => ?_, fun e => ?_, fun e => ?_, rfl, rfl, rfl, rfl⟩
  · rw [PanelLink.afterSlot_of_lt h7]
    exact ⟨h, rfl, hpanel, hother⟩
  · have hempty (k : PanelIx) : (l.panel k).asked = false := by
      by_cases hk : k = n
      · rw [hk, hpanel, hasked]
      · rw [hother k hk, hnone k hk]
    rw [PanelLink.afterSlot_last h7, PanelLink.grantNext_of_none hempty]
    exact ⟨rfl, rfl⟩
  · rw [PanelLink.afterSlot_last h7]
    have hlast (j : PanelIx) (hj : j < k) : j ≠ n := by
      rintro rfl
      have := k.isLt
      rw [Fin.lt_def] at hj
      omega
    exact PanelLink.grantNext_grants (by rw [hother k hk, hasked]) fun j hj => by rw [hother j (hlast j hj), hleast j hj]
  · rw [PanelLink.afterSlot_last h7]
    have hgrant := PanelLink.grantNext_grants (l := l) (by rw [hpanel, hasked]) fun j hj => by
      rw [hother j hj.ne, hleast j hj]
    rwa [h7] at hgrant
  · exact if_pos (by rw [hq]; exact e.symm)
  · exact if_neg (by rw [hq]; exact Ne.symm e)

end Sys2Proof.Machine
end

section
/-! PROOF. The frames at the line computer port: what each phase does with the bytes it takes. -/

namespace Sys2Proof.Machine

variable {p : LinePort} {b : Byte} {l : List Byte} {x : FrameEdges} {s : State}

/-! ## The bytes of a phase -/

/-- A discarded frame shifts out 00h for every byte (R177). -/
theorem LinePort.takeBytes_discard (h : p.phase = .discard) :
    l.foldl LinePort.takeByte p = { p with shifted := p.shifted ++ List.replicate l.length 0 } := by
  induction l generalizing p with
  | nil => simp
  | cons b l ih =>
    have hb : p.takeByte b = { p with shifted := p.shifted ++ [0] } := by simp only [LinePort.takeByte, h]
    rw [List.foldl_cons, hb, ih (p := { p with shifted := p.shifted ++ [0] }) h]
    simp [List.replicate_succ]

/-- The bytes of a body are counted, and held as far as there is room (R178). -/
theorem LinePort.takeBytes_body (h : p.phase = .body) : ∃ buffer, l.foldl LinePort.takeByte p =
    { p with shifted := p.shifted ++ List.replicate l.length 0, frameCount := p.frameCount + l.length, buffer := buffer } ∧
      (p.buffer.length + l.length ≤ bodyTop → buffer = p.buffer ++ l) := by
  induction l generalizing p with
  | nil => exact ⟨p.buffer, by simp, by simp⟩
  | cons b l ih =>
    let held := if p.buffer.length < bodyTop then p.buffer ++ [b] else p.buffer
    have hb : p.takeByte b = { p with shifted := p.shifted ++ [0], frameCount := p.frameCount + 1, buffer := held } := by
      simp only [LinePort.takeByte, h, held]
    obtain ⟨buffer, e, hbuffer⟩ := ih (p := p.takeByte b) (by rw [hb]; exact h)
    refine ⟨buffer, ?_, fun hroom => ?_⟩
    · rw [List.foldl_cons, e, hb]
      simp [List.replicate_succ, Nat.add_assoc, Nat.add_comm 1]
    · rw [List.length_cons] at hroom
      have hheld : held = p.buffer ++ [b] := if_pos (by omega)
      rw [hb, hheld] at hbuffer
      rw [hbuffer (by simp; omega)]
      simp

/-- A fetch without a response shifts out 00h for every byte (R180). -/
theorem LinePort.takeBytes_fetch_none (h : p.phase = .fetch) (ht : p.toShift = none) :
    l.foldl LinePort.takeByte p = { p with shifted := p.shifted ++ List.replicate l.length 0 } := by
  induction l generalizing p with
  | nil => simp
  | cons b l ih =>
    have hb : p.takeByte b = { p with shifted := p.shifted ++ [0] } := by simp only [LinePort.takeByte, h, LinePort.fetchByte, ht]
    rw [List.foldl_cons, hb, ih (p := { p with shifted := p.shifted ++ [0] }) h ht]
    simp [List.replicate_succ]

/-- A fetch of a response shifts out its bytes and then 00h, and removes it with its last byte (R180). -/
theorem LinePort.takeBytes_fetch {c : Byte} {r : List Byte} {k : Nat} (h : p.phase = .fetch) (ht : p.toShift = some (c :: r))
    (hk : l.length ≤ k) : l.foldl LinePort.takeByte p = { p with
      shifted := p.shifted ++ (c :: r ++ List.replicate k 0).take l.length
      unread := if r.length + 1 ≤ l.length then none else p.unread
      toShift := if r.length + 1 ≤ l.length then none else some ((c :: r).drop l.length) } := by
  induction l generalizing p c r with
  | nil => simp [← ht]
  | cons b l ih =>
    rw [List.length_cons] at hk
    cases r with
    | nil =>
      have hb : p.takeByte b = { p with toShift := none, unread := none, shifted := p.shifted ++ [c] } := by
        simp only [LinePort.takeByte, h, LinePort.fetchByte, ht]
      rw [List.foldl_cons, hb, LinePort.takeBytes_fetch_none (p := { p with toShift := none, unread := none, shifted := _ }) h rfl]
      simp [Nat.min_eq_left (Nat.le_of_succ_le hk)]
    | cons c' r =>
      have hb : p.takeByte b = { p with toShift := some (c' :: r), shifted := p.shifted ++ [c] } := by
        simp only [LinePort.takeByte, h, LinePort.fetchByte, ht]
      rw [List.foldl_cons, hb, ih (p := { p with toShift := some (c' :: r), shifted := _ }) h rfl (by omega)]
      simp

/-! ## Whole frames -/

theorem LinePort.frame_whole (hr : x.resumes = none) (hp : x.pauses = none) :
    p.frame x l = (l.foldl LinePort.takeByte p.select).deselect := by
  simp [LinePort.frame, frameStretch, hr, hp]

/-- After its code byte a frame has reported the status byte, and both LAST flags are clear (R177, R180). -/
theorem LinePort.frame_cons (hr : x.resumes = none) (hp : x.pauses = none) :
    p.frame x (b :: l) = (l.foldl LinePort.takeByte (p.select.takeCode b)).deselect := by
  rw [LinePort.frame_whole hr hp, List.foldl_cons]
  rfl

theorem byte_toNat {n : Nat} (h : n < 256) : (byte n).toNat = n := by
  rw [byte, BitVec.toNat_ofNat]
  omega

theorem LinePort.takeByte_length (h : p.phase = .length) (hb : 1 ≤ b.toNat ∧ b.toNat ≤ bodyTop) : p.takeByte b =
    { p with shifted := p.shifted ++ [0], phase := .body, frameLength := b.toNat } := by
  simp only [LinePort.takeByte, h, hb, and_self, if_true]

theorem LinePort.takeByte_badLength (h : p.phase = .length) (hb : ¬(1 ≤ b.toNat ∧ b.toNat ≤ bodyTop)) : p.takeByte b =
    { p with shifted := p.shifted ++ [0], phase := .discard } := by
  simp only [LinePort.takeByte, h, if_neg hb]

/-- A well-formed request frame, accepted or refused (R178, R179). -/
theorem LinePort.frame_request (hr : x.resumes = none) (hp : x.pauses = none) (h1 : 1 ≤ l.length) (h250 : l.length ≤ 250) :
    p.frame x (requestFrameCode :: byte l.length :: l) =
      { phase := .noFrame
        frameLength := l.length
        frameCount := l.length
        buffer := []
        inProgress := if p.inProgress = none ∧ p.unread = none then some l else p.inProgress
        unread := p.unread
        lastRefused := decide ¬(p.inProgress = none ∧ p.unread = none)
        lastMalformed := false
        status := p.statusByte
        toShift := none
        shifted := p.statusByte :: List.replicate (l.length + 1) 0 } := by
  have hlen : (byte l.length).toNat = l.length := byte_toNat (by omega)
  rw [LinePort.frame_cons hr hp, List.foldl_cons, LinePort.takeByte_length rfl (by rw [hlen]; exact ⟨h1, h250⟩)]
  obtain ⟨buffer, e, hbuffer⟩ := LinePort.takeBytes_body (l := l) (p := { p.select.takeCode requestFrameCode with
    shifted := _, phase := .body, frameLength := _ }) rfl
  have hl : buffer = l := hbuffer (by simpa [LinePort.select, LinePort.takeCode, bodyTop] using h250)
  rw [e, hl]
  simp only [LinePort.deselect, LinePort.takeCode, LinePort.select, LinePort.accept, LinePort.idle, hlen]
  by_cases hi : p.inProgress = none <;> by_cases hu : p.unread = none <;> simp [hi, hu, List.replicate_succ]

/-- Port `q` has ended a malformed frame of `n` bytes after the first, which port `p` began (R177, R178). -/
structure LinePort.Rejects (p q : LinePort) (n : Nat) : Prop where
  inProgress : q.inProgress = p.inProgress
  unread : q.unread = p.unread
  malformed : q.lastMalformed = true
  refused : q.lastRefused = false
  phase : q.phase = .noFrame
  buffer : q.buffer = []
  shifted : q.shifted = p.statusByte :: List.replicate n 0

theorem LinePort.deselect_discard (h : p.phase = .discard) : p.deselect = { p.idle with lastMalformed := true } := by
  simp only [LinePort.deselect, h]

theorem LinePort.deselect_length (h : p.phase = .length) : p.deselect = { p.idle with lastMalformed := true } := by
  simp only [LinePort.deselect, h]

theorem LinePort.deselect_body (h : p.phase = .body) (hn : p.frameCount ≠ p.frameLength) :
    p.deselect = { p.idle with lastMalformed := true } := by
  simp only [LinePort.deselect, h, hn, if_false]

theorem LinePort.deselect_fetch (h : p.phase = .fetch) : p.deselect = p.idle := by
  simp only [LinePort.deselect, h]

theorem LinePort.takeCode_other (h1 : b ≠ requestFrameCode) (h2 : b ≠ fetchFrameCode) : p.takeCode b =
    { p with lastRefused := false, lastMalformed := false, shifted := p.shifted ++ [p.status], phase := .discard } := by
  simp only [LinePort.takeCode, h1, h2, if_false]

/-- A request frame whose length does not fit its body is malformed (R178). -/
theorem LinePort.frame_malformed (hr : x.resumes = none) (hp : x.pauses = none) (h : requestFrameOk l = false) :
    p.Rejects (p.frame x (requestFrameCode :: l)) l.length := by
  rw [LinePort.frame_cons hr hp]
  cases l with
  | nil =>
    rw [List.foldl_nil, LinePort.deselect_length rfl]
    exact ⟨rfl, rfl, rfl, rfl, rfl, rfl, rfl⟩
  | cons len body =>
    rw [List.foldl_cons]
    by_cases hlen : 1 ≤ len.toNat ∧ len.toNat ≤ bodyTop
    · rw [LinePort.takeByte_length rfl hlen]
      obtain ⟨buffer, e, -⟩ := LinePort.takeBytes_body (l := body) (p := { p.select.takeCode requestFrameCode with
        shifted := _, phase := .body, frameLength := _ }) rfl
      rw [e, LinePort.deselect_body rfl]
      · exact ⟨rfl, rfl, rfl, rfl, rfl, rfl, rfl⟩
      · have hbody : body.length ≠ len.toNat := by
          intro e
          simp [requestFrameOk, e, hlen.1] at h
          have := hlen.2
          rw [bodyTop] at this
          omega
        simpa [LinePort.takeCode, LinePort.select] using hbody
    · rw [LinePort.takeByte_badLength rfl hlen, LinePort.takeBytes_discard rfl, LinePort.deselect_discard rfl]
      exact ⟨rfl, rfl, rfl, rfl, rfl, rfl, rfl⟩

/-- A frame of another code is discarded (R177). -/
theorem LinePort.frame_discard (hr : x.resumes = none) (hp : x.pauses = none) (h1 : b ≠ requestFrameCode) (h2 : b ≠ fetchFrameCode) :
    p.Rejects (p.frame x (b :: l)) l.length := by
  rw [LinePort.frame_cons hr hp, LinePort.takeCode_other h1 h2, LinePort.takeBytes_discard rfl, LinePort.deselect_discard rfl]
  exact ⟨rfl, rfl, rfl, rfl, rfl, rfl, rfl⟩

/-- A fetch frame from its code byte on, without a response that waits. -/
theorem LinePort.fetch_none (h : p.unread = none) :
    (l.foldl LinePort.takeByte (p.takeCode fetchFrameCode)).deselect = { p with
      lastRefused := false
      lastMalformed := false
      phase := .noFrame
      buffer := []
      toShift := none
      shifted := p.shifted ++ [p.status] ++ List.replicate l.length 0 } := by
  have ht : (p.takeCode fetchFrameCode).toShift = none := by simp [LinePort.takeCode, LinePort.held, h, requestFrameCode, fetchFrameCode]
  rw [LinePort.takeBytes_fetch_none rfl ht, LinePort.deselect_fetch rfl]
  rfl

/-- A fetch frame from its code byte on, with a response that waits. -/
theorem LinePort.fetch_some {r : List Byte} (h : p.unread = some r) :
    (l.foldl LinePort.takeByte (p.takeCode fetchFrameCode)).deselect = { p with
      lastRefused := false
      lastMalformed := false
      phase := .noFrame
      buffer := []
      toShift := none
      unread := if r.length + 1 ≤ l.length then none else some r
      shifted := p.shifted ++ [p.status] ++ (byte r.length :: r ++ List.replicate l.length 0).take l.length } := by
  have ht : (p.takeCode fetchFrameCode).toShift = some (byte r.length :: r) := by
    simp [LinePort.takeCode, LinePort.held, h, requestFrameCode, fetchFrameCode]
  rw [LinePort.takeBytes_fetch rfl ht (Nat.le_refl _), LinePort.deselect_fetch rfl]
  rw [← h]
  rfl

/-! ## Frames in stretches -/

theorem next_line {q q' : LinePort} (e : q = q') :
    (.next { s with line := q } : Host.Outcome State Fault Refusal) = .next { s with line := q' } := by
  rw [e]

/-- The four commands that bring a frame differ in its bytes alone. -/
theorem exec_frame {f : FrameEdges → Instr} {bytes : List Byte}
    (hf : f = .spiRequestFrame bytes ∨ f = .spiMalformedFrame bytes ∨ f = .spiDiscardFrame bytes ∨ f = .spiFetchFrame bytes) :
    ∃ l, ∀ x s, exec (f x) s = .next { s with line := s.line.frame x l } := by
  rcases hf with rfl | rfl | rfl | rfl <;> exact ⟨_, fun _ _ => rfl⟩

theorem LinePort.frame_select (e : Fin 8) : p.frame ⟨e, none, some 0⟩ l = p.select := by
  simp [LinePort.frame, frameStretch]

/-- The rest of a fetch after its code byte, when that found no response (R180). -/
theorem LinePort.frame_fetchRest (h : p.phase = .fetch) (ht : p.toShift = none) (e : Fin 8) : p.frame ⟨e, some 1, none⟩ (b :: l) =
    { p with phase := .noFrame, buffer := [], toShift := none, shifted := p.shifted ++ List.replicate l.length 0 } := by
  have hrest : p.frame ⟨e, some 1, none⟩ (b :: l) = (l.foldl LinePort.takeByte p).deselect := by
    simp [LinePort.frame, frameStretch]
  rw [hrest, LinePort.takeBytes_fetch_none h ht]
  exact LinePort.deselect_fetch h

theorem LinePort.statusByte_of_none (h : p.unread = none) : p.statusByte &&& 1 = 0 := by
  have hready : p.responseReady = false := by rw [LinePort.responseReady, h]; rfl
  rw [LinePort.statusByte, hready]
  cases p.lastRefused <;> cases p.lastMalformed <;> decide

/-- Settles O50: the bytes of each kind of frame, in one stretch or in several. -/
theorem spiFramesResult : Obligations.SpiFramesResult := by
  unfold Obligations.SpiFramesResult
  refine ⟨fun body x s hr hp h1 h250 => ?_, fun rest x s hr hp h => ?_, fun code rest x s hr hp h1 h2 => ?_, fun x s hr hp => ?_,
    fun bytes x s hr hp => ?_, fun bytes f s hf => ?_, fun bytes r e s h => ⟨LinePort.statusByte_of_none h, ?_, ?_⟩⟩
  · exact next_line (LinePort.frame_request hr hp h1 h250)
  · obtain ⟨hi, hu, hm, hrf, hph, hb, hs⟩ := LinePort.frame_malformed (p := s.line) hr hp h
    exact ⟨_, rfl, hi, hu, hm, hrf, hph, hb, hs⟩
  · obtain ⟨hi, hu, hm, hrf, hph, hb, hs⟩ := LinePort.frame_discard (p := s.line) (l := rest) hr hp h1 h2
    exact ⟨_, rfl, hi, hu, hm, hrf, hph, hb, hs⟩
  · refine ⟨s.line.select.idle, next_line (LinePort.frame_whole hr hp), ?_⟩
    exact ⟨rfl, rfl, rfl, rfl, rfl, rfl⟩
  · have e := LinePort.frame_cons (p := s.line) (b := fetchFrameCode) (l := bytes) hr hp
    cases hu : s.line.unread with
    | none =>
      rw [LinePort.fetch_none (by exact hu)] at e
      refine ⟨_, next_line e, rfl, rfl, rfl, rfl, fun _ => ⟨hu, rfl⟩, ?_⟩
      rintro r ⟨⟩
    | some r =>
      rw [LinePort.fetch_some (r := r) (by exact hu)] at e
      refine ⟨_, next_line e, rfl, rfl, rfl, rfl, nofun, ?_⟩
      rintro _ ⟨⟩
      exact ⟨rfl, rfl⟩
  · obtain ⟨l, hl⟩ := exec_frame hf
    refine ⟨fun x hx hp => ?_, fun x n hr hp => ⟨_, hl _ s, ?_⟩, fun e => ⟨s.line.select, ?_, ?_⟩⟩
    · rw [hl, LinePort.frame_noFrame hp hx]
    · rw [hl, hl]
      exact next_line (LinePort.frame_cut hr hp)
    · rw [hl, LinePort.frame_select]
    · exact ⟨rfl, rfl, rfl, rfl, rfl, rfl, rfl⟩
  · refine ⟨{ s with line := s.line.select }, _, next_line (LinePort.frame_select 0), rfl,
      ?_⟩
    have e : LinePort.frame ⟨e, some 0, none⟩ (fetchFrameCode :: bytes) { s.line.select with inProgress := none, unread := some r } = _ :=
      LinePort.fetch_some rfl
    exact ⟨congrArg LinePort.unread e, congrArg LinePort.shifted e⟩
  · have ht : (s.line.select.takeCode fetchFrameCode).toShift = none := by
      simp [LinePort.takeCode, LinePort.held, h, requestFrameCode, fetchFrameCode]
    have e := LinePort.frame_fetchRest (b := fetchFrameCode) (l := bytes)
      (p := { s.line.select.takeCode fetchFrameCode with inProgress := none, unread := some r }) rfl ht e
    exact ⟨{ s with line := s.line.select.takeCode fetchFrameCode }, _, rfl, rfl, congrArg LinePort.unread e,
      congrArg LinePort.shifted e⟩

end Sys2Proof.Machine
end

section
/-! PROOF. The body of a request is read back as the request it was written from (R34, R181). -/

namespace Sys2Proof

variable {p : Port} {c : Instr} {k : Nat} {f : List Byte}

/-! ## Fields of a known number -/

theorem readExact_one {a x : Nat} (h : fieldsFit [(a, x)] = true) : readExact [a] (fieldBytes [(a, x)]) = some [x] :=
  readExact_fieldBytes h

theorem readExact_two {a b x y : Nat} (h : fieldsFit [(a, x), (b, y)] = true) :
    readExact [a, b] (fieldBytes [(a, x), (b, y)]) = some [x, y] :=
  readExact_fieldBytes h

theorem readExact_three {a b c x y z : Nat} (h : fieldsFit [(a, x), (b, y), (c, z)] = true) :
    readExact [a, b, c] (fieldBytes [(a, x), (b, y), (c, z)]) = some [x, y, z] :=
  readExact_fieldBytes h

theorem readExact_four {a b c d x y z u : Nat} (h : fieldsFit [(a, x), (b, y), (c, z), (d, u)] = true) :
    readExact [a, b, c, d] (fieldBytes [(a, x), (b, y), (c, z), (d, u)]) = some [x, y, z, u] :=
  readExact_fieldBytes h

theorem readExact_five {a b c d e x y z u v : Nat} (h : fieldsFit [(a, x), (b, y), (c, z), (d, u), (e, v)] = true) :
    readExact [a, b, c, d, e] (fieldBytes [(a, x), (b, y), (c, z), (d, u), (e, v)]) = some [x, y, z, u, v] :=
  readExact_fieldBytes h

theorem readFixed_one {a x : Nat} {rest : List Byte} (h : fieldsFit [(a, x)] = true) :
    readFixed [a] (fieldBytes [(a, x)] ++ rest) = some ([x], rest) :=
  readFixed_fieldBytes h rest

theorem readFixed_two {a b x y : Nat} {rest : List Byte} (h : fieldsFit [(a, x), (b, y)] = true) :
    readFixed [a, b] (fieldBytes [(a, x), (b, y)] ++ rest) = some ([x, y], rest) :=
  readFixed_fieldBytes h rest

/-! ## Whole bodies -/

theorem requestCommand_of_read (hk : k < 256) (e : readRequest p k f = some c) :
    requestCommand p (BitVec.ofNat 8 k :: f) = c := by
  rw [requestCommand, BitVec.toNat_ofNat, Nat.mod_eq_of_lt hk, e]
  rfl

/-- The fields of a well-formed request, but for one of an unknown code, are read back. -/
theorem readRequest_fields (hp : requestPort c = some p) (h : c.wf = true) (hk : requestCode c = some k)
    (hc : ∀ n, c ≠ .unknownRequest p n) : readRequest p k (fieldBytes (fixedFields c) ++ tailBytes c) = some c := by
  cases c <;> cases hp <;> cases hk
  case unknownRequest => exact absurd rfl (hc k)
  case readEvents => rfl
  case clearEvents => simp [readRequest, fixedFields, tailBytes, fieldBytes]
  case setDevice => simp [readRequest, fixedFields, tailBytes, fieldBytes, readList_listBytes deviceWidth_fit h]
  case create =>
    obtain ⟨hfields, hlist⟩ := Bool.and_eq_true_iff.mp h
    simp [readRequest, fixedFields, tailBytes, readFixed_two hfields, readList_listBytes (specWidth_fit _) hlist]
  case amend =>
    obtain ⟨hfields, hlist⟩ := Bool.and_eq_true_iff.mp h
    simp [readRequest, fixedFields, tailBytes, readFixed_two hfields, readList_listBytes (specWidth_fit _) hlist]
  case setHead =>
    obtain ⟨hfields, hlist⟩ := Bool.and_eq_true_iff.mp h
    simp [readRequest, fixedFields, tailBytes, readFixed_one hfields, readList_listBytes settingWidth_fit hlist]
  case lookup | readSpans | release | clearQueue | headStatus | setClock =>
    simp [readRequest, fixedFields, tailBytes, readExact_one h]
  case readSources | conclude | band | retire | unbindFeed => simp [readRequest, fixedFields, tailBytes, readExact_two h]
  case nextRecord | bindProduct | bindSource => simp [readRequest, fixedFields, tailBytes, readExact_three h]
  case bindFeed | enqueue => simp [readRequest, fixedFields, tailBytes, readExact_four h]
  case addSpan => simp [readRequest, fixedFields, tailBytes, readExact_five h]

/-- A body without fields, or of READ_EVENTS with one byte too many, is of no request (R34). -/
theorem readRequest_unknown (p : Port) (k : Nat) : readRequest p k (if k = 0x21 then [0] else []) = none := by
  by_cases h : k = 0x21
  · rw [if_pos h, h]
    rfl
  · rw [if_neg h]
    unfold readRequest
    split
    case h_21 => exact absurd rfl h
    all_goals rfl

theorem requestCommand_unknown (hk : k < 256) : requestCommand p (requestBody (.unknownRequest p k)) = .unknownRequest p k := by
  have hbyte : (BitVec.ofNat 8 k).toNat = k := by rw [BitVec.toNat_ofNat, Nat.mod_eq_of_lt hk]
  simp only [requestBody, requestCode, fixedFields, tailBytes, fieldBytes, List.flatMap_nil, List.nil_append, requestCommand, hbyte,
    readRequest_unknown, Option.getD_none]

theorem requestCode_lt (hp : requestPort c = some p) (hc : ∀ n, c ≠ .unknownRequest p n) : ∃ k, requestCode c = some k ∧ k < 256 := by
  cases c <;> cases hp
  case unknownRequest n => exact absurd rfl (hc n)
  all_goals exact ⟨_, rfl, by decide⟩

end Sys2Proof

namespace Sys2Proof.Machine

/-- Settles O58: the fields of a body are those it was written from. -/
theorem requestBodyReadsBack : Obligations.RequestBodyReadsBack := by
  unfold Obligations.RequestBodyReadsBack
  intro c p hp h
  by_cases hc : ∃ n, c = .unknownRequest p n
  · obtain ⟨n, rfl⟩ := hc
    exact requestCommand_unknown (of_decide_eq_true h)
  · obtain ⟨k, hk, hlt⟩ := requestCode_lt hp fun n e => hc ⟨n, e⟩
    rw [requestBody, hk]
    exact requestCommand_of_read hlt (readRequest_fields hp h hk fun n e => hc ⟨n, e⟩)

end Sys2Proof.Machine
end

section
/-! PROOF. The refusals of a request on a head, in the order of R65. -/

namespace Sys2Proof.Machine

variable {c : Instr} {p : Port} {n tag : Nat} {m : Mark} {s : State} {body : List Byte} {r : Record} {h : HeadIx} {k : MachineKind}

/-! ## Bindings -/

theorem answerOf_bind_noHead (hc : requestPort c = some .lineComputer) (ho : c.bindOperand = some (n, tag, m))
    (e : s.presentHead n = none) : answerOf c s = s.refuse .noHead := by
  cases c <;> cases ho <;> cases hc
  case bindProduct => simp [answerOf, answerBindProduct, fromLine, e]
  case bindSource => simp [answerOf, answerBindSource, fromLine, e]
  case bindFeed => simp [answerOf, answerBindFeed, fromLine, e]

theorem answerOf_bind_notFound (hc : requestPort c = some .lineComputer) (ho : c.bindOperand = some (n, tag, m))
    (e : s.presentHead n = some h) (er : s.find tag = none) : answerOf c s = s.refuse .notFound := by
  cases c <;> cases ho <;> cases hc
  case bindProduct => simp [answerOf, answerBindProduct, fromLine, e, er]
  case bindSource => simp [answerOf, answerBindSource, fromLine, e, er]
  case bindFeed => simp [answerOf, answerBindFeed, fromLine, e, er]

theorem MachineKind.product_isSome (k : MachineKind) : k ≠ .coiler ↔ k.product ≠ none := by
  cases k <;> simp [MachineKind.product]

theorem Head.hasFeeds_iff {x : Head} : x.hasFeeds = true ↔ x.kind = some .closer ∨ x.kind = some .loom := by
  simp [Head.hasFeeds]

theorem answerOf_bind_unsuited (hc : requestPort c = some .lineComputer) (ho : c.bindOperand = some (n, tag, m))
    (e : s.presentHead n = some h) (er : s.find tag = some r) (hk : ∀ k, (s.head h).kind = some k → suitsMachine c k = false) :
    answerOf c s = s.refuse .noHead := by
  cases c <;> cases ho <;> cases hc <;> simp only [suitsMachine, decide_eq_false_iff_not, not_not] at hk
  case bindProduct =>
    have hnone : (s.head h).kind.bind MachineKind.product = none :=
      Option.bind_eq_none_iff.mpr fun k hx => by rw [hk k hx]; rfl
    simp [answerOf, answerBindProduct, fromLine, e, er, hnone]
  case bindSource =>
    have hno : (s.head h).kind ≠ some .coiler := fun hx => hk _ hx rfl
    simp [answerOf, answerBindSource, fromLine, e, er, hno]
  case bindFeed =>
    have hno : (s.head h).hasFeeds = false := by
      rw [← Bool.not_eq_true, Head.hasFeeds_iff]
      rintro (hx | hx) <;> simpa using hk _ hx
    simp [answerOf, answerBindFeed, fromLine, e, er, hno]

theorem answerOf_bind_wrongKind (hc : requestPort c = some .lineComputer) (ho : c.bindOperand = some (n, tag, m))
    (e : s.presentHead n = some h) (er : s.find tag = some r) (hk : (s.head h).kind = some k) (hm : suitsMachine c k = true)
    (hr : suitsRecord c k r.kind = false) : answerOf c s = s.refuse .wrongKind := by
  cases c <;> cases ho <;> cases hc <;> simp only [suitsMachine, suitsRecord, MachineKind.binds, decide_eq_true_eq] at hm hr
  case bindProduct =>
    obtain ⟨x, hx⟩ := Option.ne_none_iff_exists'.mp (k.product_isSome.mp hm)
    have : r.kind ≠ x := fun hrx => by simp [hx, hrx] at hr
    simp [answerOf, answerBindProduct, fromLine, e, er, hk, hx, this]
  case bindSource =>
    have : r.kind ≠ .rope := by simpa [hm] using hr
    simp [answerOf, answerBindSource, fromLine, e, er, hk, hm, this]
  case bindFeed =>
    have hfeeds : (s.head h).hasFeeds = true := Head.hasFeeds_iff.mpr (by simpa [hk] using hm)
    cases hb : r.body <;> simp [Record.kind, hb, Body.kind] at hr <;> simp [answerOf, answerBindFeed, fromLine, e, er, hfeeds, hb]

/-- BIND_PRODUCT on a record of the head's kind: what is left is the state of the head, that of the record, and the mark. -/
theorem answerBindProduct_suits (e : s.presentHead n = some h) (er : s.find tag = some r) (hk : (s.head h).kind = some k)
    (hr : k.product = some r.kind) : answerBindProduct .lineComputer n tag m s =
      if (s.head h).state ≠ .idle then s.refuse .wrongState
      else if r.state ≠ .draft ∧ r.state ≠ .interrupted then s.refuse .wrongState
      else if m ≠ r.mark then (s, Reply.stale r.mark)
      else s.doneMark tag (State.bindProduct h r) := by
  simp [answerBindProduct, fromLine, e, er, hk, hr]

theorem answerBindSource_suits (e : s.presentHead n = some h) (er : s.find tag = some r) (hk : (s.head h).kind = some .coiler)
    (hr : r.kind = .rope) : answerBindSource .lineComputer n tag m s =
      if (s.head h).state ≠ .idle then s.refuse .wrongState
      else if r.state ≠ .made then s.refuse .wrongState
      else if m ≠ r.mark then (s, Reply.stale r.mark)
      else s.doneMark tag (State.bindSource h tag) := by
  simp [answerBindSource, fromLine, e, er, hk, hr]

theorem answerBindFeed_suits {slot : Nat} {b : StrandBody} (e : s.presentHead n = some h) (er : s.find tag = some r)
    (hk : (s.head h).hasFeeds = true) (hr : r.body = .strand b) : answerBindFeed .lineComputer n slot tag m s =
      if !(s.head h).state.takesFeeds then s.refuse .wrongState
      else if !(s.head h).slotFree slot then s.refuse .wrongState
      else if r.state ≠ .made then s.refuse .wrongState
      else if m ≠ r.mark then (s, Reply.stale r.mark)
      else answerBindFeed .lineComputer n slot tag m s := by
  simp only [answerBindFeed, fromLine, e, er, hk, hr, Bool.not_true, if_false, Bool.false_eq_true]
  split_ifs <;> rfl

theorem Record.body_of_strand (hr : r.kind = .strand) : ∃ b, r.body = .strand b := by
  cases hb : r.body <;> simp [Record.kind, hb, Body.kind] at hr
  exact ⟨_, rfl⟩

theorem answerOf_bind_wrongState (hc : requestPort c = some .lineComputer) (ho : c.bindOperand = some (n, tag, m))
    (e : s.presentHead n = some h) (er : s.find tag = some r) (hk : (s.head h).kind = some k) (hm : suitsMachine c k = true)
    (hr : suitsRecord c k r.kind = true) (hst : readyFor c (s.head h) = false ∨ bindableIn c r.state = false) :
    answerOf c s = s.refuse .wrongState := by
  cases c <;> cases ho <;> cases hc <;>
    simp only [suitsMachine, suitsRecord, MachineKind.binds, readyFor, bindableIn, decide_eq_true_eq, decide_eq_false_iff_not,
      Bool.and_eq_true, Bool.and_eq_false_iff, not_or] at hm hr hst
  case bindProduct =>
    refine (answerBindProduct_suits e er hk hr).trans ?_
    rcases hst with hst | hst <;> simp [hst]
  case bindSource =>
    refine (answerBindSource_suits e er (hm ▸ hk) hr.2).trans ?_
    rcases hst with hst | hst <;> simp [hst]
  case bindFeed =>
    obtain ⟨b, hb⟩ := Record.body_of_strand hr
    refine (answerBindFeed_suits e er (Head.hasFeeds_iff.mpr (by simpa [hk] using hm)) hb).trans ?_
    rcases hst with (hst | hst) | hst <;> simp [hst]

theorem answerOf_bind_stale (hc : requestPort c = some .lineComputer) (ho : c.bindOperand = some (n, tag, m))
    (e : s.presentHead n = some h) (er : s.find tag = some r) (hk : (s.head h).kind = some k) (hm : suitsMachine c k = true)
    (hr : suitsRecord c k r.kind = true) (hready : readyFor c (s.head h) = true) (hst : bindableIn c r.state = true)
    (hmark : m ≠ r.mark) : answerOf c s = (s, Reply.stale r.mark) := by
  cases c <;> cases ho <;> cases hc <;>
    simp only [suitsMachine, suitsRecord, MachineKind.binds, readyFor, bindableIn, decide_eq_true_eq, Bool.and_eq_true] at hm hr hready hst
  case bindProduct =>
    refine (answerBindProduct_suits e er hk hr).trans ?_
    rcases hst with hst | hst <;> simp [hready, hst, hmark]
  case bindSource =>
    refine (answerBindSource_suits e er (hm ▸ hk) hr.2).trans ?_
    simp [hready, hst, hmark]
  case bindFeed =>
    obtain ⟨b, hb⟩ := Record.body_of_strand hr
    refine (answerBindFeed_suits e er (Head.hasFeeds_iff.mpr (by simpa [hk] using hm)) hb).trans ?_
    simp [hready, hst, hmark]

/-- The last checks of BIND_FEED: the slot index, and the room in the product's source list. -/
theorem answerBindFeed_last {slot : Nat} {b : StrandBody} (e : s.presentHead n = some h) (er : s.find tag = some r)
    (hk : (s.head h).hasFeeds = true) (hr : r.body = .strand b) (hf : (s.head h).state.takesFeeds = true)
    (hs : (s.head h).slotFree slot = true) (hst : r.state = .made) (hm : m = r.mark) :
    (3 < slot → answerBindFeed .lineComputer n slot tag m s = s.refuse .badField) ∧
      ∀ i q, slotOf slot = some i → s.productOf h = some q → answerBindFeed .lineComputer n slot tag m s =
        if sourceCap ≤ q.body.sources.length then s.refuse .full else s.doneMark tag (State.bindFeed h i r b q) := by
  constructor
  · intro h3
    simp [answerBindFeed, fromLine, e, er, hk, hr, hf, hs, hst, hm, slotOf_of_le h3]
  · intro i q hi hq
    simp [answerBindFeed, fromLine, e, er, hk, hr, hf, hs, hst, hm, hi, hq]

/-! ## The other requests on a head -/

theorem answerUnbindFeed_present {slot : Nat} (e : s.presentHead n = some h) :
    answerUnbindFeed .lineComputer n slot s =
      if !(s.head h).hasFeeds then s.refuse .noHead
      else if !(s.head h).state.takesFeeds then s.refuse .wrongState
      else if !(s.head h).slotFilled slot then s.refuse .wrongState
      else answerUnbindFeed .lineComputer n slot s := by
  simp only [answerUnbindFeed, fromLine, e, Bool.not_true, if_false, Bool.false_eq_true]
  split_ifs <;> rfl

theorem answerUnbindFeed_badField {slot : Nat} (e : s.presentHead n = some h) (hk : (s.head h).hasFeeds = true)
    (hf : (s.head h).state.takesFeeds = true) (h3 : 3 < slot) : answerUnbindFeed .lineComputer n slot s = s.refuse .badField := by
  simp [answerUnbindFeed, fromLine, e, hk, hf, Head.slotFilled, slotOf_of_le h3]

theorem answerUnbindFeed_noHead {slot : Nat} (e : s.presentHead n = none) :
    answerUnbindFeed .lineComputer n slot s = s.refuse .noHead := by
  simp [answerUnbindFeed, fromLine, e]

theorem answerEnqueue_noHead {length count rule : Nat} (e : s.presentHead n = none ∨ ∃ h, s.presentHead n = some h ∧
    (s.head h).kind ≠ some .coiler) : answerEnqueue .lineComputer n length count rule s = s.refuse .noHead := by
  rcases e with e | ⟨h, e, hk⟩
  · simp [answerEnqueue, fromLine, e]
  · simp [answerEnqueue, fromLine, e, hk]

theorem answerClearQueue_noHead (e : s.presentHead n = none ∨ ∃ h, s.presentHead n = some h ∧ (s.head h).kind ≠ some .coiler) :
    answerClearQueue .lineComputer n s = s.refuse .noHead := by
  rcases e with e | ⟨h, e, hk⟩
  · simp [answerClearQueue, fromLine, e]
  · simp [answerClearQueue, fromLine, e, hk]

/-- The head index of a queue request names no coiler. -/
theorem State.presentHead_noCoiler (hno : (s.head h).state = .empty ∨ (s.head h).kind ≠ some .coiler) :
    s.presentHead h.val = none ∨ ∃ k, s.presentHead h.val = some k ∧ (s.head k).kind ≠ some .coiler := by
  by_cases he : (s.head h).state = .empty
  · exact .inl (State.presentHead_empty he)
  · exact .inr ⟨h, State.presentHead_val he, hno.resolve_left he⟩

theorem answerRelease_noHead (hp : s.mayRelease p n = true) (e : s.presentHead n = none) : answerRelease p n s = s.refuse .noHead := by
  simp [answerRelease, hp, e]

theorem answerRelease_idle (hp : s.mayRelease p n = true) (e : s.presentHead n = some h) (hi : (s.head h).state = .idle) :
    answerRelease p n s = s.refuse .wrongState := by
  simp [answerRelease, hp, e, hi]

/-- ENQUEUE at a coiler: its fields, then the room in the queue. -/
theorem answerEnqueue_coiler {length count rule : Nat} (e : s.presentHead n = some h) (hk : (s.head h).kind = some .coiler) :
    (orderOf length count rule = none → answerEnqueue .lineComputer n length count rule s = s.refuse .badField) ∧
      ∀ o, orderOf length count rule = some o → answerEnqueue .lineComputer n length count rule s =
        if queueCap ≤ (s.head h).queue.length then s.refuse .full
        else (s.change (State.enqueue h o), Reply.done [byte ((s.change (State.enqueue h o)).head h).queue.length]) := by
  constructor
  · intro ho
    simp [answerEnqueue, fromLine, e, hk, ho]
  · intro o ho
    simp [answerEnqueue, fromLine, e, hk, ho]

theorem orderOf_none {length count rule : Nat} (h : length < 1000 ∨ 4000000000 < length ∨ count = 0 ∨ 255 < count ∨
    gradeRuleOf rule = none) : orderOf length count rule = none := by
  unfold orderOf
  split
  case isTrue hin =>
    have hg : gradeRuleOf rule = none :=
      (((h.resolve_left (by omega)).resolve_left (by omega)).resolve_left (by omega)).resolve_left (by omega)
    rw [hg]
    rfl
  case isFalse => rfl

/-- Settles O43: the checks of the requests on a head, in the order of R65. -/
theorem headRefusals : Obligations.HeadRefusals := by
  unfold Obligations.HeadRefusals
  constructor
  · intro c n tag m s body a hc ho refused
    refine ⟨fun hn => exec_refused a hc (answerOf_bind_noHead hc ho (State.presentHead_of_le hn)), ?_⟩
    rintro h rfl
    refine ⟨fun he => exec_refused a hc (answerOf_bind_noHead hc ho (State.presentHead_empty he)), fun he => ?_⟩
    have e := State.presentHead_val he
    refine ⟨fun er => exec_refused a hc (answerOf_bind_notFound hc ho e er), fun r er => ?_⟩
    refine ⟨fun hk => exec_refused a hc (answerOf_bind_unsuited hc ho e er hk), fun k hk hm => ?_⟩
    refine ⟨fun hr => exec_refused a hc (answerOf_bind_wrongKind hc ho e er hk hm hr), fun hr => ?_⟩
    refine ⟨fun hst => exec_refused a hc (answerOf_bind_wrongState hc ho e er hk hm hr hst), fun hready hst => ?_⟩
    refine ⟨fun hmark => exec_answer a hc (answerOf_bind_stale hc ho e er hk hm hr hready hst hmark), ?_⟩
    rintro slot rfl hmark
    obtain ⟨b, hb⟩ := Record.body_of_strand (of_decide_eq_true hr)
    obtain ⟨hfeeds, hslot⟩ := Bool.and_eq_true_iff.mp hready
    obtain ⟨hbad, hlast⟩ := answerBindFeed_last e er (Head.hasFeeds_iff.mpr (by simpa [hk] using of_decide_eq_true hm)) hb hfeeds hslot
      (of_decide_eq_true hst) hmark
    refine ⟨fun h3 => exec_refused a hc (hbad h3), fun q h3 hq hfull => exec_refused (x := .full) a hc ?_⟩
    exact (hlast ⟨slot, by omega⟩ q (slotOf_eq_some.mpr rfl) hq).trans (if_pos hfull)
  · intro c p n s body a hc hp refused
    refine ⟨?_, ?_, ?_, ?_⟩
    · rintro slot rfl rfl
      refine ⟨fun hn => exec_refused a hc (answerUnbindFeed_noHead (State.presentHead_of_le hn)), ?_⟩
      rintro h rfl
      refine ⟨fun he => exec_refused a hc (answerUnbindFeed_noHead (State.presentHead_empty he)), fun he => ?_⟩
      have e := State.presentHead_val he
      refine ⟨fun h1 h2 => exec_refused (x := .noHead) a hc ?_, fun hk => ⟨fun hst => exec_refused (x := .wrongState) a hc ?_,
        fun hf h3 => exec_refused a hc (answerUnbindFeed_badField e (Head.hasFeeds_iff.mpr hk) hf h3)⟩⟩
      · have hfeeds : (s.head h).hasFeeds = false := by simp [Head.hasFeeds, h1, h2]
        exact (answerUnbindFeed_present e).trans (by simp [hfeeds])
      · refine (answerUnbindFeed_present e).trans ?_
        rcases hst with hst | hst <;> simp [hst, Head.hasFeeds_iff.mpr hk]
    · rintro rfl
      refine ⟨?_, ?_⟩
      · rintro rfl hn
        exact exec_refused a hc (answerRelease_noHead rfl (State.presentHead_of_le hn))
      · rintro h rfl
        have hmay : s.mayRelease p h.val = true := by
          rcases hp with rfl | hp
          · rfl
          · exact hp
        refine ⟨fun he => exec_refused a hc (answerRelease_noHead hmay (State.presentHead_empty he)), fun hi => ?_⟩
        exact exec_refused a hc (answerRelease_idle hmay (State.presentHead_val (by simp [hi])) hi)
    · rintro length count rule rfl rfl
      refine ⟨fun hn => exec_refused a hc (answerEnqueue_noHead (.inl (State.presentHead_of_le hn))), ?_⟩
      rintro h rfl
      constructor
      · exact fun hno => exec_refused a hc (answerEnqueue_noHead (State.presentHead_noCoiler hno))
      · intro he hk
        obtain ⟨hbad, hroom⟩ := answerEnqueue_coiler (length := length) (count := count) (rule := rule) (State.presentHead_val he) hk
        refine ⟨fun hout => exec_refused a hc (hbad (orderOf_none hout)), fun h1 h2 h3 h4 hg hfull => ?_⟩
        obtain ⟨g, hg⟩ := Option.isSome_iff_exists.mp hg
        have ho : orderOf length count rule = some ⟨length, count, g⟩ := by simp [orderOf, h1, h2, h3, h4, hg]
        exact exec_refused (x := .full) a hc ((hroom _ ho).trans (if_pos hfull))
    · rintro rfl rfl
      refine ⟨fun hn => exec_refused a hc (answerClearQueue_noHead (.inl (State.presentHead_of_le hn))), ?_⟩
      rintro h rfl hno
      exact exec_refused a hc (answerClearQueue_noHead (State.presentHead_noCoiler hno))

end Sys2Proof.Machine
end

section
/-! PROOF. The planning decision of a coiler, and the search for a coil tag. -/

namespace Sys2Proof.Machine

variable {lmin e top n : Nat} {queue : List CoilOrder} {spans : List Span} {o : CoilOrder} {x t : Span}

/-! ## The decision -/

theorem overlap_eq_false {a b c d : Nat} : overlap a b c d = false ↔ min b d ≤ max a c := by
  rw [overlap, decide_eq_false_iff_not, Nat.not_lt]

theorem overlap_eq_true {a b c d : Nat} : overlap a b c d = true ↔ max a c < min b d := by
  rw [overlap, decide_eq_true_iff]

/-- The candidate of an order: the top of the rope, as long as the order asks or as the rope is (R155). -/
def CoilOrder.reach (o : CoilOrder) (e : Nat) : Nat := min o.length e

theorem CoilOrder.reach_le (o : CoilOrder) (e : Nat) : o.reach e ≤ e := Nat.min_le_right _ _

/-- The spans of a rope that a candidate of length `n` meets. -/
def crossed (n e : Nat) (spans : List Span) : List Span := spans.filter fun x => overlap (e - n) e x.lo x.hi

theorem mem_crossed : x ∈ crossed n e spans ↔ x ∈ spans ∧ overlap (e - n) e x.lo x.hi = true := List.mem_filter

theorem planSegment_order (he : lmin ≤ e) {rest : List CoilOrder} (hq : queue = o :: rest) :
    ((crossed (o.reach e) e spans).getLast? = none →
      planSegment lmin e queue spans = .coil (o.reach e) .first (decide (o.reach e < o.length))) ∧
    (∀ t, (crossed (o.reach e) e spans).getLast? = some t → o.rule = .secondOk →
      planSegment lmin e queue spans = .coil (o.reach e) .second (decide (o.reach e < o.length))) ∧
    ∀ t, (crossed (o.reach e) e spans).getLast? = some t → o.rule = .firstOnly →
      planSegment lmin e queue spans = if lmin ≤ e - t.hi then .coil (e - t.hi) .first true else .waste (e - t.lo) := by
  subst hq
  have hn : ¬e < lmin := by omega
  refine ⟨fun h => ?_, fun t h hr => ?_, fun t h hr => ?_⟩ <;> rw [crossed, CoilOrder.reach] at h
  · simp only [planSegment, if_neg hn, h]
    rfl
  · simp only [planSegment, if_neg hn, h, hr]
    rfl
  · simp only [planSegment, if_neg hn, h, hr]

theorem crossed_getLast_none : (crossed n e spans).getLast? = none ↔ ∀ x ∈ spans, overlap (e - n) e x.lo x.hi = false := by
  simp [crossed]

/-- The last span that a candidate meets is the one that reaches highest. -/
theorem crossed_getLast_some (hs : SpansOk top spans) (ht : (crossed n e spans).getLast? = some t) :
    t ∈ spans ∧ overlap (e - n) e t.lo t.hi = true ∧ ∀ y ∈ spans, overlap (e - n) e y.lo y.hi = true → y = t ∨ y.hi < t.lo := by
  have hne : ∀ s ∈ spans, s.lo < s.hi := fun s hs' => (hs.spans s hs').nonempty
  obtain ⟨hmem, hover, hlast⟩ := last_filter_le hs.apart hne ht
  refine ⟨hmem, hover, fun y hy hyo => ?_⟩
  have hlo := hlast y hy hyo
  have := hne t hmem
  rcases apart_of_mem hs.apart hy hmem with h | h | h
  · exact .inl h
  · exact .inr h
  · omega

/-- Above the highest span that a candidate meets the rope is clear. -/
theorem clear_above_last (hs : SpansOk top spans) (ht : (crossed n e spans).getLast? = some t) (hlt : t.hi < e) :
    ∀ y ∈ spans, overlap (e - (e - t.hi)) e y.lo y.hi = false := by
  obtain ⟨hmem, hover, hlast⟩ := crossed_getLast_some hs ht
  intro y hy
  rw [← Bool.not_eq_true]
  intro hyo
  rw [overlap_eq_true] at hyo hover
  have := (hs.spans t hmem).nonempty
  rcases hlast y hy (by rw [overlap_eq_true]; omega) with rfl | h <;> omega

/-- A plan is no longer than the rope, and a FIRST coil meets no span (R155, R162). -/
theorem planSegment_bounds (hl : 0 < lmin) (hs : SpansOk top spans) :
    (∀ n, planSegment lmin e queue spans = .waste n → n ≤ e) ∧
    ∀ n g short, planSegment lmin e queue spans = .coil n g short → n ≤ e ∧
      (g = .first → ∀ x ∈ spans, overlap (e - n) e x.lo x.hi = false) := by
  by_cases he : e < lmin
  · simp only [planSegment, if_pos he]
    exact ⟨fun n h => by cases h; omega, nofun⟩
  · cases hq : queue with
    | nil =>
      simp only [planSegment, if_neg he]
      exact ⟨nofun, nofun⟩
    | cons o rest =>
      obtain ⟨hclear, hsecond, hfirst⟩ := planSegment_order (spans := spans) (Nat.not_lt.mp he) (rfl : o :: rest = _)
      cases ht : (crossed (o.reach e) e spans).getLast? with
      | none =>
        rw [hclear ht]
        exact ⟨nofun, fun n g short h => by cases h; exact ⟨o.reach_le e, fun _ => crossed_getLast_none.mp ht⟩⟩
      | some t =>
        cases hr : o.rule with
        | secondOk =>
          rw [hsecond t ht hr]
          exact ⟨nofun, fun n g short h => by cases h; exact ⟨o.reach_le e, nofun⟩⟩
        | firstOnly =>
          rw [hfirst t ht hr]
          by_cases hroom : lmin ≤ e - t.hi
          · rw [if_pos hroom]
            exact ⟨nofun, fun n g short h => by cases h; exact ⟨by omega, fun _ => clear_above_last hs ht (by omega)⟩⟩
          · rw [if_neg hroom]
            exact ⟨fun n h => by cases h; omega, nofun⟩

/-! ## The search for a coil tag -/

/-- The step of a coil serial, as R149 has it. -/
def stepSerial (x : Nat) : Nat := if x = 4294967295 then 1 else x + 1

theorem stepSerial_eq (h : n ≤ serialTop) : nextSerial n = stepSerial n := by
  unfold nextSerial stepSerial serialTop at *
  split_ifs <;> omega

theorem stepSerial_iterate (hn : 1 ≤ n ∧ n ≤ serialTop) (j : Nat) : stepSerial^[j] n = (n - 1 + j) % serialTop + 1 := by
  unfold serialTop at *
  induction j with
  | zero => rw [Function.iterate_zero_apply]; omega
  | succ j ih =>
    rw [Function.iterate_succ_apply', ih, stepSerial]
    split_ifs <;> omega

/-- The search finds the first serial whose tag is not live, or none in as many steps as it may take. -/
theorem findSerial_first {live : Nat → Bool} {pre : Nat} : ∀ {fuel n : Nat}, (1 ≤ n ∧ n ≤ serialTop) →
    ∀ {k : Nat}, k < fuel → live (coilTag pre (stepSerial^[k] n)) = false →
      (∀ j < k, live (coilTag pre (stepSerial^[j] n)) = true) → findSerial live pre fuel n = some (stepSerial^[k] n)
  | fuel + 1, n, hn, 0, _, hfree, _ => by
    rw [Function.iterate_zero_apply] at hfree
    rw [findSerial, if_neg (by simp [hfree]), Function.iterate_zero_apply]
  | fuel + 1, n, hn, k + 1, hk, hfree, hlive => by
    have h0 := hlive 0 (by omega)
    rw [Function.iterate_zero_apply] at h0
    rw [findSerial, if_pos h0, stepSerial_eq hn.2, Function.iterate_succ_apply]
    exact findSerial_first (stepSerial_eq hn.2 ▸ nextSerial_range hn) (by omega) hfree fun j hj => hlive (j + 1) (by omega)

/-- In a store with a free place some serial of 256 in a row has a tag that is not live. -/
theorem State.exists_free_serial {s : State} (hroom : s.store.length < 256) (hn : 1 ≤ n ∧ n ≤ serialTop) (pre : Nat) :
    ∃ k < 256, s.live (coilTag pre (stepSerial^[k] n)) = false := by
  by_contra hall
  have hlive (k : Nat) (hk : k < 256) : s.live (coilTag pre (stepSerial^[k] n)) = true := by
    by_contra hno
    exact hall ⟨k, hk, by simpa using hno⟩
  have hsub : (Finset.range 256).image (fun k => coilTag pre (stepSerial^[k] n)) ⊆ (s.store.map Record.tag).toFinset := by
    intro tag htag
    obtain ⟨k, hk, rfl⟩ := Finset.mem_image.mp htag
    obtain ⟨r, hr⟩ := Option.isSome_iff_exists.mp (hlive k (Finset.mem_range.mp hk))
    obtain ⟨hmem, htag⟩ := State.find_mem hr
    exact List.mem_toFinset.mpr (List.mem_map.mpr ⟨r, hmem, htag⟩)
  have hinj : Set.InjOn (fun k => coilTag pre (stepSerial^[k] n)) (Finset.range 256 : Finset Nat) := by
    intro a ha b hb hab
    simp only [Finset.coe_range, Set.mem_Iio] at ha hb
    simp only [coilTag, stepSerial_iterate hn, serialTop] at hab
    omega
  have hcard := Finset.card_le_card hsub
  rw [Finset.card_image_of_injOn hinj, Finset.card_range] at hcard
  have := List.toFinset_card_le (s.store.map Record.tag)
  rw [List.length_map] at this
  omega

/-- Settles O45: the plan by the highest span that the candidate meets, and the search by counting the tags it can meet. -/
theorem planDecision : Obligations.PlanDecision := by
  unfold Obligations.PlanDecision
  constructor
  · intro lmin e top queue spans he hl hs
    obtain ⟨hwaste, hcoil⟩ := planSegment_bounds (e := e) (queue := queue) hl hs
    refine ⟨fun h => if_pos h, fun h hq => by simp [planSegment, hq, Nat.not_lt.mpr h], ?_, hwaste, hcoil⟩
    intro o rest h hq n
    obtain ⟨hclear, hsecond, hfirst⟩ := planSegment_order (spans := spans) h hq
    refine ⟨fun hx => hclear (crossed_getLast_none.mpr hx), fun hr hx => ?_, fun x hx hr hover hmax => ?_⟩
    · obtain ⟨x, hx, hover⟩ := hx
      obtain ⟨t, ht⟩ := Option.ne_none_iff_exists'.mp fun h => by
        rw [crossed_getLast_none.mp h x hx] at hover
        cases hover
      exact hsecond t ht hr
    · obtain ⟨t, ht⟩ := Option.ne_none_iff_exists'.mp fun h => by
        rw [crossed_getLast_none.mp h x hx] at hover
        cases hover
      obtain ⟨hmem, htover, hlast⟩ := crossed_getLast_some hs ht
      have hle := hmax t hmem htover
      have := (hs.spans t hmem).nonempty
      obtain rfl : x = t := (hlast x hx hover).resolve_right (by omega)
      exact hfirst x ht hr
  · intro s S C hroom
    have hfree := State.exists_free_serial hroom C.serialRange s.coilPrefix
    let k := Nat.find hfree
    obtain ⟨hk, hlive⟩ := Nat.find_spec hfree
    have hbefore (j : Nat) (hj : j < k) : s.live (coilTag s.coilPrefix (stepSerial^[j] s.coilSerial)) = true := by
      by_contra hno
      exact Nat.find_min hfree hj ⟨by omega, by simpa using hno⟩
    have hfind := findSerial_first C.serialRange hk hlive hbefore
    obtain ⟨hrange, -⟩ := findSerial_spec C.serialRange hfind
    exact ⟨_, hfind, hrange.1, hrange.2, hlive, k, hk, rfl, hbefore⟩

end Sys2Proof.Machine
end

section
/-! PROOF. Normalization: what the gathered span covers, and which neighbour merge-nearest takes (R25, R26). -/

namespace Sys2Proof.Machine

variable {top : Nat} {n x y a : Span} {l : List Span}

/-! ## Sets of kinds -/

/-- Every kind of `b` is in `a`. -/
def KindSet.Has (a b : KindSet) : Prop := a.union b = a

theorem KindSet.union_has_left (a b : KindSet) : (a.union b).Has a := by
  simp [KindSet.Has, KindSet.union, Bool.or_comm]

theorem KindSet.union_has_right (a b : KindSet) : (a.union b).Has b := by
  simp [KindSet.Has, KindSet.union]

theorem KindSet.has_refl (a : KindSet) : a.Has a := by
  simp [KindSet.Has, KindSet.union]

theorem KindSet.Has.union {a b : KindSet} (h : a.Has b) (c : KindSet) : (a.union c).Has b := by
  simp only [KindSet.Has, KindSet.union, KindSet.mk.injEq] at h ⊢
  grind

/-! ## Gathering -/

theorem gather_lo (l : List Span) (n : Span) : (l.foldl Span.unite n).lo = l.foldl (fun a x => min a x.lo) n.lo := by
  induction l generalizing n with
  | nil => rfl
  | cons x l ih => rw [List.foldl_cons, ih]; rfl

theorem gather_hi (l : List Span) (n : Span) : (l.foldl Span.unite n).hi = l.foldl (fun a x => max a x.hi) n.hi := by
  induction l generalizing n with
  | nil => rfl
  | cons x l ih => rw [List.foldl_cons, ih]; rfl

theorem gather_kinds (l : List Span) (n : Span) : (l.foldl Span.unite n).kinds = l.foldl (fun a x => a.union x.kinds) n.kinds := by
  induction l generalizing n with
  | nil => rfl
  | cons x l ih => rw [List.foldl_cons, ih]; rfl

theorem gather_holders (l : List Span) (n : Span) :
    (l.foldl Span.unite n).holders = l.foldl (fun a x => a.union x.holders) n.holders := by
  induction l generalizing n with
  | nil => rfl
  | cons x l ih => rw [List.foldl_cons, ih]; rfl

theorem gather_has (l : List Span) {k : KindSet} (h : n.kinds.Has k) : (l.foldl Span.unite n).kinds.Has k := by
  induction l generalizing n with
  | nil => exact h
  | cons x l ih => exact ih (n := n.unite x) (h.union x.kinds)

theorem gather_has_mem (hx : x ∈ l) (n : Span) : (l.foldl Span.unite n).kinds.Has x.kinds := by
  induction l generalizing n with
  | nil => cases hx
  | cons z l ih =>
    rcases List.mem_cons.mp hx with rfl | hx
    · exact gather_has l (n := n.unite x) (KindSet.union_has_right n.kinds x.kinds)
    · exact ih hx (n.unite z)

/-! ## Insertion -/

/-- The span that replaces `n` and the spans of the list that it meets (R25). -/
def gathered (n : Span) (l : List Span) : Span := (l.filter n.meets).foldl Span.unite n

theorem normalize_inserts (h : (∃ x ∈ l, n.meets x = true) ∨ l.length < 24) :
    normalize n l = (insertSpan (gathered n l) (l.filter fun s => !n.meets s), false) := by
  refine if_neg ?_
  rw [Bool.and_eq_true, Bool.not_eq_true', decide_eq_true_eq, spanCap]
  rintro ⟨hnone, hfull⟩
  rcases h with ⟨x, hx, hm⟩ | h
  · exact absurd hm (by simpa using List.any_eq_false.mp hnone x hx)
  · omega

theorem normalize_merges (h : ∀ x ∈ l, n.meets x = false) (hfull : 24 ≤ l.length) : normalize n l = (mergeNearest n l, true) :=
  if_pos (by simpa [spanCap, hfull] using h)

theorem mem_inserted : x ∈ insertSpan (gathered n l) (l.filter fun s => !n.meets s) ↔
    x = gathered n l ∨ (x ∈ l ∧ n.meets x = false) := by
  rw [mem_insertSpan, List.mem_filter, Bool.not_eq_true']

theorem gathered_covers (n : Span) (l : List Span) : (gathered n l).lo ≤ n.lo ∧ n.hi ≤ (gathered n l).hi ∧
    (gathered n l).kinds.Has n.kinds := by
  obtain ⟨hlo, hhi, -⟩ := gather_bounds (l.filter n.meets) n
  exact ⟨hlo, hhi, gather_has _ (KindSet.has_refl _)⟩

theorem gathered_covers_mem (hx : x ∈ l) (hm : n.meets x = true) : (gathered n l).lo ≤ x.lo ∧ x.hi ≤ (gathered n l).hi ∧
    (gathered n l).kinds.Has x.kinds := by
  obtain ⟨-, -, hall⟩ := gather_bounds (l.filter n.meets) n
  have hx := List.mem_filter.mpr ⟨hx, hm⟩
  exact ⟨(hall x hx).1, (hall x hx).2, gather_has_mem hx n⟩

/-- The gathered span stands apart from every span that `n` does not meet. -/
theorem gathered_apart (hn : n.lo < n.hi) (hl : ∀ s ∈ l, s.lo < s.hi) (p : l.Pairwise fun a b => a.hi < b.lo) (hx : x ∈ l)
    (hm : n.meets x = false) : x.hi < (gathered n l).lo ∨ (gathered n l).hi < x.lo := by
  have hmeet : ∀ s ∈ l.filter n.meets, s.lo ≤ n.hi ∧ n.lo ≤ s.hi ∧ (s.hi < x.lo ∨ x.hi < s.lo) := by
    intro s hs
    obtain ⟨hs, hsm⟩ := List.mem_filter.mp hs
    have hne : s ≠ x := by
      rintro rfl
      rw [hm] at hsm
      cases hsm
    have := hl s hs
    refine ⟨?_, ?_, (apart_of_mem p hs hx).resolve_left hne⟩ <;>
      simp only [Span.meets, overlap, touch, Bool.or_eq_true, decide_eq_true_eq] at hsm <;> omega
  have := hl x hx
  rcases Span.apart_of_not_meets hn (hl x hx) hm with h | h
  · refine .inl (gather_above _ _ _ h fun s hs => ?_)
    obtain ⟨_, _, hsx⟩ := hmeet s hs
    have := hl s (List.mem_filter.mp hs).1
    omega
  · refine .inr (gather_below _ _ _ h fun s hs => ?_)
    obtain ⟨_, _, hsx⟩ := hmeet s hs
    have := hl s (List.mem_filter.mp hs).1
    omega

/-! ## Merging with the nearest -/

/-- The gap between `n` and a span apart from it (R26). -/
def Span.gap (n x : Span) : Nat := if x.hi ≤ n.lo then n.lo - x.hi else x.lo - n.hi

/-- Span `a` of the list is the neighbour of the smaller gap, on equal gaps the lower (R26). -/
def Nearest (n a : Span) (l : List Span) : Prop :=
  a ∈ l ∧ (∀ x ∈ l, n.gap a ≤ n.gap x) ∧ ∀ x ∈ l, n.gap x = n.gap a → a.lo ≤ x.lo

section

variable (hn : n.lo < n.hi) (hl : ∀ s ∈ l, s.lo < s.hi) (p : l.Pairwise fun a b => a.hi < b.lo)
  (hap : ∀ s ∈ l, s.hi < n.lo ∨ n.hi < s.lo)

include hn hl hap

theorem gap_apart (hx : x ∈ l) : (x.hi < n.lo ∧ n.gap x = n.lo - x.hi) ∨ (n.hi < x.lo ∧ n.gap x = x.lo - n.hi) := by
  have := hl x hx
  rcases hap x hx with h | h
  · exact .inl ⟨h, if_pos (by omega)⟩
  · exact .inr ⟨h, if_neg (by omega)⟩

include p

/-- The highest span below `n` is the nearest, unless one above is nearer. -/
theorem nearest_of_below (ha : (l.filter fun s => decide (s.lo < n.lo)).getLast? = some a)
    (habove : ∀ x ∈ l, n.hi < x.lo → n.lo - a.hi ≤ x.lo - n.hi) : Nearest n a l := by
  obtain ⟨hmem, hlo, hmax⟩ := last_filter_le p hl ha
  rw [decide_eq_true_eq] at hlo
  have hga := gap_apart hn hl hap hmem
  have hla := hl a hmem
  have hbelow (x : Span) (hx : x ∈ l) (hxn : x.hi < n.lo) : x.hi ≤ a.hi ∧ (x.hi = a.hi → a.lo = x.lo) := by
    have hlx := hl x hx
    have := hmax x hx (by rw [decide_eq_true_eq]; omega)
    rcases apart_of_mem p hx hmem with rfl | h | h <;> omega
  refine ⟨hmem, fun x hx => ?_, fun x hx he => ?_⟩
  · rcases gap_apart hn hl hap hx with ⟨hxn, hg⟩ | ⟨hxn, hg⟩
    · have := hbelow x hx hxn
      omega
    · have := habove x hx hxn
      omega
  · have hlx := hl x hx
    rcases gap_apart hn hl hap hx with ⟨hxn, hg⟩ | ⟨hxn, hg⟩
    · have := hbelow x hx hxn
      omega
    · omega

/-- The lowest span above `n` is the nearest, unless one below is as near. -/
theorem nearest_of_above (ha : (l.filter fun s => decide (n.lo < s.lo)).head? = some a)
    (hbelow : ∀ x ∈ l, x.hi < n.lo → a.lo - n.hi < n.lo - x.hi) : Nearest n a l := by
  obtain ⟨hmem, hlo, hmin⟩ := head_filter_le p hl ha
  rw [decide_eq_true_eq] at hlo
  have hga := gap_apart hn hl hap hmem
  have hla := hl a hmem
  have habove (x : Span) (hx : x ∈ l) (hxn : n.hi < x.lo) : a.lo ≤ x.lo := hmin x hx (by rw [decide_eq_true_eq]; omega)
  refine ⟨hmem, fun x hx => ?_, fun x hx he => ?_⟩
  · rcases gap_apart hn hl hap hx with ⟨hxn, hg⟩ | ⟨hxn, hg⟩
    · have := hbelow x hx hxn
      omega
    · have := habove x hx hxn
      omega
  · rcases gap_apart hn hl hap hx with ⟨hxn, hg⟩ | ⟨hxn, hg⟩
    · have := hbelow x hx hxn
      omega
    · exact habove x hx hxn

theorem mergeNearest_nearest (hne : l ≠ []) : ∃ a, Nearest n a l ∧ mergeNearest n l = uniteAt a.lo n l := by
  have hlow {x : Span} (hx : x ∈ l) : x.hi < n.lo ↔ x.lo < n.lo := by
    have := hl x hx
    have := hap x hx
    omega
  have hhigh {x : Span} (hx : x ∈ l) : n.hi < x.lo ↔ n.lo < x.lo := by
    have := hl x hx
    have := hap x hx
    omega
  unfold mergeNearest
  split
  case h_1 a b ha hb =>
    obtain ⟨hamem, -, hamax⟩ := last_filter_le p hl ha
    obtain ⟨hbmem, -, hbmin⟩ := head_filter_le p hl hb
    split
    case isTrue hle =>
      refine ⟨a, nearest_of_below hn hl p hap ha fun x hx hxn => ?_, rfl⟩
      have := hbmin x hx (decide_eq_true ((hhigh hx).mp hxn))
      omega
    case isFalse hlt =>
      refine ⟨b, nearest_of_above hn hl p hap hb fun x hx hxn => ?_, rfl⟩
      have := hamax x hx (decide_eq_true ((hlow hx).mp hxn))
      have := hl a hamem
      have := hl x hx
      rcases apart_of_mem p hx hamem with rfl | h | h <;> omega
  case h_2 a ha hb =>
    refine ⟨a, nearest_of_below hn hl p hap ha fun x hx hxn => ?_, rfl⟩
    exact absurd (decide_eq_true ((hhigh hx).mp hxn)) (List.filter_eq_nil_iff.mp (List.head?_eq_none_iff.mp hb) x hx)
  case h_3 b ha hb =>
    refine ⟨b, nearest_of_above hn hl p hap hb fun x hx hxn => ?_, rfl⟩
    exact absurd (decide_eq_true ((hlow hx).mp hxn)) (List.filter_eq_nil_iff.mp (List.getLast?_eq_none_iff.mp ha) x hx)
  case h_4 ha hb =>
    obtain ⟨x, hx⟩ := List.exists_mem_of_ne_nil l hne
    rcases hap x hx with h | h
    · exact absurd (decide_eq_true ((hlow hx).mp h)) (List.filter_eq_nil_iff.mp (List.getLast?_eq_none_iff.mp ha) x hx)
    · exact absurd (decide_eq_true ((hhigh hx).mp h)) (List.filter_eq_nil_iff.mp (List.head?_eq_none_iff.mp hb) x hx)

/-- A list merged at the nearest neighbour stands apart. -/
theorem uniteAt_nearest_apart (ha : Nearest n a l) : (uniteAt a.lo n l).Pairwise fun x y => x.hi < y.lo := by
  obtain ⟨hmem, hmin, -⟩ := ha
  have hga := gap_apart hn hl hap hmem
  have hla := hl a hmem
  refine uniteAt_apart p (fun b hb s hs e h => ?_) (fun b hb s hs e h => ?_) hl <;>
    rw [Span.unite] <;>
    · have := hmin s hs
      have := gap_apart hn hl hap hs
      have := hl b hb
      have := hl s hs
      have hba := apart_of_mem p hb hmem
      rcases hba with rfl | hba | hba <;> simp only <;> omega

end

theorem mem_uniteAt {lo : Nat} : y ∈ uniteAt lo n l ↔ ∃ x ∈ l, (if x.lo = lo then n.unite x else x) = y := by
  rw [uniteAt, List.mem_map]

/-- Settles O35: in a list with room, or that the span meets, the gathered span stands for what it meets; in a full one the nearest
neighbour takes the span up. -/
theorem mergeNearestResult : Obligations.MergeNearest := by
  unfold Obligations.MergeNearest
  intro top n l hs hn gap
  have hl : ∀ s ∈ l, s.lo < s.hi := fun s h => (hs.spans s h).nonempty
  by_cases hroom : (∃ x ∈ l, n.meets x = true) ∨ l.length < 24
  · have hlen : (insertSpan (gathered n l) (l.filter fun s => !n.meets s)).length ≤ 24 := by
      rw [insertSpan_length]
      have hcap := hs.capacity
      rw [spanCap] at hcap
      rcases hroom with ⟨x, hx, hm⟩ | hlt
      · have := List.length_filter_lt_length_iff_exists (p := fun s => !n.meets s) (l := l)
        have := this.mpr ⟨x, hx, by simp [hm]⟩
        omega
      · have := List.length_filter_le (fun s => !n.meets s) l
        omega
    rw [normalize_inserts hroom]
    refine ⟨⟨_, mem_inserted.mpr (.inl rfl), gathered_covers n l⟩, fun x hx => ?_, fun y hy => ?_, ?_, hlen, fun _ => ⟨rfl, gathered n l, ?_⟩,
      fun hnone hfull => ?_⟩
    · cases hm : n.meets x
      · exact ⟨x, mem_inserted.mpr (.inr ⟨hx, hm⟩), Nat.le_refl _, Nat.le_refl _, KindSet.has_refl _⟩
      · exact ⟨_, mem_inserted.mpr (.inl rfl), gathered_covers_mem hx hm⟩
    · rcases mem_inserted.mp hy with rfl | ⟨hy, -⟩
      · obtain ⟨hlo, hhi, -⟩ := gathered_covers n l
        exact .inr ⟨hlo, hhi⟩
      · exact .inl hy
    · obtain ⟨hlo, hhi, -⟩ := gathered_covers n l
      refine insertSpan_apart (by omega) (fun s h => hl s (List.mem_filter.mp h).1) (fun s h => ?_) (hs.apart.filter _)
      obtain ⟨h, hm⟩ := List.mem_filter.mp h
      exact gathered_apart hn hl hs.apart h (by simpa using hm)
    · exact ⟨gather_lo .., gather_hi .., gather_kinds .., gather_holders .., gather_open .., fun x => mem_inserted⟩
    · rcases hroom with ⟨x, hx, hm⟩ | hlt
      · rw [hnone x hx] at hm
        cases hm
      · omega
  · simp only [not_or, not_exists, not_and, Bool.not_eq_true, Nat.not_lt] at hroom
    obtain ⟨hnone, hfull⟩ := hroom
    have hap : ∀ s ∈ l, s.hi < n.lo ∨ n.hi < s.lo := fun s h => Span.apart_of_not_meets hn (hl s h) (hnone s h)
    obtain ⟨a, ha, e⟩ := mergeNearest_nearest hn hl hs.apart hap (by rintro rfl; simp at hfull)
    rw [normalize_merges hnone hfull, e]
    have ⟨hmem, hmin, htie⟩ := ha
    refine ⟨⟨n.unite a, mem_uniteAt.mpr ⟨a, hmem, if_pos rfl⟩, Nat.min_le_left _ _, Nat.le_max_left _ _, KindSet.union_has_left _ _⟩,
      fun x hx => ⟨_, mem_uniteAt.mpr ⟨x, hx, rfl⟩, ?_⟩, fun y hy => ?_, uniteAt_nearest_apart hn hl hs.apart hap ha,
      by simpa [uniteAt, spanCap] using hs.capacity, fun h => ?_, fun _ _ => ⟨rfl, a, hmem, hmin, htie, rfl⟩⟩
    · split
      · exact ⟨Nat.min_le_right _ _, Nat.le_max_right _ _, KindSet.union_has_right _ _⟩
      · exact ⟨Nat.le_refl _, Nat.le_refl _, KindSet.has_refl _⟩
    · obtain ⟨x, hx, rfl⟩ := mem_uniteAt.mp hy
      split
      · exact .inr ⟨Nat.min_le_left _ _, Nat.le_max_left _ _⟩
      · exact .inl hx
    · rcases h with ⟨x, hx, hm⟩ | hlt
      · rw [hnone x hx] at hm
        cases hm
      · omega

end Sys2Proof.Machine
end

section
/-! PROOF. The field check of a specification, and CREATE (R42 to R44). -/

namespace Sys2Proof.Machine

variable {k : RecordKind} {amends : Bool} {it : Item} {l : List Item} {n v tag kind : Nat} {s : State} {r : Record} {b : Body}

/-! ## The field check -/

/-- The item numbers that a kind of record carries (R43). -/
def Carried (k : RecordKind) (n : Nat) : Prop := match k with
  | .strand => n = 1 ∨ n = 2
  | .rope => 1 ≤ n ∧ n ≤ 4
  | .panel => 5 ≤ n ∧ n ≤ 8
  | .coil => False

/-- A value lies in the range of the specification field that an item number names (R43). -/
def Within (n v : Nat) : Prop := (n = 1 → 16 ≤ v ∧ v ≤ 65535) ∧ (n = 2 → 1 ≤ v ∧ v ≤ 4294967295) ∧ (n = 3 → v = 3 ∨ v = 4) ∧
  (n = 4 → 65536 ≤ v ∧ v ≤ 131071) ∧ (n = 5 → 1 ≤ v ∧ v ≤ 1023) ∧ (n = 6 → 1 ≤ v ∧ v ≤ 2000) ∧ (n = 7 → v ≤ 500) ∧
  (n = 8 → 1 ≤ v ∧ v ≤ 65535)

/-- An item that the field check refuses (R43, R44). -/
def BadItem (amends : Bool) (k : RecordKind) (it : Item) : Prop :=
  ¬Carried k it.number ∨ (∃ v, it.value = some v ∧ ¬Within it.number v) ∨
    (it.value = none ∧ (amends = false ∨ (it.number ≠ 1 ∧ it.number ≠ 2 ∧ it.number ≠ 8)))

theorem badSpec_iff : badSpec amends k l ↔ (∃ it ∈ l, BadItem amends k it) ∨ ¬(l.map Item.number).Nodup ∨
    (amends = false ∧ ∃ n ∈ k.required, n ∉ l.map Item.number) := by
  cases k <;> simp [badSpec, BadItem, Carried, Within, RecordKind.required]

theorem carries_iff : k.carries n = true ↔ Carried k n := by
  cases k <;> simp [RecordKind.carries, Carried]
  omega

theorem Carried.range (h : Carried k n) : 1 ≤ n ∧ n ≤ 8 := by
  cases k <;> simp only [Carried] at h <;> omega

theorem specInRange_iff (hn : 1 ≤ n ∧ n ≤ 8) : specInRange n v = true ↔ Within n v := by
  obtain ⟨h1, h8⟩ := hn
  interval_cases n <;> simp [specInRange, specRange, Within]
  omega

theorem specItemOk_iff : specItemOk k amends it = true ↔ ¬BadItem amends k it := by
  rw [specItemOk, Bool.and_eq_true, carries_iff, BadItem]
  by_cases hc : Carried k it.number
  · cases hv : it.value with
    | none =>
      have hopt : specOptional it.number = true ↔ ¬(it.number ≠ 1 ∧ it.number ≠ 2 ∧ it.number ≠ 8) := by
        simp [specOptional]
        omega
      cases amends <;> simp [hc, hopt]
    | some v => simp [hc, specInRange_iff hc.range]
  · simp [hc]

theorem distinctItems_iff : distinctItems l = true ↔ (l.map Item.number).Nodup := by
  induction l with
  | nil => simp [distinctItems]
  | cons it l ih =>
    rw [distinctItems_cons, ih, List.map_cons, List.nodup_cons]
    simp

theorem namesItem_iff : namesItem l n = true ↔ n ∈ l.map Item.number := by
  simp [namesItem]

theorem createListOk_iff (k : RecordKind) (l : List Item) : createListOk k l = true ↔ ¬badSpec false k l := by
  rw [createListOk, badSpec_iff, Bool.and_eq_true, Bool.and_eq_true, List.all_eq_true, List.all_eq_true, distinctItems_iff]
  simp only [specItemOk_iff, namesItem_iff, not_or, not_and, not_exists, not_not, true_and, and_assoc]

theorem amendListOk_iff (k : RecordKind) (l : List Item) : amendListOk k l = true ↔ ¬badSpec true k l := by
  rw [amendListOk, badSpec_iff, Bool.and_eq_true, List.all_eq_true, distinctItems_iff]
  simp [specItemOk_iff]

/-- The value that a list which passes the field check gives to an item is in range. -/
theorem within_of_itemValue (h : ∀ it ∈ l, specItemOk k amends it = true) (e : itemValue l n = some v) : Within n v := by
  obtain ⟨it, hit, rfl, hv⟩ := itemValue_mem e
  by_contra hw
  exact (specItemOk_iff.mp (h it hit)) (.inr (.inl ⟨v, hv, hw⟩))

/-! ## Fresh bodies -/

/-- What CREATE's body takes from its list, once that passes the field check (R13 to R15, R43). -/
theorem freshBody_fresh (e : freshBody l k = some b) : b.kind = k ∧ b.piece = some ⟨0, [], none⟩ ∧ b.sources = [] := by
  cases k <;> simp only [freshBody, Option.some.injEq, reduceCtorEq] at e <;> subst e <;> exact ⟨rfl, rfl, rfl⟩

/-- A required field is named, and has a value in its range. -/
theorem required_value (h : createListOk k l = true) (hn : n ∈ k.required) : ∃ v, itemValue l n = some v ∧ Within n v := by
  rw [createListOk, Bool.and_eq_true, Bool.and_eq_true, List.all_eq_true, List.all_eq_true] at h
  obtain ⟨⟨hitems, -⟩, hnamed⟩ := h
  obtain ⟨it, hit, hnum⟩ := List.any_eq_true.mp (hnamed n hn)
  rw [decide_eq_true_eq] at hnum
  obtain ⟨found, hfound⟩ := Option.isSome_iff_exists.mp
    (List.find?_isSome (p := fun x : Item => decide (x.number = n)).mpr ⟨it, hit, decide_eq_true hnum⟩)
  have hok := specItemOk_iff.mp (hitems found (List.mem_of_find?_eq_some hfound))
  cases hv : found.value with
  | none => exact absurd (.inr (.inr ⟨hv, .inl rfl⟩)) hok
  | some v =>
    have e : itemValue l n = some v := by rw [itemValue, hfound]; exact hv
    exact ⟨v, e, within_of_itemValue hitems e⟩

/-! ## CREATE -/

theorem State.live_iff : s.live tag = false ↔ s.find tag = none := by
  rw [State.live, Option.isSome_eq_false_iff, Option.isNone_iff_eq_none]

theorem answerCreate_exists (h : s.find tag ≠ none) : answerCreate .lineComputer tag kind l s = s.refuse .tagExists := by
  have hlive : s.live tag = true := by
    rw [← Bool.not_eq_false, State.live_iff]
    exact h
  simp [answerCreate, fromLine, hlive]

theorem answerCreate_coil (h : s.find tag = none) (hk : kind = 4) : answerCreate .lineComputer tag kind l s = s.refuse .wrongKind := by
  subst hk
  simp [answerCreate, fromLine, State.live_iff.mpr h, recordKindOf, freshBody]

theorem answerCreate_noKind (h : s.find tag = none) (hk : recordKindOf kind = none) :
    answerCreate .lineComputer tag kind l s = s.refuse .badField := by
  simp [answerCreate, fromLine, State.live_iff.mpr h, hk]

/-- CREATE of a kind it makes, under a tag that is not live: the list and the tag, then the room in the store. -/
theorem answerCreate_kind (h : s.find tag = none) (hk : recordKindOf kind = some k) (hb : freshBody l k = some b) :
    answerCreate .lineComputer tag kind l s =
      if !createListOk k l || tag = 0 || tagTop ≤ tag then s.refuse .badField
      else if storeCap ≤ s.store.length then (s.raiseStore fun c => { c with createFull := true }, Reply.only .full)
      else (s.change (State.enter (Record.fresh tag .draft s.clock.seconds b)), Reply.done [0]) := by
  simp [answerCreate, fromLine, State.live_iff.mpr h, hk, hb]

theorem freshBody_isSome (hk : k ≠ .coil) : ∃ b, freshBody l k = some b := by
  cases k
  case coil => exact absurd rfl hk
  all_goals exact ⟨_, rfl⟩

theorem recordKindOf_eq_none (h : kind = 0 ∨ 4 < kind) : recordKindOf kind = none := by
  unfold recordKindOf
  split
  case h_5 => rfl
  all_goals omega

theorem State.enter_rest (s : State) (r : Record) : (s.enter r).clock = s.clock ∧ (s.enter r).line = s.line ∧ (s.enter r).link = s.link ∧
    (s.enter r).coilPrefix = s.coilPrefix ∧ (s.enter r).coilSerial = s.coilSerial := by
  unfold State.enter
  dsimp only
  split <;> exact ⟨rfl, rfl, rfl, rfl, rfl⟩

/-- The rise of the count to 240 raises STORE (R4). -/
theorem State.enter_attn (s : State) (r : Record) : (s.enter r).attn =
    if s.store.length = 239 then (s.raiseStore fun c => { c with store240 := true }).attn else s.attn := by
  unfold State.enter
  dsimp only
  split <;> rfl

theorem State.raiseStore_flag (s : State) (f : StoreCauses → StoreCauses) : (s.raiseStore f).attn.flag 65 = true :=
  Attention.setFlag_self _ (by decide)

/-- Settles O29: the checks of CREATE in their order, and the record it brings into the store. -/
theorem createResult : Obligations.CreateResult := by
  unfold Obligations.CreateResult
  refine ⟨?_, fun k l _ => createListOk_iff k l, ?_⟩
  · intro tag kind l s body a refused
    refine ⟨fun h => exec_refused a rfl (answerCreate_exists h), fun h => ⟨fun hk => exec_refused a rfl (answerCreate_coil h hk),
      fun hk => exec_refused a rfl (answerCreate_noKind h (recordKindOf_eq_none hk)), fun k hk hcoil hbad => ?_⟩⟩
    obtain ⟨b, hb⟩ := freshBody_isSome (l := l) hcoil
    refine exec_refused (x := .badField) a rfl ((answerCreate_kind h hk hb).trans (if_pos ?_))
    rcases hbad with hbad | hbad | hbad
    · simp [hbad]
    · simp [tagTop, hbad]
    · have : createListOk k l = false := by
        rw [← Bool.not_eq_true, createListOk_iff]
        exact fun hno => hno hbad
      simp [this]
  · intro tag kind l s body k b S a h hk hb hl h1 htop
    have hanswer := answerCreate_kind h hk hb
    have hchecked : ¬(!createListOk k l || decide (tag = 0) || decide (tagTop ≤ tag)) = true := by
      intro hbad
      rw [hl, Bool.not_true, Bool.false_or, Bool.or_eq_true, decide_eq_true_eq, decide_eq_true_eq, tagTop] at hbad
      omega
    rw [if_neg hchecked] at hanswer
    obtain ⟨hkind, hpiece, hsources⟩ := freshBody_fresh hb
    have hitems : ∀ it ∈ l, specItemOk k false it = true := by
      rw [createListOk, Bool.and_eq_true, Bool.and_eq_true, List.all_eq_true] at hl
      exact hl.1.1
    refine ⟨fun hroom => ?_, fun hfull => ?_, fun e => ?_, fun e => ?_, fun e => ?_, fun v e => ?_, fun v e => ?_, fun v e => ?_⟩
    · let fresh := Record.fresh tag .draft s.clock.seconds b
      have hfind (n : Nat) : (s.enter fresh).find n = if n = tag then some fresh else s.find n :=
        State.enter_find (State.live_iff.mpr h) n
      obtain ⟨hclock, hline, hlink, hprefix, hserial⟩ := State.enter_rest s fresh
      refine ⟨_, exec_answer a rfl (hanswer.trans (if_neg (by simp [storeCap]; omega))), ?_, fun n hn => ?_, ?_, hkind, hpiece, hsources,
        State.enter_heads .., hclock, hline, hlink, hprefix, hserial, fun h239 => ?_, fun h239 => ?_⟩
      · rw [State.change_find_new (.inl h), hfind, if_pos rfl]
        rfl
      · have hother := (hfind n).trans (if_neg hn)
        cases ex : s.find n with
        | none => exact State.change_find_absent (hother.trans ex)
        | some x => exact State.change_find_same ex (hother.trans ex) rfl
      · rw [State.change_store_length, State.enter_store, insertRecord_length]
      · rw [State.change_attn, State.enter_attn, if_neg h239]
      · rw [State.change_attn, State.enter_attn, if_pos h239]
        exact ⟨State.raiseStore_flag .., rfl⟩
    · exact exec_answer a rfl (hanswer.trans (if_pos (by rw [hfull]; rfl)))
    · subst e
      simpa [freshBody, Piece.fresh] using hb.symm
    · subst e
      obtain ⟨n, hn, hwn⟩ := required_value hl (n := 3) (by decide)
      obtain ⟨f, hf, hwf⟩ := required_value hl (n := 4) (by decide)
      have := hwn.2.2.1 rfl
      have := hwf.2.2.2.1 rfl
      refine ⟨n, f, hn, by omega, by omega, hf, by omega, by omega, ?_⟩
      simpa [freshBody, Piece.fresh, hn, hf] using hb.symm
    · subst e
      obtain ⟨n, hn, hwn⟩ := required_value hl (n := 5) (by decide)
      obtain ⟨x, hx, hwx⟩ := required_value hl (n := 6) (by decide)
      obtain ⟨c, hc, hwc⟩ := required_value hl (n := 7) (by decide)
      obtain ⟨-, -, -, -, h5, -⟩ := hwn
      obtain ⟨-, -, -, -, -, h6, -⟩ := hwx
      obtain ⟨-, -, -, -, -, -, h7, -⟩ := hwc
      refine ⟨n, x, c, hn, (h5 rfl).1, (h5 rfl).2, hx, (h6 rfl).1, (h6 rfl).2, hc, h7 rfl, ?_⟩
      simpa [freshBody, Piece.fresh, hn, hx, hc] using hb.symm
    · exact (within_of_itemValue hitems e).1 rfl
    · exact (within_of_itemValue hitems e).2.1 rfl
    · obtain ⟨-, -, -, -, -, -, -, h8⟩ := within_of_itemValue hitems e
      exact h8 rfl

end Sys2Proof.Machine
end

section
/-! PROOF. AMEND: what a list leaves of a specification, and of the record (R44 to R46). -/

namespace Sys2Proof.Machine

variable {k n tag : Nat} {it : Item} {l : List Item} {s : State} {r x : Record} {h : HeadIx} {m : Mark}

/-! ## The specification -/

/-- An optional field after an AMEND: as the list names it, present or absent (R45). -/
def amended (l : List Item) (n : Nat) (old : Option Nat) : Option Nat := if namesItem l n = true then itemValue l n else old

theorem namesItem_cons : namesItem (it :: l) n = (decide (it.number = n) || namesItem l n) := rfl

theorem namesItem_of_fresh (h : ∀ x ∈ l, x.number ≠ n) : namesItem l n = false := by
  simpa [namesItem] using h

theorem amended_cons (h : ∀ x ∈ l, x.number ≠ it.number) (old : Option Nat) :
    amended (it :: l) n old = amended l n (if it.number = n then it.value else old) := by
  by_cases hn : it.number = n
  · subst hn
    simp [amended, namesItem_cons, namesItem_of_fresh h, itemValue_cons_same]
  · simp [amended, namesItem_cons, hn, itemValue_cons_ne hn]

theorem given_cons (h : ∀ x ∈ l, x.number ≠ it.number) (old : Nat) :
    (itemValue (it :: l) n).getD old = (itemValue l n).getD (if it.number = n then it.value.getD old else old) := by
  by_cases hn : it.number = n
  · subst hn
    simp [itemValue_cons_same, itemValue_of_absent h]
  · simp [hn, itemValue_cons_ne hn]

theorem Body.setSpec_strand (it : Item) (b : StrandBody) : Body.setSpec it (.strand b) = .strand
    { b with
      targetLay := if it.number = 1 then it.value else b.targetLay
      orderedLength := if it.number = 2 then it.value else b.orderedLength } := by
  unfold Body.setSpec
  dsimp only
  split <;> simp_all

theorem Body.setSpec_rope (it : Item) (b : RopeBody) : Body.setSpec it (.rope b) = .rope
    { b with
      targetLay := if it.number = 1 then it.value else b.targetLay
      orderedLength := if it.number = 2 then it.value else b.orderedLength
      strandCount := if it.number = 3 then it.value.getD b.strandCount else b.strandCount
      factor := if it.number = 4 then it.value.getD b.factor else b.factor } := by
  unfold Body.setSpec
  dsimp only
  cases it.value <;> split <;> simp_all

theorem Body.setSpec_panel (it : Item) (b : PanelBody) : Body.setSpec it (.panel b) = .panel
    { b with
      knots := if it.number = 5 then it.value.getD b.knots else b.knots
      bar := if it.number = 6 then it.value.getD b.bar else b.bar
      allowance := if it.number = 7 then it.value.getD b.allowance else b.allowance
      targetRows := if it.number = 8 then it.value else b.targetRows } := by
  unfold Body.setSpec
  dsimp only
  cases it.value <;> split <;> simp_all

/-- A body after the list of an AMEND (R45). -/
def Body.amend (l : List Item) (b : Body) : Body := l.foldl (fun b it => b.setSpec it) b

theorem Body.amend_strand : ∀ (l : List Item) (b : StrandBody), distinctItems l = true → (Body.strand b).amend l = .strand
    { b with targetLay := amended l 1 b.targetLay, orderedLength := amended l 2 b.orderedLength }
  | [], b, _ => rfl
  | it :: l, b, hd => by
    obtain ⟨hfresh, hl⟩ := distinctItems_cons.mp hd
    rw [amended_cons hfresh, amended_cons hfresh]
    exact (congrArg (Body.amend l) (Body.setSpec_strand it b)).trans (Body.amend_strand l _ hl)

theorem Body.amend_rope : ∀ (l : List Item) (b : RopeBody), distinctItems l = true → (Body.rope b).amend l = .rope
    { b with
      targetLay := amended l 1 b.targetLay
      orderedLength := amended l 2 b.orderedLength
      strandCount := (itemValue l 3).getD b.strandCount
      factor := (itemValue l 4).getD b.factor }
  | [], b, _ => rfl
  | it :: l, b, hd => by
    obtain ⟨hfresh, hl⟩ := distinctItems_cons.mp hd
    rw [amended_cons hfresh, amended_cons hfresh, given_cons hfresh, given_cons hfresh]
    exact (congrArg (Body.amend l) (Body.setSpec_rope it b)).trans (Body.amend_rope l _ hl)

theorem Body.amend_panel : ∀ (l : List Item) (b : PanelBody), distinctItems l = true → (Body.panel b).amend l = .panel
    { b with
      knots := (itemValue l 5).getD b.knots
      bar := (itemValue l 6).getD b.bar
      allowance := (itemValue l 7).getD b.allowance
      targetRows := amended l 8 b.targetRows }
  | [], b, _ => rfl
  | it :: l, b, hd => by
    obtain ⟨hfresh, hl⟩ := distinctItems_cons.mp hd
    rw [amended_cons hfresh, given_cons hfresh, given_cons hfresh, given_cons hfresh]
    exact (congrArg (Body.amend l) (Body.setSpec_panel it b)).trans (Body.amend_panel l _ hl)

/-- A record after the list of an AMEND. -/
def Record.amend (l : List Item) (r : Record) : Record := { r with body := r.body.amend l }

theorem Record.amend_tag (r : Record) : (r.amend l).tag = r.tag := rfl

/-- Of what the mark counts an AMEND alters the specification alone (R9). -/
theorem Record.amend_counted (hl : distinctItems l = true) (hk : r.kind ≠ .coil) :
    (r.amend l).counted = { r.counted with spec := (r.body.amend l).spec } := by
  cases hb : r.body with
  | strand b => rw [Record.amend, hb, Body.amend_strand l b hl]; simp only [Record.counted, hb, Record.spans]; rfl
  | rope b => rw [Record.amend, hb, Body.amend_rope l b hl]; simp only [Record.counted, hb, Record.spans]; rfl
  | panel b => rw [Record.amend, hb, Body.amend_panel l b hl]; simp only [Record.counted, hb, Record.spans]; rfl
  | coil c => exact absurd (by rw [Record.kind, hb]; rfl) hk

/-! ## The end point -/

theorem State.enterCutting_store (h : HeadIx) (s : State) : (s.enterCutting h).store = s.store := by
  unfold State.enterCutting
  split <;> rfl

theorem State.checkEnd_store (h : HeadIx) (s : State) : (s.checkEnd h).store = s.store := by
  unfold State.checkEnd
  split
  · split
    · exact State.enterCutting_store h s
    · rfl
  · rfl

/-- A job that reports its end point in RUN, STOPPED or HELD (R62). -/
theorem State.enterCutting_head (hst : (s.head h).state = .run ∨ (s.head h).state = .stopped ∨ (s.head h).state = .held) :
    s.enterCutting h = (s.updHead h fun x =>
      { x with state := .cutting, cutRunHigh := x.runHigh, cutWait := if x.runHigh then none else some cutTicks }).raise h .state := by
  unfold State.enterCutting
  rcases hst with hst | hst | hst <;> simp only [hst]

theorem State.checkEnd_atEnd (hp : s.productOf h = some r) (he : r.atEnd = true) : s.checkEnd h = s.enterCutting h := by
  simp only [State.checkEnd, hp, he, if_true]

/-! ## AMEND -/

theorem State.amend_store (tag : Nat) (l : List Item) (s : State) :
    (s.amend tag l).store = (s.updRec tag (Record.amend l)).store := by
  unfold State.amend
  dsimp only
  split
  · split
    · exact State.checkEnd_store ..
    · rfl
  all_goals rfl

theorem State.amend_clock (tag : Nat) (l : List Item) (s : State) : (s.amend tag l).clock = s.clock := by
  unfold State.amend
  dsimp only
  split
  case h_1 h _ =>
    split
    · exact (State.checkEnd_keeps (.refl h _)).clock
    · rfl
  all_goals rfl

theorem State.find_of_store {s t : State} (e : t.store = s.store) (n : Nat) : t.find n = s.find n := by
  rw [State.find, e, State.find]

theorem State.amend_find (er : s.find tag = some r) : (s.amend tag l).find tag = some (r.amend l) := by
  rw [State.find_of_store (State.amend_store tag l s), State.find_updRec Record.amend_tag, er]
  rfl

theorem State.amend_find_ne (hn : n ≠ tag) : (s.amend tag l).find n = s.find n := by
  rw [State.find_of_store (State.amend_store tag l s), State.find_updRec_ne Record.amend_tag hn]

/-- An AMEND that gives a product in MAKING its end point takes the head to CUTTING (R46). -/
theorem State.amend_cuts (er : s.find tag = some r) (hb : r.bound = some (h, .product)) (hp : (s.head h).product = some tag)
    (hn : namesEnd l = true) (hst : (s.head h).state = .run ∨ (s.head h).state = .stopped ∨ (s.head h).state = .held)
    (he : (r.amend l).atEnd = true) :
    ((s.amend tag l).head h).state = .cutting ∧ (s.amend tag l).flagged h .state = true := by
  let s1 := s.updRec tag (Record.amend l)
  have hamend : s.amend tag l = s1.checkEnd h := by
    simp only [State.amend, er, Option.bind_some, hb, hn, if_true]
    rfl
  have hproduct : s1.productOf h = some (r.amend l) := by
    rw [State.productOf, State.updRec_head, hp, Option.bind_some, State.find_updRec Record.amend_tag, er]
    rfl
  rw [hamend, State.checkEnd_atEnd hproduct he, State.enterCutting_head (by rwa [State.updRec_head])]
  exact ⟨by simp, State.raise_flagged ..⟩

theorem answerAmend_ok (er : s.find tag = some r) (hk : r.kind ≠ .coil) (hst : amendStateOk r.kind r.state l = true)
    (hm : m = r.mark) (hl : amendListOk r.kind l = true) :
    answerAmend .lineComputer tag m l s = s.doneMark tag (State.amend tag l) := by
  simp [answerAmend, fromLine, er, hk, hst, hm, hl]

theorem answerAmend_badField (er : s.find tag = some r) (hk : r.kind ≠ .coil) (hst : amendStateOk r.kind r.state l = true)
    (hm : m = r.mark) (hl : amendListOk r.kind l = false) : answerAmend .lineComputer tag m l s = s.refuse .badField := by
  simp [answerAmend, fromLine, er, hk, hst, hm, hl]

/-- A change is answered with the mark it leaves in the record. -/
theorem State.doneMark_eq {f : State → State} (ex : (s.change f).find tag = some x) :
    s.doneMark tag f = (s.change f, Reply.done [x.mark]) := by
  simp only [State.doneMark, State.markOf, ex, Option.map_some, Option.getD_some]

/-- Settles O30: an AMEND sets what its list names, and nothing else that the mark counts. -/
theorem amendResult : Obligations.AmendResult := by
  unfold Obligations.AmendResult
  refine ⟨fun tag m l s body r a er hk hst hm hbad => ?_, amendListOk_iff, ?_⟩
  · refine exec_refused a rfl (answerAmend_badField er hk hst hm ?_)
    rw [← Bool.not_eq_true, amendListOk_iff]
    exact fun hno => hno hbad
  intro tag m l s body r S a er hk hst hm hl amended'
  have hd : distinctItems l = true := by
    rw [amendListOk, Bool.and_eq_true] at hl
    exact hl.2
  let x := r.amend l
  have hcount : x.counted = { r.counted with spec := x.body.spec } := Record.amend_counted hd hk
  have ex : (s.change (State.amend tag l)).find tag = some (Record.stepMark s.clock.seconds r x) := by
    have ex := State.change_find er (State.amend_find (l := l) er)
    rwa [State.amend_clock] at ex
  obtain ⟨hstate, hbody, hbound, -, -⟩ := Record.stepMark_fields s.clock.seconds r x
  refine ⟨_, _, exec_answer a rfl ((answerAmend_ok er hk hst hm hl).trans (State.doneMark_eq ex)), ex, hstate, fun b hb => ?_, fun b hb => ?_,
    fun b hb => ?_, fun hspec => ?_, fun hspec => ?_, fun n hn => ?_, fun h hb hp hn hrun he => ?_⟩
  · rw [hbody, show x.body = r.body.amend l from rfl, hb, Body.amend_strand l b hd]
    rfl
  · rw [hbody, show x.body = r.body.amend l from rfl, hb, Body.amend_rope l b hd]
    rfl
  · rw [hbody, show x.body = r.body.amend l from rfl, hb, Body.amend_panel l b hd]
    rfl
  · rw [hbody] at hspec
    rw [Record.stepMark_same (by rw [hcount, hspec]; rfl)]
    exact ⟨rfl, rfl⟩
  · rw [hbody] at hspec
    rw [Record.stepMark_step fun e => hspec (by rw [hcount] at e; exact (congrArg Counted.spec e).symm)]
    exact ⟨rfl, rfl⟩
  · have hother := State.amend_find_ne (s := s) (l := l) hn
    cases en : s.find n with
    | none => exact State.change_find_absent (hother.trans en)
    | some y => exact State.change_find_same en (hother.trans en) rfl
  · refine State.amend_cuts er hb hp (by simpa [namesEnd] using hn) hrun ?_
    rw [← he]
    exact (Record.atEnd_of_measure (Record.stepMark_measure ..)).symm

end Sys2Proof.Machine
end

section
/-! PROOF. ENC pulses that advance no product: below one millimetre, and on a coiler. -/

namespace Sys2Proof.Machine

variable {h : HeadIx} {s t : State} {k c : Nat} {g : Segment}

/-! ## Changes of one head -/

/-- A change that leaves the store as it is steps no mark: it is the state it makes. -/
theorem State.change_eq {f : State → State} (S : s.StoreOk) (e : f s = t) (hs : t.store = s.store) : s.change f = t :=
  (State.change_of_store S (e ▸ hs)).trans e

theorem State.updHead_congr {f g : Head → Head} (e : f (s.head h) = g (s.head h)) : s.updHead h f = s.updHead h g := by
  simp only [State.updHead, e]

theorem State.updHead_updHead (s : State) (h : HeadIx) (f g : Head → Head) :
    (s.updHead h f).updHead h g = s.updHead h fun x => g (f x) := by
  simp only [State.updHead, State.head, Vector.getElem_set_self, Vector.set_set]

theorem HeadState.running_iff {x : HeadState} : x.running = true ↔ x = .run ∨ x = .stopped ∨ x = .held ∨ x = .cutting := by
  cases x <;> decide

theorem Head.laysLength_kind {x : Head} (hk : x.kind = some .strander ∨ x.kind = some .closer) : x.laysLength = true := by
  rcases hk with hk | hk <;> simp [Head.laysLength, hk]

/-! ## Below one millimetre -/

/-- The head of an ENC pulse, its sum's rest in the pitch fraction (R83). -/
def Head.metered (x : Head) : Head := { x with pitchFraction := (x.pitchFraction + x.settings.pitch) % fine }

theorem State.encPulse_makes_none (hr : (s.head h).state.running = true)
    (hk : (s.head h).kind = some .strander ∨ (s.head h).kind = some .closer ∨ (s.head h).kind = some .coiler)
    (hc : (s.head h).pitchFraction + (s.head h).settings.pitch < 65536) : s.encPulse h = s.updHead h Head.metered := by
  have h0 : ((s.head h).pitchFraction + (s.head h).settings.pitch) / fine = 0 := Nat.div_eq_of_lt hc
  rcases hk with hk | hk | hk <;> simp only [State.encPulse, hr, hk, h0, if_true] <;> rfl

theorem State.encPulse_not_followed (hn : (s.head h).state.running = false ∨ (s.head h).kind = some .loom ∨ (s.head h).kind = none) :
    s.encPulse h = s := by
  rcases hn with hr | hk | hk
  · simp [State.encPulse, hr]
  · simp [State.encPulse, hk]
  · simp [State.encPulse, hk]

/-- Settles O8: without a carry the pitch alone is added, and a pulse that is not followed changes nothing. -/
theorem encPulseBelowOneMillimetre : Obligations.EncPulseBelowOneMillimetre := by
  unfold Obligations.EncPulseBelowOneMillimetre
  refine fun h s S => ⟨fun hr hk hc => congrArg Host.Outcome.next ?_, fun hn => congrArg Host.Outcome.next ?_⟩
  · refine State.change_eq S ((State.encPulse_makes_none hr hk hc).trans (State.updHead_congr ?_)) rfl
    rw [Head.metered, Nat.mod_eq_of_lt (show _ < fine from hc)]
  · exact State.change_eq S (State.encPulse_not_followed hn) rfl

/-! ## Unwinding -/

theorem State.limitReached_store (h : HeadIx) (s : State) : (s.limitReached h).store = s.store := by
  unfold State.limitReached
  split <;> rfl

theorem State.limitReached_head (h : HeadIx) (s : State) : (s.limitReached h).head h = { s.head h with limitNoted := true } := by
  unfold State.limitReached
  split
  case isTrue hn => rw [← hn]
  case isFalse => rw [State.raiseAlarm_head, State.updHead_head]

/-- LENGTH_LIMIT comes with the first top of a binding (R86, R87). -/
theorem State.limitReached_alarm (hn : (s.head h).limitNoted = false) :
    (s.limitReached h).flagged h .alarm = true ∧ ((s.limitReached h).attn.causesOf h).lengthLimit = true := by
  simp only [State.limitReached, hn, Bool.false_eq_true, if_false]
  exact ⟨State.raiseAlarm_flagged .., State.raiseAlarm_has _ h .lengthLimit⟩

/-- A count that passes its top is limited, and one that does not is not (R86, R87). -/
def State.limitAt (h : HeadIx) (n : Nat) (s : State) : State := if lengthTop < n then s.limitReached h else s

theorem State.limitAt_store (h : HeadIx) (n : Nat) (s : State) : (s.limitAt h n).store = s.store := by
  unfold State.limitAt
  split
  · exact State.limitReached_store h s
  · rfl

theorem State.limitAt_head (h : HeadIx) (n : Nat) (s : State) :
    (s.limitAt h n).head h = { s.head h with limitNoted := (s.head h).limitNoted || decide (lengthTop < n) } := by
  unfold State.limitAt
  split
  case isTrue hn => rw [State.limitReached_head, decide_eq_true hn, Bool.or_true]
  case isFalse hn => rw [decide_eq_false hn, Bool.or_false]

theorem State.limitAt_alarm {n : Nat} (hn : lengthTop < n) (h0 : (s.head h).limitNoted = false) :
    (s.limitAt h n).flagged h .alarm = true ∧ ((s.limitAt h n).attn.causesOf h).lengthLimit = true := by
  simp only [State.limitAt, hn, if_true]
  exact State.limitReached_alarm h0

theorem State.unwindCarry_held (hst : (s.head h).state = .held) : s.unwindCarry h c =
    (s.limitAt h ((s.head h).unplanned + c)).updHead h fun x =>
      { x with unplanned := min ((s.head h).unplanned + c) lengthTop } := by
  simp only [State.unwindCarry, hst]
  rfl

theorem State.unwindCarry_segment (hst : (s.head h).state = .run ∨ (s.head h).state = .stopped ∨ (s.head h).state = .cutting)
    (hg : (s.head h).segment = some g) : s.unwindCarry h c =
      let u := (s.limitAt h (g.unwound + c)).updHead h fun x =>
        { x with segment := some { g with unwound := min (g.unwound + c) lengthTop } }
      if g.planned ≤ min (g.unwound + c) lengthTop then u.enterCutting h else u := by
  rcases hst with hst | hst | hst <;> simp only [State.unwindCarry, hst, hg] <;> rfl

theorem State.encPulse_unwinds (hr : (s.head h).state.running = true) (hk : (s.head h).kind = some .coiler)
    (hc : 65536 ≤ (s.head h).pitchFraction + (s.head h).settings.pitch) : s.encPulse h =
      (s.updHead h Head.metered).unwindCarry h (((s.head h).pitchFraction + (s.head h).settings.pitch) / fine) := by
  have h0 : ((s.head h).pitchFraction + (s.head h).settings.pitch) / fine ≠ 0 := Nat.div_ne_zero_iff.mpr ⟨by decide, hc⟩
  simp only [State.encPulse, hr, hk, h0, if_true, if_false]
  rfl

/-- A job that reports its end point in a running state finds the head in CUTTING; one that enters it raises STATE, and a cut entered
with RUN low waits (R62, R63). -/
theorem State.enterCutting_running (hr : (s.head h).state.running = true) : ((s.enterCutting h).head h).state = .cutting ∧
    ((s.head h).state ≠ .cutting → (s.enterCutting h).flagged h .state = true ∧
      ((s.enterCutting h).head h).cutRunHigh = (s.head h).runHigh ∧
      ((s.enterCutting h).head h).cutWait = if (s.head h).runHigh then none else some 16) := by
  by_cases hst : (s.head h).state = .cutting
  · have hno : s.enterCutting h = s := by simp only [State.enterCutting, hst]
    rw [hno]
    exact ⟨hst, fun hne => absurd hst hne⟩
  · have hst' := HeadState.running_iff.mp hr
    simp only [hst, or_false] at hst'
    rw [State.enterCutting_head hst']
    exact ⟨by simp, fun _ => ⟨State.raise_flagged .., by simp, by simp [cutTicks]⟩⟩

theorem State.enterCutting_segment (h : HeadIx) (s : State) : ((s.enterCutting h).head h).segment = (s.head h).segment := by
  unfold State.enterCutting
  split <;> simp

theorem State.Carries.pitchFraction (H : s.Carries h t) : (t.head h).pitchFraction = (s.head h).pitchFraction := by
  have hm := H.meter
  simp only [Head.meter, Prod.mk.injEq] at hm
  obtain ⟨-, -, -, -, hpitch, -⟩ := hm
  exact hpitch

/-- What a count of the unwound length leaves of the limit's alarm: the state after it carries the one in which the limit was met. -/
theorem State.limitAt_carried {n : Nat} (ht : (s.limitAt h n).Carries h t) : (t.head h).limitNoted = ((s.head h).limitNoted || decide (lengthTop < n)) ∧
    (lengthTop < n → (s.head h).limitNoted = false → t.flagged h .alarm = true ∧ (t.attn.causesOf h).lengthLimit = true) := by
  refine ⟨?_, fun hn h0 => ?_⟩
  · have hm := ht.meter
    simp only [Head.meter, Prod.mk.injEq, State.limitAt_head] at hm
    obtain ⟨-, -, -, -, -, hnoted, -⟩ := hm
    exact hnoted
  · obtain ⟨hflag, hcause⟩ := State.limitAt_alarm hn h0
    exact ⟨ht.flags _ hflag, ht.causes h .lengthLimit hcause⟩

/-- Settles O10: the carry goes to the segment or to the unplanned count, up to the top. -/
theorem encPulseUnwinds : Obligations.EncPulseUnwinds := by
  unfold Obligations.EncPulseUnwinds
  intro h s S hk hc sum limits
  let m := s.updHead h Head.metered
  have hm : m.head h = (s.head h).metered := State.updHead_head ..
  have hexec : ∀ u, m.unwindCarry h (sum / 65536) = u → u.store = s.store → (s.head h).state.running = true →
      exec (.encPulse h) s = .next u := fun u hu hs hr =>
    congrArg Host.Outcome.next (State.change_eq S ((State.encPulse_unwinds hr hk hc).trans hu) hs)
  have hlimits : ∀ n t, (m.limitAt h (n + sum / 65536)).Carries h t → limits n t := by
    intro n t ht
    obtain ⟨hnoted, halarm⟩ := State.limitAt_carried ht
    rw [hm] at hnoted halarm
    refine ⟨fun hn => ⟨?_, halarm hn⟩, fun hn => ?_⟩
    · rw [hnoted, decide_eq_true (show lengthTop < _ from hn), Bool.or_true]
    · rw [hnoted, decide_eq_false (show ¬lengthTop < _ from Nat.not_lt.mpr hn), Bool.or_false]
      rfl
  refine ⟨fun g hst hg => ?segment, fun hst => ?held⟩
  case held =>
    refine ⟨_, hexec _ (State.unwindCarry_held (by rw [hm]; exact hst)) (State.limitAt_store ..) (HeadState.running_iff.mpr (.inr (.inr (.inl hst)))),
      ?_, ?_, ?_, hlimits _ _ ?_, State.limitAt_store ..⟩
    · rw [State.updHead_head, State.limitAt_head, hm]; rfl
    · rw [State.updHead_head, State.limitAt_head, hm]; rfl
    · rw [State.updHead_head, State.limitAt_head, hm]; exact hst
    · rw [hm]
      exact State.updHead_carries (fun _ => rfl) (.refl h _)
  case segment =>
    have hr : (s.head h).state.running = true := HeadState.running_iff.mpr (hst.imp_right (Or.imp_right .inr))
    let u := (m.limitAt h (g.unwound + sum / 65536)).updHead h fun x =>
      { x with segment := some { g with unwound := min (g.unwound + sum / 65536) lengthTop } }
    have hu : u.head h = { (s.head h).metered with
        segment := some { g with unwound := min (g.unwound + sum / 65536) lengthTop }
        limitNoted := (s.head h).limitNoted || decide (lengthTop < g.unwound + sum / 65536) } := by
      rw [State.updHead_head, State.limitAt_head, hm]; rfl
    have hcarries : (m.limitAt h (g.unwound + sum / 65536)).Carries h u := State.updHead_carries (fun _ => rfl) (.refl h _)
    have hstep := State.unwindCarry_segment (s := m) (c := sum / 65536) (by rw [hm]; exact hst) (by rw [hm]; exact hg)
    by_cases hend : g.planned ≤ min (g.unwound + sum / 65536) 4294967295
    · rw [if_pos (show g.planned ≤ min (g.unwound + sum / 65536) lengthTop from hend)] at hstep
      refine ⟨_, hexec _ hstep ((State.enterCutting_store h u).trans (State.limitAt_store ..)) hr, ?_⟩
      have hcut := State.enterCutting_carries (State.Carries.refl h u)
      obtain ⟨hcutting, hentered⟩ := State.enterCutting_running (s := u) (h := h) (by rw [hu]; exact hr)
      refine ⟨hcut.pitchFraction.trans (by rw [hu]; rfl), (State.enterCutting_segment h u).trans (by rw [hu]; rfl), ?_,
        fun _ hne => ?_, hlimits _ _ (hcarries.trans hcut), (State.enterCutting_store h u).trans (State.limitAt_store ..)⟩
      · rw [if_pos hend, hcutting]
      · rw [hu] at hentered
        exact hentered hne
    · rw [if_neg (show ¬g.planned ≤ min (g.unwound + sum / 65536) lengthTop from hend)] at hstep
      refine ⟨u, hexec _ hstep (State.limitAt_store ..) hr, ?_, ?_, ?_, fun hge => absurd hge hend, hlimits _ _ hcarries,
        State.limitAt_store ..⟩
      · rw [hu]; rfl
      · rw [hu]; rfl
      · rw [hu, if_neg hend]; rfl

end Sys2Proof.Machine
end

section
/-! PROOF. What the operations on a piece leave of its spans and of what holds its open and pending span (R25 to R29). -/

namespace Sys2Proof.Machine

variable {lo hi m start : Nat} {k : KindSet} {hd x : Holder} {n y z : Span} {l : List Span} {p q : Piece} {a b : HolderSet}

/-! ## Sets of holders -/

theorem HolderSet.put_has (a : HolderSet) (v : Bool) (hd x : Holder) : (a.put v hd).has x = if x = hd then v else a.has x := by
  rcases hd with _ | _ | _ | _ | n <;> rcases x with _ | _ | _ | _ | m <;> (try fin_cases n) <;> (try fin_cases m) <;> rfl

theorem HolderSet.add_has (a : HolderSet) (hd x : Holder) : (a.add hd).has x = if x = hd then true else a.has x := a.put_has true hd x

theorem HolderSet.drop_has (a : HolderSet) (hd x : Holder) : (a.drop hd).has x = if x = hd then false else a.has x :=
  a.put_has false hd x

theorem HolderSet.union_has (a b : HolderSet) (x : Holder) : (a.union b).has x = (a.has x || b.has x) := by
  rcases x with _ | _ | _ | _ | n <;> (try fin_cases n) <;> rfl

theorem HolderSet.empty_has (x : Holder) : ({} : HolderSet).has x = false := by
  rcases x with _ | _ | _ | _ | n <;> (try fin_cases n) <;> rfl

theorem HolderSet.isEmpty_of_has (h : a.has x = true) : a.isEmpty = false := by
  rw [HolderSet.isEmpty, Bool.not_eq_false']
  rcases x with _ | _ | _ | _ | n
  case feed => fin_cases n <;> simp_all [HolderSet.has]
  all_goals simp_all [HolderSet.has]

/-- What `b` holds `a` holds. -/
def HolderSet.Includes (a b : HolderSet) : Prop := ∀ x, b.has x = true → a.has x = true

/-! ## Spans that take up others -/

/-- Span `y` stands for span `x` in a list: its positions, its kinds and its holders are among those of `y`. -/
structure Span.Within (x y : Span) : Prop where
  lo : y.lo ≤ x.lo
  hi : x.hi ≤ y.hi
  kinds : y.kinds.Has x.kinds
  opens : x.isOpen = true → y.isOpen = true
  holders : y.holders.Includes x.holders

theorem Span.Within.refl (y : Span) : y.Within y := ⟨le_rfl, le_rfl, KindSet.has_refl _, id, fun _ => id⟩

theorem Span.within_unite_left (y z : Span) : y.Within (y.unite z) where
  lo := Nat.min_le_left ..
  hi := Nat.le_max_left ..
  kinds := KindSet.union_has_left ..
  opens h := by simp [Span.unite, h]
  holders x h := by simp [Span.unite, HolderSet.union_has, h]

theorem Span.within_unite_right (y z : Span) : z.Within (y.unite z) where
  lo := Nat.min_le_right ..
  hi := Nat.le_max_right ..
  kinds := KindSet.union_has_right ..
  opens h := by simp [Span.unite, h]
  holders x h := by simp [Span.unite, HolderSet.union_has, h]

theorem KindSet.Has.trans {a b c : KindSet} (h : a.Has b) (g : b.Has c) : a.Has c := by
  simp only [KindSet.Has, KindSet.union] at h g ⊢
  grind

theorem Span.Within.trans (h : y.Within z) (g : z.Within n) : y.Within n where
  lo := g.lo.trans h.lo
  hi := h.hi.trans g.hi
  kinds := g.kinds.trans h.kinds
  opens e := g.opens (h.opens e)
  holders x e := g.holders x (h.holders x e)

theorem within_gather (l : List Span) (n : Span) : n.Within (l.foldl Span.unite n) := by
  induction l generalizing n with
  | nil => exact .refl n
  | cons y l ih => exact (Span.within_unite_left n y).trans (ih (n.unite y))

theorem within_gather_mem (hy : y ∈ l) (n : Span) : y.Within (l.foldl Span.unite n) := by
  induction l generalizing n with
  | nil => cases hy
  | cons z l ih =>
    rcases List.mem_cons.mp hy with rfl | hy
    · exact (Span.within_unite_right n y).trans (within_gather l (n.unite y))
    · exact ih hy (n.unite z)

theorem gather_has_holder (l : List Span) (n : Span) (h : (l.foldl Span.unite n).holders.has x = true) :
    n.holders.has x = true ∨ ∃ y ∈ l, y.holders.has x = true := by
  induction l generalizing n with
  | nil => exact .inl h
  | cons y l ih =>
    rcases ih (n.unite y) h with h | ⟨z, hz, h⟩
    · rw [Span.unite, HolderSet.union_has, Bool.or_eq_true] at h
      exact h.imp_right fun h => ⟨y, List.mem_cons_self, h⟩
    · exact .inr ⟨z, List.mem_cons_of_mem y hz, h⟩

/-- Merge-nearest in a list with a span in it takes the new span up at the place of one of them. -/
theorem mergeNearest_place (n : Span) (l : List Span) : mergeNearest n l = insertSpan n l ∨ ∃ a ∈ l, mergeNearest n l = uniteAt a.lo n l := by
  unfold mergeNearest
  split
  case h_1 a b ha hb =>
    split
    · exact .inr ⟨a, (List.mem_filter.mp (List.mem_of_getLast? ha)).1, rfl⟩
    · exact .inr ⟨b, (List.mem_filter.mp (List.mem_of_head? hb)).1, rfl⟩
  case h_2 a ha hb => exact .inr ⟨a, (List.mem_filter.mp (List.mem_of_getLast? ha)).1, rfl⟩
  case h_3 b ha hb => exact .inr ⟨b, (List.mem_filter.mp (List.mem_of_head? hb)).1, rfl⟩
  case h_4 => exact .inl rfl

/-- Every span, old and new, stands for itself in the normalized list or within a span of it. -/
theorem normalize_within (n : Span) (l : List Span) : ∀ y ∈ n :: l, ∃ z ∈ (normalize n l).1, y.Within z := by
  intro y hy
  by_cases hfull : (∀ x ∈ l, n.meets x = false) ∧ 24 ≤ l.length
  · rw [normalize_merges hfull.1 hfull.2]
    rcases mergeNearest_place n l with e | ⟨a, ha, e⟩
    · rw [e]
      exact ⟨y, mem_insertSpan.mpr (List.mem_cons.mp hy), .refl y⟩
    · rw [e]
      rcases List.mem_cons.mp hy with rfl | hy
      · exact ⟨y.unite a, mem_uniteAt.mpr ⟨a, ha, if_pos rfl⟩, Span.within_unite_left y a⟩
      · refine ⟨_, mem_uniteAt.mpr ⟨y, hy, rfl⟩, ?_⟩
        split
        · exact Span.within_unite_right n y
        · exact .refl y
  · have hins : (∃ x ∈ l, n.meets x = true) ∨ l.length < 24 := by
      by_contra hno
      simp only [not_or, not_exists, not_and, Bool.not_eq_true, Nat.not_lt] at hno
      exact hfull hno
    rw [normalize_inserts hins]
    rcases List.mem_cons.mp hy with rfl | hy
    · exact ⟨_, mem_inserted.mpr (.inl rfl), within_gather ..⟩
    · cases hm : n.meets y
      · exact ⟨y, mem_inserted.mpr (.inr ⟨hy, hm⟩), .refl y⟩
      · exact ⟨_, mem_inserted.mpr (.inl rfl), within_gather_mem (List.mem_filter.mpr ⟨hy, hm⟩) n⟩

/-- Normalization puts no holder into a list that neither the list nor the span had. -/
theorem normalize_has_holder (hz : z ∈ (normalize n l).1) (h : z.holders.has x = true) :
    ∃ y ∈ n :: l, y.holders.has x = true := by
  by_cases hfull : (∀ y ∈ l, n.meets y = false) ∧ 24 ≤ l.length
  · rw [normalize_merges hfull.1 hfull.2] at hz
    rcases mergeNearest_place n l with e | ⟨a, ha, e⟩
    · rw [e, mem_insertSpan] at hz
      exact ⟨z, List.mem_cons.mpr hz, h⟩
    · rw [e] at hz
      obtain ⟨y, hy, rfl⟩ := mem_uniteAt.mp hz
      split at h
      · rw [Span.unite, HolderSet.union_has, Bool.or_eq_true] at h
        rcases h with h | h
        · exact ⟨n, List.mem_cons_self, h⟩
        · exact ⟨y, List.mem_cons_of_mem n hy, h⟩
      · exact ⟨y, List.mem_cons_of_mem n hy, h⟩
  · have hins : (∃ x ∈ l, n.meets x = true) ∨ l.length < 24 := by
      by_contra hno
      simp only [not_or, not_exists, not_and, Bool.not_eq_true, Nat.not_lt] at hno
      exact hfull hno
    rw [normalize_inserts hins] at hz
    rcases mem_inserted.mp hz with rfl | ⟨hz, -⟩
    · rcases gather_has_holder _ _ h with h | ⟨y, hy, h⟩
      · exact ⟨n, List.mem_cons_self, h⟩
      · exact ⟨y, List.mem_cons_of_mem n (List.mem_filter.mp hy).1, h⟩
    · exact ⟨z, List.mem_cons_of_mem n hz, h⟩

/-! ## What stands open -/

/-- The pending span of a piece as the open span it would enter the list as (R28). -/
def Pending.span (made : Nat) (q : Pending) : Span := ⟨q.pos, made, q.kinds, true, q.holders⟩

/-- A span of the piece that holders keep open: an open span of the list, or the pending span. -/
def Piece.Held (p : Piece) (y : Span) : Prop := (y ∈ p.spans ∧ y.isOpen = true) ∨ ∃ q, p.pending = some q ∧ y = q.span p.made

theorem Piece.heldFrom_iff : p.HeldFrom x start ↔
    ∃ y, p.Held y ∧ y.holders.has x = true ∧ y.kinds.Has (KindSet.only x.kind) ∧ y.lo ≤ start := by
  constructor
  · rintro (⟨y, hy, ho, hh, hk, hl⟩ | ⟨q, hq, hh, hk, hl⟩)
    · exact ⟨y, .inl ⟨hy, ho⟩, hh, hk, hl⟩
    · exact ⟨_, .inr ⟨q, hq, rfl⟩, hh, hk, hl⟩
  · rintro ⟨y, ⟨hy, ho⟩ | ⟨q, hq, rfl⟩, hh, hk, hl⟩
    · exact .inl ⟨y, hy, ho, hh, hk, hl⟩
    · exact .inr ⟨q, hq, hh, hk, hl⟩

theorem Piece.hasHolder_iff : p.hasHolder x = true ↔ (∃ o, p.openSpan = some o ∧ o.holders.has x = true) ∨
    ∃ q, p.pending = some q ∧ q.holders.has x = true := by
  rw [Piece.hasHolder, Bool.or_eq_true]
  refine or_congr ?_ ?_
  · cases e : p.openSpan <;> simp
  · cases e : p.pending <;> simp

theorem Piece.held_of_hasHolder (h : p.hasHolder x = true) : ∃ y, p.Held y ∧ y.holders.has x = true := by
  rcases Piece.hasHolder_iff.mp h with ⟨o, ho, h⟩ | ⟨q, hq, h⟩
  · exact ⟨o, .inl (Piece.openSpan_mem ho), h⟩
  · exact ⟨_, .inr ⟨q, hq, rfl⟩, h⟩

theorem Piece.Ok.open_unique (hp : p.Ok) (hy : y ∈ p.spans) (hz : z ∈ p.spans) (ho : y.isOpen = true) (hoz : z.isOpen = true) :
    y = z := by
  have hyok := hp.list.spans y hy
  have hzok := hp.list.spans z hz
  have := hyok.openTop ho
  have := hzok.openTop hoz
  have := hyok.nonempty
  have := hzok.nonempty
  rcases apart_of_mem hp.list.apart hy hz with h | h | h
  · exact h
  · omega
  · omega

theorem Piece.Ok.openSpan_of_mem (hp : p.Ok) (hy : y ∈ p.spans) (ho : y.isOpen = true) : p.openSpan = some y := by
  cases e : p.openSpan with
  | none => exact absurd ho (by simp [Piece.openSpan_eq_none.mp e y hy])
  | some o =>
    obtain ⟨hmem, hopen⟩ := Piece.openSpan_mem e
    rw [hp.open_unique hmem hy hopen ho]

theorem Piece.Ok.hasHolder_iff (hp : p.Ok) : p.hasHolder x = true ↔ ∃ y, p.Held y ∧ y.holders.has x = true := by
  refine ⟨Piece.held_of_hasHolder, ?_⟩
  rintro ⟨y, ⟨hy, ho⟩ | ⟨q, hq, rfl⟩, h⟩
  · exact Piece.hasHolder_iff.mpr (.inl ⟨y, hp.openSpan_of_mem hy ho, h⟩)
  · exact Piece.hasHolder_iff.mpr (.inr ⟨q, hq, h⟩)

/-- In a piece in order a span with a holder stands open. -/
theorem Piece.Ok.open_of_has (hp : p.Ok) (hy : y ∈ p.spans) (h : y.holders.has x = true) : y.isOpen = true := by
  rw [(hp.list.spans y hy).openHolders, HolderSet.isEmpty_of_has h]
  rfl

theorem Piece.HeldFrom.hasHolder (hp : p.Ok) (h : p.HeldFrom x start) : p.hasHolder x = true := by
  obtain ⟨y, hy, hh, -⟩ := Piece.heldFrom_iff.mp h
  exact hp.hasHolder_iff.mpr ⟨y, hy, hh⟩

end Sys2Proof.Machine
end

section
/-! PROOF. What adding, releasing and swapping a holder and the advance of the made length leave of a piece (R27 to R29). -/

namespace Sys2Proof.Machine

variable {lo hi m start : Nat} {k : KindSet} {hd x a b : Holder} {n y z : Span} {l : List Span} {p q u : Piece} {f : Span → Span}

/-! ## The two relations -/

/-- Every span of `p` lies in a span of `q` that has its kinds. -/
def Piece.Covers (q p : Piece) : Prop := ∀ y ∈ p.spans, ∃ z ∈ q.spans, z.lo ≤ y.lo ∧ y.hi ≤ z.hi ∧ z.kinds.Has y.kinds

theorem Piece.Covers.refl (p : Piece) : p.Covers p := fun y hy => ⟨y, hy, le_rfl, le_rfl, KindSet.has_refl _⟩

theorem Piece.Covers.trans (g : u.Covers q) (h : q.Covers p) : u.Covers p := by
  intro y hy
  obtain ⟨z, hz, hlo, hhi, hk⟩ := h y hy
  obtain ⟨w, hw, hlo', hhi', hk'⟩ := g z hz
  exact ⟨w, hw, hlo'.trans hlo, hhi.trans hhi', hk'.trans hk⟩

theorem Piece.Covers.marks (h : q.Covers p) : p.Marks lo hi k → q.Marks lo hi k := by
  rintro ⟨y, hy, hlo, hhi, hk⟩
  obtain ⟨z, hz, hzlo, hzhi, hzk⟩ := h y hy
  exact ⟨z, hz, hzlo.trans hlo, hhi.trans hzhi, hzk.trans hk⟩

/-- What holder `x` keeps open in `p` it keeps open in `q`, from there or further back, with the kinds it had. -/
def Piece.StillHolds (q : Piece) (x : Holder) (p : Piece) : Prop :=
  ∀ y, p.Held y → y.holders.has x = true → ∃ z, q.Held z ∧ z.holders.has x = true ∧ z.kinds.Has y.kinds ∧ z.lo ≤ y.lo

theorem Piece.StillHolds.refl (x : Holder) (p : Piece) : p.StillHolds x p := fun y hy h => ⟨y, hy, h, KindSet.has_refl _, le_rfl⟩

theorem Piece.StillHolds.trans (g : u.StillHolds x q) (h : q.StillHolds x p) : u.StillHolds x p := by
  intro y hy hx
  obtain ⟨z, hz, hzx, hk, hlo⟩ := h y hy hx
  obtain ⟨w, hw, hwx, hk', hlo'⟩ := g z hz hzx
  exact ⟨w, hw, hwx, hk'.trans hk, hlo'.trans hlo⟩

theorem Piece.StillHolds.heldFrom (h : q.StillHolds x p) (e : p.HeldFrom x start) : q.HeldFrom x start := by
  obtain ⟨y, hy, hx, hk, hlo⟩ := Piece.heldFrom_iff.mp e
  obtain ⟨z, hz, hzx, hzk, hzlo⟩ := h y hy hx
  exact Piece.heldFrom_iff.mpr ⟨z, hz, hzx, hzk.trans hk, hzlo.trans hlo⟩

theorem Piece.StillHolds.hasHolder (h : q.StillHolds x p) (hq : q.Ok) (e : p.hasHolder x = true) : q.hasHolder x = true := by
  obtain ⟨y, hy, hx⟩ := Piece.held_of_hasHolder e
  obtain ⟨z, hz, hzx, -⟩ := h y hy hx
  exact hq.hasHolder_iff.mpr ⟨z, hz, hzx⟩

/-! ## A span added -/

theorem Piece.addSpan_covers (n : Span) (p : Piece) : (p.addSpan n).1.Covers p := by
  intro y hy
  obtain ⟨z, hz, w⟩ := normalize_within n p.spans y (List.mem_cons_of_mem n hy)
  exact ⟨z, hz, w.lo, w.hi, w.kinds⟩

theorem Piece.addSpan_marks (n : Span) (p : Piece) : (p.addSpan n).1.Marks n.lo n.hi n.kinds := by
  obtain ⟨z, hz, w⟩ := normalize_within n p.spans n List.mem_cons_self
  exact ⟨z, hz, w.lo, w.hi, w.kinds⟩

theorem Piece.addSpan_stillHolds (n : Span) (x : Holder) (p : Piece) : (p.addSpan n).1.StillHolds x p := by
  rintro y (⟨hy, ho⟩ | ⟨q, hq, rfl⟩) hx
  · obtain ⟨z, hz, w⟩ := normalize_within n p.spans y (List.mem_cons_of_mem n hy)
    exact ⟨z, .inl ⟨hz, w.opens ho⟩, w.holders x hx, w.kinds, w.lo⟩
  · exact ⟨_, .inr ⟨q, hq, rfl⟩, hx, KindSet.has_refl _, le_rfl⟩

theorem Piece.addSpan_holds (ho : n.isOpen = true) (p : Piece) (hx : n.holders.has x = true) :
    ∃ z, (p.addSpan n).1.Held z ∧ z.holders.has x = true ∧ z.kinds.Has n.kinds ∧ z.lo ≤ n.lo := by
  obtain ⟨z, hz, w⟩ := normalize_within n p.spans n List.mem_cons_self
  exact ⟨z, .inl ⟨hz, w.opens ho⟩, w.holders x hx, w.kinds, w.lo⟩

theorem Piece.Ok.hasHolder_addSpan (hp : p.Ok) (h : (p.addSpan n).1.hasHolder x = true) :
    n.holders.has x = true ∨ p.hasHolder x = true := by
  obtain ⟨z, ⟨hz, -⟩ | ⟨q, hq, rfl⟩, hx⟩ := Piece.held_of_hasHolder h
  · obtain ⟨y, hy, hyx⟩ := normalize_has_holder hz hx
    rcases List.mem_cons.mp hy with rfl | hy
    · exact .inl hyx
    · exact .inr (hp.hasHolder_iff.mpr ⟨y, .inl ⟨hy, hp.open_of_has hy hyx⟩, hyx⟩)
  · exact .inr (hp.hasHolder_iff.mpr ⟨_, .inr ⟨q, hq, rfl⟩, hx⟩)

/-! ## The open span changed -/

theorem Piece.mem_mapOpen : z ∈ (p.mapOpen f).spans ↔ ∃ y ∈ p.spans, (if y.isOpen then f y else y) = z := by
  rw [Piece.mapOpen, List.mem_map]

theorem Piece.mapOpen_covers (hf : ∀ y, (f y).lo = y.lo ∧ (f y).hi = y.hi ∧ (f y).kinds.Has y.kinds) : (p.mapOpen f).Covers p := by
  intro y hy
  refine ⟨_, Piece.mem_mapOpen.mpr ⟨y, hy, rfl⟩, ?_⟩
  split
  · exact ⟨(hf y).1.le, (hf y).2.1.ge, (hf y).2.2⟩
  · exact ⟨le_rfl, le_rfl, KindSet.has_refl _⟩

theorem Piece.mapOpen_held (hz : z ∈ (p.mapOpen f).spans) (ho : z.isOpen = true) : ∃ y ∈ p.spans, y.isOpen = true ∧ f y = z := by
  obtain ⟨y, hy, e⟩ := Piece.mem_mapOpen.mp hz
  split at e
  case isTrue hyo => exact ⟨y, hy, hyo, e⟩
  case isFalse hyo => exact absurd (e ▸ ho) hyo

theorem Piece.mapOpen_mem (hy : y ∈ p.spans) (ho : y.isOpen = true) : f y ∈ (p.mapOpen f).spans :=
  Piece.mem_mapOpen.mpr ⟨y, hy, if_pos ho⟩

/-! ## A holder added (R28) -/

/-- The open or pending span with a holder put in, and the kind it gives. -/
def Span.withHolder (hd : Holder) (y : Span) : Span :=
  { y with holders := y.holders.add hd, kinds := y.kinds.union (KindSet.only hd.kind) }

theorem Span.withHolder_has (hd x : Holder) (y : Span) : (y.withHolder hd).holders.has x = if x = hd then true else y.holders.has x :=
  HolderSet.add_has ..

theorem HolderSet.single_has (hd x : Holder) : (HolderSet.add {} hd).has x = decide (x = hd) := by
  rw [HolderSet.add_has, HolderSet.empty_has]
  split <;> simp [*]

/-- The five cases of R28: an open span that begins early enough takes the holder, a span from the start is added beside a later one,
and a pending span takes it while the start is not below the made length. -/
theorem Piece.addHolder_cases (hd : Holder) (start : Nat) (p : Piece) :
    (∃ o, p.openSpan = some o ∧ o.lo ≤ start ∧ p.addHolder hd start = (p.mapOpen (Span.withHolder hd), false)) ∨
    (∃ o, p.openSpan = some o ∧ start < o.lo ∧
      p.addHolder hd start = p.addSpan ⟨start, p.made, KindSet.only hd.kind, true, HolderSet.add {} hd⟩) ∨
    (p.openSpan = none ∧ ∃ q, p.pending = some q ∧ start < p.made ∧ p.addHolder hd start =
      Piece.addSpan { (q.span p.made).withHolder hd with lo := start } { p with pending := none }) ∨
    (p.openSpan = none ∧ ∃ q, p.pending = some q ∧ p.made ≤ start ∧ p.addHolder hd start =
      ({ p with pending := some { q with holders := q.holders.add hd, kinds := q.kinds.union (KindSet.only hd.kind) } }, false)) ∨
    (p.openSpan = none ∧ p.pending = none ∧ start < p.made ∧
      p.addHolder hd start = p.addSpan ⟨start, p.made, KindSet.only hd.kind, true, HolderSet.add {} hd⟩) ∨
    (p.openSpan = none ∧ p.pending = none ∧ p.made ≤ start ∧
      p.addHolder hd start = ({ p with pending := some ⟨p.made, KindSet.only hd.kind, HolderSet.add {} hd⟩ }, false)) := by
  cases eo : p.openSpan with
  | some o =>
    by_cases h : o.lo ≤ start
    · exact .inl ⟨o, rfl, h, by simp only [Piece.addHolder, eo, h, if_true]; rfl⟩
    · exact .inr (.inl ⟨o, rfl, Nat.lt_of_not_le h, by simp only [Piece.addHolder, eo, h, if_false]⟩)
  | none =>
    cases eq : p.pending with
    | some q =>
      by_cases h : start < p.made
      · exact .inr (.inr (.inl ⟨rfl, q, rfl, h, by simp only [Piece.addHolder, eo, eq, h, if_true]; rfl⟩))
      · exact .inr (.inr (.inr (.inl ⟨rfl, q, rfl, Nat.le_of_not_lt h, by simp only [Piece.addHolder, eo, eq, h, if_false]⟩)))
    | none =>
      by_cases h : start < p.made
      · exact .inr (.inr (.inr (.inr (.inl ⟨rfl, rfl, h, by simp only [Piece.addHolder, eo, eq, h, if_true]⟩))))
      · exact .inr (.inr (.inr (.inr (.inr ⟨rfl, rfl, Nat.le_of_not_lt h, by simp only [Piece.addHolder, eo, eq, h, if_false]⟩))))

theorem Piece.addHolder_covers (hd : Holder) (start : Nat) (p : Piece) : (p.addHolder hd start).1.Covers p := by
  rcases Piece.addHolder_cases hd start p with ⟨o, -, -, e⟩ | ⟨o, -, -, e⟩ | ⟨-, q, -, -, e⟩ | ⟨-, q, -, -, e⟩ | ⟨-, -, -, e⟩ | ⟨-, -, -, e⟩ <;>
    rw [e]
  · exact Piece.mapOpen_covers fun y => ⟨rfl, rfl, KindSet.union_has_left ..⟩
  · exact Piece.addSpan_covers _ p
  · exact Piece.addSpan_covers _ { p with pending := none }
  · exact Piece.Covers.refl p
  · exact Piece.addSpan_covers _ p
  · exact Piece.Covers.refl p

theorem Piece.addHolder_stillHolds (hp : p.Ok) (hd x : Holder) (start : Nat) : (p.addHolder hd start).1.StillHolds x p := by
  have keeps (y : Span) (hx : y.holders.has x = true) : (y.withHolder hd).holders.has x = true := by
    rw [Span.withHolder_has, hx, ite_self]
  rcases Piece.addHolder_cases hd start p with ⟨o, ho, -, e⟩ | ⟨o, -, -, e⟩ | ⟨hno, q, hq, hs, e⟩ | ⟨hno, q, hq, -, e⟩ | ⟨-, -, -, e⟩ |
    ⟨hno, hq, -, e⟩ <;> rw [e]
  · rintro y (⟨hy, hyo⟩ | ⟨q, hq, -⟩) hx
    · exact ⟨_, .inl ⟨Piece.mapOpen_mem hy hyo, hyo⟩, keeps y hx, KindSet.union_has_left .., le_rfl⟩
    · exact absurd ((hp.pending q hq).alone.symm.trans ho) nofun
  · exact Piece.addSpan_stillHolds _ x p
  · rintro y (⟨hy, hyo⟩ | ⟨q', hq', rfl⟩) hx
    · exact absurd hyo (by simp [Piece.openSpan_eq_none.mp hno y hy])
    · cases hq.symm.trans hq'
      obtain ⟨z, hz, hzx, hzk, hzlo⟩ := Piece.addSpan_holds (n := { (q.span p.made).withHolder hd with lo := start }) rfl
        { p with pending := none } (keeps _ hx)
      refine ⟨z, hz, hzx, hzk.trans (KindSet.union_has_left ..), hzlo.trans ?_⟩
      have := (hp.pending q hq).atTop
      show start ≤ q.pos
      omega
  · rintro y (⟨hy, hyo⟩ | ⟨q', hq', rfl⟩) hx
    · exact absurd hyo (by simp [Piece.openSpan_eq_none.mp hno y hy])
    · cases hq.symm.trans hq'
      exact ⟨_, .inr ⟨_, rfl, rfl⟩, keeps _ hx, KindSet.union_has_left .., le_rfl⟩
  · exact Piece.addSpan_stillHolds _ x p
  · rintro y (⟨hy, hyo⟩ | ⟨q', hq', rfl⟩) hx
    · exact absurd hyo (by simp [Piece.openSpan_eq_none.mp hno y hy])
    · cases hq.symm.trans hq'

theorem Piece.addHolder_heldFrom (hp : p.Ok) (hd : Holder) (start : Nat) : (p.addHolder hd start).1.HeldFrom hd start := by
  have single : ((HolderSet.add {} hd).has hd) = true := by rw [HolderSet.single_has, decide_eq_true rfl]
  have joined (y : Span) : (y.withHolder hd).holders.has hd = true := by rw [Span.withHolder_has, if_pos rfl]
  refine Piece.heldFrom_iff.mpr ?_
  rcases Piece.addHolder_cases hd start p with ⟨o, ho, hlo, e⟩ | ⟨o, -, -, e⟩ | ⟨-, q, hq, hs, e⟩ | ⟨-, q, hq, hs, e⟩ | ⟨-, -, -, e⟩ |
    ⟨-, hq, hs, e⟩ <;> rw [e]
  · obtain ⟨hmem, hopen⟩ := Piece.openSpan_mem ho
    exact ⟨_, .inl ⟨Piece.mapOpen_mem hmem hopen, hopen⟩, joined o, KindSet.union_has_right .., hlo⟩
  · exact Piece.addSpan_holds rfl p single
  · obtain ⟨z, hz, hzx, hzk, hzlo⟩ := Piece.addSpan_holds (n := { (q.span p.made).withHolder hd with lo := start }) rfl
      { p with pending := none } (joined _)
    exact ⟨z, hz, hzx, hzk.trans (KindSet.union_has_right ..), hzlo⟩
  · refine ⟨_, .inr ⟨_, rfl, rfl⟩, joined (q.span p.made), KindSet.union_has_right .., ?_⟩
    have := (hp.pending q hq).atTop
    show q.pos ≤ start
    omega
  · exact Piece.addSpan_holds rfl p single
  · exact ⟨_, .inr ⟨_, rfl, rfl⟩, single, KindSet.has_refl _, hs⟩

theorem Piece.Ok.withoutPending (hp : p.Ok) : Piece.Ok { p with pending := none } := ⟨hp.list, nofun⟩

theorem Piece.Ok.of_hasHolder_addHolder (hp : p.Ok) (hx : x ≠ hd) (h : (p.addHolder hd start).1.hasHolder x = true) :
    p.hasHolder x = true := by
  have other : ¬(HolderSet.add {} hd).has x = true := by simp [HolderSet.single_has, hx]
  have back (y : Span) (h : (y.withHolder hd).holders.has x = true) : y.holders.has x = true := by
    rwa [Span.withHolder_has, if_neg hx] at h
  rcases Piece.addHolder_cases hd start p with ⟨o, ho, hlo, e⟩ | ⟨o, -, -, e⟩ | ⟨-, q, hq, hs, e⟩ | ⟨-, q, hq, hs, e⟩ | ⟨-, -, -, e⟩ |
    ⟨-, hq, hs, e⟩ <;> rw [e] at h
  · obtain ⟨z, ⟨hz, hzo⟩ | ⟨q, hq, rfl⟩, hzx⟩ := Piece.held_of_hasHolder h
    · obtain ⟨y, hy, hyo, rfl⟩ := Piece.mapOpen_held hz hzo
      exact hp.hasHolder_iff.mpr ⟨y, .inl ⟨hy, hyo⟩, back y hzx⟩
    · exact hp.hasHolder_iff.mpr ⟨_, .inr ⟨q, hq, rfl⟩, hzx⟩
  · exact (hp.hasHolder_addSpan h).resolve_left other
  · rcases hp.withoutPending.hasHolder_addSpan h with h | h
    · exact hp.hasHolder_iff.mpr ⟨_, .inr ⟨q, hq, rfl⟩, back (q.span p.made) h⟩
    · obtain ⟨y, ⟨hy, hyo⟩ | ⟨q, hq, -⟩, hyx⟩ := Piece.held_of_hasHolder h
      · exact hp.hasHolder_iff.mpr ⟨y, .inl ⟨hy, hyo⟩, hyx⟩
      · cases hq
  · obtain ⟨z, ⟨hz, hzo⟩ | ⟨q', hq', rfl⟩, hzx⟩ := Piece.held_of_hasHolder h
    · exact hp.hasHolder_iff.mpr ⟨z, .inl ⟨hz, hzo⟩, hzx⟩
    · cases hq'
      exact hp.hasHolder_iff.mpr ⟨_, .inr ⟨q, hq, rfl⟩, back (q.span p.made) hzx⟩
  · exact (hp.hasHolder_addSpan h).resolve_left other
  · obtain ⟨z, ⟨hz, hzo⟩ | ⟨q', hq', rfl⟩, hzx⟩ := Piece.held_of_hasHolder h
    · exact hp.hasHolder_iff.mpr ⟨z, .inl ⟨hz, hzo⟩, hzx⟩
    · cases hq'
      exact absurd hzx other

/-! ## A holder released (R29) -/

theorem Piece.releaseHolder_covers (hd : Holder) (p : Piece) : (p.releaseHolder hd).Covers p := by
  refine Piece.mapOpen_covers (p := p) (f := fun y => Span.settle { y with holders := y.holders.drop hd }) fun y => ?_
  unfold Span.settle
  split <;> exact ⟨rfl, rfl, KindSet.has_refl _⟩

theorem HolderSet.drop_not_empty (hx : x ≠ hd) {a : HolderSet} (h : a.has x = true) : (a.drop hd).isEmpty = false :=
  HolderSet.isEmpty_of_has (x := x) (by rwa [HolderSet.drop_has, if_neg hx])

theorem Piece.releaseHolder_stillHolds (hx : x ≠ hd) (p : Piece) : (p.releaseHolder hd).StillHolds x p := by
  rintro y (⟨hy, hyo⟩ | ⟨q, hq, rfl⟩) h
  · have hne := HolderSet.drop_not_empty hx h
    refine ⟨{ y with holders := y.holders.drop hd }, .inl ⟨?_, hyo⟩, ?_, KindSet.has_refl _, le_rfl⟩
    · refine Piece.mem_mapOpen.mpr ⟨y, hy, ?_⟩
      simp only [hyo, if_true, Span.settle, hne, Bool.false_eq_true, if_false]
    · rw [HolderSet.drop_has, if_neg hx, h]
  · have hne : (q.holders.drop hd).isEmpty = false := HolderSet.drop_not_empty hx h
    refine ⟨_, .inr ⟨{ q with holders := q.holders.drop hd }, ?_, rfl⟩, ?_, KindSet.has_refl _, le_rfl⟩
    · show (p.pending.bind fun q => Pending.settle { q with holders := q.holders.drop hd }) = _
      simp only [hq, Option.bind_some, Pending.settle, hne, Bool.false_eq_true, if_false]
    · exact (HolderSet.drop_has ..).trans ((if_neg hx).trans h)

/-- A span that the release of `hd` leaves held was held, with the holders it has now. -/
theorem Piece.releaseHolder_held (hz : (p.releaseHolder hd).Held z) : ∃ y, p.Held y ∧ z.holders = y.holders.drop hd := by
  obtain ⟨hz, hzo⟩ | ⟨q', hq', rfl⟩ := hz
  · obtain ⟨y, hy, hyo, rfl⟩ := Piece.mapOpen_held (p := p) (f := fun y => Span.settle { y with holders := y.holders.drop hd }) hz hzo
    refine ⟨y, .inl ⟨hy, hyo⟩, ?_⟩
    unfold Span.settle
    split <;> rfl
  · change (p.pending.bind fun q => Pending.settle { q with holders := q.holders.drop hd }) = some q' at hq'
    obtain ⟨q, hq, e⟩ := Option.bind_eq_some_iff.mp hq'
    refine ⟨_, .inr ⟨q, hq, rfl⟩, ?_⟩
    unfold Pending.settle at e
    split at e
    · cases e
    · cases e
      rfl

theorem Piece.releaseHolder_hasHolder (hd : Holder) (p : Piece) : (p.releaseHolder hd).hasHolder hd = false := by
  rw [← Bool.not_eq_true]
  intro h
  obtain ⟨z, hz, hzx⟩ := Piece.held_of_hasHolder h
  obtain ⟨y, -, e⟩ := Piece.releaseHolder_held hz
  rw [e, HolderSet.drop_has, if_pos rfl] at hzx
  cases hzx

theorem Piece.Ok.of_hasHolder_releaseHolder (hp : p.Ok) (h : (p.releaseHolder hd).hasHolder x = true) : p.hasHolder x = true := by
  obtain ⟨z, hz, hzx⟩ := Piece.held_of_hasHolder h
  obtain ⟨y, hy, e⟩ := Piece.releaseHolder_held hz
  refine hp.hasHolder_iff.mpr ⟨y, hy, ?_⟩
  rw [e, HolderSet.drop_has] at hzx
  split at hzx
  · cases hzx
  · exact hzx

/-! ## A holder swapped (R29) -/

/-- A set with one holder in the place of another. -/
def HolderSet.swap (a b : Holder) (s : HolderSet) : HolderSet := (s.drop a).add b

theorem HolderSet.swap_has (a b x : Holder) (s : HolderSet) :
    (s.swap a b).has x = if x = b then true else if x = a then false else s.has x := by
  rw [HolderSet.swap, HolderSet.add_has, HolderSet.drop_has]

theorem Piece.swapHolder_covers (a b : Holder) (p : Piece) : (p.swapHolder a b).Covers p :=
  Piece.mapOpen_covers (p := p) fun _ => ⟨rfl, rfl, KindSet.has_refl _⟩

/-- Every span that is held stays held, from where it begins and with its kinds, by the holders that the swap leaves. -/
theorem Piece.swapHolder_holds (hy : p.Held y) : (p.swapHolder a b).Held { y with holders := y.holders.swap a b } := by
  obtain ⟨hy, hyo⟩ | ⟨q, hq, rfl⟩ := hy
  · exact .inl ⟨Piece.mapOpen_mem (f := fun y => { y with holders := y.holders.swap a b }) hy hyo, hyo⟩
  · refine .inr ⟨{ q with holders := q.holders.swap a b }, ?_, rfl⟩
    show (p.pending.map fun q => { q with holders := (q.holders.drop a).add b }) = _
    rw [hq]
    rfl

theorem Piece.swapHolder_held (hz : (p.swapHolder a b).Held z) : ∃ y, p.Held y ∧ z.holders = y.holders.swap a b := by
  obtain ⟨hz, hzo⟩ | ⟨q', hq', rfl⟩ := hz
  · obtain ⟨y, hy, hyo, rfl⟩ := Piece.mapOpen_held (p := p) (f := fun y => { y with holders := y.holders.swap a b }) hz hzo
    exact ⟨y, .inl ⟨hy, hyo⟩, rfl⟩
  · change (p.pending.map fun q => { q with holders := q.holders.swap a b }) = some q' at hq'
    obtain ⟨q, hq, rfl⟩ := Option.map_eq_some_iff.mp hq'
    exact ⟨_, .inr ⟨q, hq, rfl⟩, rfl⟩

theorem Piece.swapHolder_dropped (hab : a ≠ b) (p : Piece) : (p.swapHolder a b).hasHolder a = false := by
  rw [← Bool.not_eq_true]
  intro h
  obtain ⟨z, hz, hzx⟩ := Piece.held_of_hasHolder h
  obtain ⟨y, -, e⟩ := Piece.swapHolder_held hz
  rw [e, HolderSet.swap_has, if_neg hab, if_pos rfl] at hzx
  cases hzx

theorem Piece.openSpan_mapOpen (hf : ∀ y, (f y).isOpen = y.isOpen) : (p.mapOpen f).openSpan = p.openSpan.map f := by
  have hcomp : (Span.isOpen ∘ fun y => if y.isOpen then f y else y) = Span.isOpen := by
    funext y
    by_cases hy : y.isOpen = true <;> simp [hy, hf]
  rw [Piece.openSpan, Piece.mapOpen, List.find?_map, hcomp, Piece.openSpan]
  cases e : p.spans.find? Span.isOpen with
  | none => rfl
  | some o => simp [List.find?_some e]

theorem Piece.swapHolder_added (h : p.hasHolder x = true) : (p.swapHolder a b).hasHolder b = true := by
  refine Piece.hasHolder_iff.mpr ((Piece.hasHolder_iff.mp h).imp ?_ ?_)
  · rintro ⟨o, ho, -⟩
    refine ⟨{ o with holders := o.holders.swap a b }, ?_, by rw [HolderSet.swap_has, if_pos rfl]⟩
    exact (Piece.openSpan_mapOpen (p := p) (f := fun y => { y with holders := y.holders.swap a b }) fun _ => rfl).trans
      (by rw [ho]; rfl)
  · rintro ⟨q, hq, -⟩
    refine ⟨{ q with holders := q.holders.swap a b }, ?_, by rw [HolderSet.swap_has, if_pos rfl]⟩
    show (p.pending.map fun q => { q with holders := q.holders.swap a b }) = _
    rw [hq]
    rfl

/-! ## The made length advanced (R22, R28) -/

/-- A piece whose open span follows the made length `m`. -/
def Piece.grown (m : Nat) (p : Piece) : Piece := { p.mapOpen (fun y => { y with hi := m }) with made := m }

theorem Piece.advanceTo_cases (m : Nat) (p : Piece) : (p.pending = none ∧ p.advanceTo m = (p.grown m, false)) ∨
    ∃ q, p.pending = some q ∧ p.advanceTo m = Piece.addSpan (q.span m) { p.grown m with pending := none } := by
  cases hq : p.pending with
  | none => exact .inl ⟨rfl, by simp only [Piece.advanceTo, Piece.grown, Piece.mapOpen, hq]⟩
  | some q => exact .inr ⟨q, rfl, by simp only [Piece.advanceTo, Piece.mapOpen, hq]; rfl⟩

theorem Piece.grown_mem (hy : y ∈ p.spans) (ho : y.isOpen = true) : { y with hi := m } ∈ (p.grown m).spans :=
  Piece.mapOpen_mem (f := fun y => { y with hi := m }) hy ho

theorem Piece.advanceTo_covers (m : Nat) (p : Piece) : (p.advanceTo m).1.Covers (p.grown m) := by
  rcases Piece.advanceTo_cases m p with ⟨-, e⟩ | ⟨q, -, e⟩ <;> rw [e]
  · exact .refl _
  · exact Piece.addSpan_covers _ { p.grown m with pending := none }

theorem Piece.advanceTo_marks_open (hy : y ∈ p.spans) (ho : y.isOpen = true) : (p.advanceTo m).1.Marks y.lo m y.kinds := by
  obtain ⟨z, hz, hlo, hhi, hk⟩ := Piece.advanceTo_covers m p _ (Piece.grown_mem hy ho)
  exact ⟨z, hz, hlo, hhi, hk⟩

theorem Piece.advanceTo_marks_pending {q : Pending} (hq : p.pending = some q) : (p.advanceTo m).1.Marks q.pos m q.kinds := by
  rcases Piece.advanceTo_cases m p with ⟨h, -⟩ | ⟨q', hq', e⟩
  · cases h.symm.trans hq
  · cases hq.symm.trans hq'
    rw [e]
    exact Piece.addSpan_marks (q.span m) { p.grown m with pending := none }

theorem Piece.advanceTo_stillHolds (m : Nat) (x : Holder) (p : Piece) : (p.advanceTo m).1.StillHolds x p := by
  rcases Piece.advanceTo_cases m p with ⟨hq, e⟩ | ⟨q, hq, e⟩ <;> rw [e]
  · rintro y (⟨hy, ho⟩ | ⟨q, hq', -⟩) hx
    · exact ⟨_, .inl ⟨Piece.grown_mem hy ho, ho⟩, hx, KindSet.has_refl _, le_rfl⟩
    · cases hq.symm.trans hq'
  · rintro y (⟨hy, ho⟩ | ⟨q', hq', rfl⟩) hx
    · exact Piece.addSpan_stillHolds (q.span m) x { p.grown m with pending := none } { y with hi := m }
        (.inl ⟨Piece.grown_mem hy ho, ho⟩) hx
    · cases hq.symm.trans hq'
      exact Piece.addSpan_holds rfl { p.grown m with pending := none } hx

theorem Piece.Ok.of_hasHolder_advanceTo (hp : p.Ok) (h : (p.advanceTo m).1.hasHolder x = true) : p.hasHolder x = true := by
  have listed {z : Span} (hz : z ∈ (p.grown m).spans) (hx : z.holders.has x = true) : p.hasHolder x = true := by
    obtain ⟨y, hy, rfl⟩ := Piece.mem_mapOpen.mp hz
    have hyx : y.holders.has x = true := by
      split at hx <;> exact hx
    exact hp.hasHolder_iff.mpr ⟨y, .inl ⟨hy, hp.open_of_has hy hyx⟩, hyx⟩
  obtain ⟨z, hz, hzx⟩ := Piece.held_of_hasHolder h
  rcases Piece.advanceTo_cases m p with ⟨hq, e⟩ | ⟨q, hq, e⟩ <;> rw [e] at hz
  · obtain ⟨hz, -⟩ | ⟨q, hq', -⟩ := hz
    · exact listed hz hzx
    · cases hq.symm.trans hq'
  · obtain ⟨hz, -⟩ | ⟨q', hq', -⟩ := hz
    · obtain ⟨y, hy, hyx⟩ := normalize_has_holder hz hzx
      rcases List.mem_cons.mp hy with rfl | hy
      · exact hp.hasHolder_iff.mpr ⟨_, .inr ⟨q, hq, rfl⟩, hyx⟩
      · exact listed hy hyx
    · cases hq'

end Sys2Proof.Machine
end

section
/-! PROOF. The pieces of live records: which operation alters one, and what a whole change leaves of it. -/

namespace Sys2Proof.Machine

variable {n k start : Nat} {x hd a b : Holder} {s t u : State} {h : HeadIx} {r : Record} {p q : Piece} {f : Piece → Piece × Bool}

/-- The piece of a live record. -/
def State.pieceOf (s : State) (n : Nat) : Option Piece := (s.find n).bind fun r => r.body.piece

theorem State.pieceOf_of_find (e : t.find n = s.find n) : t.pieceOf n = s.pieceOf n := by rw [State.pieceOf, e, State.pieceOf]

theorem State.pieceOf_of_store (e : t.store = s.store) : t.pieceOf n = s.pieceOf n := State.pieceOf_of_find (State.find_of_store e n)

theorem State.pieceOf_eq_some : s.pieceOf n = some p ↔ ∃ r, s.find n = some r ∧ r.body.piece = some p := by
  rw [State.pieceOf, Option.bind_eq_some_iff]

theorem State.pieceOf_made (er : s.find n = some r) (ep : s.pieceOf n = some p) : r.made = p.made := by
  rw [State.pieceOf, er, Option.bind_some] at ep
  rw [Record.made, ep]
  rfl

theorem State.hasHolder_iff : s.hasHolder n x = true ↔ ∃ p, s.pieceOf n = some p ∧ p.hasHolder x = true := by
  unfold State.hasHolder State.pieceOf
  cases e : (s.find n).bind fun r => r.body.piece <;> simp

theorem State.hasHolder_of_piece (e : s.pieceOf n = some p) : s.hasHolder n x = p.hasHolder x := by
  unfold State.pieceOf at e
  simp only [State.hasHolder, e]

theorem State.hasHolder_congr (e : t.pieceOf n = s.pieceOf n) : t.hasHolder n x = s.hasHolder n x := by
  rw [Bool.eq_iff_iff, State.hasHolder_iff, State.hasHolder_iff, e]

theorem State.RecordsOk.piece (R : s.RecordsOk) (e : s.pieceOf n = some p) : p.Ok := by
  obtain ⟨r, er, ep⟩ := State.pieceOf_eq_some.mp e
  exact (R r (State.find_mem er).1).piece p ep

@[simp] theorem State.updHead_pieceOf (h : HeadIx) (f : Head → Head) : (s.updHead h f).pieceOf n = s.pieceOf n := rfl
@[simp] theorem State.updSlot_pieceOf (h : HeadIx) (m : SlotIx) (f : FeedSlot → FeedSlot) : (s.updSlot h m f).pieceOf n = s.pieceOf n := rfl
@[simp] theorem State.raise_pieceOf (h : HeadIx) (f : HeadFlag) : (s.raise h f).pieceOf n = s.pieceOf n := rfl
@[simp] theorem State.raiseAlarm_pieceOf (h : HeadIx) (x : Alarm) : (s.raiseAlarm h x).pieceOf n = s.pieceOf n := rfl

theorem State.updRec_pieceOf {f : Record → Record} (hf : ∀ r, (f r).tag = r.tag)
    (hp : ∀ r, s.find n = some r → (f r).body.piece = r.body.piece) : (s.updRec k f).pieceOf n = s.pieceOf n := by
  by_cases hn : n = k
  · subst hn
    rw [State.pieceOf, State.find_updRec hf, State.pieceOf]
    cases e : s.find n with
    | none => rfl
    | some r => exact hp r e
  · exact State.pieceOf_of_find (State.find_updRec_ne hf hn)

@[simp] theorem State.change_pieceOf (f : State → State) (s : State) : (s.change f).pieceOf n = (f s).pieceOf n := by
  rw [State.pieceOf, State.change, State.commit_find, State.pieceOf]
  cases (f s).find n with
  | none => rfl
  | some r =>
    rw [Option.map_some, Option.bind_some, Option.bind_some]
    split
    · exact congrArg Body.piece (Record.stepMark_fields ..).2.1
    · rfl

theorem State.onPiece_pieceOf (n : Nat) (f : Piece → Piece × Bool) (s : State) :
    (s.onPiece n f).pieceOf n = (s.pieceOf n).map fun p => (f p).1 := by
  cases er : s.find n with
  | none => simp [State.onPiece, State.pieceOf, er]
  | some r =>
    cases ep : r.body.piece with
    | none => simp [State.onPiece, State.pieceOf, er, ep]
    | some p =>
      rw [State.pieceOf, State.onPiece_find er ep, State.pieceOf, er, Option.bind_some, Option.bind_some, ep]
      exact Body.withPiece_piece ep

theorem State.onPiece_pieceOf_ne (hk : k ≠ n) : (s.onPiece n f).pieceOf k = s.pieceOf k :=
  State.pieceOf_of_find (State.onPiece_find_ne hk)

@[simp] theorem State.raiseAt_head (b : Option (HeadIx × Role)) (x : Alarm) (s : State) (h : HeadIx) :
    (s.raiseAt b x).head h = s.head h := by
  unfold State.raiseAt
  split <;> rfl

@[simp] theorem State.raiseAt_clock (b : Option (HeadIx × Role)) (x : Alarm) (s : State) : (s.raiseAt b x).clock = s.clock := by
  unfold State.raiseAt
  split <;> rfl

@[simp] theorem State.onPiece_head (n : Nat) (f : Piece → Piece × Bool) (s : State) (h : HeadIx) : (s.onPiece n f).head h = s.head h := by
  unfold State.onPiece
  split
  · rfl
  · split
    · rfl
    · dsimp only
      split
      · rw [State.raiseAt_head]; rfl
      · rfl

@[simp] theorem State.onPiece_clock (n : Nat) (f : Piece → Piece × Bool) (s : State) : (s.onPiece n f).clock = s.clock := by
  unfold State.onPiece
  split
  · rfl
  · split
    · rfl
    · dsimp only
      split
      · rw [State.raiseAt_clock]; rfl
      · rfl

@[simp] theorem State.addHolder_head (n : Nat) (x : Holder) (start : Nat) (s : State) (h : HeadIx) :
    (s.addHolder n x start).head h = s.head h := by
  unfold State.addHolder
  split
  · split
    · exact State.onPiece_head ..
    · rfl
  · rfl

@[simp] theorem State.releaseHolder_head (n : Nat) (x : Holder) (s : State) (h : HeadIx) :
    (s.releaseHolder n x).head h = s.head h := State.onPiece_head ..

@[simp] theorem State.swapHolder_head (n : Nat) (a b : Holder) (s : State) (h : HeadIx) :
    (s.swapHolder n a b).head h = s.head h := State.onPiece_head ..

/-! ## Holders of live records -/

theorem State.releaseHolder_pieceOf (n : Nat) (x : Holder) (s : State) :
    (s.releaseHolder n x).pieceOf n = (s.pieceOf n).map (Piece.releaseHolder x) := State.onPiece_pieceOf ..

theorem State.swapHolder_pieceOf (n : Nat) (a b : Holder) (s : State) :
    (s.swapHolder n a b).pieceOf n = (s.pieceOf n).map (Piece.swapHolder a b) := State.onPiece_pieceOf ..

theorem State.addHolder_pieceOf (er : s.find n = some r) (hm : r.state = .making) (hk : r.kind ≠ .panel) :
    (s.addHolder n x start).pieceOf n = (s.pieceOf n).map fun p => (p.addHolder x start).1 := by
  simp only [State.addHolder, er, hm, ne_eq, hk, not_false_eq_true, and_self, if_true]
  exact State.onPiece_pieceOf ..

theorem State.releaseHolder_hasHolder (n : Nat) (x : Holder) (s : State) : (s.releaseHolder n x).hasHolder n x = false := by
  rw [← Bool.not_eq_true, State.hasHolder_iff, State.releaseHolder_pieceOf]
  rintro ⟨q, e, h⟩
  obtain ⟨p, -, rfl⟩ := Option.map_eq_some_iff.mp e
  rw [Piece.releaseHolder_hasHolder] at h
  cases h

theorem State.swapHolder_dropped (hab : a ≠ b) : (s.swapHolder n a b).hasHolder n a = false := by
  rw [← Bool.not_eq_true, State.hasHolder_iff, State.swapHolder_pieceOf]
  rintro ⟨q, e, h⟩
  obtain ⟨p, -, rfl⟩ := Option.map_eq_some_iff.mp e
  rw [Piece.swapHolder_dropped hab] at h
  cases h

theorem State.swapHolder_added (h : s.hasHolder n x = true) : (s.swapHolder n a b).hasHolder n b = true := by
  obtain ⟨p, e, hp⟩ := State.hasHolder_iff.mp h
  exact State.hasHolder_iff.mpr ⟨p.swapHolder a b, by rw [State.swapHolder_pieceOf, e]; rfl, Piece.swapHolder_added hp⟩

theorem State.pieceOf_of_record (er : s.find n = some r) (hp : r.body.piece = some p) : s.pieceOf n = some p :=
  State.pieceOf_eq_some.mpr ⟨r, er, hp⟩

theorem State.addHolder_pieceOf_some (er : s.find n = some r) (hm : r.state = .making) (hk : r.kind ≠ .panel) (ep : r.body.piece = some p)
    (x : Holder) (start : Nat) : (s.addHolder n x start).pieceOf n = some (p.addHolder x start).1 := by
  rw [State.addHolder_pieceOf er hm hk, State.pieceOf_of_record er ep]
  rfl

end Sys2Proof.Machine
end

section
/-! PROOF. SPIN pulses: the window that opens, the pulses it counts, and what its end leaves (R101 to R114). -/

namespace Sys2Proof.Machine

variable {h : HeadIx} {s t : State} {r : Record} {w : LayWindow} {d : Int} {n : Nat}

@[simp] theorem State.placeLay_head (n : Nat) (w : LayWindow) (d : Int) (s : State) (h : HeadIx) :
    (s.placeLay n w d).head h = s.head h := by
  unfold State.placeLay
  split
  · exact State.addHolder_head ..
  · exact State.releaseHolder_head ..

theorem State.spinPulse_not_followed (hn : (s.head h).laysLength = false ∨ ((s.head h).state ≠ .run ∧ (s.head h).state ≠ .cutting)) :
    s.spinPulse h = s := by
  have hn : ((s.head h).laysLength && (s.head h).state.spinning) = false := by
    rw [Bool.and_eq_false_iff, ← Bool.not_eq_true (HeadState.spinning _), HeadState.spinning_iff, not_or]
    exact hn
  rw [State.spinPulse, hn]
  rfl

/-- A followed SPIN pulse (R57, R102, R103). -/
theorem State.spinPulse_followed (hl : (s.head h).laysLength = true) (hs : (s.head h).state = .run ∨ (s.head h).state = .cutting)
    (hr : s.productOf h = some r) : ((s.head h).window = none → s.spinPulse h = s.openWindow h r) ∧
      ∀ w, (s.head h).window = some w → s.spinPulse h = s.spinWithin h r w := by
  have hf : ((s.head h).laysLength && (s.head h).state.spinning) = true := by rw [hl, (HeadState.spinning_iff _).mpr hs]; rfl
  refine ⟨fun hw => ?_, fun w hw => ?_⟩ <;> simp only [State.spinPulse, hf, if_true, hr, hw]

/-- The end of a window leaves no window and the count as it stands (R101, R103). -/
theorem State.endWindow_count (s : State) (h : HeadIx) (r : Record) (w : LayWindow) :
    ((s.endWindow h r w).head h).window = none ∧ ((s.endWindow h r w).head h).spinCount = (s.head h).spinCount := by
  unfold State.endWindow
  dsimp only
  split
  · exact ⟨by rw [State.updHead_head], by rw [State.updHead_head]⟩
  · split
    · rw [State.raiseAlarm_head, State.placeLay_head, State.updHead_head]
      exact ⟨rfl, rfl⟩
    · rw [State.placeLay_head, State.updHead_head]
      exact ⟨rfl, rfl⟩

/-- The pieces after a window with a target lay: the LAY holder placed by the deviation, and nothing else (R112). -/
theorem State.endWindow_pieceOf {target : Nat} (ht : w.target = some target) : (s.endWindow h r w).pieceOf n =
    (s.placeLay r.tag w (deviation (measuredLay (s.position h r - w.start) w.turns) target)).pieceOf n := by
  have hplace (f : Head → Head) (d : Int) : ((s.updHead h f).placeLay r.tag w d).pieceOf n = (s.placeLay r.tag w d).pieceOf n := by
    unfold State.placeLay
    split
    · unfold State.addHolder
      rw [State.updHead_find]
      split
      · split
        · by_cases hn : n = r.tag
          · subst hn
            rw [State.onPiece_pieceOf, State.onPiece_pieceOf, State.updHead_pieceOf]
          · rw [State.onPiece_pieceOf_ne hn, State.onPiece_pieceOf_ne hn, State.updHead_pieceOf]
        · rfl
      · rfl
    · by_cases hn : n = r.tag
      · subst hn
        rw [State.releaseHolder_pieceOf, State.releaseHolder_pieceOf, State.updHead_pieceOf]
      · exact (State.onPiece_pieceOf_ne hn).trans (State.onPiece_pieceOf_ne (s := s) hn).symm
  simp only [State.endWindow, ht]
  split
  · rw [State.raiseAlarm_pieceOf, hplace]
  · rw [hplace]

/-- TRIM_LIMIT comes with a clamp of a deviation beyond the tolerance (R111). -/
theorem State.endWindow_alarm {target : Nat} (ht : w.target = some target) :
    let d := deviation (measuredLay (s.position h r - w.start) w.turns) target
    trimClamped (s.head h).settings.trimMin (s.head h).settings.trimMax (s.head h).trim (trimStep d w.gain) = true →
      w.tolerance < d.natAbs → (s.endWindow h r w).flagged h .alarm = true ∧ ((s.endWindow h r w).attn.causesOf h).trimLimit = true := by
  intro d hc htol
  simp only [State.endWindow, ht]
  rw [if_pos ⟨hc, htol⟩]
  exact ⟨State.raiseAlarm_flagged .., State.raiseAlarm_has _ h .trimLimit⟩

/-- Settles O13: the window's opening and its count by the cases of a followed pulse, its end by what it leaves. -/
theorem spinPulseResult : Obligations.SpinPulseResult := by
  unfold Obligations.SpinPulseResult
  refine ⟨fun h s S => ⟨fun hl hs r hr => ⟨fun hw => ?opens, fun w hw hc => ?counts⟩, fun hn => ?ignored⟩,
    fun h s r w S hl hs hr hw hc => ⟨_, exec_spinPulse_endWindow hl hs hr hw hc, ?ends⟩⟩
  case opens => exact congrArg Host.Outcome.next (State.change_eq S ((State.spinPulse_followed hl hs hr).1 hw) rfl)
  case counts =>
    refine congrArg Host.Outcome.next (State.change_eq S (((State.spinPulse_followed hl hs hr).2 w hw).trans ?_) rfl)
    exact if_neg (Nat.not_le.mpr hc)
  case ignored => exact congrArg Host.Outcome.next (State.change_eq S (State.spinPulse_not_followed hn) rfl)
  case ends =>
    intro lay
    obtain ⟨hwindow, hcount⟩ := State.endWindow_count s h r w
    obtain ⟨hlay, hdev, htrim0, htrim⟩ := State.endWindow_result s h r w
    have er := State.productOf_find hr
    refine ⟨hwindow, hcount, hlay, fun ht => ⟨by rw [State.change_head, hdev, ht]; rfl, htrim0 ht, ?_⟩, fun target ht => ?_⟩
    · have hs : (s.endWindow h r w).store = s.store := by simp only [State.endWindow, ht, State.updHead_store]
      rw [State.change_of_store S hs, hs]
    intro d step
    have hpiece : (s.endWindow h r w).pieceOf r.tag = (s.placeLay r.tag w d).pieceOf r.tag := State.endWindow_pieceOf ht
    refine ⟨by rw [State.change_head, hdev, ht]; rfl, htrim target ht, State.endWindow_alarm ht, fun hin => ?_, fun hout hm hk hp => ?_⟩
    · rw [State.hasHolder_congr (State.change_pieceOf ..), State.hasHolder_congr hpiece]
      rw [State.placeLay, if_neg (Nat.not_lt.mpr hin)]
      exact State.releaseHolder_hasHolder ..
    · obtain ⟨p, hp⟩ := Option.isSome_iff_exists.mp hp
      have hadded : (s.change (State.endWindow h r w)).pieceOf r.tag = some (p.addHolder .lay (w.start / fine)).1 := by
        rw [State.change_pieceOf, hpiece, State.placeLay, if_pos hout, State.addHolder_pieceOf_some er hm hk hp]
      obtain ⟨r', er', hp'⟩ := State.pieceOf_eq_some.mp hadded
      exact ⟨r', _, er', hp', fun R => Piece.addHolder_heldFrom (R.piece (State.pieceOf_of_record er hp)) ..⟩

end Sys2Proof.Machine
end

section
/-! PROOF. FLAW rises (R57, R94, R98, R142). -/

namespace Sys2Proof.Machine

variable {h : HeadIx} {s t : State} {r : Record} {n start : Nat} {a b x : Holder} {p q : Piece}

theorem State.updHead_productOf {f : Head → Head} (hf : ∀ x, (f x).product = x.product) : (s.updHead h f).productOf h = s.productOf h := by
  rw [State.productOf, State.updHead_head, hf]
  rfl

/-- A live record after a holder is swapped: its piece alone has changed. -/
theorem State.swapHolder_find (er : s.find n = some r) (ep : r.body.piece = some p) :
    ∃ r', (s.swapHolder n a b).find n = some r' ∧ r'.state = r.state ∧ r'.kind = r.kind ∧ r'.body.piece = some (p.swapHolder a b) :=
  ⟨_, State.onPiece_find er ep, rfl, Body.withPiece_kind .., Body.withPiece_piece ep⟩

/-- A piece after FLAW rises: a FLAW holder, in the place of GUARD where that is held (R94). -/
def Piece.flawed (start : Nat) (p : Piece) : Piece :=
  ((if p.hasHolder .guard then p.swapHolder .guard .flaw else p).addHolder .flaw start).1

theorem Piece.flawed_made (start : Nat) (p : Piece) : (p.flawed start).made = p.made := by
  unfold Piece.flawed
  rw [Piece.addHolder_made]
  split <;> rfl

theorem Piece.flawed_heldFrom (hp : p.Ok) : (p.flawed start).HeldFrom .flaw start := by
  unfold Piece.flawed
  split
  · exact Piece.addHolder_heldFrom (Piece.swapHolder_ok hp) ..
  · exact Piece.addHolder_heldFrom hp ..

theorem Piece.flawed_no_guard (hp : p.Ok) (hg : p.hasHolder .guard = true) : (p.flawed start).hasHolder .guard = false := by
  rw [Piece.flawed, if_pos hg, ← Bool.not_eq_true]
  intro h
  have := (Piece.swapHolder_ok hp).of_hasHolder_addHolder (by decide) h
  rw [Piece.swapHolder_dropped (by decide)] at this
  cases this

/-- What a rise of FLAW leaves on a maker whose product takes a holder (R94). -/
theorem State.makerFlawRise_result (hr : s.productOf h = some r) (hm : r.state = .making) (hk : r.kind ≠ .panel)
    (hp : r.body.piece = some p) (hno : s.hasHolder r.tag .flaw = false) :
    (s.makerFlawRise h).pieceOf r.tag = some (p.flawed (r.made - (s.head h).settings.guardMargin)) ∧
      (s.makerFlawRise h).head h =
        { s.head h with guardRelease := if s.hasHolder r.tag .guard then none else (s.head h).guardRelease } := by
  have er := State.productOf_find hr
  have ep := State.pieceOf_of_record er hp
  have hpg := State.hasHolder_of_piece (x := .guard) ep
  simp only [State.makerFlawRise, hr, hno, Bool.false_eq_true, if_false]
  by_cases hg : s.hasHolder r.tag .guard = true
  · obtain ⟨r', er', hm', hk', hp'⟩ := State.swapHolder_find (a := .guard) (b := .flaw) er hp
    rw [if_pos hg, State.updHead_head, State.addHolder_head, State.swapHolder_head, State.updHead_pieceOf, if_pos hg,
      State.addHolder_pieceOf_some er' (hm'.trans hm) (hk' ▸ hk) hp', Piece.flawed, if_pos (hpg ▸ hg)]
    exact ⟨rfl, rfl⟩
  · rw [if_neg hg, if_neg hg, State.addHolder_head, State.addHolder_pieceOf_some er hm hk hp, Piece.flawed, if_neg (hpg ▸ hg)]
    exact ⟨rfl, rfl⟩

theorem State.flawRises_maker (hl : (s.head h).laysLength = true) : s.flawRises h = s.makerFlawRise h := by
  rw [Head.laysLength_iff] at hl
  rcases hl with hl | hl <;> simp only [State.flawRises, hl]

theorem State.makerFlawRise_held (hr : s.productOf h = some r) (hf : s.hasHolder r.tag .flaw = true) : s.makerFlawRise h = s := by
  simp only [State.makerFlawRise, hr, hf, if_true]

/-- Settles O19: by the kind of machine at the head, and on a maker by whether FLAW is held already. -/
theorem flawRiseResult : Obligations.FlawRiseResult := by
  unfold Obligations.FlawRiseResult
  intro h s S
  let m := s.updHead h fun x => { x with flawHigh := true }
  have hm : m.head h = { s.head h with flawHigh := true } := State.updHead_head ..
  have hproduct : m.productOf h = s.productOf h := State.updHead_productOf (f := fun x => { x with flawHigh := true }) fun _ => rfl
  have hedge (hr : (s.head h).state.running = true) : s.flawRiseEdge h = m.flawRises h := by
    simp only [State.flawRiseEdge, hr, if_true]
    rfl
  refine ⟨fun hr => ?_, fun hr hk => ?_, fun hr hk => ?_, fun hr hl r hp hmk hnp hsome hno => ?_, fun hr hl r hp hf => ?_⟩
  · refine congrArg Host.Outcome.next (State.change_eq S ?_ rfl)
    simp only [State.flawRiseEdge, hr, Bool.false_eq_true, if_false]
  · refine congrArg Host.Outcome.next (State.change_eq S ((hedge hr).trans ?_) rfl)
    have hkm : (m.head h).kind = some .coiler := by rw [hm]; exact hk
    simp only [State.flawRises, hkm]
    refine (State.updHead_updHead ..).trans (State.updHead_congr ?_)
    have : m.unwindPosition h = s.unwindPosition h := by
      simp only [State.unwindPosition, State.sourceOf, hm]
      rfl
    rw [this]
  · refine congrArg Host.Outcome.next (State.change_eq S ((hedge hr).trans ?_) rfl)
    have hkm : (m.head h).kind = some .loom := by rw [hm]; exact hk
    simp only [State.flawRises, hkm]
    exact State.updHead_updHead ..
  · obtain ⟨p, ep⟩ := Option.isSome_iff_exists.mp hsome
    obtain ⟨hpiece, hhead⟩ := State.makerFlawRise_result (hproduct.trans hp) hmk hnp ep hno
    rw [← State.flawRises_maker (by rw [hm]; exact hl), ← hedge hr, ← State.change_pieceOf, hm] at hpiece
    rw [← State.flawRises_maker (by rw [hm]; exact hl), ← hedge hr, hm] at hhead
    obtain ⟨r', er', ep'⟩ := State.pieceOf_eq_some.mp hpiece
    have er := State.productOf_find hp
    have hpok (R : s.RecordsOk) : p.Ok := R.piece (State.pieceOf_of_record er ep)
    refine ⟨_, r', _, rfl, ?_, er', ep', ?_, fun R => Piece.flawed_heldFrom (hpok R), fun hg => ⟨?_, fun R => ?_⟩, fun hg => ?_⟩
    · rw [State.change_head, hhead]
    · rw [Piece.flawed_made, State.pieceOf_made er (State.pieceOf_of_record er ep)]
    · rw [State.change_head, hhead]
      exact if_pos hg
    · rw [State.hasHolder_of_piece hpiece]
      exact Piece.flawed_no_guard (hpok R) (State.hasHolder_of_piece (State.pieceOf_of_record er ep) ▸ hg)
    · rw [State.change_head, hhead]
      exact if_neg (by rw [Bool.not_eq_true]; exact hg)
  · refine congrArg Host.Outcome.next (State.change_eq S ((hedge hr).trans ?_) rfl)
    rw [State.flawRises_maker (by rw [hm]; exact hl)]
    exact State.makerFlawRise_held (hproduct.trans hp) hf

end Sys2Proof.Machine
end

section
/-! PROOF. The edges of RUN (R60, R61, R104, R130). -/

namespace Sys2Proof.Machine

variable {h : HeadIx} {s t : State} {r : Record} {n : Nat} {p : Piece}

/-! ## What a rise of FLAW and a cut leave of the head -/

/-- A rise of FLAW alters, in the head, the release position, the rise position and the row alone. -/
theorem State.flawRises_head (h : HeadIx) (s : State) : (s.flawRises h).head h = { s.head h with
    guardRelease := ((s.flawRises h).head h).guardRelease
    flawRise := ((s.flawRises h).head h).flawRise
    row := ((s.flawRises h).head h).row } := by
  have hmaker : (s.makerFlawRise h).head h = { s.head h with guardRelease := ((s.makerFlawRise h).head h).guardRelease } := by
    unfold State.makerFlawRise
    split
    · rfl
    · dsimp only
      split
      · rfl
      · split
        · rw [State.updHead_head, State.addHolder_head, State.swapHolder_head]
        · rw [State.addHolder_head]
  unfold State.flawRises
  split
  · rw [hmaker]
  · rw [hmaker]
  · rw [State.updHead_head]
  · rw [State.updHead_head]
  · rfl

/-- A cut alters, in the head, its state and the cut's own notes alone (R62). -/
theorem State.enterCutting_leaves (h : HeadIx) (s : State) : (s.enterCutting h).head h = { s.head h with
    state := ((s.enterCutting h).head h).state
    cutRunHigh := ((s.enterCutting h).head h).cutRunHigh
    cutWait := ((s.enterCutting h).head h).cutWait } := by
  unfold State.enterCutting
  split
  all_goals simp

theorem State.checkEnd_not_atEnd (hr : ∀ r, s.productOf h = some r → r.atEnd = false) : s.checkEnd h = s := by
  unfold State.checkEnd
  split
  · rw [hr _ ‹_›]
    rfl
  · rfl

/-! ## The feed check -/

/-- A head of the state RUN that takes FEED_SHORT (R61, R130). -/
def Head.heldShort (x : Head) : Head := { x with state := .held, holds := x.holds.put true .feedShort, window := none }

theorem State.addFeedShort_run (hst : (s.head h).state = .run ∨ (s.head h).state = .stopped) (h0 : (s.head h).holds.feedShort = false) :
    s.addHold h .feedShort = (s.updHead h Head.heldShort).raise h .state := by
  have hheld : (s.updHead h fun y => { y with holds := y.holds.put true .feedShort }).enterHeld h =
      (s.updHead h Head.heldShort).raise h .state := by
    have hne : (s.head h).state ≠ .ready := by rcases hst with hst | hst <;> rw [hst] <;> nofun
    simp only [State.enterHeld, State.updHead_head, hne, false_and, if_false, State.updHead_updHead]
    rfl
  rcases hst with hst | hst <;>
    simpa only [State.addHold, HoldSet.has, h0, hst, Bool.false_eq_true, if_false] using hheld

/-- The feed check of a head that has entered RUN (R60, R130). -/
theorem State.checkFeeds_run (hst : (s.head h).state = .run) : s.checkFeeds h =
    if (s.head h).feedMissing = true ∧ (s.head h).holds.feedShort = false then (s.updHead h Head.heldShort).raise h .state else s := by
  unfold State.checkFeeds
  cases hm : (s.head h).feedMissing
  · simp
  · cases h0 : (s.head h).holds.feedShort
    · simpa using State.addFeedShort_run (.inl hst) h0
    · simp [State.addHold, HoldSet.has, h0]

/-! ## A rise of RUN -/

/-- A head that enters RUN by a rise of RUN (R60). -/
def Head.started (x : Head) : Head := { x with runHigh := true, state := .run }

/-- The entry to RUN from READY, with FLAW high taken as rising (R57, R60). -/
def State.started (h : HeadIx) (s : State) : State :=
  if (s.head h).flawHigh then (s.updHead h Head.started).flawRises h else s.updHead h Head.started

theorem State.runRise_ready (hst : (s.head h).state = .ready) : s.runRise h = ((s.started h).checkFeeds h).checkEnd h := by
  simp only [State.runRise, hst, State.started, State.updHead_updHead]
  rfl

theorem State.runRise_stopped (hst : (s.head h).state = .stopped) : s.runRise h = (s.updHead h Head.started).checkFeeds h := by
  simp only [State.runRise, hst, State.updHead_updHead]
  rfl

theorem State.started_head (h : HeadIx) (s : State) : (s.started h).head h = { (s.head h).started with
    guardRelease := ((s.started h).head h).guardRelease
    flawRise := ((s.started h).head h).flawRise
    row := ((s.started h).head h).row } := by
  unfold State.started
  split
  · rw [State.flawRises_head, State.updHead_head]
  · rw [State.updHead_head]

theorem State.started_fields (h : HeadIx) (s : State) : ((s.started h).head h).state = .run ∧ ((s.started h).head h).runHigh = true ∧
    ((s.started h).head h).feedMissing = (s.head h).feedMissing ∧ ((s.started h).head h).holds = (s.head h).holds := by
  rw [State.started_head]
  exact ⟨rfl, rfl, rfl, rfl⟩

/-- FLAW alters no product's end. -/
theorem State.started_product (h : HeadIx) (s : State) :
    ((s.started h).productOf h).map Record.atEnd = (s.productOf h).map Record.atEnd := by
  have hsame : s.SameMeasures (s.started h) := by
    unfold State.started
    split
    · exact State.flawRises_sameMeasures (State.updHead_sameMeasures (.refl s))
    · exact State.updHead_sameMeasures (.refl s)
  have hproduct : ((s.started h).head h).product = (s.head h).product := by rw [State.started_head]; rfl
  rw [State.productOf, State.productOf, hproduct]
  cases (s.head h).product with
  | none => rfl
  | some n =>
    have hn := hsame n
    rw [Option.bind_some, Option.bind_some]
    cases hx : (s.started h).find n <;> cases hy : s.find n <;> rw [hx, hy] at hn <;>
      simp only [Option.map_some, Option.map_none, Option.some.injEq, reduceCtorEq] at hn ⊢
    exact Record.atEnd_of_measure hn

/-- A head in READY that has come to RUN and had its feeds checked (R60, R130). -/
def State.fed (h : HeadIx) (s : State) : State := (s.started h).checkFeeds h

theorem State.fed_head (h : HeadIx) (s : State) : (s.fed h).head h =
    if (s.head h).feedMissing = true ∧ (s.head h).holds.feedShort = false then ((s.started h).head h).heldShort
    else (s.started h).head h := by
  obtain ⟨hrun, -, hmissing, hholds⟩ := State.started_fields h s
  rw [State.fed, State.checkFeeds_run hrun, hmissing, hholds]
  split
  · rw [State.raise_head, State.updHead_head]
  · rfl

theorem State.fed_rest (h : HeadIx) (s : State) : (s.fed h).store = (s.started h).store ∧ (s.fed h).productOf h = (s.started h).productOf h ∧
    ((s.head h).feedMissing = true → (s.head h).holds.feedShort = false → (s.fed h).flagged h .state = true) := by
  obtain ⟨hrun, -, hmissing, hholds⟩ := State.started_fields h s
  rw [State.fed, State.checkFeeds_run hrun, hmissing, hholds]
  split
  case isTrue => exact ⟨rfl, State.updHead_productOf fun _ => rfl, fun _ _ => State.raise_flagged ..⟩
  case isFalse hno => exact ⟨rfl, rfl, fun hm h0 => absurd ⟨hm, h0⟩ hno⟩

theorem State.fed_running (h : HeadIx) (s : State) : ((s.fed h).head h).state.running = true ∧ ((s.fed h).head h).state ≠ .cutting ∧
    ((s.fed h).head h).runHigh = true ∧ ((s.fed h).head h).row = ((s.started h).head h).row ∧
    ((s.fed h).head h).holds.feedShort = ((s.head h).holds.feedShort || (s.head h).feedMissing) := by
  obtain ⟨hrun, hhigh, -, hholds⟩ := State.started_fields h s
  rw [State.fed_head]
  split
  case isTrue hm => exact ⟨rfl, nofun, hhigh, rfl, by rw [hm.1, Bool.or_true]; rfl⟩
  case isFalse hno =>
    rw [hrun, hholds]
    refine ⟨rfl, nofun, hhigh, rfl, ?_⟩
    cases hm : (s.head h).feedMissing <;> cases h0 : (s.head h).holds.feedShort <;> simp_all

/-- The rise of RUN from READY with the product short of its end, or with none. -/
theorem State.runRise_short (hst : (s.head h).state = .ready) (hr : ∀ r, s.productOf h = some r → r.atEnd = false) :
    s.runRise h = s.fed h := by
  rw [State.runRise_ready hst]
  refine State.checkEnd_not_atEnd fun r hr' => ?_
  have hsame := State.started_product h s
  rw [← (State.fed_rest h s).2.1, State.fed, hr'] at hsame
  obtain ⟨x, hx, e⟩ := Option.map_eq_some_iff.mp hsame.symm
  rw [← e, hr x hx]

/-- The rise of RUN from READY with the product at its end enters CUTTING (R60). -/
theorem State.runRise_atEnd (hst : (s.head h).state = .ready) (hr : s.productOf h = some r) (he : r.atEnd = true) :
    s.runRise h = (s.fed h).enterCutting h := by
  rw [State.runRise_ready hst]
  have hsame := State.started_product h s
  rw [← (State.fed_rest h s).2.1, hr] at hsame
  obtain ⟨x, hx, e⟩ := Option.map_eq_some_iff.mp hsame
  exact State.checkEnd_atEnd hx (e.trans he)

/-- What a rise of RUN from READY leaves on a maker, whatever FLAW does (R60). -/
theorem State.runRise_ready_result (hst : (s.head h).state = .ready) (hr : s.productOf h = some r) :
    ((s.runRise h).head h).runHigh = true ∧
      ((s.runRise h).head h).state = (if r.atEnd then .cutting
        else if (s.head h).feedMissing && !(s.head h).holds.feedShort then .held else .run) ∧
      ((s.runRise h).head h).row = ((s.started h).head h).row ∧ (s.runRise h).store = (s.started h).store := by
  obtain ⟨hrunning, -, hhigh, hrow, -⟩ := State.fed_running h s
  obtain ⟨hstore, -⟩ := State.fed_rest h s
  cases he : r.atEnd
  · rw [State.runRise_short hst fun x hx => by cases hr.symm.trans hx; exact he]
    refine ⟨hhigh, ?_, hrow, hstore⟩
    obtain ⟨hrun, -, -, -⟩ := State.started_fields h s
    rw [State.fed_head]
    cases hm : (s.head h).feedMissing <;> cases h0 : (s.head h).holds.feedShort <;> simp [hrun, Head.heldShort]
  · rw [State.runRise_atEnd hst hr he]
    obtain ⟨hcut, -⟩ := State.enterCutting_running hrunning
    refine ⟨?_, hcut, ?_, (State.enterCutting_store ..).trans hstore⟩
    · rw [State.enterCutting_leaves]
      exact hhigh
    · rw [State.enterCutting_leaves]
      exact hrow

/-! ## A fall of RUN -/

theorem State.runFall_run (hst : (s.head h).state = .run) :
    s.runFall h = s.updHead h fun x => { x with runHigh := false, state := .stopped, window := none } := by
  simp only [State.runFall, hst, State.updHead_updHead]

theorem State.runFall_level (hne : (s.head h).state ≠ .run) (hcut : (s.head h).state ≠ .cutting ∨ (s.head h).cutRunHigh = false) :
    s.runFall h = s.updHead h fun x => { x with runHigh := false } := by
  unfold State.runFall
  dsimp only
  split
  case h_1 hst => exact absurd hst hne
  case h_2 hst => rw [hcut.resolve_left fun hno => hno hst]; rfl
  all_goals rfl

/-- Settles O15: a rise by the state it finds, the feed check and the end check; a fall by the state it finds. -/
theorem runEdges : Obligations.RunEdges := by
  unfold Obligations.RunEdges
  refine ⟨fun h s S => ⟨fun hst hf hm hr => ?clear, fun hst hm => ?resumed, fun hne hne' => ?level, fun hst hm h0 hr => ?short,
    fun hst r hr he => ?cuts, fun hst => ?stops, fun hne hcut => ?falls⟩, fun h s S hst hf => ⟨fun hk hm hp => ?coiler,
    fun hk r hr => ?loom, fun hl r hr hmk hnp hsome hno => ?maker⟩⟩
  case clear =>
    refine congrArg Host.Outcome.next (State.change_eq S ((State.runRise_short hst hr).trans ?_) rfl)
    obtain ⟨hrun, -, hmissing, -⟩ := State.started_fields h s
    rw [State.fed, State.checkFeeds_run hrun, if_neg (by rw [hmissing, hm]; simp), State.started, hf]
    rfl
  case resumed =>
    refine congrArg Host.Outcome.next (State.change_eq S ((State.runRise_stopped hst).trans ?_) rfl)
    have hno : ((s.updHead h Head.started).head h).feedMissing = false := by rw [State.updHead_head]; exact hm
    simp only [State.checkFeeds, hno, Bool.false_eq_true, if_false]
    rfl
  case level =>
    refine congrArg Host.Outcome.next (State.change_eq S ?_ rfl)
    unfold State.runRise
    dsimp only
    split
    case h_1 hst => exact absurd hst hne
    case h_2 hst => exact absurd hst hne'
    all_goals rfl
  case short =>
    rcases hst with hst | hst
    · have hstep := State.runRise_short hst (hr hst)
      have hhead := State.fed_head h s
      rw [if_pos ⟨hm, h0⟩, ← hstep, State.started_head] at hhead
      refine ⟨_, rfl, ?_, ?_, ?_, ?_⟩
      · rw [State.change_head, hhead]; rfl
      · rw [State.change_head, hhead]; rfl
      · rw [State.change_head, hhead]; rfl
      · show (s.runRise h).flagged h .state = true
        rw [hstep]
        exact (State.fed_rest h s).2.2 hm h0
    · have hrun : ((s.updHead h Head.started).head h).state = .run := by rw [State.updHead_head]; rfl
      have hshort : ((s.updHead h Head.started).head h).feedMissing = true ∧ ((s.updHead h Head.started).head h).holds.feedShort = false := by
        rw [State.updHead_head]
        exact ⟨hm, h0⟩
      have hstep := (State.runRise_stopped hst).trans (State.checkFeeds_run hrun)
      rw [if_pos hshort] at hstep
      have hhead : (s.runRise h).head h = (s.head h).started.heldShort := by
        rw [hstep, State.raise_head, State.updHead_head, State.updHead_head]
      refine ⟨_, rfl, ?_, ?_, ?_, ?_⟩
      · rw [State.change_head, hhead]; rfl
      · rw [State.change_head, hhead]; rfl
      · rw [State.change_head, hhead]; rfl
      · show (s.runRise h).flagged h .state = true
        rw [hstep]
        exact State.raise_flagged ..
  case cuts =>
    have hstep := State.runRise_atEnd hst hr he
    obtain ⟨hrunning, hne, hhigh, -, hshort⟩ := State.fed_running h s
    obtain ⟨hcut, hentered⟩ := State.enterCutting_running hrunning
    obtain ⟨hflag, hcutHigh, hwait⟩ := hentered hne
    refine ⟨_, rfl, ?_, ?_, ?_, ?_, ?_⟩
    · rw [State.change_head, hstep, hcut]
    · rw [State.change_head, hstep, hcutHigh, hhigh]
    · rw [State.change_head, hstep, hwait, hhigh]
      rfl
    · rw [State.change_head, hstep, State.enterCutting_leaves]
      exact hshort
    · show (s.runRise h).flagged h .state = true
      rw [hstep]
      exact hflag
  case stops => exact congrArg Host.Outcome.next (State.change_eq S (State.runFall_run hst) rfl)
  case falls => exact congrArg Host.Outcome.next (State.change_eq S (State.runFall_level hne hcut) rfl)
  case coiler =>
    refine congrArg Host.Outcome.next (State.change_eq S ((State.runRise_short hst fun r hr => ?_).trans ?_) rfl)
    · cases hp.symm.trans hr
    obtain ⟨hrun, -, hmissing, -⟩ := State.started_fields h s
    have hkm : ((s.updHead h Head.started).head h).kind = some .coiler := by rw [State.updHead_head]; exact hk
    have hunwind : (s.updHead h Head.started).unwindPosition h = s.unwindPosition h := by
      simp only [State.unwindPosition, State.sourceOf, State.updHead_head]
      rfl
    rw [State.fed, State.checkFeeds_run hrun, if_neg (by rw [hmissing, hm]; simp), State.started, if_pos hf]
    simp only [State.flawRises, hkm]
    rw [State.updHead_updHead, hunwind]
    rfl
  case loom =>
    obtain ⟨hhigh, hstate, hrow, -⟩ := State.runRise_ready_result hst hr
    refine ⟨_, rfl, hhigh, hstate, hrow.trans ?_⟩
    have hkm : ((s.updHead h Head.started).head h).kind = some .loom := by rw [State.updHead_head]; exact hk
    rw [State.started, if_pos hf]
    simp only [State.flawRises, hkm]
    rw [State.updHead_head, State.updHead_head]
    rfl
  case maker =>
    obtain ⟨p, ep⟩ := Option.isSome_iff_exists.mp hsome
    obtain ⟨hhigh, hstate, -, hstore⟩ := State.runRise_ready_result hst hr
    have er := State.productOf_find hr
    have hlm : ((s.updHead h Head.started).head h).laysLength = true := by rw [State.updHead_head]; exact hl
    obtain ⟨hpiece, -⟩ := State.makerFlawRise_result (s := s.updHead h Head.started)
      ((State.updHead_productOf (f := Head.started) fun _ => rfl).trans hr) hmk hnp ep hno
    have hpiece' : (s.change (State.runRise h)).pieceOf r.tag = some (p.flawed (r.made - (s.head h).settings.guardMargin)) := by
      rw [State.change_pieceOf, State.pieceOf_of_store hstore, State.started, if_pos hf, State.flawRises_maker hlm, hpiece,
        State.updHead_head]
      rfl
    obtain ⟨r', er', ep'⟩ := State.pieceOf_eq_some.mp hpiece'
    refine ⟨_, r', _, rfl, hhigh, hstate, er', ep', ?_, fun R => Piece.flawed_heldFrom (R.piece (State.pieceOf_of_record er ep))⟩
    rw [Piece.flawed_made, State.pieceOf_made er (State.pieceOf_of_record er ep)]

end Sys2Proof.Machine
end

section
/-! PROOF. Slots: what the unbinding of one slot, of every slot, and the end of a product's making leave of the records (R18, R123). -/

namespace Sys2Proof.Machine

variable {h : HeadIx} {s t u : State} {r q x : Record} {n m : SlotIx} {k p pos : Nat} {st : RecordState}
  {K : HeadIx → Option MachineKind} {X : Role → Prop}

/-! ## A fold over distinct items -/

/-- One item of a list of distinct items: the fold reaches a state that is for the item as the first one was, and what follows its step
leaves what the step made. -/
theorem exists_foldl_step {σ α : Type} {step : σ → α → σ} {P : σ → Prop} {U : σ → σ → Prop} (hrefl : ∀ s, U s s)
    (htrans : ∀ s t u, U s t → U t u → U s u) (hP : ∀ s a, P s → P (step s a)) (n : α) (hU : ∀ s a, P s → a ≠ n → U s (step s a)) :
    ∀ (l : List α) (s : σ), l.Nodup → n ∈ l → P s → ∃ u, P u ∧ U s u ∧ U (step u n) (l.foldl step s)
  | a :: l, s, nd, hn, h => by
    obtain ⟨ha, nd⟩ := List.nodup_cons.mp nd
    rw [List.foldl_cons]
    rcases List.mem_cons.mp hn with rfl | hn
    · have rest : ∀ (l : List α) (t : σ), n ∉ l → P t → U t (l.foldl step t) := by
        intro l
        induction l with
        | nil => exact fun t _ _ => hrefl t
        | cons b l ih =>
          intro t hb ht
          rw [List.mem_cons, not_or] at hb
          exact htrans _ _ _ (hU t b ht (Ne.symm hb.1)) (ih _ hb.2 (hP t b ht))
      exact ⟨s, h, hrefl s, rest l _ ha (hP s n h)⟩
    · have hne : a ≠ n := fun e => ha (e ▸ hn)
      obtain ⟨u, hu, hsu, hlast⟩ := exists_foldl_step hrefl htrans hP n hU l (step s a) nd hn (hP s a h)
      exact ⟨u, hu, htrans _ _ _ (hU s a h hne) hsu, hlast⟩

theorem foldl_invariant {σ α : Type} {step : σ → α → σ} {P : σ → Prop} (hP : ∀ s a, P s → P (step s a)) (l : List α) :
    ∀ s, P s → P (l.foldl step s) := by
  induction l with
  | nil => exact fun s h => h
  | cons a l ih => exact fun s h => ih _ (hP s a h)

theorem mem_allSlots (n : SlotIx) : n ∈ allSlots := by
  fin_cases n <;> decide

theorem allSlots_nodup : allSlots.Nodup := by decide

/-! ## The records that slots name -/

theorem State.updRec_find {f : Record → Record} (hf : ∀ r, (f r).tag = r.tag) (n k : Nat) (s : State) :
    (s.updRec n f).find k = (s.find k).map fun x => if x.tag = n then f x else x := by
  rw [State.find, State.updRec_store, find_map_tags fun r => by split <;> simp [hf]]
  rfl

theorem State.BoundBut.strand_ne_product (B : t.BoundBut h noRole K) (ep : (t.head h).product = some p)
    (ek : ((t.head h).slot n).strand = some k) : k ≠ p := by
  rintro rfl
  obtain ⟨r, -, er, hb, -⟩ := B.get (ro := .feed n) ek
  obtain ⟨q, -, eq, hb', -⟩ := B.get (ro := .product) ep
  cases er.symm.trans eq
  cases hb.symm.trans hb'

theorem State.BoundBut.strand_unique (B : t.BoundBut h noRole K) (en : ((t.head h).slot n).strand = some k)
    (em : ((t.head h).slot m).strand = some k) : m = n := by
  obtain ⟨r, -, er, hb, -⟩ := B.get (ro := .feed n) en
  obtain ⟨q, -, eq, hb', -⟩ := B.get (ro := .feed m) em
  cases er.symm.trans eq
  cases hb.symm.trans hb'
  rfl

/-- The strand of a slot, as the records show it (R12). -/
theorem State.BoundBut.strand (B : t.BoundBut h noRole K) (en : ((t.head h).slot n).strand = some k) :
    ∃ x y, t.find k = some x ∧ x.body = .strand y ∧ x.state = .inUse ∧ x.bound = some (h, .feed n) ∧ x.boundFrom = none := by
  obtain ⟨x, kd, ex, hb, -, hbinds, -⟩ := B.get (ro := .feed n) en
  have hkind : x.kind = .strand := by
    simp only [MachineKind.binds, Bool.and_eq_true, decide_eq_true_eq] at hbinds
    exact hbinds.2
  obtain ⟨y, hy⟩ := Record.body_of_strand hkind
  have T := B.tied k x ex
  exact ⟨x, y, ex, hy, T.held h _ hb, hb, T.plain fun g => by rw [hb]; nofun⟩

theorem State.fedBy_of_strand {y : StrandBody} (en : ((s.head h).slot n).strand = some k) (ex : s.find k = some x)
    (hy : x.body = .strand y) : s.fedBy h n = some (x, y) := by
  simp only [State.fedBy, en, Option.bind_some, ex, hy]

theorem State.strand_of_fedBy {y : StrandBody} (e : s.fedBy h n = some (x, y)) : ((s.head h).slot n).strand = some x.tag := by
  unfold State.fedBy at e
  obtain ⟨k, hk, e⟩ := Option.bind_eq_some_iff.mp e
  obtain ⟨r, hr, e⟩ := Option.bind_eq_some_iff.mp e
  obtain ⟨-, htag⟩ := State.find_mem hr
  split at e <;> cases e
  rw [hk, htag]

/-! ## One slot -/

theorem State.unbindSlot_empty (e : ((s.head h).slot n).strand = none) : s.unbindSlot h st pos n = s := by
  simp only [State.unbindSlot, e]

/-- A record as the unbinding of slot `n` with the strand of tag `k` leaves it (R123). -/
def Record.slotFreed (product : Option Nat) (k : Nat) (st : RecordState) (pos : Nat) (n : SlotIx) (x : Record) : Record :=
  let y := if x.tag = k then x.unbindTo st else x
  if product = some x.tag then y.closeSources (fun m => decide (m = n)) pos else y

theorem State.unbindSlot_find (e : ((s.head h).slot n).strand = some k) (l : Nat) :
    (s.unbindSlot h st pos n).find l = (s.find l).map (Record.slotFreed (s.head h).product k st pos n) := by
  have htag (r : Record) : (if r.tag = k then r.unbindTo st else r).tag = r.tag := by split <;> simp
  simp only [State.unbindSlot, e]
  rw [State.updSlot_find]
  cases hp : (s.head h).product with
  | none =>
    rw [State.updRec_find (Record.unbindTo_tag st)]
    rfl
  | some p =>
    rw [State.updRec_find (Record.closeSources_tag _ _), State.updRec_find (Record.unbindTo_tag st), Option.map_map]
    congr 1
    funext x
    simp only [Function.comp_apply, htag, Record.slotFreed, Option.some.injEq, eq_comm (a := p)]

theorem State.unbindSlot_find_strand (e : ((s.head h).slot n).strand = some k) (hp : (s.head h).product ≠ some k) :
    (s.unbindSlot h st pos n).find k = (s.find k).map (Record.unbindTo st) := by
  rw [State.unbindSlot_find e]
  cases hx : s.find k with
  | none => rfl
  | some x =>
    obtain ⟨-, rfl⟩ := State.find_mem hx
    rw [Option.map_some, Option.map_some, Record.slotFreed, if_neg hp, if_pos rfl]

theorem State.unbindSlot_find_product (e : ((s.head h).slot n).strand = some k) (hp : (s.head h).product = some p) (hk : k ≠ p) :
    (s.unbindSlot h st pos n).find p = (s.find p).map fun x => x.closeSources (fun m => decide (m = n)) pos := by
  rw [State.unbindSlot_find e]
  cases hx : s.find p with
  | none => rfl
  | some x =>
    obtain ⟨-, rfl⟩ := State.find_mem hx
    rw [Option.map_some, Option.map_some, Record.slotFreed, if_pos hp, if_neg (Ne.symm hk)]

theorem State.unbindSlot_find_other {l : Nat} (e : ((s.head h).slot n).strand = some k) (hp : (s.head h).product ≠ some l) (hk : k ≠ l) :
    (s.unbindSlot h st pos n).find l = s.find l := by
  rw [State.unbindSlot_find e]
  cases hx : s.find l with
  | none => rfl
  | some x =>
    obtain ⟨-, rfl⟩ := State.find_mem hx
    rw [Option.map_some, Record.slotFreed, if_neg hp, if_neg (Ne.symm hk)]

theorem State.unbindSlot_head_eq (e : ((s.head h).slot n).strand = some k) :
    (s.unbindSlot h st pos n).head h = (s.head h).updSlot n fun x => { required := x.required } := by
  simp only [State.unbindSlot, e]
  rw [State.updSlot_head]
  cases (s.head h).product <;> rfl

theorem State.unbindSlot_slot_ne (hm : m ≠ n) : ((s.unbindSlot h st pos n).head h).slot m = (s.head h).slot m := by
  cases e : ((s.head h).slot n).strand with
  | none => rw [State.unbindSlot_empty e]
  | some k => rw [State.unbindSlot_head_eq e, Head.updSlot_slot_ne _ _ hm]

theorem State.unbindSlot_attn (h : HeadIx) (st : RecordState) (pos : Nat) (s : State) (n : SlotIx) :
    (s.unbindSlot h st pos n).attn = s.attn := by
  cases e : ((s.head h).slot n).strand with
  | none => rw [State.unbindSlot_empty e]
  | some k =>
    simp only [State.unbindSlot, e]
    cases (s.head h).product <;> rfl

theorem Record.unbindTo_plain (hm : x.state ≠ .making) : x.unbindTo st = { x with state := st, bound := none, boundFrom := none } := by
  rw [Record.unbindTo, if_neg hm]

/-! ## Every slot -/

/-- A record whose open source entries, closed at `pos`, are those of `q` closed there; otherwise it is `q`. -/
def Record.ClosesAs (pos : Nat) (q x : Record) : Prop :=
  ∃ l, x = { q with body := q.body.withSources l } ∧ closeEntries (fun _ => true) pos l = closeEntries (fun _ => true) pos q.body.sources

theorem Body.withSources_self (b : Body) : b.withSources b.sources = b := by
  cases b <;> rfl

theorem Body.withSources_withSources (l l' : List SourceEntry) (b : Body) : (b.withSources l).withSources l' = b.withSources l' := by
  cases b <;> rfl

theorem Record.ClosesAs.refl (pos : Nat) (q : Record) : q.ClosesAs pos q := ⟨q.body.sources, by rw [Body.withSources_self], rfl⟩

theorem closeEntries_closeEntries (which : SlotIx → Bool) (pos : Nat) (l : List SourceEntry) :
    closeEntries (fun _ => true) pos (closeEntries which pos l) = closeEntries (fun _ => true) pos l := by
  rw [closeEntries, closeEntries, List.map_map, closeEntries]
  refine List.map_congr_left fun e _ => ?_
  rw [Function.comp_apply]
  by_cases he : (which e.slot && e.stop.isNone) = true
  · have hn : e.stop.isNone = true := (Bool.and_eq_true_iff.mp he).2
    rw [if_pos he]
    simp [hn]
  · rw [if_neg he]

theorem Record.ClosesAs.closeSources {which : SlotIx → Bool} (h : q.ClosesAs pos x) : q.ClosesAs pos (x.closeSources which pos) := by
  obtain ⟨l, rfl, hl⟩ := h
  cases hb : q.body with
  | strand b => exact ⟨q.body.sources, by simp [Record.closeSources, hb, Body.withSources], rfl⟩
  | coil b => exact ⟨q.body.sources, by simp [Record.closeSources, hb, Body.withSources], rfl⟩
  | rope b =>
    refine ⟨closeEntries which pos l, by simp [Record.closeSources, hb, Body.withSources, Body.sources], ?_⟩
    rw [closeEntries_closeEntries, hl]
  | panel b =>
    refine ⟨closeEntries which pos l, by simp [Record.closeSources, hb, Body.withSources, Body.sources], ?_⟩
    rw [closeEntries_closeEntries, hl]

/-- Every slot unbound: the product's entries are closed, each strand has entered the state, and the rest stands. -/
theorem State.unbindAll_find (hs : st.loose = true) (B : s.BoundBut h noRole K) (ep : (s.head h).product = some p) :
    (∀ q, s.find p = some q → ∃ x, (allSlots.foldl (State.unbindSlot h st pos) s).find p = some x ∧ q.ClosesAs pos x) ∧
    (∀ n k, ((s.head h).slot n).strand = some k →
      (allSlots.foldl (State.unbindSlot h st pos) s).find k = (s.find k).map (Record.unbindTo st)) ∧
    ∀ k, p ≠ k → (∀ n, ((s.head h).slot n).strand ≠ some k) → (allSlots.foldl (State.unbindSlot h st pos) s).find k = s.find k := by
  let P : State → Prop := fun u => u.BoundBut h noRole K ∧ (u.head h).product = some p
  have hP (u : State) (m : SlotIx) (hu : P u) : P (u.unbindSlot h st pos m) :=
    ⟨State.unbindSlot_boundBut hs hu.1, (State.unbindSlot_head u h st pos m).1.trans hu.2⟩
  refine ⟨fun q hq => ?_, fun n k hk => ?_, fun k hpk hno => ?_⟩
  · let I : State → Prop := fun u => P u ∧ ∃ x, u.find p = some x ∧ q.ClosesAs pos x
    have hI (u : State) (m : SlotIx) (hu : I u) : I (u.unbindSlot h st pos m) := by
      obtain ⟨hu, x, hx, hc⟩ := hu
      refine ⟨hP u m hu, ?_⟩
      cases e : ((u.head h).slot m).strand with
      | none => exact ⟨x, by rw [State.unbindSlot_empty e, hx], hc⟩
      | some k =>
        rw [State.unbindSlot_find_product e hu.2 (hu.1.strand_ne_product hu.2 e), hx]
        exact ⟨_, rfl, hc.closeSources⟩
    exact (foldl_invariant hI allSlots s ⟨⟨B, ep⟩, q, hq, .refl pos q⟩).2
  · have hU (u : State) (m : SlotIx) (hu : P u ∧ ∀ m, m ≠ n → ((u.head h).slot m).strand ≠ some k) (hm : m ≠ n) :
        (u.unbindSlot h st pos m).find k = u.find k ∧ ((u.unbindSlot h st pos m).head h).slot n = (u.head h).slot n := by
      refine ⟨?_, State.unbindSlot_slot_ne (Ne.symm hm)⟩
      cases e : ((u.head h).slot m).strand with
      | none => rw [State.unbindSlot_empty e]
      | some l =>
        refine State.unbindSlot_find_other e (fun e' => ?_) fun e' => hu.2 m hm (e' ▸ e)
        exact B.strand_ne_product ep hk (Option.some.inj (e'.symm.trans hu.1.2))
    have hP' (u : State) (m : SlotIx) (hu : P u ∧ ∀ m, m ≠ n → ((u.head h).slot m).strand ≠ some k) :
        P (u.unbindSlot h st pos m) ∧ ∀ j, j ≠ n → (((u.unbindSlot h st pos m).head h).slot j).strand ≠ some k := by
      refine ⟨hP u m hu.1, fun j hj => ?_⟩
      obtain ⟨-, -, hnone, -⟩ := State.unbindSlot_head u h st pos m
      by_cases hjm : j = m
      · subst hjm
        rw [hnone]
        nofun
      · rw [State.unbindSlot_slot_ne hjm]
        exact hu.2 j hj
    obtain ⟨u, hu, hsu, hlast⟩ := exists_foldl_step (U := fun a b : State => b.find k = a.find k ∧ (b.head h).slot n = (a.head h).slot n)
      (fun _ => ⟨rfl, rfl⟩) (fun _ _ _ a b => ⟨b.1.trans a.1, b.2.trans a.2⟩) hP' n hU allSlots s allSlots_nodup (mem_allSlots n)
      ⟨⟨B, ep⟩, fun m hm e => hm (B.strand_unique hk e)⟩
    have hku : ((u.head h).slot n).strand = some k := by rw [hsu.2, hk]
    rw [hlast.1, State.unbindSlot_find_strand hku fun e => B.strand_ne_product ep hk (Option.some.inj (e.symm.trans hu.1.2)), hsu.1]
  · let I : State → Prop := fun u => P u ∧ (∀ n, ((u.head h).slot n).strand ≠ some k) ∧ u.find k = s.find k
    have hI (u : State) (m : SlotIx) (hu : I u) : I (u.unbindSlot h st pos m) := by
      obtain ⟨hu, hno, hfind⟩ := hu
      refine ⟨hP u m hu, fun j => ?_, ?_⟩
      · obtain ⟨-, -, hnone, -⟩ := State.unbindSlot_head u h st pos m
        by_cases hjm : j = m
        · subst hjm
          rw [hnone]
          nofun
        · rw [State.unbindSlot_slot_ne hjm]
          exact hno j
      · cases e : ((u.head h).slot m).strand with
        | none => rw [State.unbindSlot_empty e, hfind]
        | some l =>
          rw [State.unbindSlot_find_other e (fun e' => hpk (Option.some.inj (hu.2.symm.trans e'))) (fun e' => hno m (e' ▸ e)), hfind]
    exact (foldl_invariant hI allSlots s ⟨⟨B, ep⟩, hno, rfl⟩).2.2

end Sys2Proof.Machine
end

section
/-! PROOF. The charge of a row: what it draws from the strands of a loom, and what it leaves of the rest (R125, R128, R131, R133). -/

namespace Sys2Proof.Machine

variable {h : HeadIx} {s t u : State} {r q x : Record} {y : StrandBody} {n m : SlotIx} {k p pos amount left : Nat}
  {K : HeadIx → Option MachineKind} {d : Draw}

/-! ## FEED_LOW -/

/-- The slot after the FEED_LOW check. -/
def FeedSlot.noteLow (low : Bool) (x : FeedSlot) : FeedSlot := { x with lowNoted := x.lowNoted || low }

theorem Head.updSlot_self (x : Head) {f : FeedSlot → FeedSlot} (hf : f (x.slot n) = x.slot n) : x.updSlot n f = x := by
  rw [Head.updSlot, hf, Head.slot, Vector.set_getElem_self]

theorem State.checkLow_head (h : HeadIx) (n : SlotIx) (left : Nat) (s : State) : (s.checkLow h n left).head h =
    (s.head h).updSlot n (FeedSlot.noteLow (decide (left < (s.head h).settings.feedLow * 1000))) := by
  unfold State.checkLow
  dsimp only
  split
  case isTrue hlow =>
    rw [State.updSlot_head, State.raiseAlarm_head, decide_eq_true hlow.1, Head.updSlot, Head.updSlot, FeedSlot.noteLow, Bool.or_true]
  case isFalse hno =>
    refine (Head.updSlot_self _ ?_).symm
    by_cases hl : left < (s.head h).settings.feedLow * 1000
    · have hnoted : ((s.head h).slot n).lowNoted = true := by simpa [hl] using hno
      rw [FeedSlot.noteLow, hnoted, Bool.true_or, ← hnoted]
    · rw [FeedSlot.noteLow, decide_eq_false hl, Bool.or_false]

theorem State.checkLow_store (h : HeadIx) (n : SlotIx) (left : Nat) (s : State) : (s.checkLow h n left).store = s.store := by
  unfold State.checkLow
  dsimp only
  split <;> rfl

theorem State.checkLow_alarm (hl : left < (s.head h).settings.feedLow * 1000) (h0 : ((s.head h).slot n).lowNoted = false) :
    (s.checkLow h n left).flagged h .alarm = true ∧ ((s.checkLow h n left).attn.causesOf h).feedLow = true := by
  unfold State.checkLow
  dsimp only
  rw [if_pos ⟨hl, h0⟩]
  exact ⟨State.raiseAlarm_flagged .., State.raiseAlarm_has _ h .feedLow⟩

/-! ## One draw -/

/-- A strand's record after a draw (R131). -/
def Record.consumes (d : Draw) (x : Record) : Record := x.onStrand fun y => { y with consumed := d.consumed }

@[simp] theorem Record.consumes_tag (d : Draw) (x : Record) : (x.consumes d).tag = x.tag := Record.onStrand_tag ..

theorem Record.consumes_eq (hy : x.body = .strand y) : x.consumes d = { x with body := .strand { y with consumed := d.consumed } } := by
  simp only [Record.consumes, Record.onStrand, hy]

/-- A strand's record after a draw that spends it or does not (R131). -/
def Record.afterDraw (d : Draw) (x : Record) : Record := if d.spent then (x.consumes d).unbindTo .spent else x.consumes d

theorem Record.afterDraw_eq (hy : x.body = .strand y) (hm : x.state ≠ .making) : x.afterDraw d =
    if d.spent then { x with body := .strand { y with consumed := d.consumed }, state := .spent, bound := none, boundFrom := none }
    else { x with body := .strand { y with consumed := d.consumed } } := by
  rw [Record.afterDraw, Record.consumes_eq hy]
  split
  · rw [Record.unbindTo_plain (by exact hm)]
  · rfl

/-- A draw of nothing leaves the strand as it is. -/
theorem Record.afterDraw_zero (hy : x.body = .strand y) : x.afterDraw (y.draw 0) = x := by
  have hspent : (y.draw 0).spent = false := rfl
  rw [Record.afterDraw, hspent, Record.consumes_eq hy, StrandBody.draw]
  obtain ⟨⟩ := x
  cases hy
  simp

/-! ## One slot of a loom -/

/-- The charge of one slot of a loom, without the mark it gives the row (R125). -/
def State.charge (h : HeadIx) (amount pos : Nat) (s : State) (n : SlotIx) : State := (State.chargeSlot h amount pos (s, false) n).1

/-- The charge of one slot marks the row FEED (R128). -/
def State.drawsFaulty (h : HeadIx) (amount : Nat) (s : State) (n : SlotIx) : Bool :=
  ((s.head h).slot n).strand.isNone || (decide (0 < amount) && (s.fedBy h n).any fun x =>
    (x.2.draw amount).clamped || (x.2.draw amount).faulty x.2.piece.spans)

theorem State.fedBy_none_of_empty (e : ((s.head h).slot n).strand = none) : s.fedBy h n = none := by
  simp only [State.fedBy, e, Option.bind_none]

theorem State.chargeSlot_eq (a : State × Bool) : State.chargeSlot h amount pos a n =
    (a.1.charge h amount pos n, a.2 || a.1.drawsFaulty h amount n) := by
  unfold State.charge State.chargeSlot State.drawsFaulty
  dsimp only
  cases ((a.1.head h).slot n).strand with
  | none => simp
  | some k =>
    by_cases h0 : amount = 0
    · simp [h0]
    · cases e : a.1.fedBy h n with
      | none => simp [h0]
      | some x => simp [h0, Nat.pos_of_ne_zero h0, Bool.or_assoc]

/-- A draw from the strand of a slot, with the FEED_LOW check (R131, R133). -/
def State.drawn (h : HeadIx) (n : SlotIx) (x : Record) (y : StrandBody) (amount : Nat) (s : State) : State :=
  (s.updRec x.tag (Record.consumes (y.draw amount))).checkLow h n (y.piece.made - (y.draw amount).consumed)

theorem State.drawn_find (h : HeadIx) (n : SlotIx) (x : Record) (y : StrandBody) (amount k : Nat) (s : State) :
    (s.drawn h n x y amount).find k = (s.find k).map fun r => if r.tag = x.tag then r.consumes (y.draw amount) else r := by
  rw [State.drawn, State.find_of_store (State.checkLow_store ..), State.updRec_find (Record.consumes_tag _)]

theorem State.drawn_head (h : HeadIx) (n : SlotIx) (x : Record) (y : StrandBody) (amount : Nat) (s : State) :
    (s.drawn h n x y amount).head h = (s.head h).updSlot n
      (FeedSlot.noteLow (decide (y.piece.made - (y.draw amount).consumed < (s.head h).settings.feedLow * 1000))) := by
  rw [State.drawn, State.checkLow_head, State.updRec_head]

/-- What is charged to a slot that has a strand. -/
theorem State.charge_fed (e : s.fedBy h n = some (x, y)) (h0 : 0 < amount) : s.charge h amount pos n =
    if (y.draw amount).spent then (s.drawn h n x y amount).unbindSlot h .spent pos n else s.drawn h n x y amount := by
  have hk := State.strand_of_fedBy e
  simp only [State.charge, State.chargeSlot, hk, Option.isNone_some, Bool.false_eq_true, if_false, Nat.ne_of_gt h0, e]
  rfl

theorem State.charge_nothing (h0 : amount = 0 ∨ s.fedBy h n = none) : s.charge h amount pos n = s := by
  unfold State.charge State.chargeSlot
  dsimp only
  split
  · rfl
  · rcases h0 with h0 | h0
    · rw [if_pos h0]
    · rw [h0]
      split <;> rfl

theorem State.charge_cases (s : State) (h : HeadIx) (amount pos : Nat) (n : SlotIx) :
    ((amount = 0 ∨ s.fedBy h n = none) ∧ s.charge h amount pos n = s) ∨
    ∃ x y, 0 < amount ∧ s.fedBy h n = some (x, y) ∧ s.charge h amount pos n =
      if (y.draw amount).spent then (s.drawn h n x y amount).unbindSlot h .spent pos n else s.drawn h n x y amount := by
  by_cases h0 : amount = 0 ∨ s.fedBy h n = none
  · exact .inl ⟨h0, State.charge_nothing h0⟩
  · rw [not_or] at h0
    obtain ⟨⟨x, y⟩, e⟩ := Option.ne_none_iff_exists'.mp h0.2
    exact .inr ⟨x, y, Nat.pos_of_ne_zero h0.1, e, State.charge_fed e (Nat.pos_of_ne_zero h0.1)⟩

theorem State.drawn_strand (m : SlotIx) : (((s.drawn h n x y amount).head h).slot m).strand = ((s.head h).slot m).strand := by
  rw [State.drawn_head]
  by_cases hm : m = n
  · subst hm
    rw [Head.updSlot_slot]
    rfl
  · rw [Head.updSlot_slot_ne _ _ hm]

theorem State.drawn_product : ((s.drawn h n x y amount).head h).product = (s.head h).product := by
  rw [State.drawn_head]
  rfl

/-- A charge alters the slots of its head alone. -/
theorem State.charge_head (s : State) (h : HeadIx) (amount pos : Nat) (n : SlotIx) :
    (s.charge h amount pos n).head h = { s.head h with slots := ((s.charge h amount pos n).head h).slots } := by
  rcases State.charge_cases s h amount pos n with ⟨-, e⟩ | ⟨x, y, -, e, hstep⟩
  · rw [e]
  · rw [hstep]
    split
    · rw [State.unbindSlot_head_eq ((State.drawn_strand n).trans (State.strand_of_fedBy e)), State.drawn_head]
      rfl
    · rw [State.drawn_head]
      rfl

theorem State.charge_slot_ne (hm : m ≠ n) : ((s.charge h amount pos n).head h).slot m = (s.head h).slot m := by
  rcases State.charge_cases s h amount pos n with ⟨-, e⟩ | ⟨x, y, -, e, hstep⟩
  · rw [e]
  · rw [hstep]
    split
    · rw [State.unbindSlot_slot_ne hm, State.drawn_head, Head.updSlot_slot_ne _ _ hm]
    · rw [State.drawn_head, Head.updSlot_slot_ne _ _ hm]

/-- What a charge leaves of the slot it charges. -/
theorem State.charge_slot (e : s.fedBy h n = some (x, y)) (h0 : 0 < amount) :
    (((s.charge h amount pos n).head h).slot n).strand = (if (y.draw amount).spent then none else some x.tag) ∧
      (((s.charge h amount pos n).head h).slot n).required = ((s.head h).slot n).required := by
  have hk := State.strand_of_fedBy e
  rw [State.charge_fed e h0]
  split
  · rw [State.unbindSlot_head_eq ((State.drawn_strand n).trans hk), State.drawn_head, Head.updSlot_slot, Head.updSlot_slot]
    exact ⟨rfl, rfl⟩
  · refine ⟨(State.drawn_strand n).trans hk, ?_⟩
    rw [State.drawn_head, Head.updSlot_slot]
    rfl

theorem State.charge_find_strand (e : s.fedBy h n = some (x, y)) (hp : (s.head h).product ≠ some x.tag) (amount : Nat) :
    (s.charge h amount pos n).find x.tag = some (x.afterDraw (y.draw amount)) := by
  have hk := State.strand_of_fedBy e
  obtain ⟨hx, hy⟩ := State.fedBy_find e
  rcases Nat.eq_zero_or_pos amount with rfl | h0
  · rw [State.charge_nothing (.inl rfl), hx, Record.afterDraw_zero hy]
  · have hdrawn : (s.drawn h n x y amount).find x.tag = some (x.consumes (y.draw amount)) := by
      rw [State.drawn_find, hx, Option.map_some, if_pos rfl]
    rw [State.charge_fed e h0, Record.afterDraw]
    split
    · rw [State.unbindSlot_find_strand ((State.drawn_strand n).trans hk) (by rwa [State.drawn_product]), hdrawn]
      rfl
    · exact hdrawn

theorem State.charge_find_other (hp : (s.head h).product ≠ some k) (hk : ((s.head h).slot n).strand ≠ some k) :
    (s.charge h amount pos n).find k = s.find k := by
  rcases State.charge_cases s h amount pos n with ⟨-, e⟩ | ⟨x, y, -, e, hstep⟩
  · rw [e]
  · have hx := State.strand_of_fedBy e
    have hne : x.tag ≠ k := fun hxk => hk (hxk ▸ hx)
    have hdrawn : (s.drawn h n x y amount).find k = s.find k := by
      rw [State.drawn_find]
      cases hf : s.find k with
      | none => rfl
      | some r =>
        obtain ⟨-, rfl⟩ := State.find_mem hf
        rw [Option.map_some, if_neg (Ne.symm hne)]
    rw [hstep]
    split
    · rw [State.unbindSlot_find_other ((State.drawn_strand n).trans hx) (by rwa [State.drawn_product]) hne, hdrawn]
    · exact hdrawn

theorem closeEntries_closeEntries_or (a b : SlotIx → Bool) (pos : Nat) (l : List SourceEntry) :
    closeEntries a pos (closeEntries b pos l) = closeEntries (fun n => b n || a n) pos l := by
  rw [closeEntries, closeEntries, List.map_map, closeEntries]
  refine List.map_congr_left fun e _ => ?_
  rw [Function.comp_apply]
  cases hs : e.stop <;> cases b e.slot <;> simp [hs]

theorem Record.closeSources_closeSources (a b : SlotIx → Bool) (pos : Nat) (q : Record) :
    (q.closeSources b pos).closeSources a pos = q.closeSources (fun n => b n || a n) pos := by
  cases hb : q.body <;> simp [Record.closeSources, hb, Body.withSources, Body.sources, closeEntries_closeEntries_or]

theorem closeEntries_none (l : List SourceEntry) (pos : Nat) : closeEntries (fun _ => false) pos l = l := by
  simp [closeEntries]

theorem Record.closeSources_none (q : Record) (pos : Nat) : q.closeSources (fun _ => false) pos = q := by
  rw [Record.closeSources, closeEntries_none, Body.withSources_self]

/-- The product of a maker as the charge of one slot leaves it: where the strand is spent, its entries of the slot are closed (R123). -/
theorem State.charge_find_product (hq : s.productOf h = some q) (hb : q.kind ≠ .strand) :
    (s.charge h amount pos n).find q.tag = some (q.closeSources (fun m => decide (m = n) && s.runsOut h n amount) pos) := by
  have hf := State.productOf_find hq
  have hp : (s.head h).product = some q.tag := by
    obtain ⟨p, hp, e⟩ := Option.bind_eq_some_iff.mp hq
    obtain ⟨-, rfl⟩ := State.find_mem e
    exact hp
  rcases State.charge_cases s h amount pos n with ⟨h0, e⟩ | ⟨x, y, h0, e, hstep⟩
  · have hrun : s.runsOut h n amount = false := by
      rcases h0 with rfl | h0
      · unfold State.runsOut
        cases s.fedBy h n <;> rfl
      · simp only [State.runsOut, h0]
    simp only [e, hrun, Bool.and_false, Record.closeSources_none, hf]
  · have hx := State.strand_of_fedBy e
    obtain ⟨hfx, hy⟩ := State.fedBy_find e
    have hne : x.tag ≠ q.tag := fun hxq => by
      rw [hxq, hf] at hfx
      cases hfx
      exact hb (by rw [Record.kind, hy]; rfl)
    have hdrawn : (s.drawn h n x y amount).find q.tag = some q := by
      rw [State.drawn_find, hf, Option.map_some, if_neg (Ne.symm hne)]
    rw [hstep, State.runsOut_eq_spent e]
    cases (y.draw amount).spent
    · rw [if_neg Bool.false_ne_true, hdrawn]
      simp only [Bool.and_false, Record.closeSources_none]
    · rw [if_pos rfl, State.unbindSlot_find_product ((State.drawn_strand n).trans hx) (State.drawn_product.trans hp) hne, hdrawn]
      simp only [Bool.and_true, Option.map_some]

theorem State.charge_low (e : s.fedBy h n = some (x, y)) (h0 : 0 < amount) (hl : y.piece.made - (y.draw amount).consumed < (s.head h).settings.feedLow * 1000)
    (hn : ((s.head h).slot n).lowNoted = false) :
    (s.charge h amount pos n).flagged h .alarm = true ∧ ((s.charge h amount pos n).attn.causesOf h).feedLow = true := by
  have hdrawn := State.checkLow_alarm (s := s.updRec x.tag (Record.consumes (y.draw amount))) hl hn
  rw [State.charge_fed e h0]
  split
  · rw [State.flagged, State.unbindSlot_attn]
    exact hdrawn
  · exact hdrawn

theorem State.charge_carries (s : State) (h : HeadIx) (amount pos : Nat) (n : SlotIx) : s.Carries h (s.charge h amount pos n) :=
  State.chargeSlot_carries (a := (s, false)) (.refl h s)

theorem State.charge_boundBut (B : s.BoundBut h noRole K) : (s.charge h amount pos n).BoundBut h noRole K :=
  State.chargeSlot_boundBut (a := (s, false)) B

theorem State.charge_product (s : State) (h : HeadIx) (amount pos : Nat) (n : SlotIx) :
    ((s.charge h amount pos n).head h).product = (s.head h).product := by
  rw [State.charge_head]

/-! ## A strand that another slot's charge leaves alone -/

/-- From `s` to `t` nothing has happened to slot `n`, nor to the record of tag `k`, and what was raised stands. -/
structure State.Spares (h : HeadIx) (n : SlotIx) (k : Nat) (s t : State) : Prop where
  record : t.find k = s.find k
  slot : (t.head h).slot n = (s.head h).slot n
  product : (t.head h).product = (s.head h).product
  carries : s.Carries h t

theorem State.Spares.refl (h : HeadIx) (n : SlotIx) (k : Nat) (s : State) : s.Spares h n k s := ⟨rfl, rfl, rfl, .refl h s⟩

theorem State.Spares.trans (a : s.Spares h n k t) (b : t.Spares h n k u) : s.Spares h n k u where
  record := b.record.trans a.record
  slot := b.slot.trans a.slot
  product := b.product.trans a.product
  carries := a.carries.trans b.carries

theorem State.charge_spares (hm : n ≠ m) (hp : (s.head h).product ≠ some k) (hk : ((s.head h).slot m).strand ≠ some k) :
    s.Spares h n k (s.charge h amount pos m) where
  record := State.charge_find_other hp hk
  slot := State.charge_slot_ne hm
  product := State.charge_product ..
  carries := State.charge_carries ..

theorem State.Spares.fedBy (a : s.Spares h n k t) (e : s.fedBy h n = some (x, y)) (hk : x.tag = k) : t.fedBy h n = some (x, y) := by
  subst hk
  obtain ⟨hx, hy⟩ := State.fedBy_find e
  exact State.fedBy_of_strand (by rw [a.slot, State.strand_of_fedBy e]) (a.record.trans hx) hy

theorem State.Spares.settings (a : s.Spares h n k t) : (t.head h).settings = (s.head h).settings := by
  have hm := a.carries.meter
  simp only [Head.meter, Prod.mk.injEq] at hm
  obtain ⟨-, hset, -⟩ := hm
  exact hset

/-- Both slots of a loom charged (R125). -/
def State.chargeBoth (h : HeadIx) (amount pos : Nat) (s : State) : State := (s.charge h amount pos 0).charge h amount pos 1

theorem State.chargeRow_fold (h : HeadIx) (amount pos : Nat) (s : State) :
    [(0 : SlotIx), 1].foldl (State.chargeSlot h amount pos) (s, false) =
      (s.chargeBoth h amount pos, s.drawsFaulty h amount 0 || (s.charge h amount pos 0).drawsFaulty h amount 1) := by
  simp only [List.foldl_cons, List.foldl_nil, State.chargeSlot_eq, Bool.false_or]
  rfl

theorem State.charge_strand (m : SlotIx) : (((s.charge h amount pos n).head h).slot m).strand = ((s.head h).slot m).strand ∨
    (((s.charge h amount pos n).head h).slot m).strand = none := by
  by_cases hm : m = n
  · subst hm
    by_cases h0 : amount = 0 ∨ s.fedBy h m = none
    · exact .inl (by rw [State.charge_nothing h0])
    · rw [not_or] at h0
      obtain ⟨⟨x, y⟩, e⟩ := Option.ne_none_iff_exists'.mp h0.2
      rw [(State.charge_slot e (Nat.pos_of_ne_zero h0.1)).1, State.strand_of_fedBy e]
      split
      · exact .inr rfl
      · exact .inl rfl
  · exact .inl (by rw [State.charge_slot_ne hm])

/-- One of the two slots: it is charged in a state that is for it as the first was, and left alone after. -/
theorem State.chargeBoth_at (B : s.BoundBut h noRole K) (hn : n.val < 2) (hk : ((s.head h).slot n).strand = some k)
    (ep : (s.head h).product = some p) : ∃ u, s.Spares h n k u ∧ (u.charge h amount pos n).Spares h n k (s.chargeBoth h amount pos) := by
  have hkp := B.strand_ne_product ep hk
  have hother (m : SlotIx) (hm : m ≠ n) : ((s.head h).slot m).strand ≠ some k := fun e => hm (B.strand_unique hk e)
  have hprod (t : State) (ht : (t.head h).product = (s.head h).product) : (t.head h).product ≠ some k := by
    rw [ht, ep]
    exact fun e => hkp (Option.some.inj e).symm
  obtain rfl | rfl : n = 0 ∨ n = 1 := by
    rcases n with ⟨_ | _ | n, hlt⟩
    · exact .inl rfl
    · exact .inr rfl
    · exact absurd hn (by simp)
  · refine ⟨s, .refl .., State.charge_spares (by decide) (hprod _ (State.charge_product ..)) ?_⟩
    rcases State.charge_strand (s := s) (h := h) (amount := amount) (pos := pos) (n := 0) 1 with e | e <;> rw [e]
    · exact hother 1 (by decide)
    · nofun
  · exact ⟨_, State.charge_spares (by decide) (hprod s rfl) (hother 0 (by decide)), .refl ..⟩

end Sys2Proof.Machine
end

section
/-! PROOF. The close of a row: what it leaves of its panel (R141, R143, R144). -/

namespace Sys2Proof.Machine

variable {h : HeadIx} {s t u : State} {r q x : Record} {b : PanelBody} {w : RowWindow} {n m : SlotIx} {k j : Nat} {f : Piece → Piece × Bool}
  {kinds : KindSet} {p : Piece}

/-! ## A panel whose piece has been worked on -/

/-- Record `j` is a panel with the fields `b`, but for its piece, which is as long. -/
def State.PanelAs (j : Nat) (b : PanelBody) (t : State) : Prop :=
  ∃ x p, t.find j = some x ∧ x.body = .panel { b with piece := p } ∧ p.made = b.piece.made

theorem State.PanelAs.of_find (a : s.PanelAs j b) (e : t.find j = s.find j) : t.PanelAs j b := by
  obtain ⟨x, p, hx, hb, hm⟩ := a
  exact ⟨x, p, e.trans hx, hb, hm⟩

theorem State.PanelAs.onPiece (hf : ∀ p, (f p).1.made = p.made) (a : s.PanelAs j b) : (s.onPiece k f).PanelAs j b := by
  obtain ⟨x, p, hx, hb, hm⟩ := a
  by_cases hk : j = k
  · subst hk
    refine ⟨_, (f p).1, State.onPiece_find (p := p) hx (by rw [hb]; rfl), ?_, (hf p).trans hm⟩
    show x.body.withPiece _ = _
    rw [hb]
    rfl
  · exact ⟨x, p, (State.onPiece_find_ne hk).trans hx, hb, hm⟩

theorem State.PanelAs.addHolder {hd : Holder} {start : Nat} (a : s.PanelAs j b) : (s.addHolder k hd start).PanelAs j b := by
  unfold State.addHolder
  split
  · split
    · exact a.onPiece fun _ => Piece.addHolder_made
    · exact a
  · exact a

theorem State.PanelAs.flawRises (a : s.PanelAs j b) : (s.flawRises h).PanelAs j b := by
  have hmaker : (s.makerFlawRise h).PanelAs j b := by
    unfold State.makerFlawRise
    split
    · exact a
    · dsimp only
      split
      · exact a
      · split
        · exact (State.PanelAs.addHolder (a.onPiece fun _ => rfl)).of_find rfl
        · exact a.addHolder
  unfold State.flawRises
  split
  · exact hmaker
  · exact hmaker
  · exact a.of_find rfl
  · exact a.of_find rfl
  · exact a

theorem State.PanelAs.addHold {reason : HoldReason} (a : s.PanelAs j b) : (s.addHold h reason).PanelAs j b := by
  have hheld {u : State} (a : u.PanelAs j b) : (u.enterHeld h).PanelAs j b := by
    unfold State.enterHeld
    dsimp only
    split
    · exact State.PanelAs.flawRises (a.of_find rfl)
    · exact a.of_find rfl
  unfold State.addHold
  split
  · exact a
  · dsimp only
    split
    · exact hheld (a.of_find rfl)
    · exact hheld (a.of_find rfl)
    · exact hheld (a.of_find rfl)
    all_goals exact a.of_find rfl

/-! ## FEED_SHORT in a running state -/

/-- What FEED_SHORT does to a head in a running state (R61): RUN and STOPPED go to HELD, with STATE; the store stands. -/
structure State.TakesShort (h : HeadIx) (s t : State) : Prop where
  store : t.store = s.store
  head : t.head h = { s.head h with state := (t.head h).state, holds := (t.head h).holds, window := (t.head h).window }
  short : (t.head h).holds.feedShort = true
  running : (t.head h).state.running = true
  cutting : (t.head h).state = .cutting ↔ (s.head h).state = .cutting
  again : (s.head h).holds.feedShort = true → (t.head h).state = (s.head h).state
  held : (s.head h).holds.feedShort = false → (s.head h).state = .run ∨ (s.head h).state = .stopped → t.flagged h .state = true

theorem State.addFeedShort_running (hr : (s.head h).state.running = true) : s.TakesShort h (s.addHold h .feedShort) := by
  cases h0 : (s.head h).holds.feedShort
  case true =>
    have hno : s.addHold h .feedShort = s := by simp [State.addHold, HoldSet.has, h0]
    rw [hno]
    exact ⟨rfl, rfl, h0, hr, Iff.rfl, fun _ => rfl, fun e => absurd (h0.symm.trans e) nofun⟩
  case false =>
    by_cases hst : (s.head h).state = .run ∨ (s.head h).state = .stopped
    · rw [State.addFeedShort_run hst h0]
      have hhead : ((s.updHead h Head.heldShort).raise h .state).head h = (s.head h).heldShort := by
        rw [State.raise_head, State.updHead_head]
      refine ⟨rfl, by rw [hhead]; rfl, by rw [hhead]; rfl, by rw [hhead]; rfl, ?_, fun e => absurd (h0.symm.trans e) nofun,
        fun _ _ => State.raise_flagged ..⟩
      rw [hhead]
      rcases hst with hst | hst <;> rw [hst] <;> exact ⟨nofun, nofun⟩
    · have hst' : (s.head h).state = .held ∨ (s.head h).state = .cutting := by
        have := HeadState.running_iff.mp hr
        tauto
      have hstep : s.addHold h .feedShort = s.updHead h fun y => { y with holds := y.holds.put true .feedShort } := by
        rcases hst' with e | e <;> simp [State.addHold, HoldSet.has, h0, e]
      rw [hstep]
      refine ⟨rfl, by rw [State.updHead_head], by rw [State.updHead_head]; rfl, by rw [State.updHead_head]; exact hr,
        by rw [State.updHead_head], fun e => absurd (h0.symm.trans e) nofun, fun _ e => absurd e hst⟩

/-! ## The row's charge -/

/-- A panel with the missed knots of a row added (R141, step 2). -/
def PanelBody.lacking (missed : Nat) (b : PanelBody) : PanelBody :=
  { b with missed := if missed = 0 then b.missed else min (b.missed + missed) lengthTop }

theorem State.countMissed_head (h : HeadIx) (j missed : Nat) (s : State) (g : HeadIx) :
    (s.countMissed h j missed).head g = s.head g := by
  unfold State.countMissed
  split <;> rfl

theorem State.countMissed_find (hx : s.find j = some x) (hb : x.body = .panel b) (h : HeadIx) (missed : Nat) :
    (s.countMissed h j missed).find j = some { x with body := .panel (b.lacking missed) } := by
  unfold State.countMissed PanelBody.lacking
  split
  · rw [hx, ← hb]
  · rw [State.raiseAlarm_find, State.find_updRec (Record.onPanel_tag _), hx, Option.map_some]
    simp only [Record.onPanel, hb]

theorem State.countMissed_find_ne (hk : k ≠ j) (h : HeadIx) (missed : Nat) (s : State) :
    (s.countMissed h j missed).find k = s.find k := by
  unfold State.countMissed
  split
  · rfl
  · rw [State.raiseAlarm_find, State.find_updRec_ne (Record.onPanel_tag _) hk]

theorem State.countMissed_alarm {missed : Nat} (hm : 0 < missed) (h : HeadIx) (j : Nat) (s : State) :
    (s.countMissed h j missed).flagged h .alarm = true ∧ ((s.countMissed h j missed).attn.causesOf h).knotShort = true := by
  unfold State.countMissed
  rw [if_neg (Nat.ne_of_gt hm)]
  exact ⟨State.raiseAlarm_flagged .., State.raiseAlarm_has _ h .knotShort⟩

/-- The slots of a loom whose strands a row's charge spends. -/
def State.spends (h : HeadIx) (amount pos : Nat) (s : State) (m : SlotIx) : Bool :=
  (decide (m = 0) && s.runsOut h 0 amount) || (decide (m = 1) && (s.charge h amount pos 0).runsOut h 1 amount)

/-- The product of a loom after both charges: the entries of the slots whose strands are spent are closed. -/
theorem State.chargeBoth_find_product (hq : s.productOf h = some q) (hb : q.kind ≠ .strand) (amount pos : Nat) :
    (s.chargeBoth h amount pos).find q.tag = some (q.closeSources (s.spends h amount pos) pos) := by
  have h0 := State.charge_find_product (amount := amount) (pos := pos) (n := 0) hq hb
  have hq0 : (s.charge h amount pos 0).productOf h = some (q.closeSources (fun m => decide (m = 0) && s.runsOut h 0 amount) pos) := by
    rw [State.productOf, State.charge_product]
    obtain ⟨p, hp, e⟩ := Option.bind_eq_some_iff.mp hq
    obtain ⟨-, rfl⟩ := State.find_mem e
    rw [hp]
    exact h0
  have h1 := State.charge_find_product (amount := amount) (pos := pos) (n := 1) hq0 (by
    rw [Record.kind, Record.closeSources, Body.withSources_kind]
    exact hb)
  rw [Record.closeSources_tag] at h1
  rw [State.chargeBoth, h1, Record.closeSources_closeSources]
  rfl

theorem State.chargeBoth_carries (s : State) (h : HeadIx) (amount pos : Nat) : s.Carries h (s.chargeBoth h amount pos) :=
  (State.charge_carries ..).trans (State.charge_carries ..)

theorem State.chargeBoth_head (s : State) (h : HeadIx) (amount pos : Nat) :
    (s.chargeBoth h amount pos).head h = { s.head h with slots := ((s.chargeBoth h amount pos).head h).slots } := by
  rw [State.chargeBoth, State.charge_head, State.charge_head]

theorem State.chargeRow_eq (h : HeadIx) (amount pos : Nat) (s : State) : s.chargeRow h amount pos =
    (if State.ranOut h s (s.chargeBoth h amount pos) then (s.chargeBoth h amount pos).addHold h .feedShort
      else s.chargeBoth h amount pos, s.drawsFaulty h amount 0 || (s.charge h amount pos 0).drawsFaulty h amount 1) := by
  rw [State.chargeRow, State.chargeRow_fold]

/-! ## The row's count -/

/-- The fields of a panel whose row is closed: the source entries of `out` closed, the piece `p` counted on (R141, R143). -/
def PanelBody.rowClosed (missed : Nat) (out : SlotIx → Bool) (pos : Nat) (kinds : KindSet) (p : Piece) (b : PanelBody) : PanelBody :=
  { b.lacking missed with sources := closeEntries out pos b.sources, piece := (p.countRow kinds).1 }

theorem Piece.countRow_marks (hk : kinds.isEmpty = false) (p : Piece) :
    (p.countRow kinds).1.Marks (nextRow p.made - 1) (nextRow p.made) kinds := by
  simp only [Piece.countRow, hk, Bool.false_eq_true, if_false]
  exact Piece.addSpan_marks (Span.closed (nextRow p.made - 1) (nextRow p.made) kinds) { p with made := nextRow p.made }

theorem Piece.countRow_clean (hk : kinds.isEmpty = true) (p : Piece) : (p.countRow kinds).1.spans = p.spans := by
  simp only [Piece.countRow, hk, if_true]

theorem Piece.countRow_pending (kinds : KindSet) (p : Piece) : (p.countRow kinds).1.pending = p.pending := by
  unfold Piece.countRow
  dsimp only
  split
  · rfl
  · rw [Piece.addSpan_pending]

theorem State.countRow_find (hx : s.find j = some x) (hb : x.body = .panel b) (kinds : KindSet) :
    ∃ x', (s.countRow j kinds).find j = some x' ∧ x'.body = .panel { b with piece := (b.piece.countRow kinds).1 } ∧
      x'.state = x.state ∧ x'.bound = x.bound := by
  have hk : x.kind = .panel := by rw [Record.kind, hb]; rfl
  simp only [State.countRow, hx, hk, if_true]
  refine ⟨_, State.onPiece_find (p := b.piece) hx (by rw [hb]; rfl), ?_, rfl, rfl⟩
  show x.body.withPiece _ = _
  rw [hb]
  rfl

theorem State.countRow_find_ne (hk : k ≠ j) (s : State) (kinds : KindSet) : (s.countRow j kinds).find k = s.find k := by
  unfold State.countRow
  split
  · split
    · exact State.onPiece_find_ne hk
    · rfl
  · rfl

@[simp] theorem State.countRow_head (j : Nat) (kinds : KindSet) (s : State) (g : HeadIx) : (s.countRow j kinds).head g = s.head g := by
  unfold State.countRow
  split
  · split
    · exact State.onPiece_head ..
    · rfl
  · rfl

end Sys2Proof.Machine
end

section
/-! PROOF. KNOT and ROW pulses and the expiry of a row (R135 to R145). -/

namespace Sys2Proof.Machine

variable {h : HeadIx} {s t u : State} {r q x : Record} {b : PanelBody} {w : RowWindow} {n m : SlotIx} {k j : Nat}

theorem State.checkEnd_leaves (h : HeadIx) (s : State) : (s.checkEnd h).head h = { s.head h with
    state := ((s.checkEnd h).head h).state
    cutRunHigh := ((s.checkEnd h).head h).cutRunHigh
    cutWait := ((s.checkEnd h).head h).cutWait } := by
  unfold State.checkEnd
  split
  · split
    · exact State.enterCutting_leaves h s
    · rfl
  · rfl

theorem State.productOf_of (hp : (s.head h).product = some j) (hx : s.find j = some x) : s.productOf h = some x := by
  rw [State.productOf, hp, Option.bind_some, hx]

theorem State.productOf_product (hp : s.productOf h = some r) : (s.head h).product = some r.tag := by
  obtain ⟨p, hp, e⟩ := Option.bind_eq_some_iff.mp hp
  obtain ⟨-, rfl⟩ := State.find_mem e
  exact hp

/-! ## The close of a row -/

/-- The row's missed knots counted, and its charge (R141, steps 1 and 2). -/
def State.rowCharged (h : HeadIx) (j : Nat) (w : RowWindow) (made : Nat) (s : State) : State × Bool :=
  (s.countMissed h j w.missed).chargeRow h w.charge (nextRow made)

theorem State.closeRow_eq (hw : (s.head h).row = some w) (hp : s.productOf h = some r) : s.closeRow h =
    (((s.rowCharged h r.tag w r.made).1.countRow r.tag (w.marks (s.rowCharged h r.tag w r.made).2)).updHead h fun x =>
      { x with row := none }).checkEnd h := by
  simp only [State.closeRow, hw, hp]
  rfl

theorem State.rowCharged_carries (s : State) (h : HeadIx) (j : Nat) (w : RowWindow) (made : Nat) :
    s.Carries h (s.rowCharged h j w made).1 := State.chargeRow_carries (State.countMissed_carries (.refl h s))

/-- The panel once its row is charged: its missed knots are added and the entries of spent strands are closed. -/
theorem State.rowCharged_panel (hp : s.productOf h = some r) (hb : r.body = .panel b) (w : RowWindow) (made : Nat) :
    ∃ out, (s.rowCharged h r.tag w made).1.PanelAs r.tag { b.lacking w.missed with sources := closeEntries out (nextRow made) b.sources } := by
  let c := s.countMissed h r.tag w.missed
  have hc := State.countMissed_find (State.productOf_find hp) hb h w.missed
  have hproduct : c.productOf h = some { r with body := .panel (b.lacking w.missed) } :=
    State.productOf_of (by rw [State.countMissed_head]; exact State.productOf_product hp) hc
  have hboth := State.chargeBoth_find_product hproduct (by rw [Record.kind]; nofun) w.charge (nextRow made)
  refine ⟨c.spends h w.charge (nextRow made), ?_⟩
  have hpanel : (c.chargeBoth h w.charge (nextRow made)).PanelAs r.tag
      { b.lacking w.missed with sources := closeEntries (c.spends h w.charge (nextRow made)) (nextRow made) b.sources } :=
    ⟨_, b.piece, hboth, rfl, rfl⟩
  rw [State.rowCharged, State.chargeRow_eq]
  dsimp only
  split
  · exact hpanel.addHold
  · exact hpanel

/-- The close of an open row leaves its panel counted on, with the missed knots added (R141, R143). -/
theorem State.closeRow_panel (hw : (s.head h).row = some w) (hp : s.productOf h = some r) (hb : r.body = .panel b) :
    ∃ x p feed out, (s.closeRow h).find r.tag = some x ∧
      x.body = .panel (b.rowClosed w.missed out (nextRow r.made) (w.marks feed) p) ∧ p.made = b.piece.made := by
  obtain ⟨out, x, p, hx, hxb, hm⟩ := State.rowCharged_panel hp hb w r.made
  obtain ⟨x', hx', hb', -⟩ := State.countRow_find hx hxb (w.marks (s.rowCharged h r.tag w r.made).2)
  refine ⟨x', p, _, out, ?_, hb', hm⟩
  rw [State.closeRow_eq hw hp, State.find_of_store (State.checkEnd_store ..)]
  exact hx'

theorem State.closeRow_row (hp : s.productOf h = some r) : ((s.closeRow h).head h).row = none := by
  cases hw : (s.head h).row with
  | none => simp only [State.closeRow, hw]
  | some w => rw [State.closeRow_eq hw hp, State.checkEnd_leaves, State.updHead_head]

theorem State.closeRow_none (hw : (s.head h).row = none) : s.closeRow h = s := by
  simp only [State.closeRow, hw]

/-- A row closed with missed knots raises KNOT_SHORT (R141). -/
theorem State.closeRow_short (hw : (s.head h).row = some w) (hp : s.productOf h = some r) (hm : 0 < w.missed) :
    (s.closeRow h).flagged h .alarm = true ∧ ((s.closeRow h).attn.causesOf h).knotShort = true := by
  have hcarries : (s.countMissed h r.tag w.missed).Carries h (s.closeRow h) := by
    rw [State.closeRow_eq hw hp]
    exact State.checkEnd_carries (State.updHead_carries (fun _ => rfl) (State.countRow_carries
      (State.chargeRow_carries (.refl h _))))
  obtain ⟨hflag, hcause⟩ := State.countMissed_alarm hm h r.tag s
  exact ⟨hcarries.flags _ hflag, hcarries.causes h .knotShort hcause⟩

theorem PanelBody.rowClosed_made {p : Piece} (hm : p.made = b.piece.made) (missed : Nat) (out : SlotIx → Bool) (pos : Nat) (k : KindSet) :
    (b.rowClosed missed out pos k p).piece.made = nextRow b.piece.made := by
  rw [← hm]
  exact Piece.countRow_made k p

theorem RowWindow.missed_pos : 0 < w.missed ↔ w.count < w.knots := by
  unfold RowWindow.missed
  omega

theorem Record.made_panel (hb : r.body = .panel b) : r.made = b.piece.made := by
  rw [Record.made, hb]
  rfl

/-- The panel after the close of a row, as the whole change leaves it. -/
theorem State.change_panel {f : State → State} (hx : (f s).find j = some x) (hb : x.body = .panel b) :
    ∃ r', (s.change f).find j = some r' ∧ r'.body = .panel b := by
  rw [State.change, State.commit_find, hx, Option.map_some]
  refine ⟨_, rfl, ?_⟩
  split
  · rw [(Record.stepMark_fields ..).2.1, hb]
  · exact hb

theorem State.madeOf_panel (hx : s.find j = some x) (hb : x.body = .panel b) : s.madeOf j = some b.piece.made := by
  rw [State.madeOf, hx, Option.map_some, Record.made_panel hb]

theorem Record.body_of_panel (hk : r.kind = .panel) : ∃ b, r.body = .panel b := by
  cases hb : r.body <;> simp [Record.kind, hb, Body.kind] at hk
  exact ⟨_, rfl⟩

/-! ## KNOT pulses -/

theorem Head.knots_iff {x : Head} : x.knots = true ↔ x.kind = some .loom ∧ x.state.running = true := by
  rw [Head.knots, Bool.and_eq_true, decide_eq_true_eq]

theorem Head.knots_eq_false {x : Head} (hn : x.kind ≠ some .loom ∨ x.state.running = false) : x.knots = false := by
  rw [← Bool.not_eq_true, Head.knots_iff]
  rcases hn with hn | hn
  · exact fun h => hn h.1
  · exact fun h => absurd (hn.symm.trans h.2) nofun

/-- Settles O21: a counted knot by whether it is the last, a stray one by the excess watch. -/
theorem knotPulseResult : Obligations.KnotPulseResult := by
  unfold Obligations.KnotPulseResult
  refine fun h s S => ⟨fun hn => ?_, fun hk hr => ?_⟩
  · refine congrArg Host.Outcome.next (State.change_eq S ?_ rfl)
    simp only [State.knotPulse, Head.knots_eq_false hn, Bool.false_eq_true, if_false]
  have hknots : (s.head h).knots = true := Head.knots_iff.mpr ⟨hk, hr⟩
  have hstray (hw : (s.head h).row = none) : s.knotPulse h = s.strayKnot h := by simp only [State.knotPulse, hknots, hw, if_true]
  refine ⟨fun hw h0 => ?_, fun hw h0 => ?_, fun w hw => ?_⟩
  · refine congrArg Host.Outcome.next (State.change_eq S ((hstray hw).trans ?_) rfl)
    simp only [State.strayKnot, h0, Nat.lt_irrefl, if_false]
  · refine congrArg Host.Outcome.next (State.change_eq S ((hstray hw).trans ?_) rfl)
    simp only [State.strayKnot, h0, if_true]
  have hcount : s.knotPulse h = s.countKnot h w := by simp only [State.knotPulse, hknots, hw, if_true]
  refine ⟨fun hlast => ?_, fun hlast r hp hkind => ?_⟩
  · refine congrArg Host.Outcome.next (State.change_eq S (hcount.trans ?_) rfl)
    simp only [State.countKnot, Nat.not_le.mpr hlast, if_false]
  · obtain ⟨b, hb⟩ := Record.body_of_panel hkind
    let s1 := s.updHead h fun x => { x with row := some { w with count := w.count + 1 } }
    have hw1 : (s1.head h).row = some { w with count := w.count + 1 } := by rw [State.updHead_head]
    have hp1 : s1.productOf h = some r := (State.updHead_productOf (f := fun x => { x with row := some { w with count := w.count + 1 } }) fun _ => rfl).trans hp
    have hstep : s.knotPulse h = (s1.closeRow h).updHead h fun x => { x with excessWatch := w.expiry } := by
      rw [hcount, State.countKnot, if_pos hlast]
    obtain ⟨x, p, feed, out, hx, hxb, hm⟩ := State.closeRow_panel hw1 hp1 hb
    obtain ⟨r', hr', hb'⟩ := State.change_panel (s := s) (f := State.knotPulse h) (j := r.tag) (x := x) (by rw [hstep]; exact hx) hxb
    refine ⟨_, rfl, ?_, ?_, ?_⟩
    · rw [State.change_head, hstep, State.updHead_head]
      exact State.closeRow_row hp1
    · rw [State.change_head, hstep, State.updHead_head]
    · rw [State.madeOf_panel hr' hb', PanelBody.rowClosed_made hm, Record.made_panel hb]
      rfl

/-! ## ROW pulses -/

theorem State.openRow_panel (hp : s.productOf h = some r) (hb : r.body = .panel b) : s.openRow h = s.updHead h fun x =>
    { x with
      row := some ⟨b.piece.made, 0, x.settings.knotWindow, x.flawHigh, b.knots, b.bar, b.allowance⟩
      excessWatch := 0 } := by
  simp only [State.openRow, hp, hb]

/-- Settles O22: an open row is closed, and the row that opens latches what the panel then says. -/
theorem rowPulseResult : Obligations.RowPulseResult := by
  unfold Obligations.RowPulseResult
  refine fun h s S => ⟨fun hn => ?_, fun hk hr r b hp hb => ?_⟩
  · refine congrArg Host.Outcome.next (State.change_eq S ?_ rfl)
    simp only [State.rowPulse, Head.knots_eq_false hn, Bool.false_eq_true, if_false]
  have hstep : s.rowPulse h = (s.closeRow h).openRow h := by
    simp only [State.rowPulse, Head.knots_iff.mpr ⟨hk, hr⟩, if_true]
  refine ⟨fun hw => ?_, fun w hw => ?_⟩
  · refine congrArg Host.Outcome.next (State.change_eq S (hstep.trans ?_) rfl)
    rw [State.closeRow_none hw, State.openRow_panel hp hb]
  · obtain ⟨x, p, feed, out, hx, hxb, hm⟩ := State.closeRow_panel hw hp hb
    have hmeter := (State.closeRow_carries (State.Carries.refl h s)).meter
    simp only [Head.meter, Prod.mk.injEq] at hmeter
    obtain ⟨-, hset, hproduct, -, -, -, -, -, -, -, -, hflaw⟩ := hmeter
    have hp1 : (s.closeRow h).productOf h = some x := State.productOf_of (hproduct.trans (State.productOf_product hp)) hx
    rw [State.openRow_panel hp1 hxb] at hstep
    obtain ⟨r', hr', hb'⟩ := State.change_panel (s := s) (f := State.rowPulse h) (j := r.tag) (x := x) (by rw [hstep]; exact hx) hxb
    have hmade : (b.rowClosed w.missed out (nextRow r.made) (w.marks feed) p).piece.made =
        if b.piece.made < 65535 then b.piece.made + 1 else b.piece.made := PanelBody.rowClosed_made hm ..
    refine ⟨_, rfl, by rw [State.madeOf_panel hr' hb', hmade], ?_⟩
    rw [State.change_head, hstep, State.updHead_head, hmade, hset, hflaw]
    rfl

/-! ## The expiry of a row -/

theorem nextRow_le (made : Nat) : nextRow made - 1 + 1 = nextRow made := by
  have := (nextRow_bounds made).2
  omega

/-- Settles O23: an expired row is closed, counted and marked. -/
theorem rowExpiryResult : Obligations.RowExpiryResult := by
  unfold Obligations.RowExpiryResult
  refine ⟨fun h s => rfl, fun h s S => ⟨fun hw => ?_, fun w hw => ⟨fun h0 => ?_, fun h0 r b hp hb => ?_⟩⟩⟩
  · refine congrArg Host.Outcome.next (State.change_eq S ?_ rfl)
    simp only [State.rowExpiry, Head.rowExpired, hw, Bool.false_eq_true, if_false]
  · refine congrArg Host.Outcome.next (State.change_eq S ?_ rfl)
    simp only [State.rowExpiry, Head.rowExpired, hw, Nat.ne_of_gt h0, decide_false, Bool.false_eq_true, if_false]
  · have hstep : s.rowExpiry h = s.closeRow h := by simp only [State.rowExpiry, Head.rowExpired, hw, h0, decide_true, if_true]
    obtain ⟨x, p, feed, out, hx, hxb, hm⟩ := State.closeRow_panel hw hp hb
    obtain ⟨r', hr', hb'⟩ := State.change_panel (s := s) (f := State.rowExpiry h) (j := r.tag) (x := x) (by rw [hstep]; exact hx) hxb
    refine ⟨_, r', _, rfl, ?_, hr', hb', PanelBody.rowClosed_made hm .., ?_, fun hc => ?_, fun hmark => ?_⟩
    · rw [State.change_head, hstep]
      exact State.closeRow_row hp
    · show (if w.missed = 0 then _ else _) = _
      by_cases hc : w.count < w.knots
      · rw [if_pos hc, if_neg (Nat.ne_of_gt (RowWindow.missed_pos.mpr hc))]
        rfl
      · rw [if_neg hc, if_pos (Nat.eq_zero_of_not_pos (mt RowWindow.missed_pos.mp hc))]
    · obtain ⟨hflag, hcause⟩ := State.closeRow_short hw hp (RowWindow.missed_pos.mpr hc)
      refine ⟨?_, ?_⟩
      · show (s.rowExpiry h).flagged h .alarm = true
        rw [hstep]
        exact hflag
      · rw [State.change_attn, hstep]
        exact hcause
    · have hkinds : (w.marks feed).isEmpty = false := by
        rcases hmark with hc | hf
        · simp [RowWindow.marks, KindSet.isEmpty, RowWindow.missed_pos.mpr hc]
        · simp [RowWindow.marks, KindSet.isEmpty, hf]
      obtain ⟨z, hz, hlo, hhi, hhas⟩ := Piece.countRow_marks hkinds p
      have hmade : (b.rowClosed w.missed out (nextRow r.made) (w.marks feed) p).piece.made = nextRow p.made := Piece.countRow_made _ p
      refine ⟨z, hz, ?_, hmade ▸ hhi, fun hc => ?_, fun hf => ?_⟩
      · rw [hmade, ← nextRow_le]
        omega
      · have := congrArg KindSet.knot hhas
        simpa [KindSet.union, RowWindow.marks, RowWindow.missed_pos.mpr hc] using this
      · have := congrArg KindSet.flaw hhas
        simpa [KindSet.union, RowWindow.marks, hf] using this

end Sys2Proof.Machine
end

section
/-! PROOF. The close of a row on a loom in a running state: the strands it charges, the marks of the row and the end of the panel
(R125, R128, R131, R133, R141 to R145). -/

namespace Sys2Proof.Machine

variable {h : HeadIx} {s t u c : State} {r q x : Record} {y : StrandBody} {b : PanelBody} {w : RowWindow} {n m : SlotIx}
  {k j p pos amount : Nat} {K : HeadIx → Option MachineKind}

/-! ## What depends on the slots alone -/

theorem State.fedBy_congr (hs : (t.head h).slot n = (s.head h).slot n)
    (hf : ∀ k, ((s.head h).slot n).strand = some k → t.find k = s.find k) : t.fedBy h n = s.fedBy h n := by
  unfold State.fedBy
  rw [hs]
  cases hk : ((s.head h).slot n).strand with
  | none => rfl
  | some k => rw [Option.bind_some, Option.bind_some, hf k hk]

theorem State.runsOut_congr (e : t.fedBy h n = s.fedBy h n) : t.runsOut h n amount = s.runsOut h n amount := by
  simp only [State.runsOut, e]

theorem State.drawsFaulty_congr (hs : (t.head h).slot n = (s.head h).slot n) (e : t.fedBy h n = s.fedBy h n) :
    t.drawsFaulty h amount n = s.drawsFaulty h amount n := by
  simp only [State.drawsFaulty, hs, e]

/-- The first slot's charge is nothing to the second. -/
theorem State.charge_fedBy_second (B : s.BoundBut h noRole K) (ep : (s.head h).product = some p) :
    (s.charge h amount pos 0).fedBy h 1 = s.fedBy h 1 := by
  refine State.fedBy_congr (State.charge_slot_ne (by decide)) fun k hk => ?_
  refine State.charge_find_other (fun e => ?_) fun e => ?_
  · exact B.strand_ne_product ep hk (Option.some.inj (e.symm.trans ep))
  · exact absurd (B.strand_unique hk e) (by decide)

theorem SlotIx.lt_two (hn : n.val < 2) : n = 0 ∨ n = 1 := by
  rcases n with ⟨_ | _ | n, hlt⟩
  · exact .inl rfl
  · exact .inr rfl
  · exact absurd hn (by simp)

/-- A loom has two slots (R118). -/
theorem State.BoundBut.loom_slot (B : s.BoundBut h noRole K) (hk : (s.head h).kind = some .loom) (hn : ((s.head h).slot n).strand = some k) :
    n.val < 2 := by
  obtain ⟨x, kd, -, -, ek, hbinds, -⟩ := B.get (ro := .feed n) hn
  cases hk.symm.trans ek
  simp only [MachineKind.binds, MachineKind.hasSlot, Bool.and_eq_true, decide_eq_true_eq] at hbinds
  exact hbinds.1

theorem State.spends_eq (B : s.BoundBut h noRole K) (ep : (s.head h).product = some p) (hk : (s.head h).kind = some .loom)
    (amount pos : Nat) : s.spends h amount pos = fun m => s.runsOut h m amount := by
  funext m
  rw [State.spends, State.runsOut_congr (State.charge_fedBy_second B ep)]
  by_cases hm : m.val < 2
  · rcases SlotIx.lt_two hm with rfl | rfl <;> simp
  · have hno : s.fedBy h m = none := by
      refine State.fedBy_none_of_empty ?_
      cases e : ((s.head h).slot m).strand with
      | none => rfl
      | some k => exact absurd (B.loom_slot hk e) hm
    have h0 : m ≠ 0 := by rintro rfl; exact hm (by decide)
    have h1 : m ≠ 1 := by rintro rfl; exact hm (by decide)
    simp [State.runsOut, hno, h0, h1]

/-- The charge of a row marks it FEED as R128 says. -/
theorem State.marksFeed_iff : s.MarksFeed h amount ↔ s.drawsFaulty h amount 0 = true ∨ s.drawsFaulty h amount 1 = true := by
  have one (n : SlotIx) : s.drawsFaulty h amount n = true ↔ ((s.head h).slot n).strand = none ∨ ∃ x y, ((s.head h).slot n).strand = some x.tag ∧
      s.find x.tag = some x ∧ x.body = .strand y ∧ 0 < amount ∧ (y.piece.made - y.consumed < amount ∨
        meetsList (y.piece.made - y.consumed - amount) (y.piece.made - y.consumed) y.piece.spans = true) := by
    rw [State.drawsFaulty, Bool.or_eq_true, Option.isNone_iff_eq_none, Bool.and_eq_true, decide_eq_true_eq, Option.any_eq_true]
    refine or_congr_right ⟨?_, ?_⟩
    · rintro ⟨h0, ⟨x, y⟩, e, hbad⟩
      obtain ⟨hx, hy⟩ := State.fedBy_find e
      refine ⟨x, y, State.strand_of_fedBy e, hx, hy, h0, ?_⟩
      rw [Bool.or_eq_true] at hbad
      exact hbad.imp_left of_decide_eq_true
    · rintro ⟨x, y, hk, hx, hy, h0, hbad⟩
      refine ⟨h0, (x, y), State.fedBy_of_strand hk hx hy, ?_⟩
      rw [Bool.or_eq_true]
      exact hbad.imp_left decide_eq_true
  rw [one, one]
  constructor
  · rintro ⟨n, hn, hbad⟩
    rcases SlotIx.lt_two hn with rfl | rfl
    · exact .inl hbad
    · exact .inr hbad
  · rintro (hbad | hbad)
    · exact ⟨0, by decide, hbad⟩
    · exact ⟨1, by decide, hbad⟩

/-! ## Both charges -/

/-- What a draw of `amount` leaves, from `s` to `v`, of the strand `x` of slot `n` and of the slot (R131, R133). -/
structure State.StrandDrawn (h : HeadIx) (amount : Nat) (n : SlotIx) (x : Record) (y : StrandBody) (s v : State) : Prop where
  record : v.find x.tag = some (x.afterDraw (y.draw amount))
  strand : ((v.head h).slot n).strand = if (y.draw amount).spent then none else some x.tag
  required : ((v.head h).slot n).required = ((s.head h).slot n).required
  low : 0 < amount → y.piece.made - (y.draw amount).consumed < (s.head h).settings.feedLow * 1000 → ((s.head h).slot n).lowNoted = false →
    v.flagged h .alarm = true ∧ (v.attn.causesOf h).feedLow = true

theorem State.chargeBoth_strand (B : s.BoundBut h noRole K) (ep : (s.head h).product = some p) (hn : n.val < 2)
    (e : s.fedBy h n = some (x, y)) : s.StrandDrawn h amount n x y (s.chargeBoth h amount pos) := by
  have hk := State.strand_of_fedBy e
  obtain ⟨u, hsu, hlast⟩ := State.chargeBoth_at (amount := amount) (pos := pos) B hn hk ep
  have eu := hsu.fedBy e rfl
  have hp : (u.head h).product ≠ some x.tag := by
    rw [hsu.product, ep]
    exact fun e => B.strand_ne_product ep hk (Option.some.inj e).symm
  refine ⟨hlast.record.trans (State.charge_find_strand eu hp amount), ?_, ?_, fun h0 hl hno => ?_⟩
  · rw [hlast.slot]
    rcases Nat.eq_zero_or_pos amount with rfl | h0
    · rw [State.charge_nothing (.inl rfl), hsu.slot, hk]
      rfl
    · exact (State.charge_slot eu h0).1
  · rw [hlast.slot]
    rcases Nat.eq_zero_or_pos amount with rfl | h0
    · rw [State.charge_nothing (.inl rfl), hsu.slot]
    · rw [(State.charge_slot eu h0).2, hsu.slot]
  · obtain ⟨hflag, hcause⟩ := State.charge_low (pos := pos) eu h0 (by rw [hsu.settings]; exact hl) (by rw [hsu.slot]; exact hno)
    exact ⟨hlast.carries.flags _ hflag, hlast.carries.causes h .feedLow hcause⟩

theorem State.ranOut_of (hn : ((s.head h).slot n).required = true) (hk : ((s.head h).slot n).strand = some k)
    (hno : ((t.head h).slot n).strand = none) : State.ranOut h s t = true := by
  rw [State.ranOut, List.any_eq_true]
  exact ⟨n, mem_allSlots n, by simp [hn, hk, hno]⟩

/-! ## The close of a row -/

/-- What the close of row `w` of panel `r`, with the fields `b`, leaves at loom `h` (R125, R128, R131, R133, R141 to R145). -/
structure State.RowClosed (h : HeadIx) (r : Record) (b : PanelBody) (w : RowWindow) (s z : State) : Prop where
  panel : ∃ x feed, z.find r.tag = some x ∧ x.state = r.state ∧ x.bound = r.bound ∧ (feed = true ↔ s.MarksFeed h w.charge) ∧
    x.body = .panel (b.rowClosed w.missed (fun n => s.runsOut h n w.charge) (nextRow b.piece.made) (w.marks feed) b.piece)
  strand : ∀ n x y, n.val < 2 → s.fedBy h n = some (x, y) → z.find x.tag = some (x.afterDraw (y.draw w.charge)) ∧
    ((z.head h).slot n).strand = (if (y.draw w.charge).spent then none else some x.tag) ∧
    ((y.draw w.charge).spent = true → ((s.head h).slot n).required = true → (z.head h).holds.feedShort = true ∧
      ((s.head h).holds.feedShort = false → (s.head h).state = .run ∨ (s.head h).state = .stopped → z.flagged h .state = true)) ∧
    (0 < w.charge → y.piece.made - (y.draw w.charge).consumed < (s.head h).settings.feedLow * 1000 →
      ((s.head h).slot n).lowNoted = false → z.flagged h .alarm = true ∧ (z.attn.causesOf h).feedLow = true)
  short : 0 < w.missed → z.flagged h .alarm = true ∧ (z.attn.causesOf h).knotShort = true
  row : (z.head h).row = none
  ended : ∀ k, b.targetRows = some k → k ≤ nextRow b.piece.made → (z.head h).state = .cutting ∧
    ((s.head h).state ≠ .cutting → z.flagged h .state = true)
  going : (∀ k, b.targetRows = some k → nextRow b.piece.made < k) → (z.head h).holds = (s.head h).holds →
    (z.head h).state = (s.head h).state

theorem Record.endPoint_panel (hb : r.body = .panel b) : r.endPoint = b.targetRows := by
  simp only [Record.endPoint, hb]

/-- The head as FEED_SHORT leaves it, or leaves it alone, where a required feed ran out or did not (R130). -/
structure State.ShortIf (ran : Bool) (h : HeadIx) (s t : State) : Prop where
  store : t.store = s.store
  head : t.head h = { s.head h with state := (t.head h).state, holds := (t.head h).holds, window := (t.head h).window }
  carries : s.Carries h t
  running : (t.head h).state.running = true
  cutting : (t.head h).state = .cutting ↔ (s.head h).state = .cutting
  again : (t.head h).holds = (s.head h).holds → (t.head h).state = (s.head h).state
  short : ran = true → (t.head h).holds.feedShort = true ∧ ((s.head h).holds.feedShort = false →
    (s.head h).state = .run ∨ (s.head h).state = .stopped → t.flagged h .state = true)

theorem State.shortIf (ran : Bool) (hr : (s.head h).state.running = true) : s.ShortIf ran h (if ran then s.addHold h .feedShort else s) := by
  cases ran
  · exact ⟨rfl, rfl, .refl h s, hr, Iff.rfl, fun _ => rfl, nofun⟩
  · obtain ⟨hstore, hhead, hshort, hrun, hcut, hagain, hheld⟩ := State.addFeedShort_running hr
    exact ⟨hstore, hhead, State.addHold_carries (.refl h s), hrun, hcut, fun e => hagain (e ▸ hshort), fun _ => ⟨hshort, hheld⟩⟩

/-- The panel's end after a row (R145): at its target rows the head enters CUTTING. -/
theorem State.checkEnd_panel (hp : s.productOf h = some x) (hb : x.body = .panel b) (hr : (s.head h).state.running = true) :
    (∀ k, b.targetRows = some k → k ≤ b.piece.made → ((s.checkEnd h).head h).state = .cutting ∧
      ((s.head h).state ≠ .cutting → (s.checkEnd h).flagged h .state = true)) ∧
    ((∀ k, b.targetRows = some k → b.piece.made < k) → s.checkEnd h = s) := by
  have hend := Record.endPoint_panel hb
  have hmade := Record.made_panel hb
  refine ⟨fun k hk hle => ?_, fun hno => ?_⟩
  · have hat : x.atEnd = true := by simp only [Record.atEnd, hend, hk, hmade, hle, decide_true]
    rw [State.checkEnd_atEnd hp hat]
    obtain ⟨hcut, hentered⟩ := State.enterCutting_running hr
    exact ⟨hcut, fun hne => (hentered hne).1⟩
  · refine State.checkEnd_not_atEnd fun z hz => ?_
    cases hp.symm.trans hz
    cases hk : b.targetRows with
    | none => simp only [Record.atEnd, hend, hk]
    | some k => simp only [Record.atEnd, hend, hk, hmade, Nat.not_le.mpr (hno k hk), decide_false]

theorem State.closeRow_closed (B : s.BoundBut h noRole K) (hk : (s.head h).kind = some .loom) (hr : (s.head h).state.running = true)
    (hw : (s.head h).row = some w) (hp : s.productOf h = some r) (hb : r.body = .panel b) : s.RowClosed h r b w (s.closeRow h) := by
  let c := s.countMissed h r.tag w.missed
  let v := c.chargeBoth h w.charge (nextRow r.made)
  have hmade := Record.made_panel hb
  have hproduct := State.productOf_product hp
  have chead : c.head h = s.head h := State.countMissed_head ..
  have cfind := State.countMissed_find (State.productOf_find hp) hb h w.missed
  have cB : c.BoundBut h noRole K := State.countMissed_boundBut B
  have cfed (n : SlotIx) : c.fedBy h n = s.fedBy h n :=
    State.fedBy_congr (by rw [chead]) fun k e => State.countMissed_find_ne (B.strand_ne_product hproduct e) h w.missed s
  have cproduct : (c.head h).product = some r.tag := by rw [chead, hproduct]
  have cruns (n : SlotIx) : c.runsOut h n w.charge = s.runsOut h n w.charge := State.runsOut_congr (cfed n)
  have vfind : v.find r.tag = _ := State.chargeBoth_find_product (State.productOf_of cproduct cfind) (by rw [Record.kind]; nofun) w.charge _
  rw [State.spends_eq cB cproduct (by rw [chead, hk]), show (fun m => c.runsOut h m w.charge) = fun m => s.runsOut h m w.charge from
    funext cruns] at vfind
  have vhead : v.head h = { s.head h with slots := (v.head h).slots } := by rw [← chead]; exact State.chargeBoth_head ..
  have vrun : (v.head h).state.running = true := by rw [vhead]; exact hr
  let u := (s.rowCharged h r.tag w r.made).1
  let feed := (s.rowCharged h r.tag w r.made).2
  have hu : v.ShortIf (State.ranOut h c v) h u := by
    have := State.shortIf (State.ranOut h c v) vrun
    rwa [show u = if State.ranOut h c v then v.addHold h .feedShort else v from congrArg Prod.fst (State.chargeRow_eq ..)]
  have hfeed : feed = true ↔ s.MarksFeed h w.charge := by
    rw [show feed = _ from congrArg Prod.snd (State.chargeRow_eq h w.charge (nextRow r.made) c), State.marksFeed_iff, Bool.or_eq_true,
      State.drawsFaulty_congr (State.charge_slot_ne (by decide)) (State.charge_fedBy_second cB cproduct),
      State.drawsFaulty_congr (t := c) (by rw [chead]) (cfed 0), State.drawsFaulty_congr (t := c) (by rw [chead]) (cfed 1)]
  let pre := (u.countRow r.tag (w.marks feed)).updHead h fun x => { x with row := none }
  have hz : s.closeRow h = pre.checkEnd h := State.closeRow_eq hw hp
  have prehead : pre.head h = { u.head h with row := none } := by rw [State.updHead_head, State.countRow_head]
  have zhead := State.checkEnd_leaves h pre
  rw [← hz, prehead] at zhead
  obtain ⟨x', hx', hb', hst', hbd'⟩ := State.countRow_find (kinds := w.marks feed) ((State.find_of_store hu.store r.tag).trans vfind) rfl
  let b' := b.rowClosed w.missed (fun n => s.runsOut h n w.charge) (nextRow b.piece.made) (w.marks feed) b.piece
  have hbody : x'.body = .panel b' := by
    rw [hb', hmade]
    rfl
  have hmade' : b'.piece.made = nextRow b.piece.made := PanelBody.rowClosed_made rfl ..
  have zfind (k : Nat) : (s.closeRow h).find k = (u.countRow r.tag (w.marks feed)).find k := by
    rw [hz, State.find_of_store (State.checkEnd_store ..)]
    rfl
  have zcarries : u.Carries h (s.closeRow h) := by
    rw [hz]
    exact State.checkEnd_carries (State.updHead_carries (fun _ => rfl) (State.countRow_carries (.refl h u)))
  have preproduct : pre.productOf h = some x' := by
    refine State.productOf_of ?_ hx'
    rw [prehead, hu.head, vhead]
    exact hproduct
  have prerun : (pre.head h).state.running = true := by rw [prehead]; exact hu.running
  obtain ⟨hended, hgoing⟩ := State.checkEnd_panel preproduct hbody prerun
  have vcarries : c.Carries h v := State.chargeBoth_carries ..
  have vstrand (n : SlotIx) (x : Record) (y : StrandBody) (hn : n.val < 2) (e : s.fedBy h n = some (x, y)) :
      c.StrandDrawn h w.charge n x y v := State.chargeBoth_strand cB cproduct hn ((cfed n).trans e)
  have calarm (hm : 0 < w.missed) : c.flagged h .alarm = true ∧ (c.attn.causesOf h).knotShort = true :=
    State.countMissed_alarm hm h r.tag s
  clear_value c v u feed pre
  refine ⟨⟨x', feed, (zfind r.tag).trans hx', hst', hbd', hfeed, hbody⟩, fun n x y hn e => ?_, fun hm => ?_, by rw [zhead],
    fun k hk hle => ?_, fun hno hholds => ?_⟩
  · have hslot := State.strand_of_fedBy e
    have hne := B.strand_ne_product hproduct hslot
    obtain ⟨vx, vslot, -, vlow⟩ := vstrand n x y hn e
    have zslot : ((s.closeRow h).head h).slot n = (v.head h).slot n := by rw [zhead, hu.head]; rfl
    refine ⟨?_, by rw [zslot]; exact vslot, fun hspent hreq => ?_, fun h0 hl hno => ?_⟩
    · rw [zfind, State.countRow_find_ne hne, State.find_of_store hu.store]
      exact vx
    · have hran : State.ranOut h c v = true :=
        State.ranOut_of (n := n) (k := x.tag) (by rw [chead]; exact hreq) (by rw [chead]; exact hslot) (by rw [vslot, if_pos hspent])
      obtain ⟨hshort, hheld⟩ := hu.short hran
      refine ⟨by rw [zhead]; exact hshort, fun h0 hst => zcarries.flags _ (hheld ?_ ?_)⟩
      · rw [vhead]; exact h0
      · rw [vhead]; exact hst
    · obtain ⟨hflag, hcause⟩ := vlow h0 (by rw [chead]; exact hl) (by rw [chead]; exact hno)
      exact ⟨(hu.carries.trans zcarries).flags _ hflag, (hu.carries.trans zcarries).causes h .feedLow hcause⟩
  · obtain ⟨hflag, hcause⟩ := calarm hm
    have hcarries := (vcarries.trans hu.carries).trans zcarries
    exact ⟨hcarries.flags _ hflag, hcarries.causes h .knotShort hcause⟩
  · rw [hz]
    obtain ⟨hcut, hentered⟩ := hended k hk (by rw [hmade']; exact hle)
    refine ⟨hcut, fun hne => hentered ?_⟩
    rw [prehead]
    exact fun e => hne (by rw [hu.cutting, vhead] at e; exact e)
  · have hstay := hgoing fun k hk => by rw [hmade']; exact hno k hk
    rw [hz, hstay, prehead] at hholds ⊢
    have hv : (v.head h).holds = (s.head h).holds ∧ (v.head h).state = (s.head h).state := by rw [vhead]; exact ⟨rfl, rfl⟩
    exact (hu.again (hholds.trans hv.1.symm)).trans hv.2

end Sys2Proof.Machine
end

section
/-! PROOF. The close of a row, as a whole change shows it: the first half of the statement on the close of a row. -/

namespace Sys2Proof.Machine

variable {h : HeadIx} {s t z : State} {r x : Record} {y : StrandBody} {b : PanelBody} {w : RowWindow} {n : SlotIx} {f : State → State}
  {count : Nat}

/-- The row window and the level of RUN stand beside what the close of a row depends on. -/
theorem State.RowClosed.of_head {v : Option RowWindow} {l : Bool} {g : Head → Head}
    (hg : g (s.head h) = { s.head h with row := v, runHigh := l }) (C : (s.updHead h g).RowClosed h r b w z) : s.RowClosed h r b w z := by
  let s1 := s.updHead h g
  have hhead : s1.head h = { s.head h with row := v, runHigh := l } := (State.updHead_head ..).trans hg
  have hfed (n : SlotIx) : s1.fedBy h n = s.fedBy h n := State.fedBy_congr (by rw [hhead]; rfl) fun _ _ => rfl
  have hruns : (fun n => s1.runsOut h n w.charge) = fun n => s.runsOut h n w.charge := funext fun n => State.runsOut_congr (hfed n)
  have hmarks : s1.MarksFeed h w.charge ↔ s.MarksFeed h w.charge := by
    rw [State.marksFeed_iff, State.marksFeed_iff, State.drawsFaulty_congr (s := s) (by rw [hhead]; rfl) (hfed 0),
      State.drawsFaulty_congr (s := s) (by rw [hhead]; rfl) (hfed 1)]
  obtain ⟨⟨x, feed, hx, hst, hbd, hfeed, hbody⟩, hstrand, hshort, hrow, hended, hgoing⟩ := C
  change (feed = true ↔ s1.MarksFeed h w.charge) at hfeed
  change x.body = .panel (b.rowClosed _ (fun n => s1.runsOut h n w.charge) _ _ _) at hbody
  change ∀ n x y, n.val < 2 → s1.fedBy h n = some (x, y) → _ at hstrand
  rw [hruns] at hbody
  refine ⟨⟨x, feed, hx, hst, hbd, hfeed.trans hmarks, hbody⟩, fun n x y hn e => ?_, hshort, hrow, ?_, ?_⟩
  · have := hstrand n x y hn ((hfed n).trans e)
    rw [State.updHead_head, hg] at this
    exact this
  · rw [State.updHead_head, hg] at hended
    exact hended
  · rw [State.updHead_head, hg] at hgoing
    exact hgoing

theorem StrandBody.draw_left (y : StrandBody) (a : Nat) : y.piece.made - (y.draw a).consumed = y.piece.made - y.consumed - a := by
  simp only [StrandBody.draw, StrandBody.top]
  omega

theorem StrandBody.draw_spent {a : Nat} : (y.draw a).spent = true ↔ 0 < a ∧ y.piece.made - y.consumed ≤ a := by
  simp [StrandBody.draw, StrandBody.top]

/-- The panel of a closed row is settled (R141, R143, R144). -/
theorem State.settlesRow {feed : Bool} (ha : 0 < w.knots - count → t.flagged h .alarm = true ∧ (t.attn.causesOf h).knotShort = true)
    (hf : feed = true ↔ s.MarksFeed h (count * (w.bar + w.allowance))) (out : SlotIx → Bool) :
    s.SettlesRow h w count b (b.rowClosed (w.knots - count) out (nextRow b.piece.made) (({ w with count := count } : RowWindow).marks feed)
      b.piece) t := by
  have hmade : (b.rowClosed (w.knots - count) out (nextRow b.piece.made) (({ w with count := count } : RowWindow).marks feed) b.piece).piece.made =
      nextRow b.piece.made := PanelBody.rowClosed_made rfl ..
  have hmissed : (0 < w.knots - count) ↔ count < w.knots := by omega
  have hmarks (k : KindSet) (hk : (({ w with count := count } : RowWindow).marks feed).Has k) (hne : k.isEmpty = false) :
      (b.piece.countRow (({ w with count := count } : RowWindow).marks feed)).1.Marks (nextRow b.piece.made - 1) (nextRow b.piece.made) k := by
    have hne' : (({ w with count := count } : RowWindow).marks feed).isEmpty = false := by
      have := congrArg KindSet.isEmpty hk
      rw [KindSet.union_isEmpty, hne, Bool.and_false] at this
      exact this.symm
    obtain ⟨v, hv, hlo, hhi, hhas⟩ := Piece.countRow_marks hne' b.piece
    exact ⟨v, hv, hlo, hhi, KindSet.Has.trans hhas hk⟩
  refine ⟨hmade, ?_, fun hc => ?_, fun hc => ?_, fun hs => ?_, fun hm => ?_, fun hm hc hs => ?_⟩
  · show (if w.knots - count = 0 then _ else _) = _
    by_cases hc : count < w.knots
    · rw [if_pos hc, if_neg (by omega)]
      rfl
    · rw [if_neg hc, if_pos (by omega)]
  · exact ha (hmissed.mpr hc)
  · rw [hmade]
    refine hmarks _ ?_ rfl
    simp [KindSet.Has, KindSet.union, KindSet.only, RowWindow.marks, RowWindow.missed, hc]
  · rw [hmade]
    refine hmarks _ ?_ rfl
    simp [KindSet.Has, KindSet.union, KindSet.only, RowWindow.marks, hs]
  · rw [hmade]
    refine hmarks _ ?_ rfl
    simp [KindSet.Has, KindSet.union, KindSet.only, RowWindow.marks, hf.mpr hm]
  · refine Piece.countRow_clean ?_ b.piece
    have hfeed : feed = false := by rw [← Bool.not_eq_true]; exact fun h => hm (hf.mp h)
    have hlacks : w.knots - count = 0 := by omega
    simp [RowWindow.marks, RowWindow.missed, KindSet.isEmpty, hs, hfeed, hlacks]

/-- A record after a whole change has the state, the fields and the binding that the change gave it. -/
theorem State.change_fields {k : Nat} (hx : (f s).find k = some x) : ∃ x', (s.change f).find k = some x' ∧ x'.state = x.state ∧
    x'.body = x.body ∧ x'.bound = x.bound := by
  rw [State.change, State.commit_find, hx, Option.map_some]
  refine ⟨_, rfl, ?_⟩
  split
  · obtain ⟨hst, hbody, hbound, -⟩ := Record.stepMark_fields (f s).clock.seconds ‹Record› x
    exact ⟨hst, hbody, hbound⟩
  · exact ⟨rfl, rfl, rfl⟩

/-- What the statement says of one strand beside a closed row, after the whole change. -/
theorem State.RowClosed.strand_result (C : s.RowClosed h r b { w with count := count } z) (B : s.BindingsOk)
    (hf : (f s).store = z.store) (hattn : (f s).attn = z.attn) (hslot : ((f s).head h).slot n = (z.head h).slot n)
    (hholds : ((f s).head h).holds = (z.head h).holds) (hn : n.val < 2) (hk : ((s.head h).slot n).strand = some x.tag)
    (hx : s.find x.tag = some x) (hy : x.body = .strand y) :
    let charge := count * (w.bar + w.allowance)
    let top := y.piece.made - y.consumed
    let t := s.change f
    (charge = 0 → t.find x.tag = some x ∧ ((t.head h).slot n).strand = some x.tag) ∧
    (0 < charge → ∃ x' y', t.find x.tag = some x' ∧ x'.body = .strand y' ∧ y'.consumed = y.consumed + min charge top ∧
      (charge < top → x'.state = x.state ∧ ((t.head h).slot n).strand = some x.tag) ∧
      (top ≤ charge → x'.state = .spent ∧ x'.bound = none ∧ ((t.head h).slot n).strand = none ∧
        (((s.head h).slot n).required = true → (t.head h).holds.feedShort = true)) ∧
      (top - charge < (s.head h).settings.feedLow * 1000 → ((s.head h).slot n).lowNoted = false →
        t.flagged h .alarm = true ∧ (t.attn.causesOf h).feedLow = true)) := by
  intro charge top t
  have hflagged (g : HeadFlag) : t.flagged h g = z.flagged h g := by
    rw [State.flagged, State.flagged, State.change_attn, hattn]
  have hcauses : t.attn.causesOf h = z.attn.causesOf h := by rw [State.change_attn, hattn]
  obtain ⟨hrec, hstrand, hreq, hlow⟩ := C.strand n x y hn (State.fedBy_of_strand hk hx hy)
  change z.find x.tag = some (x.afterDraw (y.draw charge)) at hrec
  change _ = if (y.draw charge).spent then none else some x.tag at hstrand
  change (y.draw charge).spent = true → _ at hreq
  change 0 < charge → y.piece.made - (y.draw charge).consumed < _ → _ at hlow
  have hfind : (f s).find x.tag = some (x.afterDraw (y.draw charge)) := (State.find_of_store hf _).trans hrec
  have hstate : x.state ≠ .making := by
    obtain ⟨x', -, hx', -, hst, -⟩ := (B.but h).strand hk
    cases hx.symm.trans hx'
    rw [hst]
    nofun
  have hs : ((t.head h).slot n).strand = if (y.draw charge).spent then none else some x.tag := by
    rw [State.change_head, hslot, hstrand]
  refine ⟨fun h0 => ?_, fun h0 => ?_⟩
  · rw [h0, Record.afterDraw_zero hy] at hfind
    refine ⟨State.change_find_same hx hfind rfl, ?_⟩
    rw [hs, h0]
    rfl
  · obtain ⟨x', hx', hst', hbody', hbound'⟩ := State.change_fields hfind
    rw [Record.afterDraw_eq hy hstate] at hst' hbody' hbound'
    refine ⟨x', { y with consumed := (y.draw charge).consumed }, hx', ?_, rfl, fun hlt => ?_, fun hle => ?_, fun hl hno => ?_⟩
    · rw [hbody']
      split <;> rfl
    · have hsp : ¬(y.draw charge).spent = true := by
        rw [StrandBody.draw_spent]
        omega
      rw [hst', hs, if_neg hsp, if_neg hsp]
      exact ⟨rfl, rfl⟩
    · have hsp : (y.draw charge).spent = true := StrandBody.draw_spent.mpr ⟨h0, hle⟩
      rw [hst', hbound', hs, if_pos hsp, if_pos hsp]
      refine ⟨rfl, rfl, rfl, fun hr => ?_⟩
      rw [State.change_head, hholds]
      exact (hreq hsp hr).1
    · rw [hflagged, hcauses]
      exact hlow h0 (by rw [StrandBody.draw_left]; exact hl) hno

end Sys2Proof.Machine
end

section
/-! PROOF. A product that leaves MAKING, with its feeds (R18, R119, R123), after the open row of a loom is closed (R140). -/

namespace Sys2Proof.Machine

variable {h : HeadIx} {s t u v : State} {r q x : Record} {y : StrandBody} {b : PanelBody} {w : RowWindow} {n m : SlotIx} {j k pos : Nat}
  {st : RecordState} {f : State → State} {leave : Record → Record} {K : HeadIx → Option MachineKind} {p : Piece}

/-! ## A record that has left MAKING is closed along its length -/

/-- Every span of a record that is not MAKING is closed (R18). -/
def Record.Shut (x : Record) : Prop := x.state ≠ .making → ∀ p, x.body.piece = some p → p.Closed

/-- Record `j` is live, and closed unless it is MAKING. -/
def State.ShutAt (j : Nat) (t : State) : Prop := ∃ x, t.find j = some x ∧ x.Shut

theorem Record.Shut.of_piece (a : x.Shut) (hs : r.state = x.state) (hp : r.body.piece = x.body.piece) : r.Shut := by
  intro hm p e
  rw [hs] at hm
  rw [hp] at e
  exact a hm p e

theorem Record.leaveMaking_closed (x : Record) : ∀ p, x.leaveMaking.body.piece = some p → p.Closed := by
  intro p e
  unfold Record.leaveMaking at e
  split at e
  case h_1 q hq =>
    have hpiece : (x.withPiece q.dropHolders).body.piece = some q.dropHolders := Body.withPiece_piece hq
    rw [Record.closeSources, Body.withSources_piece, hpiece] at e
    cases e
    exact Piece.dropHolders_closed
  case h_2 hno => cases hno.symm.trans e

theorem Record.Shut.unbindTo (a : x.Shut) : ∀ p, (x.unbindTo st).body.piece = some p → p.Closed := by
  unfold Record.unbindTo
  dsimp only
  split
  · exact x.leaveMaking_closed
  case isFalse hm => exact a hm

theorem State.ShutAt.of_find (a : s.ShutAt j) (e : t.find j = s.find j) : t.ShutAt j := by
  obtain ⟨x, hx, hs⟩ := a
  exact ⟨x, e.trans hx, hs⟩

theorem State.ShutAt.updRec {f : Record → Record} (hf : ∀ r, (f r).tag = r.tag) (hshut : ∀ r, r.Shut → (f r).Shut) (a : s.ShutAt j) :
    (s.updRec k f).ShutAt j := by
  obtain ⟨x, hx, hs⟩ := a
  refine ⟨if x.tag = k then f x else x, by rw [State.updRec_find hf, hx]; rfl, ?_⟩
  split
  · exact hshut x hs
  · exact hs

theorem State.ShutAt.unbindSlot (a : s.ShutAt j) : (s.unbindSlot h st pos n).ShutAt j := by
  have hshut (r : Record) (hr : r.Shut) : (r.unbindTo st).Shut := fun _ => hr.unbindTo
  have hclose (which : SlotIx → Bool) (r : Record) (hr : r.Shut) : (r.closeSources which pos).Shut :=
    hr.of_piece rfl (Body.withSources_piece ..)
  unfold State.unbindSlot
  split
  · exact a
  · dsimp only
    split
    · exact ((a.updRec (Record.unbindTo_tag st) hshut).updRec (Record.closeSources_tag _ _) (hclose _)).of_find rfl
    · exact (a.updRec (Record.unbindTo_tag st) hshut).of_find rfl

theorem Record.Shut.consumes {d : Draw} (a : x.Shut) : (x.consumes d).Shut := by
  refine a.of_piece ?_ ?_ <;> unfold Record.consumes Record.onStrand <;> cases hb : x.body <;> simp [Body.piece, hb]

theorem State.ShutAt.charge {amount : Nat} (a : s.ShutAt j) : (s.charge h amount pos n).ShutAt j := by
  rcases State.charge_cases s h amount pos n with ⟨-, e⟩ | ⟨x, y, -, -, hstep⟩
  · rwa [e]
  · have hdrawn : (s.drawn h n x y amount).ShutAt j :=
      (a.updRec (Record.consumes_tag _) fun r hr => hr.consumes).of_find (State.find_of_store (State.checkLow_store ..) j)
    rw [hstep]
    split
    · exact hdrawn.unbindSlot
    · exact hdrawn

theorem State.ShutAt.countMissed {missed : Nat} (a : s.ShutAt j) : (s.countMissed h k missed).ShutAt j := by
  unfold State.countMissed
  split
  · exact a
  · refine (a.updRec (Record.onPanel_tag _) fun r hr => hr.of_piece ?_ ?_).of_find rfl <;> unfold Record.onPanel <;>
      cases hb : r.body <;> simp [Body.piece, hb]

theorem Piece.countRow_closed {kinds : KindSet} (hp : p.Closed) : (p.countRow kinds).1.Closed := by
  unfold Piece.countRow
  dsimp only
  split
  · exact hp
  · exact Piece.addSpan_closed (p := { p with made := nextRow p.made }) hp rfl

theorem State.ShutAt.countRow {kinds : KindSet} (a : s.ShutAt j) : (s.countRow k kinds).ShutAt j := by
  unfold State.countRow
  split
  case h_2 => exact a
  case h_1 r hr =>
    split
    case isFalse => exact a
    case isTrue hk =>
      by_cases hj : j = k
      · subst hj
        obtain ⟨x, hx, hs⟩ := a
        cases hr.symm.trans hx
        obtain ⟨b, hb⟩ := Record.body_of_panel hk
        have hp : r.body.piece = some b.piece := by rw [hb]; rfl
        refine ⟨_, State.onPiece_find hr hp, fun hm p e => ?_⟩
        change (r.withPiece (b.piece.countRow kinds).1).body.piece = some p at e
        rw [Record.withPiece, Body.withPiece_piece hp] at e
        cases e
        exact Piece.countRow_closed (hs hm _ hp)
      · exact a.of_find (State.onPiece_find_ne hj)

theorem State.ShutAt.closeRow (hr : (s.head h).state.running = true) (a : s.ShutAt j) : (s.closeRow h).ShutAt j := by
  cases hw : (s.head h).row with
  | none => rwa [State.closeRow_none hw]
  | some w =>
    cases hp : s.productOf h with
    | none => simp only [State.closeRow, hw, hp]; exact a
    | some r =>
      have hboth : ((s.countMissed h r.tag w.missed).chargeBoth h w.charge (nextRow r.made)).ShutAt j := a.countMissed.charge.charge
      have hcharged : (s.rowCharged h r.tag w r.made).1.ShutAt j := by
        rw [State.rowCharged, State.chargeRow_eq]
        dsimp only
        split
        · refine hboth.of_find (State.find_of_store (State.addFeedShort_running ?_).store j)
          rw [State.chargeBoth_head, State.countMissed_head]
          exact hr
        · exact hboth
      rw [State.closeRow_eq hw hp]
      refine State.ShutAt.of_find ?_ (State.find_of_store (State.checkEnd_store ..) j)
      exact (State.ShutAt.countRow hcharged).of_find rfl

theorem State.ShutAt.unbindAll (a : s.ShutAt j) : (allSlots.foldl (State.unbindSlot h st pos) s).ShutAt j :=
  foldl_invariant (P := State.ShutAt j) (fun _ _ a => a.unbindSlot) allSlots s a

theorem State.closeRow_product (s : State) (h : HeadIx) : ((s.closeRow h).head h).product = (s.head h).product := by
  have hmeter := (State.closeRow_carries (State.Carries.refl h s)).meter
  simp only [Head.meter, Prod.mk.injEq] at hmeter
  obtain ⟨-, -, hproduct, -⟩ := hmeter
  exact hproduct

/-- The product as it leaves MAKING: a live record, to which `leave` has been done. -/
theorem State.endMaking_leaves (hl : ∀ r, (leave r).tag = r.tag) (hp : s.productOf h = some q) (a : s.ShutAt q.tag) :
    ∃ x, (s.endMaking h leave).find q.tag = some (leave x) ∧ x.Shut := by
  obtain ⟨x, hx, hs⟩ := State.ShutAt.unbindAll (h := h) (st := .made) (pos := q.made) a
  refine ⟨x, ?_, hs⟩
  simp only [State.endMaking, hp]
  rw [State.find_updRec hl, hx]
  rfl

/-! ## What stands at the end of making -/

theorem Record.leaveMaking_sources (x : Record) : x.leaveMaking.body.sources = closeEntries (fun _ => true) x.made x.body.sources := by
  cases hb : x.body <;> simp [Record.leaveMaking, hb, Body.piece, Record.closeSources, Record.withPiece, Body.withPiece, Body.withSources,
    Body.sources, Record.made, closeEntries]

theorem Record.unbindTo_making (hm : x.state = .making) : x.unbindTo st = { x.leaveMaking with state := st, bound := none, boundFrom := none } := by
  rw [Record.unbindTo, if_pos hm]

theorem Record.made_of_measure (e : x.measure = r.measure) : x.made = r.made := congrArg (fun a => a.2.1) e

theorem Record.ClosesAs.made (a : q.ClosesAs pos x) : x.made = q.made := by
  obtain ⟨l, rfl, -⟩ := a
  simp only [Record.made, Body.withSources_piece]

/-- What leaves MAKING is bound to no head, its entries are closed at its made amount, and it is as long (R18). -/
def LeavesMaking (leave : Record → Record) : Prop := ∀ x : Record, x.state = .making → (leave x).bound = none ∧
  (leave x).body.sources = closeEntries (fun _ => true) x.made x.body.sources ∧ (leave x).made = x.made

theorem unbindTo_leavesMaking (st : RecordState) : LeavesMaking fun r => r.unbindTo st := by
  intro x hm
  have hmade := Record.made_of_measure (Record.unbindTo_measure st x)
  refine ⟨rfl, ?_, hmade⟩
  dsimp only
  rw [Record.unbindTo_making hm]
  exact x.leaveMaking_sources

theorem interrupt_leavesMaking : LeavesMaking Record.interrupt := unbindTo_leavesMaking .interrupted

/-- How a maker's product and feeds stand at `u` where its making ends, after the close of an open row, for what stood at `s`. -/
structure State.ReadyToEnd (h : HeadIx) (r : Record) (K : HeadIx → Option MachineKind) (s u : State) : Prop where
  bindings : u.BoundBut h noRole K
  product : ∃ q, u.productOf h = some q ∧ q.tag = r.tag ∧ q.state = .making ∧
    closeEntries (fun _ => true) q.made q.body.sources = closeEntries (fun _ => true) q.made r.body.sources
  feeds : ∀ n x, ((s.head h).slot n).strand = some x.tag → s.find x.tag = some x → ((u.head h).slot n).strand = some x.tag ∨
    (((u.head h).slot n).strand = none ∧ ∃ x', u.find x.tag = some x' ∧ x'.state = .spent ∧ x'.bound = none)
  plain : ((s.head h).kind = some .loom → (s.head h).state.running = true → (s.head h).row = none) → u = s

theorem State.ReadyToEnd.refl (B : s.BoundBut h noRole K) (hp : s.productOf h = some r) (hm : r.state = .making) : s.ReadyToEnd h r K s where
  bindings := B
  product := ⟨r, hp, rfl, hm, rfl⟩
  feeds _ _ hk _ := .inl hk
  plain _ := rfl

/-- What a product and its feeds become as making ends (R18, R123): the records of the state in which it has ended. -/
theorem State.endMaking_records (hl : ∀ r, (leave r).tag = r.tag) (B : u.BoundBut h noRole K) (hp : u.productOf h = some q) :
    (∃ x, (u.endMaking h leave).find q.tag = some (leave x) ∧ q.ClosesAs q.made x) ∧
      (∀ n k, ((u.head h).slot n).strand = some k → (u.endMaking h leave).find k = (u.find k).map (Record.unbindTo .made)) ∧
      ∀ k, q.tag ≠ k → (∀ n, ((u.head h).slot n).strand ≠ some k) → (u.endMaking h leave).find k = u.find k := by
  have hproduct := State.productOf_product hp
  obtain ⟨h1, h2, h3⟩ := State.unbindAll_find (st := .made) (pos := q.made) rfl B hproduct
  have hstep : u.endMaking h leave = (allSlots.foldl (State.unbindSlot h .made q.made) u).updRec q.tag leave := by
    simp only [State.endMaking, hp]
  rw [hstep]
  refine ⟨?_, fun n k hk => ?_, fun k hne hno => ?_⟩
  · obtain ⟨x, hx, hc⟩ := h1 q (State.productOf_find hp)
    exact ⟨x, by rw [State.find_updRec hl, hx]; rfl, hc⟩
  · rw [State.find_updRec_ne hl (B.strand_ne_product hproduct hk), h2 n k hk]
  · rw [State.find_updRec_ne hl (Ne.symm hne), h3 k hne hno]

/-- The end of a product's making, as the whole change shows it. -/
theorem State.ReadyToEnd.endsMaking (a : s.ReadyToEnd h r K u) (B : s.BindingsOk) (hl : ∀ r, (leave r).tag = r.tag) (hm : LeavesMaking leave)
    (hr : s.productOf h = some r) (hf : (f s).store = (u.endMaking h leave).store) (hclock : (f s).clock = s.clock)
    (hslots : ∀ n, ((f s).head h).slot n = ⟨none, false, 0, false, false⟩) :
    ∃ r', (s.change f).find r.tag = some r' ∧ s.EndsMaking h r r' (s.change f) := by
  obtain ⟨q, hq, htag, hmq, hsources⟩ := a.product
  obtain ⟨⟨x, hx, hc⟩, hstrands, hothers⟩ := State.endMaking_records hl a.bindings hq
  rw [htag] at hx
  obtain ⟨l, hxl, hclose⟩ := id hc
  have hmx : x.state = .making := by rw [hxl]; exact hmq
  obtain ⟨hbound, hsrc, hmade⟩ := hm x hmx
  have hxmade := hc.made
  obtain ⟨r', hr', -, hbody', hbound'⟩ := State.change_fields ((State.find_of_store hf _).trans hx)
  have hmade' : r'.made = q.made := by
    rw [← hxmade, ← hmade]
    simp only [Record.made, hbody']
  refine ⟨r', hr', hbound'.trans hbound, ?_, hslots, fun n x hk hx => ?_, fun hplain => ⟨?_, fun n x hk hx => ?_⟩⟩
  · rw [hbody', hsrc, hmade', hxmade, ← closeEntries_eq_closedAt, ← hsources, ← hclose, hxl]
    cases hqb : q.body with
    | strand b => rw [hqb] at hclose; exact hclose.symm
    | coil b => rw [hqb] at hclose; exact hclose.symm
    | rope b => rfl
    | panel b => rfl
  · rcases a.feeds n x hk hx with hku | ⟨hku, x', hx', hst', hbd'⟩
    · obtain ⟨z, y, hz, -, hst, -, -⟩ := a.bindings.strand hku
      have hfind := (State.find_of_store hf x.tag).trans (hstrands n _ hku)
      rw [hz, Option.map_some, Record.unbindTo_plain (by rw [hst]; nofun)] at hfind
      obtain ⟨x', hx', hst', -, hbd'⟩ := State.change_fields hfind
      exact ⟨x', hx', hbd', .inl hst'⟩
    · have hne : q.tag ≠ x.tag := by
        rw [htag]
        exact Ne.symm ((B.but h).strand_ne_product (State.productOf_product hr) hk)
      have hfree (m : SlotIx) : ((u.head h).slot m).strand ≠ some x.tag := fun e => by
        obtain ⟨z, y, hz, -, -, hb, -⟩ := a.bindings.strand e
        cases hz.symm.trans hx'
        cases hb.symm.trans hbd'
      obtain ⟨x'', hx'', hst'', -, hbd''⟩ := State.change_fields
        ((State.find_of_store hf x.tag).trans ((hothers x.tag hne hfree).trans hx'))
      exact ⟨x'', hx'', hbd''.trans hbd', .inr (hst''.trans hst')⟩
  · rw [hmade']
    have hus := a.plain hplain
    subst hus
    cases hq.symm.trans hr
    rfl
  · have hus := a.plain hplain
    subst hus
    obtain ⟨z, y, hz, -, hst, -, hsince⟩ := a.bindings.strand hk
    cases hz.symm.trans hx
    have hfind := (State.find_of_store hf x.tag).trans (hstrands n _ hk)
    rw [hx, Option.map_some, Record.unbindTo_plain (by rw [hst]; nofun)] at hfind
    rw [State.change_find hx hfind, Record.stepMark_step, hclock, hsince]
    intro e
    have := congrArg Counted.state e
    rw [Record.counted, hst] at this
    cases this

end Sys2Proof.Machine
end

section
/-! PROOF. A disconnect and a cut completion on a maker (R9, R11, R18, R63, R64, R74, R93, R119, R140). -/

namespace Sys2Proof.Machine

variable {h : HeadIx} {s t u : State} {r q x : Record} {b : PanelBody} {w : RowWindow} {n m : SlotIx} {j k : Nat}
  {f : State → State} {leave : Record → Record} {K : HeadIx → Option MachineKind} {kd : MachineKind}

/-! ## The open row of a loom, closed first -/

/-- A maker at the end of a binding, once the open row of a loom is closed (R140). -/
def State.rowless (h : HeadIx) (s : State) : State := if (s.head h).kind = some .loom then s.closeRow h else s

theorem State.endRunning_maker (hk : (s.head h).kind = some kd) (hc : kd ≠ .coiler) (leave : Record → Record) :
    s.endRunning h leave = (s.rowless h).endMaking h leave := by
  cases kd
  case coiler => exact absurd rfl hc
  all_goals simp [State.endRunning, State.rowless, hk]

theorem State.completeCut_maker (hk : (s.head h).kind = some kd) (hc : kd ≠ .coiler) : s.completeCut h =
    (((s.rowless h).endMaking h fun r => r.unbindTo .made).updHead h Head.complete).raise h .state := by
  cases kd
  case coiler => exact absurd rfl hc
  all_goals simp [State.completeCut, State.rowless, hk]

theorem State.settleRecords_running (hr : (s.head h).state.running = true) (leave : Record → Record) :
    s.settleRecords h leave = s.endRunning h leave := by
  rcases HeadState.running_iff.mp hr with e | e | e | e <;> simp only [State.settleRecords, e]

/-- The panel that a loom has as PRODUCT (R12). -/
theorem State.BoundBut.loom_product (B : s.BoundBut h noRole K) (hk : (s.head h).kind = some .loom) (hp : s.productOf h = some r) :
    ∃ b, r.body = .panel b := by
  obtain ⟨q, kd, hq, -, ek, hbinds, -⟩ := B.get (ro := .product) (State.productOf_product hp)
  cases hq.symm.trans (State.productOf_find hp)
  cases hk.symm.trans ek
  refine Record.body_of_panel ?_
  simp only [MachineKind.binds, MachineKind.product, Option.some.injEq, decide_eq_true_eq] at hbinds
  exact hbinds.symm

theorem State.rowless_ready (B : s.BoundBut h noRole K) (hr : (s.head h).state.running = true) (hp : s.productOf h = some r)
    (hm : r.state = .making) : s.ReadyToEnd h r K (s.rowless h) := by
  unfold State.rowless
  split
  case isFalse => exact .refl B hp hm
  case isTrue hk =>
    cases hw : (s.head h).row with
    | none =>
      rw [State.closeRow_none hw]
      exact .refl B hp hm
    | some w =>
      obtain ⟨b, hb⟩ := B.loom_product hk hp
      have C := State.closeRow_closed B hk hr hw hp hb
      obtain ⟨x, feed, hx, hst, -, -, hbody⟩ := C.panel
      obtain ⟨-, htag⟩ := State.find_mem hx
      refine ⟨State.closeRow_boundBut B, ⟨x, ?_, htag, hst.trans hm, ?_⟩, fun n y hy hf => ?_, fun hno => ?_⟩
      · exact State.productOf_of ((State.closeRow_product s h).trans (State.productOf_product hp)) hx
      · rw [Record.made_panel hbody, PanelBody.rowClosed_made rfl, hbody, hb]
        exact closeEntries_closeEntries (fun n => s.runsOut h n w.charge) (nextRow b.piece.made) b.sources
      · obtain ⟨z, sb, hz, hzb, hst, -, -⟩ := B.strand hy
        cases hz.symm.trans hf
        obtain ⟨hrec, hslot, -⟩ := C.strand n y sb (B.loom_slot hk hy) (State.fedBy_of_strand hy hf hzb)
        rw [Record.afterDraw_eq hzb (by rw [hst]; nofun)] at hrec
        cases hsp : (sb.draw w.charge).spent
        · rw [hsp] at hslot
          exact .inl hslot
        · rw [hsp] at hslot hrec
          exact .inr ⟨hslot, _, hrec, rfl, rfl⟩
      · exact absurd (hw.symm.trans (hno hk hr)) nofun

theorem State.rowless_product (s : State) (h : HeadIx) : ((s.rowless h).head h).product = (s.head h).product := by
  unfold State.rowless
  split
  · exact State.closeRow_product s h
  · rfl

/-- The product at the end of its making, without a word on the bindings: it is live, and what it becomes is `leave` of it. -/
theorem State.rowless_leaves (hl : ∀ r, (leave r).tag = r.tag) (hr : (s.head h).state.running = true) (hp : s.productOf h = some r)
    (hs : r.Shut) : ∃ x, ((s.rowless h).endMaking h leave).find r.tag = some (leave x) ∧ x.Shut := by
  have hrow : (s.rowless h).ShutAt r.tag := by
    have hstart : s.ShutAt r.tag := ⟨r, State.productOf_find hp, hs⟩
    unfold State.rowless
    split
    · exact hstart.closeRow hr
    · exact hstart
  obtain ⟨q, hq, -⟩ := id hrow
  obtain ⟨-, htag⟩ := State.find_mem hq
  have hproduct : (s.rowless h).productOf h = some q :=
    State.productOf_of ((State.rowless_product s h).trans (State.productOf_product hp)) hq
  rw [← htag] at hrow ⊢
  exact State.endMaking_leaves hl hproduct hrow

/-- What a whole change makes of a record whose state it has changed: the mark steps, and the time is noted (R9, R10). -/
theorem State.change_state (er : s.find j = some r) (hx : (f s).find j = some x) (hne : r.state ≠ x.state) :
    (s.change f).find j = some { x with mark := r.mark + 1, changed := (f s).clock.seconds } := by
  rw [State.change_find er hx, Record.stepMark_step]
  exact fun e => hne (congrArg Counted.state e)

theorem Head.free_slot (st : HeadState) (x : Head) (n : SlotIx) : (x.free st).slot n = ⟨none, false, 0, false, false⟩ := by
  simp [Head.free, Head.slot]

/-! ## A disconnect -/

theorem State.senseSettled_maker (hs : (s.head h).settle = 64) (hn : senseResult (s.head h).candidate ≠ (s.head h).accepted)
    (hk : (s.head h).kind = some kd) (hc : kd ≠ .coiler) (hr : (s.head h).state.running = true) :
    (s.senseSettled h).store = ((s.rowless h).endMaking h Record.interrupt).store := by
  rw [State.senseSettled_of_new hs hn, if_pos (by rw [hk]; rfl), State.disconnect, State.settleRecords_running hr,
    State.endRunning_maker hk hc]
  rfl

theorem State.senseSettled_slot (hs : (s.head h).settle = 64) (hn : senseResult (s.head h).candidate ≠ (s.head h).accepted)
    (hk : (s.head h).kind = some kd) (n : SlotIx) : ((s.senseSettled h).head h).slot n = ⟨none, false, 0, false, false⟩ := by
  rw [State.senseSettled_of_new hs hn, if_pos (by rw [hk]; rfl), State.raise_head, State.updHead_head, State.disconnect_head]
  exact Head.free_slot .empty ((s.settleRecords h Record.interrupt).head h) n

/-- Settles O7: the product is interrupted by the last step of the disconnect, and the feeds end as `State.ReadyToEnd` says. -/
theorem disconnectInterruptsProduct : Obligations.DisconnectInterruptsProduct := by
  unfold Obligations.DisconnectInterruptsProduct
  intro h s k r S hs hn hk hc hr hp hm
  have er := State.productOf_find hp
  have hstore := State.senseSettled_maker hs hn hk hc hr
  have hclock : (s.senseSettled h).clock = s.clock := (State.senseSettled_keeps (.refl h s)).clock
  obtain ⟨x, hx, -⟩ := State.rowless_leaves Record.interrupt_tag hr hp fun hne => absurd hm hne
  have hfind : (s.change (State.senseSettled h)).find r.tag =
      some { x.interrupt with mark := r.mark + 1, changed := s.clock.seconds } := by
    rw [State.change_state er ((State.find_of_store hstore _).trans hx) (by rw [hm]; nofun), hclock]
  refine ⟨_, _, exec_senseSettled h s, hfind, rfl, rfl, rfl, rfl, rfl, fun B => ?_⟩
  obtain ⟨r', hr', hends⟩ := (State.rowless_ready (B.but h) hr hp hm).endsMaking B Record.interrupt_tag interrupt_leavesMaking hp
    hstore hclock (State.senseSettled_slot hs hn hk)
  cases hfind.symm.trans hr'
  exact hends

/-! ## A cut completion -/

theorem exec_cutWaitExpiry (h : HeadIx) (s : State) : exec (.cutWaitExpiry h) s = .next (s.change (State.cutWaitExpiry h)) := rfl

theorem exec_runFall (h : HeadIx) (s : State) : exec (.runFall h) s = .next (s.change (State.runFall h)) := rfl

theorem State.cutWaitExpiry_of (hst : (s.head h).state = .cutting) (hw : (s.head h).cutWait = some 0) :
    s.cutWaitExpiry h = s.completeCut h := by
  simp only [State.cutWaitExpiry, hst, hw, and_self, if_true]

theorem State.runFall_cut (hst : (s.head h).state = .cutting) (hc : (s.head h).cutRunHigh = true) :
    s.runFall h = (s.updHead h fun x => { x with runHigh := false }).completeCut h := by
  simp only [State.runFall, hst, hc, if_true]

theorem State.rowless_carries (s : State) (h : HeadIx) : s.Carries h (s.rowless h) := by
  unfold State.rowless
  split
  · exact State.closeRow_carries (.refl h s)
  · exact .refl h s

theorem State.endMaking_carries (s : State) (h : HeadIx) (leave : Record → Record) : s.Carries h (s.endMaking h leave) := by
  unfold State.endMaking
  split
  · exact .refl h s
  · exact State.updRec_carries (State.foldl_carries (fun _ _ a => State.unbindSlot_carries a) allSlots (.refl h s))

/-- What the end of a cut leaves of a maker's head: DONE, with MARK as it stood (R58, R64, R93). -/
theorem State.completeCut_head (hk : (s.head h).kind = some kd) (hc : kd ≠ .coiler) :
    ∃ x : Head, (s.completeCut h).head h = x.complete ∧ x.markHigh = (s.head h).markHigh := by
  refine ⟨_, by rw [State.completeCut_maker hk hc, State.raise_head, State.updHead_head], ?_⟩
  have hmeter := ((State.rowless_carries s h).trans (State.endMaking_carries (s.rowless h) h fun r => r.unbindTo .made)).meter
  simp only [Head.meter, Prod.mk.injEq] at hmeter
  obtain ⟨-, -, -, -, -, -, hmark, -⟩ := hmeter
  exact hmark

theorem State.EndsMaking.of_runHigh {v : Bool} {r' : Record} (a : (s.updHead h fun x => { x with runHigh := v }).EndsMaking h r r' t) :
    s.EndsMaking h r r' t := by
  obtain ⟨hbound, hsources, hslots, hfeeds, hplain⟩ := a
  rw [State.updHead_head] at hfeeds hplain
  exact ⟨hbound, hsources, hslots, hfeeds, hplain⟩

/-- What a completed cut leaves of a maker, in a change from `s` to `t` (R18, R63, R64). -/
structure State.CutDone (h : HeadIx) (r r' : Record) (s t : State) : Prop where
  head : ∃ x : Head, t.head h = x.complete ∧ x.markHigh = (s.head h).markHigh
  flagged : t.flagged h .state = true
  record : t.find r.tag = some r'
  left : r'.state = .made ∧ r'.bound = none ∧ r'.mark = r.mark + 1 ∧ r'.changed = s.clock.seconds
  closed : ∀ p, r'.body.piece = some p → p.Closed
  ends : s.BindingsOk → s.EndsMaking h r r' t

theorem State.completeCut_done (hf : f s = s.completeCut h) (R : s.RecordsOk) (hst : (s.head h).state = .cutting)
    (hk : (s.head h).kind = some kd) (hc : kd ≠ .coiler) (hp : s.productOf h = some r) (hm : r.state = .making) :
    ∃ r', s.CutDone h r r' (s.change f) := by
  have er := State.productOf_find hp
  have hr : (s.head h).state.running = true := by rw [hst]; rfl
  have hstore : (f s).store = ((s.rowless h).endMaking h fun r => r.unbindTo .made).store := by
    rw [hf, State.completeCut_maker hk hc]
    rfl
  have hclock : (f s).clock = s.clock := by rw [hf]; exact (State.completeCut_keeps (.refl h s)).clock
  obtain ⟨y, hhead, hmark⟩ := State.completeCut_head hk hc
  have hhead' : (s.change f).head h = y.complete := by rw [State.change_head, hf, hhead]
  obtain ⟨x, hx, hshut⟩ := State.rowless_leaves (Record.unbindTo_tag .made) hr hp ((R r (State.find_mem er).1).closedOutside)
  have hfind : (s.change f).find r.tag = some { x.unbindTo .made with mark := r.mark + 1, changed := s.clock.seconds } := by
    rw [State.change_state er ((State.find_of_store hstore _).trans hx) (by rw [hm]; nofun), hclock]
  refine ⟨_, ⟨y, hhead', hmark⟩, ?_, hfind, ⟨rfl, rfl, rfl, rfl⟩, hshut.unbindTo (st := .made), fun B => ?_⟩
  · rw [State.flagged, State.change_attn, hf, State.completeCut_maker hk hc]
    exact State.raise_flagged ..
  · obtain ⟨r', hr', hends⟩ := (State.rowless_ready (B.but h) hr hp hm).endsMaking B (Record.unbindTo_tag .made)
      (unbindTo_leavesMaking .made) hp hstore hclock fun n => by
        rw [← State.change_head, hhead']
        exact Head.free_slot .done y n
    cases hfind.symm.trans hr'
    exact hends

/-- The level of RUN, which has fallen, is nothing to what the cut's end says. -/
theorem State.CutDone.of_runHigh {v : Bool} {r' : Record} (a : (s.updHead h fun x => { x with runHigh := v }).CutDone h r r' t)
    : s.CutDone h r r' t := by
  obtain ⟨hhead, hflag, hrec, hleft, hclosed, hends⟩ := a
  rw [State.updHead_head] at hhead
  exact ⟨hhead, hflag, hrec, hleft, hclosed, fun B => (hends (State.updHead_bindingsOk (fun _ => rfl) B)).of_runHigh⟩

/-- Settles O16: both ways to a cut's end complete it, and what it leaves is `State.CutDone`. -/
theorem cutCompletesProduct : Obligations.CutCompletesProduct := by
  unfold Obligations.CutCompletesProduct
  refine ⟨fun h s S hno => congrArg Host.Outcome.next (State.change_eq S ?_ rfl), fun h s k r c S R hst hk hc hp hm hway => ?_⟩
  · have hno : ¬((s.head h).state = .cutting ∧ (s.head h).cutWait = some 0) := by
      rw [not_and_or]
      exact hno
    simp only [State.cutWaitExpiry, hno, if_false]
  have hdone : ∃ t r', exec c s = .next t ∧ s.CutDone h r r' t := by
    rcases hway with ⟨rfl, hw⟩ | ⟨rfl, hrun⟩
    · obtain ⟨r', hd⟩ := State.completeCut_done (State.cutWaitExpiry_of hst hw) R hst hk hc hp hm
      exact ⟨_, r', exec_cutWaitExpiry h s, hd⟩
    · let s1 := s.updHead h fun x => { x with runHigh := false }
      have hs1 : s1.head h = { s.head h with runHigh := false } := State.updHead_head ..
      obtain ⟨r', hd⟩ := State.completeCut_done (s := s1) (f := fun _ => s.runFall h) (State.runFall_cut hst hrun) R
        (by rw [hs1]; exact hst) (by rw [hs1]; exact hk) hc
        ((State.updHead_productOf (f := fun x => { x with runHigh := false }) fun _ => rfl).trans hp) hm
      exact ⟨_, r', exec_runFall h s, hd.of_runHigh⟩
  obtain ⟨t, r', hexec, ⟨y, hhead, hmark⟩, hflag, hrec, ⟨hmade, hbound, hstep, htime⟩, hclosed, hends⟩ := hdone
  refine ⟨t, r', hexec, ?_, ?_, ?_, ?_, ?_, fun n => ?_, hflag, hrec, hmade, hbound, hstep, htime, hclosed, ?_, ?_, hends⟩ <;> rw [hhead]
  · rfl
  · rfl
  · rfl
  · rfl
  · exact hmark
  · exact congrArg FeedSlot.strand (Head.free_slot .done y n)
  · rfl
  · rfl

end Sys2Proof.Machine
end

section
/-! PROOF. The close of a row (R125, R128, R131, R133, R140 to R146). -/

namespace Sys2Proof.Machine

variable {h : HeadIx} {s t u z : State} {r q x : Record} {y : StrandBody} {b : PanelBody} {w : RowWindow} {n m : SlotIx} {j k : Nat}
  {i : Instr} {count : Nat} {f : State → State} {leave : Record → Record} {st : RecordState} {port : Port} {body : List Byte}

/-! ## A row closed while the head runs on -/

/-- Two states apart only in the row and the excess watch of head `h`. -/
structure State.BesideRow (h : HeadIx) (s t : State) : Prop where
  store : t.store = s.store
  attn : t.attn = s.attn
  head : ∃ row watch, t.head h = { s.head h with row := row, excessWatch := watch }

theorem State.openRow_beside (s : State) (h : HeadIx) : s.BesideRow h (s.openRow h) := by
  unfold State.openRow
  split
  case h_1 => exact ⟨rfl, rfl, _, _, rfl⟩
  case h_2 r hp =>
    split
    case h_1 b hb => exact ⟨rfl, rfl, _, _, State.updHead_head ..⟩
    all_goals exact ⟨rfl, rfl, _, _, rfl⟩

/-- A ROW pulse, an expiry and the last knot close the open row, and touch nothing more than the row and its watch. -/
theorem exec_closesRow (B : s.BindingsOk) (hk : (s.head h).kind = some .loom) (hr : (s.head h).state.running = true)
    (hp : s.productOf h = some r) (hb : r.body = .panel b) (hw : (s.head h).row = some w)
    (hi : (i = .rowPulse h ∧ count = w.count) ∨ (i = .rowExpiry h ∧ w.expiry = 0 ∧ count = w.count) ∨
      (i = .knotPulse h ∧ w.knots ≤ w.count + 1 ∧ count = w.count + 1)) :
    ∃ f z, exec i s = .next (s.change f) ∧ s.RowClosed h r b { w with count := count } z ∧ z.BesideRow h (f s) := by
  have hknots : (s.head h).knots = true := Head.knots_iff.mpr ⟨hk, hr⟩
  rcases hi with ⟨rfl, rfl⟩ | ⟨rfl, h0, rfl⟩ | ⟨rfl, hlast, rfl⟩
  · refine ⟨State.rowPulse h, _, rfl, State.closeRow_closed (B.but h) hk hr hw hp hb, ?_⟩
    simp only [State.rowPulse, hknots, if_true]
    exact State.openRow_beside ..
  · refine ⟨State.rowExpiry h, _, rfl, State.closeRow_closed (B.but h) hk hr hw hp hb, ?_⟩
    simp only [State.rowExpiry, Head.rowExpired, hw, h0, decide_true, if_true]
    exact ⟨rfl, rfl, _, _, rfl⟩
  · let bump := fun x : Head => { x with row := some { w with count := w.count + 1 } }
    let s1 := s.updHead h bump
    have hs1 : s1.head h = { s.head h with row := some { w with count := w.count + 1 } } := State.updHead_head ..
    have C : s1.RowClosed h r b { w with count := w.count + 1 } (s1.closeRow h) := by
      refine State.closeRow_closed ((State.updHead_bindingsOk (f := bump) (fun _ => rfl) B).but h) ?_ ?_ ?_ ?_ hb
      · rw [hs1]
        exact hk
      · rw [hs1]
        exact hr
      · rw [hs1]
      · exact (State.updHead_productOf (f := bump) fun _ => rfl).trans hp
    refine ⟨State.knotPulse h, _, rfl, C.of_head (g := bump) rfl, ?_⟩
    simp only [State.knotPulse, hknots, hw, if_true, State.countKnot, if_pos hlast]
    exact ⟨rfl, rfl, _, _, State.updHead_head ..⟩


/-- The panel and the strands after a change that closes a row and leaves the head in a running state. -/
theorem State.RowClosed.result (C : s.RowClosed h r b { w with count := count } z) (hf : z.BesideRow h (f s)) :
    ∃ r' b', (s.change f).find r.tag = some r' ∧ r'.body = .panel b' ∧ s.SettlesRow h w count b b' (s.change f) ∧
      b'.sources = closedAt (fun n => s.runsOut h n (count * (w.bar + w.allowance))) b'.piece.made b.sources ∧
      b'.piece.made = nextRow b.piece.made := by
  obtain ⟨x, feed, hx, -, -, hfeed, hbody⟩ := C.panel
  obtain ⟨r', hr', hb'⟩ := State.change_panel (s := s) (f := f) ((State.find_of_store hf.store _).trans hx) hbody
  refine ⟨r', _, hr', hb', State.settlesRow (w := w) (count := count) (fun hm => ?_) hfeed _, ?_, PanelBody.rowClosed_made rfl ..⟩
  · rw [State.flagged, State.change_attn, hf.attn]
    exact C.short hm
  · rw [PanelBody.rowClosed_made rfl]
    exact closeEntries_eq_closedAt (fun n => s.runsOut h n (count * (w.bar + w.allowance))) (nextRow b.piece.made) b.sources

/-! ## A row closed by the end of the binding -/

theorem answerRelease_done (hp : s.mayRelease port k = true) (e : s.presentHead k = some h) (hi : (s.head h).state ≠ .idle) :
    answerRelease port k s = (s.change (State.releaseHead h), Reply.done []) := by
  simp [answerRelease, hp, e, hi]

theorem HeadState.running_present {st : HeadState} (hr : st.running = true) : st ≠ .empty ∧ st ≠ .idle := by
  refine ⟨?_, ?_⟩ <;> rintro rfl <;> cases hr

/-- A record leaves MAKING for the state `st` by `leave`. -/
structure LeavesFor (st : RecordState) (leave : Record → Record) : Prop where
  tag : ∀ r, (leave r).tag = r.tag
  making : LeavesMaking leave
  state : ∀ r, (leave r).state = st
  body : ∀ r, (leave r).body = (r.unbindTo st).body

theorem unbindTo_leavesFor (st : RecordState) : LeavesFor st fun r => r.unbindTo st :=
  ⟨Record.unbindTo_tag st, unbindTo_leavesMaking st, fun _ => rfl, fun _ => rfl⟩

theorem interrupt_leavesFor : LeavesFor .interrupted Record.interrupt :=
  ⟨Record.interrupt_tag, interrupt_leavesMaking, fun _ => rfl, fun _ => rfl⟩

/-- Instruction `i` takes `s` to `t` by the change `f`, which ends the making at head `h` where the head's row was closed to `z`: the
product leaves by `leave`, the blocks of the head are free, and what `z` has raised stands raised. -/
structure State.EndingBy (h : HeadIx) (i : Instr) (leave : Record → Record) (s z : State) (f : State → State) (t : State) : Prop where
  step : exec i s = .next t
  store : t.store = (s.change f).store
  attn : t.attn = (f s).attn
  heads : t.heads = (f s).heads
  ending : (f s).store = (z.endMaking h leave).store
  clock : (f s).clock = s.clock
  slots : ∀ n, ((f s).head h).slot n = ⟨none, false, 0, false, false⟩
  row : ((f s).head h).row = none
  watch : ((f s).head h).excessWatch = 0
  flags : ∀ k, z.attn.flag k = true → (f s).attn.flag k = true
  causes : ∀ k c, (z.attn.causesOf k).has c = true → ((f s).attn.causesOf k).has c = true

theorem State.endRunning_loom (hk : (s.head h).kind = some .loom) (leave : Record → Record) :
    s.endRunning h leave = (s.closeRow h).endMaking h leave := by
  simp only [State.endRunning, hk]

theorem State.completeCut_loom (hk : (s.head h).kind = some .loom) : s.completeCut h =
    (((s.closeRow h).endMaking h fun r => r.unbindTo .made).updHead h Head.complete).raise h .state := by
  simp only [State.completeCut, hk]

theorem State.releaseHead_loom (hk : (s.head h).kind = some .loom) (hr : (s.head h).state.running = true) : s.releaseHead h =
    ((s.closeRow h).endMaking h fun r => r.unbindTo .made).updHead h (Head.free .idle) := by
  rw [State.releaseHead, State.settleRecords_running hr, State.endRunning_loom hk]

theorem State.senseSettled_loom (hs : (s.head h).settle = 64) (hn : senseResult (s.head h).candidate ≠ (s.head h).accepted)
    (hk : (s.head h).kind = some .loom) (hr : (s.head h).state.running = true) : s.senseSettled h =
    (((s.closeRow h).endMaking h Record.interrupt).updHead h fun x =>
      { ({ x.free .empty with queue := [] } : Head) with
        accepted := senseResult (s.head h).candidate
        state := (senseResult (s.head h).candidate).state }).raise h .sense := by
  rw [State.senseSettled_of_new hs hn, if_pos (by rw [hk]; rfl), State.disconnect, State.settleRecords_running hr,
    State.endRunning_loom hk, State.updHead_updHead]

/-- The change of an end of making: its records leave, the head is `g` of what it was, and flags are raised. -/
theorem State.EndingBy.of_change {g : Head → Head} {l : List HeadFlag} (hstep : exec i s = .next t) (hstore : t.store = (s.change f).store)
    (hattn : t.attn = (f s).attn) (hheads : t.heads = (f s).heads)
    (hf : f s = l.foldl (fun u k => u.raise h k) ((z.endMaking h leave).updHead h g)) (hclock : (f s).clock = s.clock)
    (hslots : ∀ x n, (g x).slot n = ⟨none, false, 0, false, false⟩) (hrow : ∀ x, (g x).row = none) (hwatch : ∀ x, (g x).excessWatch = 0) :
    s.EndingBy h i leave z f t := by
  let e := z.endMaking h leave
  have hraised : ∀ (l : List HeadFlag) (u : State), let v := l.foldl (fun u k => u.raise h k) u
      v.store = u.store ∧ v.head h = u.head h ∧ u.Carries h v := by
    intro l
    induction l with
    | nil => exact fun u => ⟨rfl, rfl, .refl h u⟩
    | cons k l ih =>
      intro u
      obtain ⟨h1, h2, h3⟩ := ih (u.raise h k)
      exact ⟨h1, h2, (State.raise_carries (.refl h u)).trans h3⟩
  obtain ⟨hs, hh, hc⟩ := hraised l (e.updHead h g)
  rw [← hf] at hs hh hc
  rw [State.updHead_head] at hh
  have hcarries : z.Carries h e := State.endMaking_carries ..
  refine ⟨hstep, hstore, hattn, hheads, hs, hclock, fun n => ?_, ?_, ?_, fun k a => hc.flags k (hcarries.flags k a),
    fun k c a => hc.causes k c (hcarries.causes k c a)⟩
  · rw [hh]
    exact hslots _ n
  · rw [hh]
    exact hrow _
  · rw [hh]
    exact hwatch _

/-- A cut's end, a RELEASE and a disconnect end the binding of a loom in a running state, with its open row closed first (R140). -/
theorem exec_endsRow (hk : (s.head h).kind = some .loom) (hr : (s.head h).state.running = true)
    (hi : (i = .cutWaitExpiry h ∧ (s.head h).state = .cutting ∧ (s.head h).cutWait = some 0 ∧ st = .made) ∨
      (i = .runFall h ∧ (s.head h).state = .cutting ∧ (s.head h).cutRunHigh = true ∧ st = .made) ∨
      (∃ p body, i = .release p h.val ∧ s.Asks p i body ∧ s.mayRelease p h.val = true ∧ st = .made) ∨
      (i = .senseSettled h ∧ (s.head h).settle = 64 ∧ senseResult (s.head h).candidate ≠ (s.head h).accepted ∧ st = .interrupted)) :
    ∃ s1 leave f t, (s1 = s ∨ s1 = s.updHead h fun x => { x with runHigh := false }) ∧ LeavesFor st leave ∧
      s.EndingBy h i leave (s1.closeRow h) f t := by
  rcases hi with ⟨rfl, hst, hw, rfl⟩ | ⟨rfl, hst, hrun, rfl⟩ | ⟨p, body, rfl, hasks, hmay, rfl⟩ | ⟨rfl, hs, hn, rfl⟩
  · refine ⟨s, _, _, _, .inl rfl, unbindTo_leavesFor .made, State.EndingBy.of_change (l := [.state]) (exec_cutWaitExpiry h s) rfl rfl rfl
      ((State.cutWaitExpiry_of hst hw).trans (State.completeCut_loom hk)) (State.cutWaitExpiry_keeps (.refl h s)).clock
      (fun x n => Head.free_slot .done x n) (fun _ => rfl) fun _ => rfl⟩
  · let s1 := s.updHead h fun x => { x with runHigh := false }
    have hk1 : (s1.head h).kind = some .loom := by rw [State.updHead_head]; exact hk
    refine ⟨s1, _, _, _, .inr rfl, unbindTo_leavesFor .made, State.EndingBy.of_change (l := [.state]) (exec_runFall h s) rfl rfl rfl
      ((State.runFall_cut hst hrun).trans (State.completeCut_loom hk1)) (State.runFall_keeps (.refl h s)).clock
      (fun x n => Head.free_slot .done x n) (fun _ => rfl) fun _ => rfl⟩
  · obtain ⟨hempty, hidle⟩ := HeadState.running_present hr
    have hanswer := answerRelease_done (h := h) (k := h.val) hmay (State.presentHead_val hempty) hidle
    have hexec := exec_answer (t := s.change (State.releaseHead h)) (x := Reply.done []) hasks rfl hanswer
    refine ⟨s, _, _, _, .inl rfl, unbindTo_leavesFor .made, State.EndingBy.of_change (l := []) hexec ?_ ?_ ?_ (State.releaseHead_loom hk hr)
      (State.releaseHead_keeps (.refl h s)).clock (fun x n => Head.free_slot .idle x n) (fun _ => rfl) fun _ => rfl⟩ <;> cases p <;> rfl
  · have hloom := State.senseSettled_loom hs hn hk hr
    have hclock : (s.senseSettled h).clock = s.clock := (State.senseSettled_keeps (.refl h s)).clock
    refine ⟨s, _, State.senseSettled h, s.change (State.senseSettled h), .inl rfl, interrupt_leavesFor, ?_⟩
    refine State.EndingBy.of_change (l := [.sense]) (exec_senseSettled h s) rfl rfl rfl hloom hclock ?_ ?_ ?_
    · exact fun x n => Head.free_slot .empty x n
    · exact fun _ => rfl
    · exact fun _ => rfl

/-- An end of making at a loom whose row was closed: a record whose state it changes steps its mark (R9, R10). -/
theorem State.EndingBy.find_of_state (E : s.EndingBy h i leave z f t) (er : s.find j = some r)
    (hx : (z.endMaking h leave).find j = some x) (hne : r.state ≠ x.state) :
    t.find j = some { x with mark := r.mark + 1, changed := s.clock.seconds } := by
  rw [State.find_of_store E.store, State.change_state er ((State.find_of_store E.ending _).trans hx) hne, E.clock]

theorem State.EndingBy.flagged (E : s.EndingBy h i leave z f t) {g : HeadFlag} (hz : z.flagged h g = true) : t.flagged h g = true := by
  rw [State.flagged, E.attn]
  exact E.flags _ hz

theorem State.EndingBy.cause (E : s.EndingBy h i leave z f t) {c : Alarm} (hz : (z.attn.causesOf h).has c = true) :
    (t.attn.causesOf h).has c = true := by
  rw [E.attn]
  exact E.causes h c hz

theorem State.EndingBy.head (E : s.EndingBy h i leave z f t) : t.head h = (f s).head h := by
  rw [State.head, State.head, E.heads]

theorem State.EndsMaking.of_beside {t' r' : _} (a : s.EndsMaking h r r' t) (hs : t'.store = t.store) (hh : t'.heads = t.heads) :
    s.EndsMaking h r r' t' := by
  have hfind (k : Nat) : t'.find k = t.find k := State.find_of_store hs k
  have hhead : t'.head h = t.head h := by rw [State.head, State.head, hh]
  obtain ⟨hbound, hsources, hslots, hfeeds, hplain⟩ := a
  refine ⟨hbound, hsources, ?_, ?_, ?_⟩
  · rwa [hhead]
  · simp only [hfind]
    exact hfeeds
  · simp only [hfind]
    exact hplain

/-! ## What the records become -/

theorem State.BoundBut.product_making {K : HeadIx → Option MachineKind} (B : s.BoundBut h noRole K) (hp : s.productOf h = some r) :
    r.state = .making := by
  obtain ⟨q, kd, hq, hb, -⟩ := B.get (ro := .product) (State.productOf_product hp)
  cases hq.symm.trans (State.productOf_find hp)
  exact (B.tied r.tag r hq).held h _ hb

/-- The source list stands beside what the settling of a row says. -/
theorem State.SettlesRow.withSources {b' : PanelBody} (a : s.SettlesRow h w count b b' t) (l : List SourceEntry) :
    s.SettlesRow h w count b { b' with sources := l } t := by
  obtain ⟨hmade, hmissed, hshort, hknot, hflaw, hfeed, hclean⟩ := a
  exact ⟨hmade, hmissed, hshort, hknot, hflaw, hfeed, hclean⟩

theorem Piece.dropHolders_of_closed {p : Piece} (hc : p.Closed) : p.dropHolders = p := by
  obtain ⟨hopen, hpending⟩ := hc
  simp only [Piece.dropHolders, Piece.mapOpen_of_none hopen, hpending.symm]

/-- A panel that leaves MAKING with nothing open changes in its source list alone (R18). -/
theorem Record.unbindTo_panel (hb : x.body = .panel b) (hc : b.piece.Closed) (st : RecordState) :
    ∃ l, (x.unbindTo st).body = .panel { b with sources := l } := by
  rw [Record.unbindTo]
  split
  · refine ⟨closeEntries (fun _ => true) b.piece.made b.sources, ?_⟩
    simp [Record.leaveMaking, hb, Body.piece, Record.closeSources, Record.withPiece, Body.withPiece, Body.withSources, Body.sources,
      Piece.dropHolders_of_closed hc, closeEntries]
  · exact ⟨b.sources, hb⟩

/-- The panel as the binding of its loom has ended (R18, R140, R141, R143, R144). -/
theorem State.EndingBy.panel {K : HeadIx → Option MachineKind} (E : s.EndingBy h i leave z f t) (L : LeavesFor st leave)
    (C : s.RowClosed h r b w z) (B : z.BoundBut h noRole K) (hz : (z.head h).product = some r.tag) (er : s.find r.tag = some r)
    (hm : r.state = .making) (hst : st ≠ .making) (hc : b.piece.Closed) :
    ∃ r' b', t.find r.tag = some r' ∧ r'.body = .panel b' ∧ r'.state = st ∧ s.SettlesRow h w w.count b b' t ∧
      b'.piece.made = nextRow b.piece.made := by
  obtain ⟨q, feed, hq, hqs, -, hfeed, hbody⟩ := C.panel
  obtain ⟨-, htag⟩ := State.find_mem hq
  obtain ⟨⟨x, hx, l, hxl, -⟩, -⟩ := State.endMaking_records L.tag B (State.productOf_of hz hq)
  rw [htag] at hx
  have hxb : x.body = .panel { b.rowClosed w.missed (fun n => s.runsOut h n w.charge) (nextRow b.piece.made) (w.marks feed) b.piece with
      sources := l } := by rw [hxl, hbody]; rfl
  obtain ⟨l', hl'⟩ := Record.unbindTo_panel hxb (Piece.countRow_closed hc) st
  refine ⟨_, _, E.find_of_state er hx (by rw [L.state, hm]; exact hst.symm), (L.body x).trans hl', L.state x, ?_,
    PanelBody.rowClosed_made rfl w.missed (fun _ => true) 0 (w.marks feed)⟩
  have hshort (hm : 0 < w.missed) : t.flagged h .alarm = true ∧ (t.attn.causesOf h).knotShort = true :=
    ⟨E.flagged (C.short hm).1, E.cause (c := .knotShort) (C.short hm).2⟩
  exact ((State.settlesRow (w := w) (count := w.count) hshort hfeed _).withSources l).withSources l'

/-- A strand as the binding of its loom has ended (R18, R131). -/
theorem State.EndingBy.strand {K : HeadIx → Option MachineKind} (E : s.EndingBy h i leave z f t) (L : LeavesFor st leave)
    (C : s.RowClosed h r b w z) (B : z.BoundBut h noRole K) (hz : (z.head h).product = some r.tag) (hn : n.val < 2)
    (e : s.fedBy h n = some (x, y)) (hx : x.state = .inUse) (hne : x.tag ≠ r.tag) :
    ∃ x', t.find x.tag = some x' ∧ x'.state = (if (y.draw w.charge).spent then .spent else .made) ∧ x'.mark = x.mark + 1 ∧
      x'.body = .strand { y with consumed := (y.draw w.charge).consumed } := by
  obtain ⟨ex, hy⟩ := State.fedBy_find e
  obtain ⟨q, feed, hq, -⟩ := C.panel
  obtain ⟨-, htag⟩ := State.find_mem hq
  obtain ⟨hrec, hslot, -⟩ := C.strand n x y hn e
  have hnot : x.state ≠ .making := by rw [hx]; nofun
  obtain ⟨-, hstrands, hothers⟩ := State.endMaking_records L.tag B (State.productOf_of hz hq)
  rw [Record.afterDraw_eq hy hnot] at hrec
  cases hsp : (y.draw w.charge).spent <;> rw [hsp] at hslot hrec
  · have hend := hstrands n _ hslot
    rw [hrec, Option.map_some, if_neg nofun, Record.unbindTo_plain (by exact hnot)] at hend
    exact ⟨_, E.find_of_state ex hend (by rw [hx]; nofun), rfl, rfl, rfl⟩
  · rw [if_pos rfl] at hrec
    have hfree (m : SlotIx) : ((z.head h).slot m).strand ≠ some x.tag := fun e => by
      obtain ⟨v, _, hv, -, -, hb, -⟩ := B.strand e
      cases hv.symm.trans hrec
      cases hb
    have hend := (hothers x.tag (by rw [htag]; exact hne.symm) hfree).trans hrec
    exact ⟨_, E.find_of_state ex hend (by rw [hx]; nofun), rfl, rfl, rfl⟩

/-! ## Both halves -/

/-- The close of the row, and what the end of the binding then says, are those of `s`, whether or not RUN has fallen first. -/
theorem State.EndingBy.rowEnded {s1 : State} (E : s.EndingBy h i leave (s1.closeRow h) f t) (L : LeavesFor st leave)
    (hs : s1 = s ∨ s1 = s.updHead h fun x => { x with runHigh := false }) (B : s.BindingsOk) (hk : (s.head h).kind = some .loom)
    (hr : (s.head h).state.running = true) (hw : (s.head h).row = some w) (hp : s.productOf h = some r) (hb : r.body = .panel b) :
    s.RowClosed h r b w (s1.closeRow h) ∧ (s1.closeRow h).BoundBut h noRole (fun k => (s1.head k).kind) ∧
      ((s1.closeRow h).head h).product = some r.tag ∧ ∃ r', t.find r.tag = some r' ∧ s.EndsMaking h r r' t := by
  have hmake := (B.but h).product_making hp
  have ready {u : State} (Bu : u.BindingsOk) (hku : (u.head h).kind = some .loom) (hru : (u.head h).state.running = true)
      (hpu : u.productOf h = some r) : u.ReadyToEnd h r (fun k => (u.head k).kind) (u.closeRow h) := by
    have := State.rowless_ready (Bu.but h) hru hpu hmake
    rwa [State.rowless, if_pos hku] at this
  rcases hs with rfl | rfl
  · obtain ⟨r', hr', hends⟩ := (ready B hk hr hp).endsMaking B L.tag L.making hp E.ending E.clock E.slots
    exact ⟨State.closeRow_closed (B.but h) hk hr hw hp hb, State.closeRow_boundBut (B.but h),
      (State.closeRow_product _ h).trans (State.productOf_product hp), r', (State.find_of_store E.store _).trans hr',
      hends.of_beside E.store E.heads⟩
  · let fall := fun x : Head => { x with runHigh := false }
    let s1 := s.updHead h fall
    have B1 : s1.BindingsOk := State.updHead_bindingsOk (f := fall) (fun _ => rfl) B
    have hs1 : s1.head h = { s.head h with runHigh := false } := State.updHead_head ..
    have hk1 : (s1.head h).kind = some .loom := by rw [hs1]; exact hk
    have hr1 : (s1.head h).state.running = true := by rw [hs1]; exact hr
    have hw1 : (s1.head h).row = some w := by rw [hs1]; exact hw
    have hp1 : s1.productOf h = some r := (State.updHead_productOf (f := fall) fun _ => rfl).trans hp
    obtain ⟨r', hr', hends⟩ := (ready B1 hk1 hr1 hp1).endsMaking (f := fun _ => f s) B1 L.tag L.making hp1 E.ending E.clock E.slots
    exact ⟨(State.closeRow_closed (B1.but h) hk1 hr1 hw1 hp1 hb).of_head (g := fall) rfl, State.closeRow_boundBut (B1.but h),
      (State.closeRow_product _ h).trans (State.productOf_product hp1), r', (State.find_of_store E.store _).trans hr',
      hends.of_runHigh.of_beside E.store E.heads⟩

/-- Settles O24: what closes the row is `State.RowClosed`; the end of a binding then ends the making of what that leaves. -/
theorem rowCloseResult : Obligations.RowCloseResult := by
  unfold Obligations.RowCloseResult
  refine ⟨?_, ?_⟩
  · intro h s r b w i count S B hk hr hp hb hw hi charge
    obtain ⟨f, z, hexec, C, hf⟩ := exec_closesRow B hk hr hp hb hw hi
    obtain ⟨r', b', hr', hb', hsettles, hsources, hmade⟩ := C.result hf
    obtain ⟨row, watch, hhead⟩ := hf.head
    refine ⟨_, r', b', hexec, hr', hb', hsettles, hsources, fun n x y hn hx hf' hy => ?_, fun k hk' hle => ?_, fun hno hholds => ?_⟩
    · exact C.strand_result B hf.store hf.attn (by rw [hhead]; rfl) (by rw [hhead]) hn hx hf' hy
    · obtain ⟨hcut, hflag⟩ := C.ended k hk' (hmade ▸ hle)
      rw [State.change_head, State.flagged, State.change_attn, hf.attn, hhead]
      exact ⟨hcut, hflag⟩
    · rw [State.change_head, hhead] at hholds ⊢
      exact C.going (hmade ▸ hno) hholds
  · intro h s r b w i st S B R hk hr hp hb hw hi charge
    have hst : st ≠ .making := by rcases hi with ⟨-, -, -, rfl⟩ | ⟨-, -, -, rfl⟩ | ⟨_, _, -, -, -, rfl⟩ | ⟨-, -, -, rfl⟩ <;> nofun
    obtain ⟨s1, leave, f, t, hs1, L, E⟩ := exec_endsRow hk hr hi
    obtain ⟨C, Bz, hz, r'', hr'', hends⟩ := E.rowEnded L hs1 B hk hr hw hp hb
    have er := State.productOf_find hp
    have hm := (B.but h).product_making hp
    have hc : b.piece.Closed := (R r (State.find_mem er).1).closedPanel (by rw [Record.kind, hb]; rfl) _ (by rw [hb]; rfl)
    obtain ⟨r', b', hr', hb', hstate, hsettles, hmade⟩ := E.panel L C Bz hz er hm hst hc
    cases hr''.symm.trans hr'
    refine ⟨t, _, b', E.step, hr', hb', hstate, hends, hsettles, by rw [E.head]; exact E.row, by rw [E.head]; exact E.watch,
      fun n x y hn hx hf hy => ⟨?_, fun h0 hl hno => ?_, fun hout hreq hshort hst => ?_⟩, fun k hk hle hne => ?_⟩
    · obtain ⟨z, -, ez, -, hinUse, -⟩ := (B.but h).strand hx
      cases ez.symm.trans hf
      obtain ⟨x', hx', hs', hmark, hbody⟩ := E.strand L C Bz hz hn (State.fedBy_of_strand hx hf hy) hinUse
        ((B.but h).strand_ne_product (State.productOf_product hp) hx)
      refine ⟨x', hx', ?_, hmark, hbody⟩
      rw [hs']
      simp only [StrandBody.draw_spent]
      rfl
    · obtain ⟨-, -, -, hlow⟩ := C.strand n x y hn (State.fedBy_of_strand hx hf hy)
      obtain ⟨hflag, hcause⟩ := hlow h0 (by rw [StrandBody.draw_left]; exact hl) hno
      exact ⟨E.flagged hflag, E.cause (c := .feedLow) hcause⟩
    · obtain ⟨-, -, hheld, -⟩ := C.strand n x y hn (State.fedBy_of_strand hx hf hy)
      have hsp : (y.draw w.charge).spent = true := by
        rw [State.runsOut, State.fedBy_of_strand hx hf hy, Bool.and_eq_true, decide_eq_true_eq, decide_eq_true_eq] at hout
        exact StrandBody.draw_spent.mpr hout
      exact E.flagged ((hheld hsp hreq).2 hshort hst)
    · exact E.flagged ((C.ended k hk (hmade ▸ hle)).2 hne)

end Sys2Proof.Machine
end

section
/-! PROOF. The coils of a rope whose span list has changed (R30, R162): what the downgrade check makes of every record. -/

namespace Sys2Proof.Machine

variable {h k : HeadIx} {s t u : State} {r q x y : Record} {c : CoilBody} {b : RopeBody} {p : Piece} {n : Span} {j rope tag : Nat} {l : List Record}

/-! ## The check on one record -/

/-- A coil of grade SECOND; any other record stands. -/
def Record.second (r : Record) : Record := r.onCoil fun c => { c with grade := .second }

theorem Record.second_tag (r : Record) : r.second.tag = r.tag := Record.onCoil_tag ..

theorem Record.second_of (hc : x.body = .coil c) : x.second = { x with body := .coil { c with grade := .second } } := by
  rw [Record.second, Record.onCoil, hc]

theorem Record.second_plain (hx : x.kind ≠ .coil) : x.second = x := by
  unfold Record.second Record.onCoil
  split
  case h_1 c hc => exact absurd (by rw [Record.kind, hc]; rfl) hx
  all_goals rfl

theorem Record.second_rope : x.second.body = .rope b ↔ x.body = .rope b := by
  unfold Record.second Record.onCoil
  split
  case h_1 c hc => simp [hc]
  all_goals exact Iff.rfl

theorem Record.second_spans (r : Record) : r.second.spans = r.spans := by
  unfold Record.second Record.onCoil
  split
  case h_1 c hc => simp [Record.spans, hc, Body.piece]
  all_goals rfl

theorem Record.body_of_rope (hk : r.kind = .rope) : ∃ b, r.body = .rope b := by
  cases hb : r.body <;> simp [Record.kind, hb, Body.kind] at hk
  exact ⟨_, rfl⟩

theorem Record.body_of_coil (hk : r.kind = .coil) : ∃ c, r.body = .coil c := by
  cases hb : r.body <;> simp [Record.kind, hb, Body.kind] at hk
  exact ⟨_, rfl⟩

/-- Where the rest of a rope ends: its current end. -/
def Record.restEnd (r : Record) : Option Nat :=
  match r.body with
  | .rope b => some b.currentEnd
  | .strand _ | .panel _ | .coil _ => none

theorem Record.restEnd_rope (hb : r.body = .rope b) : r.restEnd = some b.currentEnd := by
  simp only [Record.restEnd, hb]

theorem Record.second_restEnd (r : Record) : r.second.restEnd = r.restEnd := by
  cases hb : r.body with
  | coil c => simp [Record.second_of hb, Record.restEnd, hb]
  | strand b => rw [Record.second_plain (by rw [Record.kind, hb]; nofun)]
  | rope b => rw [Record.second_plain (by rw [Record.kind, hb]; nofun)]
  | panel b => rw [Record.second_plain (by rw [Record.kind, hb]; nofun)]

/-- The current end of the rope that a head has as SOURCE. -/
def State.sourceEnd (s : State) (h : HeadIx) : Option Nat := (s.head h).source.bind fun k => (s.find k).bind Record.restEnd

theorem State.sourceOf_end (s : State) (h : HeadIx) : (s.sourceOf h).map (fun x => x.2.currentEnd) = s.sourceEnd h := by
  unfold State.sourceOf State.sourceEnd
  cases (s.head h).source with
  | none => rfl
  | some k =>
    rw [Option.bind_some, Option.bind_some]
    cases s.find k with
    | none => rfl
    | some r => cases hb : r.body <;> simp [Record.restEnd, hb]

/-- Two states alike in what the downgrade check on the coils of `rope` looks at: the heads, the current ends and the spans. -/
structure State.JudgesAlike (rope : Nat) (s t : State) : Prop where
  heads : ∀ h, t.head h = s.head h
  ends : ∀ k, (t.find k).bind Record.restEnd = (s.find k).bind Record.restEnd
  spans : t.spansOf rope = s.spansOf rope

theorem State.JudgesAlike.refl (rope : Nat) (s : State) : s.JudgesAlike rope s := ⟨fun _ => rfl, fun _ => rfl, rfl⟩

theorem State.JudgesAlike.trans (a : s.JudgesAlike rope t) (b : t.JudgesAlike rope u) : s.JudgesAlike rope u :=
  ⟨fun h => (b.heads h).trans (a.heads h), fun h => (b.ends h).trans (a.ends h), b.spans.trans a.spans⟩

/-- Without a source nothing is left to unwind; with one, what is left is below its current end. -/
theorem State.unwindPosition_eq (s : State) (h : HeadIx) : s.unwindPosition h =
    (s.sourceEnd h).getD 0 - (s.head h).unwound - (s.head h).unplanned := by
  rw [← State.sourceOf_end]
  unfold State.unwindPosition
  cases s.sourceOf h with
  | none => simp
  | some x => rfl

theorem State.judgedRange_eq (s : State) (r : Record) (c : CoilBody) : s.judgedRange r c =
    if r.state = .winding then
      (((s.head c.origin).segment.bind fun g => (s.sourceEnd c.origin).map fun e =>
        (min (s.unwindPosition c.origin) g.plannedLo, e)).getD (c.lo, c.hi))
    else (c.lo, c.hi) := by
  rw [← State.sourceOf_end]
  unfold State.judgedRange
  split
  · cases (s.head c.origin).segment with
    | none => rfl
    | some g =>
      cases s.sourceOf c.origin with
      | none => rfl
      | some x => rfl
  · rfl

/-- What a head says of the reach of the coil that it winds. -/
def Head.reach (x : Head) : Option Nat × Option Segment × Nat := (x.source, x.segment, x.unplanned)

theorem State.sourceEnd_congr (hhead : (t.head h).reach = (s.head h).reach)
    (hends : ∀ k, (s.head h).source = some k → (t.find k).bind Record.restEnd = (s.find k).bind Record.restEnd) :
    t.sourceEnd h = s.sourceEnd h := by
  simp only [Head.reach, Prod.mk.injEq] at hhead
  obtain ⟨hsource, -, -⟩ := hhead
  rw [State.sourceEnd, State.sourceEnd, hsource]
  cases e : (s.head h).source with
  | none => rfl
  | some k => exact hends k e

theorem State.unwindPosition_congr (hhead : (t.head h).reach = (s.head h).reach) (hend : t.sourceEnd h = s.sourceEnd h) :
    t.unwindPosition h = s.unwindPosition h := by
  simp only [Head.reach, Prod.mk.injEq] at hhead
  obtain ⟨-, hsegment, hunplanned⟩ := hhead
  simp only [State.unwindPosition_eq, hend, Head.unwound, hsegment, hunplanned]

theorem State.judgedRange_congr (c : CoilBody) (hhead : (t.head c.origin).reach = (s.head c.origin).reach)
    (hend : t.sourceEnd c.origin = s.sourceEnd c.origin) (r : Record) : t.judgedRange r c = s.judgedRange r c := by
  have hpos := State.unwindPosition_congr hhead hend
  simp only [Head.reach, Prod.mk.injEq] at hhead
  obtain ⟨-, hsegment, -⟩ := hhead
  simp only [State.judgedRange_eq, hpos, hsegment, hend]

theorem State.JudgesAlike.judgedRange (a : s.JudgesAlike rope t) (r : Record) (c : CoilBody) : t.judgedRange r c = s.judgedRange r c :=
  have hhead := congrArg Head.reach (a.heads c.origin)
  State.judgedRange_congr c hhead (State.sourceEnd_congr hhead fun k _ => a.ends k) r

theorem State.JudgesAlike.toDowngrade (a : s.JudgesAlike rope t) (r : Record) : t.toDowngrade rope r = s.toDowngrade rope r := by
  unfold State.toDowngrade
  cases r.body with
  | coil c => simp only [a.judgedRange, a.spans]
  | strand b => rfl
  | rope b => rfl
  | panel b => rfl

theorem State.toDowngrade_eq_some : s.toDowngrade rope r = some h ↔ ∃ c, r.body = .coil c ∧ c.belongs = true ∧ c.sourceRope = rope ∧
    (r.state = .winding ∨ r.state = .wound) ∧ c.grade = .first ∧
    meetsList (s.judgedRange r c).1 (s.judgedRange r c).2 (s.spansOf rope) = true ∧ c.origin = h := by
  unfold State.toDowngrade
  cases r.body with
  | coil c =>
    dsimp only
    split
    case isTrue hc =>
      obtain ⟨h1, h2, h3, h4, h5⟩ := hc
      simp [h1, h2, h3, h4, h5]
    case isFalse hc =>
      simp only [reduceCtorEq, Body.coil.injEq, false_iff]
      rintro ⟨c, rfl, h1, h2, h3, h4, h5, -⟩
      exact hc ⟨h1, h2, h3, h4, h5⟩
  | strand b => simp
  | rope b => simp
  | panel b => simp

/-- A coil that is graded SECOND is nothing to the rope of any head. -/
theorem State.updRec_second_alike (s : State) (k rope : Nat) : s.JudgesAlike rope (s.updRec k Record.second) := by
  refine ⟨fun _ => rfl, fun j => ?_, ?_⟩
  · rw [State.updRec_find Record.second_tag]
    cases s.find j with
    | none => rfl
    | some x =>
      simp only [Option.map_some, Option.bind_some]
      split
      · exact x.second_restEnd
      · rfl
  · unfold State.spansOf
    rw [State.updRec_find Record.second_tag, Option.map_map]
    congr 2
    funext x
    dsimp only [Function.comp]
    split
    · exact x.second_spans
    · rfl

/-- What the downgrade check leaves of a record (R162). -/
def State.judged (rope : Nat) (s : State) (r : Record) : Record := if (s.toDowngrade rope r).isSome then r.second else r

theorem State.judged_tag (rope : Nat) (s : State) (r : Record) : (s.judged rope r).tag = r.tag := by
  unfold State.judged
  split
  · exact r.second_tag
  · rfl

/-- COIL_DOWNGRADED stands raised at a head. -/
def State.NotesDowngrade (t : State) (h : HeadIx) : Prop := t.flagged h .alarm = true ∧ (t.attn.causesOf h).coilDowngraded = true

theorem State.Carries.notesDowngrade (a : s.Carries k t) (b : s.NotesDowngrade h) : t.NotesDowngrade h :=
  ⟨a.flags _ b.1, a.causes h .coilDowngraded b.2⟩

/-- The check on the records `l`, in turn: each of them is judged as it stood at first, and every other record stands. -/
structure State.JudgesAll (rope : Nat) (l : List Record) (s t : State) : Prop where
  alike : s.JudgesAlike rope t
  carries : ∀ h, s.Carries h t
  judged : ∀ r ∈ l, t.find r.tag = some (s.judged rope r) ∧ ∀ h, s.toDowngrade rope r = some h → t.NotesDowngrade h
  rest : ∀ j, (∀ r ∈ l, r.tag ≠ j) → t.find j = s.find j
  causes : t.attn.storeCauses = s.attn.storeCauses
  clock : t.clock = s.clock
  length : t.store.length = s.store.length

theorem State.judgeCoil_judges (er : s.find r.tag = some r) : s.JudgesAll rope [r] (s.judgeCoil rope r) := by
  unfold State.judgeCoil
  cases e : s.toDowngrade rope r with
  | none =>
    refine ⟨.refl rope s, fun h => .refl h s, fun x hx => ?_, fun _ _ => rfl, rfl, rfl, rfl⟩
    obtain rfl := List.mem_singleton.mp hx
    simp only [State.judged, e, Option.isSome_none, Bool.false_eq_true, if_false]
    exact ⟨er, nofun⟩
  | some o =>
    let u := s.updRec r.tag Record.second
    have hu : s.downgradeCoil r.tag o = u.raiseAlarm o .coilDowngraded := rfl
    dsimp only
    rw [hu]
    have hfind (j : Nat) : (u.raiseAlarm o .coilDowngraded).find j = u.find j := rfl
    refine ⟨?_, fun h => State.raiseAlarm_carries (State.updRec_carries (.refl h s)), fun x hx => ?_, fun j hj => ?_, rfl, rfl,
      by simp [u, State.updRec]⟩
    · obtain ⟨hheads, hends, hspans⟩ := s.updRec_second_alike r.tag rope
      exact ⟨hheads, hends, hspans⟩
    · obtain rfl := List.mem_singleton.mp hx
      refine ⟨?_, fun h eh => ?_⟩
      · rw [hfind, State.updRec_find Record.second_tag, er, State.judged, e]
        simp
      · cases e.symm.trans eh
        exact ⟨State.raiseAlarm_flagged .., State.raiseAlarm_has u o .coilDowngraded⟩
    · rw [hfind]
      exact State.find_updRec_ne Record.second_tag (hj r List.mem_cons_self).symm

theorem State.JudgesAll.append {l' : List Record} (a : s.JudgesAll rope l t) (b : t.JudgesAll rope l' u)
    (hdisj : ∀ r ∈ l, ∀ r' ∈ l', r.tag ≠ r'.tag) : s.JudgesAll rope (l ++ l') u := by
  refine ⟨a.alike.trans b.alike, fun h => (a.carries h).trans (b.carries h), fun r hr => ?_, fun j hj => ?_, b.causes.trans a.causes,
    b.clock.trans a.clock, b.length.trans a.length⟩
  · rcases List.mem_append.mp hr with hr | hr
    · obtain ⟨hfind, hnote⟩ := a.judged r hr
      exact ⟨(b.rest _ fun x hx e => hdisj r hr x hx e.symm).trans hfind, fun h e => (b.carries h).notesDowngrade (hnote h e)⟩
    · obtain ⟨hfind, hnote⟩ := b.judged r hr
      simp only [State.judged, a.alike.toDowngrade] at hfind hnote
      exact ⟨hfind, hnote⟩
  · exact (b.rest j fun r hr => hj r (List.mem_append_right l hr)).trans (a.rest j fun r hr => hj r (List.mem_append_left l' hr))

theorem State.judgeCoils_judges (rope : Nat) (l : List Record) : ∀ s : State, (l.map Record.tag).Nodup → (∀ r ∈ l, s.find r.tag = some r) →
    s.JudgesAll rope l (l.foldl (State.judgeCoil rope) s) := by
  induction l with
  | nil => exact fun s _ _ => ⟨.refl rope s, fun h => .refl h s, fun _ hr => absurd hr List.not_mem_nil, fun _ _ => rfl, rfl, rfl, rfl⟩
  | cons r l ih =>
    intro s hnodup hl
    obtain ⟨hnot, hnodup⟩ := List.nodup_cons.mp hnodup
    have hdisj (x : Record) (hx : x ∈ l) : r.tag ≠ x.tag := fun e => hnot (e ▸ List.mem_map_of_mem hx)
    have first := State.judgeCoil_judges (rope := rope) (hl r List.mem_cons_self)
    have rest := ih (s.judgeCoil rope r) hnodup fun x hx =>
      (first.rest x.tag fun y hy => by rw [List.mem_singleton.mp hy]; exact hdisj x hx).trans (hl x (List.mem_cons_of_mem r hx))
    exact first.append rest fun x hx y hy => by rw [List.mem_singleton.mp hx]; exact hdisj y hy

/-- The downgrade check judges every live record (R30, R162). -/
theorem State.downgradeCoils_judges (S : s.StoreOk) (rope : Nat) : s.JudgesAll rope s.store (s.downgradeCoils rope) :=
  State.judgeCoils_judges rope s.store s (List.pairwise_map.mpr (S.ascending.imp Nat.ne_of_lt)) fun _ hr => S.find_of_mem hr

/-! ## A span added to a rope -/

/-- What the check makes of coil `y` where the list of `rope` has become `l` (R162): SECOND with COIL_DOWNGRADED, or as it was. Its mark
steps with the whole change. -/
def State.Regrades (rope : Nat) (l : List Span) (s t : State) (y : Record) (c : CoilBody) : Prop :=
  if l ≠ s.spansOf rope ∧ c.belongs = true ∧ c.sourceRope = rope ∧ (y.state = .winding ∨ y.state = .wound) ∧ c.grade = .first ∧
      meetsList (s.judgedRange y c).1 (s.judgedRange y c).2 l = true then
    t.find y.tag = some { y with body := .coil { c with grade := .second } } ∧ t.NotesDowngrade c.origin
  else t.find y.tag = some y

/-- A record as a span is normalized into the list of its piece `p` (R25, R26). -/
def Record.spanAdded (n : Span) (p : Piece) (r : Record) : Record :=
  { r.withPiece { p with spans := (normalize n p.spans).1 } with spansMerged := r.spansMerged || (normalize n p.spans).2 }

theorem Record.spanAdded_rope (hb : r.body = .rope b) : (r.spanAdded n b.piece).body =
    .rope { b with piece := { b.piece with spans := (normalize n b.piece.spans).1 } } := by
  rw [Record.spanAdded, Record.withPiece, hb]
  rfl

theorem Record.spanAdded_restEnd (hp : r.body.piece = some p) : (r.spanAdded n p).restEnd = r.restEnd := by
  cases hb : r.body with
  | rope b =>
    rw [hb] at hp
    cases hp
    rw [Record.restEnd_rope (Record.spanAdded_rope hb), Record.restEnd_rope hb]
    rfl
  | strand b => simp [Record.restEnd, Record.spanAdded, Record.withPiece, hb, Body.withPiece]
  | panel b => simp [Record.restEnd, Record.spanAdded, Record.withPiece, hb, Body.withPiece]
  | coil c => simp [Record.restEnd, Record.spanAdded, Record.withPiece, hb, Body.withPiece]

theorem Record.spans_rope (hb : r.body = .rope b) : r.spans = b.piece.spans := by
  rw [Record.spans, hb]
  rfl

theorem State.spansOf_rope (er : s.find j = some r) (hb : r.body = .rope b) : s.spansOf j = b.piece.spans := by
  rw [State.spansOf, er]
  exact Record.spans_rope hb

/-- SPAN_MERGED stands raised for a record so bound: at its head, or at the device (R26, R170). -/
structure State.NotesMerge (bound : Option (HeadIx × Role)) (t : State) : Prop where
  head : ∀ k ro, bound = some (k, ro) → t.flagged k .alarm = true ∧ (t.attn.causesOf k).spanMerged = true
  device : bound = none → t.attn.flag 65 = true ∧ t.attn.storeCauses.alarms.spanMerged = true

theorem State.raiseAt_notesMerge (bound : Option (HeadIx × Role)) (s : State) : (s.raiseAt bound .spanMerged).NotesMerge bound := by
  cases bound with
  | none => exact ⟨nofun, fun _ => ⟨State.raiseStore_flag .., rfl⟩⟩
  | some x =>
    obtain ⟨k, ro⟩ := x
    refine ⟨fun k' ro' e => ?_, nofun⟩
    cases e
    exact ⟨State.raiseAlarm_flagged .., State.raiseAlarm_has s k .spanMerged⟩

theorem State.Carries.notesMerge {bound : Option (HeadIx × Role)} (a : s.Carries h t) (hc : t.attn.storeCauses = s.attn.storeCauses)
    (b : s.NotesMerge bound) : t.NotesMerge bound :=
  ⟨fun k ro e => ⟨a.flags _ (b.head k ro e).1, a.causes k .spanMerged (b.head k ro e).2⟩,
    fun e => ⟨a.flags 65 (b.device e).1, by rw [hc]; exact (b.device e).2⟩⟩

/-- What a span added to rope `r` leaves of the store, the heads and what was raised (R26, R30, R162). -/
structure State.SpanAdded (r : Record) (b : RopeBody) (n : Span) (s t : State) : Prop where
  rope : t.find r.tag = some (r.spanAdded n b.piece)
  coils : ∀ y c, s.find y.tag = some y → y.body = .coil c → s.Regrades r.tag (normalize n b.piece.spans).1 t y c
  others : ∀ k y, s.find k = some y → k ≠ r.tag → y.kind ≠ .coil → t.find k = some y
  dead : ∀ k, s.find k = none → t.find k = none
  heads : ∀ k, t.head k = s.head k
  ends : ∀ k, (t.find k).bind Record.restEnd = (s.find k).bind Record.restEnd
  carries : ∀ k, s.Carries k t
  merged : (normalize n b.piece.spans).2 = true → t.NotesMerge r.bound
  clock : t.clock = s.clock
  length : t.store.length = s.store.length

/-- A span normalized into the list of a live record (R25, R26). -/
theorem State.normalizeInto_find (er : s.find j = some r) (hp : r.body.piece = some p) (n : Span) :
    (s.normalizeInto j n).find j = some (r.spanAdded n p) := State.onPiece_find er hp

theorem State.normalizeInto_merged (er : s.find j = some r) (hp : r.body.piece = some p) (hm : (normalize n p.spans).2 = true) :
    (s.normalizeInto j n).NotesMerge r.bound := by
  have hq : (p.addSpan n).2 = true := hm
  simp only [State.normalizeInto, State.onPiece, er, hp, hq, if_true]
  exact State.raiseAt_notesMerge ..

theorem State.raiseAt_store (bound : Option (HeadIx × Role)) (x : Alarm) (s : State) : (s.raiseAt bound x).store = s.store := by
  unfold State.raiseAt
  split <;> rfl

theorem State.onPiece_tags (j : Nat) (f : Piece → Piece × Bool) (s : State) :
    (s.onPiece j f).store.map Record.tag = s.store.map Record.tag := by
  unfold State.onPiece
  split
  · rfl
  · split
    · rfl
    · dsimp only
      split
      · rw [State.raiseAt_store]
        exact State.updRec_tags fun _ => rfl
      · exact State.updRec_tags fun _ => rfl

theorem State.onPiece_dead {f : Piece → Piece × Bool} (e : s.find j = none) : (s.onPiece tag f).find j = none := by
  by_cases hk : j = tag
  · subst hk
    rw [State.onPiece, e]
    exact e
  · rw [State.onPiece_find_ne hk]
    exact e

theorem State.normalizeInto_ends (j : Nat) (n : Span) (s : State) (k : Nat) :
    ((s.normalizeInto j n).find k).bind Record.restEnd = (s.find k).bind Record.restEnd := by
  by_cases hk : k = j
  · subst hk
    cases er : s.find k with
    | none => rw [State.normalizeInto, State.onPiece_dead (tag := k) er]
    | some r =>
      cases hp : r.body.piece with
      | none =>
        rw [State.normalizeInto, State.onPiece, er]
        dsimp only
        rw [hp, er]
      | some p =>
        rw [State.normalizeInto_find er hp, Option.bind_some, Option.bind_some]
        exact Record.spanAdded_restEnd hp
  · rw [State.normalizeInto, State.onPiece_find_ne hk]

/-- A span added to a rope, with the check of its coils (R25, R26, R30, R162). -/
theorem State.addRopeSpan_adds (S : s.StoreOk) (er : s.find r.tag = some r) (hb : r.body = .rope b) (n : Span) :
    s.SpanAdded r b n (s.addRopeSpan r.tag n) := by
  have hp : r.body.piece = some b.piece := by rw [hb]; rfl
  let u := s.normalizeInto r.tag n
  have hu : u.find r.tag = some (r.spanAdded n b.piece) := State.normalizeInto_find er hp n
  have hub := Record.spanAdded_rope (n := n) hb
  have huspans : u.spansOf r.tag = (normalize n b.piece.spans).1 := State.spansOf_rope hu hub
  have hspans : s.spansOf r.tag = b.piece.spans := State.spansOf_rope er hb
  have hother (k : Nat) (hk : k ≠ r.tag) : u.find k = s.find k := State.onPiece_find_ne hk
  have hheads (k : HeadIx) : u.head k = s.head k := State.onPiece_head ..
  have hends : ∀ k, (u.find k).bind Record.restEnd = (s.find k).bind Record.restEnd := State.normalizeInto_ends r.tag n s
  have hcarries (k : HeadIx) : s.Carries k u := State.onPiece_carries (.refl k s)
  have hmerge := State.normalizeInto_merged (n := n) er hp
  have htags : u.store.map Record.tag = s.store.map Record.tag := State.onPiece_tags ..
  have hlength : u.store.length = s.store.length := by rw [← List.length_map (f := Record.tag), htags, List.length_map]
  have hdead (k : Nat) (e : s.find k = none) : u.find k = none := State.onPiece_dead e
  have hcoil (y : Record) (c : CoilBody) (hy : y.body = .coil c) (e : s.find y.tag = some y) : y.tag ≠ r.tag := by
    intro ht
    rw [ht, er] at e
    cases e
    cases hb.symm.trans hy
  unfold State.addRopeSpan
  dsimp only
  split
  case isTrue hsame =>
    have hsame : u.spansOf r.tag = s.spansOf r.tag := hsame
    refine ⟨hu, fun y c hy hc => ?_, fun k y hy hk _ => (hother k hk).trans hy, hdead, hheads, hends, hcarries,
      hmerge, State.onPiece_clock .., hlength⟩
    have hl : (normalize n b.piece.spans).1 = s.spansOf r.tag := by rw [← huspans]; exact hsame
    rw [State.Regrades, if_neg fun hc => hc.1 hl]
    exact (hother _ (hcoil y c hc hy)).trans hy
  case isFalse hnew =>
    have hnew : u.spansOf r.tag ≠ s.spansOf r.tag := hnew
    have uS : u.StoreOk := S.of_tags htags
    have J := State.downgradeCoils_judges uS r.tag
    have judged (y : Record) (e : u.find y.tag = some y) : (u.downgradeCoils r.tag).find y.tag = some (u.judged r.tag y) ∧
        ∀ h, u.toDowngrade r.tag y = some h → (u.downgradeCoils r.tag).NotesDowngrade h := J.judged y (State.find_mem e).1
    have plain (k : Nat) (y : Record) (hk : y.kind ≠ .coil) (e : u.find k = some y) : (u.downgradeCoils r.tag).find k = some y := by
      obtain ⟨-, rfl⟩ := State.find_mem e
      rw [(judged y e).1, State.judged, Record.second_plain hk, ite_self]
    refine ⟨?_, fun y c hy hc => ?_, fun k y hy hk hkind => ?_, fun k e => ?_, fun k => (J.alike.heads k).trans (hheads k),
      fun k => (J.alike.ends k).trans (hends k), fun k => (hcarries k).trans (J.carries k),
      fun hm => (J.carries 0).notesMerge J.causes (hmerge hm), J.clock.trans (State.onPiece_clock ..), J.length.trans hlength⟩
    · exact plain _ _ (by rw [Record.kind, hub]; nofun) hu
    · have hyu : u.find y.tag = some y := (hother _ (hcoil y c hc hy)).trans hy
      obtain ⟨hfind, hnote⟩ := judged y hyu
      have hwhen : (u.toDowngrade r.tag y).isSome = true ↔ c.belongs = true ∧ c.sourceRope = r.tag ∧
          (y.state = .winding ∨ y.state = .wound) ∧ c.grade = .first ∧
          meetsList (s.judgedRange y c).1 (s.judgedRange y c).2 (normalize n b.piece.spans).1 = true := by
        rw [Option.isSome_iff_exists]
        have hrange (c : CoilBody) : u.judgedRange y c = s.judgedRange y c :=
          State.judgedRange_congr c (congrArg Head.reach (hheads _)) (State.sourceEnd_congr (congrArg Head.reach (hheads _)) fun k _ => hends k) y
        simp only [State.toDowngrade_eq_some, hc, Body.coil.injEq, huspans, hrange]
        constructor
        · rintro ⟨h, c, rfl, h1, h2, h3, h4, h5, -⟩
          exact ⟨h1, h2, h3, h4, h5⟩
        · rintro ⟨h1, h2, h3, h4, h5⟩
          exact ⟨c.origin, c, rfl, h1, h2, h3, h4, h5, rfl⟩
      have hl : (normalize n b.piece.spans).1 ≠ s.spansOf r.tag := by rw [← huspans]; exact hnew
      rw [State.Regrades]
      split
      case isTrue hgo =>
        obtain ⟨o, ho⟩ := Option.isSome_iff_exists.mp (hwhen.mpr hgo.2)
        obtain ⟨c', hc', -, -, -, -, -, horigin⟩ := State.toDowngrade_eq_some.mp ho
        cases hc.symm.trans hc'
        rw [State.judged, ho, Option.isSome_some, if_pos rfl, Record.second_of hc] at hfind
        exact ⟨hfind, horigin ▸ hnote o ho⟩
      case isFalse hstay =>
        have hno : ¬(u.toDowngrade r.tag y).isSome = true := fun e => hstay ⟨hl, hwhen.mp e⟩
        rw [State.judged, if_neg hno] at hfind
        exact hfind
    · exact plain k y hkind ((hother k hk).trans hy)
    · have hno : u.find k = none := hdead k e
      refine (J.rest k ?_).trans hno
      rintro x hx rfl
      rw [uS.find_of_mem hx] at hno
      cases hno

end Sys2Proof.Machine
end

section
/-! PROOF. ADD_SPAN (R25, R26, R30, R47, R48, R49, R127, R162). -/

namespace Sys2Proof.Machine

variable {h k : HeadIx} {s t u : State} {r q x y : Record} {c : CoilBody} {b : RopeBody} {d : StrandBody} {p : Piece} {n : Span} {m : SlotIx}
  {tag lo hi code rope : Nat} {mark : Mark} {l l' : List Span} {port : Port} {f : State → State} {kind : SpanKind}

/-! ## The answer -/

theorem answerAddSpan_badField (hp : s.mayTouch port tag = true) (er : s.find tag = some r) (hk : r.kind ≠ .coil)
    (hst : r.state.takesSpans = true) (hm : mark = r.mark) (hbad : hi ≤ lo ∨ r.made < hi ∨ (code ≠ 1 ∧ code ≠ 2)) :
    answerAddSpan port tag mark lo hi code s = s.refuse .badField := by
  have hno : ¬(hi ≤ lo ∨ r.made < hi) → addedKindOf code = none := fun hin => by
    obtain ⟨h1, h2⟩ := (or_assoc.mpr hbad).resolve_left hin
    unfold addedKindOf
    split <;> simp_all
  by_cases hin : hi ≤ lo ∨ r.made < hi
  · simp [answerAddSpan, hp, er, hk, hst, hm, hin]
  · simp [answerAddSpan, hp, er, hk, hst, hm, hin, hno hin]

/-- A span in range, of a kind that may be added, reaches the check of the BANDED coils (R48). -/
theorem answerAddSpan_ok (hp : s.mayTouch port tag = true) (er : s.find tag = some r) (hk : r.kind ≠ .coil)
    (hst : r.state.takesSpans = true) (hm : mark = r.mark) (hlo : lo < hi) (hhi : hi ≤ r.made)
    (hcode : (code = 1 ∧ kind = .splice) ∨ (code = 2 ∧ kind = .flaw)) :
    answerAddSpan port tag mark lo hi code s =
      if r.kind = .rope ∧ s.reachesBanded tag (Span.closed lo hi (KindSet.only kind)) = true then s.refuse .wrongState
      else s.doneMark tag (State.addSpanTo r (Span.closed lo hi (KindSet.only kind))) := by
  have hin : ¬(hi ≤ lo ∨ r.made < hi) := by omega
  have hadded : addedKindOf code = some kind := by rcases hcode with ⟨rfl, rfl⟩ | ⟨rfl, rfl⟩ <;> rfl
  simp [answerAddSpan, hp, er, hk, hst, hm, hin, hadded]

theorem RecordState.takesSpans_of {st : RecordState} (hst : st = .making ∨ st = .interrupted ∨ st = .made ∨ st = .inUse) :
    st.takesSpans = true := by
  rcases hst with rfl | rfl | rfl | rfl <;> rfl

/-! ## What the mark counts of a span list -/

/-- Two span lists along the same piece that count alike are alike: an open span ends at the top (R9, R24). -/
theorem spans_eq_of_counted {top : Nat} (hl : ∀ z ∈ l, z.isOpen = true → z.hi = top) (hl' : ∀ z ∈ l', z.isOpen = true → z.hi = top)
    (e : l.map Span.counted = l'.map Span.counted) : l = l' := by
  induction l generalizing l' with
  | nil => exact (List.map_eq_nil_iff.mp e.symm).symm
  | cons a l ih =>
    obtain ⟨a', l', rfl⟩ : ∃ a' m, l' = a' :: m := List.exists_cons_of_ne_nil fun e' => by subst e'; cases e
    obtain ⟨ha, hrest⟩ := List.cons.inj e
    have htail := ih (fun z hz => hl z (List.mem_cons_of_mem a hz)) (fun z hz => hl' z (List.mem_cons_of_mem a' hz)) hrest
    have hopen : a.isOpen = a'.isOpen := by
      have := congrArg Span.isOpen ha
      unfold Span.counted at this
      split at this <;> split at this <;> simpa using this
    have hhead : a = a' := by
      cases ho : a.isOpen
      · simpa [Span.counted, ho, hopen ▸ ho] using ha
      · have h1 := hl a List.mem_cons_self ho
        have h2 := hl' a' List.mem_cons_self (hopen ▸ ho)
        cases a
        cases a'
        simp_all [Span.counted]
    rw [hhead, htail]

theorem Record.spanAdded_spans (hp : r.body.piece = some p) (n : Span) : (r.spanAdded n p).spans = (normalize n p.spans).1 := by
  rw [Record.spans, show (r.spanAdded n p).body.piece = some { p with spans := (normalize n p.spans).1 } from Body.withPiece_piece hp]
  rfl

theorem Record.spans_piece (hp : r.body.piece = some p) : r.spans = p.spans := by
  rw [Record.spans, hp]
  rfl

theorem Record.made_piece (hp : r.body.piece = some p) : r.made = p.made := by
  rw [Record.made, hp]
  rfl

/-- Of all that the mark counts, an added span changes the span list alone. -/
theorem Record.spanAdded_counted (hp : r.body.piece = some p) (n : Span) :
    (r.spanAdded n p).counted = { r.counted with spans := (normalize n p.spans).1.map Span.counted } := by
  rw [Record.counted, Record.counted, Record.spanAdded_spans hp]
  cases hb : r.body with
  | strand d => simp [Record.spanAdded, Record.withPiece, hb, Body.withPiece, Body.spec, Body.sources]
  | rope d => simp [Record.spanAdded, Record.withPiece, hb, Body.withPiece, Body.spec, Body.sources]
  | panel d => simp [Record.spanAdded, Record.withPiece, hb, Body.withPiece, Body.spec, Body.sources]
  | coil d =>
    rw [hb] at hp
    cases hp

/-! ## The change -/

/-- A record `r` with the piece `p`, to which a span is added from `s` to `t` (R25, R26). -/
structure State.TakesSpan (r : Record) (p : Piece) (n : Span) (s t : State) : Prop where
  record : t.find r.tag = some (r.spanAdded n p)
  merged : (normalize n p.spans).2 = true → t.NotesMerge r.bound
  clock : t.clock = s.clock

theorem State.normalizeInto_takes (er : s.find r.tag = some r) (hp : r.body.piece = some p) (n : Span) :
    s.TakesSpan r p n (s.normalizeInto r.tag n) :=
  ⟨State.normalizeInto_find er hp n, State.normalizeInto_merged er hp, State.onPiece_clock ..⟩

/-- A strand in slot `m` whose list has changed, where its top is judged again (R127). -/
theorem State.rejudgeTop_eq (hf : s.fedBy h m = some (x, d)) (hq : s.productOf h = some q) : s.rejudgeTop h m =
    if (s.head h).kind = some .closer ∧ ((s.head h).slot m).spanHolding = false ∧ topInside d.top d.piece.spans = true then
      (s.updSlot h m fun x => { x with spanHolding := true }).addHolder q.tag (.feed m) q.made
    else s := by
  simp only [State.rejudgeTop, hf, hq]

theorem State.addHolder_find_ne {x : Holder} {j start : Nat} (hk : tag ≠ j) : (s.addHolder j x start).find tag = s.find tag := by
  unfold State.addHolder
  split
  · split
    · exact State.onPiece_find_ne hk
    · rfl
  · rfl

theorem State.addHolder_clock {x : Holder} {j start : Nat} : (s.addHolder j x start).clock = s.clock := by
  unfold State.addHolder
  split
  · split
    · exact State.onPiece_clock ..
    · rfl
  · rfl

theorem State.onPiece_storeCauses {g : Piece → Piece × Bool} {j : Nat} :
    s.attn.storeCauses.alarms.spanMerged = true → (s.onPiece j g).attn.storeCauses.alarms.spanMerged = true := by
  intro hs
  unfold State.onPiece
  split
  · exact hs
  · split
    · exact hs
    · dsimp only
      split
      · unfold State.raiseAt
        split
        · exact hs
        · rfl
      · exact hs

theorem State.NotesMerge.addHolder {bound : Option (HeadIx × Role)} {x : Holder} {j start : Nat} (a : s.NotesMerge bound) :
    (s.addHolder j x start).NotesMerge bound := by
  have hcarries (k : HeadIx) : s.Carries k (s.addHolder j x start) := State.addHolder_carries (.refl k s)
  refine ⟨fun k ro e => ⟨(hcarries k).flags _ (a.head k ro e).1, (hcarries k).causes k .spanMerged (a.head k ro e).2⟩, fun e => ?_⟩
  refine ⟨(hcarries 0).flags 65 (a.device e).1, ?_⟩
  unfold State.addHolder
  split
  · split
    · exact State.onPiece_storeCauses (a.device e).2
    · exact (a.device e).2
  · exact (a.device e).2

/-- Judging the top of a strand touches its slot and the product alone. -/
theorem State.TakesSpan.rejudgeTop (a : s.TakesSpan r p n t) (hq : (t.head h).product ≠ some r.tag) :
    s.TakesSpan r p n (t.rejudgeTop h m) := by
  unfold State.rejudgeTop
  split
  case h_1 z e q _ eq =>
    split
    case isTrue =>
      have hne : r.tag ≠ q.tag := fun e => hq (e ▸ State.productOf_product eq)
      refine ⟨(State.addHolder_find_ne hne).trans a.record, fun hm => State.NotesMerge.addHolder ?_, State.addHolder_clock.trans a.clock⟩
      obtain ⟨hhead, hdevice⟩ := a.merged hm
      exact ⟨hhead, hdevice⟩
    case isFalse => exact a
  case h_2 => exact a

theorem State.BindingsOk.slot_of (B : s.BindingsOk) (er : s.find r.tag = some r) (hb : r.bound = some (h, .feed m)) :
    ((s.head h).slot m).strand = some r.tag := B.bound r.tag r h _ er hb

theorem State.addSpanTo_takes (S : s.StoreOk) (B : s.BindingsOk) (er : s.find r.tag = some r) (hp : r.body.piece = some p) (n : Span) :
    s.TakesSpan r p n (s.addSpanTo r n) := by
  have plain := State.normalizeInto_takes er hp n
  unfold State.addSpanTo
  split
  case h_1 hk =>
    obtain ⟨b, hb⟩ := Record.body_of_rope hk
    rw [hb] at hp
    cases hp
    have A := State.addRopeSpan_adds S er hb n
    exact ⟨A.rope, A.merged, A.clock⟩
  case h_2 hk =>
    dsimp only
    split
    case h_1 h m hb =>
      split
      · exact plain
      · refine plain.rejudgeTop ?_
        rw [State.normalizeInto, State.onPiece_head]
        exact fun e => (B.but h).strand_ne_product e (B.slot_of er hb) rfl
    all_goals exact plain
  all_goals exact plain

/-- What the check makes of a coil, as the whole change shows it: a regrading steps the mark (R9, R162). -/
theorem State.Regrades.judges (ey : s.find y.tag = some y) (hc : y.body = .coil c) (hclock : (f s).clock = s.clock)
    (a : s.Regrades rope l (f s) y c) : s.Judges rope l (s.change f) y c := by
  unfold State.Regrades at a
  unfold State.Judges
  split at a
  case isTrue hgo =>
    obtain ⟨hfind, hflag, hcause⟩ := a
    rw [if_pos hgo]
    refine ⟨?_, hflag, hcause⟩
    rw [State.change_find ey hfind, Record.stepMark_step, hclock]
    intro e
    have := congrArg Counted.grade e
    simp only [Record.counted, hc, Option.some.injEq] at this
    exact absurd (hgo.2.2.2.2.1.symm.trans this) nofun
  case isFalse hstay =>
    rw [if_neg hstay]
    exact State.change_find_same ey a rfl

/-- The record after the change of an ADD_SPAN, and its mark (R9, R49). -/
theorem State.TakesSpan.result (a : s.TakesSpan r p n (f s)) (er : s.find r.tag = some r) (hp : r.body.piece = some p)
    (ho : n.isOpen = false) (hn : p.Ok → n.Ok p.made) :
    ∃ r', (s.change f).find r.tag = some r' ∧ r'.spans = (normalize n r.spans).1 ∧ r'.state = r.state ∧ r'.made = r.made ∧
      (r'.spans = r.spans → r'.mark = r.mark ∧ r'.changed = r.changed) ∧
      (s.RecordsOk → r'.spans ≠ r.spans → r'.mark = r.mark + 1 ∧ r'.changed = s.clock.seconds) ∧
      r'.spansMerged = (r.spansMerged || (normalize n r.spans).2) := by
  let x := r.spanAdded n p
  have hspans : x.spans = (normalize n r.spans).1 := by rw [Record.spans_piece hp]; exact Record.spanAdded_spans hp n
  have hcount : x.counted = { r.counted with spans := x.spans.map Span.counted } := by
    rw [hspans, Record.spans_piece hp]
    exact Record.spanAdded_counted hp n
  have hmade : x.made = r.made := by
    rw [Record.made_piece hp, Record.made_piece (p := { p with spans := (normalize n p.spans).1 }) (Body.withPiece_piece hp)]
  obtain ⟨hstate, hbody, -, -, -⟩ := Record.stepMark_fields s.clock.seconds r x
  have hmerged : (Record.stepMark s.clock.seconds r x).spansMerged = x.spansMerged := by
    unfold Record.stepMark
    split <;> rfl
  have hspans' : (Record.stepMark s.clock.seconds r x).spans = x.spans := by rw [Record.spans, hbody]; rfl
  refine ⟨Record.stepMark s.clock.seconds r x, ?_, ?_, hstate, ?_, fun e => ?_, fun R e => ?_, ?_⟩
  · rw [State.change_find er a.record, a.clock]
  · rw [hspans', hspans]
  · rw [Record.made, hbody]
    exact hmade
  · rw [hspans'] at e
    rw [Record.stepMark_same (by rw [hcount, e]; rfl)]
    exact ⟨rfl, rfl⟩
  · rw [hspans'] at e
    have hpok : p.Ok := (R r (State.find_mem er).1).piece p hp
    have hqok : (p.addSpan n).1.Ok := Piece.addSpan_ok hpok (hn hpok) (by rw [ho]; nofun)
    rw [Record.stepMark_step fun hcounted => e ?_]
    · exact ⟨rfl, rfl⟩
    · have hsame : r.spans.map Span.counted = x.spans.map Span.counted := by
        have := congrArg Counted.spans hcounted
        rwa [hcount] at this
      refine (spans_eq_of_counted (top := p.made) (fun z hz hz' => ?_) (fun z hz hz' => ?_) hsame).symm
      · rw [Record.spans_piece hp] at hz
        exact (hpok.list.spans z hz).openTop hz'
      · rw [hspans, Record.spans_piece hp] at hz
        exact (hqok.list.spans z hz).openTop hz'
  · rw [hmerged, Record.spans_piece hp]
    rfl

/-- The product of a closer, as the bindings have it (R12). -/
theorem State.BoundBut.closer_product {K : HeadIx → Option MachineKind} (B : s.BoundBut h noRole K) (hk : (s.head h).kind = some .closer)
    (hp : s.productOf h = some q) : ∃ b, q.body = .rope b := by
  obtain ⟨z, kd, hz, -, ek, hbinds, -⟩ := B.get (ro := .product) (State.productOf_product hp)
  cases hz.symm.trans (State.productOf_find hp)
  cases hk.symm.trans ek
  refine Record.body_of_rope ?_
  simp only [MachineKind.binds, MachineKind.product, Option.some.injEq, decide_eq_true_eq] at hbinds
  exact hbinds.symm

/-- FEEDn on the rope of a closer, added in a change (R27, R127). -/
theorem State.addHolder_hasHolder {x : Holder} {start : Nat} (hpok : p.Ok) (er : s.find q.tag = some q) (hm : q.state = .making)
    (hk : q.kind ≠ .panel) (hp : q.body.piece = some p) : (s.addHolder q.tag x start).hasHolder q.tag x = true := by
  rw [State.hasHolder_of_piece (State.addHolder_pieceOf_some er hm hk hp x start)]
  exact (Piece.addHolder_heldFrom hpok x start).hasHolder (Piece.addHolder_ok hpok)

theorem topInside_iff {top : Nat} : topInside top l = true ↔ ∃ x ∈ l, x.lo < top ∧ top ≤ x.hi := by
  simp [topInside, List.any_eq_true]

/-- A strand in a slot of a closer whose top comes to lie inside a span gives the rope FEEDn (R127). -/
theorem State.addSpanTo_holds (B : s.BindingsOk) (er : s.find r.tag = some r) (hb : r.body = .strand d)
    (hbound : r.bound = some (h, .feed m)) (hk : (s.head h).kind = some .closer) (hs : ((s.head h).slot m).spanHolding = false)
    (hnew : (normalize n d.piece.spans).1 ≠ d.piece.spans) (hin : topInside d.top (normalize n d.piece.spans).1 = true) :
    (((s.addSpanTo r n).head h).slot m).spanHolding = true ∧
      (s.RecordsOk → ∀ q, s.productOf h = some q → (s.addSpanTo r n).hasHolder q.tag (.feed m) = true) := by
  have hslot := B.slot_of er hbound
  obtain ⟨j, hj⟩ : ∃ j, (s.head h).product = some j :=
    Option.ne_none_iff_exists'.mp (B.feeds h m (by rw [Head.named, hslot]; nofun))
  obtain ⟨q, -, hq, hqb, -⟩ := B.named h .product j hj
  obtain ⟨-, rfl⟩ := State.find_mem hq
  have hproduct : s.productOf h = some q := State.productOf_of hj hq
  have hne : q.tag ≠ r.tag := ((B.but h).strand_ne_product hj hslot).symm
  let d' : StrandBody := { d with piece := { d.piece with spans := (normalize n d.piece.spans).1 } }
  let s1 := s.normalizeInto r.tag n
  have hp : r.body.piece = some d.piece := by rw [hb]; rfl
  have hr1 : s1.find r.tag = some (r.spanAdded n d.piece) := State.normalizeInto_find er hp n
  have hb1 : (r.spanAdded n d.piece).body = .strand d' := by
    rw [Record.spanAdded, Record.withPiece, hb]
    rfl
  have hq1 : s1.find q.tag = some q := (State.onPiece_find_ne hne).trans hq
  have hhead : s1.head h = s.head h := State.onPiece_head ..
  have hfed : s1.fedBy h m = some (r.spanAdded n d.piece, d') := State.fedBy_of_strand (by rw [hhead]; exact hslot) hr1 hb1
  have hproduct1 : s1.productOf h = some q := State.productOf_of (by rw [hhead]; exact hj) hq1
  have hspans : s1.spansOf r.tag ≠ s.spansOf r.tag := by
    rw [State.spansOf, hr1, State.spansOf, er, Option.map_some, Option.map_some, Option.getD_some, Option.getD_some,
      Record.spanAdded_spans hp, Record.spans_piece hp]
    exact hnew
  have hstep : s.addSpanTo r n = (s1.updSlot h m fun x => { x with spanHolding := true }).addHolder q.tag (.feed m) q.made := by
    have hgo := State.rejudgeTop_eq hfed hproduct1
    rw [hhead, if_pos ⟨hk, hs, hin⟩] at hgo
    rw [← hgo]
    have hkind : r.kind = .strand := by rw [Record.kind, hb]; rfl
    simp only [State.addSpanTo, hkind, hbound]
    exact if_neg hspans
  rw [hstep]
  refine ⟨?_, fun R q' hq' => ?_⟩
  · rw [State.addHolder_head, State.updSlot_head, Head.updSlot_slot]
  · cases hproduct.symm.trans hq'
    obtain ⟨b, hqrope⟩ := (B.but h).closer_product hk hproduct
    exact State.addHolder_hasHolder ((R q (State.find_mem hq).1).piece _ (by rw [hqrope]; rfl)) hq1 ((B.but h).product_making hproduct)
      (by rw [Record.kind, hqrope]; nofun) (by rw [hqrope]; rfl)

/-- Settles O31: the record takes the span, the coils of a rope are judged, and a strand's top is judged again. -/
theorem addSpanResult : Obligations.AddSpanResult := by
  unfold Obligations.AddSpanResult
  intro port tag m lo hi code s body r S B a hmay er hk hst hm
  obtain ⟨-, rfl⟩ := State.find_mem er
  have hst' := RecordState.takesSpans_of hst
  refine ⟨fun hbad => exec_refused a rfl (answerAddSpan_badField hmay er hk hst' hm hbad), fun k hlo hhi hcode => ?_⟩
  let n : Span := Span.closed lo hi (KindSet.only k)
  have hanswer := answerAddSpan_ok hmay er hk hst' hm hlo hhi hcode
  refine ⟨fun hrope hbanded => ?_, fun hclear => ?_⟩
  · rw [if_pos ⟨hrope, hbanded⟩] at hanswer
    exact exec_refused a rfl hanswer
  · rw [if_neg fun hc => Bool.false_ne_true ((hclear hc.1).symm.trans hc.2)] at hanswer
    obtain ⟨p, hp⟩ : ∃ p, r.body.piece = some p := by
      cases hb : r.body with
      | coil c => exact absurd (by rw [Record.kind, hb]; rfl) hk
      | strand d => exact ⟨_, rfl⟩
      | rope d => exact ⟨_, rfl⟩
      | panel d => exact ⟨_, rfl⟩
    have T := State.addSpanTo_takes S B er hp n
    have hnok (_ : p.Ok) : n.Ok p.made := by
      refine ⟨hlo, by rw [← Record.made_piece hp]; exact hhi, ?_, rfl, nofun⟩
      rcases hcode with ⟨-, rfl⟩ | ⟨-, rfl⟩ <;> rfl
    obtain ⟨r', hr', hspans, hstate, hmade, hsame, hstep, hmerged⟩ := T.result (f := fun s => s.addSpanTo r n) er hp rfl hnok
    refine ⟨_, r', exec_answer a rfl (hanswer.trans (State.doneMark_eq hr')), hr', hspans, hstate, hmade, hsame, hstep, fun e => ?_,
      fun e => ⟨?_, ?_, ?_⟩, fun hrope y c hy hc => ?_, fun h slot d hbound hd hcloser hfree hnew hin => ?_⟩
    · rw [hmerged]
      exact (congrArg (r.spansMerged || ·) e).trans (Bool.or_false _)
    · rw [hmerged]
      exact (congrArg (r.spansMerged || ·) e).trans (Bool.or_true _)
    · rw [Record.spans_piece hp] at e
      exact (T.merged e).head
    · rw [Record.spans_piece hp] at e
      exact (T.merged e).device
    · obtain ⟨b, hb⟩ := Record.body_of_rope hrope
      have hgo : s.addSpanTo r n = s.addRopeSpan r.tag n := by simp only [State.addSpanTo, hrope]
      have A := State.addRopeSpan_adds S er hb n
      have := (A.coils y c hy hc).judges (f := State.addRopeSpan r.tag n) hy hc A.clock
      rw [hspans, Record.spans_rope hb]
      have hchange : s.change (State.addSpanTo r n) = s.change (State.addRopeSpan r.tag n) := by
        rw [State.change, State.change, hgo]
      rw [hchange]
      exact this
    · have hsp : r.spans = d.piece.spans := Record.spans_piece (by rw [hd]; rfl)
      rw [hspans, hsp] at hnew hin
      obtain ⟨hslot, hheld⟩ := State.addSpanTo_holds (n := n) B er hd hbound hcloser hfree hnew (topInside_iff.mpr hin)
      refine ⟨by rw [State.change_head]; exact hslot, fun R q hq => ?_⟩
      rw [State.hasHolder_congr (State.change_pieceOf ..)]
      exact hheld R q hq

end Sys2Proof.Machine
end

section
/-! PROOF. FLAW falls (R30, R57, R95, R98, R99, R162, R163). -/

namespace Sys2Proof.Machine

variable {h k : HeadIx} {s t u : State} {r q x y : Record} {c : CoilBody} {b : RopeBody} {n : Span} {pr pos rope : Nat} {l : List Span}

theorem State.sourceOf_congr (hs : (t.head h).source = (s.head h).source) (hf : ∀ k, (s.head h).source = some k → t.find k = s.find k) :
    t.sourceOf h = s.sourceOf h := by
  rw [State.sourceOf, State.sourceOf, hs]
  cases e : (s.head h).source with
  | none => rfl
  | some k => rw [Option.bind_some, Option.bind_some, hf k e]

/-! ## What stands beside an added span -/

theorem State.Regrades.of_parts (a : s.Regrades rope l t y c) (hs : u.store = t.store) (ha : t.NotesDowngrade c.origin → u.NotesDowngrade c.origin) :
    s.Regrades rope l u y c := by
  unfold State.Regrades at a ⊢
  rw [State.find_of_store hs]
  split
  case isTrue hgo =>
    rw [if_pos hgo] at a
    exact a.imp_right ha
  case isFalse hstay =>
    rw [if_neg hstay] at a
    exact a

/-- The judging of a coil looks at the reach of the heads alone. -/
theorem State.Regrades.of_start (a : t.Regrades rope l u y c) (hs : t.store = s.store) (hh : ∀ k, (t.head k).reach = (s.head k).reach) :
    s.Regrades rope l u y c := by
  have hfind (k : Nat) : t.find k = s.find k := State.find_of_store hs k
  have hrange : t.judgedRange y c = s.judgedRange y c :=
    State.judgedRange_congr c (hh _) (State.sourceEnd_congr (hh _) fun k _ => by rw [hfind]) y
  unfold State.Regrades State.spansOf at a ⊢
  rwa [hrange, hfind] at a

theorem State.SpanAdded.raiseAlarm (a : s.SpanAdded r b n t) (h : HeadIx) (x : Alarm) : s.SpanAdded r b n (t.raiseAlarm h x) := by
  have hcarries (k : HeadIx) : t.Carries k (t.raiseAlarm h x) := State.raiseAlarm_carries (.refl k t)
  exact ⟨a.rope, fun y c hy hc => (a.coils y c hy hc).of_parts rfl (hcarries 0).notesDowngrade, a.others, a.dead, a.heads, a.ends,
    fun k => (a.carries k).trans (hcarries k), fun hm => (hcarries 0).notesMerge rfl (a.merged hm), a.clock, a.length⟩

/-! ## A fall of FLAW on a coiler -/

theorem coilerFlaw_nonempty (m g pr p : Nat) (hm : 0 < m) : (coilerFlaw m g pr p).lo < (coilerFlaw m g pr p).hi := by
  unfold coilerFlaw
  dsimp only
  split
  · assumption
  · split
    · dsimp only
      omega
    · dsimp only
      omega

theorem closed_flawInterval (m g pr p : Nat) : Span.closed (flawInterval m g pr p).1 (flawInterval m g pr p).2 (KindSet.only .flaw) =
    coilerFlaw m g pr p := by
  unfold flawInterval coilerFlaw
  dsimp only
  split
  · rfl
  · split
    case isTrue e =>
      subst e
      rfl
    case isFalse => rfl

/-- FLAW falls on a coiler with a rise position (R98, R99, R163): the flaw span is added to its rope, and the rise position goes. -/
theorem State.coilerFlawFall_adds (S : s.StoreOk) (hrise : (s.head h).flawRise = some pr) (hs : s.sourceOf h = some (r, b))
    (hm : 0 < b.piece.made) (pos : Nat) : ∃ u,
      s.SpanAdded r b (coilerFlaw b.piece.made (s.head h).settings.guardMargin pr pos) u ∧
      (s.reachesBanded r.tag (coilerFlaw b.piece.made (s.head h).settings.guardMargin pr pos) = true →
        u.flagged h .alarm = true ∧ (u.attn.causesOf h).bandedFlaw = true) ∧
      s.coilerFlawFall h pos = u.updHead h fun x => { x with flawRise := none } := by
  let n := coilerFlaw b.piece.made (s.head h).settings.guardMargin pr pos
  have hn : n.lo < n.hi := coilerFlaw_nonempty _ _ _ _ hm
  obtain ⟨er, hb⟩ := State.sourceOf_find hs
  have A := State.addRopeSpan_adds S er hb n
  refine ⟨if s.reachesBanded r.tag n = true then (s.addRopeSpan r.tag n).raiseAlarm h .bandedFlaw else s.addRopeSpan r.tag n, ?_, fun hr => ?_, ?_⟩
  · split
    · exact A.raiseAlarm h .bandedFlaw
    · exact A
  · rw [if_pos hr]
    exact ⟨State.raiseAlarm_flagged .., State.raiseAlarm_has _ h .bandedFlaw⟩
  · have hflaw := closed_flawInterval b.piece.made (s.head h).settings.guardMargin pr pos
    have hn' : (flawInterval b.piece.made (s.head h).settings.guardMargin pr pos).1 <
        (flawInterval b.piece.made (s.head h).settings.guardMargin pr pos).2 := by
      rw [show n = Span.closed _ _ _ from hflaw.symm] at hn
      exact hn
    simp only [State.coilerFlawFall, hrise, hs, if_pos hn', hflaw]
    rfl

/-! ## A fall of FLAW on a maker -/

theorem State.flawFallEdge_running (hr : (s.head h).state.running = true) (hl : (s.head h).laysLength = true) :
    s.flawFallEdge h = (s.updHead h fun x => { x with flawHigh := false }).makerFlawFall h := by
  rw [Head.laysLength_iff] at hl
  rcases hl with hl | hl <;> simp only [State.flawFallEdge, hr, hl, if_true]

theorem State.makerFlawFall_result (hp : s.productOf h = some r) (hf : s.hasHolder r.tag .flaw = true) :
    (s.makerFlawFall h).hasHolder r.tag .flaw = false ∧
      ((s.makerFlawFall h).head h).flawHigh = (s.head h).flawHigh ∧
      (0 < (s.head h).settings.guardMargin → (s.makerFlawFall h).hasHolder r.tag .guard = true ∧
        ((s.makerFlawFall h).head h).guardRelease = some (r.made + (s.head h).settings.guardMargin)) := by
  simp only [State.makerFlawFall, hp, hf, if_true]
  by_cases hg : 0 < (s.head h).settings.guardMargin
  · rw [if_pos hg]
    have hsame (x : Holder) : ((s.swapHolder r.tag .flaw .guard).updHead h fun x =>
        { x with guardRelease := some (r.made + (s.head h).settings.guardMargin) }).hasHolder r.tag x =
        (s.swapHolder r.tag .flaw .guard).hasHolder r.tag x := rfl
    rw [hsame, State.updHead_head, State.swapHolder_head]
    exact ⟨State.swapHolder_dropped (by decide), rfl, fun _ => ⟨(hsame .guard).trans (State.swapHolder_added hf), rfl⟩⟩
  · rw [if_neg hg, State.releaseHolder_head]
    exact ⟨State.releaseHolder_hasHolder .., rfl, fun h => absurd h hg⟩

/-- Settles O20: on a maker FLAW gives place to GUARD, and on a coiler the flaw span is added to the rope and its coils are judged. -/
theorem flawFallResult : Obligations.FlawFallResult := by
  unfold Obligations.FlawFallResult
  intro h s S
  let low := fun x : Head => { x with flawHigh := false }
  let s1 := s.updHead h low
  have hs1 : s1.head h = { s.head h with flawHigh := false } := State.updHead_head ..
  refine ⟨fun hno => ?_, fun hr hl r hp hf => ?_, fun hr hk r b pr hs hrise hm => ?_⟩
  · refine congrArg Host.Outcome.next (State.change_eq S ?_ rfl)
    rcases hno with e | e | e
    · simp only [State.flawFallEdge, e, Bool.false_eq_true, if_false]
    · simp only [State.flawFallEdge, e, ite_self]
    · simp only [State.flawFallEdge, e, ite_self]
  · have hstep := State.flawFallEdge_running hr hl
    have hp1 : s1.productOf h = some r := (State.updHead_productOf (f := low) fun _ => rfl).trans hp
    obtain ⟨hflaw, hhigh, hguard⟩ := State.makerFlawFall_result hp1 hf
    have holds (x : Holder) : (s.change (State.flawFallEdge h)).hasHolder r.tag x = (s1.makerFlawFall h).hasHolder r.tag x := by
      rw [State.hasHolder_congr (State.change_pieceOf ..), hstep]
    refine ⟨_, rfl, ?_, (holds .flaw).trans hflaw, fun hg => ?_⟩
    · rw [State.change_head, hstep, hhigh, hs1]
    · obtain ⟨hheld, hrelease⟩ := hguard (by rw [hs1]; exact hg)
      rw [State.change_head, hstep, hrelease, hs1]
      exact ⟨(holds .guard).trans hheld, rfl⟩
  · intro p g lo hi
    let n : Span := coilerFlaw b.piece.made (s.head h).settings.guardMargin pr p
    have hn : (⟨lo, hi, KindSet.only .flaw, false, {}⟩ : Span) = n := by
      simp only [n, lo, hi, coilerFlaw]
      split
      · rfl
      · split <;> rfl
    rw [hn]
    have hsource : s1.sourceOf h = some (r, b) := (State.sourceOf_congr (s := s) (t := s1) (by rw [hs1]) fun _ _ => rfl).trans hs
    have S1 : s1.StoreOk := ⟨S.ascending, S.capacity, S.tags⟩
    obtain ⟨u, A, hbanded, hfall⟩ := State.coilerFlawFall_adds (s := s1) S1 (by rw [hs1]; exact hrise) hsource hm p
    have hstep : s.flawFallEdge h = u.updHead h fun x => { x with flawRise := none } := by
      rw [← hfall]
      simp only [State.flawFallEdge, hr, hk, if_true]
      rfl
    have hmargin : (s1.head h).settings.guardMargin = (s.head h).settings.guardMargin := by rw [hs1]
    rw [hmargin] at A hbanded
    have hfind (k : Nat) : (s.flawFallEdge h).find k = u.find k := by rw [hstep]; rfl
    have hattn : (s.flawFallEdge h).attn = u.attn := by rw [hstep]; rfl
    obtain ⟨er, hb⟩ := State.sourceOf_find hs
    obtain ⟨r', hr', -, hb', -⟩ := State.change_fields (s := s) (f := State.flawFallEdge h) ((hfind _).trans A.rope)
    have hspans : (s.change (State.flawFallEdge h)).spansOf r.tag = (normalize n b.piece.spans).1 :=
      State.spansOf_rope hr' (hb'.trans (Record.spanAdded_rope hb))
    refine ⟨_, rfl, ?_, ?_, hspans, fun y c hy hc => ?_, fun hbr => ?_⟩
    · rw [State.change_head, hstep, State.updHead_head]
      exact congrArg Head.flawHigh ((A.heads h).trans hs1)
    · rw [State.change_head, hstep, State.updHead_head]
    · rw [hspans]
      have hreach (k : HeadIx) : (s1.head k).reach = (s.head k).reach := by
        by_cases hkh : k = h
        · rw [hkh, hs1]
          rfl
        · rw [s.updHead_head_ne _ hkh]
      have hgrade := ((A.coils y c hy hc).of_start (s := s) rfl hreach).of_parts (u := s.flawFallEdge h) (by rw [hstep]; rfl)
        fun hnote => ⟨by rw [State.flagged, hattn]; exact hnote.1, by rw [hattn]; exact hnote.2⟩
      refine hgrade.judges hy hc ?_
      rw [hstep]
      exact A.clock
    · rw [State.flagged, State.change_attn, hattn]
      exact hbanded hbr

end Sys2Proof.Machine
end

section
/-! PROOF. RELEASE (R18, R69 to R73, R119, R123, R140). -/

namespace Sys2Proof.Machine

variable {h k : HeadIx} {s t u : State} {r q x y : Record} {b : RopeBody} {n : SlotIx} {st : RecordState} {j pos tag : Nat} {kd : MachineKind}
  {leave : Record → Record} {K : HeadIx → Option MachineKind} {a : Settings × Nat × Option Nat × Option Int × List CoilOrder}

/-! ## What the end of a binding leaves of the head -/

/-- What a head keeps beyond a binding (R69): its settings, trim code, last measurements and queue. -/
abbrev Head.readings (x : Head) := (x.settings, x.trim, x.lastLay, x.lastDeviation, x.queue)

theorem State.unbindSlot_readings (h : HeadIx) (st : RecordState) (pos : Nat) (s : State) (n : SlotIx) :
    ((s.unbindSlot h st pos n).head h).readings = (s.head h).readings := by
  cases e : ((s.head h).slot n).strand with
  | none => rw [State.unbindSlot_empty e]
  | some k =>
    rw [State.unbindSlot_head_eq e]
    rfl

theorem State.endMaking_readings (h : HeadIx) (leave : Record → Record) (s : State) :
    ((s.endMaking h leave).head h).readings = (s.head h).readings := by
  unfold State.endMaking
  split
  · rfl
  case h_2 r _ =>
    rw [State.updRec_head]
    exact foldl_invariant (P := fun t : State => (t.head h).readings = (s.head h).readings)
      (fun t n e => (State.unbindSlot_readings h .made r.made t n).trans e) allSlots s rfl

theorem State.closeRow_readings (hr : (s.head h).state.running = true) : ((s.closeRow h).head h).readings = (s.head h).readings := by
  cases hw : (s.head h).row with
  | none => rw [State.closeRow_none hw]
  | some w =>
    cases hp : s.productOf h with
    | none => simp only [State.closeRow, hw, hp]
    | some r =>
      rw [State.closeRow_eq hw hp, State.checkEnd_leaves, State.updHead_head, State.countRow_head]
      let v := (s.countMissed h r.tag w.missed).chargeBoth h w.charge (nextRow r.made)
      have hv : v.head h = { s.head h with slots := (v.head h).slots } := by
        rw [State.chargeBoth_head, State.countMissed_head]
      have hcharged : ((s.rowCharged h r.tag w r.made).1.head h).readings = (v.head h).readings := by
        rw [State.rowCharged, State.chargeRow_eq]
        dsimp only
        split
        · rw [(State.addFeedShort_running (s := v) (by rw [hv]; exact hr)).head]
        · rfl
      exact hcharged.trans (by rw [hv])

/-! ## The heads of a coiler's work -/

theorem State.judgeCoil_head (rope : Nat) (s : State) (r : Record) (h : HeadIx) : (s.judgeCoil rope r).head h = s.head h := by
  unfold State.judgeCoil
  split <;> rfl

theorem State.downgradeCoils_head (rope : Nat) (s : State) (h : HeadIx) : (s.downgradeCoils rope).head h = s.head h :=
  foldl_invariant (P := fun t : State => t.head h = s.head h) (fun t r e => (State.judgeCoil_head rope t r h).trans e) s.store s rfl

theorem State.addRopeSpan_head (rope : Nat) (x : Span) (s : State) (h : HeadIx) : (s.addRopeSpan rope x).head h = s.head h := by
  unfold State.addRopeSpan
  dsimp only
  split
  · exact State.onPiece_head ..
  · exact (State.downgradeCoils_head ..).trans (State.onPiece_head ..)

/-- A fall of FLAW on a coiler changes no head but in its rise position. -/
theorem State.coilerFlawFall_head (h : HeadIx) (pos : Nat) (s : State) : ∃ v : Option Nat,
    ∀ k, (s.coilerFlawFall h pos).head k = if k = h then { s.head h with flawRise := v } else s.head k := by
  unfold State.coilerFlawFall
  split
  case h_1 pr r b _ _ =>
    refine ⟨none, fun k => ?_⟩
    have hadd (i : Nat × Nat) : ∀ k, (if i.1 < i.2 then s.addRopeSpan r.tag (Span.closed i.1 i.2 (KindSet.only .flaw)) else s).head k = s.head k := by
      intro k
      split
      · exact State.addRopeSpan_head ..
      · rfl
    dsimp only
    by_cases hk : k = h
    · subst hk
      rw [State.updHead_head, if_pos rfl]
      split
      · rw [State.raiseAlarm_head, hadd]
      · rw [hadd]
    · rw [if_neg hk, State.updHead_head_ne _ _ hk]
      split
      · rw [State.raiseAlarm_head, hadd]
      · rw [hadd]
  case h_2 =>
    refine ⟨(s.head h).flawRise, fun k => ?_⟩
    split
    case isTrue hk => rw [hk]
    case isFalse => rfl

theorem State.flawAtLeaving_head (h : HeadIx) (pos : Nat) (s : State) : ∃ v : Option Nat,
    ∀ k, (s.flawAtLeaving h pos).head k = if k = h then { s.head h with flawRise := v } else s.head k := by
  unfold State.flawAtLeaving
  split
  · exact State.coilerFlawFall_head h pos s
  · refine ⟨(s.head h).flawRise, fun k => ?_⟩
    split
    case isTrue hk => rw [hk]
    case isFalse => rfl

theorem State.cutShort_head (h : HeadIx) (rope e : Nat) (s : State) (k : HeadIx) : (s.cutShort h rope e).head k = s.head k := by
  unfold State.cutShort
  split
  · dsimp only
    rw [State.raise_head]
    split
    · exact State.windCoil_head ..
    · rfl
  · dsimp only
    split <;> rfl

theorem State.giveUpRope_head (h : HeadIx) (s : State) (k : HeadIx) : (s.giveUpRope h).head k = s.head k := by
  unfold State.giveUpRope
  split
  · rfl
  · split <;> rfl

/-- A coiler that gives up its rope changes no head but in its flaw rise position. -/
theorem State.endSegment_head (h : HeadIx) (s : State) : ∃ v : Option Nat,
    ∀ k, (s.endSegment h).head k = if k = h then { s.head h with flawRise := v } else s.head k := by
  obtain ⟨v, hv⟩ := State.flawAtLeaving_head h (s.unwindPosition h) s
  refine ⟨v, fun k => ?_⟩
  rw [← hv k]
  unfold State.endSegment
  dsimp only
  split
  · rfl
  · rw [State.giveUpRope_head, State.cutShort_head]

theorem State.endRunning_readings (hr : (s.head h).state.running = true) (leave : Record → Record) :
    ((s.endRunning h leave).head h).readings = (s.head h).readings := by
  unfold State.endRunning
  split
  · obtain ⟨v, hv⟩ := State.endSegment_head h s
    rw [hv h, if_pos rfl]
  · exact (State.endMaking_readings ..).trans (State.closeRow_readings hr)
  all_goals exact State.endMaking_readings ..

theorem State.leave_readings (tag : Nat) (s : State) (h : HeadIx) : ((s.leave tag).head h).readings = (s.head h).readings := by
  cases e : s.find tag with
  | none => simp only [State.leave, e]
  | some r => rw [State.leave_head e]

theorem State.undoBinding_readings (h : HeadIx) (s : State) : ((s.undoBinding h).head h).readings = (s.head h).readings := by
  unfold State.undoBinding
  split
  · exact State.endMaking_readings ..
  · dsimp only
    split
    · exact State.leave_readings ..
    · rfl

/-- RELEASE keeps the settings, the trim code, the last measurements and the queue (R69). -/
theorem State.settleRecords_readings (h : HeadIx) (leave : Record → Record) (s : State) :
    ((s.settleRecords h leave).head h).readings = (s.head h).readings := by
  unfold State.settleRecords
  split
  case h_1 => exact State.undoBinding_readings ..
  case h_2 e => exact State.endRunning_readings (by rw [e]; rfl) leave
  case h_3 e => exact State.endRunning_readings (by rw [e]; rfl) leave
  case h_4 e => exact State.endRunning_readings (by rw [e]; rfl) leave
  case h_5 e => exact State.endRunning_readings (by rw [e]; rfl) leave
  all_goals rfl

/-! ## What becomes of the records -/

/-- A binding of a maker excludes a source, and the other way about (R12). -/
theorem State.BindingsOk.maker (B : s.BindingsOk) (hp : (s.head h).product = some tag) :
    (s.head h).source = none ∧ ∃ kd, (s.head h).kind = some kd ∧ kd ≠ .coiler := by
  obtain ⟨x, kd, -, -, ek, hbinds, -⟩ := B.named h .product tag hp
  have hkd : kd ≠ .coiler := by
    rintro rfl
    simp [MachineKind.binds, MachineKind.product] at hbinds
  refine ⟨?_, kd, ek, hkd⟩
  rw [Option.eq_none_iff_forall_ne_some]
  intro j hj
  obtain ⟨x, kd', -, -, ek', hbinds, -⟩ := B.named h .source j hj
  cases ek.symm.trans ek'
  simp only [MachineKind.binds, Bool.and_eq_true, decide_eq_true_eq] at hbinds
  exact hkd hbinds.1

/-- A product in READY goes back to the state it was bound from (R70). -/
def Record.undo (r : Record) : Record := r.unbindTo (r.boundFrom.getD .draft)

theorem Record.undo_tag (r : Record) : r.undo.tag = r.tag := Record.unbindTo_tag ..

theorem undo_leavesMaking : LeavesMaking Record.undo := fun x hm => unbindTo_leavesMaking (x.boundFrom.getD .draft) x hm

/-- What the end of a binding leaves of a maker's product and feeds, in a whole change (R18, R70, R71, R119, R123). -/
theorem State.release_product (B : s.BindingsOk) (hp : s.productOf h = some r) (hst : (s.head h).state.running = true ∨ (s.head h).state = .ready) :
    ∃ r', (s.change (State.releaseHead h)).find r.tag = some r' ∧ s.EndsMaking h r r' (s.change (State.releaseHead h)) ∧
      some r'.state = if (s.head h).state.running = true then some .made else r.boundFrom := by
  obtain ⟨hsource, kd, hk, hc⟩ := B.maker (State.productOf_product hp)
  have hm := (B.but h).product_making hp
  have hclock : (s.releaseHead h).clock = s.clock := (State.releaseHead_keeps (.refl h s)).clock
  have hslots (n : SlotIx) : ((s.releaseHead h).head h).slot n = ⟨none, false, 0, false, false⟩ := by
    rw [State.releaseHead, State.updHead_head]
    exact Head.free_slot .idle _ n
  have ended {u : State} {leave : Record → Record} (a : s.ReadyToEnd h r (fun k => (s.head k).kind) u) (hl : ∀ r, (leave r).tag = r.tag)
      (hmake : LeavesMaking leave) (hstore : (s.releaseHead h).store = (u.endMaking h leave).store) (st : Option RecordState)
      (hleave : ∀ x q l, u.productOf h = some q → x = { q with body := q.body.withSources l } → some (leave x).state = st) :
      ∃ r', (s.change (State.releaseHead h)).find r.tag = some r' ∧ s.EndsMaking h r r' (s.change (State.releaseHead h)) ∧ some r'.state = st := by
    obtain ⟨r', hr', hends⟩ := a.endsMaking B hl hmake hp hstore hclock hslots
    obtain ⟨q, hq, htag, -⟩ := a.product
    obtain ⟨⟨x, hx, l, hxl, -⟩, -⟩ := State.endMaking_records hl a.bindings hq
    obtain ⟨r'', hr'', hstate, -⟩ := State.change_fields (s := s) (f := State.releaseHead h) ((State.find_of_store hstore _).trans hx)
    rw [htag] at hr''
    cases hr'.symm.trans hr''
    exact ⟨r', hr', hends, by rw [hstate]; exact hleave x q l hq hxl⟩
  by_cases hr : (s.head h).state.running = true
  · rw [if_pos hr]
    refine ended (State.rowless_ready (B.but h) hr hp hm) (Record.unbindTo_tag .made) (unbindTo_leavesMaking .made) ?_ _ fun _ _ _ _ _ => rfl
    rw [State.releaseHead, State.settleRecords_running hr, State.endRunning_maker hk hc]
    rfl
  · have hready := hst.resolve_left hr
    rw [if_neg hr]
    refine ended (.refl (B.but h) hp hm) Record.undo_tag undo_leavesMaking ?_ _ fun x q l hq hxl => ?_
    · simp only [State.releaseHead, State.settleRecords, hready, State.undoBinding, hsource]
      rfl
    · cases hp.symm.trans hq
      have hfrom : x.boundFrom = r.boundFrom := by rw [hxl]
      have hbound := (B.named h .product r.tag (State.productOf_product hp))
      obtain ⟨z, -, hz, hzb, -⟩ := hbound
      cases hz.symm.trans (State.productOf_find hp)
      show some (x.boundFrom.getD .draft) = _
      rw [hfrom]
      rcases (B.tied r.tag r hz).since h hzb with e | e <;> rw [e] <;> rfl

theorem Record.afterLeaving_other (hk : r.kind ≠ .rope) (x : Record) : r.afterLeaving x = x := by
  rw [Record.afterLeaving, if_neg hk]

/-- What a RELEASE in READY leaves of a coiler's rope, and of the coil planned from it (R70). -/
theorem State.release_source (B : s.BindingsOk) (hst : (s.head h).state = .ready) (hs : (s.head h).source = some tag) :
    (∃ r', (s.change (State.releaseHead h)).find tag = some r' ∧ r'.state = .made ∧ r'.bound = none) ∧
      ∀ c, (s.head h).segment.bind Segment.coil = some c → (s.change (State.releaseHead h)).find c = none := by
  obtain ⟨r, -, er, erb, -⟩ := B.named h .source tag hs
  let u := s.updRec tag fun r => r.unbindTo .made
  have hu : u.find tag = some (r.unbindTo .made) := by
    rw [State.find_updRec (Record.unbindTo_tag .made), er]
    rfl
  have hstep : (s.releaseHead h).store = (match (s.head h).segment.bind Segment.coil with
      | some c => u.leave c
      | none => u).store := by
    simp only [State.releaseHead, State.settleRecords, hst, State.undoBinding, hs]
    rfl
  cases hc : (s.head h).segment.bind Segment.coil with
  | none =>
    rw [hc] at hstep
    obtain ⟨r', hr', hstate, -, hbound⟩ := State.change_fields (s := s) (f := State.releaseHead h) ((State.find_of_store hstep _).trans hu)
    exact ⟨⟨r', hr', hstate, hbound⟩, nofun⟩
  | some c =>
    rw [hc] at hstep
    obtain ⟨x, kd, ex, exb, -, hbinds, -⟩ := B.named h .segment c hc
    have hne : tag ≠ c := by
      rintro rfl
      cases er.symm.trans ex
      cases erb.symm.trans exb
    have hkind : x.kind ≠ .rope := by
      simp only [MachineKind.binds, Bool.and_eq_true, decide_eq_true_eq] at hbinds
      rw [hbinds.2]
      nofun
    have hxu : u.find c = some x := (State.find_updRec_ne (Record.unbindTo_tag .made) hne.symm).trans ex
    have hrope : (u.leave c).find tag = some (r.unbindTo .made) := by
      rw [State.leave_find_ne hxu hne, hu, Option.map_some, Record.afterLeaving_other hkind]
    obtain ⟨r', hr', hstate, -, hbound⟩ := State.change_fields (s := s) (f := State.releaseHead h) ((State.find_of_store hstep _).trans hrope)
    refine ⟨⟨r', hr', hstate, hbound⟩, fun c' hc' => ?_⟩
    cases hc'
    exact State.change_find_absent ((State.find_of_store hstep _).trans (State.leave_find hxu))

/-- A strand in a slot, as a RELEASE in READY leaves it (R70). -/
theorem State.release_feed (B : s.BindingsOk) (hst : (s.head h).state = .ready) (hn : ((s.head h).slot n).strand = some tag) :
    ∃ r', (s.change (State.releaseHead h)).find tag = some r' ∧ r'.state = .made ∧ r'.bound = none := by
  obtain ⟨x, -, ex, -⟩ := B.named h (.feed n) tag hn
  obtain ⟨-, rfl⟩ := State.find_mem ex
  obtain ⟨j, hj⟩ : ∃ j, (s.head h).product = some j :=
    Option.ne_none_iff_exists'.mp (B.feeds h n (by rw [Head.named, hn]; nofun))
  obtain ⟨q, -, hq, -⟩ := B.named h .product j hj
  obtain ⟨-, rfl⟩ := State.find_mem hq
  obtain ⟨r', -, hends, -⟩ := State.release_product B (State.productOf_of hj hq) (.inr hst)
  obtain ⟨-, hplain⟩ := hends.plain fun _ hrun => by rw [hst] at hrun; cases hrun
  exact ⟨_, hplain n x hn ex, rfl, rfl⟩

/-- Settles O40: the head is free, a product leaves MAKING by the head's state, and a binding in READY is undone. -/
theorem releaseResult : Obligations.ReleaseResult := by
  unfold Obligations.ReleaseResult
  intro p h s body S B a hmay hempty hidle
  have hanswer := answerRelease_done (h := h) (k := h.val) hmay (State.presentHead_val hempty) hidle
  have hexec := exec_answer (t := s.change (State.releaseHead h)) (x := Reply.done []) a rfl hanswer
  have hreadings : (((s.change (State.releaseHead h)).head h).readings) = (s.head h).readings := by
    rw [State.change_head, State.releaseHead, State.updHead_head]
    exact State.settleRecords_readings h (fun r => r.unbindTo .made) s
  simp only [Head.readings, Prod.mk.injEq] at hreadings
  obtain ⟨hsettings, htrim, hlay, hdeviation, hqueue⟩ := hreadings
  have hhead : (s.change (State.releaseHead h)).head h = ((s.settleRecords h fun r => r.unbindTo .made).head h).free .idle := by
    rw [State.change_head, State.releaseHead, State.updHead_head]
  refine ⟨_, hexec, ?_, ?_, ?_, ?_, ?_, ?_, ?_, fun n => ?_, hsettings, htrim, hlay, hdeviation, hqueue, fun r hp => ⟨fun hr => ?_, fun hr => ?_⟩,
    fun hr => ⟨fun n x hn => State.release_feed B hr hn, fun x hs => (State.release_source B hr hs).1, fun c hc => ?_⟩⟩
  · rw [hhead]; rfl
  · rw [hhead]; rfl
  · rw [hhead]; rfl
  · rw [hhead]; rfl
  · rw [hhead]; rfl
  · rw [hhead]; rfl
  · rw [hhead]; rfl
  · rw [hhead, Head.free_slot]
  · obtain ⟨r', hr', hends, hst⟩ := State.release_product B hp (.inl hr)
    rw [if_pos hr, Option.some.injEq] at hst
    exact ⟨r', hr', hst, hends.unbound, hends⟩
  · obtain ⟨r', hr', hends, hst⟩ := State.release_product B hp (.inr hr)
    rw [if_neg (by rw [hr]; nofun)] at hst
    exact ⟨r', hr', hst, hends.unbound, hends⟩
  · obtain ⟨tag, hs⟩ : ∃ tag, (s.head h).source = some tag :=
      Option.ne_none_iff_exists'.mp (B.coils h (by rw [Head.named, hc]; nofun))
    exact (State.release_source B hr hs).2 c hc

end Sys2Proof.Machine
end

section
/-! PROOF. UNBIND_FEED (R122, R123, R129, R130). -/

namespace Sys2Proof.Machine

variable {h k : HeadIx} {s t u : State} {r q x y : Record} {n m : SlotIx} {st : RecordState} {j pos tag slot start : Nat} {hd : Holder}
  {f : Piece → Piece × Bool} {g : State → State} {p : Piece}

/-! ## What the work on a piece leaves of a record -/

/-- What stands of a record beside its piece, its mark and its specification. -/
structure Record.FramedBy (r x : Record) : Prop where
  tag : x.tag = r.tag
  state : x.state = r.state
  bound : x.bound = r.bound
  boundFrom : x.boundFrom = r.boundFrom
  kind : x.kind = r.kind
  sources : x.body.sources = r.body.sources

theorem Record.FramedBy.refl (r : Record) : r.FramedBy r := ⟨rfl, rfl, rfl, rfl, rfl, rfl⟩

theorem Record.FramedBy.trans (a : r.FramedBy x) (b : x.FramedBy y) : r.FramedBy y :=
  ⟨b.tag.trans a.tag, b.state.trans a.state, b.bound.trans a.bound, b.boundFrom.trans a.boundFrom, b.kind.trans a.kind,
    b.sources.trans a.sources⟩

/-- Record `j` of `s` stands in `t`, but for its piece. -/
structure State.KeepsFrame (j : Nat) (s t : State) : Prop where
  kept : ∀ r, s.find j = some r → ∃ x, t.find j = some x ∧ r.FramedBy x

theorem State.KeepsFrame.refl (j : Nat) (s : State) : s.KeepsFrame j s := ⟨fun r er => ⟨r, er, .refl r⟩⟩

theorem Body.withPiece_sources (p : Piece) (b : Body) : (b.withPiece p).sources = b.sources := by
  cases b <;> rfl

theorem State.onPiece_keepsFrame (f : Piece → Piece × Bool) (tag j : Nat) (s : State) : s.KeepsFrame j (s.onPiece tag f) := by
  refine ⟨fun r er => ?_⟩
  by_cases hj : j = tag
  · subst hj
    cases hp : r.body.piece with
    | none =>
      refine ⟨r, ?_, .refl r⟩
      rw [State.onPiece, er]
      dsimp only
      rw [hp]
      exact er
    | some p => exact ⟨_, State.onPiece_find er hp, rfl, rfl, rfl, rfl, Body.withPiece_kind .., Body.withPiece_sources ..⟩
  · exact ⟨r, (State.onPiece_find_ne hj).trans er, .refl r⟩

theorem State.addHolder_keepsFrame (hd : Holder) (tag j start : Nat) (s : State) : s.KeepsFrame j (s.addHolder tag hd start) := by
  unfold State.addHolder
  split
  · split
    · exact State.onPiece_keepsFrame ..
    · exact .refl j s
  · exact .refl j s

theorem State.change_keepsFrame (hx : (g s).find j = some x) : ∃ r', (s.change g).find j = some r' ∧ x.FramedBy r' := by
  rw [State.change, State.commit_find, hx, Option.map_some]
  refine ⟨_, rfl, ?_⟩
  split
  · rename_i b _
    obtain ⟨hst, hbody, hbound, hfrom, -⟩ := Record.stepMark_fields (g s).clock.seconds b x
    exact ⟨Record.stepMark_tag .., hst, hbound, hfrom, by rw [Record.kind, hbody]; rfl, by rw [hbody]⟩
  · exact .refl x

theorem Record.closeSources_sources (which : SlotIx → Bool) (pos : Nat) (r : Record) :
    (r.closeSources which pos).body.sources = closeEntries which pos r.body.sources := by
  cases hb : r.body <;> simp [Record.closeSources, hb, Body.withSources, Body.sources, closeEntries]

/-! ## The answer -/

theorem answerUnbindFeed_ok (e : s.presentHead tag = some h) (hk : (s.head h).hasFeeds = true) (hf : (s.head h).state.takesFeeds = true)
    (hfull : (s.head h).slotFilled slot = true) (hn : slotOf slot = some n) (hq : s.productOf h = some q) :
    answerUnbindFeed .lineComputer tag slot s = (s.change (State.unbindFeed h n q), Reply.done []) := by
  simp [answerUnbindFeed, fromLine, e, hk, hf, hfull, hn, hq]

theorem Head.slotFilled_of {x : Head} (hk : x.kind = some .closer ∨ (x.kind = some .loom ∧ n.val < 2)) (hs : (x.slot n).strand = some tag) :
    x.slotFilled n.val = true := by
  have hslot : x.hasSlot n = true := by
    rcases hk with hk | ⟨hk, hn⟩
    · simp [Head.hasSlot, hk, MachineKind.hasSlot]
    · simp [Head.hasSlot, hk, MachineKind.hasSlot, hn]
  simp [Head.slotFilled, slotOf_val, hslot, hs]

theorem HeadState.takesFeeds_iff {st : HeadState} : st.takesFeeds = true ↔ st = .ready ∨ st.running = true := by
  cases st <;> simp [HeadState.takesFeeds, HeadState.running]

/-! ## The change -/

theorem State.emptySlot_head (h : HeadIx) (n : SlotIx) (q : Record) (s : State) (k : HeadIx) : (s.emptySlot h n q).head k = s.head k := by
  unfold State.emptySlot
  split
  · split
    · split
      · rfl
      · exact State.addHolder_head ..
    · exact State.releaseHolder_head ..
  · rfl

theorem State.emptySlot_keepsFrame (h : HeadIx) (n : SlotIx) (q : Record) (s : State) (j : Nat) : s.KeepsFrame j (s.emptySlot h n q) := by
  unfold State.emptySlot
  split
  · split
    · split
      · exact .refl j s
      · exact State.addHolder_keepsFrame ..
    · exact State.onPiece_keepsFrame ..
  · exact .refl j s

/-- On a closer FEEDn stands for an emptied slot exactly where it is required (R122, R129). -/
theorem State.emptySlot_holds (hk : (s.head h).kind = some .closer) (ex : s.find q.tag = some x) (hm : x.state = .making)
    (hnp : x.kind ≠ .panel) (hp : x.body.piece = some p) (hok : p.Ok) :
    (s.emptySlot h n q).hasHolder q.tag (.feed n) = ((s.head h).slot n).required := by
  obtain ⟨-, htag⟩ := State.find_mem ex
  rw [State.emptySlot, if_pos hk]
  split
  case isTrue hreq =>
    rw [hreq]
    split
    case isTrue hheld => exact hheld
    case isFalse =>
      rw [State.hasHolder_of_piece (State.addHolder_pieceOf_some ex hm hnp hp (.feed n) q.made)]
      exact (Piece.addHolder_heldFrom hok (.feed n) q.made).hasHolder (Piece.addHolder_ok hok)
  case isFalse hreq =>
    rw [State.releaseHolder_hasHolder]
    exact ((Bool.not_eq_true _).mp hreq).symm

/-- FEED_SHORT, added in a running state only where `ran` says so: the slots and the store stand. -/
theorem State.addShortIf {c : Prop} [Decidable c] (hc : c → (s.head h).state.running = true) :
    (if c then s.addHold h .feedShort else s).store = s.store ∧
      (((if c then s.addHold h .feedShort else s).head h).slots = (s.head h).slots) ∧
      (c → ((if c then s.addHold h .feedShort else s).head h).holds.feedShort = true) := by
  split
  case isTrue hgo =>
    have hs := State.addFeedShort_running (hc hgo)
    exact ⟨hs.store, by rw [hs.head], fun _ => hs.short⟩
  case isFalse hno => exact ⟨rfl, rfl, fun h => absurd h hno⟩

/-- Settles O39: the strand leaves its slot, FEEDn follows the slot, and a required one is missed in a running state. -/
theorem unbindFeedResult : Obligations.UnbindFeedResult := by
  unfold Obligations.UnbindFeedResult
  intro h n tag s body r q S B a hk hst hs er hq
  have hpresent : (s.head h).state ≠ .empty := by rcases hst with e | e <;> intro e' <;> rw [e'] at e <;> cases e
  have hfeeds : (s.head h).hasFeeds = true := Head.hasFeeds_iff.mpr (hk.imp_right And.left)
  have hanswer := answerUnbindFeed_ok (State.presentHead_val hpresent) hfeeds (HeadState.takesFeeds_iff.mpr hst) (Head.slotFilled_of hk hs)
    (slotOf_val n) hq
  have hproduct := State.productOf_product hq
  have hne := (B.but h).strand_ne_product hproduct hs
  obtain ⟨z, d, hz, hzb, hzs, -⟩ := (B.but h).strand hs
  cases er.symm.trans hz
  let s0 := s.unbindSlot h .made q.made n
  let s1 := s0.emptySlot h n q
  have hhead0 : s0.head h = (s.head h).updSlot n fun x => { required := x.required } := State.unbindSlot_head_eq hs
  have hr0 : s0.find tag = some (r.unbindTo .made) := by
    rw [State.unbindSlot_find_strand hs (by rw [hproduct]; exact fun e => hne (Option.some.inj e).symm), er]
    rfl
  have hq0 : s0.find q.tag = some (q.closeSources (fun m => decide (m = n)) q.made) := by
    rw [State.unbindSlot_find_product hs hproduct hne, State.productOf_find hq]
    rfl
  have hhead1 : s1.head h = s0.head h := State.emptySlot_head ..
  obtain ⟨x, hx, hxf⟩ := (State.emptySlot_keepsFrame h n q s0 tag).kept _ hr0
  obtain ⟨y, hy, hyf⟩ := (State.emptySlot_keepsFrame h n q s0 q.tag).kept _ hq0
  have hshort := State.addShortIf (s := s1) (h := h) (c := ((s.head h).slot n).required = true ∧ (s.head h).state ≠ .ready) fun hc => by
    rw [hhead1, hhead0]
    exact hst.resolve_left hc.2
  obtain ⟨hstore, hslots, hheld⟩ := hshort
  have hslot : ((s.unbindFeed h n q).head h).slot n = { required := ((s.head h).slot n).required } := by
    rw [Head.slot, State.unbindFeed, hslots, hhead1, hhead0]
    exact Head.updSlot_slot ..
  have hfind (j : Nat) : (s.unbindFeed h n q).find j = s1.find j := State.find_of_store hstore j
  obtain ⟨r', hr', hrf⟩ := State.change_keepsFrame (s := s) (g := State.unbindFeed h n q) ((hfind _).trans hx)
  obtain ⟨q', hq', hqf⟩ := State.change_keepsFrame (s := s) (g := State.unbindFeed h n q) ((hfind _).trans hy)
  refine ⟨_, r', q', exec_answer a rfl hanswer, hr', (hxf.trans hrf).state, (hxf.trans hrf).bound, ?_, ?_, hq', ?_, fun hreq hnr => ?_,
    fun hc R => ?_⟩
  · rw [State.change_head, hslot]
  · rw [State.change_head, hslot]
  · rw [(hyf.trans hqf).sources, Record.closeSources_sources]
    refine List.map_congr_left fun e _ => ?_
    simp only [decide_eq_true_eq, Bool.and_eq_true, Option.isNone_iff_eq_none]
  · rw [State.change_head]
    exact hheld ⟨hreq, hnr⟩
  · obtain ⟨b, hb⟩ := (B.but h).closer_product hc hq
    have hm := (B.but h).product_making hq
    have hholds : s1.hasHolder q.tag (.feed n) = ((s0.head h).slot n).required := by
      refine State.emptySlot_holds (p := b.piece) ?_ hq0 hm ?_ ?_ ((R q (State.find_mem (State.productOf_find hq)).1).piece _ ?_)
      · rw [hhead0]
        exact hc
      · rw [Record.kind, Record.closeSources, Body.withSources_kind, hb]
        nofun
      · rw [Record.closeSources, Body.withSources_piece, hb]
        rfl
      · rw [hb]
        rfl
    rw [State.hasHolder_congr (State.change_pieceOf ..), State.hasHolder_congr (State.pieceOf_of_find (hfind q.tag)), hholds, hhead0,
      Head.updSlot_slot]

end Sys2Proof.Machine
end


section
/-! PROOF. BIND_FEED (R12, R31, R61, R120, R121, R130). -/

namespace Sys2Proof.Machine

variable {h k : HeadIx} {s t u : State} {r q x y : Record} {b : StrandBody} {n m : SlotIx} {j tag slot : Nat} {p : Piece} {mark : Mark}

/-! ## The top of a strand at its binding -/

theorem State.judgeTop_head (h : HeadIx) (n : SlotIx) (b : StrandBody) (q : Record) (s : State) : (s.judgeTop h n b q).head h =
    if (s.head h).kind = some .closer ∧ topInside b.top b.piece.spans = true then
      (s.head h).updSlot n fun x => { x with spanHolding := true }
    else s.head h := by
  unfold State.judgeTop
  by_cases hk : (s.head h).kind = some .closer
  · rw [if_pos hk]
    by_cases hin : topInside b.top b.piece.spans = true
    · rw [if_pos hin, if_pos (And.intro hk hin)]
      dsimp only
      split
      · exact State.updSlot_head ..
      · rw [State.addHolder_head, State.updSlot_head]
    · rw [if_neg hin, if_neg fun hc => hin hc.2, State.releaseHolder_head]
  · rw [if_neg hk, if_neg fun hc => hk hc.1]

theorem State.judgeTop_find_ne (hj : j ≠ q.tag) : (s.judgeTop h n b q).find j = s.find j := by
  unfold State.judgeTop
  split
  · split
    · dsimp only
      split
      · rfl
      · exact State.addHolder_find_ne hj
    · exact State.onPiece_find_ne hj
  · rfl

theorem State.judgeTop_clock : (s.judgeTop h n b q).clock = s.clock := by
  unfold State.judgeTop
  split
  · split
    · dsimp only
      split
      · rfl
      · exact State.addHolder_clock
    · exact State.onPiece_clock ..
  · rfl

theorem State.judgeTop_keepsFrame (h : HeadIx) (n : SlotIx) (b : StrandBody) (q : Record) (s : State) (j : Nat) :
    s.KeepsFrame j (s.judgeTop h n b q) := by
  unfold State.judgeTop
  split
  · split
    · dsimp only
      split
      · exact ⟨fun r er => ⟨r, er, .refl r⟩⟩
      · exact ⟨(State.addHolder_keepsFrame _ q.tag j _ (s.updSlot h n fun x => { x with spanHolding := true })).kept⟩
    · exact State.onPiece_keepsFrame ..
  · exact .refl j s

/-- On a closer FEEDn is held exactly where the top of the strand lies inside a span (R121). -/
theorem State.judgeTop_holds (hk : (s.head h).kind = some .closer) (ex : s.find q.tag = some x) (hm : x.state = .making)
    (hnp : x.kind ≠ .panel) (hp : x.body.piece = some p) (hok : p.Ok) :
    (s.judgeTop h n b q).hasHolder q.tag (.feed n) = topInside b.top b.piece.spans := by
  obtain ⟨-, htag⟩ := State.find_mem ex
  rw [State.judgeTop, if_pos hk]
  split
  case isTrue hin =>
    rw [hin]
    dsimp only
    split
    case isTrue hheld => exact hheld
    case isFalse =>
      let s1 := s.updSlot h n fun x => { x with spanHolding := true }
      have ex1 : s1.find q.tag = some x := ex
      rw [State.hasHolder_of_piece (State.addHolder_pieceOf_some ex1 hm hnp hp (.feed n) q.made)]
      exact (Piece.addHolder_heldFrom hok (.feed n) q.made).hasHolder (Piece.addHolder_ok hok)
  case isFalse hout =>
    rw [State.releaseHolder_hasHolder]
    exact ((Bool.not_eq_true _).mp hout).symm

/-! ## The answer and the change -/

theorem Head.slotFree_of {x : Head} (hk : x.kind = some .closer ∨ (x.kind = some .loom ∧ n.val < 2)) (hs : (x.slot n).strand = none) :
    x.slotFree n.val = true := by
  have hslot : x.hasSlot n = true := by
    rcases hk with hk | ⟨hk, hn⟩
    · simp [Head.hasSlot, hk, MachineKind.hasSlot]
    · simp [Head.hasSlot, hk, MachineKind.hasSlot, hn]
  simp [Head.slotFree, slotOf_val, hslot, hs]

/-- The binding of strand `r` to slot `n`, before the judging of its top (R121). -/
def State.feedBound (h : HeadIx) (n : SlotIx) (r q : Record) (s : State) : State :=
  ((s.updRec r.tag fun x => (x.bindAs .inUse h (.feed n)).onStrand fun y => { y with fraction := 0 }).updSlot h n fun x =>
    { required := x.required, strand := some r.tag }).updRec q.tag fun x => x.appendSource ⟨r.tag, n, q.made, none⟩

theorem State.bindFeed_eq (h : HeadIx) (n : SlotIx) (r : Record) (b : StrandBody) (q : Record) (s : State) : s.bindFeed h n r b q =
    if (((s.feedBound h n r q).judgeTop h n b q).head h).feedMissing then (s.feedBound h n r q).judgeTop h n b q
    else ((s.feedBound h n r q).judgeTop h n b q).dropHold h .feedShort := rfl

theorem Record.appendSource_sources (hk : r.kind = .rope ∨ r.kind = .panel) (e : SourceEntry) :
    (r.appendSource e).body.sources = r.body.sources ++ [e] := by
  cases hb : r.body <;> simp [Record.kind, hb, Body.kind] at hk
  all_goals simp [Record.appendSource, hb, Body.withSources, Body.sources]

theorem Head.feedMissing_congr {x y : Head} (e : x.slots = y.slots) : x.feedMissing = y.feedMissing := by
  simp only [Head.feedMissing, Head.slot, e]

/-- FEED_SHORT goes, and a head HELD for no other reason goes by the level of RUN (R61). -/
theorem State.dropFeedShort_head (h : HeadIx) (s : State) : (s.dropHold h .feedShort).head h =
    { s.head h with
      holds := { (s.head h).holds with feedShort := false }
      state := if (s.head h).state = .held ∧ { (s.head h).holds with feedShort := false } = ({} : HoldSet) then (s.head h).byRun
        else (s.head h).state } := by
  rw [State.dropHold, State.updHead_head]
  simp only [HoldSet.put, HoldSet.isEmpty_iff]
  split <;> rfl

/-- Settles O38: the strand is bound, the product's list notes it, its top is judged, and FEED_SHORT goes with the last empty slot. -/
theorem bindFeedResult : Obligations.BindFeedResult := by
  unfold Obligations.BindFeedResult
  intro h n tag m s body r q b S a hk hst hfree er hb hmade hm hq hqk hroom
  obtain ⟨-, rfl⟩ := State.find_mem er
  have hpresent : (s.head h).state ≠ .empty := by rcases hst with e | e <;> intro e' <;> rw [e'] at e <;> cases e
  have hfeeds : (s.head h).hasFeeds = true := Head.hasFeeds_iff.mpr (hk.imp_right And.left)
  have hanswer := (answerBindFeed_last (State.presentHead_val hpresent) er hfeeds hb (HeadState.takesFeeds_iff.mpr hst)
    (Head.slotFree_of hk hfree) hmade hm).2 n q (slotOf_val n) hq
  rw [if_neg (show ¬sourceCap ≤ _ from Nat.not_le.mpr hroom)] at hanswer
  have hqf := State.productOf_find hq
  have hne : r.tag ≠ q.tag := by
    intro e
    rw [e, hqf] at er
    cases er
    rw [Record.kind, hb] at hqk
    rcases hqk with e | e <;> cases e
  let g := fun x : Record => (x.bindAs .inUse h (.feed n)).onStrand fun y => { y with fraction := 0 }
  have hg (x : Record) : (g x).tag = x.tag := Record.onStrand_tag ..
  let a1 := fun x : Record => x.appendSource ⟨r.tag, n, q.made, none⟩
  have ha1 (x : Record) : (a1 x).tag = x.tag := rfl
  let s3 := s.feedBound h n r q
  let s4 := s3.judgeTop h n b q
  have hr3 : s3.find r.tag = some (g r) := by
    show ((s.updRec r.tag g).updRec q.tag a1).find r.tag = _
    rw [State.find_updRec_ne ha1 hne, State.find_updRec hg, er]
    rfl
  have hq3 : s3.find q.tag = some (a1 q) := by
    show ((s.updRec r.tag g).updRec q.tag a1).find q.tag = _
    rw [State.find_updRec ha1, State.find_updRec_ne hg hne.symm, hqf]
    rfl
  have hhead3 : s3.head h = (s.head h).updSlot n fun x => { required := x.required, strand := some r.tag } := State.updSlot_head ..
  have hr4 : s4.find r.tag = some (g r) := (State.judgeTop_find_ne hne).trans hr3
  obtain ⟨y, hy, hyf⟩ := (State.judgeTop_keepsFrame h n b q s3 q.tag).kept _ hq3
  have hstep := State.bindFeed_eq h n r b q s
  have hstore : (s.bindFeed h n r b q).store = s4.store := by
    rw [hstep]
    split <;> rfl
  have hclock : (s.bindFeed h n r b q).clock = s.clock := by
    have : (s.bindFeed h n r b q).clock = s4.clock := by
      rw [hstep]
      split <;> rfl
    exact this.trans State.judgeTop_clock
  have hhead4 : s4.head h = if (s.head h).kind = some .closer ∧ topInside b.top b.piece.spans = true then
      (s3.head h).updSlot n fun x => { x with spanHolding := true } else s3.head h := by
    rw [State.judgeTop_head, hhead3]
    rfl
  have hslots : ((s.bindFeed h n r b q).head h).slots = (s4.head h).slots := by
    show ((s.bindFeed h n r b q).head h).slots = _
    rw [hstep]
    split
    · rfl
    · rw [State.dropFeedShort_head]
  have hslot : ((s.bindFeed h n r b q).head h).slot n = ⟨some r.tag, ((s.head h).slot n).required, 0, false,
      decide ((s.head h).kind = some .closer ∧ topInside b.top b.piece.spans = true)⟩ := by
    have hs : ((s.bindFeed h n r b q).head h).slot n = (s4.head h).slot n := by rw [Head.slot, hslots]; rfl
    rw [hs, hhead4]
    split
    case isTrue hc => rw [Head.updSlot_slot, hhead3, Head.updSlot_slot, decide_eq_true hc]
    case isFalse hc => rw [hhead3, Head.updSlot_slot, decide_eq_false hc]
  have hbase : (s4.head h).holds = (s.head h).holds ∧ (s4.head h).state = (s.head h).state ∧ (s4.head h).byRun = (s.head h).byRun := by
    rw [hhead4, hhead3]
    split <;> exact ⟨rfl, rfl, rfl⟩
  obtain ⟨hholds4, hstate4, hrun4⟩ := hbase
  have hmissing : ((s.bindFeed h n r b q).head h).feedMissing = (s4.head h).feedMissing := Head.feedMissing_congr hslots
  have hr' : (s.change (State.bindFeed h n r b q)).find r.tag = some { g r with mark := r.mark + 1, changed := s.clock.seconds } := by
    have hfind : (s.bindFeed h n r b q).find r.tag = some (g r) := (State.find_of_store hstore _).trans hr4
    rw [State.change_state er hfind, hclock]
    rw [hmade, show (g r).state = .inUse by simp only [g, Record.onStrand, Record.bindAs, hb]]
    nofun
  obtain ⟨q', hq', hqf'⟩ := State.change_keepsFrame (s := s) (g := State.bindFeed h n r b q) ((State.find_of_store hstore _).trans hy)
  have hg' : g r = { r with state := .inUse, bound := some (h, .feed n), boundFrom := none, body := .strand { b with fraction := 0 } } := by
    simp only [g, Record.onStrand, Record.bindAs, hb]
    rfl
  refine ⟨s.change (State.bindFeed h n r b q), _, q', exec_answer a rfl (hanswer.trans (State.doneMark_eq hr')), hr', ?_, ?_, ?_, hq', ?_, ?_, ?_, ?_,
    fun hm0 => ?_, fun hm1 => ?_, fun hc hmk hrope R => ?_⟩
  · rw [hg']
  · rw [hg']
  · rw [hg']
  · rw [(hyf.trans hqf').sources]
    exact Record.appendSource_sources hqk _
  · rw [State.change_head, hslot]
  · rw [State.change_head, hslot]
  · rw [State.change_head, hslot]
  · rw [State.change_head] at hm0 ⊢
    rw [hmissing] at hm0
    have hhead : (s.bindFeed h n r b q).head h = (s4.dropHold h .feedShort).head h := by
      rw [hstep, if_neg (by rw [Bool.not_eq_true]; exact hm0)]
    rw [hhead, State.dropFeedShort_head, hholds4, hstate4, hrun4]
    exact ⟨rfl, rfl⟩
  · rw [State.change_head] at hm1 ⊢
    rw [hmissing] at hm1
    have hhead : (s.bindFeed h n r b q).head h = s4.head h := by
      rw [hstep, if_pos hm1]
    rw [hhead]
    exact ⟨hholds4, hstate4⟩
  · obtain ⟨p, hp⟩ : ∃ p, q.body.piece = some p := by
      obtain ⟨d, hd⟩ := Record.body_of_rope hrope
      exact ⟨_, by rw [hd]; rfl⟩
    have hholds : s4.hasHolder q.tag (.feed n) = topInside b.top b.piece.spans := by
      refine State.judgeTop_holds (p := p) ?_ hq3 hmk ?_ ((Body.withSources_piece ..).trans hp) ((R q (State.find_mem hqf).1).piece p hp)
      · rw [hhead3]
        exact hc
      · show (q.body.withSources _).kind ≠ .panel
        rw [Body.withSources_kind]
        exact fun e => by rw [Record.kind] at hrope; rw [hrope] at e; cases e
    have hheld : (s.change (State.bindFeed h n r b q)).hasHolder q.tag (.feed n) = topInside b.top b.piece.spans := by
      rw [State.hasHolder_congr (State.change_pieceOf ..), State.hasHolder_congr (State.pieceOf_of_store hstore), hholds]
    rw [hheld, State.change_head, hslot]
    refine ⟨fun hin => ?_, fun hout => ?_⟩
    · have hin' : topInside b.top b.piece.spans = true := topInside_iff.mpr hin
      exact ⟨decide_eq_true ⟨hc, hin'⟩, hin'⟩
    · have hout' : topInside b.top b.piece.spans = false := by
        rw [← Bool.not_eq_true, topInside_iff]
        rintro ⟨x, hx, h1, h2⟩
        rcases hout x hx with h3 | h3
        · exact absurd h1 (Nat.not_lt.mpr h3)
        · exact absurd h2 (Nat.not_le.mpr h3)
      exact ⟨decide_eq_false fun hc => Bool.false_ne_true (hout'.symm.trans hc.2), hout'⟩

end Sys2Proof.Machine
end

section
/-! PROOF. BIND_PRODUCT (R12, R18, R66, R67, R97, R118, R119, R129). -/

namespace Sys2Proof.Machine

variable {h k : HeadIx} {s t u : State} {r q x y : Record} {n m : SlotIx} {j start made tag : Nat} {hd : Holder} {p : Piece} {mark : Mark}
  {l : List SlotIx} {req : SlotIx → Bool} {kd : MachineKind}

/-! ## Holders of a record in MAKING -/

theorem State.addHolder_record (ex : s.find j = some x) (hm : x.state = .making) (hk : x.kind ≠ .panel) (hp : x.body.piece = some p)
    (hd : Holder) (start : Nat) : ∃ y, (s.addHolder j hd start).find j = some y ∧ x.FramedBy y ∧ y.body.piece = some (p.addHolder hd start).1 := by
  have hstep : s.addHolder j hd start = s.onPiece j (Piece.addHolder hd start) := by
    rw [State.addHolder, ex]
    exact if_pos ⟨hm, hk⟩
  have hfind := State.onPiece_find (f := Piece.addHolder hd start) ex hp
  rw [← hstep] at hfind
  exact ⟨_, hfind, ⟨rfl, rfl, rfl, rfl, Body.withPiece_kind .., Body.withPiece_sources ..⟩, Body.withPiece_piece hp⟩

/-- FEEDn for each slot of `l` that `req` names, held from `made` (R119, R129). -/
def Piece.addFeeds (made : Nat) (req : SlotIx → Bool) (l : List SlotIx) (p : Piece) : Piece :=
  l.foldl (fun p n => if req n then (p.addHolder (.feed n) made).1 else p) p

theorem Piece.addFeeds_cons (n : SlotIx) : p.addFeeds made req (n :: l) =
    (if req n then (p.addHolder (.feed n) made).1 else p).addFeeds made req l := rfl

theorem Piece.addFeeds_made : (p.addFeeds made req l).made = p.made := by
  induction l generalizing p with
  | nil => rfl
  | cons n l ih =>
    rw [Piece.addFeeds_cons, ih]
    split
    · exact Piece.addHolder_made
    · rfl

/-- The added holders leave a piece in order, and what it held it holds. -/
theorem Piece.addFeeds_keeps (hp : p.Ok) : (p.addFeeds made req l).Ok ∧ ∀ x, (p.addFeeds made req l).StillHolds x p := by
  induction l generalizing p with
  | nil => exact ⟨hp, fun x => .refl x p⟩
  | cons n l ih =>
    rw [Piece.addFeeds_cons]
    split
    · obtain ⟨hok, hstill⟩ := ih (p := (p.addHolder (.feed n) made).1) (Piece.addHolder_ok hp)
      exact ⟨hok, fun x => (hstill x).trans (Piece.addHolder_stillHolds hp (.feed n) x made)⟩
    · exact ih hp

theorem Piece.addFeeds_heldFrom (hp : p.Ok) (hn : n ∈ l) (hreq : req n = true) : (p.addFeeds made req l).HeldFrom (.feed n) made := by
  induction l generalizing p with
  | nil => cases hn
  | cons m l ih =>
    rw [Piece.addFeeds_cons]
    rcases List.mem_cons.mp hn with rfl | hl
    · rw [if_pos hreq]
      have hadded : (p.addHolder (.feed n) made).1.HeldFrom (.feed n) made := Piece.addHolder_heldFrom hp (.feed n) made
      exact ((Piece.addFeeds_keeps (Piece.addHolder_ok hp)).2 (.feed n)).heldFrom hadded
    · refine ih ?_ hl
      split
      · exact Piece.addHolder_ok hp
      · exact hp

/-- The FEEDn of the required slots, added to a record in MAKING. -/
theorem State.addFeeds_record (l : List SlotIx) : ∀ (s : State) (x : Record) (p : Piece), s.find j = some x → x.state = .making → x.kind ≠ .panel →
    x.body.piece = some p → ∃ y, (l.foldl (fun t n => if req n then t.addHolder j (.feed n) made else t) s).find j = some y ∧
      x.FramedBy y ∧ y.body.piece = some (p.addFeeds made req l) := by
  induction l with
  | nil => exact fun s x p ex _ _ hp => ⟨x, ex, .refl x, hp⟩
  | cons n l ih =>
    intro s x p ex hm hk hp
    rw [List.foldl_cons, Piece.addFeeds_cons]
    split
    · obtain ⟨y, ey, hf, hpy⟩ := State.addHolder_record ex hm hk hp (.feed n) made
      obtain ⟨z, ez, hz, hpz⟩ := ih _ y _ ey (hf.state.trans hm) (by rw [hf.kind]; exact hk) hpy
      exact ⟨z, ez, hf.trans hz, hpz⟩
    · exact ih s x p ex hm hk hp

theorem State.addEmptyFeeds_head (h : HeadIx) (r : Record) (s : State) (k : HeadIx) : (s.addEmptyFeeds h r).head k = s.head k := by
  unfold State.addEmptyFeeds
  split
  · refine foldl_invariant (P := fun t : State => t.head k = s.head k) (fun t n e => ?_) allSlots s rfl
    split
    · rw [State.addHolder_head, e]
    · exact e
  all_goals rfl

theorem State.addEmptyFeeds_clock (h : HeadIx) (r : Record) (s : State) : (s.addEmptyFeeds h r).clock = s.clock := by
  unfold State.addEmptyFeeds
  split
  · refine foldl_invariant (P := fun t : State => t.clock = s.clock) (fun t n e => ?_) allSlots s rfl
    split
    · rw [State.addHolder_clock, e]
    · exact e
  all_goals rfl

/-! ## The parts of the change -/

/-- The piece of a product as it is bound: JOIN where it is resumed with a margin, and FEEDn for the required slots on a closer. -/
def Piece.bound (resumed : Bool) (margin made : Nat) (req : SlotIx → Bool) (p : Piece) : Piece :=
  (if resumed then (p.addHolder .join (made - margin)).1 else p).addFeeds made req allSlots

theorem Piece.bound_made (resumed : Bool) (margin : Nat) : (p.bound resumed margin made req).made = p.made := by
  rw [Piece.bound, Piece.addFeeds_made]
  split
  · exact Piece.addHolder_made
  · rfl

theorem Piece.bound_ok (hp : p.Ok) (resumed : Bool) (margin made : Nat) :
    (if resumed then (p.addHolder .join (made - margin)).1 else p : Piece).Ok := by
  split
  · exact Piece.addHolder_ok hp
  · exact hp

theorem Piece.bound_join (hp : p.Ok) (margin : Nat) : (p.bound true margin made req).HeldFrom .join (made - margin) := by
  have hadded : (p.addHolder .join (made - margin)).1.HeldFrom .join (made - margin) := Piece.addHolder_heldFrom hp .join (made - margin)
  exact ((Piece.addFeeds_keeps (Piece.addHolder_ok hp)).2 .join).heldFrom hadded

theorem Piece.bound_feed (hp : p.Ok) (resumed : Bool) (margin : Nat) (hreq : req n = true) :
    (p.bound resumed margin made req).HeldFrom (.feed n) made :=
  Piece.addFeeds_heldFrom (Piece.bound_ok hp resumed margin made) (mem_allSlots n) hreq

theorem Piece.addFeeds_none (hreq : ∀ n, req n = false) : p.addFeeds made req l = p := by
  induction l with
  | nil => rfl
  | cons n l ih => rw [Piece.addFeeds_cons, if_neg (by rw [hreq n]; nofun), ih]

/-- A product is resumed with a margin (R97). -/
def Record.resumes (margin : Nat) (r : Record) : Bool := decide (r.state = .interrupted ∧ r.kind ≠ .panel ∧ 0 < margin)

theorem State.openJoin_pos (hg : 0 < (s.head h).settings.guardMargin) : s.openJoin h j made =
    (s.addHolder j .join (made - (s.head h).settings.guardMargin)).updHead h fun x =>
      { x with joinRelease := some (made + (s.head h).settings.guardMargin) } := by
  rw [State.openJoin]
  exact if_pos hg

theorem State.joinResumed_eq (h : HeadIx) (r : Record) (s : State) : s.joinResumed h r =
    if r.resumes (s.head h).settings.guardMargin then
      (s.addHolder r.tag .join (r.made - (s.head h).settings.guardMargin)).updHead h fun x =>
        { x with joinRelease := some (r.made + (s.head h).settings.guardMargin) }
    else s := by
  unfold State.joinResumed Record.resumes
  by_cases hr : r.state = .interrupted ∧ r.kind ≠ .panel
  · rw [if_pos hr]
    by_cases hg : 0 < (s.head h).settings.guardMargin
    · rw [State.openJoin_pos hg, if_pos (decide_eq_true ⟨hr.1, hr.2, hg⟩)]
    · rw [if_neg fun e => hg (of_decide_eq_true e).2.2, State.openJoin]
      exact if_neg hg
  · rw [if_neg hr, if_neg fun e => hr ⟨(of_decide_eq_true e).1, (of_decide_eq_true e).2.1⟩]

/-- A maker's kind of machine and the kind of its product (R66). -/
def Suits (kd : MachineKind) (r : Record) : Prop :=
  (kd = .strander ∧ r.kind = .strand) ∨ (kd = .closer ∧ r.kind = .rope) ∨ (kd = .loom ∧ r.kind = .panel)

theorem Suits.product (a : Suits kd r) : kd.product = some r.kind := by
  rcases a with ⟨rfl, e⟩ | ⟨rfl, e⟩ | ⟨rfl, e⟩ <;> rw [e] <;> rfl

/-- The head that BIND_PRODUCT leaves (R67, R97). -/
theorem State.bindProduct_head (h : HeadIx) (r : Record) (s : State) : (s.bindProduct h r).head h =
    { (s.head h).bindProduct r.tag r.body with
      joinRelease := if r.resumes (s.head h).settings.guardMargin then some (r.made + (s.head h).settings.guardMargin) else none } := by
  rw [State.bindProduct, State.addEmptyFeeds_head, State.joinResumed_eq]
  have hs : ((s.updRec r.tag fun x => x.bindAs .making h .product).updHead h fun x => x.bindProduct r.tag r.body).head h =
      (s.head h).bindProduct r.tag r.body := State.updHead_head ..
  rw [hs, show ((s.head h).bindProduct r.tag r.body).settings = (s.head h).settings from rfl]
  split
  · rw [State.updHead_head, State.addHolder_head, hs]
  · rw [hs]
    rfl

theorem State.bindProduct_clock (h : HeadIx) (r : Record) (s : State) : (s.bindProduct h r).clock = s.clock := by
  rw [State.bindProduct, State.addEmptyFeeds_clock, State.joinResumed_eq]
  split
  · exact State.addHolder_clock
  · rfl

/-- The product as BIND_PRODUCT leaves it (R67, R97, R129). -/
theorem State.bindProduct_record (er : s.find r.tag = some r) (hp : r.body.piece = some p) (hk : (s.head h).kind = some kd) (hs : Suits kd r) :
    ∃ x, (s.bindProduct h r).find r.tag = some x ∧ (r.bindAs .making h .product).FramedBy x ∧
      x.body.piece = some (if r.kind = .panel then p else p.bound (r.resumes (s.head h).settings.guardMargin)
        (s.head h).settings.guardMargin r.made r.body.requires) := by
  let g := (s.head h).settings.guardMargin
  let x0 := r.bindAs .making h .product
  let s0 := (s.updRec r.tag fun x => x.bindAs .making h .product).updHead h fun x => x.bindProduct r.tag r.body
  have hx0 : s0.find r.tag = some x0 := by
    show (s.updRec r.tag fun x => x.bindAs .making h .product).find r.tag = _
    rw [State.find_updRec (f := fun x => x.bindAs .making h .product) fun _ => rfl, er]
    rfl
  have hhead : s0.head h = (s.head h).bindProduct r.tag r.body := State.updHead_head ..
  have hjoin : s0.joinResumed h r = if r.resumes g then
      (s0.addHolder r.tag .join (r.made - g)).updHead h fun x => { x with joinRelease := some (r.made + g) } else s0 := by
    rw [State.joinResumed_eq, hhead]
    rfl
  have hkind1 : ((s0.joinResumed h r).head h).kind = some kd := by
    rw [hjoin]
    split
    · rw [State.updHead_head, State.addHolder_head, hhead]
      exact hk
    · rw [hhead]
      exact hk
  have joined (hnp : r.kind ≠ .panel) : ∃ x, (s0.joinResumed h r).find r.tag = some x ∧ x0.FramedBy x ∧
      x.body.piece = some (if r.resumes g then (p.addHolder .join (r.made - g)).1 else p) := by
    rw [hjoin]
    split
    · exact State.addHolder_record hx0 rfl hnp hp .join (r.made - g)
    · exact ⟨x0, hx0, .refl x0, hp⟩
  rw [State.bindProduct]
  change ∃ x, ((s0.joinResumed h r).addEmptyFeeds h r).find r.tag = some x ∧ x0.FramedBy x ∧ _
  rcases hs with ⟨rfl, hstrand⟩ | ⟨rfl, hrope⟩ | ⟨rfl, hpanel⟩
  · have hnp : r.kind ≠ .panel := by rw [hstrand]; nofun
    have hreq (n : SlotIx) : r.body.requires n = false := by
      obtain ⟨d, hd⟩ := Record.body_of_strand hstrand
      rw [hd]
      rfl
    rw [if_neg hnp, Piece.bound, Piece.addFeeds_none hreq, State.addEmptyFeeds, hkind1]
    dsimp only
    exact joined hnp
  · have hnp : r.kind ≠ .panel := by rw [hrope]; nofun
    obtain ⟨y, hy, hyf, hyp⟩ := joined hnp
    rw [if_neg hnp, State.addEmptyFeeds, hkind1]
    dsimp only
    obtain ⟨z, hz, hzf, hzp⟩ := State.addFeeds_record (made := r.made) (req := r.body.requires) allSlots _ y _ hy hyf.state
      (by rw [hyf.kind]; exact hnp) hyp
    exact ⟨z, hz, hyf.trans hzf, hzp⟩
  · have hno : r.resumes g = false := decide_eq_false fun e => e.2.1 hpanel
    rw [if_pos hpanel, State.addEmptyFeeds, hkind1]
    dsimp only
    rw [hjoin, if_neg (by rw [hno]; nofun)]
    exact ⟨x0, hx0, .refl x0, hp⟩

/-! ## The answer -/

theorem Head.bindProduct_slot (x : Head) (tag : Nat) (b : Body) (n : SlotIx) : (x.bindProduct tag b).slot n = { required := b.requires n } := by
  simp [Head.bindProduct, Head.slot, requiredSlots]

theorem Body.requires_eq (b : Body) (n : SlotIx) : b.requires n = (match b with
    | .rope b => decide (n.val < b.strandCount)
    | .panel _ => decide (n.val < 2)
    | .strand _ | .coil _ => false) := by
  cases b <;> rfl

/-- Settles O36: the record is bound in MAKING with its holders, and the head has fresh blocks. -/
theorem bindProductResult : Obligations.BindProductResult := by
  unfold Obligations.BindProductResult
  intro h tag m s body r k S a hidle hk hs er hst hm margin
  obtain ⟨-, rfl⟩ := State.find_mem er
  have hsuits : Suits k r := hs
  have hanswer := answerBindProduct_suits (m := m) (State.presentHead_val (h := h) (by rw [hidle]; nofun)) er hk hsuits.product
  rw [if_neg (not_not_intro hidle), if_neg (by rcases hst with e | e <;> simp [e]), if_neg (not_not_intro hm)] at hanswer
  obtain ⟨p, hp⟩ : ∃ p, r.body.piece = some p := by
    rcases hsuits with ⟨-, e⟩ | ⟨-, e⟩ | ⟨-, e⟩
    · obtain ⟨d, hd⟩ := Record.body_of_strand e
      exact ⟨_, by rw [hd]; rfl⟩
    · obtain ⟨d, hd⟩ := Record.body_of_rope e
      exact ⟨_, by rw [hd]; rfl⟩
    · obtain ⟨d, hd⟩ := Record.body_of_panel e
      exact ⟨_, by rw [hd]; rfl⟩
  obtain ⟨x, hx, hxf, hxp⟩ := State.bindProduct_record er hp hk hsuits
  have hr' : (s.change (State.bindProduct h r)).find r.tag = some { x with mark := r.mark + 1, changed := s.clock.seconds } := by
    rw [State.change_state er hx, State.bindProduct_clock]
    rw [hxf.state]
    rcases hst with e | e <;> rw [e] <;> nofun
  have hhead : (s.change (State.bindProduct h r)).head h = { (s.head h).bindProduct r.tag r.body with
      joinRelease := if r.resumes margin then some (r.made + margin) else none } := State.bindProduct_head h r s
  have hmade : x.made = r.made := by
    rw [Record.made_piece hp, Record.made_piece hxp]
    split
    · rfl
    · exact Piece.bound_made ..
  refine ⟨_, _, exec_answer a rfl (hanswer.trans (State.doneMark_eq hr')), hr', hxf.state, hxf.bound, hxf.boundFrom, hmade, rfl, rfl,
    congrArg Head.state hhead, congrArg Head.product hhead, congrArg Head.source hhead, congrArg Head.holds hhead, congrArg Head.trim hhead,
    congrArg Head.lastLay hhead, congrArg Head.lastDeviation hhead, congrArg Head.window hhead, congrArg Head.row hhead,
    congrArg Head.pitchFraction hhead, congrArg Head.limitNoted hhead, congrArg Head.markHigh hhead, fun n => ?_,
    fun p' hp' => ⟨_, hxp, fun hint hnp hpos => ⟨fun R => ?_, ?_⟩, fun b hb n hn R => ?_, fun hpanel => ?_⟩, fun hno => ?_⟩
  · have hslot := (congrArg (fun y : Head => y.slot n) hhead).trans (Head.bindProduct_slot (s.head h) r.tag r.body n)
    exact ⟨congrArg FeedSlot.strand hslot, (congrArg FeedSlot.required hslot).trans (Body.requires_eq ..)⟩
  · have hresumes : r.resumes (s.head h).settings.guardMargin = true := decide_eq_true ⟨hint, hnp, hpos⟩
    rw [if_neg hnp, hresumes]
    exact Piece.bound_join ((R r (State.find_mem er).1).piece p hp) margin
  · have hresumes : r.resumes margin = true := decide_eq_true ⟨hint, hnp, hpos⟩
    exact (congrArg Head.joinRelease hhead).trans (if_pos hresumes)
  · have hnp : r.kind ≠ .panel := by rw [Record.kind, hb]; nofun
    rw [if_neg hnp]
    exact Piece.bound_feed ((R r (State.find_mem er).1).piece p hp) _ margin (by rw [hb]; exact decide_eq_true hn)
  · rw [if_pos hpanel]
    exact Option.some.inj (hp.symm.trans hp')
  · refine (congrArg Head.joinRelease hhead).trans (if_neg fun e => ?_)
    obtain ⟨hint, hnp, hpos⟩ := of_decide_eq_true e
    rcases hno with e | e | e
    · rw [hint] at e
      cases e
    · exact hnp e
    · exact Nat.ne_of_gt hpos e

end Sys2Proof.Machine
end

section
/-! PROOF. The take-up of one slot (R123, R124, R126, R131, R133): what it leaves of the rope, of the strand and of the slots. -/

namespace Sys2Proof.Machine

variable {h : HeadIx} {s t u : State} {r q x : Record} {y : StrandBody} {n m : SlotIx} {j k start pos : Nat} {hd : Holder} {p p' : Piece}
  {X : Holder → Prop} {out out' : SlotIx → Bool} {f f' g : RopeBody}

/-! ## A piece of which only some holders are altered -/

/-- From `p` to `q` no made length, no mark and no holder outside `X` has gone, and no holder outside `X` has come. -/
structure Piece.AltersOnly (X : Holder → Prop) (p q : Piece) : Prop where
  made : q.made = p.made
  covers : q.Covers p
  ok : p.Ok → q.Ok
  still : p.Ok → ∀ x, ¬X x → q.StillHolds x p
  has : p.Ok → ∀ x, ¬X x → q.hasHolder x = true → p.hasHolder x = true

theorem Piece.AltersOnly.refl (X : Holder → Prop) (p : Piece) : p.AltersOnly X p :=
  ⟨rfl, .refl p, id, fun _ x _ => .refl x p, fun _ _ _ => id⟩

theorem Piece.AltersOnly.trans {u : Piece} (a : p.AltersOnly X p') (b : p'.AltersOnly X u) : p.AltersOnly X u where
  made := b.made.trans a.made
  covers := b.covers.trans a.covers
  ok hp := b.ok (a.ok hp)
  still hp x hx := (b.still (a.ok hp) x hx).trans (a.still hp x hx)
  has hp x hx e := a.has hp x hx (b.has (a.ok hp) x hx e)

theorem Piece.AltersOnly.mono {Y : Holder → Prop} (a : p.AltersOnly X p') (hX : ∀ x, X x → Y x) : p.AltersOnly Y p' where
  made := a.made
  covers := a.covers
  ok := a.ok
  still hp x hx := a.still hp x (mt (hX x) hx)
  has hp x hx := a.has hp x (mt (hX x) hx)

theorem Piece.AltersOnly.hasHolder_iff (a : p.AltersOnly X p') (hp : p.Ok) (hx : ¬X hd) : p'.hasHolder hd = p.hasHolder hd :=
  Bool.eq_iff_iff.mpr ⟨a.has hp hd hx, (a.still hp hd hx).hasHolder (a.ok hp)⟩

theorem Piece.addHolder_altersOnly (hX : X hd) (start : Nat) (p : Piece) : p.AltersOnly X (p.addHolder hd start).1 where
  made := Piece.addHolder_made
  covers := Piece.addHolder_covers hd start p
  ok := Piece.addHolder_ok
  still hp x _ := Piece.addHolder_stillHolds hp hd x start
  has hp _ hx := hp.of_hasHolder_addHolder fun e => hx (e ▸ hX)

theorem Piece.releaseHolder_altersOnly (hX : X hd) (p : Piece) : p.AltersOnly X (p.releaseHolder hd) where
  made := rfl
  covers := Piece.releaseHolder_covers hd p
  ok := Piece.releaseHolder_ok
  still _ x hx := Piece.releaseHolder_stillHolds (fun e : x = hd => hx (e ▸ hX)) p
  has hp _ _ := hp.of_hasHolder_releaseHolder

/-! ## A rope that takes up -/

/-- From `f` to `f'` a rope's piece has been altered in holders of `X` only, the open entries of the slots `out` have been closed at
`pos`, and the count of faults that passed within one advance has not gone back. -/
structure RopeBody.Fed (X : Holder → Prop) (out : SlotIx → Bool) (pos : Nat) (f f' : RopeBody) : Prop where
  fields : f' = { f with piece := f'.piece, sources := closeEntries out pos f.sources, passed := f'.passed }
  piece : f.piece.AltersOnly X f'.piece
  passed : f.passed ≤ f'.passed

theorem RopeBody.Fed.refl (X : Holder → Prop) (pos : Nat) (f : RopeBody) : f.Fed X (fun _ => false) pos f where
  fields := by rw [closeEntries_none]
  piece := .refl X f.piece
  passed := le_rfl

theorem RopeBody.Fed.trans (a : f.Fed X out pos f') (b : f'.Fed X out' pos g) : f.Fed X (fun i => out i || out' i) pos g where
  fields := by
    have hf := a.fields
    have hsources := congrArg RopeBody.sources hf
    rw [b.fields, hsources, closeEntries_closeEntries_or, hf]
  piece := a.piece.trans b.piece
  passed := a.passed.trans b.passed

theorem RopeBody.Fed.mono {Y : Holder → Prop} (a : f.Fed X out pos f') (hX : ∀ x, X x → Y x) : f.Fed Y out pos f' :=
  ⟨a.fields, a.piece.mono hX, a.passed⟩

theorem RopeBody.Fed.sources (a : f.Fed X out pos f') : f'.sources = closeEntries out pos f.sources :=
  (congrArg RopeBody.sources a.fields :)

theorem RopeBody.Fed.orderedLength (a : f.Fed X out pos f') : f'.orderedLength = f.orderedLength :=
  (congrArg RopeBody.orderedLength a.fields :)

/-- The rope of tag `j`, where one is live, has been fed between `s` and `t`, and its mark has not been touched. -/
structure State.RopeFed (X : Holder → Prop) (out : SlotIx → Bool) (pos j : Nat) (s t : State) : Prop where
  fed : ∀ q f, s.find j = some q → q.body = .rope f → ∃ q' f', t.find j = some q' ∧ q'.body = .rope f' ∧ q'.state = q.state ∧
    q'.mark = q.mark ∧ f.Fed X out pos f'

theorem State.RopeFed.of_find (e : t.find j = s.find j) : s.RopeFed X (fun _ => false) pos j t where
  fed q f eq hf := ⟨q, f, e.trans eq, hf, rfl, rfl, .refl X pos f⟩

theorem State.RopeFed.trans (a : s.RopeFed X out pos j t) (b : t.RopeFed X out' pos j u) :
    s.RopeFed X (fun i => out i || out' i) pos j u where
  fed q f eq hf := by
    obtain ⟨q1, f1, e1, hf1, hst1, hm1, hfed1⟩ := a.fed q f eq hf
    obtain ⟨q2, f2, e2, hf2, hst2, hm2, hfed2⟩ := b.fed q1 f1 e1 hf1
    exact ⟨q2, f2, e2, hf2, hst2.trans hst1, hm2.trans hm1, hfed1.trans hfed2⟩

theorem State.RopeFed.mono {Y : Holder → Prop} (a : s.RopeFed X out pos j t) (hX : ∀ x, X x → Y x) : s.RopeFed Y out pos j t where
  fed q f eq hf := by
    obtain ⟨q', f', e', hf', hst, hm, hfed⟩ := a.fed q f eq hf
    exact ⟨q', f', e', hf', hst, hm, hfed.mono hX⟩

theorem State.RopeFed.congr_out (a : s.RopeFed X out pos j t) (e : out = out') : s.RopeFed X out' pos j t := e ▸ a

/-- Two steps of which the second closes no entry. -/
theorem State.RopeFed.andThen (a : s.RopeFed X out pos j t) (b : t.RopeFed X (fun _ => false) pos j u) : s.RopeFed X out pos j u :=
  (a.trans b).congr_out (funext fun i => Bool.or_false (out i))

theorem State.onPiece_ropeFed {c : Piece → Piece × Bool} (hc : ∀ p : Piece, p.AltersOnly X (c p).1) :
    s.RopeFed X (fun _ => false) pos j (s.onPiece j c) where
  fed q f eq hf := by
    have hfind := State.onPiece_find (f := c) eq (p := f.piece) (by rw [hf]; rfl)
    refine ⟨_, { f with piece := (c f.piece).1 }, hfind, ?_, rfl, rfl, ?_, hc f.piece, le_rfl⟩
    · simp only [Record.withPiece, hf, Body.withPiece]
    · rw [closeEntries_none]

theorem State.addHolder_ropeFed (hX : X hd) (start : Nat) : s.RopeFed X (fun _ => false) pos j (s.addHolder j hd start) := by
  rw [State.addHolder]
  split
  · split
    · exact State.onPiece_ropeFed (Piece.addHolder_altersOnly hX start)
    · exact .of_find rfl
  · exact .of_find rfl

theorem State.releaseHolder_ropeFed (hX : X hd) : s.RopeFed X (fun _ => false) pos j (s.releaseHolder j hd) :=
  State.onPiece_ropeFed (Piece.releaseHolder_altersOnly hX)

/-- The rope counts one more fault that has passed. -/
def Record.countPassed (x : Record) : Record := x.onRope fun b => { b with passed := b.passed + 1 }

@[simp] theorem Record.countPassed_tag (x : Record) : x.countPassed.tag = x.tag := Record.onRope_tag ..

theorem State.countPassed_find (eq : s.find j = some q) (hf : q.body = .rope f) :
    (s.updRec j Record.countPassed).find j = some { q with body := .rope { f with passed := f.passed + 1 } } := by
  obtain ⟨-, htag⟩ := State.find_mem eq
  rw [State.updRec_find Record.countPassed_tag, eq, Option.map_some, if_pos htag]
  simp only [Record.countPassed, Record.onRope, hf]

theorem State.countPassed_ropeFed : s.RopeFed X (fun _ => false) pos j (s.updRec j Record.countPassed) where
  fed q f eq hf := by
    refine ⟨_, _, State.countPassed_find eq hf, rfl, rfl, rfl, ?_, .refl X f.piece, Nat.le_succ _⟩
    rw [closeEntries_none]

theorem State.passFeed_ropeFed (hX : X (.feed n)) (added : Bool) : s.RopeFed X (fun _ => false) pos j (s.passFeed j n added) := by
  have hcount : s.RopeFed X (fun _ => false) pos j (if added = true then s.updRec j Record.countPassed else s) := by
    split
    · exact State.countPassed_ropeFed
    · exact .of_find rfl
  exact hcount.andThen (State.releaseHolder_ropeFed hX)

theorem State.unbindSlot_ropeFed {st : RecordState} (e : ((s.head h).slot n).strand = some k) (hp : (s.head h).product = some j)
    (hk : k ≠ j) : s.RopeFed X (fun i => decide (i = n)) pos j (s.unbindSlot h st pos n) where
  fed q f eq hf := by
    have hfind := State.unbindSlot_find_product (st := st) (pos := pos) e hp hk
    rw [eq, Option.map_some] at hfind
    refine ⟨_, { f with sources := closeEntries (fun i => decide (i = n)) pos f.sources }, hfind, ?_, rfl, rfl, rfl, .refl X f.piece, le_rfl⟩
    simp only [Record.closeSources, hf, Body.withSources, Body.sources]

end Sys2Proof.Machine
end

section
/-! PROOF. The take-up of one slot, in its steps (R124, R126, R131, R133). -/

namespace Sys2Proof.Machine

variable {h : HeadIx} {s t u : State} {r q x : Record} {y : StrandBody} {n i : SlotIx} {j k m m' sum pos factor : Nat} {p : Piece}
  {X : Holder → Prop} {out : SlotIx → Bool} {f f' : RopeBody} {d : Draw} {K : HeadIx → Option MachineKind}

/-! ## The steps -/

/-- A strand as a consumption with a fraction left over leaves it (R124, R131). -/
def Record.taken (d : Draw) (left : Nat) (x : Record) : Record := x.onStrand fun y => { y with consumed := d.consumed, fraction := left }

@[simp] theorem Record.taken_tag (d : Draw) (left : Nat) (x : Record) : (x.taken d left).tag = x.tag := Record.onStrand_tag ..

/-- The strand drawn, the accumulator set, and the remaining length compared (R124, R133). -/
def State.taken (h : HeadIx) (n : SlotIx) (x : Record) (y : StrandBody) (sum : Nat) (s : State) : State :=
  ((s.updRec x.tag (Record.taken (y.draw (sum / fine)) (sum % fine))).updSlot h n fun z => { z with acc := sum % fine }).checkLow h n
    (y.piece.made - (y.draw (sum / fine)).consumed)

/-- The stretch drawn is faulty (R126). -/
def StrandBody.drawsBad (y : StrandBody) (amount : Nat) : Bool :=
  (y.draw amount).clamped || (y.draw amount).faulty y.piece.spans

/-- FEEDn where the stretch drawn is faulty (R126). -/
def State.feedMarked (j : Nat) (n : SlotIx) (m : Nat) (bad : Bool) (s : State) : State := if bad then s.addHolder j (.feed n) m else s

/-- A strand drawn to its end (R131): the slot is emptied, and a required one holds FEEDn from there on (R126). -/
def State.slotSpent (h : HeadIx) (j : Nat) (n : SlotIx) (m' : Nat) (required added : Bool) (s : State) : State :=
  let t := s.unbindSlot h .spent m' n
  if required then if t.hasHolder j (.feed n) then t else t.addHolder j (.feed n) m' else t.passFeed j n added

/-- A strand not drawn to its end (R126): FEEDn is held while its top stands inside a span. -/
def State.slotDrawn (h : HeadIx) (j : Nat) (n : SlotIx) (inside added : Bool) (s : State) : State :=
  let t := s.updSlot h n fun z => { z with spanHolding := inside }
  if inside then t else t.passFeed j n added

theorem State.takeUpSlot_fed (e : s.fedBy h n = some (x, y)) (hsum : ((s.head h).slot n).acc + (m' - m) * factor = sum) :
    s.takeUpSlot h j factor m m' n =
      let t := s.taken h n x y sum
      let u := t.feedMarked j n m (y.drawsBad (sum / fine))
      let added := u.hasHolder j (.feed n) && !t.hasHolder j (.feed n)
      if (y.draw (sum / fine)).spent then u.slotSpent h j n m' ((s.head h).slot n).required added
      else u.slotDrawn h j n (topInside (y.draw (sum / fine)).top1 y.piece.spans) added := by
  subst hsum
  rw [State.takeUpSlot, e]
  simp only [State.slotSpent, State.slotDrawn, State.feedMarked, StrandBody.drawsBad, State.taken]
  congr 1
  cases topInside _ y.piece.spans <;> rfl

theorem State.takeUpSlot_empty (e : s.fedBy h n = none) : s.takeUpSlot h j factor m m' n = s := by rw [State.takeUpSlot, e]

/-! ## What a step leaves of the head -/

/-- From `s` to `t` nothing of head `h` has been altered but slot `n`. -/
structure State.OnlySlot (h : HeadIx) (n : SlotIx) (s t : State) : Prop where
  head : t.head h = { s.head h with slots := (t.head h).slots }
  slot : ∀ i, i ≠ n → (t.head h).slot i = (s.head h).slot i

theorem State.OnlySlot.refl (h : HeadIx) (n : SlotIx) (s : State) : s.OnlySlot h n s := ⟨rfl, fun _ _ => rfl⟩

theorem State.OnlySlot.of_head (e : t.head h = s.head h) : s.OnlySlot h n t := ⟨by rw [e], fun i _ => by rw [e]⟩

theorem State.OnlySlot.trans (a : s.OnlySlot h n t) (b : t.OnlySlot h n u) : s.OnlySlot h n u where
  head := by rw [b.head, a.head]
  slot i hi := (b.slot i hi).trans (a.slot i hi)

theorem State.OnlySlot.of_updSlot {c : FeedSlot → FeedSlot} (e : t.head h = (s.head h).updSlot n c) : s.OnlySlot h n t where
  head := by rw [e]; rfl
  slot i hi := by rw [e, Head.updSlot_slot_ne _ _ hi]

theorem State.feedMarked_head (j : Nat) (n : SlotIx) (m : Nat) (bad : Bool) (s : State) : (s.feedMarked j n m bad).head h = s.head h := by
  rw [State.feedMarked]
  split
  · exact State.addHolder_head ..
  · rfl

theorem State.passFeed_head (j : Nat) (n : SlotIx) (added : Bool) (s : State) : (s.passFeed j n added).head h = s.head h := by
  rw [State.passFeed, State.releaseHolder_head]
  split <;> rfl

theorem State.slotSpent_head (j : Nat) (n : SlotIx) (m' : Nat) (required added : Bool) (s : State) :
    (s.slotSpent h j n m' required added).head h = (s.unbindSlot h .spent m' n).head h := by
  rw [State.slotSpent]
  split
  · split
    · rfl
    · exact State.addHolder_head ..
  · exact State.passFeed_head ..

theorem State.slotDrawn_head (j : Nat) (n : SlotIx) (inside added : Bool) (s : State) :
    (s.slotDrawn h j n inside added).head h = (s.head h).updSlot n fun z => { z with spanHolding := inside } := by
  rw [State.slotDrawn]
  split
  · exact State.updHead_head ..
  · rw [State.passFeed_head]
    exact State.updHead_head ..

theorem Head.updSlot_updSlot (x : Head) (n : SlotIx) (c d : FeedSlot → FeedSlot) :
    (x.updSlot n c).updSlot n d = x.updSlot n fun z => d (c z) := by
  simp only [Head.updSlot, Head.slot, Vector.set_set, Vector.getElem_set_self]

theorem State.taken_head (h : HeadIx) (n : SlotIx) (x : Record) (y : StrandBody) (sum : Nat) (s : State) :
    (s.taken h n x y sum).head h = (s.head h).updSlot n fun z => FeedSlot.noteLow
      (decide (y.piece.made - (y.draw (sum / fine)).consumed < (s.head h).settings.feedLow * 1000)) { z with acc := sum % fine } := by
  rw [State.taken, State.checkLow_head, State.updSlot_head, Head.updSlot_updSlot]
  rfl

theorem State.slotSpent_onlySlot (s : State) (h : HeadIx) (j : Nat) (n : SlotIx) (m' : Nat) (required added : Bool) :
    s.OnlySlot h n (s.slotSpent h j n m' required added) := by
  refine .trans (t := s.unbindSlot h .spent m' n) ?_ (.of_head (State.slotSpent_head ..))
  cases hk : ((s.head h).slot n).strand with
  | none => rw [State.unbindSlot_empty hk]; exact .refl ..
  | some k => exact .of_updSlot (State.unbindSlot_head_eq hk)

theorem State.takeUpSlot_onlySlot (s : State) (h : HeadIx) (j factor m m' : Nat) (n : SlotIx) :
    s.OnlySlot h n (s.takeUpSlot h j factor m m' n) := by
  cases e : s.fedBy h n with
  | none =>
    rw [State.takeUpSlot_empty e]
    exact .refl h n s
  | some a =>
    obtain ⟨x, y⟩ := a
    rw [State.takeUpSlot_fed e rfl]
    have hmarked (sum : Nat) (bad : Bool) : s.OnlySlot h n ((s.taken h n x y sum).feedMarked j n m bad) :=
      .trans (.of_updSlot (State.taken_head ..)) (.of_head (State.feedMarked_head ..))
    dsimp only
    split
    · exact (hmarked _ _).trans (State.slotSpent_onlySlot ..)
    · exact (hmarked _ _).trans (.of_updSlot (State.slotDrawn_head ..))

/-! ## What the steps leave of the records -/

theorem State.addHolder_find_other (hk : k ≠ j) (hd : Holder) (start : Nat) (s : State) : (s.addHolder j hd start).find k = s.find k := by
  rw [State.addHolder]
  split
  · split
    · exact State.onPiece_find_ne hk
    · rfl
  · rfl

theorem State.feedMarked_find (hk : k ≠ j) (n : SlotIx) (m : Nat) (bad : Bool) (s : State) :
    (s.feedMarked j n m bad).find k = s.find k := by
  rw [State.feedMarked]
  split
  · exact State.addHolder_find_other hk ..
  · rfl

theorem State.passFeed_find (hk : k ≠ j) (n : SlotIx) (added : Bool) (s : State) : (s.passFeed j n added).find k = s.find k := by
  rw [State.passFeed, State.releaseHolder, State.onPiece_find_ne hk]
  split
  · exact State.find_updRec_ne (fun _ => Record.onRope_tag ..) hk
  · rfl

theorem State.slotSpent_find (hk : k ≠ j) (n : SlotIx) (m' : Nat) (required added : Bool) (s : State) :
    (s.slotSpent h j n m' required added).find k = (s.unbindSlot h .spent m' n).find k := by
  rw [State.slotSpent]
  split
  · split
    · rfl
    · exact State.addHolder_find_other hk ..
  · exact State.passFeed_find hk ..

theorem State.slotDrawn_find (hk : k ≠ j) (n : SlotIx) (inside added : Bool) (s : State) :
    (s.slotDrawn h j n inside added).find k = s.find k := by
  rw [State.slotDrawn]
  split
  · rfl
  · exact State.passFeed_find hk ..

theorem State.taken_find (h : HeadIx) (n : SlotIx) (x : Record) (y : StrandBody) (sum k : Nat) (s : State) :
    (s.taken h n x y sum).find k = (s.find k).map fun z =>
      if z.tag = x.tag then z.taken (y.draw (sum / fine)) (sum % fine) else z := by
  rw [State.taken, State.find_of_store (State.checkLow_store ..), State.updSlot_find]
  exact State.updRec_find (Record.taken_tag _ _) ..

theorem State.taken_find_ne (hk : k ≠ x.tag) : (s.taken h n x y sum).find k = s.find k := by
  rw [State.taken_find]
  cases hf : s.find k with
  | none => rfl
  | some z =>
    obtain ⟨-, rfl⟩ := State.find_mem hf
    rw [Option.map_some, if_neg hk]

end Sys2Proof.Machine
end

section
/-! PROOF. What the take-up of one slot leaves of the rope, the strand and the slot (R123, R124, R126, R131, R133). -/

namespace Sys2Proof.Machine

variable {h : HeadIx} {s t u : State} {r q x : Record} {y : StrandBody} {n i : SlotIx} {j k m m' sum pos factor start : Nat} {p : Piece}
  {X : Holder → Prop} {out : SlotIx → Bool} {f f' : RopeBody} {d : Draw} {K : HeadIx → Option MachineKind} {required added bad inside : Bool}

/-- The holder FEEDn and no other. -/
def feedOnly (n : SlotIx) (x : Holder) : Prop := x = .feed n

/-! ## Of a rope in MAKING -/

/-- The rope of tag `j` as `s` has it. -/
structure State.MakesRope (j : Nat) (f : RopeBody) (s : State) : Prop where
  found : ∃ q, s.find j = some q ∧ q.body = .rope f ∧ q.state = .making

theorem State.MakesRope.pieceOf (a : s.MakesRope j f) : s.pieceOf j = some f.piece := by
  obtain ⟨q, eq, hf, -⟩ := a.found
  exact State.pieceOf_of_record eq (by rw [hf]; rfl)

theorem State.MakesRope.hasHolder (a : s.MakesRope j f) (x : Holder) : s.hasHolder j x = f.piece.hasHolder x :=
  State.hasHolder_of_piece a.pieceOf

theorem State.RopeFed.makesRope (b : s.RopeFed X out pos j t) (a : s.MakesRope j f) : ∃ f', t.MakesRope j f' ∧ f.Fed X out pos f' := by
  obtain ⟨q, eq, hf, hst⟩ := a.found
  obtain ⟨q', f', eq', hf', hst', -, hfed⟩ := b.fed q f eq hf
  exact ⟨f', ⟨q', eq', hf', hst'.trans hst⟩, hfed⟩

theorem State.onPiece_makesRope (c : Piece → Piece × Bool) (a : s.MakesRope j f) :
    (s.onPiece j c).MakesRope j { f with piece := (c f.piece).1 } := by
  obtain ⟨q, eq, hf, hst⟩ := a.found
  refine ⟨_, State.onPiece_find (f := c) eq (p := f.piece) (by rw [hf]; rfl), ?_, hst⟩
  simp only [Record.withPiece, hf, Body.withPiece]

theorem State.addHolder_makesRope (hd : Holder) (start : Nat) (a : s.MakesRope j f) :
    (s.addHolder j hd start).MakesRope j { f with piece := (f.piece.addHolder hd start).1 } := by
  have hstep : s.addHolder j hd start = s.onPiece j (Piece.addHolder hd start) := by
    obtain ⟨q, eq, hf, hst⟩ := a.found
    rw [State.addHolder, eq]
    exact if_pos ⟨hst, by rw [Record.kind, hf]; nofun⟩
  rw [hstep]
  exact State.onPiece_makesRope _ a

theorem State.passFeed_makesRope (n : SlotIx) (added : Bool) (a : s.MakesRope j f) : (s.passFeed j n added).MakesRope j
    { f with piece := f.piece.releaseHolder (.feed n), passed := f.passed + if added then 1 else 0 } := by
  rw [State.passFeed]
  cases added
  · exact State.onPiece_makesRope (fun p => (p.releaseHolder (.feed n), false)) a
  · obtain ⟨q, eq, hf, hst⟩ := a.found
    exact State.onPiece_makesRope (f := { f with passed := f.passed + 1 }) (fun p => (p.releaseHolder (.feed n), false))
      ⟨_, State.countPassed_find eq hf, rfl, hst⟩

/-- A holder held from below the made length has marked the stretch up to it. -/
theorem Piece.HeldFrom.marks {hd : Holder} (hp : p.Ok) (hh : p.HeldFrom hd start) (hlt : start < p.made) :
    p.Marks start p.made (KindSet.only hd.kind) := by
  rcases hh with ⟨z, hz, hopen, -, hkind, hlo⟩ | ⟨z, hz, -, -, hlo⟩
  · exact ⟨z, hz, hlo, ((hp.list.spans z hz).openTop hopen).ge, hkind⟩
  · have htop := (hp.pending z hz).atTop
    omega

/-! ## The steps, for a rope -/

/-- The rope between the draw and the settling of the slot. -/
theorem State.taken_makesRope (hx : x.tag ≠ j) (a : s.MakesRope j f) : (s.taken h n x y sum).MakesRope j f := by
  obtain ⟨q, eq, hf, hst⟩ := a.found
  exact ⟨q, (State.taken_find_ne (Ne.symm hx)).trans eq, hf, hst⟩

theorem State.feedMarked_ropeFed : s.RopeFed (feedOnly n) (fun _ => false) pos j (s.feedMarked j n m bad) := by
  rw [State.feedMarked]
  split
  · exact State.addHolder_ropeFed (X := feedOnly n) rfl m
  · exact .of_find rfl

/-- A faulty stretch is held from where the advance began (R126). -/
theorem State.feedMarked_makesRope (a : s.MakesRope j f) (hp : f.piece.Ok) : ∃ f', (s.feedMarked j n m bad).MakesRope j f' ∧
    f.Fed (feedOnly n) (fun _ => false) pos f' ∧ (bad = true → f'.piece.HeldFrom (.feed n) m) := by
  obtain ⟨f', hf', hfed⟩ := (State.feedMarked_ropeFed (n := n) (m := m) (bad := bad) (pos := pos)).makesRope a
  refine ⟨f', hf', hfed, fun hbad => ?_⟩
  have hadded := State.addHolder_makesRope (.feed n) m a
  have hstep : s.feedMarked j n m bad = s.addHolder j (.feed n) m := if_pos hbad
  rw [hstep] at hf'
  have hpiece := hf'.pieceOf.symm.trans hadded.pieceOf
  rw [Option.some.inj hpiece]
  exact Piece.addHolder_heldFrom hp (.feed n) m

theorem State.slotSpent_ropeFed (hk : ((s.head h).slot n).strand = some k) (hp : (s.head h).product = some j) (hne : k ≠ j) :
    s.RopeFed (feedOnly n) (fun i => decide (i = n)) m' j (s.slotSpent h j n m' required added) := by
  have hunbound : s.RopeFed (feedOnly n) (fun i => decide (i = n)) m' j (s.unbindSlot h .spent m' n) :=
    State.unbindSlot_ropeFed hk hp hne
  rw [State.slotSpent]
  split
  · split
    · exact hunbound
    · exact hunbound.andThen (State.addHolder_ropeFed (X := feedOnly n) rfl m')
  · exact hunbound.andThen (State.passFeed_ropeFed (X := feedOnly n) rfl added)

theorem State.slotDrawn_ropeFed : s.RopeFed (feedOnly n) (fun _ => false) pos j (s.slotDrawn h j n inside added) := by
  have hslot : s.RopeFed (feedOnly n) (fun _ => false) pos j (s.updSlot h n fun z => { z with spanHolding := inside }) := .of_find rfl
  rw [State.slotDrawn]
  split
  · exact hslot
  · exact hslot.andThen (State.passFeed_ropeFed (X := feedOnly n) rfl added)

/-- A slot whose strand was drawn to its end: FEEDn is held on, or given up, as the slot is required or not (R126). -/
theorem State.slotSpent_makesRope (hk : ((s.head h).slot n).strand = some k) (hp : (s.head h).product = some j) (hne : k ≠ j)
    (a : s.MakesRope j f) (hok : f.piece.Ok) : ∃ f', (s.slotSpent h j n m' required added).MakesRope j f' ∧
      (required = true → f'.piece.hasHolder (.feed n) = true ∧ f'.piece.StillHolds (.feed n) f.piece) ∧
      (required = false → f'.piece.hasHolder (.feed n) = false) := by
  obtain ⟨f1, hf1, hfed⟩ :=
    (State.unbindSlot_ropeFed (X := fun _ => False) (st := .spent) (pos := m') hk hp hne).makesRope a
  have hstill := hfed.piece.still hok (.feed n) not_false
  have hok1 := hfed.piece.ok hok
  rw [State.slotSpent]
  cases required
  · refine ⟨_, State.passFeed_makesRope n added hf1, nofun, fun _ => Piece.releaseHolder_hasHolder ..⟩
  · rw [if_pos rfl, hf1.hasHolder]
    split
    · next hhas => exact ⟨f1, hf1, fun _ => ⟨hhas, hstill⟩, nofun⟩
    · refine ⟨_, State.addHolder_makesRope (.feed n) m' hf1, fun _ => ⟨?_, ?_⟩, nofun⟩
      · exact (Piece.addHolder_heldFrom hok1 (.feed n) m').hasHolder (Piece.addHolder_ok hok1)
      · exact (Piece.addHolder_stillHolds hok1 (.feed n) (.feed n) m').trans hstill

/-- A slot whose strand was not drawn to its end: FEEDn is held on inside a span, and given up outside (R126). -/
theorem State.slotDrawn_makesRope (a : s.MakesRope j f) : (s.slotDrawn h j n inside added).MakesRope j (if inside then f else
    { f with piece := f.piece.releaseHolder (.feed n), passed := f.passed + if added then 1 else 0 }) := by
  have hslot : (s.updSlot h n fun z => { z with spanHolding := inside }).MakesRope j f := ⟨a.found⟩
  rw [State.slotDrawn]
  cases inside
  · exact State.passFeed_makesRope n added hslot
  · exact hslot

end Sys2Proof.Machine
end

section
/-! PROOF. The take-up of one slot, as a whole (R123, R124, R126, R131, R133). -/

namespace Sys2Proof.Machine

variable {h : HeadIx} {s t u : State} {r q x : Record} {y : StrandBody} {n i : SlotIx} {j k m m' sum pos factor start : Nat} {p : Piece}
  {X : Holder → Prop} {out : SlotIx → Bool} {f f' : RopeBody} {d : Draw} {K : HeadIx → Option MachineKind} {required added bad inside : Bool}

/-- What a slot draws from in an advance from `m` to `m'`: its accumulator and the length drawn, in 2^-16 mm (R124). -/
def Head.drawSum (x : Head) (factor m m' : Nat) (n : SlotIx) : Nat := (x.slot n).acc + (m' - m) * factor

/-- The state in which the slot is settled: its strand is drawn and a faulty stretch is held (R124, R126). -/
def State.marked (h : HeadIx) (j m : Nat) (n : SlotIx) (x : Record) (y : StrandBody) (sum : Nat) (s : State) : State :=
  (s.taken h n x y sum).feedMarked j n m (y.drawsBad (sum / fine))

/-- FEEDn was added in this advance (R126). -/
def State.feedAdded (h : HeadIx) (j m : Nat) (n : SlotIx) (x : Record) (y : StrandBody) (sum : Nat) (s : State) : Bool :=
  (s.marked h j m n x y sum).hasHolder j (.feed n) && !(s.taken h n x y sum).hasHolder j (.feed n)

theorem State.takeUpSlot_eq (e : s.fedBy h n = some (x, y)) (hsum : (s.head h).drawSum factor m m' n = sum) :
    s.takeUpSlot h j factor m m' n = if (y.draw (sum / fine)).spent then
        (s.marked h j m n x y sum).slotSpent h j n m' ((s.head h).slot n).required (s.feedAdded h j m n x y sum)
      else (s.marked h j m n x y sum).slotDrawn h j n (topInside (y.draw (sum / fine)).top1 y.piece.spans)
        (s.feedAdded h j m n x y sum) := State.takeUpSlot_fed e hsum

theorem State.marked_head (h : HeadIx) (j m : Nat) (n : SlotIx) (x : Record) (y : StrandBody) (sum : Nat) (s : State) :
    (s.marked h j m n x y sum).head h = (s.head h).updSlot n fun z => FeedSlot.noteLow
      (decide (y.piece.made - (y.draw (sum / fine)).consumed < (s.head h).settings.feedLow * 1000)) { z with acc := sum % fine } :=
  (State.feedMarked_head ..).trans (State.taken_head ..)

theorem State.marked_strand (h : HeadIx) (j m : Nat) (n : SlotIx) (x : Record) (y : StrandBody) (sum : Nat) (s : State) :
    (((s.marked h j m n x y sum).head h).slot n).strand = ((s.head h).slot n).strand := by
  rw [State.marked_head, Head.updSlot_slot]
  rfl

theorem State.marked_product (h : HeadIx) (j m : Nat) (n : SlotIx) (x : Record) (y : StrandBody) (sum : Nat) (s : State) :
    ((s.marked h j m n x y sum).head h).product = (s.head h).product := by
  rw [State.marked_head]
  rfl

/-! ## The strand and the slot -/

/-- A strand as the take-up leaves it: drawn, and SPENT where that brought it to its made length (R124, R131). -/
def Record.afterTaking (d : Draw) (left : Nat) (x : Record) : Record :=
  if d.spent then (x.taken d left).unbindTo .spent else x.taken d left

theorem Record.afterTaking_eq (hy : x.body = .strand y) (hm : x.state ≠ .making) (left : Nat) : x.afterTaking d left =
    if d.spent then
      { x with body := .strand { y with consumed := d.consumed, fraction := left }, state := .spent, bound := none, boundFrom := none }
    else { x with body := .strand { y with consumed := d.consumed, fraction := left } } := by
  have htaken : x.taken d left = { x with body := .strand { y with consumed := d.consumed, fraction := left } } := by
    simp only [Record.taken, Record.onStrand, hy]
  rw [Record.afterTaking, htaken, Record.unbindTo_plain (x := { x with body := .strand { y with consumed := d.consumed, fraction := left } }) hm]

theorem State.takeUpSlot_find_strand (e : s.fedBy h n = some (x, y)) (hp : (s.head h).product = some j) (hne : x.tag ≠ j)
    (hsum : (s.head h).drawSum factor m m' n = sum) :
    (s.takeUpSlot h j factor m m' n).find x.tag = some (x.afterTaking (y.draw (sum / fine)) (sum % fine)) := by
  have hx := State.strand_of_fedBy e
  obtain ⟨hfind, -⟩ := State.fedBy_find e
  have hmarked : (s.marked h j m n x y sum).find x.tag = some (x.taken (y.draw (sum / fine)) (sum % fine)) := by
    rw [State.marked, State.feedMarked_find hne, State.taken_find, hfind, Option.map_some, if_pos rfl]
  rw [State.takeUpSlot_eq e hsum, Record.afterTaking]
  split
  · rw [State.slotSpent_find hne, State.unbindSlot_find_strand ((State.marked_strand ..).trans hx), hmarked, Option.map_some]
    rw [State.marked_product, hp]
    exact fun h => hne (Option.some.inj h).symm
  · rw [State.slotDrawn_find hne, hmarked]

/-- A slot as the take-up leaves it (R123, R124, R126, R133). -/
theorem State.takeUpSlot_slot (e : s.fedBy h n = some (x, y)) (hsum : (s.head h).drawSum factor m m' n = sum) :
    ((s.takeUpSlot h j factor m m' n).head h).slot n = if (y.draw (sum / fine)).spent then
        { required := ((s.head h).slot n).required }
      else
        { (s.head h).slot n with
          acc := sum % fine
          spanHolding := topInside (y.draw (sum / fine)).top1 y.piece.spans
          lowNoted := ((s.head h).slot n).lowNoted ||
            decide (y.piece.made - (y.draw (sum / fine)).consumed < (s.head h).settings.feedLow * 1000) } := by
  have hx := State.strand_of_fedBy e
  rw [State.takeUpSlot_eq e hsum]
  split
  · rw [State.slotSpent_head, State.unbindSlot_head_eq ((State.marked_strand ..).trans hx), Head.updSlot_slot, State.marked_head,
      Head.updSlot_slot]
    rfl
  · rw [State.slotDrawn_head, Head.updSlot_slot, State.marked_head, Head.updSlot_slot]
    rfl

theorem State.takeUpSlot_low (e : s.fedBy h n = some (x, y)) (hsum : (s.head h).drawSum factor m m' n = sum)
    (hl : y.piece.made - (y.draw (sum / fine)).consumed < (s.head h).settings.feedLow * 1000)
    (h0 : ((s.head h).slot n).lowNoted = false) : (s.takeUpSlot h j factor m m' n).flagged h .alarm = true ∧
      ((s.takeUpSlot h j factor m m' n).attn.causesOf h).feedLow = true := by
  have htaken : (s.taken h n x y sum).flagged h .alarm = true ∧ ((s.taken h n x y sum).attn.causesOf h).feedLow = true := by
    refine State.checkLow_alarm ?_ ?_
    · rw [State.updSlot_head]; exact hl
    · rw [State.updSlot_head, Head.updSlot_slot]; exact h0
  have hmarked : (s.taken h n x y sum).Carries h (s.marked h j m n x y sum) := by
    rw [State.marked, State.feedMarked]
    split
    · exact State.addHolder_carries (.refl ..)
    · exact .refl ..
  have hend : (s.marked h j m n x y sum).Carries h (s.takeUpSlot h j factor m m' n) := by
    rw [State.takeUpSlot_eq e hsum]
    split
    · rw [State.slotSpent]
      split
      · split
        · exact State.unbindSlot_carries (.refl ..)
        · exact State.addHolder_carries (State.unbindSlot_carries (.refl ..))
      · exact State.passFeed_carries (State.unbindSlot_carries (.refl ..))
    · rw [State.slotDrawn]
      split
      · exact State.updSlot_carries (.refl ..)
      · exact State.passFeed_carries (State.updSlot_carries (.refl ..))
  obtain ⟨hflag, hcause⟩ := htaken
  have hall := hmarked.trans hend
  exact ⟨hall.flags _ hflag, hall.causes h .feedLow hcause⟩

theorem State.takeUpSlot_find_other (hj : k ≠ j) (hp : (s.head h).product = some j) (hk : ((s.head h).slot n).strand ≠ some k) :
    (s.takeUpSlot h j factor m m' n).find k = s.find k := by
  cases e : s.fedBy h n with
  | none => rw [State.takeUpSlot_empty e]
  | some a =>
    obtain ⟨x, y⟩ := a
    have hx := State.strand_of_fedBy e
    have hne : x.tag ≠ k := fun hxk => hk (hxk ▸ hx)
    have hmarked (sum : Nat) : (s.marked h j m n x y sum).find k = s.find k := by
      rw [State.marked, State.feedMarked_find hj, State.taken_find_ne (Ne.symm hne)]
    rw [State.takeUpSlot_eq e rfl]
    split
    · rw [State.slotSpent_find hj, State.unbindSlot_find_other ((State.marked_strand ..).trans hx) ?_ hne, hmarked]
      rw [State.marked_product, hp]
      exact fun h => hj (Option.some.inj h).symm
    · rw [State.slotDrawn_find hj, hmarked]

/-! ## The rope -/

theorem StrandBody.spent_iff : (y.draw m).spent = true ↔ 0 < m ∧ y.piece.made - y.consumed ≤ m := by
  rw [StrandBody.draw, Bool.and_eq_true, decide_eq_true_iff, decide_eq_true_iff]
  rfl

theorem State.marked_makesRope (hx : x.tag ≠ j) (a : s.MakesRope j f) (hok : f.piece.Ok) : ∃ f', (s.marked h j m n x y sum).MakesRope j f' ∧
    f.Fed (feedOnly n) (fun _ => false) pos f' ∧ (y.drawsBad (sum / fine) = true → f'.piece.HeldFrom (.feed n) m) ∧
    s.feedAdded h j m n x y sum = (f'.piece.hasHolder (.feed n) && !f.piece.hasHolder (.feed n)) := by
  obtain ⟨f', hf', hfed, hheld⟩ := State.feedMarked_makesRope (n := n) (m := m) (bad := y.drawsBad (sum / fine)) (pos := pos)
    (State.taken_makesRope (h := h) (n := n) (y := y) (sum := sum) hx a) hok
  refine ⟨f', hf', hfed, hheld, ?_⟩
  rw [State.feedAdded, State.marked, hf'.hasHolder, (State.taken_makesRope hx a).hasHolder]

theorem State.takeUpSlot_ropeFed (hp : (s.head h).product = some j) (hsum : (s.head h).drawSum factor m m' n = sum) :
    s.RopeFed (feedOnly n) (fun i => decide (i = n) && s.runsOut h n (sum / fine)) m' j (s.takeUpSlot h j factor m m' n) := by
  refine ⟨fun q f eq hf => State.RopeFed.fed ?_ q f eq hf⟩
  cases e : s.fedBy h n with
  | none =>
    rw [State.takeUpSlot_empty e]
    refine State.RopeFed.congr_out (State.RopeFed.of_find rfl) (funext fun i => ?_)
    simp only [State.runsOut, e, Bool.and_false]
  | some a =>
    obtain ⟨x, y⟩ := a
    have hx := State.strand_of_fedBy e
    have hne : x.tag ≠ j := fun hxj => by
      obtain ⟨hfx, hy⟩ := State.fedBy_find e
      rw [hxj, eq] at hfx
      cases hfx
      exact Body.noConfusion (hf.symm.trans hy)
    have hmarked : s.RopeFed (feedOnly n) (fun _ => false) m' j (s.marked h j m n x y sum) :=
      (State.RopeFed.of_find (State.taken_find_ne (Ne.symm hne))).andThen State.feedMarked_ropeFed
    rw [State.takeUpSlot_eq e hsum, State.runsOut_eq_spent e]
    cases (y.draw (sum / fine)).spent
    · rw [if_neg Bool.false_ne_true]
      exact (hmarked.andThen State.slotDrawn_ropeFed).congr_out (funext fun i => (Bool.and_false _).symm)
    · rw [if_pos rfl]
      exact (hmarked.trans (State.slotSpent_ropeFed ((State.marked_strand ..).trans hx) ((State.marked_product ..).trans hp) hne)).congr_out
        (funext fun i => by rw [Bool.false_or, Bool.and_true])

/-- What a slot's take-up leaves of FEEDn in the rope (R126). -/
structure RopeBody.FeedSettled (n : SlotIx) (m : Nat) (required bad spent within : Bool) (f f' : RopeBody) : Prop where
  kept : spent = true → required = true → f'.piece.hasHolder (.feed n) = true ∧ (bad = true → f'.piece.HeldFrom (.feed n) m)
  freed : spent = true → required = false → f'.piece.hasHolder (.feed n) = false
  inside : spent = false → within = true → bad = true → f'.piece.HeldFrom (.feed n) m
  outside : spent = false → within = false → f'.piece.hasHolder (.feed n) = false ∧
    (bad = true → (m < f.piece.made → f'.piece.Marks m f.piece.made (KindSet.only .feed)) ∧
      (f.piece.hasHolder (.feed n) = true ∨ f.passed < f'.passed))

theorem State.takeUpSlot_settles (e : s.fedBy h n = some (x, y)) (hp : (s.head h).product = some j) (hne : x.tag ≠ j)
    (hsum : (s.head h).drawSum factor m m' n = sum) (a : s.MakesRope j f) (hok : f.piece.Ok) :
    ∃ f', (s.takeUpSlot h j factor m m' n).MakesRope j f' ∧ f.FeedSettled n m ((s.head h).slot n).required (y.drawsBad (sum / fine))
      (y.draw (sum / fine)).spent (topInside (y.draw (sum / fine)).top1 y.piece.spans) f' := by
  have hx := State.strand_of_fedBy e
  obtain ⟨f1, hf1, hfed, hheld, hadded⟩ := State.marked_makesRope (h := h) (m := m) (n := n) (y := y) (sum := sum) (pos := m') hne a hok
  have hok1 := hfed.piece.ok hok
  rw [State.takeUpSlot_eq e hsum]
  cases hspent : (y.draw (sum / fine)).spent
  · rw [if_neg Bool.false_ne_true]
    refine ⟨_, State.slotDrawn_makesRope hf1, nofun, nofun, fun _ hin hbad => ?_, fun _ hout => ?_⟩
    · rw [if_pos hin]
      exact hheld hbad
    · rw [if_neg (Bool.eq_false_iff.mp hout), hadded]
      refine ⟨Piece.releaseHolder_hasHolder .., fun hbad => ⟨fun hlt => ?_, ?_⟩⟩
      · have hmarks := (hheld hbad).marks hok1 (by rw [hfed.piece.made]; exact hlt)
        rw [hfed.piece.made] at hmarks
        exact (Piece.releaseHolder_covers (.feed n) f1.piece).marks hmarks
      · have hnow := (hheld hbad).hasHolder hok1
        have hpassed := hfed.passed
        rw [hnow]
        cases hbefore : f.piece.hasHolder (.feed n)
        · exact .inr (by simp only [Bool.not_false, Bool.and_true, if_pos]; omega)
        · exact .inl rfl
  · rw [if_pos rfl]
    obtain ⟨f2, hf2, hkept, hfreed⟩ := State.slotSpent_makesRope (required := ((s.head h).slot n).required)
      (added := s.feedAdded h j m n x y sum) (m' := m') ((State.marked_strand ..).trans hx) ((State.marked_product ..).trans hp) hne hf1 hok1
    exact ⟨f2, hf2, fun _ hreq => ⟨(hkept hreq).1, fun hbad => (hkept hreq).2.heldFrom (hheld hbad)⟩, fun _ => hfreed, nofun, nofun⟩

end Sys2Proof.Machine
end

section
/-! PROOF. The take-up of every slot of a closer (R124). -/

namespace Sys2Proof.Machine

variable {h : HeadIx} {s t u : State} {r q x : Record} {y : StrandBody} {n i : SlotIx} {j k m m' sum pos factor start : Nat} {p : Piece}
  {X : Holder → Prop} {out : SlotIx → Bool} {f f' : RopeBody} {K : HeadIx → Option MachineKind} {l : List SlotIx}

/-- A holder FEEDn of some slot. -/
def someFeed (x : Holder) : Prop := ∃ n, x = .feed n

/-- A holder FEEDn of another slot. -/
def otherFeed (n : SlotIx) (x : Holder) : Prop := ∃ i, i ≠ n ∧ x = .feed i

theorem State.OnlySlot.product (a : s.OnlySlot h n t) : (t.head h).product = (s.head h).product := by rw [a.head]

theorem State.takeUpSlot_product (hp : (s.head h).product = some j) (factor m m' : Nat) (n : SlotIx) :
    ((s.takeUpSlot h j factor m m' n).head h).product = some j :=
  (State.takeUpSlot_onlySlot ..).product.trans hp

/-! ## Every slot -/

theorem State.takeUp_eq (hp : s.productOf h = some q) (hf : q.body = .rope f) :
    s.takeUp h m m' = allSlots.foldl (State.takeUpSlot h q.tag f.factor m m') s := by
  simp only [State.takeUp, hp, hf]

theorem State.takeUpAll_head (s : State) (h : HeadIx) (j factor m m' : Nat) (l : List SlotIx) :
    (l.foldl (State.takeUpSlot h j factor m m') s).head h =
      { s.head h with slots := ((l.foldl (State.takeUpSlot h j factor m m') s).head h).slots } := by
  induction l generalizing s with
  | nil => rfl
  | cons n l ih => rw [List.foldl_cons, ih, (State.takeUpSlot_onlySlot s h j factor m m' n).head]

theorem State.takeUp_head (s : State) (h : HeadIx) (m m' : Nat) :
    (s.takeUp h m m').head h = { s.head h with slots := ((s.takeUp h m m').head h).slots } := by
  unfold State.takeUp
  split
  · rfl
  · split
    · exact State.takeUpAll_head ..
    all_goals rfl

/-- Whatever stands in the slots: only holders of feeds are altered in the rope. -/
theorem State.takeUpAll_ropeFed (hp : (s.head h).product = some j) (l : List SlotIx) :
    ∃ out, s.RopeFed someFeed out m' j (l.foldl (State.takeUpSlot h j factor m m') s) := by
  induction l generalizing s with
  | nil => exact ⟨_, .of_find rfl⟩
  | cons n l ih =>
    obtain ⟨out, hrest⟩ := ih (s := s.takeUpSlot h j factor m m' n) (State.takeUpSlot_product hp ..)
    have hstep : s.RopeFed someFeed _ m' j (s.takeUpSlot h j factor m m' n) :=
      (State.takeUpSlot_ropeFed hp rfl).mono fun _ e => ⟨n, e⟩
    exact ⟨_, hstep.trans hrest⟩

theorem State.takeUpSlot_fedBy (B : s.BoundBut h noRole K) (hp : (s.head h).product = some j) (hi : i ≠ n) :
    (s.takeUpSlot h j factor m m' n).fedBy h i = s.fedBy h i := by
  refine State.fedBy_congr ((State.takeUpSlot_onlySlot ..).slot i hi) fun k hk => State.takeUpSlot_find_other (B.strand_ne_product hp hk) hp ?_
  exact fun hn => hi (B.strand_unique hn hk)

theorem State.takeUpSlot_runsOut (B : s.BoundBut h noRole K) (hp : (s.head h).product = some j) (hi : i ≠ n) (amount : Nat) :
    (s.takeUpSlot h j factor m m' n).runsOut h i amount = s.runsOut h i amount :=
  State.runsOut_congr (State.takeUpSlot_fedBy B hp hi)

/-- The strands that run out close their entries, each slot by what stands in it (R123, R124). -/
theorem State.takeUpAll_closes (B : s.BoundBut h noRole K) (hp : (s.head h).product = some j) (hl : l.Nodup) :
    s.RopeFed someFeed (fun i => decide (i ∈ l) && s.runsOut h i ((s.head h).drawSum factor m m' i / fine)) m' j
      (l.foldl (State.takeUpSlot h j factor m m') s) := by
  induction l generalizing s with
  | nil => exact (State.RopeFed.of_find rfl).congr_out (funext fun i => by simp only [List.not_mem_nil, decide_false, Bool.false_and])
  | cons n l ih =>
    obtain ⟨hn, hl⟩ := List.nodup_cons.mp hl
    have hstep : s.RopeFed someFeed _ m' j (s.takeUpSlot h j factor m m' n) :=
      (State.takeUpSlot_ropeFed hp rfl).mono fun _ e => ⟨n, e⟩
    have hrest := ih (s := s.takeUpSlot h j factor m m' n) (State.takeUpSlot_boundBut B) (State.takeUpSlot_product hp ..) hl
    refine (hstep.trans hrest).congr_out (funext fun i => ?_)
    by_cases hi : i = n
    · subst hi
      simp only [hn, decide_true, decide_false, Bool.true_and, Bool.false_and, Bool.or_false, List.mem_cons, true_or]
    · have hslot : ((s.takeUpSlot h j factor m m' n).head h).drawSum factor m m' i = (s.head h).drawSum factor m m' i := by
        rw [Head.drawSum, (State.takeUpSlot_onlySlot s h j factor m m' n).slot i hi, Head.drawSum]
      simp only [hi, decide_false, Bool.false_and, Bool.false_or, List.mem_cons, false_or, hslot, State.takeUpSlot_runsOut B hp hi]

/-! ## One slot among them -/

/-- From `s` to `t` other slots than `n` have taken up: slot `n` and the record of tag `k` stand, and of the rope's holders only those of
the other slots are altered. -/
structure State.OthersTake (h : HeadIx) (n : SlotIx) (k j m' : Nat) (s t : State) : Prop where
  spares : s.Spares h n k t
  rope : ∃ out, s.RopeFed (otherFeed n) out m' j t

theorem State.OthersTake.refl (h : HeadIx) (n : SlotIx) (k j m' : Nat) (s : State) : s.OthersTake h n k j m' s :=
  ⟨.refl h n k s, _, .of_find rfl⟩

theorem State.OthersTake.trans (a : s.OthersTake h n k j m' t) (b : t.OthersTake h n k j m' u) : s.OthersTake h n k j m' u := by
  obtain ⟨out, ha⟩ := a.rope
  obtain ⟨out', hb⟩ := b.rope
  exact ⟨a.spares.trans b.spares, _, ha.trans hb⟩

/-- The strand of tag `k` stands in no slot but `n`, beside a product of tag `j`. -/
structure State.StandsAlone (h : HeadIx) (n : SlotIx) (k j : Nat) (s : State) : Prop where
  product : (s.head h).product = some j
  alone : ∀ i, i ≠ n → ((s.head h).slot i).strand ≠ some k
  apart : k ≠ j

theorem State.takeUpSlot_strand (s : State) (h : HeadIx) (j factor m m' : Nat) (n i : SlotIx) :
    (((s.takeUpSlot h j factor m m' n).head h).slot i).strand = ((s.head h).slot i).strand ∨
      (((s.takeUpSlot h j factor m m' n).head h).slot i).strand = none := by
  by_cases hi : i = n
  · subst hi
    cases e : s.fedBy h i with
    | none => exact .inl (by rw [State.takeUpSlot_empty e])
    | some a =>
      obtain ⟨x, y⟩ := a
      rw [State.takeUpSlot_slot e rfl]
      split
      · exact .inr rfl
      · exact .inl rfl
  · exact .inl (by rw [(State.takeUpSlot_onlySlot s h j factor m m' n).slot i hi])

theorem State.takeUpSlot_standsAlone (a : s.StandsAlone h n k j) (i : SlotIx) : (s.takeUpSlot h j factor m m' i).StandsAlone h n k j where
  product := State.takeUpSlot_product a.product ..
  alone o ho := by
    rcases State.takeUpSlot_strand s h j factor m m' i o with e | e <;> rw [e]
    · exact a.alone o ho
    · nofun
  apart := a.apart

theorem State.takeUpSlot_othersTake (a : s.StandsAlone h n k j) (hi : i ≠ n) :
    s.OthersTake h n k j m' (s.takeUpSlot h j factor m m' i) where
  spares := {
    record := State.takeUpSlot_find_other a.apart a.product (a.alone i hi)
    slot := (State.takeUpSlot_onlySlot ..).slot n (Ne.symm hi)
    product := (State.takeUpSlot_onlySlot ..).product
    carries := State.takeUpSlot_carries (.refl h s) }
  rope := ⟨_, (State.takeUpSlot_ropeFed a.product rfl).mono fun _ e => ⟨i, hi, e⟩⟩

/-- A slot takes up in a state that is for it as the first was, and is left alone after. -/
theorem State.takeUpAll_at (B : s.BoundBut h noRole K) (hp : (s.head h).product = some j) (hk : ((s.head h).slot n).strand = some k) :
    ∃ u, s.OthersTake h n k j m' u ∧ u.StandsAlone h n k j ∧
      (u.takeUpSlot h j factor m m' n).OthersTake h n k j m' (allSlots.foldl (State.takeUpSlot h j factor m m') s) := by
  have hs : s.StandsAlone h n k j := ⟨hp, fun i hi e => hi (B.strand_unique hk e), B.strand_ne_product hp hk⟩
  obtain ⟨u, hu, hsu, hend⟩ := exists_foldl_step (step := State.takeUpSlot h j factor m m') (P := State.StandsAlone h n k j)
    (U := State.OthersTake h n k j m') (State.OthersTake.refl h n k j m') (fun _ _ _ => State.OthersTake.trans)
    (fun _ i a => State.takeUpSlot_standsAlone a i) n (fun _ _ a hi => State.takeUpSlot_othersTake a hi) allSlots s allSlots_nodup
    (mem_allSlots n) hs
  exact ⟨u, hsu, hu, hend⟩

end Sys2Proof.Machine
end

section
/-! PROOF. The advance of a product's made length, in its steps (R28, R85, R86, R90, R92, R96, R124, R130). -/

namespace Sys2Proof.Machine

variable {h : HeadIx} {s t u : State} {r q x : Record} {n i : SlotIx} {j k m m' c : Nat} {p p' : Piece} {e : Option Nat}
  {X : Holder → Prop} {out : SlotIx → Bool}

/-! ## The steps -/

/-- A count beyond the top raises LENGTH_LIMIT and stands at its last fraction (R86). -/
def State.overrun (h : HeadIx) (n : Nat) (s : State) : State :=
  if lengthTop < n then (s.limitReached h).updHead h fun x => { x with pitchFraction := fine - 1 } else s

/-- The made length advanced, GUARD and JOIN released where they are reached, and MARK toggled (R28, R90, R96). -/
def State.grown (h : HeadIx) (j m m' : Nat) (s : State) : State :=
  (((s.onPiece j (Piece.advanceTo m')).releaseGuard h j m').releaseJoin h j m').updHead h (Head.toggleMark m m')

/-- The take-up of a closer (R124). -/
def State.fedUp (h : HeadIx) (m m' : Nat) (s : State) : State := if (s.head h).kind = some .closer then s.takeUp h m m' else s

/-- The cut point and FEED_SHORT, after the take-up has led from `s` to `t` (R92, R130). -/
def State.endsShort (h : HeadIx) (s t : State) : State :=
  if State.ranOut h s t then (t.checkEnd h).addHold h .feedShort else t.checkEnd h

/-! ## What the steps leave of the head -/

theorem State.overrun_store (h : HeadIx) (n : Nat) (s : State) : (s.overrun h n).store = s.store := by
  unfold State.overrun
  split
  · exact State.limitReached_store h s
  · rfl

theorem State.overrun_head (h : HeadIx) (n : Nat) (s : State) : (s.overrun h n).head h = if lengthTop < n then
    { s.head h with limitNoted := true, pitchFraction := fine - 1 } else s.head h := by
  unfold State.overrun
  split
  · rw [State.updHead_head, State.limitReached_head]
  · rfl

theorem State.overrun_alarm {n : Nat} (hn : lengthTop < n) (h0 : (s.head h).limitNoted = false) :
    (s.overrun h n).flagged h .alarm = true ∧ ((s.overrun h n).attn.causesOf h).lengthLimit = true := by
  rw [State.overrun, if_pos hn]
  exact State.limitReached_alarm h0

theorem State.releaseGuard_head (h : HeadIx) (j m : Nat) (s : State) : (s.releaseGuard h j m).head h =
    { s.head h with guardRelease := if reached m (s.head h).guardRelease then none else (s.head h).guardRelease } := by
  rw [State.releaseGuard]
  split
  · rw [State.updHead_head, State.releaseHolder_head]
  · rfl

theorem State.releaseJoin_head (h : HeadIx) (j m : Nat) (s : State) : (s.releaseJoin h j m).head h =
    { s.head h with joinRelease := if reached m (s.head h).joinRelease then none else (s.head h).joinRelease } := by
  rw [State.releaseJoin]
  split
  · rw [State.updHead_head, State.releaseHolder_head]
  · rfl

/-- MARK after an advance (R90). -/
def Head.markAfter (m m' : Nat) (x : Head) : Bool :=
  x.markHigh ^^ (decide (x.settings.marker ≠ 0) && decide (crossings x.settings.marker m m' % 2 = 1))

theorem Head.toggleMark_eq (m m' : Nat) (x : Head) : x.toggleMark m m' = { x with markHigh := x.markAfter m m' } := by
  rw [Head.toggleMark, Head.markAfter]
  split
  · next h0 => rw [h0, decide_eq_false (not_not_intro rfl), Bool.false_and, Bool.xor_false]
  · next h0 => rw [decide_eq_true h0, Bool.true_and]

theorem State.grown_head (h : HeadIx) (j m m' : Nat) (s : State) : (s.grown h j m m').head h =
    { s.head h with
      guardRelease := if reached m' (s.head h).guardRelease then none else (s.head h).guardRelease
      joinRelease := if reached m' (s.head h).joinRelease then none else (s.head h).joinRelease
      markHigh := (s.head h).markAfter m m' } := by
  rw [State.grown, State.updHead_head, Head.toggleMark_eq, State.releaseJoin_head, State.releaseGuard_head, State.onPiece_head]
  rfl

theorem State.grown_attn (h : HeadIx) (j m m' : Nat) (s : State) : ∃ u, s.Carries h u ∧ (s.grown h j m m').attn = u.attn :=
  ⟨_, State.releaseJoin_carries (State.releaseGuard_carries (State.onPiece_carries (.refl h s))), rfl⟩

theorem State.grown_flagged {g : HeadFlag} (hf : s.flagged h g = true) : (s.grown h j m m').flagged h g = true := by
  obtain ⟨u, hu, he⟩ := State.grown_attn h j m m' s
  rw [State.flagged, he]
  exact hu.flags _ hf

theorem State.grown_cause {a : Alarm} (hf : (s.attn.causesOf h).has a = true) : ((s.grown h j m m').attn.causesOf h).has a = true := by
  obtain ⟨u, hu, he⟩ := State.grown_attn h j m m' s
  rw [he]
  exact hu.causes h a hf

theorem State.overrun_kind (h : HeadIx) (n : Nat) (s : State) : ((s.overrun h n).head h).kind = (s.head h).kind := by
  rw [State.overrun_head]
  split <;> rfl

theorem State.grown_kind (h : HeadIx) (j m m' : Nat) (s : State) : ((s.grown h j m m').head h).kind = (s.head h).kind := by
  rw [State.grown_head]
  rfl

/-! ## What the steps leave of the product -/

/-- The record of tag `j` has the piece `p` and the end point `e`. -/
structure State.HasPiece (j : Nat) (e : Option Nat) (p : Piece) (s : State) : Prop where
  found : ∃ x, s.find j = some x ∧ x.body.piece = some p ∧ x.endPoint = e

theorem State.HasPiece.of_find (a : s.HasPiece j e p) (hf : t.find j = s.find j) : t.HasPiece j e p := by
  obtain ⟨x, ex, hx⟩ := a.found
  exact ⟨x, hf.trans ex, hx⟩

theorem State.HasPiece.pieceOf (a : s.HasPiece j e p) : s.pieceOf j = some p := by
  obtain ⟨x, ex, hp, -⟩ := a.found
  exact State.pieceOf_of_record ex hp

theorem Record.endPoint_withPiece (p : Piece) (x : Record) : (x.withPiece p).endPoint = x.endPoint := by
  cases hb : x.body <;> simp only [Record.endPoint, Record.withPiece, hb, Body.withPiece]

theorem State.onPiece_hasPiece (d : Piece → Piece × Bool) (a : s.HasPiece j e p) : (s.onPiece j d).HasPiece j e (d p).1 := by
  obtain ⟨x, ex, hp, he⟩ := a.found
  exact ⟨_, State.onPiece_find (f := d) ex hp, Body.withPiece_piece hp, (Record.endPoint_withPiece (d p).1 x).trans he⟩

theorem State.releaseGuard_hasPiece (h : HeadIx) (m : Nat) (a : s.HasPiece j e p) :
    (s.releaseGuard h j m).HasPiece j e (if reached m (s.head h).guardRelease then p.releaseHolder .guard else p) := by
  rw [State.releaseGuard]
  split
  · exact (State.onPiece_hasPiece (fun p => (p.releaseHolder .guard, false)) a).of_find rfl
  · exact a

theorem State.releaseJoin_hasPiece (h : HeadIx) (m : Nat) (a : s.HasPiece j e p) :
    (s.releaseJoin h j m).HasPiece j e (if reached m (s.head h).joinRelease then p.releaseHolder .join else p) := by
  rw [State.releaseJoin]
  split
  · exact (State.onPiece_hasPiece (fun p => (p.releaseHolder .join, false)) a).of_find rfl
  · exact a

/-- A piece advanced to `m'`, with GUARD and JOIN released where they are reached (R28, R96). -/
def Piece.grownAt (x : Head) (m' : Nat) (p : Piece) : Piece :=
  let g := if reached m' x.guardRelease then (p.advanceTo m').1.releaseHolder .guard else (p.advanceTo m').1
  if reached m' x.joinRelease then g.releaseHolder .join else g

theorem State.grown_hasPiece (m m' : Nat) (a : s.HasPiece j e p) :
    (s.grown h j m m').HasPiece j e (p.grownAt (s.head h) m') := by
  have hguard := State.releaseGuard_hasPiece h m' (State.onPiece_hasPiece (Piece.advanceTo m') a)
  rw [State.onPiece_head] at hguard
  have hjoin := State.releaseJoin_hasPiece h m' hguard
  rw [State.releaseGuard_head, State.onPiece_head] at hjoin
  exact hjoin.of_find rfl

theorem State.takeUp_hasPiece (hp : (s.head h).product = some j) (a : s.HasPiece j e p) :
    ∃ p', (s.takeUp h m m').HasPiece j e p' ∧ p.AltersOnly someFeed p' := by
  obtain ⟨x, ex, hpiece, he⟩ := a.found
  have hprod := State.productOf_of hp ex
  cases hb : x.body with
  | rope f =>
    obtain ⟨-, htag⟩ := State.find_mem ex
    obtain ⟨out, hfed⟩ := State.takeUpAll_ropeFed (factor := f.factor) (m := m) (m' := m') hp allSlots
    obtain ⟨x', f', ex', hb', -, -, hf⟩ := hfed.fed x f ex hb
    rw [State.takeUp_eq hprod hb, htag]
    have hpf : p = f.piece := by rw [hb] at hpiece; exact (Option.some.inj hpiece).symm
    refine ⟨f'.piece, ⟨x', ex', by rw [hb']; rfl, ?_⟩, hpf ▸ hf.piece⟩
    rw [← he, Record.endPoint, Record.endPoint, hb', hb]
    exact hf.orderedLength
  | strand b => exact ⟨p, by simp only [State.takeUp, hprod, hb]; exact a, .refl ..⟩
  | panel b => exact ⟨p, by simp only [State.takeUp, hprod, hb]; exact a, .refl ..⟩
  | coil b => exact ⟨p, by simp only [State.takeUp, hprod, hb]; exact a, .refl ..⟩

theorem State.fedUp_hasPiece (hp : (s.head h).product = some j) (a : s.HasPiece j e p) :
    ∃ p', (s.fedUp h m m').HasPiece j e p' ∧ p.AltersOnly someFeed p' := by
  rw [State.fedUp]
  split
  · exact State.takeUp_hasPiece hp a
  · exact ⟨p, a, .refl ..⟩

theorem State.fedUp_head (h : HeadIx) (m m' : Nat) (s : State) :
    (s.fedUp h m m').head h = { s.head h with slots := ((s.fedUp h m m').head h).slots } := by
  rw [State.fedUp]
  split
  · exact State.takeUp_head ..
  · rfl

theorem State.fedUp_carries (h : HeadIx) (m m' : Nat) (s : State) : s.Carries h (s.fedUp h m m') := by
  rw [State.fedUp]
  split
  · exact State.takeUp_carries (.refl h s)
  · exact .refl h s

/-! ## The whole advance -/

theorem State.advanceMade_eq (hr : s.productOf h = some r) : s.advanceMade h c =
    if min (r.made + c) lengthTop ≤ r.made then s.overrun h (r.made + c)
    else
      let t := (s.overrun h (r.made + c)).grown h r.tag r.made (min (r.made + c) lengthTop)
      t.endsShort h (t.fedUp h r.made (min (r.made + c) lengthTop)) := by
  have hkind : (((s.overrun h (r.made + c)).grown h r.tag r.made (min (r.made + c) lengthTop)).head h).kind = (s.head h).kind :=
    (State.grown_kind ..).trans (State.overrun_kind ..)
  rw [State.advanceMade, hr]
  dsimp only
  rw [State.fedUp, hkind]
  rfl

end Sys2Proof.Machine
end

section
/-! PROOF. ENC pulses that advance a product (R22, R28, R62, R83, R85, R86, R90, R92, R96). -/

namespace Sys2Proof.Machine

variable {h : HeadIx} {s t u v : State} {r q x : Record} {n i : SlotIx} {j k m m' c : Nat} {p p' : Piece} {e : Option Nat}

/-! ## The end of an advance -/

/-- The readings of a head's meter that nothing after the growth of the made length alters. -/
def Head.gauges (x : Head) : Nat × Bool × Bool × Option Nat × Option Nat :=
  (x.pitchFraction, x.limitNoted, x.markHigh, x.guardRelease, x.joinRelease)

theorem State.endsShort_shortIf (s t : State) (hr : ((t.checkEnd h).head h).state.running = true) :
    (t.checkEnd h).ShortIf (State.ranOut h s t) h (s.endsShort h t) := State.shortIf _ hr

theorem State.checkEnd_running (hr : (t.head h).state.running = true) : ((t.checkEnd h).head h).state.running = true := by
  unfold State.checkEnd
  split
  · split
    · rw [(State.enterCutting_running hr).1]; rfl
    · exact hr
  · exact hr

theorem State.endsShort_gauges (hr : (t.head h).state.running = true) : ((s.endsShort h t).head h).gauges = (t.head h).gauges := by
  have hended := congrArg Head.gauges (State.checkEnd_leaves h t)
  have hshort := congrArg Head.gauges (State.endsShort_shortIf s t (State.checkEnd_running hr)).head
  exact Eq.trans hshort hended

theorem State.endsShort_store (hr : (t.head h).state.running = true) : (s.endsShort h t).store = t.store :=
  (State.endsShort_shortIf s t (State.checkEnd_running hr)).store.trans (State.checkEnd_store h t)

theorem State.endsShort_carries (hr : (t.head h).state.running = true) : t.Carries h (s.endsShort h t) :=
  (State.checkEnd_carries (.refl h t)).trans (State.endsShort_shortIf s t (State.checkEnd_running hr)).carries

/-- A product at its end point has taken the head to CUTTING (R62, R92). -/
theorem State.endsShort_atEnd (hr : (t.head h).state.running = true) (hp : t.productOf h = some x) (he : x.atEnd = true) :
    ((s.endsShort h t).head h).state = .cutting ∧ ((t.head h).state ≠ .cutting →
      (s.endsShort h t).flagged h .state = true ∧ ((s.endsShort h t).head h).cutRunHigh = (t.head h).runHigh) := by
  obtain ⟨hcut, hentered⟩ := State.enterCutting_running hr
  have hS := State.endsShort_shortIf s t (State.checkEnd_running hr)
  rw [State.checkEnd_atEnd hp he] at hS
  refine ⟨hS.cutting.mpr hcut, fun hne => ?_⟩
  obtain ⟨hflag, hrun, -⟩ := hentered hne
  exact ⟨hS.carries.flags _ hflag, (congrArg Head.cutRunHigh hS.head).trans hrun⟩

theorem State.endsShort_goes_on (hp : t.productOf h = some x) (he : x.atEnd = false) (hran : State.ranOut h s t = false) :
    s.endsShort h t = t := by
  rw [State.endsShort, hran, if_neg Bool.false_ne_true]
  exact State.checkEnd_not_atEnd fun y hy => by cases hp.symm.trans hy; exact he

theorem State.ranOut_self (h : HeadIx) (s : State) : State.ranOut h s s = false := by
  simp only [State.ranOut, List.any_eq_false]
  intro n _
  cases ((s.head h).slot n).strand <;> simp

/-! ## What a growing piece keeps -/

/-- The holders that an advance to `m` releases at a head (R96). -/
def Head.releases (x : Head) (m : Nat) (a : Holder) : Prop :=
  (a = .guard ∧ reached m x.guardRelease = true) ∨ (a = .join ∧ reached m x.joinRelease = true)

theorem Piece.grownAt_altersOnly (x : Head) (m : Nat) (p : Piece) : (p.advanceTo m).1.AltersOnly (x.releases m) (p.grownAt x m) := by
  have hguard : (p.advanceTo m).1.AltersOnly (x.releases m)
      (if reached m x.guardRelease then (p.advanceTo m).1.releaseHolder .guard else (p.advanceTo m).1) := by
    split
    · next hr => exact Piece.releaseHolder_altersOnly (X := x.releases m) (.inl ⟨rfl, hr⟩) _
    · exact .refl ..
  refine hguard.trans ?_
  unfold Piece.grownAt
  generalize (if reached m x.guardRelease = true then (p.advanceTo m).1.releaseHolder .guard else (p.advanceTo m).1) = g
  dsimp only
  split
  · next hr => exact Piece.releaseHolder_altersOnly (X := x.releases m) (.inr ⟨rfl, hr⟩) g
  · exact .refl ..

theorem Piece.grownAt_made (x : Head) (m : Nat) (p : Piece) : (p.grownAt x m).made = m :=
  (Piece.grownAt_altersOnly x m p).made.trans Piece.advanceTo_made

theorem Piece.grownAt_no_guard {x : Head} (hp : p.Ok) (hm : p.made < m) (hr : reached m x.guardRelease = true) :
    (p.grownAt x m).hasHolder .guard = false := by
  have hgone := Piece.releaseHolder_hasHolder .guard (p.advanceTo m).1
  have hok : ((p.advanceTo m).1.releaseHolder .guard).Ok := Piece.releaseHolder_ok (Piece.advanceTo_ok hp hm)
  rw [Piece.grownAt, if_pos hr]
  split
  · exact Bool.eq_false_iff.mpr fun e => Bool.eq_false_iff.mp hgone (hok.of_hasHolder_releaseHolder e)
  · exact hgone

theorem Piece.grownAt_no_join {x : Head} (hr : reached m x.joinRelease = true) : (p.grownAt x m).hasHolder .join = false := by
  rw [Piece.grownAt, if_pos hr]
  exact Piece.releaseHolder_hasHolder ..

theorem Piece.grownAt_hasHolder {x : Head} {a : Holder} (hp : p.Ok) (hm : p.made < m) (ha : ¬x.releases m a) (h : p.hasHolder a = true) :
    (p.grownAt x m).hasHolder a = true := by
  have hok := Piece.advanceTo_ok hp hm
  rw [(Piece.grownAt_altersOnly x m p).hasHolder_iff hok ha]
  exact (Piece.advanceTo_stillHolds m a p).hasHolder hok h

end Sys2Proof.Machine
end

section
/-! PROOF. ENC pulses that advance a product (R22, R28, R62, R83, R85, R86, R90, R92, R96). -/

namespace Sys2Proof.Machine

variable {h : HeadIx} {s t u v : State} {r q x : Record} {n i : SlotIx} {j k m m' c top : Nat} {p p' : Piece} {e : Option Nat}

theorem State.encPulse_advances (hr : (s.head h).state.running = true) (hk : (s.head h).laysLength = true)
    (hc : 65536 ≤ (s.head h).pitchFraction + (s.head h).settings.pitch) : s.encPulse h =
      (s.updHead h Head.metered).advanceMade h (((s.head h).pitchFraction + (s.head h).settings.pitch) / 65536) := by
  have h0 : ((s.head h).pitchFraction + (s.head h).settings.pitch) / fine ≠ 0 := Nat.div_ne_zero_iff.mpr ⟨by decide, hc⟩
  rcases (Head.laysLength_iff _).mp hk with hk | hk <;> simp only [State.encPulse, hr, hk, h0, if_true, if_false] <;> rfl

/-- The state in which the made length stands advanced, and nothing has been taken up. -/
def State.advancing (h : HeadIx) (r : Record) (c : Nat) (s : State) : State :=
  (s.overrun h (r.made + c)).grown h r.tag r.made (min (r.made + c) lengthTop)

/-- The state in which the slots have taken up. -/
def State.advanced (h : HeadIx) (r : Record) (c : Nat) (s : State) : State :=
  (s.advancing h r c).fedUp h r.made (min (r.made + c) lengthTop)

theorem State.advanceMade_grows (hr : s.productOf h = some r) (hlt : r.made < min (r.made + c) lengthTop) :
    s.advanceMade h c = (s.advancing h r c).endsShort h (s.advanced h r c) := by
  rw [State.advanceMade_eq hr, if_neg (Nat.not_le.mpr hlt)]
  rfl

theorem State.advancing_head (h : HeadIx) (r : Record) (c : Nat) (s : State) : (s.advancing h r c).head h =
    { s.head h with
      limitNoted := (s.head h).limitNoted || decide (lengthTop < r.made + c)
      pitchFraction := if lengthTop < r.made + c then fine - 1 else (s.head h).pitchFraction
      guardRelease := if reached (min (r.made + c) lengthTop) (s.head h).guardRelease then none else (s.head h).guardRelease
      joinRelease := if reached (min (r.made + c) lengthTop) (s.head h).joinRelease then none else (s.head h).joinRelease
      markHigh := (s.head h).markAfter r.made (min (r.made + c) lengthTop) } := by
  rw [State.advancing, State.grown_head, State.overrun_head]
  split
  · next hover => rw [decide_eq_true hover, Bool.or_true]; rfl
  · next hover => rw [decide_eq_false hover, Bool.or_false]

theorem State.advanced_head (h : HeadIx) (r : Record) (c : Nat) (s : State) : (s.advanced h r c).head h =
    { (s.advancing h r c).head h with slots := ((s.advanced h r c).head h).slots } := State.fedUp_head ..

theorem State.advanced_running (hr : (s.head h).state.running = true) : ((s.advanced h r c).head h).state.running = true := by
  rw [State.advanced_head, State.advancing_head]
  exact hr

theorem State.advancing_product (hp : s.productOf h = some r) : ((s.advancing h r c).head h).product = some r.tag := by
  rw [State.advancing_head]
  exact State.productOf_product hp

theorem State.advanced_product (hp : s.productOf h = some r) : ((s.advanced h r c).head h).product = some r.tag := by
  rw [State.advanced_head]
  exact State.advancing_product hp

theorem State.advancing_hasPiece (hr : s.productOf h = some r) (hp : r.body.piece = some p) :
    (s.advancing h r c).HasPiece r.tag r.endPoint (p.grownAt (s.head h) (min (r.made + c) lengthTop)) := by
  have hstart : (s.overrun h (r.made + c)).HasPiece r.tag r.endPoint p :=
    ⟨r, (State.find_of_store (State.overrun_store ..) _).trans (State.productOf_find hr), hp, rfl⟩
  have hgrown := State.grown_hasPiece (h := h) r.made (min (r.made + c) lengthTop) hstart
  have hrel : p.grownAt ((s.overrun h (r.made + c)).head h) (min (r.made + c) lengthTop) =
      p.grownAt (s.head h) (min (r.made + c) lengthTop) := by
    rw [State.overrun_head]
    split <;> rfl
  rwa [hrel] at hgrown

/-- The piece of a product after an advance: what it has grown to, with nothing altered since but the holders of feeds. -/
theorem State.advanced_hasPiece (hr : s.productOf h = some r) (hp : r.body.piece = some p) : ∃ p',
    (s.advanced h r c).HasPiece r.tag r.endPoint p' ∧ (p.grownAt (s.head h) (min (r.made + c) lengthTop)).AltersOnly someFeed p' :=
  State.fedUp_hasPiece (State.advancing_product hr) (State.advancing_hasPiece hr hp)

theorem State.HasPiece.productOf (a : s.HasPiece j e p) (hj : (s.head h).product = some j) :
    ∃ x, s.productOf h = some x ∧ x.atEnd = e.any fun n => decide (n ≤ p.made) := by
  obtain ⟨x, ex, hp, he⟩ := a.found
  refine ⟨x, State.productOf_of hj ex, ?_⟩
  rw [Record.atEnd, he, Record.made, hp]
  cases e <;> rfl

theorem State.advancing_alarm (hover : lengthTop < r.made + c) (h0 : (s.head h).limitNoted = false) :
    (s.advancing h r c).flagged h .alarm = true ∧ ((s.advancing h r c).attn.causesOf h).lengthLimit = true := by
  obtain ⟨hflag, hcause⟩ := State.overrun_alarm (h := h) hover h0
  exact ⟨State.grown_flagged hflag, State.grown_cause (a := .lengthLimit) hcause⟩

/-! ## The statement -/

/-- A holder that the meter releases at a position: what an advance leaves of it (R96). -/
theorem Piece.released_after {x : Head} {a : Holder} {rel : Option Nat} {g : Nat} (hrel : rel = some g)
    (hgone : reached m rel = true → p.Ok → (p.grownAt x m).hasHolder a = false)
    (hstays : reached m rel = false → ¬x.releases m a) (hfeed : ¬someFeed a) (hm : p.made < m)
    (hp' : (p.grownAt x m).AltersOnly someFeed p') :
    (g ≤ m → reached m rel = true ∧ (p.Ok → p'.hasHolder a = false)) ∧
      (m < g → reached m rel = false ∧ (p.Ok → p.hasHolder a = true → p'.hasHolder a = true)) := by
  have hok (hp : p.Ok) : (p.grownAt x m).Ok := (Piece.grownAt_altersOnly x m p).ok (Piece.advanceTo_ok hp hm)
  subst hrel
  refine ⟨fun hle => ?_, fun hlt => ?_⟩
  · have hreached : reached m (some g) = true := decide_eq_true hle
    exact ⟨hreached, fun hp => (hp'.hasHolder_iff (hok hp) hfeed).trans (hgone hreached hp)⟩
  · have hreached : reached m (some g) = false := decide_eq_false (Nat.not_le.mpr hlt)
    exact ⟨hreached, fun hp hhas => (hp'.hasHolder_iff (hok hp) hfeed).trans (Piece.grownAt_hasHolder hp hm (hstays hreached) hhas)⟩

theorem Head.not_releases_guard {x : Head} (hr : reached m x.guardRelease = false) : ¬x.releases m .guard := by
  rintro (⟨-, h⟩ | ⟨h, -⟩)
  · rw [hr] at h; cases h
  · cases h

theorem Head.not_releases_join {x : Head} (hr : reached m x.joinRelease = false) : ¬x.releases m .join := by
  rintro (⟨h, -⟩ | ⟨-, h⟩)
  · cases h
  · rw [hr] at h; cases h

/-- What an advance by `c` leaves where the made length grows. -/
structure State.Grows (h : HeadIx) (r : Record) (p : Piece) (c : Nat) (s v : State) : Prop where
  piece : ∃ p', v.pieceOf r.tag = some p' ∧ (p.grownAt (s.head h) (min (r.made + c) lengthTop)).AltersOnly someFeed p'
  gauges : (v.head h).gauges = ((s.advancing h r c).head h).gauges
  alarm : lengthTop < r.made + c → (s.head h).limitNoted = false →
    v.flagged h .alarm = true ∧ (v.attn.causesOf h).lengthLimit = true
  ended : ∀ n, r.endPoint = some n → n ≤ min (r.made + c) lengthTop → (v.head h).state = .cutting ∧
    ((s.head h).state ≠ .cutting → v.flagged h .state = true ∧ (v.head h).cutRunHigh = (s.head h).runHigh)
  goes : (s.head h).kind = some .strander → (∀ n, r.endPoint = some n → min (r.made + c) lengthTop < n) → (v.head h).state = (s.head h).state

theorem State.advanced_strander (hk : (s.head h).kind = some .strander) : s.advanced h r c = s.advancing h r c := by
  have hkind : ((s.advancing h r c).head h).kind = some .strander := (State.grown_kind ..).trans ((State.overrun_kind ..).trans hk)
  rw [State.advanced, State.fedUp, if_neg (by rw [hkind]; nofun)]

theorem State.advanceMade_grown (hrun : (s.head h).state.running = true) (hr : s.productOf h = some r) (hp : r.body.piece = some p)
    (hlt : r.made < min (r.made + c) lengthTop) : s.Grows h r p c (s.advanceMade h c) := by
  have hrunning := State.advanced_running (r := r) (c := c) hrun
  obtain ⟨p', hhas, halters⟩ := State.advanced_hasPiece (c := c) hr hp
  obtain ⟨x, hx, hatEnd⟩ := hhas.productOf (State.advanced_product hr)
  have hmade : p'.made = min (r.made + c) lengthTop := halters.made.trans (Piece.grownAt_made ..)
  have hadvanced : (s.advanced h r c).head h = _ := (State.advanced_head ..).trans (by rw [State.advancing_head])
  rw [hmade] at hatEnd
  rw [State.advanceMade_grows hr hlt]
  constructor
  case piece => exact ⟨p', (State.pieceOf_of_store (State.endsShort_store hrunning)).trans hhas.pieceOf, halters⟩
  case gauges => rw [State.endsShort_gauges hrunning, State.advanced_head]; rfl
  case alarm =>
    intro hover h0
    obtain ⟨hflag, hcause⟩ := State.advancing_alarm (h := h) hover h0
    have hall := (State.fedUp_carries h r.made (min (r.made + c) lengthTop) (s.advancing h r c)).trans (State.endsShort_carries (s := s.advancing h r c) hrunning)
    exact ⟨hall.flags _ hflag, hall.causes h .lengthLimit hcause⟩
  case ended =>
    intro n hn hle
    have hat : x.atEnd = true := by rw [hatEnd, hn]; exact decide_eq_true hle
    obtain ⟨hcut, hentered⟩ := State.endsShort_atEnd (s := s.advancing h r c) hrunning hx hat
    rw [hadvanced] at hentered
    exact ⟨hcut, hentered⟩
  case goes =>
    intro hk hno
    have hat : x.atEnd = false := by
      rw [hatEnd]
      cases he : r.endPoint with
      | none => rfl
      | some n => exact decide_eq_false (Nat.not_le.mpr (hno n he))
    have hran : State.ranOut h (s.advancing h r c) (s.advanced h r c) = false := by
      rw [State.advanced_strander hk]
      exact State.ranOut_self ..
    rw [State.endsShort_goes_on hx hat hran, hadvanced]

end Sys2Proof.Machine
end

section
/-! PROOF. An ENC pulse with a carry at a STRANDER or CLOSER (R22, R28, R62, R83, R85, R86, R90, R92, R96). -/

namespace Sys2Proof.Machine

variable {h : HeadIx} {s t u v : State} {r q x : Record} {n i : SlotIx} {j k m m' c top : Nat} {p p' : Piece} {e : Option Nat}

theorem State.metered_head (h : HeadIx) (s : State) : (s.updHead h Head.metered).head h = (s.head h).metered := State.updHead_head ..

theorem State.metered_productOf (h : HeadIx) (s : State) : (s.updHead h Head.metered).productOf h = s.productOf h :=
  State.updHead_productOf fun _ => rfl

/-- A made length at its top stands there, with LENGTH_LIMIT (R86). -/
theorem State.advanceMade_stuck (hr : s.productOf h = some r) (hc : 0 < c) (htop : r.made = lengthTop) :
    s.advanceMade h c = s.overrun h (r.made + c) ∧ lengthTop < r.made + c := by
  refine ⟨?_, by omega⟩
  rw [State.advanceMade_eq hr, if_pos (by omega)]

theorem crossings_self (interval m : Nat) : crossings interval m m = 0 := Nat.sub_self _

/-- What the statement says of the meter, of any advance. -/
theorem State.advanceMade_meter (hrun : (s.head h).state.running = true) (hr : s.productOf h = some r) (hp : r.body.piece = some p)
    (hc : 0 < c) (htop : r.made ≤ lengthTop) :
    ∃ p', (s.advanceMade h c).pieceOf r.tag = some p' ∧ p'.made = min (r.made + c) lengthTop ∧
      ((s.advanceMade h c).head h).pitchFraction = (if lengthTop < r.made + c then fine - 1 else (s.head h).pitchFraction) ∧
      ((s.advanceMade h c).head h).limitNoted = ((s.head h).limitNoted || decide (lengthTop < r.made + c)) ∧
      (lengthTop < r.made + c → (s.head h).limitNoted = false →
        (s.advanceMade h c).flagged h .alarm = true ∧ ((s.advanceMade h c).attn.causesOf h).lengthLimit = true) ∧
      ((s.advanceMade h c).head h).markHigh = (s.head h).markAfter r.made (min (r.made + c) lengthTop) := by
  have hpiece := State.pieceOf_of_record (State.productOf_find hr) hp
  rcases Nat.lt_or_ge r.made lengthTop with hlt | hge
  · obtain ⟨⟨p', hp', halters⟩, hgauges, halarm, -, -⟩ := State.advanceMade_grown (c := c) hrun hr hp (by omega)
    rw [State.advancing_head] at hgauges
    simp only [Head.gauges, Prod.mk.injEq] at hgauges
    obtain ⟨hpf, hnoted, hmark, -, -⟩ := hgauges
    exact ⟨p', hp', halters.made.trans (Piece.grownAt_made ..), hpf, hnoted, halarm, hmark⟩
  · have heq : r.made = lengthTop := Nat.le_antisymm htop hge
    obtain ⟨hstep, hover⟩ := State.advanceMade_stuck hr hc heq
    have hmade : min (r.made + c) lengthTop = r.made := by omega
    rw [hstep, hmade]
    refine ⟨p, (State.pieceOf_of_store (State.overrun_store ..)).trans hpiece, ?_, ?_, ?_, fun _ h0 => State.overrun_alarm hover h0, ?_⟩
    · rw [← State.pieceOf_made (State.productOf_find hr) hpiece]
    · rw [State.overrun_head, if_pos hover, if_pos hover]
    · rw [State.overrun_head, if_pos hover, decide_eq_true hover, Bool.or_true]
    · rw [State.overrun_head, if_pos hover, Head.markAfter, crossings_self]
      simp

/-- Settles O9: an advance of a product's made length. -/
theorem encPulseAdvancesProduct : Obligations.EncPulseAdvancesProduct := by
  unfold Obligations.EncPulseAdvancesProduct
  intro h s r p S hrun hl hr hp htop hc
  have hstep := State.encPulse_advances hrun hl hc
  have hpos : 0 < ((s.head h).pitchFraction + (s.head h).settings.pitch) / 65536 := Nat.div_pos hc (by decide)
  dsimp only
  generalize ((s.head h).pitchFraction + (s.head h).settings.pitch) / 65536 = c at hstep hpos ⊢
  have hmetered := State.metered_head h s
  have hrun' : ((s.updHead h Head.metered).head h).state.running = true := by rw [hmetered]; exact hrun
  have hr' := (State.metered_productOf h s).trans hr
  obtain ⟨p', hp', hmade, hpf, hnoted, halarm, hmark⟩ := State.advanceMade_meter hrun' hr' hp hpos htop
  have hgrown (hlt : r.made < min (r.made + c) lengthTop) := State.advanceMade_grown hrun' hr' hp hlt
  rw [hmetered] at hpf hnoted halarm hmark
  rw [← hstep] at hp' hpf hnoted halarm hmark hgrown
  have hpiece : (s.change (State.encPulse h)).pieceOf r.tag = some p' := (State.change_pieceOf _ s).trans hp'
  obtain ⟨r', hr'find, hr'piece⟩ := State.pieceOf_eq_some.mp hpiece
  refine ⟨s.change (State.encPulse h), r', p', rfl, hr'find, hr'piece, hmade, ?pitch, ?noted, halarm, ?mark, fun hlt => ?grown⟩
  case pitch =>
    refine hpf.trans ?_
    by_cases hover : lengthTop < r.made + c
    · rw [if_pos hover, if_neg (by exact Nat.not_le.mpr hover)]
      rfl
    · rw [if_neg hover, if_pos (by exact Nat.not_lt.mp hover)]
      rfl
  case noted =>
    intro hover
    refine hnoted.trans ?_
    exact Bool.or_eq_true_iff.mpr (.inr (decide_eq_true hover))
  case mark => exact hmark
  case grown =>
    have hlt' : r.made < min (r.made + c) lengthTop := by
      have : r.made < lengthTop := hlt
      omega
    obtain ⟨⟨p1, hp1, halters⟩, hgauges, -, hended, hgoes⟩ := hgrown hlt'
    cases hp'.symm.trans hp1
    rw [State.advancing_head] at hgauges
    simp only [Head.gauges, Prod.mk.injEq] at hgauges
    obtain ⟨-, -, -, hguard, hjoin⟩ := hgauges
    rw [hmetered] at halters hguard hjoin hended hgoes
    have hbefore := State.pieceOf_of_record (State.productOf_find hr) hp
    have hm : p.made < min (r.made + c) lengthTop := by
      rw [← State.pieceOf_made (State.productOf_find hr) hbefore]; exact hlt'
    have hcovers := halters.covers.trans (Piece.grownAt_altersOnly (s.head h).metered (min (r.made + c) lengthTop) p).covers
    have hholds (a : Holder) : (s.change (State.encPulse h)).hasHolder r.tag a = p'.hasHolder a := State.hasHolder_of_piece hpiece
    refine ⟨fun y hy ho => hcovers.marks (Piece.advanceTo_marks_open hy ho), fun y hy => hcovers.marks (Piece.advanceTo_marks_pending hy),
      fun g hg => ?_, fun g hg => ?_, hended, hgoes⟩
    · obtain ⟨hgone, hstays⟩ := Piece.released_after hg (fun hreached hok => Piece.grownAt_no_guard hok hm hreached)
        (fun hreached => Head.not_releases_guard hreached) (by rintro ⟨i, hi⟩; cases hi) hm halters
      rw [State.hasHolder_of_piece hbefore, hholds]
      exact ⟨fun hle => ⟨hguard.trans (if_pos (hgone hle).1), fun R => (hgone hle).2 (R.piece hbefore)⟩,
        fun hlt => ⟨(hguard.trans (if_neg (Bool.eq_false_iff.mp (hstays hlt).1))).trans hg, fun R => (hstays hlt).2 (R.piece hbefore)⟩⟩
    · obtain ⟨hgone, hstays⟩ := Piece.released_after hg (fun hreached _ => Piece.grownAt_no_join hreached)
        (fun hreached => Head.not_releases_join hreached) (by rintro ⟨i, hi⟩; cases hi) hm halters
      rw [State.hasHolder_of_piece hbefore, hholds]
      exact ⟨fun hle => ⟨hjoin.trans (if_pos (hgone hle).1), fun R => (hgone hle).2 (R.piece hbefore)⟩,
        fun hlt => ⟨(hjoin.trans (if_neg (Bool.eq_false_iff.mp (hstays hlt).1))).trans hg, fun R => (hstays hlt).2 (R.piece hbefore)⟩⟩

end Sys2Proof.Machine
end

section
/-! PROOF. An ENC pulse with a carry at a CLOSER: the rope advanced, before its slots take up (R85, R96, R124). -/

namespace Sys2Proof.Machine

variable {h : HeadIx} {s t u v : State} {r q x : Record} {y b : StrandBody} {n i : SlotIx} {j k m m' c : Nat} {p p' : Piece}
  {f f' : RopeBody} {X : Holder → Prop} {out : SlotIx → Bool} {pos : Nat} {K : HeadIx → Option MachineKind}

/-! ## The rope -/

/-- The record of tag `j` is a rope with the fields `f`, in the state and with the mark of `q`. -/
structure State.RopeIs (j : Nat) (q : Record) (f : RopeBody) (s : State) : Prop where
  found : ∃ x, s.find j = some x ∧ x.body = .rope f ∧ x.state = q.state ∧ x.mark = q.mark

theorem State.RopeIs.of_find (a : s.RopeIs j q f) (e : t.find j = s.find j) : t.RopeIs j q f := by
  obtain ⟨x, ex, hx⟩ := a.found
  exact ⟨x, e.trans ex, hx⟩

theorem State.RopeIs.makesRope (a : s.RopeIs j q f) (hq : q.state = .making) : s.MakesRope j f := by
  obtain ⟨x, ex, hf, hst, -⟩ := a.found
  exact ⟨x, ex, hf, hst.trans hq⟩

theorem State.RopeFed.ropeIs (b : s.RopeFed X out pos j t) (a : s.RopeIs j q f) : ∃ f', t.RopeIs j q f' ∧ f.Fed X out pos f' := by
  obtain ⟨x, ex, hf, hst, hm⟩ := a.found
  obtain ⟨x', f', ex', hf', hst', hm', hfed⟩ := b.fed x f ex hf
  exact ⟨f', ⟨x', ex', hf', hst'.trans hst, hm'.trans hm⟩, hfed⟩

theorem State.onPiece_ropeIs (d : Piece → Piece × Bool) (a : s.RopeIs j q f) :
    (s.onPiece j d).RopeIs j q { f with piece := (d f.piece).1 } := by
  obtain ⟨x, ex, hf, hst, hm⟩ := a.found
  refine ⟨_, State.onPiece_find (f := d) ex (p := f.piece) (by rw [hf]; rfl), ?_, hst, hm⟩
  simp only [Record.withPiece, hf, Body.withPiece]

theorem State.releaseGuard_ropeIs (h : HeadIx) (m : Nat) (a : s.RopeIs j q f) : (s.releaseGuard h j m).RopeIs j q
    { f with piece := if reached m (s.head h).guardRelease then f.piece.releaseHolder .guard else f.piece } := by
  rw [State.releaseGuard]
  split
  · exact (State.onPiece_ropeIs (fun p => (p.releaseHolder .guard, false)) a).of_find rfl
  · exact a

theorem State.releaseJoin_ropeIs (h : HeadIx) (m : Nat) (a : s.RopeIs j q f) : (s.releaseJoin h j m).RopeIs j q
    { f with piece := if reached m (s.head h).joinRelease then f.piece.releaseHolder .join else f.piece } := by
  rw [State.releaseJoin]
  split
  · exact (State.onPiece_ropeIs (fun p => (p.releaseHolder .join, false)) a).of_find rfl
  · exact a

theorem State.grown_ropeIs (m m' : Nat) (a : s.RopeIs j q f) :
    (s.grown h j m m').RopeIs j q { f with piece := f.piece.grownAt (s.head h) m' } := by
  have hguard := State.releaseGuard_ropeIs h m' (State.onPiece_ropeIs (Piece.advanceTo m') a)
  rw [State.onPiece_head] at hguard
  have hjoin := State.releaseJoin_ropeIs h m' hguard
  rw [State.releaseGuard_head, State.onPiece_head] at hjoin
  exact hjoin.of_find rfl

theorem Piece.grownAt_overrun (h : HeadIx) (n m : Nat) (s : State) (p : Piece) :
    p.grownAt ((s.overrun h n).head h) m = p.grownAt (s.head h) m := by
  rw [State.overrun_head]
  split <;> rfl

theorem State.advancing_ropeIs (a : s.RopeIs q.tag q f) : (s.advancing h q c).RopeIs q.tag q
    { f with piece := f.piece.grownAt (s.head h) (min (q.made + c) lengthTop) } := by
  have hgrown := State.grown_ropeIs (h := h) q.made (min (q.made + c) lengthTop)
    (a.of_find (t := s.overrun h (q.made + c)) (State.find_of_store (State.overrun_store ..) _))
  rwa [Piece.grownAt_overrun] at hgrown

/-! ## The rest -/

theorem State.releaseGuard_find (hk : k ≠ j) (h : HeadIx) (m : Nat) (s : State) : (s.releaseGuard h j m).find k = s.find k := by
  rw [State.releaseGuard]
  split
  · exact State.onPiece_find_ne hk
  · rfl

theorem State.releaseJoin_find (hk : k ≠ j) (h : HeadIx) (m : Nat) (s : State) : (s.releaseJoin h j m).find k = s.find k := by
  rw [State.releaseJoin]
  split
  · exact State.onPiece_find_ne hk
  · rfl

theorem State.advancing_find (hk : k ≠ q.tag) (h : HeadIx) (c : Nat) (s : State) : (s.advancing h q c).find k = s.find k := by
  have hstart : (s.overrun h (q.made + c)).find k = s.find k := State.find_of_store (State.overrun_store ..) k
  rw [State.advancing, State.grown, State.updHead_find, State.releaseJoin_find hk, State.releaseGuard_find hk, State.onPiece_find_ne hk,
    hstart]

theorem State.advancing_slot (h : HeadIx) (q : Record) (c : Nat) (s : State) (i : SlotIx) :
    ((s.advancing h q c).head h).slot i = (s.head h).slot i := by
  rw [State.advancing_head]
  rfl

theorem State.overrun_boundBut (n : Nat) (B : s.BoundBut h noRole K) : (s.overrun h n).BoundBut h noRole K := by
  unfold State.overrun
  split
  · simp (maxDischargeDepth := 20) [B]
  · exact B

theorem State.advancing_boundBut (B : s.BoundBut h noRole K) : (s.advancing h q c).BoundBut h noRole K := by
  have hstart := State.overrun_boundBut (q.made + c) B
  unfold State.advancing State.grown
  simp (maxDischargeDepth := 20) [hstart]

theorem State.advancing_fedBy (B : s.BoundBut h noRole K) (hp : (s.head h).product = some q.tag) (c : Nat) (i : SlotIx) :
    (s.advancing h q c).fedBy h i = s.fedBy h i :=
  State.fedBy_congr (State.advancing_slot ..) fun _ hk => State.advancing_find (B.strand_ne_product hp hk) ..

end Sys2Proof.Machine
end

section
/-! PROOF. An ENC pulse with a carry at a CLOSER: the take-up of its feeds (R19, R31, R123, R124, R130, R131). -/

namespace Sys2Proof.Machine

variable {h : HeadIx} {s t u v : State} {r q x : Record} {b : StrandBody} {n i : SlotIx} {j k m m' c : Nat} {f f' : RopeBody}

/-- An ENC pulse whose carry is `c` at a running closer `h` with the rope `q`, of fields `f`, and the strand `r`, of fields `b`, in
slot `n`, within the top of a made length. -/
structure State.Pulsed (h : HeadIx) (n : SlotIx) (c : Nat) (q r : Record) (f : RopeBody) (b : StrandBody) (s : State) : Prop where
  bindings : s.BindingsOk
  running : (s.head h).state.running = true
  closer : (s.head h).kind = some .closer
  product : s.productOf h = some q
  rope : q.body = .rope f
  slot : ((s.head h).slot n).strand = some r.tag
  strand : s.find r.tag = some r
  body : r.body = .strand b
  carries : 65536 ≤ (s.head h).pitchFraction + (s.head h).settings.pitch
  carry : ((s.head h).pitchFraction + (s.head h).settings.pitch) / 65536 = c
  room : q.made + c ≤ lengthTop

/-- The state in which the rope stands advanced. -/
def State.pulsing (h : HeadIx) (q : Record) (c : Nat) (s : State) : State := (s.updHead h Head.metered).advancing h q c

/-- The state in which the slots have taken up. -/
def State.fedRope (h : HeadIx) (q : Record) (f : RopeBody) (c : Nat) (s : State) : State :=
  allSlots.foldl (State.takeUpSlot h q.tag f.factor q.made (q.made + c)) (s.pulsing h q c)

theorem State.endsShort_slots (hr : (t.head h).state.running = true) : ((s.endsShort h t).head h).slots = (t.head h).slots := by
  have hended := congrArg Head.slots (State.checkEnd_leaves h t)
  have hshort := congrArg Head.slots (State.endsShort_shortIf s t (State.checkEnd_running hr)).head
  exact Eq.trans hshort hended

namespace State.Pulsed

theorem fedBy (H : s.Pulsed h n c q r f b) : s.fedBy h n = some (r, b) := State.fedBy_of_strand H.slot H.strand H.body

theorem carry_pos (H : s.Pulsed h n c q r f b) : 0 < c := H.carry ▸ Nat.div_pos H.carries (by decide)

theorem made_eq (H : s.Pulsed h n c q r f b) : min (q.made + c) lengthTop = q.made + c := Nat.min_eq_left H.room

theorem metered_boundBut (H : s.Pulsed h n c q r f b) : (s.updHead h Head.metered).BoundBut h noRole fun k => (s.head k).kind :=
  State.updHead_boundBut (fun _ => rfl) (H.bindings.but h)

theorem metered_product (H : s.Pulsed h n c q r f b) : (s.updHead h Head.metered).productOf h = some q :=
  (State.metered_productOf h s).trans H.product

theorem pulsing_boundBut (H : s.Pulsed h n c q r f b) : (s.pulsing h q c).BoundBut h noRole fun k => (s.head k).kind :=
  State.advancing_boundBut H.metered_boundBut

theorem pulsing_product (H : s.Pulsed h n c q r f b) : ((s.pulsing h q c).head h).product = some q.tag :=
  State.advancing_product H.metered_product

theorem pulsing_slot (_ : s.Pulsed h n c q r f b) (i : SlotIx) : ((s.pulsing h q c).head h).slot i = (s.head h).slot i := by
  rw [State.pulsing, State.advancing_slot, State.metered_head]
  rfl

theorem pulsing_settings (_ : s.Pulsed h n c q r f b) : ((s.pulsing h q c).head h).settings = (s.head h).settings := by
  rw [State.pulsing, State.advancing_head, State.metered_head]
  rfl

theorem pulsing_find (_ : s.Pulsed h n c q r f b) (hk : k ≠ q.tag) : (s.pulsing h q c).find k = s.find k :=
  (State.advancing_find hk ..).trans (State.updHead_find ..)

theorem pulsing_fedBy (H : s.Pulsed h n c q r f b) (i : SlotIx) : (s.pulsing h q c).fedBy h i = s.fedBy h i :=
  State.fedBy_congr (H.pulsing_slot i) fun _ hk =>
    H.pulsing_find ((H.bindings.but h).strand_ne_product (State.productOf_product H.product) hk)

/-- The rope advanced: its open span follows, its pending span is in the list, and GUARD and JOIN are released where they are reached. -/
theorem pulsing_ropeIs (H : s.Pulsed h n c q r f b) :
    (s.pulsing h q c).RopeIs q.tag q { f with piece := f.piece.grownAt (s.head h) (q.made + c) } := by
  have hstart : (s.updHead h Head.metered).RopeIs q.tag q f :=
    ⟨q, (State.updHead_find ..).trans (State.productOf_find H.product), H.rope, rfl, rfl⟩
  have hadvanced := State.advancing_ropeIs (h := h) (c := c) hstart
  rw [H.made_eq, State.metered_head] at hadvanced
  exact hadvanced

theorem pulsing_kind (H : s.Pulsed h n c q r f b) : ((s.pulsing h q c).head h).kind = some .closer := by
  rw [State.pulsing, State.advancing_head, State.metered_head]
  exact H.closer

theorem pulsing_running (H : s.Pulsed h n c q r f b) : ((s.pulsing h q c).head h).state.running = true := by
  rw [State.pulsing, State.advancing_head, State.metered_head]
  exact H.running

theorem fedRope_running (H : s.Pulsed h n c q r f b) : ((s.fedRope h q f c).head h).state.running = true := by
  rw [State.fedRope, State.takeUpAll_head]
  exact H.pulsing_running

theorem fedRope_eq (H : s.Pulsed h n c q r f b) : (s.updHead h Head.metered).advanced h q c = s.fedRope h q f c := by
  obtain ⟨x, ex, hx, -, -⟩ := H.pulsing_ropeIs.found
  obtain ⟨-, htag⟩ := State.find_mem ex
  have hfeeds : (s.pulsing h q c).takeUp h q.made (q.made + c) = s.fedRope h q f c := by
    rw [State.takeUp_eq (State.productOf_of H.pulsing_product ex) hx, htag, State.fedRope]
  rw [State.advanced, H.made_eq, ← hfeeds, State.fedUp]
  exact if_pos H.pulsing_kind

/-- The pulse: the rope advanced, the slots fed, and the cut point and FEED_SHORT after (R85, R92, R124, R130). -/
theorem encPulse_eq (H : s.Pulsed h n c q r f b) : s.encPulse h = (s.pulsing h q c).endsShort h (s.fedRope h q f c) := by
  have hlays : (s.head h).laysLength = true := Head.laysLength_kind (.inr H.closer)
  have hlt : q.made < min (q.made + c) lengthTop := by
    rw [H.made_eq]
    exact Nat.lt_add_of_pos_right H.carry_pos
  rw [State.encPulse_advances H.running hlays H.carries, H.carry, State.advanceMade_grows H.metered_product hlt, H.fedRope_eq, State.pulsing]

theorem encPulse_find (H : s.Pulsed h n c q r f b) (k : Nat) : (s.encPulse h).find k = (s.fedRope h q f c).find k := by
  rw [H.encPulse_eq, State.find_of_store (State.endsShort_store H.fedRope_running)]

theorem encPulse_slot (H : s.Pulsed h n c q r f b) (i : SlotIx) :
    ((s.encPulse h).head h).slot i = ((s.fedRope h q f c).head h).slot i := by
  have hslots := State.endsShort_slots (s := s.pulsing h q c) H.fedRope_running
  rw [H.encPulse_eq, Head.slot, hslots, Head.slot]

theorem encPulse_carries (H : s.Pulsed h n c q r f b) : (s.fedRope h q f c).Carries h (s.encPulse h) := by
  rw [H.encPulse_eq]
  exact State.endsShort_carries H.fedRope_running

/-- A required strand drawn to its end leaves the head short of a feed (R130). -/
theorem encPulse_short (H : s.Pulsed h n c q r f b) (hreq : ((s.head h).slot n).required = true)
    (hno : (((s.encPulse h).head h).slot n).strand = none) : ((s.encPulse h).head h).holds.feedShort = true := by
  have hran : State.ranOut h (s.pulsing h q c) (s.fedRope h q f c) = true :=
    State.ranOut_of (k := r.tag) (by rw [H.pulsing_slot]; exact hreq) (by rw [H.pulsing_slot]; exact H.slot) (by rw [← H.encPulse_slot]; exact hno)
  rw [H.encPulse_eq]
  exact ((State.endsShort_shortIf (s.pulsing h q c) (s.fedRope h q f c) (State.checkEnd_running H.fedRope_running)).short hran).1

/-- The slot takes up in a state that is for it as the rope's advance left it. -/
theorem at_slot (H : s.Pulsed h n c q r f b) : ∃ u, (s.pulsing h q c).OthersTake h n r.tag q.tag (q.made + c) u ∧
    u.StandsAlone h n r.tag q.tag ∧ u.fedBy h n = some (r, b) ∧
    (u.head h).drawSum f.factor q.made (q.made + c) n = ((s.head h).slot n).acc + c * f.factor ∧
    (u.takeUpSlot h q.tag f.factor q.made (q.made + c) n).OthersTake h n r.tag q.tag (q.made + c) (s.fedRope h q f c) := by
  obtain ⟨u, hu, halone, hend⟩ := State.takeUpAll_at (factor := f.factor) (m := q.made) (m' := q.made + c) H.pulsing_boundBut
    H.pulsing_product (by rw [H.pulsing_slot]; exact H.slot)
  refine ⟨u, hu, halone, hu.spares.fedBy ((H.pulsing_fedBy n).trans H.fedBy) rfl, ?_, hend⟩
  rw [Head.drawSum, hu.spares.slot, H.pulsing_slot, Nat.add_sub_cancel_left]

/-- The rope's source entries after the pulse (R31, R123). -/
theorem closes (H : s.Pulsed h n c q r f b) : ∃ f', (s.encPulse h).RopeIs q.tag q f' ∧ f'.sources =
    closeEntries (fun i => s.runsOut h i ((((s.head h).slot i).acc + c * f.factor) / 65536)) (q.made + c) f.sources := by
  have hfed := State.takeUpAll_closes (factor := f.factor) (m := q.made) (m' := q.made + c) H.pulsing_boundBut H.pulsing_product
    allSlots_nodup
  obtain ⟨f', hf', hclosed⟩ := hfed.ropeIs H.pulsing_ropeIs
  refine ⟨f', hf'.of_find (H.encPulse_find q.tag), hclosed.sources.trans ?_⟩
  congr 1
  funext i
  have hsum : ((s.pulsing h q c).head h).drawSum f.factor q.made (q.made + c) i = ((s.head h).slot i).acc + c * f.factor := by
    rw [Head.drawSum, H.pulsing_slot, Nat.add_sub_cancel_left]
  rw [decide_eq_true (mem_allSlots i), Bool.true_and, hsum]
  exact State.runsOut_congr (H.pulsing_fedBy i)

end State.Pulsed

end Sys2Proof.Machine
end

section
/-! PROOF. What a strand and the rope's sources stand as after a take-up (R19, R31, R123, R124, R130, R131). -/

namespace Sys2Proof.Machine

variable {h : HeadIx} {s t u v : State} {r q x : Record} {b : StrandBody} {n i : SlotIx} {j k m m' c : Nat} {f f' : RopeBody}

theorem Record.stepMark_body (now : Seconds) (a b : Record) : (Record.stepMark now a b).body = b.body := by
  obtain ⟨-, e, -⟩ := Record.stepMark_fields now a b
  exact e

theorem Record.stepMark_state (now : Seconds) (a b : Record) : (Record.stepMark now a b).state = b.state := by
  obtain ⟨e, -⟩ := Record.stepMark_fields now a b
  exact e

theorem Record.stepMark_bound (now : Seconds) (a b : Record) : (Record.stepMark now a b).bound = b.bound := by
  obtain ⟨-, -, e, -⟩ := Record.stepMark_fields now a b
  exact e

namespace State.Pulsed

/-- The length the strand of the slot is drawn by, in 2^-16 mm. -/
theorem taken (H : s.Pulsed h n c q r f b) {sum : Nat} (hsum : ((s.head h).slot n).acc + c * f.factor = sum) :
    (s.encPulse h).find r.tag = some (r.afterTaking (b.draw (sum / fine)) (sum % fine)) ∧
      (((s.encPulse h).head h).slot n).strand = (if (b.draw (sum / fine)).spent then none else some r.tag) ∧
      ((b.draw (sum / fine)).spent = false → (((s.encPulse h).head h).slot n).acc = sum % fine ∧
        (((s.encPulse h).head h).slot n).spanHolding = topInside (b.draw (sum / fine)).top1 b.piece.spans) := by
  obtain ⟨u, hu, halone, hfed, hdraw, hend⟩ := H.at_slot
  rw [hsum] at hdraw
  have hfind := State.takeUpSlot_find_strand hfed halone.product halone.apart hdraw
  have hslot := State.takeUpSlot_slot (j := q.tag) hfed hdraw
  have hsame : ((s.encPulse h).head h).slot n = ((u.takeUpSlot h q.tag f.factor q.made (q.made + c) n).head h).slot n :=
    (H.encPulse_slot n).trans hend.spares.slot
  have hstrand := State.strand_of_fedBy hfed
  rw [hsame, hslot]
  refine ⟨(H.encPulse_find r.tag).trans (hend.spares.record.trans hfind), ?_, fun hno => ?_⟩
  · split
    · rfl
    · exact hstrand
  · rw [hno, if_neg Bool.false_ne_true]
    exact ⟨rfl, rfl⟩

end State.Pulsed

/-- Settles O11: the take-up of one slot's strand in an advance of its rope. -/
theorem encPulseTakesUpFeed : Obligations.EncPulseTakesUpFeed := by
  unfold Obligations.EncPulseTakesUpFeed
  intro h n s q r f b S B hrun hk hprod hf hslot hr hb hc hroom
  dsimp only
  generalize hcarry : ((s.head h).pitchFraction + (s.head h).settings.pitch) / 65536 = c at hroom ⊢
  have H : s.Pulsed h n c q r f b := ⟨B, hrun, hk, hprod, hf, hslot, hr, hb, hc, hcarry, hroom⟩
  generalize hsum : ((s.head h).slot n).acc + c * f.factor = sum
  obtain ⟨hfind, hstrand, hdrawn⟩ := H.taken hsum
  obtain ⟨x, y, ex, -, hstate, -⟩ := (B.but h).strand hslot
  cases hr.symm.trans ex
  rw [Record.afterTaking_eq hb (by rw [hstate]; nofun)] at hfind
  have hchange := State.change_find (f := State.encPulse h) hr hfind
  have hspent : (b.draw (sum / 65536)).spent = true ↔ 0 < sum / 65536 ∧ b.piece.made - b.consumed ≤ sum / 65536 := StrandBody.spent_iff
  obtain ⟨f', hrope, hsources⟩ := H.closes
  obtain ⟨q1, hq1, hq1body, -, -⟩ := hrope.found
  have hqchange := State.change_find (f := State.encPulse h) (State.productOf_find hprod) hq1
  refine ⟨s.change (State.encPulse h), _, { b with consumed := (b.draw (sum / 65536)).consumed, fraction := sum % 65536 }, rfl, hchange,
    ?_, rfl, rfl, fun hlt => ?_, fun hpos hle => ?_, _, hqchange, ?_⟩
  · rw [Record.stepMark_body]
    split <;> rfl
  · have hno : (b.draw (sum / fine)).spent = false := Bool.eq_false_iff.mpr fun h => by
      have := (hspent.mp h).2
      omega
    rw [hno, if_neg Bool.false_ne_true] at hstrand hchange ⊢
    rw [Record.stepMark_state]
    exact ⟨rfl, hstrand, (hdrawn hno).1⟩
  · have hyes : (b.draw (sum / fine)).spent = true := hspent.mpr ⟨hpos, hle⟩
    rw [hyes, if_pos rfl] at hstrand ⊢
    rw [Record.stepMark_state, Record.stepMark_bound]
    exact ⟨rfl, rfl, hstrand, fun hreq => H.encPulse_short hreq hstrand⟩
  · rw [Record.stepMark_body, hq1body, ← closeEntries_eq_closedAt]
    exact hsources

end Sys2Proof.Machine
end

section
/-! PROOF. The faults a rope takes over from its feeds in an advance (R9, R126, R128, R133). -/

namespace Sys2Proof.Machine

variable {h : HeadIx} {s t u v : State} {r q x : Record} {b : StrandBody} {n i : SlotIx} {j k m m' c : Nat} {f f' : RopeBody}
  {p p' : Piece} {a : Holder}

/-! ## A holder that has gone counts (R9) -/

theorem Span.counted_isOpen (y : Span) : y.counted.isOpen = y.isOpen := by
  unfold Span.counted
  split <;> rfl

theorem Span.counted_holders (y : Span) : y.counted.holders = y.holders := by
  unfold Span.counted
  split <;> rfl

theorem Span.counted_closed {y : Span} (hy : y.isOpen = false) : y.counted = y := if_neg (Bool.eq_false_iff.mp hy)

/-- A piece that has grown and lost a holder has another list than before (R9). -/
theorem Piece.counted_ne (hp : p.Ok) (hp' : p'.Ok) (hhas : p.hasHolder a = true) (hno : p'.hasHolder a = false) (hm : p.made < p'.made)
    (hmarks : ∀ d, p.pending = some d → p'.Marks d.pos p'.made d.kinds) : p.spans.map Span.counted ≠ p'.spans.map Span.counted := by
  intro hsame
  rcases Piece.hasHolder_iff.mp hhas with ⟨o, ho, hoa⟩ | ⟨d, hd, -⟩
  · have hmem : o ∈ p.spans := List.mem_of_find?_eq_some ho
    have hopen : o.isOpen = true := List.find?_some ho
    obtain ⟨z, hz, hzo⟩ := List.mem_map.mp (hsame ▸ List.mem_map_of_mem hmem)
    have hzopen : z.isOpen = true := by rw [← Span.counted_isOpen, hzo, Span.counted_isOpen, hopen]
    have hza : z.holders.has a = true := by rw [← Span.counted_holders, hzo, Span.counted_holders, hoa]
    exact Bool.eq_false_iff.mp hno (Piece.hasHolder_iff.mpr (.inl ⟨z, hp'.openSpan_of_mem hz hzopen, hza⟩))
  · obtain ⟨z, hz, -, hhi, -⟩ := hmarks d hd
    obtain ⟨y, hy, hyz⟩ := List.mem_map.mp (hsame ▸ List.mem_map_of_mem (f := Span.counted) hz)
    have hyclosed : y.isOpen = false := by
      have hnone := (hp.pending d hd).alone
      exact Bool.eq_false_iff.mpr (List.find?_eq_none.mp hnone y hy)
    have hzclosed : z.isOpen = false := by rw [← Span.counted_isOpen, ← hyz, Span.counted_isOpen, hyclosed]
    rw [Span.counted_closed hyclosed, Span.counted_closed hzclosed] at hyz
    have hinside := (hp.list.spans y hy).inside
    rw [hyz] at hinside
    omega

theorem Record.counted_ne_of_rope (hf : q.body = .rope f) (hf' : x.body = .rope f')
    (hne : f.passed < f'.passed ∨ f.piece.spans.map Span.counted ≠ f'.piece.spans.map Span.counted) : q.counted ≠ x.counted := by
  intro e
  have hpassed := congrArg Counted.passed e
  have hspans := congrArg Counted.spans e
  simp only [Record.counted, hf, hf', Record.spans, Body.piece, Option.map_some, Option.getD_some] at hpassed hspans
  rcases hne with hne | hne
  · omega
  · exact hne hspans

/-! ## The rope after the pulse -/

theorem StrandBody.drawsBad_iff : b.drawsBad m = true ↔ b.piece.made - b.consumed < m ∨
    meetsList (b.piece.made - b.consumed - m) (b.piece.made - b.consumed) b.piece.spans = true := by
  rw [StrandBody.drawsBad, Bool.or_eq_true, StrandBody.draw, decide_eq_true_iff]
  rfl

theorem not_otherFeed (n : SlotIx) : ¬otherFeed n (.feed n) := by
  rintro ⟨i, hi, e⟩
  cases e
  exact hi rfl

/-- What the other slots take up, before and after, is nothing to FEEDn. -/
theorem RopeBody.FeedSettled.among {fu g : RopeBody} {out out' : SlotIx → Bool} {pos m : Nat} {required bad spent within : Bool}
    (hs : fu.FeedSettled n m required bad spent within g) (before : f.Fed (otherFeed n) out pos fu) (after : g.Fed (otherFeed n) out' pos f')
    (hok : f.piece.Ok) (hokg : g.piece.Ok) : f.FeedSettled n m required bad spent within f' := by
  have hhas := after.piece.hasHolder_iff hokg (not_otherFeed n)
  have hheld (e : g.piece.HeldFrom (.feed n) m) : f'.piece.HeldFrom (.feed n) m :=
    (after.piece.still hokg (.feed n) (not_otherFeed n)).heldFrom e
  constructor
  case kept =>
    intro hspent hreq
    obtain ⟨hk, hb⟩ := hs.kept hspent hreq
    exact ⟨hhas.trans hk, fun hbad => hheld (hb hbad)⟩
  case freed => exact fun hspent hreq => hhas.trans (hs.freed hspent hreq)
  case inside => exact fun hspent hin hbad => hheld (hs.inside hspent hin hbad)
  case outside =>
    intro hspent hout
    obtain ⟨hno, hb⟩ := hs.outside hspent hout
    refine ⟨hhas.trans hno, fun hbad => ?_⟩
    obtain ⟨hmark, hcount⟩ := hb hbad
    rw [before.piece.made] at hmark
    rw [before.piece.hasHolder_iff hok (not_otherFeed n)] at hcount
    exact ⟨fun hlt => after.piece.covers.marks (hmark hlt), hcount.imp id fun hlt =>
      Nat.lt_of_lt_of_le (Nat.lt_of_le_of_lt before.passed hlt) after.passed⟩

namespace State.Pulsed

theorem making (H : s.Pulsed h n c q r f b) : q.state = .making := by
  obtain ⟨x, k, ex, hb, -⟩ := H.bindings.named h .product q.tag (State.productOf_product H.product)
  cases ex.symm.trans (State.productOf_find H.product)
  exact (H.bindings.tied q.tag q ex).held h .product hb

theorem grown_ok (H : s.Pulsed h n c q r f b) (R : s.RecordsOk) : (f.piece.grownAt (s.head h) (q.made + c)).Ok := by
  have hmem := (State.find_mem (State.productOf_find H.product)).1
  have hok : f.piece.Ok := (R q hmem).piece f.piece (by rw [H.rope]; rfl)
  have hmade : q.made = f.piece.made := by rw [Record.made, H.rope]; rfl
  have hpos := H.carry_pos
  exact (Piece.grownAt_altersOnly ..).ok (Piece.advanceTo_ok hok (by omega))

/-- The rope as the pulse leaves it: FEEDn is settled by the slot's draw (R126), and what it had marked is still there. -/
theorem settles (H : s.Pulsed h n c q r f b) (R : s.RecordsOk) {sum : Nat} (hsum : ((s.head h).slot n).acc + c * f.factor = sum) :
    ∃ f', (s.encPulse h).RopeIs q.tag q f' ∧ f'.piece.Covers (f.piece.grownAt (s.head h) (q.made + c)) ∧
      f'.piece.made = q.made + c ∧ f'.piece.Ok ∧
      RopeBody.FeedSettled n q.made ((s.head h).slot n).required (b.drawsBad (sum / fine)) (b.draw (sum / fine)).spent
        (topInside (b.draw (sum / fine)).top1 b.piece.spans) { f with piece := f.piece.grownAt (s.head h) (q.made + c) } f' := by
  obtain ⟨u, hu, halone, hfed, hdraw, hend⟩ := H.at_slot
  rw [hsum] at hdraw
  have hok := H.grown_ok R
  obtain ⟨out, hrope⟩ := hu.rope
  obtain ⟨fu, hfu, hfedu⟩ := hrope.ropeIs H.pulsing_ropeIs
  have hoku : fu.piece.Ok := hfedu.piece.ok hok
  obtain ⟨g, hg, hsettled⟩ := State.takeUpSlot_settles hfed halone.product halone.apart hdraw (hfu.makesRope H.making) hoku
  obtain ⟨f2, hf2, hfed2⟩ := (State.takeUpSlot_ropeFed (factor := f.factor) (m := q.made) (m' := q.made + c) (n := n) halone.product
    hdraw).ropeIs hfu
  obtain rfl : g = f2 := by
    obtain ⟨z, ez, hz, -⟩ := hg.found
    obtain ⟨z', ez', hz', -⟩ := hf2.found
    cases ez.symm.trans ez'
    exact Body.rope.inj (hz.symm.trans hz')
  obtain ⟨out', hrope'⟩ := hend.rope
  obtain ⟨f3, hf3, hfed3⟩ := hrope'.ropeIs hf2
  have hok2 := hfed2.piece.ok hoku
  rw [hu.spares.slot, H.pulsing_slot] at hsettled
  refine ⟨f3, hf3.of_find (H.encPulse_find q.tag), (hfed3.piece.covers.trans hfed2.piece.covers).trans hfedu.piece.covers, ?_,
    hfed3.piece.ok hok2, hsettled.among hfedu hfed3 hok hok2⟩
  rw [hfed3.piece.made, hfed2.piece.made, hfedu.piece.made]
  exact Piece.grownAt_made ..

end State.Pulsed

end Sys2Proof.Machine
end

section
/-! PROOF. The faults a rope takes over from its feeds in an advance (R9, R126, R128, R133): the statement. -/

namespace Sys2Proof.Machine

variable {h : HeadIx} {s t u v : State} {r q x : Record} {b : StrandBody} {n i : SlotIx} {j k m m' c : Nat} {f f' : RopeBody}
  {p p' : Piece} {a : Holder}

namespace State.Pulsed

/-- A strand drawn below the low mark is noted, once (R133). -/
theorem low (H : s.Pulsed h n c q r f b) {sum : Nat} (hsum : ((s.head h).slot n).acc + c * f.factor = sum)
    (hl : b.piece.made - (b.draw (sum / fine)).consumed < (s.head h).settings.feedLow * 1000)
    (h0 : ((s.head h).slot n).lowNoted = false) :
    (s.encPulse h).flagged h .alarm = true ∧ ((s.encPulse h).attn.causesOf h).feedLow = true := by
  obtain ⟨u, hu, -, hfed, hdraw, hend⟩ := H.at_slot
  rw [hsum] at hdraw
  have hsettings : (u.head h).settings = (s.head h).settings := hu.spares.settings.trans H.pulsing_settings
  have hslot : (u.head h).slot n = (s.head h).slot n := hu.spares.slot.trans (H.pulsing_slot n)
  obtain ⟨hflag, hcause⟩ := State.takeUpSlot_low (j := q.tag) hfed hdraw (by rw [hsettings]; exact hl) (by rw [hslot]; exact h0)
  have hall := hend.spares.carries.trans H.encPulse_carries
  exact ⟨hall.flags _ hflag, hall.causes h .feedLow hcause⟩

/-- The rope's holder has come and gone, or gone, within one advance: the change counts (R9, R126). -/
theorem counts (H : s.Pulsed h n c q r f b) (R : s.RecordsOk) (hx : x.body = .rope f')
    (hcovers : f'.piece.Covers (f.piece.grownAt (s.head h) (q.made + c))) (hmade : f'.piece.made = q.made + c) (hok : f'.piece.Ok)
    (hno : f'.piece.hasHolder (.feed n) = false)
    (hcount : (f.piece.grownAt (s.head h) (q.made + c)).hasHolder (.feed n) = true ∨ f.passed < f'.passed) : q.counted ≠ x.counted := by
  refine Record.counted_ne_of_rope H.rope hx (hcount.symm.imp id fun hhas => ?_)
  have hpok : f.piece.Ok := (R q (State.find_mem (State.productOf_find H.product)).1).piece f.piece (by rw [H.rope]; rfl)
  have hqmade : q.made = f.piece.made := by rw [Record.made, H.rope]; rfl
  have hpos := H.carry_pos
  have hlt : f.piece.made < q.made + c := by omega
  have hgrown := Piece.grownAt_altersOnly (s.head h) (q.made + c) f.piece
  have hnot : ¬(s.head h).releases (q.made + c) (.feed n) := by
    rintro (⟨e, -⟩ | ⟨e, -⟩) <;> cases e
  have hbefore : f.piece.hasHolder (.feed n) = true :=
    hpok.of_hasHolder_advanceTo (hgrown.has (Piece.advanceTo_ok hpok hlt) _ hnot hhas)
  refine Piece.counted_ne hpok hok hbefore hno (by omega) fun d hd => ?_
  rw [hmade]
  exact (hcovers.trans hgrown.covers).marks (Piece.advanceTo_marks_pending hd)

end State.Pulsed

/-- Settles O12: the faults of a strand that its rope takes over in an advance. -/
theorem encPulseCarriesFaults : Obligations.EncPulseCarriesFaults := by
  unfold Obligations.EncPulseCarriesFaults
  intro h n s q r f b S B R hrun hk hprod hf hslot hr hb hc hroom
  dsimp only
  generalize hcarry : ((s.head h).pitchFraction + (s.head h).settings.pitch) / 65536 = c at hroom ⊢
  have H : s.Pulsed h n c q r f b := ⟨B, hrun, hk, hprod, hf, hslot, hr, hb, hc, hcarry, hroom⟩
  generalize hsum : ((s.head h).slot n).acc + c * f.factor = sum
  intro hpos
  obtain ⟨-, -, hdrawn⟩ := H.taken hsum
  obtain ⟨f', hrope, hcovers, hmade, hok, hsettled⟩ := H.settles R hsum
  obtain ⟨x, ex, hx, -, -⟩ := hrope.found
  have hfind := State.change_find (f := State.encPulse h) (State.productOf_find hprod) ex
  have hbody : (Record.stepMark (s.encPulse h).clock.seconds q x).body.piece = some f'.piece := by
    rw [Record.stepMark_body, hx]
    rfl
  have hholds (a : Holder) : (s.change (State.encPulse h)).hasHolder q.tag a = f'.piece.hasHolder a :=
    State.hasHolder_of_piece (State.pieceOf_of_record hfind hbody)
  have hbad : b.drawsBad (sum / 65536) = true ↔ b.piece.made - b.consumed < sum / 65536 ∨
      meetsList (b.piece.made - b.consumed - sum / 65536) (b.piece.made - b.consumed) b.piece.spans = true := StrandBody.drawsBad_iff
  have hnotSpent (hlt : sum / 65536 < b.piece.made - b.consumed) : (b.draw (sum / fine)).spent = false :=
    Bool.eq_false_iff.mpr fun h => by
      have := (StrandBody.spent_iff.mp h).2
      rw [show fine = 65536 from rfl] at this
      omega
  have hspent (hle : b.piece.made - b.consumed ≤ sum / 65536) : (b.draw (sum / fine)).spent = true := StrandBody.spent_iff.mpr ⟨hpos, hle⟩
  have hinside : topInside (b.draw (sum / fine)).top1 b.piece.spans = true ↔
      ∃ x ∈ b.piece.spans, x.lo < b.piece.made - b.consumed - sum / 65536 ∧ b.piece.made - b.consumed - sum / 65536 ≤ x.hi := topInside_iff
  rw [← hbad]
  refine ⟨s.change (State.encPulse h), _, f'.piece, rfl, hfind, hbody, ?_⟩
  rw [hholds]
  refine ⟨fun hlt hin => ?inside, fun hlt hout => ?outside, fun hle hreq => ?kept,
    fun hle hreq => hsettled.freed (hspent hle) hreq, fun hlow h0 => ?low⟩
  case inside =>
    have hwithin := hinside.mpr hin
    exact ⟨(hdrawn (hnotSpent hlt)).2.trans hwithin, hsettled.inside (hnotSpent hlt) hwithin⟩
  case outside =>
    have hwithin : topInside (b.draw (sum / fine)).top1 b.piece.spans = false := Bool.eq_false_iff.mpr fun e => by
      obtain ⟨y, hy, hlo, hhi⟩ := hinside.mp e
      have := hout y hy
      omega
    obtain ⟨hno, hfaulty⟩ := hsettled.outside (hnotSpent hlt) hwithin
    refine ⟨(hdrawn (hnotSpent hlt)).2.trans hwithin, hno, fun hb => ?_⟩
    obtain ⟨hmarks, hcount⟩ := hfaulty hb
    rw [Piece.grownAt_made] at hmarks
    refine ⟨hmarks (Nat.lt_add_of_pos_right H.carry_pos), ?_⟩
    rw [Record.stepMark_step (H.counts R hx hcovers hmade hok hno hcount)]
  case kept => exact hsettled.kept (hspent hle) hreq
  case low =>
    refine H.low hsum ?_ h0
    have hleft : b.piece.made - (b.draw (sum / fine)).consumed = b.piece.made - b.consumed - sum / 65536 := by
      show b.piece.made - (b.consumed + min (sum / 65536) (b.piece.made - b.consumed)) = _
      omega
    rw [hleft]
    exact hlow

end Sys2Proof.Machine
end

section
/-! PROOF. The coils of every rope (R5, R30, R156, R162): which changes of records and heads leave the law as it is. -/

namespace Sys2Proof.Machine

variable {g h : HeadIx} {s t u : State} {r q x y : Record} {c : CoilBody} {b : RopeBody} {j k n : Nat}

/-! ## The winding coils -/

/-- What a head says of the coil it winds: its source, and the coil and the planned lower end of its segment. -/
def Head.winds (x : Head) : Option Nat × Option (Option Nat × Nat) := (x.source, x.segment.map fun g => (g.coil, g.plannedLo))

/-- The coil of tag `n` is the segment of its origin head, over the range below the current end that was planned (R156, R158). -/
structure State.WindsCoil (s : State) (n : Nat) (c : CoilBody) : Prop where
  winds : (s.head c.origin).winds = (some c.sourceRope, some (some n, c.lo))
  ends : s.sourceEnd c.origin = some c.hi

theorem State.windsCoil_iff : s.WindsCoil n c ↔ ∃ g q b, (s.head c.origin).segment = some g ∧ g.coil = some n ∧ g.plannedLo = c.lo ∧
    s.sourceOf c.origin = some (q, b) ∧ q.tag = c.sourceRope ∧ b.currentEnd = c.hi := by
  constructor
  · rintro ⟨hwinds, hends⟩
    simp only [Head.winds, Prod.mk.injEq, Option.map_eq_some_iff] at hwinds
    obtain ⟨hsource, g, hg, hcoil, hlo⟩ := hwinds
    rw [← State.sourceOf_end, Option.map_eq_some_iff] at hends
    obtain ⟨⟨q, b⟩, hq, hb⟩ := hends
    obtain ⟨hq', -⟩ := State.sourceOf_source hq
    exact ⟨g, q, b, hg, hcoil, hlo, hq, Option.some.inj (hq'.symm.trans hsource), hb⟩
  · rintro ⟨g, q, b, hg, hcoil, hlo, hq, htag, hb⟩
    obtain ⟨hsource, -⟩ := State.sourceOf_source hq
    refine ⟨?_, ?_⟩
    · rw [Head.winds, hsource, hg, Option.map_some, hcoil, hlo, htag]
    · rw [← State.sourceOf_end, hq, Option.map_some, hb]

/-- A record is a coil in WINDING with the fields `c`. -/
structure Record.Winding (r : Record) (c : CoilBody) : Prop where
  body : r.body = .coil c
  state : r.state = .winding

/-- The states of a rope that coils may belong to (R5, R30). -/
def RecordState.settled : RecordState → Bool
  | .made | .inUse | .spent => true
  | .draft | .making | .interrupted | .winding | .wound | .banded => false

theorem RecordState.settled_iff {x : RecordState} : x.settled = true ↔ x = .made ∨ x = .inUse ∨ x = .spent := by
  cases x <;> simp [RecordState.settled]

/-- A record is a rope that coils may belong to. -/
structure Record.Settled (r : Record) : Prop where
  kind : r.kind = .rope
  state : r.state.settled = true

theorem State.CoilsOk.rope (C : s.CoilsOk) (e : s.find n = some r) (hc : r.body = .coil c) (hb : c.belongs = true) :
    ∃ q, s.find c.sourceRope = some q ∧ q.Settled := by
  obtain ⟨q, hq, hk, hst⟩ := C.ropes n r c e hc hb
  exact ⟨q, hq, hk, RecordState.settled_iff.mpr hst⟩

theorem State.CoilsOk.windsCoil (C : s.CoilsOk) (e : s.find n = some r) (hw : r.Winding c) : c.belongs = true ∧ s.WindsCoil n c := by
  obtain ⟨hb, hseg⟩ := C.winding n r c e hw.body hw.state
  exact ⟨hb, State.windsCoil_iff.mpr hseg⟩

/-- The law of the coils, from its three parts. -/
theorem State.CoilsOk.of_parts (ropes : ∀ n r c, s.find n = some r → r.body = .coil c → c.belongs = true →
      ∃ q, s.find c.sourceRope = some q ∧ q.Settled)
    (winding : ∀ n r c, s.find n = some r → r.Winding c → c.belongs = true ∧ s.WindsCoil n c)
    (clear : ∀ n r c, s.find n = some r → r.body = .coil c → c.belongs = true → r.state = .winding ∨ r.state = .wound →
      c.grade = .first → meetsList c.lo c.hi (s.spansOf c.sourceRope) = false) : s.CoilsOk where
  ropes n r c e hc hb := by
    obtain ⟨q, hq, hk, hst⟩ := ropes n r c e hc hb
    exact ⟨q, hq, hk, RecordState.settled_iff.mp hst⟩
  winding n r c e hc hst := by
    obtain ⟨hb, hw⟩ := winding n r c e ⟨hc, hst⟩
    exact ⟨hb, State.windsCoil_iff.mp hw⟩
  clear := clear

/-! ## What leaves the law as it is -/

/-- Every coil of `t` that belongs to a rope, or is in WINDING, was a coil of `s` of the same fields, in WINDING or WOUND where it is so
now; its rope stays a settled rope with the same spans; and a head that winds one winds it as before. -/
structure State.CoilsFollow (s t : State) : Prop where
  coils : ∀ n y c, t.find n = some y → y.body = .coil c → c.belongs = true ∨ y.state = .winding →
    ∃ x, s.find n = some x ∧ x.body = .coil c ∧ (y.state = .winding → x.state = .winding) ∧ (y.state = .wound → x.state = .wound)
  ropes : ∀ n y c, t.find n = some y → y.body = .coil c → c.belongs = true → ∀ q, s.find c.sourceRope = some q → q.Settled →
    ∃ q', t.find c.sourceRope = some q' ∧ q'.Settled ∧ q'.spans = q.spans
  winds : ∀ n y c, t.find n = some y → y.Winding c → (t.head c.origin).winds = (s.head c.origin).winds ∧
    t.sourceEnd c.origin = s.sourceEnd c.origin

theorem State.CoilsOk.follow (C : s.CoilsOk) (F : s.CoilsFollow t) : t.CoilsOk := by
  refine .of_parts (fun n y c e hc hb => ?_) (fun n y c e hw => ?_) (fun n y c e hc hb hst hg => ?_)
  · obtain ⟨x, ex, hx, -⟩ := F.coils n y c e hc (.inl hb)
    obtain ⟨q, eq, hq⟩ := C.rope ex hx hb
    obtain ⟨q', eq', hq', -⟩ := F.ropes n y c e hc hb q eq hq
    exact ⟨q', eq', hq'⟩
  · obtain ⟨x, ex, hx, hwinding, -⟩ := F.coils n y c e hw.body (.inr hw.state)
    obtain ⟨hb, hold⟩ := C.windsCoil ex ⟨hx, hwinding hw.state⟩
    obtain ⟨hhead, hend⟩ := F.winds n y c e hw
    exact ⟨hb, hhead.trans hold.winds, hend.trans hold.ends⟩
  · obtain ⟨x, ex, hx, hwinding, hwound⟩ := F.coils n y c e hc (.inl hb)
    obtain ⟨q, eq, hq⟩ := C.rope ex hx hb
    obtain ⟨q', eq', -, hspans⟩ := F.ropes n y c e hc hb q eq hq
    have hclear := C.clear n x c ex hx hb (hst.imp hwinding hwound) hg
    rw [State.spansOf, eq, Option.map_some, Option.getD_some] at hclear
    rw [State.spansOf, eq', Option.map_some, Option.getD_some, hspans]
    exact hclear

/-- With the same records, only the heads that wind a coil matter. -/
theorem State.CoilsFollow.of_store (hs : t.store = s.store)
    (winds : ∀ n y c, s.find n = some y → y.Winding c → (t.head c.origin).winds = (s.head c.origin).winds) : s.CoilsFollow t where
  coils n y c e hc _ := ⟨y, (State.find_of_store hs n).symm.trans e, hc, id, id⟩
  ropes n y c _ _ _ q eq hq := ⟨q, (State.find_of_store hs _).trans eq, hq, rfl⟩
  winds n y c e hw := by
    have hhead := winds n y c ((State.find_of_store hs n).symm.trans e) hw
    refine ⟨hhead, ?_⟩
    have hsource := congrArg Prod.fst hhead
    simp only [Head.winds] at hsource
    rw [State.sourceEnd, State.sourceEnd, hsource]
    simp only [State.find_of_store hs]

/-- With the same records and the same work at every head the law stands. -/
theorem State.CoilsOk.of_heads (C : s.CoilsOk) (hs : t.store = s.store) (hh : ∀ g, (t.head g).winds = (s.head g).winds) : t.CoilsOk :=
  C.follow (.of_store hs fun _ _ c _ _ => hh c.origin)

/-- A whole change leaves the law as its function left it (R9). -/
theorem State.change_coilsOk {f : State → State} (C : (f s).CoilsOk) : (s.change f).CoilsOk := by
  have hfind (n : Nat) (y : Record) (e : (s.change f).find n = some y) :
      ∃ x, (f s).find n = some x ∧ x.body = y.body ∧ x.state = y.state := by
    rw [State.change, State.commit_find, Option.map_eq_some_iff] at e
    obtain ⟨x, ex, rfl⟩ := e
    refine ⟨x, ex, ?_, ?_⟩
    all_goals split <;> simp only [Record.stepMark_body, Record.stepMark_state]
  have hback (n : Nat) (x : Record) (e : (f s).find n = some x) :
      ∃ y, (s.change f).find n = some y ∧ y.body = x.body ∧ y.state = x.state := by
    refine ⟨_, by rw [State.change, State.commit_find, e, Option.map_some], ?_, ?_⟩
    all_goals split <;> simp only [Record.stepMark_body, Record.stepMark_state]
  refine C.follow ⟨fun n y c e hc _ => ?_, fun n y c e hc hb q eq hq => ?_, fun n y c e hw => ⟨rfl, ?_⟩⟩
  · obtain ⟨x, ex, hbody, hstate⟩ := hfind n y e
    exact ⟨x, ex, hbody.trans hc, fun h => hstate.trans h, fun h => hstate.trans h⟩
  · obtain ⟨q', eq', hbody, hstate⟩ := hback _ q eq
    refine ⟨q', eq', ⟨?_, ?_⟩, ?_⟩
    · rw [Record.kind, hbody]; exact hq.kind
    · rw [hstate]; exact hq.state
    · rw [Record.spans, hbody]; rfl
  · rw [State.sourceEnd, State.sourceEnd, State.change_head]
    cases (f s).head c.origin |>.source with
    | none => rfl
    | some k =>
      rw [Option.bind_some, Option.bind_some]
      cases ek : (f s).find k with
      | none =>
        rw [State.change, State.commit_find, ek]
        rfl
      | some x =>
        obtain ⟨y, ey, hbody, -⟩ := hback k x ek
        rw [ey, Option.bind_some, Option.bind_some, Record.restEnd, Record.restEnd, hbody]

end Sys2Proof.Machine
end

section
/-! PROOF. The operations of a maker leave the fields of every coil as they are: for each shared operation, the one lemma that says so. -/

namespace Sys2Proof.Machine

variable {h k : HeadIx} {s t u : State} {r q x y : Record} {c : CoilBody} {b : RopeBody} {j n : Nat}

/-! ## The relation -/

/-- The fields of a coil. -/
def Record.coilBody (r : Record) : Option CoilBody :=
  match r.body with
  | .coil c => some c
  | .strand _ | .rope _ | .panel _ => none

theorem Record.coilBody_iff : r.coilBody = some c ↔ r.body = .coil c := by
  cases hb : r.body <;> simp [Record.coilBody, hb]

/-- The same tags are tags of coils in `t` as in `s`, with the same fields. -/
structure State.SameCoils (s t : State) : Prop where
  same : ∀ n, (t.find n).bind Record.coilBody = (s.find n).bind Record.coilBody

theorem State.SameCoils.refl (s : State) : s.SameCoils s := ⟨fun _ => rfl⟩

theorem State.SameCoils.of_store (H : s.SameCoils t) (e : u.store = t.store) : s.SameCoils u where
  same n := by rw [State.find_of_store e, H.same n]

theorem State.SameCoils.coil (H : s.SameCoils t) (e : t.find n = some y) (hc : y.body = .coil c) :
    ∃ x, s.find n = some x ∧ x.body = .coil c := by
  have hn := H.same n
  rw [e, Option.bind_some, Record.coilBody_iff.mpr hc] at hn
  obtain ⟨x, ex, hx⟩ := Option.bind_eq_some_iff.mp hn.symm
  exact ⟨x, ex, Record.coilBody_iff.mp hx⟩

theorem State.foldl_sameCoils {α : Type} {f : State → α → State} (hf : ∀ t a, s.SameCoils t → s.SameCoils (f t a)) (l : List α)
    (H : s.SameCoils t) : s.SameCoils (l.foldl f t) := foldl_invariant hf l t H

/-! ## The plain updates -/

@[simp] theorem State.updHead_sameCoils {f : Head → Head} (H : s.SameCoils t) : s.SameCoils (t.updHead k f) := H.of_store rfl

@[simp] theorem State.updSlot_sameCoils {m : SlotIx} {f : FeedSlot → FeedSlot} (H : s.SameCoils t) : s.SameCoils (t.updSlot k m f) :=
  H.of_store rfl

@[simp] theorem State.raise_sameCoils {f : HeadFlag} (H : s.SameCoils t) : s.SameCoils (t.raise k f) := H.of_store rfl

@[simp] theorem State.raiseAlarm_sameCoils {a : Alarm} (H : s.SameCoils t) : s.SameCoils (t.raiseAlarm k a) := H.of_store rfl

@[simp] theorem State.raiseAt_sameCoils {o : Option (HeadIx × Role)} {a : Alarm} (H : s.SameCoils t) : s.SameCoils (t.raiseAt o a) :=
  H.of_store (State.raiseAt_store ..)

@[simp] theorem State.updRec_sameCoils {f : Record → Record} (hf : ∀ r, (f r).tag = r.tag) (hc : ∀ r, (f r).coilBody = r.coilBody)
    (H : s.SameCoils t) : s.SameCoils (t.updRec j f) := by
  refine ⟨fun n => ?_⟩
  rw [← H.same n, State.updRec_find hf]
  cases t.find n with
  | none => rfl
  | some x =>
    rw [Option.map_some, Option.bind_some, Option.bind_some]
    split
    · exact hc x
    · rfl

/-! ## Records -/

@[simp] theorem Record.withPiece_coilBody (p : Piece) (r : Record) : (r.withPiece p).coilBody = r.coilBody := by
  cases hb : r.body <;> simp [Record.coilBody, Record.withPiece, hb, Body.withPiece]

@[simp] theorem Record.closeSources_coilBody (w : SlotIx → Bool) (m : Nat) (r : Record) : (r.closeSources w m).coilBody = r.coilBody := by
  cases hb : r.body <;> simp [Record.coilBody, Record.closeSources, hb, Body.withSources]

@[simp] theorem Record.appendSource_coilBody (e : SourceEntry) (r : Record) : (r.appendSource e).coilBody = r.coilBody := by
  cases hb : r.body <;> simp [Record.coilBody, Record.appendSource, hb, Body.withSources]

@[simp] theorem Record.bindAs_coilBody (st : RecordState) (o : Role) (r : Record) : (r.bindAs st k o).coilBody = r.coilBody := rfl

@[simp] theorem Record.unbindTo_coilBody (st : RecordState) (r : Record) : (r.unbindTo st).coilBody = r.coilBody := by
  have hleave : r.leaveMaking.coilBody = r.coilBody := by
    unfold Record.leaveMaking
    split
    · rw [Record.closeSources_coilBody, Record.withPiece_coilBody]
    · rfl
  unfold Record.unbindTo
  split
  · exact hleave
  · rfl

@[simp] theorem Record.interrupt_coilBody (r : Record) : r.interrupt.coilBody = r.coilBody := Record.unbindTo_coilBody .interrupted r

@[simp] theorem Record.onStrand_coilBody (f : StrandBody → StrandBody) (r : Record) : (r.onStrand f).coilBody = r.coilBody := by
  cases hb : r.body <;> simp [Record.coilBody, Record.onStrand, hb]

@[simp] theorem Record.onRope_coilBody (f : RopeBody → RopeBody) (r : Record) : (r.onRope f).coilBody = r.coilBody := by
  cases hb : r.body <;> simp [Record.coilBody, Record.onRope, hb]

@[simp] theorem Record.onPanel_coilBody (f : PanelBody → PanelBody) (r : Record) : (r.onPanel f).coilBody = r.coilBody := by
  cases hb : r.body <;> simp [Record.coilBody, Record.onPanel, hb]

/-! ## Pieces -/

@[simp] theorem State.onPiece_sameCoils {f : Piece → Piece × Bool} (H : s.SameCoils t) : s.SameCoils (t.onPiece j f) := by
  unfold State.onPiece
  split
  · exact H
  · split
    · exact H
    · next p _ =>
      have K : s.SameCoils (t.updRec j fun x => { x.withPiece (f p).1 with spansMerged := x.spansMerged || (f p).2 }) :=
        State.updRec_sameCoils (fun _ => rfl) (fun r => r.withPiece_coilBody (f p).1) H
      dsimp only
      split
      · exact State.raiseAt_sameCoils K
      · exact K

@[simp] theorem State.normalizeInto_sameCoils {n : Span} (H : s.SameCoils t) : s.SameCoils (t.normalizeInto j n) :=
  State.onPiece_sameCoils H

@[simp] theorem State.addHolder_sameCoils {m : Nat} {a : Holder} (H : s.SameCoils t) : s.SameCoils (t.addHolder j a m) := by
  unfold State.addHolder
  repeat' split
  all_goals simp (maxDischargeDepth := 20) [H]

@[simp] theorem State.releaseHolder_sameCoils {a : Holder} (H : s.SameCoils t) : s.SameCoils (t.releaseHolder j a) :=
  State.onPiece_sameCoils H

@[simp] theorem State.swapHolder_sameCoils {a o : Holder} (H : s.SameCoils t) : s.SameCoils (t.swapHolder j a o) :=
  State.onPiece_sameCoils H

/-! ## The head's work -/

@[simp] theorem State.makerFlawRise_sameCoils (H : s.SameCoils t) : s.SameCoils (t.makerFlawRise h) := by
  unfold State.makerFlawRise
  dsimp only
  repeat' split
  all_goals simp (maxDischargeDepth := 20) [H]

@[simp] theorem State.makerFlawFall_sameCoils (H : s.SameCoils t) : s.SameCoils (t.makerFlawFall h) := by
  unfold State.makerFlawFall
  dsimp only
  repeat' split
  all_goals simp (maxDischargeDepth := 20) [H]

@[simp] theorem State.flawRises_sameCoils (H : s.SameCoils t) : s.SameCoils (t.flawRises h) := by
  unfold State.flawRises
  split <;> simp (maxDischargeDepth := 20) [H]

@[simp] theorem State.addHold_sameCoils {a : HoldReason} (H : s.SameCoils t) : s.SameCoils (t.addHold h a) := by
  unfold State.addHold State.enterHeld
  dsimp only
  repeat' split
  all_goals simp (maxDischargeDepth := 20) [H]

@[simp] theorem State.checkEnd_sameCoils (H : s.SameCoils t) : s.SameCoils (t.checkEnd h) := H.of_store (State.checkEnd_store h t)

@[simp] theorem State.checkFeeds_sameCoils (H : s.SameCoils t) : s.SameCoils (t.checkFeeds h) := by
  unfold State.checkFeeds
  split <;> simp (maxDischargeDepth := 20) [H]

@[simp] theorem State.unbindSlot_sameCoils {st : RecordState} {pos : Nat} {m : SlotIx} (H : s.SameCoils t) :
    s.SameCoils (t.unbindSlot h st pos m) := by
  unfold State.unbindSlot
  dsimp only
  repeat' split
  all_goals simp (maxDischargeDepth := 20) [H]

@[simp] theorem State.takeUpSlot_sameCoils {rope factor m m' : Nat} {o : SlotIx} (H : s.SameCoils t) :
    s.SameCoils (t.takeUpSlot h rope factor m m' o) := by
  unfold State.takeUpSlot State.checkLow State.passFeed
  dsimp only
  repeat' split
  all_goals simp (maxDischargeDepth := 20) [H]

@[simp] theorem State.takeUp_sameCoils {m m' : Nat} (H : s.SameCoils t) : s.SameCoils (t.takeUp h m m') := by
  unfold State.takeUp
  split
  · exact H
  · split
    · exact State.foldl_sameCoils (fun _ _ => State.takeUpSlot_sameCoils) _ H
    all_goals exact H

@[simp] theorem State.charge_sameCoils {amount pos : Nat} {m : SlotIx} (H : s.SameCoils t) : s.SameCoils (t.charge h amount pos m) := by
  unfold State.charge State.chargeSlot State.checkLow
  dsimp only
  repeat' split
  all_goals simp (maxDischargeDepth := 20) [H]

@[simp] theorem State.chargeRow_sameCoils {amount pos : Nat} (H : s.SameCoils t) : s.SameCoils (t.chargeRow h amount pos).1 := by
  rw [State.chargeRow_eq, State.chargeBoth]
  dsimp only
  split <;> simp (maxDischargeDepth := 20) [H]

@[simp] theorem State.grown_sameCoils {m m' : Nat} (H : s.SameCoils t) : s.SameCoils (t.grown h j m m') := by
  have hpiece : s.SameCoils (t.onPiece j (Piece.advanceTo m')) := State.onPiece_sameCoils H
  have hguard : s.SameCoils ((t.onPiece j (Piece.advanceTo m')).releaseGuard h j m') := by
    unfold State.releaseGuard
    split <;> simp (maxDischargeDepth := 20) [hpiece]
  unfold State.grown State.releaseJoin
  split <;> simp (maxDischargeDepth := 20) [hguard]

@[simp] theorem State.advanceMade_sameCoils {c : Nat} (H : s.SameCoils t) : s.SameCoils (t.advanceMade h c) := by
  cases hr : t.productOf h with
  | none =>
    rw [State.advanceMade, hr]
    exact H
  | some r =>
    have hover : s.SameCoils (t.overrun h (r.made + c)) := H.of_store (State.overrun_store ..)
    rw [State.advanceMade_eq hr]
    unfold State.endsShort State.fedUp
    dsimp only
    repeat' split
    all_goals simp (maxDischargeDepth := 20) [hover]

@[simp] theorem State.spinPulse_sameCoils (H : s.SameCoils t) : s.SameCoils (t.spinPulse h) := by
  unfold State.spinPulse State.openWindow State.spinWithin State.endWindow State.placeLay
  dsimp only
  repeat' split
  all_goals simp (maxDischargeDepth := 20) [H]

@[simp] theorem State.closeRow_sameCoils (H : s.SameCoils t) : s.SameCoils (t.closeRow h) := by
  unfold State.closeRow State.countRow State.countMissed
  dsimp only
  repeat' split
  all_goals simp (maxDischargeDepth := 20) [H]

@[simp] theorem State.knotPulse_sameCoils (H : s.SameCoils t) : s.SameCoils (t.knotPulse h) := by
  unfold State.knotPulse State.countKnot State.strayKnot
  dsimp only
  repeat' split
  all_goals simp (maxDischargeDepth := 20) [H]

@[simp] theorem State.openRow_sameCoils (H : s.SameCoils t) : s.SameCoils (t.openRow h) := by
  unfold State.openRow
  repeat' split
  all_goals simp (maxDischargeDepth := 20) [H]

@[simp] theorem State.rowPulse_sameCoils (H : s.SameCoils t) : s.SameCoils (t.rowPulse h) := by
  unfold State.rowPulse
  split <;> simp (maxDischargeDepth := 20) [H]

@[simp] theorem State.rowExpiry_sameCoils (H : s.SameCoils t) : s.SameCoils (t.rowExpiry h) := by
  unfold State.rowExpiry
  split <;> simp (maxDischargeDepth := 20) [H]

@[simp] theorem State.runRise_sameCoils (H : s.SameCoils t) : s.SameCoils (t.runRise h) := by
  unfold State.runRise
  dsimp only
  repeat' split
  all_goals simp (maxDischargeDepth := 20) [H]

theorem State.endMaking_sameCoils {f : Record → Record} (hf : ∀ r, (f r).tag = r.tag) (hc : ∀ r, (f r).coilBody = r.coilBody)
    (H : s.SameCoils t) : s.SameCoils (t.endMaking h f) := by
  unfold State.endMaking
  split
  · exact H
  · exact State.updRec_sameCoils hf hc (State.foldl_sameCoils (fun _ _ => State.unbindSlot_sameCoils) _ H)

end Sys2Proof.Machine
end

section
/-! PROOF. The coils of every rope through the work of a maker (R5, R12, R30, R162): it names no settled rope and no coil. -/

namespace Sys2Proof.Machine

variable {g h k : HeadIx} {s t u : State} {r q x y : Record} {c : CoilBody} {b : RopeBody} {j n : Nat} {P : Nat → Prop}

/-- No coil and no settled rope has a tag in `P`. -/
structure State.OnlyMakes (P : Nat → Prop) (s : State) : Prop where
  plain : ∀ n x, P n → s.find n = some x → x.kind ≠ .coil ∧ ¬x.Settled

theorem Record.kind_coil (hc : r.body = .coil c) : r.kind = .coil := by rw [Record.kind, hc]; rfl

/-- A coil in WINDING is the segment of its origin head, and of no other. -/
theorem State.CoilsOk.origin (C : s.CoilsOk) (B : s.BindingsOk) (e : s.find n = some r) (hw : r.Winding c) :
    r.bound = some (c.origin, .segment) := by
  obtain ⟨-, hwinds⟩ := C.windsCoil e hw
  have hhead := hwinds.winds
  simp only [Head.winds, Prod.mk.injEq, Option.map_eq_some_iff] at hhead
  obtain ⟨-, g, hg, hcoil, -⟩ := hhead
  have hnamed : (s.head c.origin).named .segment = some n := by rw [Head.named, hg]; exact hcoil
  obtain ⟨x, k, ex, hb, -⟩ := B.named _ _ _ hnamed
  cases e.symm.trans ex
  exact hb

theorem State.BindingsOk.winding (B : s.BindingsOk) (e : s.find n = some r) (hst : r.state = .winding) :
    ∃ g, r.bound = some (g, .segment) ∧ (s.head g).named .segment = some n := by
  have htied := B.tied n r e
  cases hb : r.bound with
  | none =>
    have hloose := htied.loose hb
    rw [hst] at hloose
    cases hloose
  | some o =>
    obtain ⟨g, ro⟩ := o
    have hheld := htied.held g ro hb
    rw [hst] at hheld
    cases ro <;> cases hheld
    exact ⟨g, rfl, B.bound n r g .segment e hb⟩

theorem State.Keeps.winds (K : s.Keeps h t) (hg : g ≠ h) : (t.head g).winds = (s.head g).winds := by
  have hhead := congrArg Head.winds (K.others g hg)
  exact hhead

theorem State.Keeps.named (K : s.Keeps h t) (hg : g ≠ h) (ro : Role) : (t.head g).named ro = (s.head g).named ro := by
  have hhead := congrArg (fun x : Head => x.named ro) (K.others g hg)
  cases ro <;> exact hhead

/-- The law of the coils stands through work at a head that names only records in the making and strands. -/
theorem State.CoilsOk.of_frames (C : s.CoilsOk) (Bs : s.BindingsOk) (Bt : t.BindingsOk) (K : s.Keeps h t) (L : s.LeavesRecords P t)
    (F : s.SameCoils t) (M : s.OnlyMakes P) (hseg : (t.head h).named .segment = none) : t.CoilsOk := by
  have hsettled (n : Nat) (q : Record) (e : s.find n = some q) (hq : q.Settled) : t.find n = some q := by
    obtain ⟨-, rfl⟩ := State.find_mem e
    refine L q e ?_
    rintro (hP | ⟨c, hc, -⟩)
    · exact (M.plain _ _ hP e).2 hq
    · have hk := hq.kind
      rw [Record.kind_coil hc] at hk
      cases hk
  have hcoil (n : Nat) (y : Record) (c : CoilBody) (e : t.find n = some y) (hc : y.body = .coil c)
      (hb : c.belongs = true ∨ y.state = .winding) : s.find n = some y := by
    obtain ⟨x, ex, hx⟩ := F.coil e hc
    obtain ⟨-, htag⟩ := State.find_mem ex
    subst htag
    by_cases hin : x.Within P
    · exfalso
      rcases hin with hP | ⟨c', hc', hP⟩
      · exact (M.plain _ _ hP ex).1 (Record.kind_coil hx)
      · cases hx.symm.trans hc'
        have hbelongs : c.belongs = true := by
          refine hb.elim id fun hst => ?_
          obtain ⟨g, hbound, hnamed⟩ := Bt.winding e hst
          by_cases hg : g = h
          · rw [hg, hseg] at hnamed
            cases hnamed
          · rw [K.named hg] at hnamed
            obtain ⟨z, kd, ez, hzb, -⟩ := Bs.named _ _ _ hnamed
            cases ex.symm.trans ez
            have hzst := (Bs.tied _ _ ex).held _ _ hzb
            exact (C.windsCoil ex ⟨hx, hzst⟩).1
        obtain ⟨q, eq, hq⟩ := C.rope ex hx hbelongs
        exact (M.plain _ _ hP eq).2 hq
    · cases (L x ex hin).symm.trans e
      exact ex
  refine C.follow ⟨fun n y c e hc hb => ⟨y, hcoil n y c e hc hb, hc, id, id⟩, fun n y c e hc hb q eq hq => ⟨q, hsettled _ q eq hq, hq, rfl⟩,
    fun n y c e hw => ?_⟩
  have es := hcoil n y c e hw.body (.inr hw.state)
  obtain ⟨g, hbound, hnamed⟩ := Bt.winding e hw.state
  have horigin := C.origin Bs es hw
  cases hbound.symm.trans horigin
  have hne : c.origin ≠ h := fun e => by
    rw [e, hseg] at hnamed
    cases hnamed
  have hhead := K.winds (g := c.origin) hne
  refine ⟨hhead, ?_⟩
  obtain ⟨hbelongs, hwinds⟩ := C.windsCoil es hw
  obtain ⟨q, eq, hq⟩ := C.rope es hw.body hbelongs
  have hs := congrArg Prod.fst hwinds.winds
  have ht := (congrArg Prod.fst hhead).trans hs
  simp only [Head.winds] at hs ht
  rw [State.sourceEnd, State.sourceEnd, hs, ht, Option.bind_some, Option.bind_some, eq, hsettled _ q eq hq]

/-- A head that is no coiler names only records in the making and strands. -/
theorem State.BindingsOk.onlyMakes (B : s.BindingsOk) (hk : (s.head h).kind ≠ some .coiler) : s.OnlyMakes (s.names h) := by
  have hplain (ro : Role) (n : Nat) (x : Record) (hn : (s.head h).named ro = some n) (e : s.find n = some x) :
      x.kind ≠ .coil ∧ ¬x.Settled := by
    obtain ⟨z, kd, ez, hb, hkd, hbinds, -⟩ := B.named h ro n hn
    cases e.symm.trans ez
    have hne : kd ≠ .coiler := fun e => hk (hkd.trans (congrArg some e))
    have hst := (B.tied n x e).held h ro hb
    cases ro with
    | product =>
      refine ⟨fun hx => ?_, fun hx => ?_⟩
      · rw [hx] at hbinds
        cases kd <;> simp [MachineKind.binds, MachineKind.product] at hbinds
      · have := hx.state
        rw [hst] at this
        cases this
    | feed m =>
      have hx : x.kind = .strand := of_decide_eq_true (Bool.and_eq_true_iff.mp hbinds).2
      exact ⟨by rw [hx]; nofun, fun hs => by have := hs.kind; rw [hx] at this; cases this⟩
    | source => exact absurd (of_decide_eq_true (Bool.and_eq_true_iff.mp hbinds).1) hne
    | segment => exact absurd (of_decide_eq_true (Bool.and_eq_true_iff.mp hbinds).1) hne
  refine ⟨fun n x hn e => ?_⟩
  rcases hn with hn | hn | ⟨m, hn⟩ | ⟨g, hg, hn⟩
  · exact hplain .product n x hn e
  · exact hplain .source n x hn e
  · exact hplain (.feed m) n x hn e
  · exact hplain .segment n x (by rw [Head.named, hg]; exact hn) e

theorem State.BindingsOk.no_coil (B : s.BindingsOk) (hk : (s.head h).kind ≠ some .coiler) : (s.head h).named .segment = none := by
  refine Option.eq_none_iff_forall_not_mem.mpr fun n hn => ?_
  obtain ⟨x, kd, -, -, hkd, hbinds, -⟩ := B.named h .segment n hn
  exact hk (hkd.trans (congrArg some (of_decide_eq_true (Bool.and_eq_true_iff.mp hbinds).1)))

theorem State.BindingsOk.no_source (B : s.BindingsOk) (hk : (s.head h).kind ≠ some .coiler) : (s.head h).source = none := by
  refine Option.eq_none_iff_forall_not_mem.mpr fun n hn => ?_
  obtain ⟨x, kd, -, -, hkd, hbinds, -⟩ := B.named h .source n hn
  exact hk (hkd.trans (congrArg some (of_decide_eq_true (Bool.and_eq_true_iff.mp hbinds).1)))

end Sys2Proof.Machine
end

section
/-! PROOF. The coils of every rope through the events at a head that leave its coiler's work alone (R5, R30, R162). -/

namespace Sys2Proof.Machine

variable {g h k : HeadIx} {s t u : State} {r q x y : Record} {c : CoilBody} {b : RopeBody} {j n : Nat} {P : Nat → Prop}

/-! ## At a maker -/

/-- Work at a head that is no coiler, and that names no coil after it. -/
theorem State.CoilsOk.of_maker (C : s.CoilsOk) (B : s.BindingsOk) (hk : (s.head h).kind ≠ some .coiler) (Bt : t.BindingsOk)
    (K : s.Keeps h t) (L : s.LeavesRecords (s.names h) t) (F : s.SameCoils t) (hseg : (t.head h).named .segment = none) : t.CoilsOk :=
  C.of_frames B Bt K L F (B.onlyMakes hk) hseg

/-- Work that keeps the machines at the heads. -/
theorem State.CoilsOk.of_makerWork {f : State → State} (C : s.CoilsOk) (B : s.BindingsOk) (T : s.TagsOk) (hk : (s.head h).kind ≠ some .coiler)
    (hbound : ∀ K, s.BoundBut h noRole K → (f s).BoundBut h noRole K) (K : s.Keeps h (f s))
    (hconf : s.Confined (s.names h) h s → s.Confined (s.names h) h (f s)) (F : s.SameCoils (f s)) : (f s).CoilsOk := by
  have Bt := hbound _ (B.but h)
  exact C.of_maker B hk Bt.ok K (hconf (.start T)).records F (Bt.ok.no_coil (by rw [Bt.kinds h]; exact hk))

theorem State.completeCut_sameCoils (hk : (s.head h).kind ≠ some .coiler) : s.SameCoils (s.completeCut h) := by
  have hmade (t : State) (H : s.SameCoils t) : s.SameCoils (t.endMaking h fun r => r.unbindTo .made) :=
    State.endMaking_sameCoils (fun _ => Record.unbindTo_tag ..) (Record.unbindTo_coilBody .made) H
  unfold State.completeCut
  split
  · next hc => exact absurd hc hk
  · exact State.raise_sameCoils (State.updHead_sameCoils (hmade _ (State.closeRow_sameCoils (.refl s))))
  all_goals exact State.raise_sameCoils (State.updHead_sameCoils (hmade _ (.refl s)))

theorem State.completeCut_freed (hk : (s.head h).kind ≠ some .coiler) (ro : Role) : ((s.completeCut h).head h).named ro = none := by
  unfold State.completeCut
  split
  · next hc => exact absurd hc hk
  all_goals
    rw [State.raise_head, State.updHead_head]
    exact Head.complete_named ..

theorem State.endRunning_sameCoils (hk : (s.head h).kind ≠ some .coiler) {f : Record → Record} (hf : ∀ r, (f r).tag = r.tag)
    (hc : ∀ r, (f r).coilBody = r.coilBody) : s.SameCoils (s.endRunning h f) := by
  have hmade (t : State) (H : s.SameCoils t) : s.SameCoils (t.endMaking h f) := State.endMaking_sameCoils hf hc H
  unfold State.endRunning
  split
  · next hc => exact absurd hc hk
  · exact hmade _ (State.closeRow_sameCoils (.refl s))
  all_goals exact hmade _ (.refl s)

theorem State.settleRecords_sameCoils (hk : (s.head h).kind ≠ some .coiler) (hs : (s.head h).source = none) {f : Record → Record}
    (hf : ∀ r, (f r).tag = r.tag) (hc : ∀ r, (f r).coilBody = r.coilBody) : s.SameCoils (s.settleRecords h f) := by
  unfold State.settleRecords
  split
  · unfold State.undoBinding
    rw [hs]
    exact State.endMaking_sameCoils (fun _ => Record.unbindTo_tag ..) (fun r => Record.unbindTo_coilBody _ r) (.refl s)
  iterate 4 exact State.endRunning_sameCoils hk hf hc
  all_goals exact .refl s

end Sys2Proof.Machine
end

section
/-! PROOF. The coils of a rope to which a span is added (R30, R98, R99, R162). -/

namespace Sys2Proof.Machine

variable {g h k : HeadIx} {s t u : State} {r q x y : Record} {c : CoilBody} {b : RopeBody} {j : Nat} {n : Span} {l : List Span}

theorem meetsList_mono {lo hi lo' hi' : Nat} (hlo : lo' ≤ lo) (hhi : hi ≤ hi') (h : meetsList lo' hi' l = false) :
    meetsList lo hi l = false := by
  rw [meetsList, List.any_eq_false] at h ⊢
  intro y hy
  have := h y hy
  rw [Bool.not_eq_true, overlap_eq_false] at this ⊢
  omega

/-- The range by which a coil of FIRST grade is judged takes in its own (R158, R162). -/
theorem State.CoilsOk.judged_clear (C : s.CoilsOk) (e : s.find j = some y) (hc : y.body = .coil c)
    (hst : y.state = .winding ∨ y.state = .wound) (h : meetsList (s.judgedRange y c).1 (s.judgedRange y c).2 l = false) :
    meetsList c.lo c.hi l = false := by
  rw [State.judgedRange_eq] at h
  rcases hst with hst | hst
  · obtain ⟨-, hwinds⟩ := C.windsCoil e ⟨hc, hst⟩
    have hhead := hwinds.winds
    simp only [Head.winds, Prod.mk.injEq, Option.map_eq_some_iff] at hhead
    obtain ⟨-, g, hg, -, hlo⟩ := hhead
    rw [if_pos hst, hg, hwinds.ends] at h
    refine meetsList_mono ?_ le_rfl h
    rw [← hlo]
    exact Nat.min_le_right ..
  · rw [if_neg (by rw [hst]; nofun)] at h
    exact h

theorem State.SpanAdded.coil (a : s.SpanAdded r b n t) (hb : r.body = .rope b)
    (e : t.find j = some y) (hc : y.body = .coil c) : ∃ x c0, s.find j = some x ∧ x.body = .coil c0 ∧ y.state = x.state ∧
      c.belongs = c0.belongs ∧ c.sourceRope = c0.sourceRope ∧ c.origin = c0.origin ∧ c.lo = c0.lo ∧ c.hi = c0.hi ∧
      (c.grade = .first → c0.grade = .first ∧ ¬((normalize n b.piece.spans).1 ≠ s.spansOf r.tag ∧ c0.belongs = true ∧
        c0.sourceRope = r.tag ∧ (x.state = .winding ∨ x.state = .wound) ∧ c0.grade = .first ∧
        meetsList (s.judgedRange x c0).1 (s.judgedRange x c0).2 (normalize n b.piece.spans).1 = true)) := by
  cases ex : s.find j with
  | none =>
    rw [a.dead j ex] at e
    cases e
  | some x =>
    have hk : x.kind = .coil := by
      by_contra hk
      by_cases hj : j = r.tag
      · rw [hj, a.rope] at e
        cases e
        cases (Record.spanAdded_rope (n := n) hb).symm.trans hc
      · rw [a.others j x ex hj hk] at e
        cases e
        exact hk (Record.kind_coil hc)
    obtain ⟨c0, hc0⟩ := Record.body_of_coil hk
    obtain ⟨-, rfl⟩ := State.find_mem ex
    have hgrade := a.coils x c0 ex hc0
    refine ⟨x, c0, rfl, hc0, ?_⟩
    unfold State.Regrades at hgrade
    split at hgrade
    case isTrue hgo =>
      obtain ⟨hfind, -⟩ := hgrade
      cases e.symm.trans hfind
      cases hc
      exact ⟨rfl, rfl, rfl, rfl, rfl, rfl, nofun⟩
    case isFalse hstay =>
      cases e.symm.trans hgrade
      cases hc0.symm.trans hc
      exact ⟨rfl, rfl, rfl, rfl, rfl, rfl, fun hg => ⟨hg, hstay⟩⟩

theorem State.SpanAdded.settled (a : s.SpanAdded r b n t) (er : s.find r.tag = some r) (hb : r.body = .rope b)
    (e : s.find j = some q) (hq : q.Settled) : ∃ q', t.find j = some q' ∧ q'.Settled := by
  by_cases hj : j = r.tag
  · rw [hj, er] at e
    cases e
    refine ⟨r.spanAdded n b.piece, by rw [hj]; exact a.rope, ?_, hq.state⟩
    rw [Record.kind, Record.spanAdded_rope hb]
    rfl
  · exact ⟨q, a.others j q e hj (by rw [hq.kind]; nofun), hq⟩

theorem State.SpanAdded.spansOf (a : s.SpanAdded r b n t) (hb : r.body = .rope b) (hk : j = r.tag) :
    t.spansOf j = (normalize n b.piece.spans).1 := by
  rw [hk]
  exact State.spansOf_rope a.rope (Record.spanAdded_rope hb)

/-- The law of the coils stands through a span added to a rope. -/
theorem State.SpanAdded.coilsOk (C : s.CoilsOk) (a : s.SpanAdded r b n t) (er : s.find r.tag = some r) (hb : r.body = .rope b) :
    t.CoilsOk := by
  refine .of_parts (fun j y c e hc hbel => ?_) (fun j y c e hw => ?_) (fun j y c e hc hbel hst hg => ?_)
  · obtain ⟨x, c0, ex, hx, -, hb0, hrope, -⟩ := a.coil hb e hc
    obtain ⟨q, eq, hq⟩ := C.rope ex hx (hb0 ▸ hbel)
    rw [hrope]
    exact a.settled er hb eq hq
  · obtain ⟨x, c0, ex, hx, hstate, hb0, hrope, horigin, hlo, hhi, -⟩ := a.coil hb e hw.body
    obtain ⟨hbel, hwinds⟩ := C.windsCoil ex ⟨hx, hstate ▸ hw.state⟩
    refine ⟨hb0.trans hbel, ?_, ?_⟩
    · rw [horigin, hrope, hlo, a.heads]
      exact hwinds.winds
    · rw [horigin, hhi, State.sourceEnd_congr (congrArg Head.reach (a.heads _)) fun k _ => a.ends k]
      exact hwinds.ends
  · obtain ⟨x, c0, ex, hx, hstate, hb0, hrope, horigin, hlo, hhi, hgrade⟩ := a.coil hb e hc
    obtain ⟨hg0, hstay⟩ := hgrade hg
    rw [hstate] at hst
    have hclear := C.clear j x c0 ex hx (hb0 ▸ hbel) hst hg0
    rw [hlo, hhi, hrope]
    by_cases hj : c0.sourceRope = r.tag
    · rw [a.spansOf hb hj]
      by_cases hsame : (normalize n b.piece.spans).1 = s.spansOf r.tag
      · rw [hsame, ← hj]
        exact hclear
      · refine C.judged_clear ex hx hst (Bool.eq_false_iff.mpr fun hmeets => ?_)
        exact hstay ⟨hsame, hb0 ▸ hbel, hj, hst, hg0, hmeets⟩
    · obtain ⟨q, eq, hq⟩ := C.rope ex hx (hb0 ▸ hbel)
      have hspans : t.spansOf c0.sourceRope = s.spansOf c0.sourceRope := by
        rw [State.spansOf, State.spansOf, eq, a.others _ q eq hj (by rw [hq.kind]; nofun)]
      rw [hspans]
      exact hclear

theorem State.addRopeSpan_coilsOk (S : s.StoreOk) (C : s.CoilsOk) (er : s.find r.tag = some r) (hb : r.body = .rope b) (n : Span) :
    (s.addRopeSpan r.tag n).CoilsOk := (State.addRopeSpan_adds S er hb n).coilsOk C er hb

theorem State.updHead_winds {f : Head → Head} (hf : (f (s.head h)).winds = (s.head h).winds) (g : HeadIx) :
    ((s.updHead h f).head g).winds = (s.head g).winds := by
  by_cases hg : g = h
  · rw [hg, State.updHead_head]
    exact hf
  · rw [State.updHead_head_ne _ f hg]

theorem State.CoilsOk.updHead {f : Head → Head} (C : s.CoilsOk) (hf : ∀ x, (f x).winds = x.winds) : (s.updHead h f).CoilsOk :=
  C.of_heads rfl (State.updHead_winds (hf _))

/-- FLAW falls on a coiler (R98, R99, R162). -/
theorem State.coilerFlawFall_coilsOk (S : s.StoreOk) (C : s.CoilsOk) (h : HeadIx) (pos : Nat) : (s.coilerFlawFall h pos).CoilsOk := by
  unfold State.coilerFlawFall
  split
  case h_1 pr r b _ hs =>
    obtain ⟨er, hb⟩ := State.sourceOf_find hs
    dsimp only
    generalize flawInterval b.piece.made (s.head h).settings.guardMargin pr pos = i
    have hadded : (if i.1 < i.2 then s.addRopeSpan r.tag (Span.closed i.1 i.2 (KindSet.only .flaw)) else s).CoilsOk := by
      split
      · exact State.addRopeSpan_coilsOk S C er hb _
      · exact C
    refine State.CoilsOk.updHead ?_ fun _ => rfl
    split
    · exact hadded.of_heads rfl fun _ => rfl
    · exact hadded
  case h_2 => exact C

theorem State.flawAtLeaving_coilsOk (S : s.StoreOk) (C : s.CoilsOk) (h : HeadIx) (pos : Nat) : (s.flawAtLeaving h pos).CoilsOk := by
  unfold State.flawAtLeaving
  split
  · exact State.coilerFlawFall_coilsOk S C h pos
  · exact C

end Sys2Proof.Machine
end

section
/-! PROOF. A coil that is wound, and the rope it is wound from (R21, R30, R72, R154, R159, R162). -/

namespace Sys2Proof.Machine

variable {g h k : HeadIx} {s t u : State} {r q x y z : Record} {c : CoilBody} {b : RopeBody} {j n rope tag e actual m : Nat} {cut : Bool}

/-! ## No coil winds at a head -/

/-- No coil in WINDING has its origin at head `h`. -/
structure State.NoWinding (h : HeadIx) (s : State) : Prop where
  none : ∀ n r c, s.find n = some r → r.Winding c → c.origin ≠ h

theorem State.CoilsOk.noWinding (C : s.CoilsOk) (hn : (s.head h).named .segment = none) : s.NoWinding h where
  none n r c e hw ho := by
    have hhead := (C.windsCoil e hw).2.winds
    simp only [Head.winds, Prod.mk.injEq, Option.map_eq_some_iff] at hhead
    obtain ⟨-, g, hg, hcoil, -⟩ := hhead
    rw [ho] at hg
    rw [Head.named, hg, Option.bind_some, hcoil] at hn
    cases hn

theorem State.NoWinding.of_store (N : s.NoWinding h) (e : t.store = s.store) : t.NoWinding h where
  none n r c er hw := N.none n r c ((State.find_of_store e n).symm.trans er) hw

/-- Where no coil winds at a head, the head may come to name anything. -/
theorem State.CoilsOk.updHead_idle {f : Head → Head} (C : s.CoilsOk) (N : s.NoWinding h) : (s.updHead h f).CoilsOk :=
  C.follow (.of_store rfl fun n y c e hw => by rw [State.updHead_head_ne _ f (N.none n y c e hw)])

/-- No other head has the source of head `h`. -/
structure State.SourceApart (h : HeadIx) (s : State) : Prop where
  apart : ∀ g k, g ≠ h → (s.head g).source = some k → (s.head h).source ≠ some k

theorem State.BindingsOk.sourceApart (B : s.BindingsOk) (h : HeadIx) : s.SourceApart h where
  apart g k hg e eh := by
    obtain ⟨x, -, ex, hx, -⟩ := B.named g .source k e
    obtain ⟨y, -, ey, hy, -⟩ := B.named h .source k eh
    cases ex.symm.trans ey
    cases hx.symm.trans hy
    exact hg rfl

theorem State.SourceApart.of_heads (A : s.SourceApart h) (hh : ∀ g, (t.head g).source = (s.head g).source) : t.SourceApart h where
  apart g k hg e := by
    rw [hh] at e ⊢
    exact A.apart g k hg e

/-! ## A rope from which no coil winds -/

/-- From `x` to `y` a record keeps its body where it is a coil, and its spans where it is a settled rope. -/
structure Record.KeepsCoil (x y : Record) : Prop where
  coil : ∀ c, y.body = .coil c → x.body = .coil c ∧ (y.state = .winding → x.state = .winding) ∧ (y.state = .wound → x.state = .wound)
  rope : x.Settled → y.Settled ∧ y.spans = x.spans

theorem Record.KeepsCoil.refl (x : Record) : x.KeepsCoil x := ⟨fun _ hc => ⟨hc, id, id⟩, fun hx => ⟨hx, rfl⟩⟩

theorem State.updRec_follows {f : Record → Record} (hf : ∀ r, (f r).tag = r.tag) (hk : ∀ x, s.find j = some x → x.KeepsCoil (f x))
    (hends : ∀ g, (s.head g).source = some j → (∀ x, s.find j = some x → (f x).restEnd = x.restEnd) ∨ s.NoWinding g) :
    s.CoilsFollow (s.updRec j f) := by
  have hfind (n : Nat) (y : Record) (e : (s.updRec j f).find n = some y) : ∃ x, s.find n = some x ∧ x.KeepsCoil y := by
    by_cases hn : n = j
    · subst hn
      rw [State.find_updRec hf, Option.map_eq_some_iff] at e
      obtain ⟨x, ex, rfl⟩ := e
      exact ⟨x, ex, hk x ex⟩
    · rw [State.find_updRec_ne hf hn] at e
      exact ⟨y, e, .refl y⟩
  refine ⟨fun n y c e hc _ => ?_, fun n y c e hc hb q eq hq => ?_, fun n y c e hw => ⟨rfl, ?_⟩⟩
  · obtain ⟨x, ex, hx⟩ := hfind n y e
    obtain ⟨hxc, hst⟩ := hx.coil c hc
    exact ⟨x, ex, hxc, hst⟩
  · by_cases hn : c.sourceRope = j
    · rw [hn] at eq ⊢
      obtain ⟨hsettled, hspans⟩ := (hk q eq).rope hq
      exact ⟨f q, by rw [State.find_updRec hf, eq, Option.map_some], hsettled, hspans⟩
    · exact ⟨q, (State.find_updRec_ne hf hn).trans eq, hq, rfl⟩
  · rw [State.sourceEnd, State.sourceEnd]
    cases es : (s.head c.origin).source with
    | none => rw [State.updRec_head, es]; rfl
    | some k =>
      rw [State.updRec_head, es, Option.bind_some, Option.bind_some]
      by_cases hn : k = j
      · subst hn
        rw [State.find_updRec hf]
        rcases hends c.origin es with hend | N
        · cases ek : s.find k with
          | none => rfl
          | some x => exact hend x ek
        · obtain ⟨x, ex, hx⟩ := hfind n y e
          obtain ⟨hxc, hst, -⟩ := hx.coil c hw.body
          exact absurd rfl (N.none n x c ex ⟨hxc, hst hw.state⟩)
      · rw [State.find_updRec_ne hf hn]

/-- The source of a head at which no coil winds may be drawn on, or leave IN_USE. -/
theorem State.CoilsOk.updSource {f : Record → Record} (C : s.CoilsOk) (A : s.SourceApart h) (N : s.NoWinding h)
    (hs : (s.head h).source = some j) (hf : ∀ r, (f r).tag = r.tag) (hk : ∀ x, s.find j = some x → x.KeepsCoil (f x)) :
    (s.updRec j f).CoilsOk ∧ (s.updRec j f).NoWinding h := by
  refine ⟨C.follow (State.updRec_follows hf hk fun g hg => .inr ?_), ⟨fun n y c e hw => ?_⟩⟩
  · by_cases hgh : g = h
    · rw [hgh]; exact N
    · exact absurd hs (A.apart g j hgh hg)
  · by_cases hn : n = j
    · subst hn
      rw [State.find_updRec hf, Option.map_eq_some_iff] at e
      obtain ⟨x, ex, rfl⟩ := e
      obtain ⟨hxc, hst, -⟩ := (hk x ex).coil c hw.body
      exact N.none n x c ex ⟨hxc, hst hw.state⟩
    · rw [State.find_updRec_ne hf hn] at e
      exact N.none n y c e hw

theorem Record.onRope_keepsCoil {f : RopeBody → RopeBody} (hf : ∀ b, (f b).piece = b.piece) (x : Record) : x.KeepsCoil (x.onRope f) := by
  unfold Record.onRope
  split
  case h_1 b hb =>
    refine ⟨nofun, fun hx => ⟨⟨rfl, hx.state⟩, ?_⟩⟩
    rw [Record.spans, Record.spans, hb]
    simp only [Body.piece, hf]
  all_goals exact .refl x

/-- A settled rope that enters another settled state. -/
theorem Record.unbindTo_keepsCoil {st : RecordState} (hst : st.settled = true) (hx : x.kind = .rope) (hm : x.state ≠ .making) :
    x.KeepsCoil (x.unbindTo st) := by
  rw [Record.unbindTo_plain hm]
  exact ⟨fun c hc => absurd (hx.symm.trans (Record.kind_coil hc)) nofun, fun h => ⟨⟨h.kind, hst⟩, rfl⟩⟩

/-! ## A coil is wound -/

theorem State.coilOf_of (ex : s.find tag = some x) (hx : x.body = .coil c) : s.coilOf tag = some c := by
  rw [State.coilOf, ex, Option.bind_some, hx]

/-- A rope of which `n` millimetres more have been packed (R159). -/
def Record.packs (n : Nat) (x : Record) : Record := x.onRope fun b => { b with packed := b.packed + n }

@[simp] theorem Record.packs_tag (n : Nat) (x : Record) : (x.packs n).tag = x.tag := Record.onRope_tag ..

/-- The fields of the coil that a wound segment leaves (R159). -/
def State.woundAs (s : State) (rope e actual : Nat) (cut : Bool) (c : CoilBody) : CoilBody :=
  c.wind (e - actual) e cut (s.spansOf rope)

theorem State.windCoil_store (ex : s.find tag = some x) (hx : x.body = .coil c) : (s.windCoil h tag rope e actual cut).store =
    ((s.updRec tag (Record.windTo (s.woundAs rope e actual cut c))).updRec rope (Record.packs actual)).store := by
  rw [State.windCoil, State.coilOf_of ex hx]
  dsimp only
  split <;> rfl

theorem State.windCoil_find_coil (ex : s.find tag = some x) (hx : x.body = .coil c) (hne : tag ≠ rope) :
    (s.windCoil h tag rope e actual cut).find tag = some (x.windTo (s.woundAs rope e actual cut c)) := by
  rw [State.find_of_store (State.windCoil_store ex hx), State.find_updRec_ne (Record.packs_tag actual) hne,
    State.find_updRec (fun _ => Record.windTo_tag ..), ex, Option.map_some]

theorem State.windCoil_find_rope (ex : s.find tag = some x) (hx : x.body = .coil c) (hne : tag ≠ rope) (er : s.find rope = some r) :
    (s.windCoil h tag rope e actual cut).find rope = some (r.packs actual) := by
  rw [State.find_of_store (State.windCoil_store ex hx), State.find_updRec (Record.packs_tag actual),
    State.find_updRec_ne (fun _ => Record.windTo_tag ..) (Ne.symm hne), er, Option.map_some]

theorem State.windCoil_find_other (ex : s.find tag = some x) (hx : x.body = .coil c) (hj : j ≠ tag) (hr : j ≠ rope) :
    (s.windCoil h tag rope e actual cut).find j = s.find j := by
  rw [State.find_of_store (State.windCoil_store ex hx), State.find_updRec_ne (Record.packs_tag actual) hr,
    State.find_updRec_ne (fun _ => Record.windTo_tag ..) hj]

theorem Record.windTo_body (w : CoilBody) (x : Record) : (x.windTo w).body = .coil w := rfl

theorem Record.windTo_state (w : CoilBody) (x : Record) : (x.windTo w).state = .wound := rfl

/-- A coil in WINDING that becomes WOUND over a range that ends where it was planned to (R21, R159, R162). -/
theorem State.windTo_coilsOk {w : CoilBody} (C : s.CoilsOk) (ex : s.find tag = some x) (hw : x.Winding c) (hrope : w.sourceRope = c.sourceRope)
    (hclear : w.grade = .first → meetsList w.lo w.hi (s.spansOf c.sourceRope) = false) :
    (s.updRec tag (Record.windTo w)).CoilsOk ∧ (s.updRec tag (Record.windTo w)).NoWinding c.origin := by
  obtain ⟨hbel, hwinds⟩ := C.windsCoil ex hw
  have hsame : (s.updRec tag (Record.windTo w)).find tag = some (x.windTo w) := by
    rw [State.find_updRec (fun _ => Record.windTo_tag ..), ex, Option.map_some]
  have hother (k : Nat) (hk : k ≠ tag) : (s.updRec tag (Record.windTo w)).find k = s.find k :=
    State.find_updRec_ne (fun _ => Record.windTo_tag ..) hk
  have hplain (k : Nat) (q : Record) (e : s.find k = some q) (hq : q.Settled) : (s.updRec tag (Record.windTo w)).find k = some q := by
    refine (hother k fun hk => ?_).trans e
    rw [hk, ex] at e
    cases e
    have := hq.kind
    rw [Record.kind_coil hw.body] at this
    cases this
  have hspans (k : Nat) (q : Record) (e : s.find k = some q) (hq : q.Settled) :
      (s.updRec tag (Record.windTo w)).spansOf k = s.spansOf k := by
    rw [State.spansOf, State.spansOf, hplain k q e hq, e]
  have hends (k : Nat) : ((s.updRec tag (Record.windTo w)).find k).bind Record.restEnd = (s.find k).bind Record.restEnd := by
    by_cases hk : k = tag
    · rw [hk, hsame, ex, Option.bind_some, Option.bind_some, Record.restEnd, Record.restEnd, Record.windTo_body, hw.body]
    · rw [hother k hk]
  obtain ⟨q0, eq0, hq0⟩ := C.rope ex hw.body hbel
  refine ⟨.of_parts (fun n y d e hd hb => ?_) (fun n y d e hy => ?_) (fun n y d e hd hb hst hg => ?_), ⟨fun n y d e hy ho => ?_⟩⟩
  · by_cases hn : n = tag
    · rw [hn, hsame] at e
      cases e
      cases hd
      exact ⟨q0, by rw [hrope]; exact hplain _ q0 eq0 hq0, hq0⟩
    · obtain ⟨q, eq, hq⟩ := C.rope ((hother n hn).symm.trans e) hd hb
      exact ⟨q, hplain _ q eq hq, hq⟩
  · have hn : n ≠ tag := fun hn => by
      rw [hn, hsame] at e
      cases e
      cases hy.state
    obtain ⟨hb, hold⟩ := C.windsCoil ((hother n hn).symm.trans e) hy
    refine ⟨hb, hold.winds, ?_⟩
    rw [State.sourceEnd_congr (t := s.updRec tag (Record.windTo w)) (s := s) rfl fun k _ => hends k]
    exact hold.ends
  · by_cases hn : n = tag
    · rw [hn, hsame] at e
      cases e
      cases hd
      rw [hrope, hspans _ q0 eq0 hq0]
      exact hclear hg
    · have es := (hother n hn).symm.trans e
      obtain ⟨q, eq, hq⟩ := C.rope es hd hb
      rw [hspans _ q eq hq]
      exact C.clear n y d es hd hb hst hg
  · have hn : n ≠ tag := fun hn => by
      rw [hn, hsame] at e
      cases e
      cases hy.state
    obtain ⟨-, hold⟩ := C.windsCoil ((hother n hn).symm.trans e) hy
    have htwo := hold.winds
    rw [ho, hwinds.winds] at htwo
    simp only [Prod.mk.injEq, Option.some.injEq] at htwo
    exact hn htwo.2.1.symm

/-- The segment's coil is wound: the law stands, and no coil winds at the head. -/
theorem State.windCoil_coilsOk (C : s.CoilsOk) (A : s.SourceApart h) (ex : s.find tag = some x) (hw : x.Winding c) (ho : c.origin = h)
    (hs : (s.head h).source = some rope) (e actual : Nat) (cut : Bool) :
    (s.windCoil h tag rope e actual cut).CoilsOk ∧ (s.windCoil h tag rope e actual cut).NoWinding h := by
  have hrope : c.sourceRope = rope := by
    have := congrArg Prod.fst (C.windsCoil ex hw).2.winds
    rw [ho, Head.winds, hs] at this
    exact (Option.some.inj this).symm
  obtain ⟨C1, N1⟩ := State.windTo_coilsOk (w := s.woundAs rope e actual cut c) C ex hw rfl fun hg => by
    rw [hrope]
    by_contra hmeets
    rw [Bool.not_eq_false] at hmeets
    have : (s.woundAs rope e actual cut c).grade = .second := if_pos hmeets
    rw [this] at hg
    cases hg
  rw [ho] at N1
  obtain ⟨C2, N2⟩ := C1.updSource (A.of_heads fun _ => rfl) N1 hs (Record.packs_tag actual) fun x _ =>
    Record.onRope_keepsCoil (f := fun b => { b with packed := b.packed + actual }) (fun _ => rfl) x
  have hstore := State.windCoil_store (h := h) (rope := rope) (e := e) (actual := actual) (cut := cut) ex hw.body
  refine ⟨C2.of_heads hstore fun g => ?_, N2.of_store hstore⟩
  rw [State.windCoil_head]
  rfl

/-- Length that goes to waste at a head where no coil winds (R154, R159, R72). -/
theorem State.addWaste_coilsOk (C : s.CoilsOk) (A : s.SourceApart h) (N : s.NoWinding h) (hs : (s.head h).source = some rope) (n : Nat) :
    (s.addWaste rope n).CoilsOk ∧ (s.addWaste rope n).NoWinding h :=
  C.updSource A N hs (fun _ => Record.onRope_tag ..) fun x _ =>
    Record.onRope_keepsCoil (f := fun b => { b with waste := b.waste + n }) (fun _ => rfl) x

end Sys2Proof.Machine
end

section
/-! PROOF. The coils of every rope when a coiler's segment ends, or its rope is given up (R30, R70, R72, R159, R162). -/

namespace Sys2Proof.Machine

variable {g h k : HeadIx} {s t u : State} {r q x y z : Record} {c : CoilBody} {b : RopeBody} {j n rope tag e actual m : Nat}

/-! ## What a coiler's head names -/

/-- The coil of a segment is in WINDING, with its origin at the segment's head. -/
theorem State.CoilsOk.segment (C : s.CoilsOk) (B : s.BindingsOk) (hn : (s.head h).named .segment = some tag) :
    ∃ x c, s.find tag = some x ∧ x.Winding c ∧ c.origin = h := by
  obtain ⟨x, kd, ex, hb, -, hbinds, -⟩ := B.named h .segment tag hn
  obtain ⟨c, hc⟩ := Record.body_of_coil (of_decide_eq_true (Bool.and_eq_true_iff.mp hbinds).2)
  have hw : x.Winding c := ⟨hc, (B.tied tag x ex).held h .segment hb⟩
  have horigin := C.origin B ex hw
  rw [hb] at horigin
  exact ⟨x, c, ex, hw, (Prod.mk.inj (Option.some.inj horigin)).1.symm⟩

/-- The source of a coiler is a rope IN_USE. -/
theorem State.BindingsOk.source (B : s.BindingsOk) (hs : s.sourceOf h = some (r, b)) : r.Settled := by
  obtain ⟨hsource, er⟩ := State.sourceOf_source hs
  obtain ⟨-, hb⟩ := State.sourceOf_find hs
  obtain ⟨y, -, ey, hbound, -⟩ := B.named h .source r.tag hsource
  cases er.symm.trans ey
  refine ⟨by rw [Record.kind, hb]; rfl, ?_⟩
  rw [(B.tied r.tag r er).held h .source hbound]
  rfl

theorem State.CoilsOk.noWinding_of_source (C : s.CoilsOk) (hs : s.sourceOf h = none) : s.NoWinding h where
  none n r c e hw ho := by
    have hend := (C.windsCoil e hw).2.ends
    rw [ho, ← State.sourceOf_end, hs] at hend
    cases hend

/-- A rope that is unbound into a settled state. -/
theorem Record.unbindTo_keepsRope {st : RecordState} (hst : st.settled = true) (hb : x.body = .rope b) : x.KeepsCoil (x.unbindTo st) := by
  have hk : x.kind = .rope := by rw [Record.kind, hb]; rfl
  by_cases hm : x.state = .making
  · refine ⟨fun c hc => ?_, fun hx => ?_⟩
    · rw [← Record.coilBody_iff, Record.unbindTo_coilBody, Record.coilBody_iff, hb] at hc
      cases hc
    · have := hx.state
      rw [hm] at this
      cases this
  · exact Record.unbindTo_keepsCoil hst hk hm

/-! ## The law at a head at which no coil winds -/

/-- The law of the coils stands, and no coil winds at head `h`. -/
structure State.Unwinding (h : HeadIx) (s : State) : Prop where
  coils : s.CoilsOk
  none : s.NoWinding h

theorem State.Unwinding.updHead {f : Head → Head} (U : s.Unwinding h) : (s.updHead h f).Unwinding h :=
  ⟨U.coils.updHead_idle U.none, U.none.of_store rfl⟩

theorem State.Unwinding.raise {f : HeadFlag} (U : s.Unwinding h) : (s.raise g f).Unwinding h :=
  ⟨U.coils.of_heads rfl fun _ => rfl, U.none.of_store rfl⟩

theorem State.Unwinding.of_and (U : s.CoilsOk ∧ s.NoWinding h) : s.Unwinding h := ⟨U.1, U.2⟩

theorem State.Unwinding.addWaste (U : s.Unwinding h) (A : s.SourceApart h) (hs : (s.head h).source = some rope) (n : Nat) :
    (s.addWaste rope n).Unwinding h := .of_and (State.addWaste_coilsOk U.coils A U.none hs n)

/-- The source of the head leaves IN_USE. -/
theorem State.Unwinding.unbindSource {st : RecordState} (U : s.Unwinding h) (A : s.SourceApart h) (hs : (s.head h).source = some j)
    (hr : s.find j = some r) (hb : r.body = .rope b) (hst : st.settled = true) : (s.updRec j fun y => y.unbindTo st).Unwinding h := by
  refine .of_and (U.coils.updSource A U.none hs (Record.unbindTo_tag st) fun x ex => ?_)
  cases hr.symm.trans ex
  exact Record.unbindTo_keepsRope hst hb

/-! ## The segment ends -/

/-- The coil of the segment is wound. -/
theorem State.CoilsOk.windSegment {cut : Bool} (C : s.CoilsOk) (B : s.BindingsOk) (hn : (s.head h).named .segment = some tag)
    (hs : (s.head h).source = some rope) (e actual : Nat) : (s.windCoil h tag rope e actual cut).Unwinding h := by
  obtain ⟨x, c, ex, hw, ho⟩ := C.segment B hn
  exact .of_and (State.windCoil_coilsOk C (B.sourceApart h) ex hw ho hs e actual cut)

theorem State.completeSegment_coilsOk (C : s.CoilsOk) (B : s.BindingsOk) (h : HeadIx) : (s.completeSegment h).Unwinding h := by
  unfold State.completeSegment
  split
  case h_1 g r b hg hs =>
    obtain ⟨hsource, -⟩ := State.sourceOf_source hs
    dsimp only
    refine State.Unwinding.updHead (State.Unwinding.raise ?_)
    split
    case h_1 tag hcoil =>
      have U := C.windSegment (cut := false) B (tag := tag) (by rw [Head.named, hg]; exact hcoil) hsource b.currentEnd (min g.unwound b.currentEnd)
      split
      · exact U.updHead
      · exact U
    case h_2 hcoil =>
      exact State.Unwinding.addWaste ⟨C, C.noWinding (by rw [Head.named, hg]; exact hcoil)⟩ (B.sourceApart h) hsource _
  case h_2 hno =>
    refine ⟨C, ?_⟩
    cases hg : (s.head h).segment with
    | none => exact C.noWinding (by rw [Head.named, hg]; rfl)
    | some g =>
      cases hs : s.sourceOf h with
      | none => exact C.noWinding_of_source hs
      | some p => exact absurd hs (hno g p.1 p.2 hg)

theorem State.cutShort_coilsOk (C : s.CoilsOk) (B : s.BindingsOk) (hs : (s.head h).source = some rope) (e : Nat) :
    (s.cutShort h rope e).Unwinding h := by
  unfold State.cutShort
  split
  case h_1 g hg =>
    refine State.Unwinding.raise ?_
    split
    case h_1 tag hcoil => exact C.windSegment B (by rw [Head.named, hg]; exact hcoil) hs _ _
    case h_2 hcoil => exact State.Unwinding.addWaste ⟨C, C.noWinding (by rw [Head.named, hg]; exact hcoil)⟩ (B.sourceApart h) hs _
  case h_2 hg =>
    have U : (s.addWaste rope (min (s.head h).unplanned e)).Unwinding h :=
      State.Unwinding.addWaste ⟨C, C.noWinding (by rw [Head.named, hg]; rfl)⟩ (B.sourceApart h) hs _
    split
    · exact U.raise
    · exact U

theorem State.giveUpRope_coilsOk (U : s.Unwinding h) (A : s.SourceApart h) : (s.giveUpRope h).Unwinding h := by
  unfold State.giveUpRope
  split
  case h_1 => exact U
  case h_2 r b hs =>
    obtain ⟨hsource, er⟩ := State.sourceOf_source hs
    obtain ⟨-, hb⟩ := State.sourceOf_find hs
    split
    · exact (U.unbindSource A hsource er hb rfl).raise
    · exact U.unbindSource A hsource er hb rfl

theorem State.endSegment_coilsOk (S : s.StoreOk) (C : s.CoilsOk) (B : s.BindingsOk) (h : HeadIx) : (s.endSegment h).Unwinding h := by
  unfold State.endSegment
  have CF := State.flawAtLeaving_coilsOk S C h (s.unwindPosition h)
  have BF : (s.flawAtLeaving h (s.unwindPosition h)).BindingsOk := (State.flawAtLeaving_boundBut (B.but h)).ok
  dsimp only
  split
  case h_1 hs => exact ⟨CF, CF.noWinding_of_source hs⟩
  case h_2 r b hs =>
    obtain ⟨hsource, -⟩ := State.sourceOf_source hs
    refine State.giveUpRope_coilsOk (State.cutShort_coilsOk CF BF hsource _) ((BF.sourceApart h).of_heads fun g => ?_)
    rw [State.cutShort_head]

/-! ## A binding undone -/

theorem Record.afterLeaving_state (r x : Record) : (r.afterLeaving x).state = x.state := by
  unfold Record.afterLeaving Record.onCoil
  split
  · split <;> rfl
  · rfl

theorem Record.afterLeaving_plain (r : Record) (hx : x.kind ≠ .coil) : r.afterLeaving x = x := by
  unfold Record.afterLeaving Record.onCoil
  split
  · split
    · next c hc => exact absurd (Record.kind_coil hc) hx
    all_goals rfl
  · rfl

/-- A coil of which the rope stays, or which still belongs to its rope, stands as it was. -/
theorem Record.afterLeaving_coil (hc : (r.afterLeaving x).body = .coil c)
    (hb : c.belongs = true ∨ (r.kind = .rope → c.sourceRope ≠ r.tag)) : x.body = .coil c := by
  by_cases hx : x.kind = .coil
  · obtain ⟨c0, hc0⟩ := Record.body_of_coil hx
    unfold Record.afterLeaving Record.onCoil CoilBody.disown at hc
    rw [hc0] at hc
    by_cases hk : r.kind = .rope
    · rw [if_pos hk] at hc
      by_cases hr : c0.sourceRope = r.tag
      · simp only [hr, if_true, Body.coil.injEq] at hc
        rcases hb with hb | hb
        · rw [← hc] at hb
          cases hb
        · exact absurd (congrArg CoilBody.sourceRope hc.symm) (hb hk)
      · simp only [hr, if_false, Body.coil.injEq] at hc
        rw [hc0, hc]
    · rw [if_neg hk] at hc
      rw [hc0, ← hc, hc0]
  · rw [Record.afterLeaving_plain r hx] at hc
    exact hc

/-- A record that no head has as SOURCE leaves the store (R5, R16, R53). -/
theorem State.CoilsOk.leave (C : s.CoilsOk) (er : s.find r.tag = some r) (hno : r.kind = .rope → ∀ g, (s.head g).source ≠ some r.tag) :
    (s.leave r.tag).CoilsOk := by
  have hhead (g : HeadIx) : ((s.leave r.tag).head g).winds = (s.head g).winds := by
    rw [State.leave_head er]
    rfl
  have hfind (n : Nat) (y : Record) (e : (s.leave r.tag).find n = some y) : ∃ x, s.find n = some x ∧ r.afterLeaving x = y := by
    by_cases hn : n = r.tag
    · rw [hn, State.leave_find er] at e
      cases e
    · rw [State.leave_find_ne er hn, Option.map_eq_some_iff] at e
      exact e
  have hrope (n : Nat) (q : Record) (hn : n ≠ r.tag) (e : s.find n = some q) (hq : q.Settled) : (s.leave r.tag).find n = some q := by
    rw [State.leave_find_ne er hn, e, Option.map_some, Record.afterLeaving_plain r (by rw [hq.kind]; nofun)]
  have hstays (n : Nat) (x : Record) (c : CoilBody) (ex : s.find n = some x) (hc : x.body = .coil c) (hb : c.belongs = true)
      (hr : r.kind = .rope → c.sourceRope ≠ r.tag) : c.sourceRope ≠ r.tag := fun h => by
    obtain ⟨q, eq, hq⟩ := C.rope ex hc hb
    rw [h, er] at eq
    cases eq
    exact hr hq.kind h
  have hwinding (n : Nat) (y : Record) (c : CoilBody) (e : (s.leave r.tag).find n = some y) (hw : y.Winding c) :
      ∃ x, s.find n = some x ∧ x.Winding c ∧ c.sourceRope ≠ r.tag := by
    obtain ⟨x, ex, rfl⟩ := hfind n y e
    have hst := hw.state
    rw [Record.afterLeaving_state] at hst
    have hx : x.kind = .coil := by
      by_contra hx
      have hb := hw.body
      rw [Record.afterLeaving_plain r hx] at hb
      exact hx (Record.kind_coil hb)
    obtain ⟨c0, hc0⟩ := Record.body_of_coil hx
    obtain ⟨hbelongs, hwinds⟩ := C.windsCoil ex ⟨hc0, hst⟩
    have hsource := congrArg Prod.fst hwinds.winds
    simp only [Head.winds] at hsource
    have hapart := hstays n x c0 ex hc0 hbelongs fun hk h => hno hk c0.origin (h ▸ hsource)
    have hcoil : (r.afterLeaving x).body = .coil c0 := by
      unfold Record.afterLeaving Record.onCoil CoilBody.disown
      rw [hc0]
      split
      · simp only [if_neg hapart]
      · exact hc0
    cases hcoil.symm.trans hw.body
    exact ⟨x, ex, ⟨hc0, hst⟩, hapart⟩
  refine C.follow ⟨fun n y c e hc hb => ?_, fun n y c e hc hb q eq hq => ?_, fun n y c e hw => ⟨hhead _, ?_⟩⟩
  · rcases hb with hb | hst
    · obtain ⟨x, ex, rfl⟩ := hfind n y e
      rw [Record.afterLeaving_state]
      exact ⟨x, ex, Record.afterLeaving_coil hc (.inl hb), id, id⟩
    · obtain ⟨x, ex, hx, -⟩ := hwinding n y c e ⟨hc, hst⟩
      refine ⟨x, ex, hx.body, fun _ => hx.state, fun h => ?_⟩
      rw [h] at hst
      cases hst
  · refine ⟨q, hrope _ q (fun hk => ?_) eq hq, hq, rfl⟩
    obtain ⟨x, ex, rfl⟩ := hfind n y e
    rw [hk, er] at eq
    cases eq
    have hx := Record.afterLeaving_coil hc (.inl hb)
    unfold Record.afterLeaving Record.onCoil CoilBody.disown at hc
    rw [if_pos hq.kind, hx] at hc
    simp only [hk, if_true, Body.coil.injEq] at hc
    rw [← hc] at hb
    cases hb
  · obtain ⟨x, ex, hx, hapart⟩ := hwinding n y c e hw
    obtain ⟨hbelongs, hwinds⟩ := C.windsCoil ex hx
    obtain ⟨q, eq, hq⟩ := C.rope ex hx.body hbelongs
    have hs := congrArg Prod.fst hwinds.winds
    have ht := (congrArg Prod.fst (hhead c.origin)).trans hs
    simp only [Head.winds] at hs ht
    rw [State.sourceEnd, State.sourceEnd, hs, ht, Option.bind_some, Option.bind_some, eq, hrope _ q hapart eq hq]

end Sys2Proof.Machine
end

section
/-! PROOF. The coils of every rope when a coiler's binding ends: RELEASE, disconnect, a new machine (R30, R70 to R76, R161). -/

namespace Sys2Proof.Machine

variable {g h k : HeadIx} {s t u : State} {r q x y z : Record} {c : CoilBody} {b : RopeBody} {j n rope tag e actual m : Nat}

theorem Record.unbindTo_restEnd {st : RecordState} (hm : r.state ≠ .making) : (r.unbindTo st).restEnd = r.restEnd := by
  rw [Record.unbindTo_plain hm]
  rfl

/-- The source of a coiler leaves IN_USE, while its segment is still there. -/
theorem State.CoilsOk.unbindSource {st : RecordState} (C : s.CoilsOk) (B : s.BindingsOk) (hs : s.sourceOf h = some (r, b))
    (hst : st.settled = true) : (s.updRec r.tag fun y => y.unbindTo st).CoilsOk := by
  obtain ⟨er, hb⟩ := State.sourceOf_find hs
  have hm : r.state ≠ .making := fun hm => by
    have := (B.source hs).state
    rw [hm] at this
    cases this
  refine C.follow (State.updRec_follows (Record.unbindTo_tag st) (fun x ex => ?_) fun g _ => .inl fun x ex => ?_)
  · cases er.symm.trans ex
    exact Record.unbindTo_keepsRope hst hb
  · cases er.symm.trans ex
    exact Record.unbindTo_restEnd hm

theorem State.BindingsOk.sourceOf (B : s.BindingsOk) (hs : (s.head h).source = some tag) : ∃ r b, s.sourceOf h = some (r, b) ∧ r.tag = tag := by
  obtain ⟨r, b, hr, htag, -⟩ := (B.but h).sourceOf (h := h) hs fun x => x.2
  exact ⟨r, b, hr, htag⟩

/-- RELEASE or disconnect of a coiler in READY (R70). -/
theorem State.undoBinding_coilsOk (C : s.CoilsOk) (B : s.BindingsOk) (hs : (s.head h).source = some tag) : (s.undoBinding h).Unwinding h := by
  obtain ⟨r, b, hr, rfl⟩ := B.sourceOf hs
  obtain ⟨er, hb⟩ := State.sourceOf_find hr
  have C1 := C.unbindSource B hr (st := .made) rfl
  unfold State.undoBinding
  rw [hs]
  dsimp only
  generalize hw : (s.updRec r.tag fun y => y.unbindTo .made) = w at C1 ⊢
  have hhead (g : HeadIx) : w.head g = s.head g := by rw [← hw]; rfl
  have hfind (n : Nat) (hn : n ≠ r.tag) : w.find n = s.find n := by rw [← hw, State.find_updRec_ne (Record.unbindTo_tag _) hn]
  split
  case h_1 m hm =>
    obtain ⟨x, c, ex, hx, ho⟩ := C.segment B (h := h) (tag := m) hm
    have hne : m ≠ r.tag := fun hm => by
      rw [hm, er] at ex
      cases ex
      cases hb.symm.trans hx.body
    obtain ⟨-, rfl⟩ := State.find_mem ex
    have ew : w.find x.tag = some x := (hfind _ hne).trans ex
    refine ⟨C1.leave ew fun hk => ?_, ⟨fun n y d e hy hd => ?_⟩⟩
    · rw [Record.kind_coil hx.body] at hk
      cases hk
    · have C2 := C1.leave ew fun hk => by
        rw [Record.kind_coil hx.body] at hk
        cases hk
      have hwinds := (C2.windsCoil e hy).2.winds
      rw [hd, State.leave_head ew, hhead, Head.winds, Prod.mk.injEq] at hwinds
      obtain ⟨sg, hsg, hcoil⟩ := Option.bind_eq_some_iff.mp hm
      simp only [hsg, Option.map_some, Option.some.injEq, Prod.mk.injEq] at hwinds
      obtain ⟨-, hn, -⟩ := hwinds
      cases hcoil.symm.trans hn
      rw [State.leave_find ew] at e
      cases e
  case h_2 hm => exact ⟨C1, C1.noWinding (by rw [hhead]; exact hm)⟩

theorem State.endMaking_unmade (hp : (s.head h).product = none) (f : Record → Record) : s.endMaking h f = s := by
  rw [State.endMaking, State.productOf, hp]
  rfl

/-- What the end of a binding does to the records of a coiler (R70 to R75). -/
theorem State.settleRecords_coilsOk (S : s.StoreOk) (C : s.CoilsOk) (B : s.BindingsOk) (hk : (s.head h).kind = some .coiler)
    (f : Record → Record) : (s.settleRecords h f).Unwinding h := by
  have hquiet (hst : (s.head h).state.takesFeeds = false) : s.Unwinding h := by
    refine ⟨C, C.noWinding (Option.eq_none_iff_forall_not_mem.mpr fun n hn => ?_)⟩
    obtain ⟨-, -, -, -, -, -, hfeeds⟩ := B.named h .segment n hn
    rw [hst] at hfeeds
    cases hfeeds
  have hrun : (s.endRunning h f).Unwinding h := by
    rw [State.endRunning, hk]
    exact State.endSegment_coilsOk S C B h
  unfold State.settleRecords
  cases hst : (s.head h).state
  case ready =>
    cases hs : (s.head h).source with
    | none =>
      have hp := (B.but h).product_none hk
      rw [State.undoBinding, hs]
      dsimp only
      rw [State.endMaking_unmade hp]
      exact ⟨C, C.noWinding_of_source (State.sourceOf_eq_source s h hs)⟩
    | some tag => exact State.undoBinding_coilsOk C B hs
  case run => exact hrun
  case stopped => exact hrun
  case held => exact hrun
  case cutting => exact hrun
  case empty => exact hquiet (by rw [hst]; rfl)
  case idle => exact hquiet (by rw [hst]; rfl)
  case done => exact hquiet (by rw [hst]; rfl)

theorem State.releaseHead_coilsOk (S : s.StoreOk) (C : s.CoilsOk) (B : s.BindingsOk) (hk : (s.head h).kind = some .coiler) :
    (s.releaseHead h).CoilsOk := (State.settleRecords_coilsOk S C B hk _).updHead.coils

theorem State.disconnect_coilsOk (S : s.StoreOk) (C : s.CoilsOk) (B : s.BindingsOk) (hk : (s.head h).kind = some .coiler) :
    (s.disconnect h).Unwinding h := (State.settleRecords_coilsOk S C B hk _).updHead

/-- A new machine at a coiler's head (R55, R74). -/
theorem State.senseSettled_coilsOk (S : s.StoreOk) (C : s.CoilsOk) (B : s.BindingsOk) (hk : (s.head h).kind = some .coiler) :
    (s.senseSettled h).CoilsOk := by
  unfold State.senseSettled
  dsimp only
  rw [hk]
  split
  · exact (State.disconnect_coilsOk S C B hk).updHead.raise.coils
  · exact C

end Sys2Proof.Machine
end

section
/-! PROOF. What a plan point does, part by part (R152 to R157): its opening, the coil it creates, the wait, and the segment made. -/

namespace Sys2Proof.Machine

variable {g h k : HeadIx} {s t u : State} {r q x y z : Record} {c : CoilBody} {b : RopeBody} {j n rope tag e len serial m : Nat}
  {grade : Grade} {short : Bool} {a : HoldReason} {v : Head}

/-! ## The coil created -/

/-- The fields of a coil planned at head `h` over the top `len` of a rope whose current end is `e` (R156). -/
def plannedCoil (h : HeadIx) (rope e len : Nat) (grade : Grade) (short : Bool) : CoilBody where
  sourceRope := rope
  origin := h
  lo := e - len
  hi := e
  planned := len
  grade := grade
  short := short
  bandTime := none
  belongs := true

/-- The record of a coil created as the segment of head `h` (R4, R8, R10). -/
def createdCoil (h : HeadIx) (tag : Nat) (now : Seconds) (c : CoilBody) : Record :=
  { Record.fresh tag .winding now (.coil c) with bound := some (h, .segment) }

theorem createdCoil_winding (now : Seconds) : (createdCoil h tag now c).Winding c := ⟨rfl, rfl⟩

/-- What was raised stays raised. -/
structure State.KeepsNotices (s t : State) : Prop where
  flags : ∀ k, s.attn.flag k = true → t.attn.flag k = true
  causes : ∀ k x, (s.attn.causesOf k).has x = true → (t.attn.causesOf k).has x = true

theorem State.KeepsNotices.refl (s : State) : s.KeepsNotices s := ⟨fun _ => id, fun _ _ => id⟩

theorem State.KeepsNotices.trans (H : s.KeepsNotices t) (I : t.KeepsNotices u) : s.KeepsNotices u :=
  ⟨fun k hk => I.flags k (H.flags k hk), fun k x hx => I.causes k x (H.causes k x hx)⟩

theorem State.KeepsNotices.of_attn (e : t.attn = s.attn) : s.KeepsNotices t := ⟨fun k hk => by rw [e]; exact hk, fun k x hx => by rw [e]; exact hx⟩

theorem State.Carries.notices (H : s.Carries h t) : s.KeepsNotices t := ⟨H.flags, H.causes⟩

theorem State.raise_notices (s : State) (h : HeadIx) (f : HeadFlag) : s.KeepsNotices (s.raise h f) :=
  (State.raise_carries (State.Carries.refl h s)).notices

theorem State.raiseAlarm_notices (s : State) (h : HeadIx) (x : Alarm) : s.KeepsNotices (s.raiseAlarm h x) :=
  (State.raiseAlarm_carries (State.Carries.refl h s)).notices

theorem State.enter_notices (s : State) (r : Record) : s.KeepsNotices (s.enter r) := by
  have hattn := State.enter_attn s r
  split at hattn
  · exact (State.raiseStore_carries (State.Carries.refl 0 s)).notices.trans (.of_attn hattn)
  · exact .of_attn hattn

/-- From `s` to `t` a coil with the fields `c` and the tag of the serial `n` is created as the segment of head `h`. -/
structure State.CreatesCoil (h : HeadIx) (c : CoilBody) (n : Nat) (s t : State) : Prop where
  serial : findSerial s.live s.coilPrefix storeCap s.coilSerial = some n
  find : ∀ j, t.find j = if j = coilTag s.coilPrefix n then
    some (createdCoil h (coilTag s.coilPrefix n) s.clock.seconds c) else s.find j
  same : t.head h = { s.head h with segment := some ⟨some (coilTag s.coilPrefix n), c.planned, c.lo, 0, true⟩ }
  others : ∀ g, g ≠ h → t.head g = s.head g
  next : t.coilSerial = nextSerial n
  length : t.store.length = s.store.length + 1
  notices : s.KeepsNotices t
  store240 : s.store.length = 239 → t.attn.flag 65 = true ∧ t.attn.storeCauses.store240 = true
  clock : t.clock = s.clock

theorem State.enter_store240 (r : Record) (hs : s.store.length = 239) :
    (s.enter r).attn.flag 65 = true ∧ (s.enter r).attn.storeCauses.store240 = true := by
  rw [State.enter_attn, if_pos hs]
  exact ⟨State.raiseStore_flag .., rfl⟩

theorem State.createCoil_creates (hc : s.createCoil h rope e len grade short = some t) :
    s.store.length < storeCap ∧ ∃ serial, s.CreatesCoil h (plannedCoil h rope e len grade short) serial t := by
  unfold State.createCoil at hc
  split at hc
  · cases hc
  next hroom =>
    obtain ⟨serial, hserial, rfl⟩ := Option.map_eq_some_iff.mp hc
    refine ⟨Nat.lt_of_not_le hroom, serial, ?_⟩
    have hl := findSerial_live hserial
    dsimp only
    change s.CreatesCoil h _ serial ((State.enter (createdCoil h (coilTag s.coilPrefix serial) s.clock.seconds
      (plannedCoil h rope e len grade short)) { s with coilSerial := nextSerial serial }).updHead h _)
    generalize hr : createdCoil h (coilTag s.coilPrefix serial) s.clock.seconds (plannedCoil h rope e len grade short) = r
    have htag : r.tag = coilTag s.coilPrefix serial := by rw [← hr]; rfl
    generalize hw : ({ s with coilSerial := nextSerial serial } : State) = w
    have hhead (g : HeadIx) : w.head g = s.head g := by rw [← hw]; rfl
    have hfind (j : Nat) : w.find j = s.find j := by rw [← hw]; rfl
    have hlive : w.live r.tag = false := by rw [htag, ← hw]; exact hl
    have hstore : w.store = s.store := by rw [← hw]
    obtain ⟨hc, -, -, -, hs⟩ := State.enter_rest w r
    refine ⟨hserial, fun j => ?_, ?_, fun g hg => ?_, ?_, ?_, ?_, fun h239 => ?_, ?_⟩
    · exact (State.enter_find hlive j).trans (by rw [htag, hr, hfind])
    · rw [State.updHead_head, State.head, State.enter_heads, ← State.head, hhead]
      rfl
    · rw [State.updHead_head_ne _ _ hg, State.head, State.enter_heads, ← State.head, hhead]
    · exact hs.trans (by rw [← hw])
    · exact (congrArg List.length (State.enter_store w r)).trans (by rw [insertRecord_length, hstore])
    · exact (State.KeepsNotices.of_attn (by rw [← hw])).trans ((State.enter_notices w r).trans (.of_attn rfl))
    · exact State.enter_store240 r (by rw [hstore]; exact h239)
    · exact hc.trans (by rw [← hw])

theorem State.createCoil_full (hroom : storeCap ≤ s.store.length) : s.createCoil h rope e len grade short = none := if_pos hroom

/-! ## The wait and the segment made -/

/-- The holds of a plan point that waits for `a`, or for nothing (R157). -/
def HoldSet.waiting (x : HoldSet) (a : Option HoldReason) : HoldSet :=
  ⟨x.feedShort, decide (a = some .queueEmpty), decide (a = some .storeFull)⟩

/-- Head `h` after a plan point that waits for `a` (R57, R157). -/
def State.waiter (s : State) (h : HeadIx) (a : HoldReason) : Head :=
  { s.head h with
    holds := (s.head h).holds.waiting (some a)
    state := if (s.head h).state = .ready ∨ (s.head h).state = .cutting then .held else (s.head h).state
    window := if (s.head h).state = .ready ∨ (s.head h).state = .cutting then none else (s.head h).window
    flawRise := if (s.head h).state = .ready ∧ (s.head h).flawHigh = true then some (s.unwindPosition h) else (s.head h).flawRise }

/-- A plan point that waits for `a` (R157). -/
structure State.PlanWaits (h : HeadIx) (a : HoldReason) (s t : State) : Prop where
  store : t.store = s.store
  same : t.head h = s.waiter h a
  others : ∀ g, g ≠ h → t.head g = s.head g
  serial : t.coilSerial = s.coilSerial
  notices : s.KeepsNotices t
  clock : t.clock = s.clock
  held : (s.head h).state = .ready ∨ (s.head h).state = .cutting → t.flagged h .state = true

/-- The holds of a plan point that waits, as the model puts them. -/
theorem HoldSet.put_waiting (x : HoldSet) (a : HoldReason) :
    (x.put (decide (a = .queueEmpty)) .queueEmpty).put (decide (a = .storeFull)) .storeFull = x.waiting (some a) := by
  cases a <;> rfl

theorem State.flawRises_coiler (hk : (s.head h).kind = some .coiler) :
    s.flawRises h = s.updHead h fun x => { x with flawRise := some (s.unwindPosition h) } := by
  rw [State.flawRises, hk]

/-- Head `x` of a coiler that has entered HELD, at unwind position `pos` (R57, R61, R104). -/
def Head.heldAt (pos : Nat) (x : Head) : Head :=
  { x with
    state := .held
    window := none
    flawRise := if x.state = .ready ∧ x.flawHigh = true then some pos else x.flawRise }

/-- A coiler enters HELD. -/
theorem State.enterHeld_coiler (hk : (s.head h).kind = some .coiler) :
    s.enterHeld h = (s.raise h .state).updHead h (Head.heldAt (s.unwindPosition h)) := by
  generalize hu : (s.updHead h fun x => { x with state := .held, window := none }).raise h .state = u
  have hhead : u.head h = { s.head h with state := .held, window := none } := by
    rw [← hu, State.raise_head, State.updHead_head]
  have hpos : u.unwindPosition h = s.unwindPosition h := by
    have hreach : (u.head h).reach = (s.head h).reach := by rw [hhead]; rfl
    exact State.unwindPosition_congr hreach (State.sourceEnd_congr hreach fun k _ => by rw [← hu]; rfl)
  have hrises := State.flawRises_coiler (s := u) (h := h) (by rw [hhead]; exact hk)
  have hswap : u = (s.raise h .state).updHead h fun x => { x with state := .held, window := none } := hu.symm
  unfold State.enterHeld
  dsimp only
  rw [hu]
  split
  case isTrue hflaw =>
    rw [hrises, hpos, hswap, State.updHead_updHead]
    refine State.updHead_congr ?_
    rw [State.raise_head]
    simp only [Head.heldAt, hflaw, and_self, if_true]
  case isFalse hno =>
    rw [hswap]
    refine State.updHead_congr ?_
    rw [State.raise_head]
    simp only [Head.heldAt, if_neg hno]

theorem State.planWaits_waits (hk : (s.head h).kind = some .coiler) (a : HoldReason) : s.PlanWaits h a (s.planWaits h a) := by
  generalize hw : (s.updHead h fun y => { y with holds := y.holds.waiting (some a) }) = w
  have hhead : w.head h = { s.head h with holds := (s.head h).holds.waiting (some a) } := by rw [← hw, State.updHead_head]
  have hpos : w.unwindPosition h = s.unwindPosition h := by
    have hreach : (w.head h).reach = (s.head h).reach := by rw [hhead]; rfl
    exact State.unwindPosition_congr hreach (State.sourceEnd_congr hreach fun k _ => by rw [← hw]; rfl)
  have hothers (g : HeadIx) (hg : g ≠ h) : w.head g = s.head g := by rw [← hw, State.updHead_head_ne _ _ hg]
  have hstay (hst : ¬((s.head h).state = .ready ∨ (s.head h).state = .cutting)) : s.PlanWaits h a w := by
    refine ⟨by rw [← hw]; rfl, ?_, hothers, by rw [← hw]; rfl, .of_attn (by rw [← hw]; rfl), by rw [← hw]; rfl, fun h => absurd h hst⟩
    have hready : ¬((s.head h).state = .ready ∧ (s.head h).flawHigh = true) := fun h => hst (.inl h.1)
    rw [hhead, State.waiter]
    simp only [if_neg hst, if_neg hready]
  have hheld (hst : (s.head h).state = .ready ∨ (s.head h).state = .cutting) : s.PlanWaits h a (w.enterHeld h) := by
    rw [State.enterHeld_coiler (by rw [hhead]; exact hk), hpos]
    refine ⟨by rw [← hw]; rfl, ?_, fun g hg => ?_, by rw [← hw]; rfl, ?_, by rw [← hw]; rfl, fun _ => ?_⟩
    · rw [State.updHead_head, State.raise_head, hhead, State.waiter]
      simp only [if_pos hst, Head.heldAt]
    · rw [State.updHead_head_ne _ _ hg, State.raise_head, hothers g hg]
    · exact (State.KeepsNotices.of_attn (by rw [← hw]; rfl)).trans ((State.raise_notices w h .state).trans (.of_attn rfl))
    · exact State.raise_flagged w h .state
  unfold State.planWaits
  dsimp only
  simp only [HoldSet.put_waiting]
  rw [hw]
  cases hst : (s.head h).state
  case ready => exact hheld (.inl hst)
  case cutting => exact hheld (.inr hst)
  all_goals exact hstay (by rw [hst]; simp)

/-- Head `h` after a plan point that made a segment (R157). -/
def Head.planned (x : Head) : Head :=
  { x with
    holds := x.holds.waiting none
    state := if x.state = .cutting ∨ x.state = .held then x.byRun else x.state }

theorem State.planMade_same (s : State) (h : HeadIx) : (s.planMade h).head h = (s.head h).planned := by
  rw [State.planMade, State.updHead_head]
  unfold Head.planned
  cases hst : (s.head h).state <;> rfl

end Sys2Proof.Machine
end

section
/-! PROOF. The coils of every rope at a plan point (R30, R153 to R157, R162, R164). -/

namespace Sys2Proof.Machine

variable {g h k : HeadIx} {s t u : State} {r q x y z : Record} {c d : CoilBody} {b : RopeBody} {j n rope tag e len m : Nat}
  {grade : Grade} {short : Bool} {a : HoldReason}

/-! ## The opening -/

/-- A rope of which `n` millimetres more have gone to waste (R154). -/
def Record.wastes (n : Nat) (x : Record) : Record := x.onRope fun b => { b with waste := b.waste + n }

@[simp] theorem Record.wastes_tag (n : Nat) (x : Record) : (x.wastes n).tag = x.tag := Record.onRope_tag ..

theorem Record.wastes_of (hb : x.body = .rope b) (n : Nat) : x.wastes n = { x with body := .rope { b with waste := b.waste + n } } := by
  rw [Record.wastes, Record.onRope, hb]

/-- The opening of a plan point at head `h`, whose source has the tag `rope` and the current end `e`. -/
structure State.OpensPlan (h : HeadIx) (rope e : Nat) (s t : State) : Prop where
  store : t.store = (s.updRec rope (Record.wastes (min (s.head h).unplanned e))).store
  same : t.head h = { s.head h with unplanned := 0, pitchFraction := 0 }
  others : ∀ g, g ≠ h → t.head g = s.head g
  serial : t.coilSerial = s.coilSerial
  prefixes : t.coilPrefix = s.coilPrefix
  clock : t.clock = s.clock
  notices : s.KeepsNotices t
  coil : 0 < (s.head h).unplanned → t.flagged h .coil = true

theorem State.openPlan_opens (h : HeadIx) (rope e : Nat) (s : State) : s.OpensPlan h rope e (s.openPlan h rope e) := by
  generalize hw : (s.addWaste rope (min (s.head h).unplanned e)).updHead h (fun x => { x with unplanned := 0, pitchFraction := 0 }) = w
  have hsame : w.head h = { s.head h with unplanned := 0, pitchFraction := 0 } := by
    rw [← hw, State.updHead_head, State.addWaste_head]
  have hothers (g : HeadIx) (hg : g ≠ h) : w.head g = s.head g := by rw [← hw, State.updHead_head_ne _ _ hg, State.addWaste_head]
  unfold State.openPlan
  dsimp only
  rw [hw]
  split
  · refine ⟨by rw [← hw]; rfl, by rw [State.raise_head]; exact hsame, fun g hg => by rw [State.raise_head]; exact hothers g hg,
      by rw [← hw]; rfl, by rw [← hw]; rfl, by rw [← hw]; rfl, ?_, fun _ => State.raise_flagged ..⟩
    exact (State.KeepsNotices.of_attn (by rw [← hw]; rfl)).trans (State.raise_notices ..)
  next hno =>
    exact ⟨by rw [← hw]; rfl, hsame, hothers, by rw [← hw]; rfl, by rw [← hw]; rfl, by rw [← hw]; rfl, .of_attn (by rw [← hw]; rfl),
      fun h => absurd h hno⟩

/-! ## A coil created -/

theorem State.CreatesCoil.fresh (H : s.CreatesCoil h c n t) : s.find (coilTag s.coilPrefix n) = none := by
  have := findSerial_live H.serial
  rw [State.live, Option.isSome_eq_false_iff, Option.isNone_iff_eq_none] at this
  exact this

theorem State.CreatesCoil.find_new (H : s.CreatesCoil h c n t) :
    t.find (coilTag s.coilPrefix n) = some (createdCoil h (coilTag s.coilPrefix n) s.clock.seconds c) := by rw [H.find, if_pos rfl]

theorem State.CreatesCoil.find_old (H : s.CreatesCoil h c n t) (e : s.find j = some x) : t.find j = some x := by
  rw [H.find, if_neg, e]
  rintro rfl
  rw [H.fresh] at e
  cases e

/-- The law of the coils stands through the creation of a coil at a head where none winds (R30, R156, R162). -/
theorem State.CreatesCoil.coilsOk (H : s.CreatesCoil h c n t) (U : s.Unwinding h) (hs : (s.head h).source = some c.sourceRope)
    (er : s.find c.sourceRope = some r) (hr : r.Settled) (ho : c.origin = h) (hb : c.belongs = true) (hend : s.sourceEnd h = some c.hi)
    (hclear : c.grade = .first → meetsList c.lo c.hi r.spans = false) : t.CoilsOk := by
  have hold (j : Nat) (y : Record) (hj : j ≠ coilTag s.coilPrefix n) (e : t.find j = some y) : s.find j = some y := by
    rw [H.find, if_neg hj] at e
    exact e
  have hspans (k : Nat) (q : Record) (e : s.find k = some q) : t.spansOf k = q.spans := by rw [State.spansOf, H.find_old e]; rfl
  have hends (g : HeadIx) (k : Nat) (q : Record) (e : s.find k = some q) (hg : (s.head g).source = some k)
      (ht : (t.head g).source = some k) : t.sourceEnd g = s.sourceEnd g := by
    rw [State.sourceEnd, State.sourceEnd, hg, ht, Option.bind_some, Option.bind_some, e, H.find_old e]
  refine .of_parts (fun j y d e hd hbel => ?_) (fun j y d e hw => ?_) (fun j y d e hd hbel hst hg => ?_)
  · by_cases hj : j = coilTag s.coilPrefix n
    · rw [hj, H.find_new] at e
      cases e
      cases hd
      exact ⟨r, H.find_old er, hr⟩
    · obtain ⟨q, eq, hq⟩ := U.coils.rope (hold j y hj e) hd hbel
      exact ⟨q, H.find_old eq, hq⟩
  · by_cases hj : j = coilTag s.coilPrefix n
    · rw [hj, H.find_new] at e
      cases e
      cases hw.body
      refine ⟨hb, ?_, ?_⟩
      · rw [ho, H.same, Head.winds, hj, hs]
        rfl
      · rw [ho, hends h _ r er hs (by rw [H.same]; exact hs)]
        exact hend
    · have es := hold j y hj e
      have hhead := H.others d.origin (U.none.none j y d es hw)
      obtain ⟨hbel, hwinds⟩ := U.coils.windsCoil es hw
      obtain ⟨q, eq, hq⟩ := U.coils.rope es hw.body hbel
      have hsource := congrArg Prod.fst hwinds.winds
      simp only [Head.winds] at hsource
      exact ⟨hbel, by rw [hhead]; exact hwinds.winds,
        (hends d.origin _ q eq hsource (by rw [hhead]; exact hsource)).trans hwinds.ends⟩
  · by_cases hj : j = coilTag s.coilPrefix n
    · rw [hj, H.find_new] at e
      cases e
      cases hd
      rw [hspans _ r er]
      exact hclear hg
    · have es := hold j y hj e
      obtain ⟨q, eq, hq⟩ := U.coils.rope es hd hbel
      have := U.coils.clear j y d es hd hbel hst hg
      rw [State.spansOf, eq] at this
      rw [hspans _ q eq]
      exact this

/-! ## The plan carried out -/

theorem meetsList_eq_false {lo hi : Nat} {l : List Span} : meetsList lo hi l = false ↔ ∀ x ∈ l, overlap lo hi x.lo x.hi = false := by
  simp only [meetsList, List.any_eq_false, Bool.not_eq_true]

/-- A FIRST coil is planned over a range that meets no span (R155, R162). -/
theorem planSegment_clear {lmin top : Nat} {queue : List CoilOrder} {spans : List Span} (hs : SpansOk top spans)
    (hp : planSegment lmin e queue spans = .coil len .first short) : meetsList (e - len) e spans = false := by
  rw [meetsList_eq_false]
  have he : ¬e < lmin := fun he => by
    simp only [planSegment, if_pos he] at hp
    cases hp
  cases hq : queue with
  | nil =>
    simp only [hq, planSegment, if_neg he] at hp
    cases hp
  | cons o rest =>
    rw [hq] at hp
    obtain ⟨hclear, hsecond, hfirst⟩ := planSegment_order (spans := spans) (Nat.not_lt.mp he) (rfl : o :: rest = _)
    cases ht : (crossed (o.reach e) e spans).getLast? with
    | none =>
      rw [hclear ht] at hp
      cases hp
      exact crossed_getLast_none.mp ht
    | some t =>
      cases hr : o.rule with
      | secondOk =>
        rw [hsecond t ht hr] at hp
        cases hp
      | firstOnly =>
        rw [hfirst t ht hr] at hp
        split at hp
        · cases hp
          by_cases hlt : t.hi < e
          · exact clear_above_last hs ht hlt
          · intro x _
            rw [overlap_eq_false]
            omega
        · cases hp

/-- The plan of a coiler at which no coil winds, carried out (R155, R156). -/
theorem State.applyPlan_coilsOk {p : Plan} (U : s.Unwinding h) (hk : (s.head h).kind = some .coiler) (hs : (s.head h).source = some rope)
    (er : s.find rope = some r) (hr : r.Settled) (hend : s.sourceEnd h = some e)
    (hclear : ∀ len short, p = .coil len .first short → meetsList (e - len) e r.spans = false) : (s.applyPlan h rope e p).CoilsOk := by
  have hwaits (a : HoldReason) : (s.planWaits h a).CoilsOk := by
    have W := State.planWaits_waits hk a
    refine U.coils.of_heads W.store fun g => ?_
    by_cases hg : g = h
    · rw [hg, W.same]
      rfl
    · rw [W.others g hg]
  have hmade (t : State) (C : t.CoilsOk) : (t.planMade h).CoilsOk := C.of_heads rfl (State.updHead_winds (by dsimp only; split <;> rfl))
  unfold State.applyPlan
  split
  case h_1 => exact hwaits _
  case h_2 n => exact hmade _ U.updHead.coils
  case h_3 len grade short =>
    split
    case h_1 t ht =>
      obtain ⟨-, n, H⟩ := State.createCoil_creates ht
      exact hmade t (H.coilsOk U hs er hr rfl rfl hend fun hg => hclear len short (by rw [← hg]; rfl))
    case h_2 => exact hwaits _

/-- A plan point that ends the rope (R164). -/
theorem State.endRope_coilsOk (S : s.StoreOk) (C : s.CoilsOk) (B : s.BindingsOk) (hs : (s.head h).source = some rope)
    (hn : (s.head h).named .segment = none) : (s.endRope h rope).CoilsOk := by
  have CF := State.flawAtLeaving_coilsOk S C h 0
  have BF : (s.flawAtLeaving h 0).BindingsOk := (State.flawAtLeaving_boundBut (B.but h)).ok
  have hnamed := State.flawAtLeaving_named s h 0
  unfold State.endRope
  dsimp only
  generalize s.flawAtLeaving h 0 = f at CF BF hnamed ⊢
  have hsource : (f.head h).source = some rope := (hnamed .source).trans hs
  obtain ⟨r, b, hr, rfl⟩ := BF.sourceOf hsource
  obtain ⟨er, hb⟩ := State.sourceOf_find hr
  have U : f.Unwinding h := ⟨CF, CF.noWinding ((hnamed .segment).trans hn)⟩
  exact (U.unbindSource (BF.sourceApart h) hsource er hb rfl).updHead.raise.raise.coils

/-- A plan point of a coiler that winds no coil (R153 to R157, R164). -/
theorem State.planPoint_coilsOk (T : s.Sound) (C : s.CoilsOk) (B : s.BindingsOk)
    (hn : s.sourceOf h ≠ none → (s.head h).named .segment = none) : (s.planPoint h).CoilsOk := by
  unfold State.planPoint
  split
  case h_1 => exact C
  case h_2 r b hs =>
    obtain ⟨hsource, er⟩ := State.sourceOf_source hs
    obtain ⟨-, hb⟩ := State.sourceOf_find hs
    have hnone := hn (by rw [hs]; nofun)
    have O := State.openPlan_opens h r.tag b.currentEnd s
    have BO : (s.openPlan h r.tag b.currentEnd).BindingsOk := (State.openPlan_boundBut (B.but h)).ok
    have TO := State.openPlan_tagsOk (h := h) (rope := r.tag) (e := b.currentEnd) T.tags
    have UO : (s.openPlan h r.tag b.currentEnd).Unwinding h := by
      unfold State.openPlan
      dsimp only
      have U := (State.Unwinding.addWaste ⟨C, C.noWinding hnone⟩ (B.sourceApart h) hsource (min (s.head h).unplanned b.currentEnd)).updHead
        (f := fun x => { x with unplanned := 0, pitchFraction := 0 })
      split
      · exact U.raise
      · exact U
    dsimp only
    generalize s.openPlan h r.tag b.currentEnd = w at O BO UO TO ⊢
    have hws : (w.head h).source = some r.tag := by rw [O.same]; exact hsource
    have hwn : (w.head h).named .segment = none := by rw [O.same]; exact hnone
    split
    · exact State.endRope_coilsOk TO.store UO.coils BO hws hwn
    next he =>
      have ew : w.find r.tag = some (r.wastes (min (s.head h).unplanned b.currentEnd)) := by
        rw [State.find_of_store O.store, State.find_updRec (Record.wastes_tag _), er, Option.map_some]
      rw [Record.wastes_of hb] at ew
      refine State.applyPlan_coilsOk UO (by rw [O.same]; exact (B.but h).coiler hsource) hws ew ⟨rfl, (B.source hs).state⟩ ?_ fun len short hp => ?_
      · rw [State.sourceEnd, hws, Option.bind_some, ew, Option.bind_some, Record.restEnd]
        simp only [RopeBody.currentEnd, Option.some.injEq]
        omega
      · have hspans := ((T.records r (State.find_mem er).1).piece b.piece (by rw [hb]; rfl)).list
        exact planSegment_clear hspans hp

end Sys2Proof.Machine
end

section
/-! PROOF. The coils of every rope through the events of a coiler (R30, R63, R68, R150, R153, R162). -/

namespace Sys2Proof.Machine

variable {g h k : HeadIx} {s t u : State} {r q x y z : Record} {c d : CoilBody} {b : RopeBody} {j n rope tag e len m : Nat} {o : CoilOrder}

/-! ## The end of a cut, and the notices -/

/-- A cut of a coiler completes (R63, R64). -/
theorem State.completeCut_coilsOk (T : s.Sound) (C : s.CoilsOk) (B : s.BindingsOk) (hk : (s.head h).kind = some .coiler) :
    (s.completeCut h).CoilsOk := by
  obtain ⟨B1, hn⟩ := State.completeSegment_boundBut (B.but h)
  have U := State.completeSegment_coilsOk C B h
  unfold State.completeCut
  rw [hk]
  exact (State.planPoint_coilsOk (State.completeSegment_sound T) U.coils B1.ok hn).updHead fun _ => rfl

theorem State.cutWaitExpiry_coilsOk (T : s.Sound) (C : s.CoilsOk) (B : s.BindingsOk) (hk : (s.head h).kind = some .coiler) :
    (s.cutWaitExpiry h).CoilsOk := by
  unfold State.cutWaitExpiry
  split
  · exact State.completeCut_coilsOk T C B hk
  · exact C

theorem State.runFall_coilsOk (T : s.Sound) (C : s.CoilsOk) (B : s.BindingsOk) (hk : (s.head h).kind = some .coiler) :
    (s.runFall h).CoilsOk := by
  have C1 : (s.updHead h fun x => { x with runHigh := false }).CoilsOk := C.updHead fun _ => rfl
  have B1 : (s.updHead h fun x => { x with runHigh := false }).BindingsOk := State.updHead_bindingsOk (fun _ => rfl) B
  have hcut := State.completeCut_coilsOk (State.updHead_sound T) C1 B1 (by rw [State.updHead_head]; exact hk)
  unfold State.runFall
  dsimp only
  cases (s.head h).state
  case run => exact C1.updHead fun _ => rfl
  case cutting =>
    dsimp only
    split
    · exact hcut
    · exact C1
  all_goals exact C1

theorem State.storeFullNotification_coilsOk (T : s.Sound) (C : s.CoilsOk) (B : s.BindingsOk) : (s.storeFullNotification h).CoilsOk := by
  have C1 : (s.updHead h fun x => { x with notified := false }).CoilsOk := C.updHead fun _ => rfl
  have B1 : (s.updHead h fun x => { x with notified := false }).BindingsOk := State.updHead_bindingsOk (fun _ => rfl) B
  unfold State.storeFullNotification
  dsimp only
  split
  · split
    next hfull =>
      refine State.planPoint_coilsOk (State.updHead_sound T) C1 B1 fun _ => ?_
      rw [State.updHead_head]
      exact B.waiting h (.inr hfull)
    · exact C1
  · exact C

theorem State.enqueue_coilsOk (T : s.Sound) (C : s.CoilsOk) (B : s.BindingsOk) : (s.enqueue h o).CoilsOk := by
  have C1 : (s.updHead h fun x => { x with queue := x.queue ++ [o] }).CoilsOk := C.updHead fun _ => rfl
  have B1 : (s.updHead h fun x => { x with queue := x.queue ++ [o] }).BindingsOk := State.updHead_bindingsOk (fun _ => rfl) B
  unfold State.enqueue
  dsimp only
  split
  next hq =>
    refine State.planPoint_coilsOk (State.updHead_sound T) C1 B1 fun _ => ?_
    rw [State.updHead_head]
    exact B.waiting h (.inl hq.2)
  · exact C1

/-! ## BIND_SOURCE -/

/-- BIND_SOURCE before its plan point (R68). -/
def State.bindsSource (h : HeadIx) (tag : Nat) (s : State) : State :=
  (s.updRec tag fun x => x.bindAs .inUse h .source).updHead h fun x => x.bindSource tag

theorem State.bindsSource_named (s : State) (h : HeadIx) (tag : Nat) (ro : Role) :
    ((s.bindsSource h tag).head h).named ro = if ro = .source then some tag else none := by
  rw [State.bindsSource, State.updHead_head]
  exact Head.bindSource_named _ _ ro

theorem State.bindsSource_find (er : s.find tag = some r) : (s.bindsSource h tag).find tag = some (r.bindAs .inUse h .source) := by
  rw [State.bindsSource, State.updHead_find, State.find_updRec (Record.bindAs_tag _ _ _), er, Option.map_some]

theorem State.bindsSource_find_ne (hj : j ≠ tag) : (s.bindsSource h tag).find j = s.find j := by
  rw [State.bindsSource, State.updHead_find, State.find_updRec_ne (Record.bindAs_tag _ _ _) hj]

theorem State.bindsSource_bindingsOk (B : s.BindingsOk) (er : s.find tag = some r) (hk : (s.head h).kind = some .coiler)
    (hr : r.kind = .rope) (hi : (s.head h).state = .idle) (hst : r.state = .made) : (s.bindsSource h tag).BindingsOk := by
  have hnone := B.names_none hi
  have hw := State.bindsSource_named s h tag
  have hone (ro : Role) (hro : ro ≠ .source) : ¬((s.bindsSource h tag).head h).named ro ≠ none := by rw [hw, if_neg hro]; simp
  have hhead : (s.bindsSource h tag).head h = (s.head h).bindSource tag := by rw [State.bindsSource, State.updHead_head]; rfl
  have htied : (r.bindAs .inUse h .source).Tied := .of_bound rfl rfl nofun fun _ => rfl
  refine ((B.but h).bind (r := r.bindAs .inUse h .source) (n := tag) (ro := .source) (k := .coiler)
    (fun m hm => congrArg _ (State.bindsSource_find_ne hm)) (fun q eq => ?_) (State.bindsSource_find er) rfl htied hk ?_ (by rw [hhead]; rfl)
    (fun g hg => State.updHead_head_ne _ _ hg) (by rw [hhead]; rfl) (fun ro hro => ?_) (by rw [hw, if_pos rfl]) (hnone _)
    (fun m hm => absurd hm (hone _ nofun)) (fun hm => absurd hm (hone _ nofun)) fun _ => by rw [hw, if_neg nofun]).ok
  · cases er.symm.trans eq
    exact B.unbound er (by rw [hst]; rfl)
  · have : (r.bindAs .inUse h .source).kind = .rope := hr
    rw [this]
    rfl
  · rw [hw, if_neg hro, hnone]

theorem Record.bindAs_keepsCoil (hk : x.kind = .rope) : x.KeepsCoil (x.bindAs .inUse h .source) where
  coil c hc := by
    have : x.body = .coil c := hc
    rw [Record.kind_coil this] at hk
    cases hk
  rope hx := ⟨⟨hx.kind, rfl⟩, rfl⟩

theorem State.bindSource_coilsOk (T : s.Sound) (C : s.CoilsOk) (B : s.BindingsOk) (er : s.find tag = some r)
    (hk : (s.head h).kind = some .coiler) (hr : r.kind = .rope) (hi : (s.head h).state = .idle) (hst : r.state = .made) :
    (s.bindSource h tag).CoilsOk := by
  have C1 : (s.updRec tag fun x => x.bindAs .inUse h .source).CoilsOk := by
    refine C.follow (State.updRec_follows (Record.bindAs_tag _ _ _) (fun x ex => ?_) fun g _ => .inl fun x _ => rfl)
    cases er.symm.trans ex
    exact Record.bindAs_keepsCoil hr
  have U : (s.bindsSource h tag).Unwinding h := State.Unwinding.updHead ⟨C1, C1.noWinding (B.names_none hi _)⟩
  have T1 : (s.bindsSource h tag).Sound := State.updHead_sound (State.updRec_sound_of (by simp) (fun x ex hx => by
    cases er.symm.trans ex
    exact Record.bindAs_ok (by rw [hst]; nofun) hx) T)
  have hn : ((s.bindsSource h tag).head h).named .segment = none := by rw [State.bindsSource_named, if_neg nofun]
  exact State.planPoint_coilsOk T1 U.coils (State.bindsSource_bindingsOk B er hk hr hi hst) fun _ => hn

end Sys2Proof.Machine
end

section
/-! PROOF. The coils of every rope through every event at a head (R30, R57, R60, R83, R98, R103, R137, R139, R162). -/

namespace Sys2Proof.Machine

variable {g h k : HeadIx} {s t u : State} {r q x y z : Record} {c d : CoilBody} {b : RopeBody} {j n rope tag e len m : Nat} {a : HoldReason}

/-! ## The pulses and edges of a coiler -/

theorem State.limitReached_coilsOk (C : s.CoilsOk) : (s.limitReached h).CoilsOk := by
  unfold State.limitReached
  split
  · exact C
  · refine C.of_heads rfl fun g => ?_
    rw [State.raiseAlarm_head]
    exact State.updHead_winds rfl g

theorem State.enterCutting_coilsOk (C : s.CoilsOk) : (s.enterCutting h).CoilsOk := by
  unfold State.enterCutting
  have hcut (f : Head → Head) (hf : ∀ x, (f x).winds = x.winds) : ((s.updHead h f).raise h .state).CoilsOk :=
    (C.updHead hf).of_heads rfl fun _ => rfl
  split
  iterate 3 exact hcut _ fun _ => rfl
  all_goals exact C

theorem State.checkEnd_coilsOk (C : s.CoilsOk) : (s.checkEnd h).CoilsOk := by
  unfold State.checkEnd
  split
  · split
    · exact State.enterCutting_coilsOk C
    · exact C
  · exact C

theorem State.enterHeld_coilsOk (C : s.CoilsOk) (hk : (s.head h).kind = some .coiler) : (s.enterHeld h).CoilsOk := by
  rw [State.enterHeld_coiler hk]
  exact (C.of_heads (t := s.raise h .state) rfl fun _ => rfl).updHead fun _ => rfl

theorem State.addHold_coilsOk (C : s.CoilsOk) (hk : (s.head h).kind = some .coiler) : (s.addHold h a).CoilsOk := by
  have C1 : (s.updHead h fun y => { y with holds := y.holds.put true a }).CoilsOk := C.updHead fun _ => rfl
  have hheld := State.enterHeld_coilsOk (h := h) C1 (by rw [State.updHead_head]; exact hk)
  unfold State.addHold
  dsimp only
  split
  · exact C
  · cases (s.head h).state
    case ready => exact hheld
    case run => exact hheld
    case stopped => exact hheld
    all_goals exact C1

theorem State.checkFeeds_coilsOk (C : s.CoilsOk) (hk : (s.head h).kind = some .coiler) : (s.checkFeeds h).CoilsOk := by
  unfold State.checkFeeds
  split
  · exact State.addHold_coilsOk C hk
  · exact C

theorem State.flawRises_coilsOk (C : s.CoilsOk) (hk : (s.head h).kind = some .coiler) : (s.flawRises h).CoilsOk := by
  rw [State.flawRises_coiler hk]
  exact C.updHead fun _ => rfl

theorem State.flawRises_kind (hk : (s.head h).kind = some .coiler) : ((s.flawRises h).head h).kind = some .coiler := by
  rw [State.flawRises_coiler hk, State.updHead_head]
  exact hk

theorem State.runRise_coilsOk (C : s.CoilsOk) (hk : (s.head h).kind = some .coiler) : (s.runRise h).CoilsOk := by
  have C1 : (s.updHead h fun x => { x with runHigh := true }).CoilsOk := C.updHead fun _ => rfl
  unfold State.runRise
  dsimp only
  generalize hw : (s.updHead h fun x => { x with runHigh := true }) = w at C1 ⊢
  have hwk : ((w.updHead h fun x => { x with state := .run }).head h).kind = some .coiler := by
    rw [State.updHead_head, ← hw, State.updHead_head]
    exact hk
  have C2 : (w.updHead h fun x => { x with state := .run }).CoilsOk := C1.updHead fun _ => rfl
  cases (s.head h).state
  case ready =>
    dsimp only
    split
    · exact State.checkEnd_coilsOk (State.checkFeeds_coilsOk (State.flawRises_coilsOk C2 hwk) (State.flawRises_kind hwk))
    · exact State.checkEnd_coilsOk (State.checkFeeds_coilsOk C2 hwk)
  case stopped => exact State.checkFeeds_coilsOk C2 hwk
  all_goals exact C1

theorem State.flawRiseEdge_coilsOk (C : s.CoilsOk) (hk : (s.head h).kind = some .coiler) : (s.flawRiseEdge h).CoilsOk := by
  have C1 : (s.updHead h fun x => { x with flawHigh := true }).CoilsOk := C.updHead fun _ => rfl
  unfold State.flawRiseEdge
  dsimp only
  split
  · exact State.flawRises_coilsOk C1 (by rw [State.updHead_head]; exact hk)
  · exact C1

theorem State.flawFallEdge_coilsOk (S : s.StoreOk) (C : s.CoilsOk) (hk : (s.head h).kind = some .coiler) : (s.flawFallEdge h).CoilsOk := by
  have C1 : (s.updHead h fun x => { x with flawHigh := false }).CoilsOk := C.updHead fun _ => rfl
  have S1 : (s.updHead h fun x => { x with flawHigh := false }).StoreOk := ⟨S.ascending, S.capacity, S.tags⟩
  unfold State.flawFallEdge
  dsimp only
  split
  · rw [hk]
    exact State.coilerFlawFall_coilsOk S1 C1 h _
  · exact C1

theorem State.limitReached_winds (h : HeadIx) (s : State) (g : HeadIx) : ((s.limitReached h).head g).winds = (s.head g).winds := by
  unfold State.limitReached
  split
  · rfl
  · rw [State.raiseAlarm_head]
    exact State.updHead_winds rfl g

/-- Length is unwound in a segment, and the limit of a count may be reached (R83, R158). -/
theorem State.CoilsOk.unwinds {v : Segment} {w : Nat} (C : s.CoilsOk) (hg : (s.head h).segment = some v) (p : Prop) [Decidable p] :
    ((if p then s.limitReached h else s).updHead h fun x => { x with segment := some { v with unwound := w } }).CoilsOk := by
  have hsame (u : State) (hs : u.store = s.store) (hu : ∀ g, (u.head g).winds = (s.head g).winds) :
      (u.updHead h fun x => { x with segment := some { v with unwound := w } }).CoilsOk := by
    refine C.of_heads hs fun g => ?_
    by_cases hgh : g = h
    · have hsource := congrArg Prod.fst (hu h)
      rw [hgh, State.updHead_head, Head.winds, Head.winds, hg]
      simp only [Head.winds] at hsource
      rw [hsource]
      rfl
    · rw [State.updHead_head_ne _ _ hgh, hu]
  split
  · exact hsame _ (State.limitReached_store h s) (State.limitReached_winds h s)
  · exact hsame s rfl fun _ => rfl

theorem State.unwindCarry_coilsOk (C : s.CoilsOk) (n : Nat) : (s.unwindCarry h n).CoilsOk := by
  unfold State.unwindCarry
  cases (s.head h).state
  case held =>
    refine State.CoilsOk.updHead ?_ fun _ => rfl
    split
    · exact State.limitReached_coilsOk C
    · exact C
  case empty => exact C
  case idle => exact C
  case ready => exact C
  case done => exact C
  all_goals
    dsimp only
    split
    · exact C
    next v hv =>
      split
      · exact State.enterCutting_coilsOk (C.unwinds hv _)
      · exact C.unwinds hv _

theorem State.encPulse_coilsOk (C : s.CoilsOk) (hk : (s.head h).kind = some .coiler) : (s.encPulse h).CoilsOk := by
  unfold State.encPulse
  split
  · have C1 (n : Nat) : (s.updHead h fun x => { x with pitchFraction := n }).CoilsOk := C.updHead fun _ => rfl
    dsimp only
    rw [hk]
    dsimp only
    split
    · exact C1 _
    · exact State.unwindCarry_coilsOk (C1 _) _
  · exact C

/-! ## Pulses that a coiler does not follow -/

theorem State.spinPulse_coiler (hk : (s.head h).kind = some .coiler) : s.spinPulse h = s := by
  unfold State.spinPulse Head.laysLength
  rw [hk]
  rfl

theorem Head.knots_coiler {v : Head} (hk : v.kind = some .coiler) : v.knots = false := by
  rw [Head.knots, hk]
  rfl

theorem State.rowExpiry_coiler (B : s.BindingsOk) (hk : (s.head h).kind = some .coiler) : s.rowExpiry h = s := by
  have hp : s.productOf h = none := by rw [State.productOf, (B.but h).product_none hk]; rfl
  unfold State.rowExpiry State.closeRow
  rw [hp]
  split
  · split <;> rfl
  · rfl

/-! ## Every event -/

theorem State.flawRiseEdge_sameCoils : s.SameCoils (s.flawRiseEdge h) := by
  unfold State.flawRiseEdge
  dsimp only
  split
  · exact State.flawRises_sameCoils (State.updHead_sameCoils (.refl s))
  · exact State.updHead_sameCoils (.refl s)

theorem State.flawFallEdge_sameCoils (hk : (s.head h).kind ≠ some .coiler) : s.SameCoils (s.flawFallEdge h) := by
  have H : s.SameCoils (s.updHead h fun x => { x with flawHigh := false }) := State.updHead_sameCoils (.refl s)
  unfold State.flawFallEdge
  dsimp only
  split
  · split
    · exact State.makerFlawFall_sameCoils H
    · exact State.makerFlawFall_sameCoils H
    next hc => exact absurd hc hk
    all_goals exact H
  · exact H

theorem State.encPulse_sameCoils (hk : (s.head h).kind ≠ some .coiler) : s.SameCoils (s.encPulse h) := by
  have H (n : Nat) : s.SameCoils (s.updHead h fun x => { x with pitchFraction := n }) := State.updHead_sameCoils (.refl s)
  unfold State.encPulse
  split
  · dsimp only
    split
    next hc =>
      split
      · exact H _
      · exact State.advanceMade_sameCoils (H _)
    next hc =>
      split
      · exact H _
      · exact State.advanceMade_sameCoils (H _)
    next hc => exact absurd hc hk
    all_goals exact .refl s
  · exact .refl s

end Sys2Proof.Machine
end

section
/-! PROOF. Every event at a head keeps the law of the coils (R30, R162). -/

namespace Sys2Proof.Machine

variable {g h k : HeadIx} {s t u : State} {r q x y z : Record} {c d : CoilBody} {b : RopeBody} {j n rope tag e len m : Nat} {a : HoldReason}
  {i : Instr}

/-! ## The ends of a maker's work -/

theorem State.settleRecords_makerCoils (B : s.BindingsOk) (hk : (s.head h).kind ≠ some .coiler) {f : Record → Record} (hf : ∀ r, (f r).tag = r.tag)
    (hc : ∀ r, (f r).coilBody = r.coilBody) : s.SameCoils (s.settleRecords h f) :=
  State.settleRecords_sameCoils hk (B.no_source hk) hf hc

theorem State.releaseHead_makerCoils (T : s.TagsOk) (C : s.CoilsOk) (B : s.BindingsOk) (hk : (s.head h).kind ≠ some .coiler) :
    (s.releaseHead h).CoilsOk := by
  refine C.of_maker B hk (State.releaseHead_bindingsOk B) (State.releaseHead_keeps (.refl h s)) (State.releaseHead_leaves T) ?_ ?_
  · exact State.updHead_sameCoils (State.settleRecords_makerCoils B hk (fun _ => Record.unbindTo_tag ..) fun r => Record.unbindTo_coilBody _ r)
  · rw [State.releaseHead, State.updHead_head]
    exact Head.free_named ..

theorem State.senseSettled_makerCoils (T : s.TagsOk) (C : s.CoilsOk) (B : s.BindingsOk) (hk : (s.head h).kind ≠ some .coiler) :
    (s.senseSettled h).CoilsOk := by
  refine C.of_maker B hk (State.senseSettled_bindingsOk B) (State.senseSettled_keeps (.refl h s)) (State.senseSettled_leaves T) ?_ ?_
  · unfold State.senseSettled
    dsimp only
    split
    · refine State.raise_sameCoils (State.updHead_sameCoils ?_)
      split
      · exact State.updHead_sameCoils (State.settleRecords_makerCoils B hk (fun r => Record.unbindTo_tag .interrupted r) Record.interrupt_coilBody)
      · exact .refl s
    · exact .refl s
  · unfold State.senseSettled
    dsimp only
    split
    · rw [State.raise_head, State.updHead_head]
      split
      · rw [State.disconnect, State.updHead_head]
        rfl
      · exact B.no_coil hk
    · exact B.no_coil hk

theorem State.completeCut_makerCoils (T : s.TagsOk) (C : s.CoilsOk) (B : s.BindingsOk) (hk : (s.head h).kind ≠ some .coiler) :
    (s.completeCut h).CoilsOk :=
  C.of_maker B hk (State.completeCut_bindingsOk B) (State.completeCut_keeps (.refl h s)) (State.completeCut_leaves (.start T))
    (State.completeCut_sameCoils hk) (State.completeCut_freed hk _)

theorem State.runFall_makerCoils (T : s.TagsOk) (C : s.CoilsOk) (B : s.BindingsOk) (hk : (s.head h).kind ≠ some .coiler) :
    (s.runFall h).CoilsOk := by
  have C1 : (s.updHead h fun x => { x with runHigh := false }).CoilsOk := C.updHead fun _ => rfl
  have B1 : (s.updHead h fun x => { x with runHigh := false }).BindingsOk := State.updHead_bindingsOk (fun _ => rfl) B
  have hcut := State.completeCut_makerCoils (h := h) (State.updHead_tagsOk T) C1 B1 (by rw [State.updHead_head]; exact hk)
  unfold State.runFall
  dsimp only
  cases (s.head h).state
  case run => exact C1.updHead fun _ => rfl
  case cutting =>
    dsimp only
    split
    · exact hcut
    · exact C1
  all_goals exact C1

theorem State.cutWaitExpiry_makerCoils (T : s.TagsOk) (C : s.CoilsOk) (B : s.BindingsOk) (hk : (s.head h).kind ≠ some .coiler) :
    (s.cutWaitExpiry h).CoilsOk := by
  unfold State.cutWaitExpiry
  split
  · exact State.completeCut_makerCoils T C B hk
  · exact C

/-! ## Every event -/

theorem exec_event_coilerCoils (hi : i.eventAt = some h) (T : s.Sound) (B : s.BindingsOk) (C : s.CoilsOk)
    (hk : (s.head h).kind = some .coiler) (e : exec i s = .next t) : t.CoilsOk := by
  have S := T.tags.store
  cases i <;> cases hi <;> cases e
  case senseSettled => exact State.change_coilsOk (State.senseSettled_coilsOk S C B hk)
  case encPulse => exact State.change_coilsOk (State.encPulse_coilsOk C hk)
  case spinPulse => exact State.change_coilsOk (by rw [State.spinPulse_coiler hk]; exact C)
  case runRise => exact State.change_coilsOk (State.runRise_coilsOk C hk)
  case runFall => exact State.change_coilsOk (State.runFall_coilsOk T C B hk)
  case cutWaitExpiry => exact State.change_coilsOk (State.cutWaitExpiry_coilsOk T C B hk)
  case flawRise => exact State.change_coilsOk (State.flawRiseEdge_coilsOk C hk)
  case flawFall => exact State.change_coilsOk (State.flawFallEdge_coilsOk S C hk)
  case knotPulse => exact State.change_coilsOk (by rw [State.knotPulse, Head.knots_coiler hk]; exact C)
  case rowPulse => exact State.change_coilsOk (by rw [State.rowPulse, Head.knots_coiler hk]; exact C)
  case rowExpiry => exact State.change_coilsOk (by rw [State.rowExpiry_coiler B hk]; exact C)
  case storeFullNotification => exact State.change_coilsOk (State.storeFullNotification_coilsOk T C B)
  case excessWatchEnd => exact C.updHead fun _ => rfl

theorem exec_event_makerCoils (hi : i.eventAt = some h) (T : s.Sound) (B : s.BindingsOk) (C : s.CoilsOk)
    (hk : (s.head h).kind ≠ some .coiler) (e : exec i s = .next t) : t.CoilsOk := by
  have K := State.Keeps.refl h s
  have work {f : State → State} := C.of_makerWork (f := f) B T.tags hk
  cases i <;> cases hi <;> cases e
  case senseSettled => exact State.change_coilsOk (State.senseSettled_makerCoils T.tags C B hk)
  case encPulse => exact State.change_coilsOk (work (fun _ => State.encPulse_boundBut) (State.encPulse_keeps K) State.encPulse_confined
      (State.encPulse_sameCoils hk))
  case spinPulse => exact State.change_coilsOk (work (fun _ => State.spinPulse_boundBut) (State.spinPulse_keeps K) State.spinPulse_confined
      (State.spinPulse_sameCoils (.refl s)))
  case runRise => exact State.change_coilsOk (work (fun _ => State.runRise_boundBut) (State.runRise_keeps K) State.runRise_confined
      (State.runRise_sameCoils (.refl s)))
  case runFall => exact State.change_coilsOk (State.runFall_makerCoils T.tags C B hk)
  case cutWaitExpiry => exact State.change_coilsOk (State.cutWaitExpiry_makerCoils T.tags C B hk)
  case flawRise => exact State.change_coilsOk (work (fun _ => State.flawRiseEdge_boundBut) (State.flawRiseEdge_keeps K)
      State.flawRiseEdge_confined State.flawRiseEdge_sameCoils)
  case flawFall => exact State.change_coilsOk (work (fun _ => State.flawFallEdge_boundBut) (State.flawFallEdge_keeps K)
      State.flawFallEdge_confined (State.flawFallEdge_sameCoils hk))
  case knotPulse => exact State.change_coilsOk (work (fun _ => State.knotPulse_boundBut) (State.knotPulse_keeps K) State.knotPulse_confined
      (State.knotPulse_sameCoils (.refl s)))
  case rowPulse => exact State.change_coilsOk (work (fun _ => State.rowPulse_boundBut) (State.rowPulse_keeps K) State.rowPulse_confined
      (State.rowPulse_sameCoils (.refl s)))
  case rowExpiry => exact State.change_coilsOk (work (fun _ => State.rowExpiry_boundBut) (State.rowExpiry_keeps K) State.rowExpiry_confined
      (State.rowExpiry_sameCoils (.refl s)))
  case storeFullNotification => exact State.change_coilsOk (State.storeFullNotification_coilsOk T C B)
  case excessWatchEnd => exact C.updHead fun _ => rfl

/-- Every event at a head keeps the law of the coils. -/
theorem exec_event_coilsOk (hi : i.eventAt = some h) (T : s.Sound) (B : s.BindingsOk) (C : s.CoilsOk) (e : exec i s = .next t) :
    t.CoilsOk := by
  by_cases hk : (s.head h).kind = some .coiler
  · exact exec_event_coilerCoils hi T B C hk e
  · exact exec_event_makerCoils hi T B C hk e

end Sys2Proof.Machine
end

section
/-! PROOF. The coils of every rope through the requests on records (R30, R42 to R53, R162). -/

namespace Sys2Proof.Machine

variable {g h k : HeadIx} {s t u : State} {r q x y z : Record} {c d : CoilBody} {b : RopeBody} {j n rope tag e len m : Nat} {a : HoldReason}
  {i : Instr} {p : Port} {l : List Item} {v : Span}

/-! ## A record enters -/

/-- A record that is no coil enters the store (R4). -/
theorem State.enter_coilsOk (C : s.CoilsOk) (hl : s.live r.tag = false) (hr : r.kind ≠ .coil) : (s.enter r).CoilsOk := by
  have hfind := State.enter_find hl
  have hold (n : Nat) (x : Record) (e : s.find n = some x) : (s.enter r).find n = some x := by
    rw [hfind, if_neg, e]
    rintro rfl
    rw [State.live, e] at hl
    cases hl
  have hcoil (n : Nat) (y : Record) (c : CoilBody) (e : (s.enter r).find n = some y) (hc : y.body = .coil c) : s.find n = some y := by
    rw [hfind] at e
    split at e
    · cases e
      exact absurd (Record.kind_coil hc) hr
    · exact e
  have hhead (g : HeadIx) : (s.enter r).head g = s.head g := by rw [State.head, State.enter_heads]; rfl
  refine C.follow ⟨fun n y c e hc _ => ⟨y, hcoil n y c e hc, hc, id, id⟩, fun n y c _ _ _ q eq hq => ⟨q, hold _ q eq, hq, rfl⟩,
    fun n y c e hw => ⟨by rw [hhead], ?_⟩⟩
  have es := hcoil n y c e hw.body
  obtain ⟨hbelongs, hwinds⟩ := C.windsCoil es hw
  obtain ⟨q, eq, -⟩ := C.rope es hw.body hbelongs
  have hs := congrArg Prod.fst hwinds.winds
  simp only [Head.winds] at hs
  rw [State.sourceEnd, State.sourceEnd, hhead, hs, Option.bind_some, Option.bind_some, eq, hold _ q eq]

theorem freshBody_kind {k : RecordKind} {b : Body} (hb : freshBody l k = some b) : b.kind ≠ .coil := by
  cases k <;> cases hb <;> nofun

/-! ## A record that is no coil and no settled rope -/

theorem Record.KeepsCoil.of_plain (hx : ¬x.Settled) (hk : x.kind ≠ .coil) (hy : y.kind = x.kind) : x.KeepsCoil y :=
  ⟨fun _ hc => absurd (hy.symm.trans (Record.kind_coil hc)) hk, fun h => absurd h hx⟩

theorem Record.restEnd_plain (hk : r.kind ≠ .rope) : r.restEnd = none := by
  unfold Record.restEnd
  split
  next b hb => exact absurd (by rw [Record.kind, hb]; rfl) hk
  all_goals rfl

/-- A record changed in a way that the coils do not see. -/
theorem State.CoilsOk.updRec {f : Record → Record} (C : s.CoilsOk) (er : s.find tag = some r) (hf : ∀ r, (f r).tag = r.tag)
    (hk : r.KeepsCoil (f r)) (hend : (f r).restEnd = r.restEnd) : (s.updRec tag f).CoilsOk := by
  refine C.follow (State.updRec_follows hf (fun x ex => ?_) fun g _ => .inl fun x ex => ?_)
  all_goals
    cases er.symm.trans ex
    assumption

theorem State.raiseAt_heads (bound : Option (HeadIx × Role)) (x : Alarm) (s : State) : (s.raiseAt bound x).heads = s.heads := by
  unfold State.raiseAt
  split <;> rfl

theorem State.CoilsOk.of_fields (C : s.CoilsOk) (hs : t.store = s.store) (hh : t.heads = s.heads) : t.CoilsOk :=
  C.of_heads hs fun g => by rw [State.head, hh]; rfl

/-- A change of the piece of a STRAND or PANEL. -/
theorem State.onPiece_coilsOk {f : Piece → Piece × Bool} (C : s.CoilsOk) (er : s.find tag = some r) (hr : r.kind ≠ .rope)
    (hk : r.kind ≠ .coil) : (s.onPiece tag f).CoilsOk := by
  unfold State.onPiece
  rw [er]
  dsimp only
  split
  · exact C
  next q _ =>
    have hkind : ({ r.withPiece (f q).1 with spansMerged := r.spansMerged || (f q).2 } : Record).kind = r.kind := Body.withPiece_kind ..
    have C1 := C.updRec (f := fun x => { x.withPiece (f q).1 with spansMerged := x.spansMerged || (f q).2 }) er
      (fun x => Record.withPiece_tag (f q).1 x) (.of_plain (fun h => hr h.kind) hk hkind)
      ((Record.restEnd_plain (by rw [hkind]; exact hr)).trans (Record.restEnd_plain hr).symm)
    split
    · exact C1.of_fields (State.raiseAt_store ..) (State.raiseAt_heads ..)
    · exact C1

/-! ## AMEND, CONCLUDE and BAND -/

/-- A record with other specifications has the same length to wind (R44, R45). -/
theorem Record.setSpecs_restEnd (l : List Item) (r : Record) :
    ({ r with body := l.foldl (fun b it => b.setSpec it) r.body } : Record).restEnd = r.restEnd := by
  have hone (it : Item) (b : Body) : ({ r with body := b.setSpec it } : Record).restEnd = ({ r with body := b } : Record).restEnd := by
    unfold Body.setSpec
    cases b
    case rope b =>
      dsimp only
      split <;> rfl
    case strand b =>
      dsimp only
      split <;> rfl
    case panel b =>
      dsimp only
      split <;> rfl
    case coil b => rfl
  have hall (l : List Item) : ∀ b : Body, ({ r with body := l.foldl (fun b it => b.setSpec it) b } : Record).restEnd =
      ({ r with body := b } : Record).restEnd := by
    induction l with
    | nil => exact fun _ => rfl
    | cons it l ih => exact fun b => (ih _).trans (hone it b)
  exact hall l r.body

theorem State.amend_coilsOk (C : s.CoilsOk) (er : s.find tag = some r) (hk : r.kind ≠ .coil) : (s.amend tag l).CoilsOk := by
  have C1 : (s.updRec tag fun r => { r with body := l.foldl (fun b it => b.setSpec it) r.body }).CoilsOk := by
    obtain ⟨hpiece, hkind, -⟩ := Body.setSpecs_ok l r.body
    refine C.updRec er (fun x => by cases x; rfl) ⟨fun c hc => ?_, fun hr => ⟨⟨hkind.trans hr.kind, hr.state⟩, ?_⟩⟩ (Record.setSpecs_restEnd l r)
    · exact absurd (hkind.symm.trans (Record.kind_coil hc)) hk
    · rw [Record.spans, Record.spans, hpiece]
  unfold State.amend
  dsimp only
  split
  · split
    · exact State.checkEnd_coilsOk C1
    · exact C1
  all_goals exact C1

theorem State.conclude_coilsOk (C : s.CoilsOk) (er : s.find tag = some r) (hk : r.kind ≠ .coil) (hst : r.state = .interrupted) :
    (s.updRec tag fun x => { x with state := .made }).CoilsOk := by
  refine C.updRec er (fun x => by cases x; rfl) (.of_plain (fun h => ?_) hk rfl) rfl
  have := h.state
  rw [hst] at this
  cases this

/-- A WOUND coil is BANDED (R21, R51). -/
theorem State.bandCoil_coilsOk (C : s.CoilsOk) (er : s.find tag = some r) (hk : r.kind = .coil) : (s.bandCoil tag).CoilsOk := by
  obtain ⟨c0, hc0⟩ := Record.body_of_coil hk
  have htag (x : Record) : ({ x.onCoil (fun c => { c with bandTime := some s.clock.seconds }) with state := .banded } : Record).tag = x.tag :=
    Record.onCoil_tag ..
  have hsame : (s.bandCoil tag).find tag =
      some { r with state := .banded, body := .coil { c0 with bandTime := some s.clock.seconds } } := by
    rw [State.bandCoil, State.find_updRec htag, er, Option.map_some, Record.onCoil, hc0]
  have hother (j : Nat) (hj : j ≠ tag) : (s.bandCoil tag).find j = s.find j := State.find_updRec_ne htag hj
  have hrope (j : Nat) (q : Record) (e : s.find j = some q) (hq : q.kind = .rope) : (s.bandCoil tag).find j = some q := by
    refine (hother j fun hj => ?_).trans e
    rw [hj, er] at e
    cases e
    rw [hk] at hq
    cases hq
  have hspans (j : Nat) (q : Record) (e : s.find j = some q) (hq : q.kind = .rope) : (s.bandCoil tag).spansOf j = s.spansOf j := by
    rw [State.spansOf, State.spansOf, hrope j q e hq, e]
  refine .of_parts (fun j y d e hd hb => ?_) (fun j y d e hw => ?_) (fun j y d e hd hb hst hg => ?_)
  · by_cases hj : j = tag
    · rw [hj, hsame] at e
      cases e
      cases hd
      obtain ⟨q, eq, hq⟩ := C.rope er hc0 hb
      exact ⟨q, hrope _ q eq hq.kind, hq⟩
    · obtain ⟨q, eq, hq⟩ := C.rope ((hother j hj).symm.trans e) hd hb
      exact ⟨q, hrope _ q eq hq.kind, hq⟩
  · have hj : j ≠ tag := fun hj => by
      rw [hj, hsame] at e
      cases e
      cases hw.state
    have es := (hother j hj).symm.trans e
    obtain ⟨hb, hwinds⟩ := C.windsCoil es hw
    obtain ⟨q, eq, hq⟩ := C.rope es hw.body hb
    have hs := congrArg Prod.fst hwinds.winds
    have ht : ((s.bandCoil tag).head d.origin).source = some d.sourceRope := hs
    simp only [Head.winds] at hs
    refine ⟨hb, hwinds.winds, ?_⟩
    rw [← hwinds.ends, State.sourceEnd, State.sourceEnd, hs, ht, Option.bind_some, Option.bind_some, eq, hrope _ q eq hq.kind]
  · have hj : j ≠ tag := fun hj => by
      rw [hj, hsame] at e
      cases e
      rcases hst with hst | hst <;> cases hst
    have es := (hother j hj).symm.trans e
    obtain ⟨q, eq, hq⟩ := C.rope es hd hb
    rw [hspans _ q eq hq.kind]
    exact C.clear j y d es hd hb hst hg

/-! ## RETIRE and ADD_SPAN -/

theorem State.retire_coilsOk (C : s.CoilsOk) (B : s.BindingsOk) (er : s.find tag = some r) (hst : r.state.retirable = true) :
    (s.leave tag).CoilsOk := by
  obtain ⟨-, rfl⟩ := State.find_mem er
  have hloose : r.bound = none := B.unbound er (by
    revert hst
    cases r.state <;> simp [RecordState.retirable, RecordState.loose])
  refine C.leave er fun _ g hg => ?_
  obtain ⟨x, -, ex, hb, -⟩ := B.named g .source r.tag hg
  cases er.symm.trans ex
  rw [hloose] at hb
  cases hb

/-- A strand's top is judged again at a CLOSER (R127). -/
theorem State.rejudgeTop_coilsOk {m : SlotIx} (T : s.TagsOk) (C : s.CoilsOk) (B : s.BindingsOk) (hk : (s.head h).kind ≠ some .coiler) :
    (s.rejudgeTop h m).CoilsOk := by
  refine C.of_makerWork (f := fun s => s.rejudgeTop h m) B T hk (fun _ => State.rejudgeTop_boundBut) (State.rejudgeTop_keeps (.refl h s))
    (fun H => ?_) ?_
  · unfold State.rejudgeTop
    split
    next hp =>
      split
      · exact State.addHolder_confined (State.names_product hp) (State.updSlot_confined (fun _ => .inl rfl) H)
      · exact H
    · exact H
  · unfold State.rejudgeTop
    split
    · split
      · exact State.addHolder_sameCoils (State.updSlot_sameCoils (.refl s))
      · exact .refl s
    · exact .refl s

theorem State.addSpanTo_coilsOk (T : s.Sound) (C : s.CoilsOk) (B : s.BindingsOk) (er : s.find r.tag = some r) (hk : r.kind ≠ .coil)
    (v : Span) : (s.addSpanTo r v).CoilsOk := by
  unfold State.addSpanTo
  cases hr : r.kind
  case rope =>
    obtain ⟨b, hb⟩ := Record.body_of_rope hr
    exact State.addRopeSpan_coilsOk T.tags.store C er hb v
  case coil => exact absurd hr hk
  case panel => exact State.onPiece_coilsOk C er (by rw [hr]; nofun) hk
  case strand =>
    have C1 : (s.normalizeInto r.tag v).CoilsOk := State.onPiece_coilsOk C er (by rw [hr]; nofun) hk
    have B1 : (s.normalizeInto r.tag v).BindingsOk := (State.normalizeInto_boundBut (B.but 0)).ok
    dsimp only
    split
    case h_1 g m hbound =>
      have hkind : ((s.normalizeInto r.tag v).head g).kind ≠ some .coiler := fun hc => by
        have hnamed := B.bound _ _ _ _ er hbound
        have hproduct := B.feeds g m (by rw [hnamed]; nofun)
        exact hproduct ((B.but g).product_none (by rw [← hc, State.normalizeInto, State.onPiece_head]))
      split
      · exact C1
      · exact State.rejudgeTop_coilsOk (State.normalizeInto_tagsOk T.tags) C1 B1 hkind
    all_goals exact C1

end Sys2Proof.Machine
end

section
/-! PROOF. Every command keeps the law of the coils (O57): the requests on heads, and the step. -/

namespace Sys2Proof.Machine

variable {g h k : HeadIx} {s t u : State} {r q x y z : Record} {c d : CoilBody} {j n rope tag e len m : Nat} {a : HoldReason}
  {i : Instr} {p : Port} {l : List Item} {v : Span} {mk : Mark}

/-! ## Coils left alone by a binding -/

theorem State.dropHold_sameCoils (H : s.SameCoils t) : s.SameCoils (t.dropHold h a) := State.updHead_sameCoils H

theorem State.change_sameCoils {f : State → State} (H : s.SameCoils (f s)) : s.SameCoils (s.change f) where
  same n := by
    rw [State.change, State.commit_find, ← H.same n]
    cases (f s).find n with
    | none => rfl
    | some x =>
      rw [Option.map_some, Option.bind_some, Option.bind_some]
      split
      · rw [Record.coilBody, Record.stepMark_body]
        rfl
      · rfl

theorem State.openJoin_sameCoils (H : s.SameCoils t) : s.SameCoils (t.openJoin h n m) := by
  unfold State.openJoin
  dsimp only
  repeat' split
  all_goals simp (maxDischargeDepth := 20) [H]

theorem State.bindProduct_sameCoils (s : State) (h : HeadIx) (r : Record) : s.SameCoils (s.bindProduct h r) := by
  have H : s.SameCoils ((s.updRec r.tag fun x => x.bindAs .making h .product).updHead h fun x => x.bindProduct r.tag r.body) :=
    State.updHead_sameCoils (State.updRec_sameCoils (fun _ => Record.bindAs_tag ..) (fun _ => Record.bindAs_coilBody ..) (.refl s))
  unfold State.bindProduct
  generalize (s.updRec r.tag fun x => x.bindAs .making h .product).updHead h _ = w at H ⊢
  have H1 : s.SameCoils (w.joinResumed h r) := by
    unfold State.joinResumed
    split
    · exact State.openJoin_sameCoils H
    · exact H
  unfold State.addEmptyFeeds
  split
  · refine State.foldl_sameCoils (fun t m Ht => ?_) _ H1
    split
    · exact State.addHolder_sameCoils Ht
    · exact Ht
  all_goals exact H1

theorem State.judgeTop_sameCoils {m : SlotIx} {b : StrandBody} (H : s.SameCoils t) : s.SameCoils (t.judgeTop h m b q) := by
  unfold State.judgeTop
  dsimp only
  repeat' split
  all_goals simp (maxDischargeDepth := 20) [H]

theorem State.emptySlot_sameCoils {m : SlotIx} (H : s.SameCoils t) : s.SameCoils (t.emptySlot h m q) := by
  unfold State.emptySlot
  repeat' split
  all_goals simp (maxDischargeDepth := 20) [H]

theorem State.bindFeed_sameCoils (s : State) (h : HeadIx) (m : SlotIx) (r : Record) (b : StrandBody) (q : Record) :
    s.SameCoils (s.bindFeed h m r b q) := by
  have hbody (x : Record) : ((x.bindAs .inUse h (.feed m)).onStrand fun y => { y with fraction := 0 }).coilBody = x.coilBody := by
    rw [Record.onStrand_coilBody, Record.bindAs_coilBody]
  have H := State.judgeTop_sameCoils (h := h) (q := q) (m := m) (b := b)
    (State.updRec_sameCoils (j := q.tag) (f := fun x => x.appendSource ⟨r.tag, m, q.made, none⟩) (fun x => Record.appendSource_tag _ x)
      (fun x => Record.appendSource_coilBody _ x)
      (State.updSlot_sameCoils (k := h) (m := m) (f := fun x => { required := x.required, strand := some r.tag })
        (State.updRec_sameCoils (j := r.tag) (f := fun x => (x.bindAs .inUse h (.feed m)).onStrand fun y => { y with fraction := 0 })
          (fun x => (Record.onStrand_tag _ _).trans (Record.bindAs_tag _ _ _ x)) hbody (.refl s))))
  unfold State.bindFeed
  dsimp only
  split
  · exact H
  · exact State.dropHold_sameCoils H

theorem State.unbindFeed_sameCoils (s : State) (h : HeadIx) (m : SlotIx) (q : Record) : s.SameCoils (s.unbindFeed h m q) := by
  have H : s.SameCoils ((s.unbindSlot h .made q.made m).emptySlot h m q) :=
    State.emptySlot_sameCoils (State.unbindSlot_sameCoils (.refl s))
  unfold State.unbindFeed
  dsimp only
  split
  · exact State.addHold_sameCoils H
  · exact H

/-! ## Requests on heads -/

theorem State.OnlyMakes.with (M : s.OnlyMakes (s.names h)) (er : s.find tag = some r) (hk : r.kind ≠ .coil) (hr : ¬r.Settled) :
    s.OnlyMakes fun n => s.names h n ∨ n = tag where
  plain n x hn e := by
    rcases hn with hn | rfl
    · exact M.plain n x hn e
    · cases er.symm.trans e
      exact ⟨hk, hr⟩

theorem State.flawRises_segment (h : HeadIx) (s : State) : ((s.flawRises h).head h).segment = (s.head h).segment := by
  rw [State.flawRises_head]

theorem State.enterHeld_segment (h : HeadIx) (s : State) : ((s.enterHeld h).head h).segment = (s.head h).segment := by
  unfold State.enterHeld
  dsimp only
  split
  · rw [State.flawRises_segment, State.raise_head, State.updHead_head]
  · rw [State.raise_head, State.updHead_head]

theorem State.addHold_segment (h : HeadIx) (a : HoldReason) (s : State) : ((s.addHold h a).head h).segment = (s.head h).segment := by
  have hput : ((s.updHead h fun y => { y with holds := y.holds.put true a }).head h).segment = (s.head h).segment := by
    rw [State.updHead_head]
  unfold State.addHold
  dsimp only
  split
  · rfl
  · cases (s.head h).state
    case ready => exact (State.enterHeld_segment h _).trans hput
    case run => exact (State.enterHeld_segment h _).trans hput
    case stopped => exact (State.enterHeld_segment h _).trans hput
    all_goals exact hput

theorem State.bindFeed_segment (s : State) (h : HeadIx) (m : SlotIx) (r : Record) (b : StrandBody) (q : Record) :
    ((s.bindFeed h m r b q).head h).segment = (s.head h).segment := by
  have hbound : ((s.feedBound h m r q).head h).segment = (s.head h).segment := by
    rw [State.feedBound, State.updRec_head, State.updSlot_head]
    rfl
  have hjudged : (((s.feedBound h m r q).judgeTop h m b q).head h).segment = (s.head h).segment := by
    rw [State.judgeTop_head]
    split
    · exact hbound
    · exact hbound
  rw [State.bindFeed_eq]
  split
  · exact hjudged
  · rw [State.dropFeedShort_head]
    exact hjudged

theorem State.unbindFeed_segment (s : State) (h : HeadIx) (m : SlotIx) (q : Record) :
    ((s.unbindFeed h m q).head h).segment = (s.head h).segment := by
  have hslot : ((s.unbindSlot h .made q.made m).head h).segment = (s.head h).segment := by
    cases hs : ((s.head h).slot m).strand with
    | none => rw [State.unbindSlot_empty hs]
    | some k =>
      rw [State.unbindSlot_head_eq hs]
      rfl
  unfold State.unbindFeed
  dsimp only
  split
  · rw [State.addHold_segment, State.emptySlot_head]
    exact hslot
  · rw [State.emptySlot_head]
    exact hslot

/-- A binding request at a head that is no coiler: it changes records that `P` names, and no coil. -/
theorem State.CoilsOk.of_binding {P : Nat → Prop} (C : s.CoilsOk) (B : s.BindingsOk) (Bt : t.BindingsOk) (F : s.Frames P h t)
    (H : s.SameCoils t) (M : s.OnlyMakes P) (hseg : (t.head h).segment = none ∨ (t.head h).segment = (s.head h).segment)
    (hk : (s.head h).kind ≠ some .coiler) : t.CoilsOk := by
  refine C.of_frames B Bt F.1 F.2 H M ?_
  rcases hseg with hseg | hseg
  · rw [Head.named, hseg]
    rfl
  · rw [Head.named, hseg]
    exact B.no_coil hk

theorem answerBindProduct_coilsOk (T : s.TagsOk) (C : s.CoilsOk) (B : s.BindingsOk) : (answerBindProduct p n tag mk s).1.CoilsOk := by
  obtain ⟨Bt, -⟩ := answerBinds_bindingsOk (p := p) (n := n) (sl := 0) (tag := tag) (m := mk) B
  rcases answerBindProduct_cases p n tag mk s with e | ⟨h, r, k, rfl, er, hk, hr, -, hst, e⟩
  · rw [e]
    exact C
  · have F := answerBindProduct_frames (p := p) (h := h) (tag := tag) (m := mk) T
    rw [e] at Bt F ⊢
    have hcoiler : (s.head h).kind ≠ some .coiler := fun hc => by
      rw [hc] at hk
      cases hk
    have hcoil : r.kind ≠ .coil := fun hc => by
      rw [hr] at hc
      rw [hc] at hk
      obtain ⟨kd, -, hkd⟩ := Option.bind_eq_some_iff.mp hk
      cases kd <;> cases hkd
    have hloose : ¬r.Settled := fun hs => by
      have := hs.state
      rcases hst with hst | hst <;> rw [hst] at this <;> cases this
    refine C.of_binding B Bt F (State.change_sameCoils (State.bindProduct_sameCoils s h r))
      ((B.onlyMakes hcoiler).with er hcoil hloose) (.inl ?_) hcoiler
    rw [State.change_head, State.bindProduct_head]
    rfl

theorem answerBindFeed_coilsOk {sl : Nat} (T : s.TagsOk) (C : s.CoilsOk) (B : s.BindingsOk) :
    (answerBindFeed p n sl tag mk s).1.CoilsOk := by
  obtain ⟨-, -, Bt, -⟩ := answerBinds_bindingsOk (p := p) (n := n) (sl := sl) (tag := tag) (m := mk) B
  rcases answerBindFeed_cases p n sl tag mk s with e | ⟨h, r, b, k, q, rfl, er, hb, -, -, -, -, hq, e⟩
  · rw [e]
    exact C
  · have F := answerBindFeed_frames (p := p) (h := h) (slot := sl) (tag := tag) (m := mk) T
    rw [e] at Bt F ⊢
    have hcoiler : (s.head h).kind ≠ some .coiler := fun hc => by
      rw [State.productOf, (B.but h).product_none hc] at hq
      cases hq
    have hstrand : r.kind = .strand := by rw [Record.kind, hb]; rfl
    refine C.of_binding B Bt F (State.change_sameCoils (State.bindFeed_sameCoils s h k r b q))
      ((B.onlyMakes hcoiler).with er (by rw [hstrand]; nofun) fun hs => ?_) (.inr ?_) hcoiler
    · have := hs.kind
      rw [hstrand] at this
      cases this
    · rw [State.change_head, State.bindFeed_segment]

theorem answerUnbindFeed_coilsOk {sl : Nat} (T : s.TagsOk) (C : s.CoilsOk) (B : s.BindingsOk) :
    (answerUnbindFeed p n sl s).1.CoilsOk := by
  obtain ⟨-, -, -, Bt, -⟩ := answerBinds_bindingsOk (p := p) (n := n) (sl := sl) (tag := 0) (m := 0) B
  rcases answerUnbindFeed_cases p n sl s with e | ⟨h, k, q, rfl, -, hq, e⟩
  · rw [e]
    exact C
  · have F := answerUnbindFeed_frames (p := p) (h := h) (slot := sl) T
    rw [e] at Bt F ⊢
    have hcoiler : (s.head h).kind ≠ some .coiler := fun hc => by
      rw [State.productOf, (B.but h).product_none hc] at hq
      cases hq
    refine C.of_binding B Bt F (State.change_sameCoils (State.unbindFeed_sameCoils s h k q)) (B.onlyMakes hcoiler) (.inr ?_) hcoiler
    rw [State.change_head, State.unbindFeed_segment]

theorem answerRelease_coilsOk (T : s.Sound) (C : s.CoilsOk) (B : s.BindingsOk) : (answerRelease p n s).1.CoilsOk := by
  rcases answerRelease_cases p n s with e | ⟨h, rfl, e⟩ <;> rw [e]
  · exact C
  · by_cases hk : (s.head h).kind = some .coiler
    · exact State.change_coilsOk (State.releaseHead_coilsOk T.tags.store C B hk)
    · exact State.change_coilsOk (State.releaseHead_makerCoils T.tags C B hk)

theorem answerBindSource_coilsOk (T : s.Sound) (C : s.CoilsOk) (B : s.BindingsOk) : (answerBindSource p n tag mk s).1.CoilsOk := by
  rcases answerBindSource_cases p n tag mk s with e | ⟨h, r, rfl, er, hk, hr, hi, hst, e⟩ <;> rw [e]
  · exact C
  · exact State.change_coilsOk (State.bindSource_coilsOk T C B er hk hr hi hst)

theorem answerEnqueue_coilsOk {length count rule : Nat} (T : s.Sound) (C : s.CoilsOk) (B : s.BindingsOk) :
    (answerEnqueue p n length count rule s).1.CoilsOk := by
  rcases answerEnqueue_cases p n length count rule s with e | ⟨h, o, rfl, e⟩ <;> rw [e]
  · exact C
  · exact State.change_coilsOk (State.enqueue_coilsOk T C B)

theorem answerClearQueue_coilsOk (C : s.CoilsOk) : (answerClearQueue p n s).1.CoilsOk := by
  rcases answerClearQueue_cases p n s with e | ⟨h, rfl, e⟩ <;> rw [e]
  · exact C
  · refine C.updHead fun x => ?_
    rw [Head.winds, Head.winds, Head.clearQueue, Option.map_map]
    rfl

theorem answerSetHead_coilsOk (C : s.CoilsOk) : (answerSetHead p n l s).1.CoilsOk := by
  unfold answerSetHead
  split
  · exact C
  · split
    · exact C
    · split
      · exact C
      · exact C.updHead fun _ => rfl

end Sys2Proof.Machine
end

section
/-! PROOF. Every command keeps the law of the coils (O57). -/

namespace Sys2Proof.Machine

variable {g h k : HeadIx} {s t u : State} {r q x y z : Record} {c d : CoilBody} {j n rope tag e len m : Nat} {a : HoldReason}
  {i : Instr} {p : Port} {l : List Item} {v : Span} {mk : Mark}

/-! ## Requests on records -/

theorem answerCreate_coilsOk {kind : Nat} (C : s.CoilsOk) : (answerCreate p tag kind l s).1.CoilsOk := by
  rcases answerCreate_cases p tag kind l s with e | ⟨f, e⟩ | ⟨k, b, hb, hl, -, -, e⟩ <;> rw [e]
  · exact C
  · exact C.of_fields rfl rfl
  · exact State.change_coilsOk (State.enter_coilsOk C hl (freshBody_kind hb))

theorem answerAmend_coilsOk (C : s.CoilsOk) : (answerAmend p tag mk l s).1.CoilsOk := by
  rcases answerAmend_cases p tag mk l s with e | ⟨r, er, hk, e⟩ <;> rw [e]
  · exact C
  · exact State.change_coilsOk (State.amend_coilsOk C er hk)

theorem answerAddSpan_coilsOk {lo hi kind : Nat} (T : s.Sound) (C : s.CoilsOk) (B : s.BindingsOk) :
    (answerAddSpan p tag mk lo hi kind s).1.CoilsOk := by
  rcases answerAddSpan_cases p tag mk lo hi kind s with e | ⟨r, k, er, hk, -, -, -, e⟩ <;> rw [e]
  · exact C
  · obtain ⟨-, rfl⟩ := State.find_mem er
    exact State.change_coilsOk (State.addSpanTo_coilsOk T C B er hk _)

theorem answerConclude_coilsOk (C : s.CoilsOk) : (answerConclude p tag mk s).1.CoilsOk := by
  rcases answerConclude_cases p tag mk s with e | ⟨r, er, hk, hst, e⟩ <;> rw [e]
  · exact C
  · exact State.change_coilsOk (State.conclude_coilsOk C er hk hst)

theorem answerBand_coilsOk (C : s.CoilsOk) : (answerBand p tag mk s).1.CoilsOk := by
  rcases answerBand_cases p tag mk s with e | ⟨r, er, hk, -, e⟩ <;> rw [e]
  · exact C
  · exact State.change_coilsOk (State.bandCoil_coilsOk C er hk)

theorem answerRetire_coilsOk (C : s.CoilsOk) (B : s.BindingsOk) : (answerRetire p tag mk s).1.CoilsOk := by
  rcases answerRetire_cases p tag mk s with e | ⟨r, er, hst, e⟩ <;> rw [e]
  · exact C
  · exact State.change_coilsOk (State.retire_coilsOk C B er hst)

/-! ## Answers that leave records and heads -/

theorem answerLookup_coilsOk (C : s.CoilsOk) : (answerLookup tag s).1.CoilsOk := by
  unfold answerLookup
  split <;> exact C

theorem answerNext_coilsOk {after kind st : Nat} (C : s.CoilsOk) : (answerNext after kind st s).1.CoilsOk := by
  unfold answerNext
  split
  · split <;> exact C
  · exact C

theorem answerReadSpans_coilsOk (C : s.CoilsOk) : (answerReadSpans tag s).1.CoilsOk := by
  unfold answerReadSpans
  split
  · exact C
  · split <;> exact C

theorem answerReadSources_coilsOk {first : Nat} (C : s.CoilsOk) : (answerReadSources tag first s).1.CoilsOk := by
  unfold answerReadSources
  split
  · exact C
  · split
    · exact C
    · split
      · exact C
      · exact C.of_fields rfl rfl

theorem answerHeadStatus_coilsOk (C : s.CoilsOk) : (answerHeadStatus n s).1.CoilsOk := by
  unfold answerHeadStatus
  split <;> exact C.of_fields rfl rfl

theorem answerSetClock_coilsOk (C : s.CoilsOk) : (answerSetClock p n s).1.CoilsOk := by
  unfold answerSetClock
  split <;> exact C.of_fields rfl rfl

theorem answerReadEvents_coilsOk (C : s.CoilsOk) : (answerReadEvents p s).1.CoilsOk := by
  unfold answerReadEvents
  repeat' split
  all_goals exact C.of_fields rfl rfl

theorem answerClearEvents_coilsOk {w : FlagWord} (C : s.CoilsOk) : (answerClearEvents p w s).1.CoilsOk := by
  unfold answerClearEvents
  dsimp only
  split <;> exact C.of_fields rfl rfl

theorem answerSetDevice_coilsOk (C : s.CoilsOk) : (answerSetDevice p l s).1.CoilsOk := by
  unfold answerSetDevice
  split
  · exact C
  · split
    · exact C
    · refine foldl_invariant (P := State.CoilsOk) (fun t it Ct => ?_) l s C
      split
      · exact Ct.of_fields (State.writeDevice_store ..) (State.writeDevice_heads ..)
      · exact Ct

/-! ## Ticks and ports -/

theorem State.respond_coilsOk {body : List Byte} (C : s.CoilsOk) : (s.respond p body).CoilsOk := by
  cases p <;> exact C.of_fields rfl rfl

theorem State.takeRequest_coilsOk {answer : State → State × Reply} (C : s.CoilsOk) (ha : (answer s).1.CoilsOk) :
    (s.takeRequest p i answer).CoilsOk := by
  unfold State.takeRequest
  split
  · exact C
  · dsimp only
    split
    · exact State.respond_coilsOk ha
    · exact C

theorem State.tick_coilsOk {pins : Vector SensePins 16} (C : s.CoilsOk) : (s.tick pins).CoilsOk := by
  refine C.of_heads rfl fun k => ?_
  rw [State.tick_head]
  unfold Head.tick Head.sample
  split <;> rfl

theorem State.trimPeriod_coilsOk (C : s.CoilsOk) : s.trimPeriod.CoilsOk := by
  refine C.of_heads rfl fun k => ?_
  rw [State.trimPeriod_head]
  rfl

theorem State.afterReset_coilsOk (s : State) : s.afterReset.CoilsOk := by
  have hnone (n : Nat) : s.afterReset.find n = none := rfl
  refine .of_parts (fun n r c e => ?_) (fun n r c e => ?_) (fun n r c e => ?_)
  all_goals
    rw [hnone] at e
    cases e

theorem State.slotEnd_coilsOk {l : List LineByte} (C : s.CoilsOk) : (s.slotEnd l).CoilsOk := by
  unfold State.slotEnd
  dsimp only
  repeat' split
  all_goals exact C.of_fields rfl rfl

/-! ## Every command -/

theorem exec_other_coilsOk (hi : i.eventAt = none) (T : s.Sound) (B : s.BindingsOk) (C : s.CoilsOk) (e : exec i s = .next t) :
    t.CoilsOk := by
  cases i <;> cases hi <;> cases e
  case resetN => exact State.afterReset_coilsOk s
  case tick => exact State.tick_coilsOk C
  case trimPeriodStart => exact State.trimPeriod_coilsOk C
  case lookup => exact State.takeRequest_coilsOk C (answerLookup_coilsOk C)
  case nextRecord => exact State.takeRequest_coilsOk C (answerNext_coilsOk C)
  case readSpans => exact State.takeRequest_coilsOk C (answerReadSpans_coilsOk C)
  case readSources => exact State.takeRequest_coilsOk C (answerReadSources_coilsOk C)
  case create => exact State.takeRequest_coilsOk C (answerCreate_coilsOk C)
  case amend => exact State.takeRequest_coilsOk C (answerAmend_coilsOk C)
  case addSpan => exact State.takeRequest_coilsOk C (answerAddSpan_coilsOk T C B)
  case conclude => exact State.takeRequest_coilsOk C (answerConclude_coilsOk C)
  case band => exact State.takeRequest_coilsOk C (answerBand_coilsOk C)
  case retire => exact State.takeRequest_coilsOk C (answerRetire_coilsOk C B)
  case bindProduct => exact State.takeRequest_coilsOk C (answerBindProduct_coilsOk T.tags C B)
  case bindSource => exact State.takeRequest_coilsOk C (answerBindSource_coilsOk T C B)
  case bindFeed => exact State.takeRequest_coilsOk C (answerBindFeed_coilsOk T.tags C B)
  case unbindFeed => exact State.takeRequest_coilsOk C (answerUnbindFeed_coilsOk T.tags C B)
  case release => exact State.takeRequest_coilsOk C (answerRelease_coilsOk T C B)
  case enqueue => exact State.takeRequest_coilsOk C (answerEnqueue_coilsOk T C B)
  case clearQueue => exact State.takeRequest_coilsOk C (answerClearQueue_coilsOk C)
  case headStatus => exact State.takeRequest_coilsOk C (answerHeadStatus_coilsOk C)
  case setHead => exact State.takeRequest_coilsOk C (answerSetHead_coilsOk C)
  case setClock => exact State.takeRequest_coilsOk C (answerSetClock_coilsOk C)
  case readEvents => exact State.takeRequest_coilsOk C (answerReadEvents_coilsOk C)
  case clearEvents => exact State.takeRequest_coilsOk C (answerClearEvents_coilsOk C)
  case setDevice => exact State.takeRequest_coilsOk C (answerSetDevice_coilsOk C)
  case unknownRequest => exact State.takeRequest_coilsOk C C
  case panelSlotEnd => exact State.slotEnd_coilsOk C
  all_goals exact C.of_fields rfl rfl

/-- Every command keeps the law of the coils. -/
theorem exec_coilsOk (T : s.Sound) (B : s.BindingsOk) (C : s.CoilsOk) (e : exec i s = .next t) : t.CoilsOk := by
  cases hi : i.eventAt with
  | some h => exact exec_event_coilsOk hi T B C e
  | none => exact exec_other_coilsOk hi T B C e

/-- The laws of the records, the bindings and the coils together. -/
structure State.WellWound (s : State) : Prop where
  sound : s.Sound
  bindings : s.BindingsOk
  coils : s.CoilsOk

theorem State.WellWound.of_fields (W : s.WellWound) (hs : t.store = s.store) (hh : t.heads = s.heads) (hp : t.coilPrefix = s.coilPrefix)
    (hn : t.coilSerial = s.coilSerial) : t.WellWound :=
  ⟨W.sound.of_eq hs hp hn, W.bindings.of_fields hs hh, W.coils.of_fields hs hh⟩

/-- Settles O57: with the laws of the records and the bindings, the law of the coils is kept by every command. -/
theorem stepKeepsCoilGrades : Obligations.StepKeepsCoilGrades := by
  intro s t S P R B C e
  have W : t.WellWound := step_induction (P := State.WellWound) (fun _ _ W => W.of_fields rfl rfl rfl rfl)
    (fun _ W => W.of_fields rfl rfl rfl rfl)
    (fun _ _ _ W e => ⟨exec_sound W.sound e, exec_bindingsOk W.bindings e, exec_coilsOk W.sound W.bindings W.coils e⟩)
    ⟨⟨⟨S, P⟩, R⟩, B, C⟩ e
  exact W.coils

end Sys2Proof.Machine
end

section
/-! PROOF. What FLAW does as a coiler leaves the running states (R98 to R100, R162, R163), after work at the coiler that leaves the
other coils alone. -/

namespace Sys2Proof.Machine

variable {g h k : HeadIx} {s t u w f : State} {r q x y z : Record} {c : CoilBody} {b : RopeBody} {j rope p : Nat} {l : List Span} {v : Head}
  {n : Span}

/-- From `s` to `u` the work at coiler `h` altered its rope and the coil of its segment alone, and no span of the rope. -/
structure State.Prepares (h : HeadIx) (rope : Nat) (s u : State) : Prop where
  records : ∀ j, j ≠ rope → (s.head h).named .segment ≠ some j → u.find j = s.find j
  spans : u.spansOf rope = s.spansOf rope
  others : ∀ g, g ≠ h → u.head g = s.head g
  tags : u.store.map Record.tag = s.store.map Record.tag
  clock : u.clock = s.clock

/-- The ranges by which the other coils are judged stay. -/
theorem State.Prepares.judgedRange (P : s.Prepares h rope u) (B : s.BindingsOk) (C : s.CoilsOk) (Bu : u.BindingsOk)
    (hs : (u.head h).source = some rope) (e : s.find y.tag = some y) (hc : y.body = .coil c)
    (hn : (s.head h).named .segment ≠ some y.tag) : u.judgedRange y c = s.judgedRange y c := by
  by_cases hst : y.state = .winding
  · obtain ⟨-, hwinds⟩ := C.windsCoil e ⟨hc, hst⟩
    have hhead := hwinds.winds
    simp only [Head.winds, Prod.mk.injEq, Option.map_eq_some_iff] at hhead
    obtain ⟨-, sg, hsg, hcoil, -⟩ := hhead
    have hg : c.origin ≠ h := fun hg => hn (by rw [Head.named, ← hg, hsg]; exact hcoil)
    have hreach : (u.head c.origin).reach = (s.head c.origin).reach := by rw [P.others _ hg]
    refine State.judgedRange_congr c hreach (State.sourceEnd_congr hreach fun k hk => ?_) y
    rw [P.records k (fun hk' => ?_) fun hk' => ?_]
    · rw [hk'] at hk
      exact (Bu.sourceApart h).apart c.origin rope hg (by rw [P.others _ hg]; exact hk) hs
    · obtain ⟨a, -, ea, ha, -⟩ := B.named c.origin .source k hk
      obtain ⟨a', -, ea', ha', -⟩ := B.named h .segment k hk'
      cases ea.symm.trans ea'
      cases ha.symm.trans ha'
  · rw [State.judgedRange_eq, State.judgedRange_eq, if_neg hst, if_neg hst]

theorem State.reachesBanded_iff (S : s.StoreOk) : s.reachesBanded rope n = true ↔
    ∃ y c, s.find y.tag = some y ∧ y.body = .coil c ∧ c.belongs = true ∧ c.sourceRope = rope ∧ y.state = .banded ∧
      reachesRange n (s.spansOf rope) c.lo c.hi = true := by
  rw [State.reachesBanded, List.any_eq_true]
  constructor
  · rintro ⟨y, hy, hreach⟩
    cases hb : y.body with
    | coil c =>
      simp only [hb, Bool.and_eq_true, decide_eq_true_eq] at hreach
      obtain ⟨⟨⟨hbel, hrope⟩, hst⟩, hrange⟩ := hreach
      exact ⟨y, c, S.find_of_mem hy, hb, hbel, hrope, hst, hrange⟩
    | strand d => simp [hb] at hreach
    | rope d => simp [hb] at hreach
    | panel d => simp [hb] at hreach
  · rintro ⟨y, c, e, hb, hbel, hrope, hst, hrange⟩
    refine ⟨y, (State.find_mem e).1, ?_⟩
    simp [hb, hbel, hrope, hst, hrange]

/-- A BANDED coil that the span reaches is reached after the work too. -/
theorem State.Prepares.reachesBanded (P : s.Prepares h rope u) (S : s.StoreOk) (B : s.BindingsOk) (hr : s.find rope = some r)
    (hk : r.kind = .rope) (hreach : s.reachesBanded rope n = true) : u.reachesBanded rope n = true := by
  have Su : u.StoreOk := S.of_tags P.tags
  obtain ⟨y, c, e, hc, hbel, hrope, hst, hrange⟩ := (State.reachesBanded_iff S).mp hreach
  refine (State.reachesBanded_iff Su).mpr ⟨y, c, ?_, hc, hbel, hrope, hst, by rw [P.spans]; exact hrange⟩
  rw [P.records y.tag (fun hy => ?_) fun hy => ?_, e]
  · rw [hy, hr] at e
    cases e
    rw [Record.kind_coil hc] at hk
    cases hk
  · obtain ⟨a, -, ea, ha, -⟩ := B.named h .segment y.tag hy
    cases e.symm.trans ea
    have := (B.tied _ _ e).held _ _ ha
    rw [hst] at this
    cases this

theorem State.KeepsNotices.downgrade (N : s.KeepsNotices t) (H : s.NotesDowngrade h) : t.NotesDowngrade h :=
  ⟨N.flags _ H.1, N.causes h .coilDowngraded H.2⟩

theorem State.Judges.of_store (a : s.Judges rope l t y c) (hs : u.store = t.store) (N : t.KeepsNotices u) : s.Judges rope l u y c := by
  unfold State.Judges at a ⊢
  split at a
  · next hcond =>
    rw [if_pos hcond, State.find_of_store hs]
    obtain ⟨hfind, hnote⟩ := a
    exact ⟨hfind, N.downgrade hnote⟩
  · next hcond =>
    rw [if_neg hcond, State.find_of_store hs]
    exact a

/-- The work of coiler `h` after it has left the running states at unwind position `p`: from `f` to `w` it altered its rope and the coil
of its segment alone, and no span of the rope; what was raised stays raised to `t`, which is the change from `s`. -/
structure State.Leaves (h : HeadIx) (rope : Nat) (s f w t : State) : Prop where
  records : ∀ j, j ≠ rope → (s.head h).named .segment ≠ some j → w.find j = f.find j
  clock : w.clock = s.clock
  store : t.store = (s.commit w).store
  notices : f.KeepsNotices t

theorem State.flawAtLeaving_low (hlow : (s.head h).flawHigh = false ∨ (s.head h).flawRise = none) (p : Nat) : s.flawAtLeaving h p = s := by
  unfold State.flawAtLeaving
  split
  next hh =>
    rcases hlow with e | e
    · rw [hh] at e
      cases e
    · unfold State.coilerFlawFall
      rw [e]
  · rfl

/-- A BANDED coil that the flaw span reaches raises BANDED_FLAW (R163). -/
theorem State.coilerFlawFall_banded {pr : Nat} (hrise : (s.head h).flawRise = some pr) (hs : s.sourceOf h = some (r, b))
    (hreach : s.reachesBanded r.tag (coilerFlaw b.piece.made (s.head h).settings.guardMargin pr p) = true) :
    (s.coilerFlawFall h p).flagged h .alarm = true ∧ ((s.coilerFlawFall h p).attn.causesOf h).bandedFlaw = true := by
  unfold State.coilerFlawFall
  rw [hrise, hs]
  dsimp only
  rw [closed_flawInterval, if_pos hreach]
  exact ⟨State.raiseAlarm_flagged .., State.raiseAlarm_has _ h .bandedFlaw⟩

theorem State.updHead_spansOf (s : State) (h : HeadIx) (f : Head → Head) (j : Nat) : (s.updHead h f).spansOf j = s.spansOf j := rfl

/-- What the flaw span does to a coil that is not the segment's. -/
theorem State.Leaves.judges (P : s.Prepares h rope u) (L : s.Leaves h rope f w t) (hj : u.judgedRange y c = s.judgedRange y c) (er : s.find rope = some q) (hq : q.kind = .rope) {t' : State} (hf : ∀ j, f.find j = t'.find j)
    (hattn : f.attn = t'.attn) (e : s.find y.tag = some y) (hc : y.body = .coil c) (hn : (s.head h).named .segment ≠ some y.tag)
    (a : u.Regrades rope l t' y c) : s.Judges rope l t y c := by
  have hne : y.tag ≠ rope := fun hy => by
    rw [hy, er] at e
    cases e
    rw [Record.kind_coil hc] at hq
    cases hq
  have hfind : ({ w with attn := t.attn } : State).find y.tag = t'.find y.tag := (L.records _ hne hn).trans (hf _)
  have hgrade : s.Regrades rope l { w with attn := t.attn } y c := by
    unfold State.Regrades at a ⊢
    rw [P.spans, hj] at a
    rw [hfind]
    split
    next hcond =>
      rw [if_pos hcond] at a
      obtain ⟨ha, hnote⟩ := a
      exact ⟨ha, (State.KeepsNotices.of_attn (s := t') (t := f) hattn |>.trans L.notices).downgrade hnote⟩
    next hcond =>
      rw [if_neg hcond] at a
      exact a
  have hjudge := State.Regrades.judges (f := fun _ => ({ w with attn := t.attn } : State)) e hc L.clock hgrade
  exact hjudge.of_store L.store (.of_attn rfl)

/-- What FLAW does as a coiler leaves the running states at unwind position `p` (R100). -/
theorem State.Prepares.flawLeaves (P : s.Prepares h r.tag u) (S : s.StoreOk) (B : s.BindingsOk)
    (J : ∀ z c, s.find z.tag = some z → z.body = .coil c → (s.head h).named .segment ≠ some z.tag → u.judgedRange z c = s.judgedRange z c)
    (hr : s.find r.tag = some q) (hk : q.kind = .rope) (hs : u.sourceOf h = some (y, b)) (hy : y.tag = r.tag)
    (hhigh : (u.head h).flawHigh = v.flawHigh) (hrise : (u.head h).flawRise = v.flawRise)
    (hset : (u.head h).settings = v.settings) (L : s.Leaves h r.tag (u.flawAtLeaving h p) w t)
    (hl : (u.flawAtLeaving h p).spansOf r.tag = l) : s.FlawLeaves h v r b p l t := by
  obtain ⟨ey, hb⟩ := State.sourceOf_find hs
  have Su : u.StoreOk := S.of_tags P.tags
  have hspans : u.spansOf y.tag = b.piece.spans := State.spansOf_rope ey hb
  have hfall (hh : v.flawHigh = true) : u.flawAtLeaving h p = u.coilerFlawFall h p := if_pos (hhigh.trans hh)
  refine ⟨fun hlow => ?_, fun pr hh hp hm => ?_, fun pr hh hp hm z c e hc hn => ?_, fun pr hh hp hreach => ?_⟩
  · rw [State.flawAtLeaving_low (by rw [hhigh, hrise]; exact hlow), ← hy, hspans] at hl
    exact hl.symm
  · obtain ⟨t', A, -, heq⟩ := State.coilerFlawFall_adds Su (hrise.trans hp) hs hm p
    rw [← hl, hfall hh, heq, State.updHead_spansOf, ← hy, A.spansOf hb rfl, hset]
  · obtain ⟨t', A, -, heq⟩ := State.coilerFlawFall_adds Su (hrise.trans hp) hs hm p
    have hne : z.tag ≠ r.tag := fun hz => by
      rw [hz, hr] at e
      cases e
      rw [Record.kind_coil hc] at hk
      cases hk
    have hold : u.find z.tag = some z := (P.records _ hne hn).trans e
    have hnorm : l = (normalize (coilerFlaw b.piece.made (u.head h).settings.guardMargin pr p) b.piece.spans).1 := by
      rw [← hl, hfall hh, heq, State.updHead_spansOf, ← hy, A.spansOf hb rfl]
    have hgrade := A.coils z c hold hc
    rw [← hnorm, hy] at hgrade
    refine L.judges P (J z c e hc hn) hr hk (t' := t') (fun j => ?_) ?_ e hc hn hgrade
    · rw [hfall hh, heq]
      rfl
    · rw [hfall hh, heq]
      rfl
  · obtain ⟨hflag, hcause⟩ := State.coilerFlawFall_banded (p := p) (hrise.trans hp) hs
      (by rw [hy, hset]; exact P.reachesBanded S B hr hk hreach)
    rw [← hfall hh] at hflag hcause
    exact ⟨L.notices.flags _ hflag, L.notices.causes h .bandedFlaw hcause⟩

end Sys2Proof.Machine
end

section
/-! PROOF. What a plan point leaves, as `State.Plans` has it (R153 to R157, R164). -/

namespace Sys2Proof.Machine

variable {g h k : HeadIx} {s t u w f : State} {r q x y z : Record} {c : CoilBody} {b : RopeBody} {j rope p len : Nat} {l : List Span} {v : Head}
  {n : Span} {m : Mark} {gr : Grade} {short : Bool} {a : HoldReason} {e : Nat}

/-! ## The rope of a coiler through FLAW -/

/-- From `y` to `z` the rope may have gained spans. -/
structure Record.GainsSpans (b : RopeBody) (y z : Record) : Prop where
  body : ∃ l, z.body = .rope { b with piece := { b.piece with spans := l } }
  state : z.state = y.state
  bound : z.bound = y.bound

theorem Record.GainsSpans.refl (hb : y.body = .rope b) : y.GainsSpans b y := ⟨⟨b.piece.spans, hb⟩, rfl, rfl⟩

theorem Record.spanAdded_gains (hb : y.body = .rope b) (n : Span) : y.GainsSpans b (y.spanAdded n b.piece) :=
  ⟨⟨_, Record.spanAdded_rope hb⟩, rfl, rfl⟩

theorem State.flawAtLeaving_rope (S : s.StoreOk) (hs : s.sourceOf h = some (r, b)) (p : Nat) :
    ∃ z, (s.flawAtLeaving h p).find r.tag = some z ∧ r.GainsSpans b z := by
  obtain ⟨er, hb⟩ := State.sourceOf_find hs
  unfold State.flawAtLeaving
  split
  · unfold State.coilerFlawFall
    rw [hs]
    split
    next pr r' b' _ hs' =>
      cases hs'
      dsimp only
      generalize flawInterval b.piece.made (s.head h).settings.guardMargin pr p = i
      have hadded : ∃ z, (if i.1 < i.2 then s.addRopeSpan r.tag (Span.closed i.1 i.2 (KindSet.only .flaw)) else s).find r.tag = some z ∧
          r.GainsSpans b z := by
        split
        · exact ⟨_, (State.addRopeSpan_adds S er hb _).rope, Record.spanAdded_gains hb _⟩
        · exact ⟨r, er, .refl hb⟩
      split
      · exact hadded
      · exact hadded
    · exact ⟨r, er, .refl hb⟩
  · exact ⟨r, er, .refl hb⟩

theorem State.flawAtLeaving_rest (S : s.StoreOk) (h : HeadIx) (p : Nat) :
    s.KeepsNotices (s.flawAtLeaving h p) ∧ (s.flawAtLeaving h p).clock = s.clock := by
  unfold State.flawAtLeaving
  split
  · unfold State.coilerFlawFall
    split
    next pr r b _ hs =>
      obtain ⟨er, hb⟩ := State.sourceOf_find hs
      dsimp only
      generalize flawInterval b.piece.made (s.head h).settings.guardMargin pr p = i
      have hadded : s.KeepsNotices (if i.1 < i.2 then s.addRopeSpan r.tag (Span.closed i.1 i.2 (KindSet.only .flaw)) else s) ∧
          (if i.1 < i.2 then s.addRopeSpan r.tag (Span.closed i.1 i.2 (KindSet.only .flaw)) else s).clock = s.clock := by
        split
        · have A := State.addRopeSpan_adds S er hb (Span.closed i.1 i.2 (KindSet.only .flaw))
          exact ⟨(A.carries h).notices, A.clock⟩
        · exact ⟨.refl s, rfl⟩
      generalize (if i.1 < i.2 then s.addRopeSpan r.tag (Span.closed i.1 i.2 (KindSet.only .flaw)) else s) = t at hadded
      obtain ⟨hnotices, hclock⟩ := hadded
      split
      · exact ⟨hnotices.trans ((State.raiseAlarm_notices t h .bandedFlaw).trans (.of_attn rfl)), hclock⟩
      · exact ⟨hnotices.trans (.of_attn rfl), hclock⟩
    · exact ⟨.refl s, rfl⟩
  · exact ⟨.refl s, rfl⟩

/-! ## The machine that a plan point finds -/

/-- What a plan point goes by and what it sets at a head. -/
abbrev Head.plans (x : Head) := (x.queue, x.runHigh, x.holds, x.state, x.segment, x.settings, x.flawHigh, x.flawRise)

/-- In a change from `s`, coiler `h` is about its plan point in `u`: the head stands as `v`, its source as `r` with the fields
`b` once its mark has been taken, and the rope's mark where it ends is `m`. -/
structure State.Planning (h : HeadIx) (r : Record) (b : RopeBody) (v : Head) (m : Mark) (s u : State) : Prop where
  rope : ∃ q y, s.find r.tag = some q ∧ u.find r.tag = some y ∧ q.kind = .rope ∧ q.state ≠ .spent ∧ q.mark + 1 = m ∧ y.body = .rope b ∧
    y.state ≠ .making ∧ Record.stepMark s.clock.seconds q y = { r with body := .rope b }
  source : (u.head h).source = some r.tag
  kind : (u.head h).kind = some .coiler
  plans : (u.head h).plans = v.plans
  prefixes : u.coilPrefix = s.coilPrefix
  serial : u.coilSerial = s.coilSerial
  state : v.state = .ready ∨ v.state = .held ∨ v.state = .cutting

/-- The counts of head `h` are fresh (R154). -/
structure State.FreshAt (h : HeadIx) (u : State) : Prop where
  unplanned : (u.head h).unplanned = 0
  pitch : (u.head h).pitchFraction = 0

theorem State.Planning.sourceOf (H : s.Planning h r b v m u) : ∃ y, u.sourceOf h = some (y, b) ∧ y.tag = r.tag := by
  obtain ⟨q, y, -, ey, -, -, -, hb, -⟩ := H.rope
  refine ⟨y, ?_, (State.find_mem ey).2⟩
  rw [State.sourceOf, H.source, Option.bind_some, ey, Option.bind_some, hb]

/-- The rope of a plan point that goes on keeps its mark. -/
theorem State.Planning.kept (H : s.Planning h r b v m u) (hw : w.find r.tag = u.find r.tag) (hc : w.clock = s.clock)
    (ht : t.store = (s.commit w).store) : t.find r.tag = some { r with body := .rope b } := by
  obtain ⟨q, y, er, ey, -, -, -, -, -, hmark⟩ := H.rope
  rw [State.find_of_store ht, State.commit_find, hw, ey, Option.map_some, er, hc]
  exact congrArg some hmark

/-! ## A plan point that ends the rope -/

/-- The head of a coiler whose rope has ended (R164). -/
def Head.ropeDone (x : Head) : Head :=
  { x with state := .done, holds := {}, source := none, segment := none, unplanned := 0, flawRise := none }

theorem State.endRope_eq (s : State) (h : HeadIx) (rope : Nat) : s.endRope h rope =
    ((((s.flawAtLeaving h 0).updRec rope fun r => r.unbindTo .spent).updHead h Head.ropeDone).raise h .state).raise h .coil := rfl

/-- A change that ends the rope at its plan point (R64, R100, R164). -/
theorem State.Planning.plans_end {g : State → State} (H : s.Planning h r b v m u) (F : u.FreshAt h) (P : s.Prepares h r.tag u) (S : s.StoreOk)
    (Bu : s.BindingsOk → u.BindingsOk) (he : b.currentEnd = 0) (hg : g s = u.endRope h r.tag) : s.Plans h r b v m (s.change g) := by
  have Su : u.StoreOk := S.of_tags P.tags
  obtain ⟨y, hs, hy⟩ := H.sourceOf
  obtain ⟨z, hz, ⟨l, hbody⟩, hstate, hbound⟩ := State.flawAtLeaving_rope Su hs 0
  obtain ⟨hnotices, hclock⟩ := State.flawAtLeaving_rest Su h 0
  obtain ⟨rise, hhead⟩ := State.flawAtLeaving_head h 0 u
  rw [State.endRope_eq] at hg
  have hplans := H.plans
  obtain ⟨q, y', er, ey, hk, hq, hm, hb, hmaking, -⟩ := H.rope
  have hyy : y' = y := Option.some.inj (ey.symm.trans (hy ▸ (State.sourceOf_find hs).1))
  subst hyy
  rw [hy] at hz
  simp only [Head.plans, Prod.mk.injEq] at hplans
  obtain ⟨hqueue, hrun, hholds, hst, hseg, hset, hhigh, hrise⟩ := hplans
  generalize hf1 : u.flawAtLeaving h 0 = f1 at hg hz hnotices hclock hhead
  have hhead1 : f1.head h = { u.head h with flawRise := rise } := (hhead h).trans (if_pos rfl)
  have hthead : (s.change g).head h = ({ u.head h with flawRise := rise } : Head).ropeDone := by
    rw [State.change_head, hg, State.raise_head, State.raise_head, State.updHead_head, ← hhead1]
    rfl
  have hplain : z.unbindTo .spent = { z with state := .spent, bound := none, boundFrom := none } :=
    Record.unbindTo_plain (by rw [hstate]; exact hmaking)
  have hgfind : (g s).find r.tag = some { z with state := .spent, bound := none, boundFrom := none } := by
    rw [hg, ← hplain]
    exact (State.find_updRec (Record.unbindTo_tag .spent)).trans (by rw [hz, Option.map_some])
  have hgclock : (g s).clock = s.clock := by
    rw [hg]
    exact hclock.trans P.clock
  have hfind : (s.change g).find r.tag = some { z with state := .spent, bound := none, boundFrom := none, mark := m, changed := s.clock.seconds } := by
    rw [State.change, State.commit_find, hgfind, Option.map_some, er, hgclock]
    dsimp only
    have hne : q.counted ≠ ({ z with state := .spent, bound := none, boundFrom := none } : Record).counted := fun hc =>
      hq (congrArg Counted.state hc)
    rw [Record.stepMark_step hne, hm]
  have hflags : f1.KeepsNotices (s.change g) ∧ (s.change g).flagged h .state = true ∧ (s.change g).flagged h .coil = true := by
    rw [State.flagged, State.flagged]
    have hattn : (s.change g).attn = (g s).attn := rfl
    generalize hw : ((f1.updRec r.tag fun r => r.unbindTo .spent).updHead h Head.ropeDone) = w at hg
    have hwf : f1.KeepsNotices w := .of_attn (by rw [← hw]; rfl)
    have hstate := State.raise_flagged w h .state
    have hcoil := State.raise_flagged (w.raise h .state) h .coil
    have N := State.raise_notices (w.raise h .state) h .coil
    rw [hattn, hg]
    exact ⟨(hwf.trans ((State.raise_notices w h .state).trans N)).trans (.of_attn (hattn.trans (by rw [hg]))), N.flags _ hstate, hcoil⟩
  obtain ⟨hkeeps, hflagState, hflagCoil⟩ := hflags
  have hpos : ¬0 < b.currentEnd := by omega
  refine ⟨by rw [hthead]; rfl, by rw [hthead]; exact F.pitch, by rw [hthead]; exact hqueue, by rw [hthead]; exact hrun, fun _ => ?_,
    fun _ h => absurd h hpos, fun h => absurd h hpos, fun _ _ _ h => absurd h hpos⟩
  refine ⟨_, { b with piece := { b.piece with spans := l } }, hfind, hbody, rfl, rfl, rfl, rfl, rfl, rfl, by rw [hthead]; rfl, by rw [hthead]; rfl,
    by rw [hthead]; rfl, by rw [hthead]; rfl, hflagState, hflagCoil, fun B C => ?_⟩
  have L : s.Leaves h r.tag (u.flawAtLeaving h 0) (g s) (s.change g) := by
    refine ⟨fun j hj _ => ?_, hgclock, rfl, by rw [hf1]; exact hkeeps⟩
    rw [hg, hf1]
    exact State.find_updRec_ne (Record.unbindTo_tag .spent) hj
  refine P.flawLeaves S B (fun z c e hc hn => P.judgedRange B C (Bu B) H.source e hc hn) er hk hs hy hhigh hrise hset L ?_
  rw [hf1]
  exact State.spansOf_rope hz hbody

end Sys2Proof.Machine
end

section
/-! PROOF. What a plan point at a current end above 0 leaves, as `State.Plans` has it (R155 to R157). -/

namespace Sys2Proof.Machine

variable {h k : HeadIx} {s t u w f : State} {r q x y z : Record} {c : CoilBody} {b : RopeBody} {j rope p len n : Nat} {l : List Span} {v : Head}
  {m : Mark} {gr : Grade} {short : Bool} {a : HoldReason} {e : Nat} {g : State → State}

theorem State.live_eq_false_iff_tags : s.live n = false ↔ n ∉ s.store.map Record.tag := by
  rw [State.live_eq_false, List.mem_map]
  exact ⟨fun h ⟨r, hr, e⟩ => h r hr e, fun h r hr e => h ⟨r, hr, e⟩⟩

theorem State.live_of_tags (ht : u.store.map Record.tag = s.store.map Record.tag) : u.live = s.live := by
  funext n
  have key : u.live n = false ↔ s.live n = false := by rw [State.live_eq_false_iff_tags, State.live_eq_false_iff_tags, ht]
  cases hs : s.live n with
  | false => exact key.mpr hs
  | true =>
    rw [← Bool.not_eq_false, key, hs]
    simp

theorem Head.planned_state {x : Head} (hst : x.state = .ready ∨ x.state = .held ∨ x.state = .cutting) :
    x.planned.state = if x.state = .ready then .ready else if x.runHigh then .run else .stopped := by
  rcases hst with e | e | e <;> simp [Head.planned, Head.byRun, e]

theorem State.waiter_state (hst : (s.head h).state = .ready ∨ (s.head h).state = .held ∨ (s.head h).state = .cutting) (a : HoldReason) :
    (s.waiter h a).state = .held := by
  rcases hst with e | e | e <;> simp [State.waiter, e]

/-- What `State.Plans` says of a plan point that waits. -/
theorem State.Planning.waits (H : s.Planning h r b v m u) (P : s.Prepares h r.tag u) (W : u.PlanWaits h a w) (hg : g s = w) :
    (s.change g).find r.tag = some { r with body := .rope b } ∧
      ((s.change g).head h).holds = v.holds.waiting (some a) ∧ ((s.change g).head h).state = .held ∧
      ((s.change g).head h).segment = v.segment ∧ (s.change g).coilSerial = s.coilSerial ∧
      (v.state ≠ .held → (s.change g).flagged h .state = true) := by
  have hplans := H.plans
  simp only [Head.plans, Prod.mk.injEq] at hplans
  obtain ⟨hqueue, hrun, hholds, hst, hseg, hset, hhigh, hrise⟩ := hplans
  have hhead : (s.change g).head h = u.waiter h a := by rw [State.change_head, hg, W.same]
  have hfind : (s.change g).find r.tag = some { r with body := .rope b } :=
    H.kept (w := w) (State.find_of_store W.store _) (W.clock.trans P.clock) (by rw [← hg]; rfl)
  refine ⟨hfind, ?_, ?_, ?_, ?_, fun hne => ?_⟩
  · rw [hhead, ← hholds]
    rfl
  · rw [hhead]
    exact State.waiter_state (by rw [hst]; exact H.state) a
  · rw [hhead]
    exact hseg
  · rw [State.change_coilSerial, hg, W.serial, H.serial]
  · rw [State.flagged, State.change_attn, hg]
    refine W.held ?_
    rw [hst]
    rcases H.state with e | e | e
    · exact .inl e
    · exact absurd e hne
    · exact .inr e

/-- What `State.Plans` says of a head after a plan point that made a segment. -/
theorem State.Planning.leaves (H : s.Planning h r b v m u) (P : s.Prepares h r.tag u) (hfind : w.find r.tag = u.find r.tag)
    (hclock : w.clock = u.clock) (hhead : ∃ sg, w.head h = { u.head h with segment := sg }) (hg : g s = w.planMade h) :
    (s.change g).find r.tag = some { r with body := .rope b } ∧
      ((s.change g).head h).holds = v.holds.waiting none ∧
      ((s.change g).head h).state = if v.state = .ready then .ready else if v.runHigh then .run else .stopped := by
  have hplans := H.plans
  simp only [Head.plans, Prod.mk.injEq] at hplans
  obtain ⟨hqueue, hrun, hholds, hst, hseg, hset, hhigh, hrise⟩ := hplans
  obtain ⟨sg, hsg⟩ := hhead
  have hsame : (s.change g).head h = ({ u.head h with segment := sg } : Head).planned := by
    rw [State.change_head, hg, State.planMade_same, hsg]
  have hkept : (s.change g).find r.tag = some { r with body := .rope b } :=
    H.kept (w := w.planMade h) hfind (hclock.trans P.clock) (by rw [← hg]; rfl)
  refine ⟨hkept, ?_, ?_⟩
  · rw [hsame, ← hholds]
    rfl
  · rw [hsame, Head.planned_state (by dsimp only; rw [hst]; exact H.state)]
    simp only [hst, hrun]

theorem State.CreatesCoil.serial_of_tags (K : u.CreatesCoil h c n w) (P : s.Prepares h rope u) (H : s.Planning h r b v m u) :
    findSerial s.live s.coilPrefix 256 s.coilSerial = some n := by
  have hserial := K.serial
  rw [State.live_of_tags P.tags, H.prefixes, H.serial] at hserial
  exact hserial

theorem State.length_of_tags (ht : u.store.map Record.tag = s.store.map Record.tag) : u.store.length = s.store.length := by
  have := congrArg List.length ht
  rw [List.length_map, List.length_map] at this
  exact this

/-- In a store with a free place a planned coil is created (R152, R156). -/
theorem State.createCoil_some (S : s.StoreOk) (T : s.CoilTagsOk) (hroom : s.store.length < 256) :
    ∃ t, s.createCoil h rope e len gr short = some t := by
  obtain ⟨-, hsearch⟩ := planDecision
  obtain ⟨n, hn, -⟩ := hsearch s S T hroom
  unfold State.createCoil
  rw [if_neg (by rw [storeCap]; omega)]
  have hn' : findSerial s.live s.coilPrefix storeCap s.coilSerial = some n := hn
  rw [hn']
  exact ⟨_, rfl⟩

/-- What every plan point above 0 leaves at the head. -/
structure State.KeepsPlan (h : HeadIx) (v : Head) (t : State) : Prop where
  unplanned : (t.head h).unplanned = 0
  pitch : (t.head h).pitchFraction = 0
  queue : (t.head h).queue = v.queue
  run : (t.head h).runHigh = v.runHigh

theorem State.Planning.keepsPlan (H : s.Planning h r b v m u) (F : u.FreshAt h) (hw : (w.head h).unplanned = (u.head h).unplanned)
    (hp : (w.head h).pitchFraction = (u.head h).pitchFraction) (hq : (w.head h).queue = (u.head h).queue)
    (hr : (w.head h).runHigh = (u.head h).runHigh) : w.KeepsPlan h v := by
  have hplans := H.plans
  simp only [Head.plans, Prod.mk.injEq] at hplans
  obtain ⟨hqueue, hrun, -⟩ := hplans
  exact ⟨hw.trans F.unplanned, hp.trans F.pitch, hq.trans hqueue, hr.trans hrun⟩

theorem State.Planning.keepsPlan_waits (H : s.Planning h r b v m u) (F : u.FreshAt h) (W : u.PlanWaits h a w) : w.KeepsPlan h v := by
  refine H.keepsPlan F ?_ ?_ ?_ ?_
  all_goals
    rw [W.same]
    rfl

theorem State.Planning.keepsPlan_made (H : s.Planning h r b v m u) (F : u.FreshAt h) (hhead : ∃ sg, w.head h = { u.head h with segment := sg }) :
    (w.planMade h).KeepsPlan h v := by
  obtain ⟨sg, hsg⟩ := hhead
  refine H.keepsPlan F ?_ ?_ ?_ ?_
  all_goals
    rw [State.planMade_same, hsg]
    rfl

/-- A plan point without an order (R157). -/
theorem State.Planning.plans_noOrder (H : s.Planning h r b v m u) (F : u.FreshAt h) (P : s.Prepares h r.tag u) (he : 0 < b.currentEnd)
    (hp : planSegment v.settings.minCoil b.currentEnd v.queue b.piece.spans = .noOrder) (hg : g s = u.planWaits h .queueEmpty) :
    s.Plans h r b v m (s.change g) := by
  have W := State.planWaits_waits H.kind .queueEmpty
  have K := H.keepsPlan_waits F W
  rw [← hg] at K
  refine ⟨K.unplanned, K.pitch, K.queue, K.run, fun h0 => absurd h0 (by omega), fun n _ hn => ?_, fun _ _ => H.waits P W hg, fun n gr short _ hn => ?_⟩
  all_goals
    rw [hp] at hn
    cases hn

/-- A plan point that plans waste (R155). -/
theorem State.Planning.plans_waste (H : s.Planning h r b v m u) (F : u.FreshAt h) (P : s.Prepares h r.tag u) (he : 0 < b.currentEnd)
    (hp : planSegment v.settings.minCoil b.currentEnd v.queue b.piece.spans = .waste len)
    (hg : g s = (u.updHead h fun x => { x with segment := some ⟨none, len, b.currentEnd - len, 0, false⟩ }).planMade h) :
    s.Plans h r b v m (s.change g) := by
  generalize hw : (u.updHead h fun x => { x with segment := some ⟨none, len, b.currentEnd - len, 0, false⟩ }) = w at hg
  have hhead : w.head h = { u.head h with segment := some ⟨none, len, b.currentEnd - len, 0, false⟩ } := by
    rw [← hw]
    exact State.updHead_head ..
  have K := H.keepsPlan_made F ⟨_, hhead⟩
  rw [← hg] at K
  refine ⟨K.unplanned, K.pitch, K.queue, K.run, fun h0 => absurd h0 (by omega), fun n _ hn => ?_, fun _ hn => ?_, fun n gr short _ hn => ?_⟩
  · rw [hp] at hn
    cases hn
    refine ⟨H.leaves P (by rw [← hw]; rfl) (by rw [← hw]; rfl) ⟨_, hhead⟩ hg, ?_, ?_⟩
    · rw [State.change_head, hg, State.planMade_same, hhead]
      rfl
    · rw [State.change_coilSerial, hg, ← H.serial, ← hw]
      rfl
  all_goals
    rw [hp] at hn
    cases hn

/-- A plan point that plans a coil for which there is no room (R157). -/
theorem State.Planning.plans_full (H : s.Planning h r b v m u) (F : u.FreshAt h) (P : s.Prepares h r.tag u) (he : 0 < b.currentEnd)
    (hp : planSegment v.settings.minCoil b.currentEnd v.queue b.piece.spans = .coil len gr short) (hfull : ¬s.store.length < 256)
    (hg : g s = u.planWaits h .storeFull) : s.Plans h r b v m (s.change g) := by
  have W := State.planWaits_waits H.kind .storeFull
  have K := H.keepsPlan_waits F W
  rw [← hg] at K
  refine ⟨K.unplanned, K.pitch, K.queue, K.run, fun h0 => absurd h0 (by omega), fun n _ hn => ?_, fun _ hn => ?_, fun n gr short _ _ =>
    ⟨fun _ => H.waits P W hg, fun hroom => absurd hroom hfull⟩⟩
  all_goals
    rw [hp] at hn
    cases hn

/-- A plan point that creates a coil (R4, R152, R156). -/
theorem State.Planning.plans_coil (H : s.Planning h r b v m u) (F : u.FreshAt h) (P : s.Prepares h r.tag u) (he : 0 < b.currentEnd) (T : s.CoilTagsOk)
    (hp : planSegment v.settings.minCoil b.currentEnd v.queue b.piece.spans = .coil len gr short) (hroom : s.store.length < 256)
    (K : u.CreatesCoil h (plannedCoil h r.tag b.currentEnd len gr short) n w) (hg : g s = w.planMade h) :
    s.Plans h r b v m (s.change g) := by
  have hlength := State.length_of_tags P.tags
  have V := H.keepsPlan_made F ⟨_, K.same⟩
  rw [← hg] at V
  obtain ⟨q, y, -, ey, -⟩ := H.rope
  have hfree := K.fresh
  have hfind := K.find_new
  have hsame := K.same
  have hlive := findSerial_live (K.serial_of_tags P H)
  rw [H.prefixes] at hfree hfind hsame
  have hnone : s.find (coilTag s.coilPrefix n) = none := State.live_iff.mp hlive
  obtain ⟨hrange, -⟩ := findSerial_spec T.serialRange (K.serial_of_tags P H)
  refine ⟨V.unplanned, V.pitch, V.queue, V.run, fun h0 => absurd h0 (by omega), fun n _ hn => ?_, fun _ hn => ?_, fun n' gr' short' _ hn => ?_⟩
  · rw [hp] at hn
    cases hn
  · rw [hp] at hn
    cases hn
  · rw [hp] at hn
    cases hn
    refine ⟨fun h256 => absurd h256 (by omega), fun _ => ⟨H.leaves P ((K.find_old ey).trans ey.symm) K.clock ⟨_, K.same⟩ hg, ?_, n,
      K.serial_of_tags P H, ?_, hnone, ?_, ?_, fun h239 => ?_⟩⟩
    · rw [State.change_store_length, hg]
      exact K.length.trans (by rw [hlength])
    · rw [State.change_coilSerial, hg]
      exact K.next.trans (stepSerial_eq hrange.2)
    · refine (State.change_find_new (.inl hnone)).trans ?_
      rw [hg]
      refine hfind.trans ?_
      rw [P.clock]
      rfl
    · rw [State.change_head, hg, State.planMade_same, hsame]
      rfl
    · rw [State.change_attn, hg]
      exact K.store240 (by rw [hlength]; exact h239)

/-- A change that goes on at its plan point (R155 to R157). -/
theorem State.Planning.plans_on (H : s.Planning h r b v m u) (F : u.FreshAt h) (P : s.Prepares h r.tag u) (S : s.StoreOk) (T : s.CoilTagsOk)
    (he : 0 < b.currentEnd)
    (hg : g s = u.applyPlan h r.tag b.currentEnd (planSegment v.settings.minCoil b.currentEnd v.queue b.piece.spans)) :
    s.Plans h r b v m (s.change g) := by
  have Su : u.StoreOk := S.of_tags P.tags
  have Tu : u.CoilTagsOk := ⟨by rw [H.prefixes]; exact T.prefixRange, by rw [H.serial]; exact T.serialRange⟩
  have hlength := State.length_of_tags P.tags
  cases hp : planSegment v.settings.minCoil b.currentEnd v.queue b.piece.spans with
  | noOrder =>
    rw [hp] at hg
    exact H.plans_noOrder F P he hp hg
  | waste len =>
    rw [hp] at hg
    exact H.plans_waste F P he hp hg
  | coil len gr short =>
    rw [hp, State.applyPlan] at hg
    by_cases hroom : s.store.length < 256
    · obtain ⟨w, hw⟩ := State.createCoil_some (h := h) (rope := r.tag) (e := b.currentEnd) (len := len) (gr := gr) (short := short) Su Tu
        (by rw [hlength]; exact hroom)
      obtain ⟨-, n, K⟩ := State.createCoil_creates hw
      rw [hw] at hg
      exact H.plans_coil F P he T hp hroom K hg
    · rw [State.createCoil_full (by rw [hlength, storeCap]; omega)] at hg
      exact H.plans_full F P he hp hroom hg

end Sys2Proof.Machine
end

section
/-! PROOF. Plan points taken whole: the notified coiler (O44), and what `State.Plans` asks of the others. -/

namespace Sys2Proof.Machine

variable {h k : HeadIx} {s t u w f : State} {r q x y z : Record} {c : CoilBody} {b d : RopeBody} {j rope p len n : Nat} {l : List Span} {v : Head}
  {m : Mark} {gr : Grade} {short : Bool} {a : HoldReason} {e : Nat} {g : State → State}

/-! ## The opening -/

/-- A rope of which `n` millimetres more have gone to waste. -/
def RopeBody.wastes (n : Nat) (b : RopeBody) : RopeBody := { b with waste := b.waste + n }

theorem RopeBody.wastes_currentEnd (b : RopeBody) (n : Nat) : (b.wastes n).currentEnd = b.currentEnd - n := by
  simp only [RopeBody.wastes, RopeBody.currentEnd]
  omega

theorem Record.wastes_body (hb : x.body = .rope b) (n : Nat) : x.wastes n = { x with body := .rope (b.wastes n) } := Record.wastes_of hb n

theorem Record.counted_wastes (hb : x.body = .rope b) (n : Nat) : ({ x with body := .rope (b.wastes n) } : Record).counted = x.counted := by
  simp only [Record.counted, Record.spans, hb]
  rfl

/-- Waste does not count for the mark of a rope (R9). -/
theorem Record.stepMark_wastes {now : Seconds} (hb : y.body = .rope b) (n : Nat)
    (hmark : Record.stepMark now q y = { r with body := .rope b }) :
    Record.stepMark now q { y with body := .rope (b.wastes n) } = { r with body := .rope (b.wastes n) } := by
  have hcounted := Record.counted_wastes hb n
  unfold Record.stepMark at hmark ⊢
  rw [hcounted]
  split at hmark
  · next h =>
    rw [if_pos h]
    rw [hmark]
  · next h =>
    rw [if_neg h]
    have := congrArg (fun x : Record => { x with body := .rope (b.wastes n) }) hmark
    exact this

theorem State.Prepares.opens (P : s.Prepares h rope w) (O : w.OpensPlan h rope e u) (hw : w.find rope = some y) (hb : y.body = .rope b) :
    s.Prepares h rope u where
  records j hj hn := by
    rw [State.find_of_store O.store, State.find_updRec_ne (Record.wastes_tag _) hj]
    exact P.records j hj hn
  spans := by
    have hu : u.find rope = some (y.wastes (min (w.head h).unplanned e)) := by
      rw [State.find_of_store O.store, State.find_updRec (Record.wastes_tag _), hw, Option.map_some]
    rw [Record.wastes_body hb] at hu
    rw [← P.spans, State.spansOf_rope hu rfl, State.spansOf_rope hw hb]
    rfl
  others g hg := (O.others g hg).trans (P.others g hg)
  tags := by rw [O.store, State.updRec_tags (Record.wastes_tag _), P.tags]
  clock := O.clock.trans P.clock

theorem State.Planning.opens (H : s.Planning h r b v m w) (O : w.OpensPlan h r.tag e u) :
    s.Planning h r (b.wastes (min (w.head h).unplanned e)) v m u ∧ u.FreshAt h := by
  obtain ⟨q, y, er, ey, hk, hq, hm, hb, hmaking, hmark⟩ := H.rope
  have hu : u.find r.tag = some { y with body := .rope (b.wastes (min (w.head h).unplanned e)) } := by
    rw [State.find_of_store O.store, State.find_updRec (Record.wastes_tag _), ey, Option.map_some, Record.wastes_body hb]
  refine ⟨⟨⟨q, _, er, hu, hk, hq, hm, rfl, hmaking, Record.stepMark_wastes hb _ hmark⟩, ?_, ?_, ?_, O.prefixes.trans H.prefixes,
    O.serial.trans H.serial, H.state⟩, ?_, ?_⟩
  · rw [O.same]
    exact H.source
  · rw [O.same]
    exact H.kind
  · rw [O.same]
    exact H.plans
  · rw [O.same]
  · rw [O.same]

/-- A change whose function ends in a plan point (R153). -/
theorem State.Planning.plans_point (H : s.Planning h r b v m w) (P : s.Prepares h r.tag w) (S : s.StoreOk) (T : s.CoilTagsOk)
    (Bw : s.BindingsOk → w.BindingsOk) (hg : g s = w.planPoint h) :
    s.Plans h r (b.wastes (min (w.head h).unplanned b.currentEnd)) v m (s.change g) := by
  obtain ⟨y, hs, hy⟩ := H.sourceOf
  obtain ⟨ey, hb⟩ := State.sourceOf_find hs
  rw [hy] at ey
  have hplans := H.plans
  simp only [Head.plans, Prod.mk.injEq] at hplans
  obtain ⟨hqueue, -, -, -, -, hset, -⟩ := hplans
  have O := State.openPlan_opens h r.tag b.currentEnd w
  have Pu := P.opens O ey hb
  obtain ⟨Hu, F⟩ := H.opens O
  have Bu (B : s.BindingsOk) : (w.openPlan h r.tag b.currentEnd).BindingsOk := (State.openPlan_boundBut ((Bw B).but h)).ok
  have hend : (b.wastes (min (w.head h).unplanned b.currentEnd)).currentEnd = b.currentEnd - (w.head h).unplanned := by
    rw [RopeBody.wastes_currentEnd]
    omega
  unfold State.planPoint at hg
  rw [hs] at hg
  dsimp only at hg
  rw [hy] at hg
  generalize w.openPlan h r.tag b.currentEnd = u at hg Pu Hu F Bu O
  split at hg
  next h0 => exact Hu.plans_end F Pu S Bu (hend.trans h0) hg
  next h0 =>
    refine Hu.plans_on F Pu S T (by omega) ?_
    rw [hend, ← hset, ← hqueue]
    exact hg

/-! ## A coiler that has waited -/

/-- A coiler that holds a rope, and at which work has altered no record. -/
theorem State.Prepares.of_store (hs : u.store = s.store) (hh : ∀ g, g ≠ h → u.head g = s.head g) (hc : u.clock = s.clock) :
    s.Prepares h rope u :=
  ⟨fun j _ _ => State.find_of_store hs j, by rw [State.spansOf, State.find_of_store hs]; rfl, hh, by rw [hs], hc⟩

/-- The source of a coiler is bound to it, and IN_USE. -/
theorem State.BindingsOk.source_state (B : s.BindingsOk) (hs : s.sourceOf h = some (r, b)) :
    r.state = .inUse ∧ (s.head h).kind = some .coiler := by
  obtain ⟨hsource, er⟩ := State.sourceOf_source hs
  obtain ⟨z, -, ez, hbound, -⟩ := B.named h .source r.tag hsource
  cases er.symm.trans ez
  exact ⟨(B.tied r.tag r er).held h .source hbound, (B.but h).coiler hsource⟩

/-- A head changed so that it stands as `v`, about its plan point. -/
theorem State.Planning.of_head {f : Head → Head} (B : s.BindingsOk) (hs : s.sourceOf h = some (r, b))
    (hf : (f (s.head h)).plans = v.plans) (hsource : (f (s.head h)).source = (s.head h).source) (hkind : (f (s.head h)).kind = (s.head h).kind)
    (hst : v.state = .ready ∨ v.state = .held ∨ v.state = .cutting) : s.Planning h r b v (r.mark + 1) (s.updHead h f) := by
  obtain ⟨hsrc, er⟩ := State.sourceOf_source hs
  obtain ⟨-, hb⟩ := State.sourceOf_find hs
  obtain ⟨hin, hk⟩ := B.source_state hs
  have hr : r = { r with body := .rope b } := by rw [← hb]
  refine ⟨⟨r, r, er, er, by rw [Record.kind, hb]; rfl, by rw [hin]; nofun, rfl, hb, by rw [hin]; nofun,
    (Record.stepMark_same rfl).trans hr⟩, ?_, ?_, ?_, rfl, rfl, hst⟩
  · rw [State.updHead_head, hsource]
    exact hsrc
  · rw [State.updHead_head, hkind]
    exact hk
  · rw [State.updHead_head]
    exact hf

/-- What a plan point leaves alone at its head. -/
abbrev Head.unplannedFor (x : Head) := (x.notified, x.queue, x.runHigh, x.flawHigh, x.settings)

theorem State.applyPlan_rest (hk : (s.head h).kind = some .coiler) (q : Plan) : s.KeepsNotices (s.applyPlan h rope e q) ∧
    ((s.applyPlan h rope e q).head h).unplannedFor = (s.head h).unplannedFor := by
  have hwaits (a : HoldReason) : s.KeepsNotices (s.planWaits h a) ∧ ((s.planWaits h a).head h).unplannedFor = (s.head h).unplannedFor := by
    have W := State.planWaits_waits hk a
    exact ⟨W.notices, by rw [W.same]; rfl⟩
  unfold State.applyPlan
  split
  · exact hwaits _
  · exact ⟨.of_attn rfl, by rw [State.planMade_same, State.updHead_head]; rfl⟩
  · split
    next t ht =>
      obtain ⟨-, n, K⟩ := State.createCoil_creates ht
      exact ⟨K.notices.trans (.of_attn rfl), by rw [State.planMade_same, K.same]; rfl⟩
    · exact hwaits _

theorem State.endRope_rest (S : s.StoreOk) (h : HeadIx) (rope : Nat) : s.KeepsNotices (s.endRope h rope) ∧
    ((s.endRope h rope).head h).unplannedFor = (s.head h).unplannedFor := by
  obtain ⟨hnotices, -⟩ := State.flawAtLeaving_rest S h 0
  obtain ⟨rise, hhead⟩ := State.flawAtLeaving_head h 0 s
  have hsame := (hhead h).trans (if_pos rfl)
  rw [State.endRope_eq]
  generalize s.flawAtLeaving h 0 = t at hnotices hsame
  have hdone : ((t.updRec rope fun r => r.unbindTo .spent).updHead h Head.ropeDone).head h = (t.head h).ropeDone := by
    rw [State.updHead_head, State.updRec_head]
  have hattn : t.KeepsNotices ((t.updRec rope fun r => r.unbindTo .spent).updHead h Head.ropeDone) := .of_attn rfl
  generalize (t.updRec rope fun r => r.unbindTo .spent).updHead h Head.ropeDone = w at hdone hattn
  refine ⟨hnotices.trans (hattn.trans ((State.raise_notices w h .state).trans (State.raise_notices _ h .coil))), ?_⟩
  rw [State.raise_head, State.raise_head, hdone, hsame]
  rfl

theorem State.planPoint_rest (S : s.StoreOk) (hk : (s.head h).kind = some .coiler) (hs : s.sourceOf h = some (r, b)) :
    s.KeepsNotices (s.planPoint h) ∧ ((s.planPoint h).head h).unplannedFor = (s.head h).unplannedFor ∧
      (0 < (s.head h).unplanned → (s.planPoint h).flagged h .coil = true) := by
  have O := State.openPlan_opens h r.tag b.currentEnd s
  have So : (s.openPlan h r.tag b.currentEnd).StoreOk :=
    S.of_tags (by rw [O.store]; exact State.updRec_tags (Record.wastes_tag _))
  unfold State.planPoint
  rw [hs]
  dsimp only
  generalize s.openPlan h r.tag b.currentEnd = u at O So
  have hhead : (u.head h).unplannedFor = (s.head h).unplannedFor := by rw [O.same]
  split
  · obtain ⟨hnotices, hrest⟩ := State.endRope_rest So h r.tag
    exact ⟨O.notices.trans hnotices, hrest.trans hhead, fun hu => hnotices.flags _ (O.coil hu)⟩
  · obtain ⟨hnotices, hrest⟩ := State.applyPlan_rest (h := h) (rope := r.tag) (e := b.currentEnd - (s.head h).unplanned)
      (by rw [O.same]; exact hk) (planSegment (s.head h).settings.minCoil (b.currentEnd - (s.head h).unplanned) (s.head h).queue b.piece.spans)
    exact ⟨O.notices.trans hnotices, hrest.trans hhead, fun hu => hnotices.flags _ (O.coil hu)⟩

/-- Settles O44: without a notice, and without STORE_FULL, nothing is planned; otherwise the plan point is taken whole. -/
theorem storeFullNotificationResult : Obligations.StoreFullNotificationResult := by
  intro h s S T
  refine ⟨fun hn => ?_, fun hn hfull => ?_, fun r b B hn hfull hst hs => ?_⟩
  · refine congrArg Host.Outcome.next (State.change_eq S ?_ rfl)
    rw [State.storeFullNotification, hn]
    rfl
  · refine congrArg Host.Outcome.next (State.change_eq S ?_ rfl)
    rw [State.storeFullNotification, if_pos hn]
    dsimp only
    rw [hfull]
    rfl
  · let w := s.updHead h fun x => { x with notified := false }
    have hg : State.storeFullNotification h s = w.planPoint h := by
      rw [State.storeFullNotification, if_pos hn]
      exact if_pos hfull
    have Bw : w.BindingsOk := State.updHead_bindingsOk (fun _ => rfl) B
    have H : s.Planning h r b (s.head h) (r.mark + 1) w := .of_head B hs rfl rfl rfl (.inr (.inl hst))
    have P : s.Prepares h r.tag w := .of_store rfl (fun g hgh => State.updHead_head_ne _ _ hgh) rfl
    have hhead : w.head h = { s.head h with notified := false } := State.updHead_head ..
    have hplans := H.plans_point P S T (fun _ => Bw) hg
    obtain ⟨y, hsw, -⟩ := H.sourceOf
    obtain ⟨-, hrest, hcoil⟩ := State.planPoint_rest (S.of_tags P.tags) H.kind hsw
    rw [hhead] at hplans hrest hcoil
    simp only [Head.unplannedFor, Prod.mk.injEq] at hrest
    obtain ⟨hnotified, -⟩ := hrest
    refine ⟨_, rfl, ?_, fun hu => ?_, hplans⟩
    · rw [State.change_head, hg]
      exact hnotified
    · rw [State.flagged, State.change_attn, hg]
      exact hcoil hu

end Sys2Proof.Machine
end

section
/-! PROOF. The requests on a coiler's queue (O41). -/

namespace Sys2Proof.Machine

variable {h k : HeadIx} {s t u w f : State} {r : Record} {b : RopeBody} {v : Head} {length count rule n : Nat} {gr : GradeRule} {o : CoilOrder}

theorem orderOf_some (hl : 1000 ≤ length) (hl' : length ≤ 4000000000) (hc : 1 ≤ count) (hc' : count ≤ 255)
    (hg : (rule = 1 ∧ gr = .firstOnly) ∨ (rule = 2 ∧ gr = .secondOk)) : orderOf length count rule = some ⟨length, count, gr⟩ := by
  unfold orderOf
  rw [if_pos ⟨hl, hl', hc, hc'⟩]
  rcases hg with ⟨rfl, rfl⟩ | ⟨rfl, rfl⟩ <;> rfl

theorem answerEnqueue_ok (e : (s.head h).state ≠ .empty) (hk : (s.head h).kind = some .coiler) (ho : orderOf length count rule = some o)
    (hroom : (s.head h).queue.length < 8) : answerEnqueue .lineComputer h.val length count rule s =
      (s.change (State.enqueue h o), Reply.done [byte ((s.change (State.enqueue h o)).head h).queue.length]) := by
  obtain ⟨-, hanswer⟩ := answerEnqueue_coiler (length := length) (count := count) (rule := rule) (State.presentHead_val e) hk
  rw [hanswer o ho, if_neg (by rw [queueCap]; omega)]

/-- An entry that no waiting coiler takes. -/
theorem State.enqueue_quiet (hq : (s.head h).queue ≠ [] ∨ (s.head h).holds.queueEmpty = false) :
    s.enqueue h o = s.updHead h fun x => { x with queue := x.queue ++ [o] } := by
  unfold State.enqueue
  refine if_neg fun hc => ?_
  obtain ⟨hq0, hempty⟩ := hc
  rcases hq with hq | hq
  · exact hq hq0
  · rw [hq] at hempty
    cases hempty

theorem State.planPoint_queue (S : s.StoreOk) (hk : (s.head h).kind = some .coiler) : ((s.planPoint h).head h).queue = (s.head h).queue := by
  cases hs : s.sourceOf h with
  | none => rw [State.planPoint, hs]
  | some p =>
    obtain ⟨-, hrest, -⟩ := State.planPoint_rest S hk hs
    simp only [Head.unplannedFor, Prod.mk.injEq] at hrest
    obtain ⟨-, hqueue, -⟩ := hrest
    exact hqueue

/-- Settles O41: an order is put at the end of the queue, and a coiler that waits for one is planned. -/
theorem queueRequestsResult : Obligations.QueueRequestsResult := by
  refine ⟨fun h length count rule s body gr S a hst hk hl hl' hc hc' hg hroom => ?_, fun h s body a hst hk => ?_⟩
  · have hanswer := answerEnqueue_ok hst hk (orderOf_some hl hl' hc hc' hg) hroom
    let put : Head → Head := fun x => { x with queue := x.queue ++ [⟨length, count, gr⟩] }
    let w := s.updHead h put
    have hhead : w.head h = { s.head h with queue := (s.head h).queue ++ [⟨length, count, gr⟩] } := State.updHead_head ..
    have Sw : w.StoreOk := ⟨S.ascending, S.capacity, S.tags⟩
    refine ⟨fun hq => ?_, fun hq hempty => ?_⟩
    · have hchange : s.change (State.enqueue h ⟨length, count, gr⟩) = w := State.change_eq S (State.enqueue_quiet hq) rfl
      rw [exec_answer a rfl hanswer, hchange]
      simp only [Reply.done, hhead, List.length_append, List.length_singleton]
      rfl
    · have hgs : State.enqueue h ⟨length, count, gr⟩ s = w.planPoint h := if_pos ⟨hq, hempty⟩
      have hsame : (s.change (State.enqueue h ⟨length, count, gr⟩)).head h = (w.planPoint h).head h := by rw [State.change_head, hgs]
      have hqueue : ((s.change (State.enqueue h ⟨length, count, gr⟩)).head h).queue = [⟨length, count, gr⟩] := by
        rw [hsame, State.planPoint_queue Sw (by rw [hhead]; exact hk), hhead, hq]
        rfl
      refine ⟨_, exec_answer (x := Reply.done [0x01]) a rfl (hanswer.trans ?_), hqueue, fun r b T B hheld hs => ?_⟩
      · rw [hqueue]
        rfl
      · have Bw : w.BindingsOk := State.updHead_bindingsOk (fun _ => rfl) B
        have hput : put (s.head h) = { s.head h with queue := [⟨length, count, gr⟩] } := by
          simp only [put, hq, List.nil_append]
        have H : s.Planning h r b { s.head h with queue := [⟨length, count, gr⟩] } (r.mark + 1) w :=
          .of_head B hs (by rw [hput]) rfl rfl (.inr (.inl hheld))
        have P : s.Prepares h r.tag w := .of_store rfl (fun g hgh => State.updHead_head_ne _ _ hgh) rfl
        have hplans := H.plans_point P S T (fun _ => Bw) hgs
        obtain ⟨y, hsw, -⟩ := H.sourceOf
        obtain ⟨-, -, hcoil⟩ := State.planPoint_rest (S.of_tags P.tags) H.kind hsw
        rw [hhead] at hplans hcoil
        refine ⟨fun hu => ?_, hplans⟩
        rw [State.flagged, State.change_attn, hgs]
        exact hcoil hu
  · have hanswer : answerClearQueue .lineComputer h.val s = (s.updHead h Head.clearQueue, Reply.done [byte (s.head h).queue.length]) := by
      unfold answerClearQueue
      rw [State.presentHead_val hst]
      simp [fromLine, hk]
    exact exec_answer a rfl hanswer

end Sys2Proof.Machine
end

section
/-! PROOF. BIND_SOURCE and its first plan point (O37). -/

namespace Sys2Proof.Machine

variable {h k : HeadIx} {s t u w f : State} {r x y z : Record} {b : RopeBody} {v : Head} {m : Mark} {tag rope e : Nat} {q : Plan} {a : HoldReason}

/-! ## What a plan point above 0 leaves at its head -/

/-- A plan made, or a wait. -/
theorem State.applyPlan_head (hk : (u.head h).kind = some .coiler) (q : Plan) :
    (∃ sg, (u.applyPlan h rope e q).head h = ({ u.head h with segment := some sg } : Head).planned) ∨
      ∃ a, a ≠ .feedShort ∧ u.PlanWaits h a (u.applyPlan h rope e q) := by
  unfold State.applyPlan
  split
  · exact .inr ⟨.queueEmpty, nofun, State.planWaits_waits hk .queueEmpty⟩
  · exact .inl ⟨_, by rw [State.planMade_same, State.updHead_head]⟩
  · split
    next t ht =>
      obtain ⟨-, n, K⟩ := State.createCoil_creates ht
      exact .inl ⟨_, by rw [State.planMade_same, K.same]⟩
    · exact .inr ⟨.storeFull, nofun, State.planWaits_waits hk .storeFull⟩

theorem State.Plans.keepsRope (H : s.Plans h r b v m t) (S : s.StoreOk) (he : 0 < b.currentEnd) : t.find r.tag = some { r with body := .rope b } := by
  obtain ⟨-, -, -, -, -, hwaste, hnone, hcoil⟩ := H
  cases hp : planSegment v.settings.minCoil b.currentEnd v.queue b.piece.spans with
  | noOrder =>
    obtain ⟨hrope, -⟩ := hnone he hp
    exact hrope
  | waste n =>
    obtain ⟨⟨hrope, -⟩, -⟩ := hwaste n he hp
    exact hrope
  | coil n gr short =>
    obtain ⟨hfull, hroom⟩ := hcoil n gr short he hp
    have hcap := S.capacity
    rw [storeCap] at hcap
    by_cases hlt : s.store.length < 256
    · obtain ⟨⟨hrope, -⟩, -⟩ := hroom hlt
      exact hrope
    · obtain ⟨hrope, -⟩ := hfull (by omega)
      exact hrope

theorem State.planPoint_on (hs : w.sourceOf h = some (r, b)) (hu : (w.head h).unplanned = 0) (he : 0 < b.currentEnd) :
    w.planPoint h = (w.openPlan h r.tag b.currentEnd).applyPlan h r.tag b.currentEnd
      (planSegment (w.head h).settings.minCoil b.currentEnd (w.head h).queue b.piece.spans) := by
  unfold State.planPoint
  rw [hs]
  dsimp only
  rw [hu, Nat.sub_zero, if_neg (by omega)]

/-! ## The binding -/

theorem State.bindsSource_head (s : State) (h : HeadIx) (tag : Nat) : (s.bindsSource h tag).head h = (s.head h).bindSource tag := by
  rw [State.bindsSource, State.updHead_head]
  rfl

theorem State.bindsSource_prepares (er : s.find tag = some r) : s.Prepares h tag (s.bindsSource h tag) where
  records j hj _ := State.bindsSource_find_ne hj
  spans := by
    rw [State.spansOf, State.spansOf, State.bindsSource_find er, er]
    rfl
  others g hg := State.updHead_head_ne _ _ hg
  tags := State.updRec_tags (Record.bindAs_tag _ _ _)
  clock := rfl

/-- What the first plan point leaves at a coiler whose rope has a length to wind (R57, R68, R98, R157). -/
theorem State.Planning.bindsFirst {x : Head} (H : s.Planning h r b v m w) (hhead : w.head h = x.bindSource r.tag) (he : 0 < b.currentEnd) :
    ((w.planPoint h).head h).source = some r.tag ∧ ((w.planPoint h).head h).unplanned = 0 ∧
      (((w.planPoint h).head h).state = .ready ∧ ((w.planPoint h).head h).segment.isSome = true ∧ ((w.planPoint h).head h).holds = {} ∧
          ((w.planPoint h).head h).flawRise = none ∨
        ((w.planPoint h).head h).state = .held ∧ ((w.planPoint h).head h).segment = none ∧ (w.planPoint h).flagged h .state = true ∧
          (((w.planPoint h).head h).holds = ⟨false, true, false⟩ ∨ ((w.planPoint h).head h).holds = ⟨false, false, true⟩) ∧
          ((w.planPoint h).head h).flawRise = if x.flawHigh then some b.currentEnd else none) := by
  obtain ⟨y, hs, hy⟩ := H.sourceOf
  obtain ⟨ey, hb⟩ := State.sourceOf_find hs
  rw [hy] at ey
  have hzero : (w.head h).unplanned = 0 := by rw [hhead]; rfl
  have hpoint := State.planPoint_on hs hzero he
  rw [hy] at hpoint
  have O := State.openPlan_opens h r.tag b.currentEnd w
  obtain ⟨Hu, F⟩ := H.opens O
  rw [hpoint]
  generalize w.openPlan h r.tag b.currentEnd = u at O Hu F
  have hsame : u.head h = { x.bindSource r.tag with unplanned := 0, pitchFraction := 0 } := by rw [O.same, hhead]
  rcases State.applyPlan_head (rope := r.tag) (e := b.currentEnd) Hu.kind
    (planSegment (w.head h).settings.minCoil b.currentEnd (w.head h).queue b.piece.spans) with ⟨sg, hplanned⟩ | ⟨a, ha, W⟩
  · rw [hplanned, hsame]
    exact ⟨rfl, rfl, .inl ⟨rfl, rfl, rfl, rfl⟩⟩
  · have hpos : u.unwindPosition h = b.currentEnd := by
      obtain ⟨z, hz, -⟩ := Hu.sourceOf
      have hunwound : (u.head h).unwound = 0 := by rw [hsame]; rfl
      rw [State.unwindPosition, hz]
      dsimp only
      rw [RopeBody.wastes_currentEnd, hunwound, F.unplanned, hzero]
      omega
    have hready : (u.head h).state = .ready := by rw [hsame]; rfl
    refine ⟨?_, ?_, .inr ⟨?_, ?_, W.held (.inl hready), ?_, ?_⟩⟩
    · rw [W.same, State.waiter, hsame]
      rfl
    · rw [W.same, State.waiter, hsame]
    · rw [W.same]
      exact State.waiter_state (.inl hready) a
    · rw [W.same, State.waiter, hsame]
      rfl
    · rw [W.same, State.waiter, hsame]
      cases a
      case feedShort => exact absurd rfl ha
      case queueEmpty => exact .inl rfl
      case storeFull => exact .inr rfl
    · rw [W.same, State.waiter, hpos, hsame]
      simp only [Head.bindSource, Head.free, true_and]

/-- Settles O37: the first plan point of a coiler finds the rope bound, and the head READY without a segment. -/
theorem bindSourceResult : Obligations.BindSourceResult := by
  intro h tag m s body r b S T a hi hk er hb hst hm bound ready
  have hrk : r.kind = .rope := by rw [Record.kind, hb]; rfl
  obtain ⟨-, rfl⟩ := State.find_mem er
  let w := s.bindsSource h r.tag
  have hg : State.bindSource h r.tag s = w.planPoint h := rfl
  have hhead : w.head h = (s.head h).bindSource r.tag := State.bindsSource_head ..
  have P : s.Prepares h r.tag w := State.bindsSource_prepares er
  have hmark : Record.stepMark s.clock.seconds r (r.bindAs .inUse h .source) = { bound with body := .rope b } := by
    have hne : r.counted ≠ (r.bindAs .inUse h .source).counted := fun hc => by
      have : r.state = .inUse := congrArg Counted.state hc
      rw [hst] at this
      cases this
    rw [Record.stepMark_step hne, ← hb]
    rfl
  have H : s.Planning h bound b ready (r.mark + 1) w := by
    refine ⟨⟨r, _, er, State.bindsSource_find er, hrk, by rw [hst]; nofun, rfl, hb, nofun, hmark⟩, ?_, ?_, ?_, rfl, rfl, .inl rfl⟩
    · rw [hhead]
      rfl
    · rw [hhead]
      exact hk
    · rw [hhead]
      rfl
  have hplans := H.plans_point P S T (fun B => State.bindsSource_bindingsOk B er hk hrk hi hst) hg
  have hzero : (w.head h).unplanned = 0 := by rw [hhead]; rfl
  have hwaste : b.wastes (min (w.head h).unplanned b.currentEnd) = b := by
    rw [hzero, Nat.zero_min]
    rfl
  rw [hwaste] at hplans
  have hdone (z : Record) (hz : (s.change (State.bindSource h r.tag)).find r.tag = some z) (hzm : z.mark = r.mark + 1) :
      exec (.bindSource .lineComputer h.val r.tag m) s =
        .next ((s.change (State.bindSource h r.tag)).respond .lineComputer [body.headD 0, 0x00, r.mark + 1]) := by
    refine exec_answer (x := Reply.done [r.mark + 1]) a rfl ?_
    have hpresent : (s.head h).state ≠ .empty := by rw [hi]; nofun
    refine (answerBindSource_suits (State.presentHead_val hpresent) er hk hrk).trans ?_
    rw [if_neg (by rw [hi]; simp), if_neg (by rw [hst]; simp), if_neg (by rw [hm]; simp), State.doneMark_eq hz, hzm]
  refine ⟨fun he => ?_, fun he => ?_⟩
  · have hrope := hplans.keepsRope S he
    refine ⟨_, _, hdone _ hrope rfl, hrope, rfl, rfl, rfl, rfl, hplans, ?_⟩
    have hstart := H.bindsFirst hhead he
    rw [← hg] at hstart
    exact hstart
  · have hkept := hplans
    obtain ⟨-, -, -, -, hend, -⟩ := hplans
    obtain ⟨r', b', hfind, hbody, -, -, -, hspent, hunbound, hmk, hstate, -, hsource, -, hfs, hfc, -⟩ := hend he
    exact ⟨_, r', hdone r' hfind hmk, hfind, hspent, hunbound, hmk, hkept, hstate, hsource, hfs, hfc⟩

end Sys2Proof.Machine
end

section
/-! PROOF. What the completion of a coiler's segment leaves (R159, R160). -/

namespace Sys2Proof.Machine

variable {h k : HeadIx} {s t u w f : State} {r x y z : Record} {b d : RopeBody} {c : CoilBody} {v : Head} {m : Mark}
  {tag rope e actual j n : Nat} {cut : Bool} {sg : Segment} {queue : List CoilOrder}

/-! ## A coil wound -/

/-- A rope of which `n` millimetres more have been packed. -/
def RopeBody.packs (n : Nat) (b : RopeBody) : RopeBody := { b with packed := b.packed + n }

theorem Record.packs_body (hb : x.body = .rope b) (n : Nat) : x.packs n = { x with body := .rope (b.packs n) } := by
  rw [Record.packs, Record.onRope, hb]
  rfl

/-- What winding a coil alters beside records: notices alone. -/
structure State.RecordsOnly (s t : State) : Prop where
  heads : t.heads = s.heads
  tags : t.store.map Record.tag = s.store.map Record.tag
  prefixes : t.coilPrefix = s.coilPrefix
  serial : t.coilSerial = s.coilSerial
  clock : t.clock = s.clock
  notices : s.KeepsNotices t

theorem State.RecordsOnly.head (R : s.RecordsOnly t) (g : HeadIx) : t.head g = s.head g := by rw [State.head, R.heads]; rfl

theorem State.updRec_recordsOnly {f : Record → Record} (hf : ∀ r, (f r).tag = r.tag) (s : State) (j : Nat) : s.RecordsOnly (s.updRec j f) :=
  ⟨rfl, State.updRec_tags hf, rfl, rfl, rfl, .of_attn rfl⟩

theorem State.RecordsOnly.trans (R : s.RecordsOnly t) (R' : t.RecordsOnly u) : s.RecordsOnly u :=
  ⟨R'.heads.trans R.heads, R'.tags.trans R.tags, R'.prefixes.trans R.prefixes, R'.serial.trans R.serial, R'.clock.trans R.clock,
    R.notices.trans R'.notices⟩

theorem State.raiseAlarm_recordsOnly (s : State) (h : HeadIx) (a : Alarm) : s.RecordsOnly (s.raiseAlarm h a) :=
  ⟨rfl, rfl, rfl, rfl, rfl, State.raiseAlarm_notices s h a⟩

theorem State.windCoil_recordsOnly (s : State) (h : HeadIx) (tag rope e actual : Nat) (cut : Bool) :
    s.RecordsOnly (s.windCoil h tag rope e actual cut) := by
  unfold State.windCoil
  split
  · exact ⟨rfl, rfl, rfl, rfl, rfl, .refl s⟩
  next c _ =>
    have R := (State.updRec_recordsOnly (fun _ => Record.windTo_tag (c.wind (e - actual) e cut (s.spansOf rope)) _) s tag).trans
      (State.updRec_recordsOnly (Record.packs_tag actual) _ rope)
    dsimp only
    split
    · exact R
    · exact R.trans (State.raiseAlarm_recordsOnly ..)

/-- A coil that winding grades SECOND raises COIL_DOWNGRADED (R159). -/
theorem State.windCoil_downgrades (ex : s.find tag = some x) (hx : x.body = .coil c)
    (hgrade : c.grade ≠ (s.woundAs rope e actual cut c).grade) : (s.windCoil h tag rope e actual cut).NotesDowngrade h := by
  unfold State.windCoil
  rw [State.coilOf_of ex hx]
  dsimp only
  rw [State.woundAs] at hgrade
  rw [if_neg hgrade]
  exact ⟨State.raiseAlarm_flagged .., State.raiseAlarm_has _ h .coilDowngraded⟩

/-! ## The segment completed -/

/-- From `s` to `w` the segment of coiler `h` has ended: its rope has the fields `b`, its queue is `queue`, and COIL is raised. -/
structure State.Completes (h : HeadIx) (r : Record) (b : RopeBody) (queue : List CoilOrder) (s w : State) : Prop where
  rope : w.find r.tag = some { r with body := .rope b }
  same : w.head h = { s.head h with queue := queue, segment := none }
  others : ∀ g, g ≠ h → w.head g = s.head g
  records : ∀ j, j ≠ r.tag → (s.head h).named .segment ≠ some j → w.find j = s.find j
  tags : w.store.map Record.tag = s.store.map Record.tag
  prefixes : w.coilPrefix = s.coilPrefix
  serial : w.coilSerial = s.coilSerial
  clock : w.clock = s.clock
  notices : s.KeepsNotices w
  coil : w.flagged h .coil = true

/-- The end of a segment whose records have been settled in `t`, and the queue in `w`. -/
theorem State.RecordsOnly.completes (R : s.RecordsOnly t) (hr : t.find r.tag = some { r with body := .rope b })
    (hj : ∀ j, j ≠ r.tag → (s.head h).named .segment ≠ some j → t.find j = s.find j) (hw : w.head h = { s.head h with queue := queue })
    (hothers : ∀ k, k ≠ h → w.head k = t.head k) (hwt : w = { t with heads := w.heads }) :
    s.Completes h r b queue ((w.raise h .coil).updHead h fun x => { x with segment := none }) ∧
      t.KeepsNotices ((w.raise h .coil).updHead h fun x => { x with segment := none }) := by
  have hstore : w.store = t.store := by rw [hwt]
  have hfind (j : Nat) : ((w.raise h .coil).updHead h fun x => { x with segment := none }).find j = t.find j :=
    State.find_of_store hstore j
  have N : t.KeepsNotices ((w.raise h .coil).updHead h fun x => { x with segment := none }) :=
    (State.KeepsNotices.of_attn (by rw [hwt])).trans ((State.raise_notices w h .coil).trans (.of_attn rfl))
  refine ⟨⟨(hfind _).trans hr, ?_, fun k hk => ?_, fun j hne hn => (hfind j).trans (hj j hne hn), ?_, ?_, ?_, ?_, R.notices.trans N,
    State.raise_flagged ..⟩, N⟩
  · rw [State.updHead_head, State.raise_head, hw]
  · rw [State.updHead_head_ne _ _ hk, State.raise_head, hothers k hk, R.head]
  · exact (congrArg _ hstore).trans R.tags
  · exact (congrArg State.coilPrefix hwt).trans R.prefixes
  · exact (congrArg State.coilSerial hwt).trans R.serial
  · exact (congrArg State.clock hwt).trans R.clock

theorem State.completeSegment_coil (hseg : (s.head h).segment = some sg) (hs : s.sourceOf h = some (r, b)) (hcoil : sg.coil = some tag)
    (ex : s.find tag = some x) (hx : x.body = .coil c) :
    s.Completes h r (b.packs (min sg.unwound b.currentEnd))
      (judgeQueue sg.link (s.woundAs r.tag b.currentEnd (min sg.unwound b.currentEnd) false c) (s.head h).queue) (s.completeSegment h) ∧
    (s.completeSegment h).find tag = some (x.windTo (s.woundAs r.tag b.currentEnd (min sg.unwound b.currentEnd) false c)) ∧
    (c.grade ≠ (s.woundAs r.tag b.currentEnd (min sg.unwound b.currentEnd) false c).grade → (s.completeSegment h).NotesDowngrade h) := by
  obtain ⟨er, hb⟩ := State.sourceOf_find hs
  have hne : tag ≠ r.tag := fun e => by
    rw [e, er] at ex
    cases ex
    cases hb.symm.trans hx
  generalize hd : s.woundAs r.tag b.currentEnd (min sg.unwound b.currentEnd) false c = d
  have hwound := State.windCoil_find_coil (h := h) (rope := r.tag) (e := b.currentEnd) (actual := min sg.unwound b.currentEnd) (cut := false)
    ex hx hne
  have hrope := State.windCoil_find_rope (h := h) (e := b.currentEnd) (actual := min sg.unwound b.currentEnd) (cut := false) ex hx hne er
  have hother (j : Nat) (hj : j ≠ r.tag) (hn : (s.head h).named .segment ≠ some j) :=
    State.windCoil_find_other (h := h) (e := b.currentEnd) (actual := min sg.unwound b.currentEnd) (cut := false) (j := j) ex hx
      (fun e => hn (by rw [Head.named, hseg, e]; exact hcoil)) hj
  have hdown := State.windCoil_downgrades (h := h) (rope := r.tag) (e := b.currentEnd) (actual := min sg.unwound b.currentEnd) (cut := false) ex hx
  have R := State.windCoil_recordsOnly s h tag r.tag b.currentEnd (min sg.unwound b.currentEnd) false
  rw [hd] at hwound hdown
  rw [Record.packs_body hb] at hrope
  unfold State.completeSegment
  rw [hseg, hs]
  dsimp only
  rw [hcoil]
  dsimp only
  generalize s.windCoil h tag r.tag b.currentEnd (min sg.unwound b.currentEnd) false = t at hwound hrope hother hdown R
  rw [State.coilOf_of hwound (Record.windTo_body d x)]
  dsimp only
  have K := R.completes (h := h) (queue := judgeQueue sg.link d (s.head h).queue)
    (w := t.updHead h fun x => { x with queue := judgeQueue sg.link d x.queue }) hrope hother (by rw [State.updHead_head, R.head])
    (fun k hk => State.updHead_head_ne _ _ hk) rfl
  exact ⟨K.1, hwound, fun hgrade => K.2.downgrade (hdown hgrade)⟩

theorem State.completeSegment_waste (hseg : (s.head h).segment = some sg) (hs : s.sourceOf h = some (r, b)) (hcoil : sg.coil = none) :
    s.Completes h r (b.wastes (min sg.unwound b.currentEnd)) (s.head h).queue (s.completeSegment h) := by
  obtain ⟨er, hb⟩ := State.sourceOf_find hs
  have R := State.updRec_recordsOnly (Record.wastes_tag (min sg.unwound b.currentEnd)) s r.tag
  have hrope : (s.updRec r.tag (Record.wastes (min sg.unwound b.currentEnd))).find r.tag =
      some { r with body := .rope (b.wastes (min sg.unwound b.currentEnd)) } := by
    rw [State.find_updRec (Record.wastes_tag _), er, Option.map_some, Record.wastes_body hb]
  have K := R.completes (h := h) (queue := (s.head h).queue) hrope (fun j hj _ => State.find_updRec_ne (Record.wastes_tag _) hj)
    (R.head h) (fun _ _ => rfl) rfl
  unfold State.completeSegment
  rw [hseg, hs]
  dsimp only
  rw [hcoil]
  exact K.1

end Sys2Proof.Machine
end

section
/-! PROOF. The records that a plan point leaves (R153 to R157, R164). -/

namespace Sys2Proof.Machine

variable {g h k : HeadIx} {s t u w f : State} {r x y z : Record} {b : RopeBody} {c d : CoilBody} {p : Piece} {j rope e lo hi : Nat} {n : Span}
  {l l' : List Span} {gr : Grade}

/-! ## Spans that only lose holders -/

theorem meetsList_map {F : Span → Span} (hF : ∀ y, (F y).lo = y.lo ∧ (F y).hi = y.hi) (lo hi : Nat) (l : List Span) :
    meetsList lo hi (l.map F) = meetsList lo hi l := by
  unfold meetsList
  rw [List.any_map]
  refine congrArg l.any (funext fun y => ?_)
  obtain ⟨hlo, hhi⟩ := hF y
  simp only [Function.comp_apply, hlo, hhi]

theorem Piece.dropHolders_meets (p : Piece) (lo hi : Nat) : meetsList lo hi p.dropHolders.spans = meetsList lo hi p.spans :=
  meetsList_map (F := fun y => if y.isOpen then { y with isOpen := false, holders := {} } else y)
    (fun y => by split <;> exact ⟨rfl, rfl⟩) lo hi p.spans

/-- A rope that is unbound keeps its lengths, and what its spans meet (R12, R18). -/
theorem Record.unbindTo_rope (hb : r.body = .rope b) (st : RecordState) : ∃ b', (r.unbindTo st).body = .rope b' ∧
    b'.piece.made = b.piece.made ∧ b'.packed = b.packed ∧ b'.waste = b.waste ∧
    (∀ lo hi, meetsList lo hi b'.piece.spans = meetsList lo hi b.piece.spans) ∧ (r.state ≠ .making → b' = b) := by
  unfold Record.unbindTo
  split
  next hm =>
    unfold Record.leaveMaking
    have hp : r.body.piece = some b.piece := by rw [hb]; rfl
    rw [hp]
    have hbody : ((r.withPiece b.piece.dropHolders).closeSources (fun _ => true) b.piece.made).body =
        .rope { b with piece := b.piece.dropHolders, sources := closeEntries (fun _ => true) b.piece.made b.sources } := by
      simp only [Record.closeSources, Record.withPiece, hb]
      rfl
    exact ⟨_, hbody, rfl, rfl, rfl, Piece.dropHolders_meets b.piece, fun hne => absurd hm hne⟩
  next hm => exact ⟨b, hb, rfl, rfl, rfl, fun _ _ => rfl, fun _ => rfl⟩

/-! ## A coil that FLAW may have regraded -/

/-- In `t` the coil `y`, with the fields `c` before and the range [lo, hi), has the grade `gr`: the spans of its rope went from `l` to `l'`. -/
structure State.CoilRegraded (rope : Nat) (l l' : List Span) (lo hi : Nat) (t : State) (y : Record) (c : CoilBody) (gr : Grade) : Prop where
  record : t.find y.tag = some { y with body := .coil { c with grade := gr } }
  grade : gr = .second ↔ c.grade = .second ∨ (l' ≠ l ∧ c.belongs = true ∧ c.sourceRope = rope ∧ meetsList lo hi l' = true)
  notes : c.grade ≠ gr → t.NotesDowngrade c.origin

theorem Grade.ne_first : gr ≠ .first ↔ gr = .second := by cases gr <;> decide

theorem State.Regrades.regraded (R : s.Regrades rope l t y c) (hc : y.body = .coil c) (hst : y.state = .winding ∨ y.state = .wound) :
    ∃ gr, State.CoilRegraded rope (s.spansOf rope) l (s.judgedRange y c).1 (s.judgedRange y c).2 t y c gr := by
  have hsame : ({ y with body := .coil { c with grade := c.grade } } : Record) = y := by rw [← hc]
  unfold State.Regrades at R
  split at R
  next hcond =>
    obtain ⟨hl, hbel, hrope, -, hfirst, hmeets⟩ := hcond
    obtain ⟨hfind, hnotes⟩ := R
    exact ⟨.second, hfind, ⟨fun _ => .inr ⟨hl, hbel, hrope, hmeets⟩, fun _ => rfl⟩, fun _ => hnotes⟩
  next hcond =>
    refine ⟨c.grade, R.trans (congrArg some hsame.symm), ⟨.inl, fun hor => ?_⟩, fun hne => absurd rfl hne⟩
    rcases hor with hsecond | ⟨hl, hbel, hrope, hmeets⟩
    · exact hsecond
    · exact Grade.ne_first.mp fun hfirst => hcond ⟨hl, hbel, hrope, hst, hfirst, hmeets⟩

/-- A coil is FLAW's to regrade only where the rope gains a span. -/
theorem State.Regrades.of_same (hl : l = s.spansOf rope) (e : t.find y.tag = some y) : s.Regrades rope l t y c := by
  unfold State.Regrades
  rw [if_neg fun hc => hc.1 hl]
  exact e

/-- From `s` to `f` coiler `h` may have added FLAW's span to its rope `r` with the fields `b`: the spans are now `l`. -/
structure State.FlawsRope (h : HeadIx) (r : Record) (b : RopeBody) (l : List Span) (s f : State) : Prop where
  rope : ∃ z, f.find r.tag = some z ∧ z.body = .rope { b with piece := { b.piece with spans := l } } ∧ z.state = r.state
  coils : ∀ y c, s.find y.tag = some y → y.body = .coil c → s.Regrades r.tag l f y c
  low : (s.head h).flawHigh = false ∨ (s.head h).flawRise = none → l = b.piece.spans
  heads : ∀ g, ∃ rise, f.head g = { s.head g with flawRise := rise }

theorem State.FlawsRope.refl (hs : s.sourceOf h = some (r, b)) : s.FlawsRope h r b b.piece.spans s := by
  obtain ⟨er, hb⟩ := State.sourceOf_find hs
  exact ⟨⟨r, er, hb, rfl⟩, fun y c e _ => .of_same (State.spansOf_rope er hb).symm e, fun _ => rfl, fun g => ⟨_, rfl⟩⟩

/-- A head that drops its rise position. -/
theorem State.updHead_rise (s : State) (h : HeadIx) (g : HeadIx) :
    ∃ rise, (s.updHead h fun x => { x with flawRise := none }).head g = { s.head g with flawRise := rise } := by
  by_cases hg : g = h
  · exact ⟨none, by rw [hg, State.updHead_head]⟩
  · exact ⟨(s.head g).flawRise, by rw [State.updHead_head_ne _ _ hg]⟩

theorem State.SpanAdded.flawsRope (A : s.SpanAdded r b n t) (hs : s.sourceOf h = some (r, b))
    (hhigh : (s.head h).flawHigh = true) (hrise : (s.head h).flawRise ≠ none) :
    s.FlawsRope h r b (normalize n b.piece.spans).1 t := by
  obtain ⟨-, hb⟩ := State.sourceOf_find hs
  refine ⟨⟨_, A.rope, Record.spanAdded_rope hb, rfl⟩, A.coils, fun hlow => ?_, fun g => ⟨_, A.heads g⟩⟩
  rcases hlow with hlow | hlow
  · rw [hhigh] at hlow
    cases hlow
  · exact absurd hlow hrise

/-- What alters no record, and at the heads the rise position alone. -/
theorem State.FlawsRope.of_store (F : s.FlawsRope h r b l t) (hu : u.store = t.store) (N : t.KeepsNotices u)
    (hheads : ∀ g, ∃ rise, u.head g = { t.head g with flawRise := rise }) : s.FlawsRope h r b l u := by
  obtain ⟨z, ez, hz⟩ := F.rope
  refine ⟨⟨z, (State.find_of_store hu _).trans ez, hz⟩, fun y c e hc => (F.coils y c e hc).of_parts hu N.downgrade, F.low, fun g => ?_⟩
  obtain ⟨rise, hrise⟩ := hheads g
  obtain ⟨_, hrise'⟩ := F.heads g
  exact ⟨rise, by rw [hrise, hrise']⟩

theorem State.flawAtLeaving_flaws (S : s.StoreOk) (hs : s.sourceOf h = some (r, b)) (p : Nat) :
    ∃ l, s.FlawsRope h r b l (s.flawAtLeaving h p) := by
  obtain ⟨er, hb⟩ := State.sourceOf_find hs
  unfold State.flawAtLeaving
  split
  next hhigh =>
    unfold State.coilerFlawFall
    rw [hs]
    split
    next pr r' b' hrise hs' =>
      cases hs'
      dsimp only
      generalize flawInterval b.piece.made (s.head h).settings.guardMargin pr p = i
      have hadded : ∃ l, s.FlawsRope h r b l (if i.1 < i.2 then s.addRopeSpan r.tag (Span.closed i.1 i.2 (KindSet.only .flaw)) else s) := by
        split
        · exact ⟨_, (State.addRopeSpan_adds S er hb _).flawsRope hs hhigh (by rw [hrise]; nofun)⟩
        · exact ⟨_, .refl hs⟩
      obtain ⟨l, F⟩ := hadded
      refine ⟨l, ?_⟩
      generalize (if i.1 < i.2 then s.addRopeSpan r.tag (Span.closed i.1 i.2 (KindSet.only .flaw)) else s) = t at F
      split
      · exact F.of_store rfl ((State.raiseAlarm_notices t h .bandedFlaw).trans (.of_attn rfl)) (State.updHead_rise _ h)
      · exact F.of_store rfl (.of_attn rfl) (State.updHead_rise _ h)
    · exact ⟨_, .refl hs⟩
  · exact ⟨_, .refl hs⟩

end Sys2Proof.Machine
end

section
/-! PROOF. A plan point, as the records see it. -/

namespace Sys2Proof.Machine

variable {g h k : HeadIx} {s t u w f : State} {r x y z : Record} {b b' : RopeBody} {c d : CoilBody} {j rope e lo hi : Nat} {l l' : List Span}
  {gr : Grade}

theorem State.applyPlan_find (hk : (s.head h).kind = some .coiler) (ej : s.find j = some x) (q : Plan) :
    (s.applyPlan h rope e q).find j = some x := by
  unfold State.applyPlan
  split
  · exact (State.find_of_store (State.planWaits_waits hk _).store j).trans ej
  · exact ej
  · split
    next t ht =>
      obtain ⟨-, n, K⟩ := State.createCoil_creates ht
      exact K.find_old ej
    · exact (State.find_of_store (State.planWaits_waits hk _).store j).trans ej

/-- A coil that no span reaches keeps its grade. -/
theorem State.CoilRegraded.of_find (e : t.find x.tag = some x) (hc : x.body = .coil d) : State.CoilRegraded rope l l lo hi t x d d.grade :=
  ⟨e.trans (congrArg some (by rw [← hc])), ⟨.inl, fun h => h.resolve_right fun h => h.1 rfl⟩, fun hne => absurd rfl hne⟩

/-- The spans of a rope may lose their holders: a coil that met one was SECOND already. -/
theorem State.CoilRegraded.of_meets {l₁ : List Span} (G : State.CoilRegraded rope l l₁ lo hi t x d gr)
    (hmeets : meetsList lo hi l' = meetsList lo hi l₁) (hclear : meetsList lo hi l = true → d.grade = .second) :
    State.CoilRegraded rope l l' lo hi t x d gr := by
  refine ⟨G.record, G.grade.trans ?_, G.notes⟩
  have hne {l₂ : List Span} (hs : d.grade ≠ .second) (hm : meetsList lo hi l₂ = true) : l₂ ≠ l := fun hl => hs (hclear (hl ▸ hm))
  refine ⟨fun hor => ?_, fun hor => ?_⟩
  all_goals
    by_cases hs : d.grade = .second
    · exact .inl hs
    obtain ⟨-, hbel, hrope, hm⟩ := hor.resolve_left hs
  · exact .inr ⟨hne hs (hmeets.trans hm), hbel, hrope, hmeets.trans hm⟩
  · exact .inr ⟨hne hs (hmeets.symm.trans hm), hbel, hrope, hmeets.symm.trans hm⟩

theorem State.CoilRegraded.of_find_eq (G : State.CoilRegraded rope l l' lo hi t x d gr) (hf : u.find x.tag = t.find x.tag)
    (N : t.KeepsNotices u) : State.CoilRegraded rope l l' lo hi u x d gr :=
  ⟨hf.trans G.record, G.grade, fun hne => N.downgrade (G.notes hne)⟩

/-- From `w` to `t` coiler `h` has passed a plan point: the fields of its rope went from `b` to `b'`. -/
structure State.PassesPlan (h : HeadIx) (tag : Nat) (b b' : RopeBody) (w t : State) : Prop where
  rope : ∃ z, t.find tag = some z ∧ z.body = .rope b'
  made : b'.piece.made = b.piece.made
  packed : b'.packed = b.packed
  waste : b'.waste = b.waste + min (w.head h).unplanned b.currentEnd
  coils : ∀ x d, w.find x.tag = some x → x.body = .coil d → x.state = .wound → (meetsList d.lo d.hi b.piece.spans = true → d.grade = .second) →
    ∃ gr, State.CoilRegraded tag b.piece.spans b'.piece.spans d.lo d.hi t x d gr ∧
      ((w.head h).flawHigh = false ∨ (w.head h).flawRise = none → gr = d.grade)

theorem State.endRope_passes (S : u.StoreOk) (hs : u.sourceOf h = some (y, b)) : ∃ b', (∃ z, (u.endRope h y.tag).find y.tag = some z ∧
      z.body = .rope b') ∧ b'.piece.made = b.piece.made ∧ b'.packed = b.packed ∧ b'.waste = b.waste ∧
    ∀ x d, u.find x.tag = some x → x.body = .coil d → x.state = .wound → (meetsList d.lo d.hi b.piece.spans = true → d.grade = .second) →
      ∃ gr, State.CoilRegraded y.tag b.piece.spans b'.piece.spans d.lo d.hi (u.endRope h y.tag) x d gr ∧
        ((u.head h).flawHigh = false ∨ (u.head h).flawRise = none → gr = d.grade) := by
  obtain ⟨ey, hb⟩ := State.sourceOf_find hs
  obtain ⟨l, F⟩ := State.flawAtLeaving_flaws S hs 0
  obtain ⟨z, ez, hz, -⟩ := F.rope
  obtain ⟨b', hb', hmade, hpacked, hwaste, hmeets, -⟩ := Record.unbindTo_rope hz .spent
  rw [State.endRope_eq]
  generalize u.flawAtLeaving h 0 = f at F ez
  generalize hv : (f.updRec y.tag fun r => r.unbindTo .spent).updHead h Head.ropeDone = v
  have hfind (j : Nat) : ((v.raise h .state).raise h .coil).find j = (f.updRec y.tag fun r => r.unbindTo .spent).find j := by
    rw [← hv]
    rfl
  have N : f.KeepsNotices ((v.raise h .state).raise h .coil) :=
    (State.KeepsNotices.of_attn (by rw [← hv]; rfl)).trans ((State.raise_notices v h .state).trans (State.raise_notices _ h .coil))
  generalize (v.raise h .state).raise h .coil = t at hfind N
  refine ⟨b', ⟨_, (hfind _).trans ?_, hb'⟩, hmade, hpacked, hwaste, fun x d ex hd hst hclear => ?_⟩
  · rw [State.find_updRec (fun _ => Record.unbindTo_tag ..), ez, Option.map_some]
  · have hne : x.tag ≠ y.tag := fun e => by
      rw [e, ey] at ex
      cases ex
      cases hb.symm.trans hd
    obtain ⟨gr, G⟩ := (F.coils x d ex hd).regraded hd (.inr hst)
    rw [State.spansOf_rope ey hb, State.judgedRange_eq, if_neg (by rw [hst]; nofun)] at G
    refine ⟨gr, (G.of_meets (hmeets _ _) hclear).of_find_eq ?_ N, fun hlow => ?_⟩
    · rw [hfind, State.find_updRec_ne (fun _ => Record.unbindTo_tag ..) hne]
    · have hl := F.low hlow
      by_cases hsecond : d.grade = .second
      · rw [hsecond]
        exact G.grade.mpr (.inl hsecond)
      · have hgr : gr ≠ .second := fun hg => (G.grade.mp hg).elim hsecond fun hor => hor.1 hl
        revert hsecond hgr
        cases gr <;> cases d.grade <;> decide

theorem State.planPoint_passes (S : w.StoreOk) (hk : (w.head h).kind = some .coiler) (hs : w.sourceOf h = some (y, b)) :
    ∃ b', w.PassesPlan h y.tag b b' (w.planPoint h) := by
  obtain ⟨hsource, -⟩ := State.sourceOf_source hs
  obtain ⟨ey, hb⟩ := State.sourceOf_find hs
  have O := State.openPlan_opens h y.tag b.currentEnd w
  unfold State.planPoint
  rw [hs]
  dsimp only
  generalize w.openPlan h y.tag b.currentEnd = u at O
  have eu : u.find y.tag = some (y.wastes (min (w.head h).unplanned b.currentEnd)) := by
    rw [State.find_of_store O.store, State.find_updRec (Record.wastes_tag _), ey, Option.map_some]
  have hold (x : Record) (d : CoilBody) (ex : w.find x.tag = some x) (hd : x.body = .coil d) : u.find x.tag = some x := by
    have hne : x.tag ≠ y.tag := fun e => by
      rw [e, ey] at ex
      cases ex
      cases hb.symm.trans hd
    rw [State.find_of_store O.store, State.find_updRec_ne (Record.wastes_tag _) hne, ex]
  have hbody : (y.wastes (min (w.head h).unplanned b.currentEnd)).body = .rope (b.wastes (min (w.head h).unplanned b.currentEnd)) := by
    rw [Record.wastes_body hb]
  split
  · have Su : u.StoreOk := S.of_tags (by rw [O.store, State.updRec_tags (Record.wastes_tag _)])
    have hsu : u.sourceOf h = some (y.wastes (min (w.head h).unplanned b.currentEnd), b.wastes (min (w.head h).unplanned b.currentEnd)) := by
      rw [State.sourceOf, O.same, hsource, Option.bind_some, eu, Option.bind_some, hbody]
    obtain ⟨b', hrope, hmade, hpacked, hwaste, hcoils⟩ := State.endRope_passes Su hsu
    rw [Record.wastes_tag] at hrope hcoils
    rw [O.same] at hcoils
    exact ⟨b', hrope, hmade, hpacked, hwaste, fun x d ex hd hst hclear => hcoils x d (hold x d ex hd) hd hst hclear⟩
  · have hku : (u.head h).kind = some .coiler := by
      rw [O.same]
      exact hk
    exact ⟨_, ⟨_, State.applyPlan_find hku eu _, hbody⟩, rfl, rfl, rfl, fun x d ex hd _ _ =>
      ⟨d.grade, .of_find (State.applyPlan_find hku (hold x d ex hd) _) hd, fun _ => rfl⟩⟩

end Sys2Proof.Machine
end

section
/-! PROOF. The end of a cut on a coiler (O17). -/

namespace Sys2Proof.Machine

variable {g h k : HeadIx} {s t u w f : State} {r x y z : Record} {b b₁ b' : RopeBody} {c d : CoilBody} {j tag n e actual : Nat}
  {queue : List CoilOrder} {v : Bool} {G : State → State} {sg : Segment} {i : Instr}

theorem State.updHead_self {F : Head → Head} (hF : F (s.head h) = s.head h) : s.updHead h F = s := by
  rw [State.updHead_congr (g := id) hF]
  simp [State.updHead, State.head]

/-- The machine in which the segment of coiler `h` completes: RUN stands at `v`. -/
def State.runs (h : HeadIx) (v : Bool) (s : State) : State := s.updHead h fun x => { x with runHigh := v }

theorem State.runs_head (s : State) (h : HeadIx) (v : Bool) : (s.runs h v).head h = { s.head h with runHigh := v } := State.updHead_head ..

theorem State.runs_kind (s : State) (h : HeadIx) (v : Bool) : ((s.runs h v).head h).kind = (s.head h).kind := by
  rw [State.runs_head]
  rfl

theorem State.runs_segment (s : State) (h : HeadIx) (v : Bool) : ((s.runs h v).head h).segment = (s.head h).segment := by
  rw [State.runs_head]

theorem State.runs_queue (s : State) (h : HeadIx) (v : Bool) : ((s.runs h v).head h).queue = (s.head h).queue := by
  rw [State.runs_head]

theorem State.runs_sourceOf (s : State) (h : HeadIx) (v : Bool) : (s.runs h v).sourceOf h = s.sourceOf h :=
  State.sourceOf_congr (by rw [State.runs_head]) fun _ _ => rfl

/-- Both ways to the end of a cut complete it, on the level of RUN as it then stands. -/
theorem exec_cut_done (hst : (s.head h).state = .cutting)
    (hway : (i = .cutWaitExpiry h ∧ (s.head h).cutWait = some 0) ∨ (i = .runFall h ∧ (s.head h).cutRunHigh = true)) :
    ∃ G, exec i s = .next (s.change G) ∧ G s = (s.runs h ((s.head h).runHigh && decide (i ≠ .runFall h))).completeCut h := by
  rcases hway with ⟨rfl, hw⟩ | ⟨rfl, hrun⟩
  · refine ⟨State.cutWaitExpiry h, exec_cutWaitExpiry h s, ?_⟩
    rw [State.cutWaitExpiry_of hst hw, State.runs, State.updHead_self]
    simp
  · refine ⟨State.runFall h, exec_runFall h s, ?_⟩
    rw [State.runFall_cut hst hrun, State.runs]
    simp

/-! ## The change about the plan point that follows -/

theorem State.Completes.sourceOf (K : (s.runs h v).Completes h r b₁ queue w) (hs : s.sourceOf h = some (r, b)) :
    w.sourceOf h = some ({ r with body := .rope b₁ }, b₁) := by
  obtain ⟨hsource, -⟩ := State.sourceOf_source hs
  have hw : (w.head h).source = some r.tag := by
    rw [K.same, State.runs_head]
    exact hsource
  rw [State.sourceOf, hw, Option.bind_some, K.rope, Option.bind_some]

theorem State.Completes.prepares (K : (s.runs h v).Completes h r b₁ queue w) (hs : s.sourceOf h = some (r, b))
    (hspans : b₁.piece.spans = b.piece.spans) : s.Prepares h r.tag w := by
  obtain ⟨er, hb⟩ := State.sourceOf_find hs
  refine ⟨fun j hj hn => (K.records j hj ?_).trans rfl, ?_, fun k hk => (K.others k hk).trans (State.updHead_head_ne _ _ hk), K.tags, K.clock⟩
  · rw [State.runs_head]
    exact hn
  · rw [State.spansOf_rope K.rope rfl, State.spansOf_rope er hb, hspans]

theorem State.Completes.planning (K : (s.runs h v).Completes h r b₁ queue w) (B : s.BindingsOk) (hs : s.sourceOf h = some (r, b))
    (hst : (s.head h).state = .cutting) (hcounted : r.counted = ({ r with body := .rope b₁ } : Record).counted) :
    s.Planning h r b₁ { s.head h with queue := queue, segment := none, runHigh := v } (r.mark + 1) w := by
  obtain ⟨hsource, -⟩ := State.sourceOf_source hs
  obtain ⟨er, hb⟩ := State.sourceOf_find hs
  obtain ⟨hin, hk⟩ := B.source_state hs
  have hhead : w.head h = { s.head h with queue := queue, segment := none, runHigh := v } := by
    rw [K.same, State.runs_head]
  refine ⟨⟨r, _, er, K.rope, by rw [Record.kind, hb]; rfl, by rw [hin]; nofun, rfl, rfl, fun hm => ?_, Record.stepMark_same hcounted⟩,
    ?_, ?_, ?_, K.prefixes, K.serial, .inr (.inr hst)⟩
  · cases hin.symm.trans hm
  all_goals rw [hhead]
  · exact hsource
  · exact hk

/-- What the end of a cut leaves of the coiler and of its rope, `w` being the machine in which the segment has ended (R63, R159). -/
structure State.CutEnds (h : HeadIx) (r : Record) (b₁ b' : RopeBody) (orders : List CoilOrder) (v : Bool) (s w t : State) : Prop where
  rope : ∃ r', t.find r.tag = some r' ∧ r'.body = .rope b'
  same : w.head h = { s.head h with queue := orders, segment := none, runHigh := v }
  passes : w.PassesPlan h r.tag b₁ b' (w.planPoint h)
  queue : (t.head h).queue = orders
  cutWait : (t.head h).cutWait = none
  coil : t.flagged h .coil = true
  notices : (w.planPoint h).KeepsNotices t
  raised : w.KeepsNotices t
  plans : s.BindingsOk → s.Plans h r (b₁.wastes (min (s.head h).unplanned b₁.currentEnd))
    { s.head h with queue := orders, segment := none, runHigh := v } (r.mark + 1) t

theorem State.FlawLeaves.of_store {p : Nat} {x : Head} {l : List Span} (F : s.FlawLeaves h x r b p l t) (hs : u.store = t.store)
    (N : t.KeepsNotices u) : s.FlawLeaves h x r b p l u where
  low := F.low
  high := F.high
  coils pr hh hp hm y c e hc hn := (F.coils pr hh hp hm y c e hc hn).of_store hs N
  banded pr hh hp hr := by
    obtain ⟨hflag, hcause⟩ := F.banded pr hh hp hr
    exact ⟨N.flags _ hflag, N.causes h .bandedFlaw hcause⟩

/-- The wait of a cut is nothing to what a plan point leaves. -/
theorem State.Plans.of_cutWait {m : Mark} {x : Head} (P : s.Plans h r b x m t) :
    s.Plans h r b x m (t.updHead h fun x => { x with cutWait := none }) := by
  unfold State.Plans at P ⊢
  rw [State.updHead_head]
  obtain ⟨hunplanned, hpitch, hqueue, hrun, hend, hwaste, hwaits, hcoil⟩ := P
  refine ⟨hunplanned, hpitch, hqueue, hrun, fun he => ?_, hwaste, hwaits, hcoil⟩
  obtain ⟨r', b', er, hb, hw, hp, hm, hst, hbound, hmark, hdone, hholds, hsource, hseg, hstate, hcoil, hflaw⟩ := hend he
  exact ⟨r', b', er, hb, hw, hp, hm, hst, hbound, hmark, hdone, hholds, hsource, hseg, hstate, hcoil,
    fun B C => (hflaw B C).of_store rfl (.of_attn rfl)⟩

theorem State.Completes.cutEnds (K : (s.runs h v).Completes h r b₁ queue w) (S : s.StoreOk) (T : s.CoilTagsOk)
    (hs : s.sourceOf h = some (r, b)) (hk : (s.head h).kind = some .coiler) (hst : (s.head h).state = .cutting)
    (hspans : b₁.piece.spans = b.piece.spans) (hcounted : r.counted = ({ r with body := .rope b₁ } : Record).counted)
    (hw : (s.runs h v).completeSegment h = w) (hG : G s = (s.runs h v).completeCut h) :
    ∃ b', s.CutEnds h r b₁ b' queue v w (s.change G) := by
  obtain ⟨er, -⟩ := State.sourceOf_find hs
  have Sw : w.StoreOk := S.of_tags K.tags
  have hhead : w.head h = { s.head h with queue := queue, segment := none, runHigh := v } := by
    rw [K.same, State.runs_head]
  have hkw : (w.head h).kind = some .coiler := by
    rw [hhead]
    exact hk
  have hG' : G s = (w.planPoint h).updHead h fun x => { x with cutWait := none } := by
    rw [hG, State.completeCut, State.runs_kind, hk]
    dsimp only
    rw [hw]
  have hsw := K.sourceOf hs
  obtain ⟨b', P⟩ := State.planPoint_passes Sw hkw hsw
  obtain ⟨z, ez, hz⟩ := P.rope
  obtain ⟨N, -, -⟩ := State.planPoint_rest Sw hkw hsw
  have ez' : (G s).find r.tag = some z := by
    rw [hG']
    exact ez
  have Nt : (w.planPoint h).KeepsNotices (s.change G) := .of_attn (by rw [State.change_attn, hG']; rfl)
  refine ⟨b', ⟨_, State.change_find er ez', (Record.stepMark_body ..).trans hz⟩, hhead, P, ?_, ?_, ?_, Nt, N.trans Nt, fun B => ?_⟩
  · rw [State.change_head, hG', State.updHead_head]
    exact (State.planPoint_queue Sw hkw).trans (congrArg Head.queue hhead)
  · rw [State.change_head, hG', State.updHead_head]
  · rw [State.flagged, State.change_attn, hG']
    exact N.flags _ K.coil
  · have Br : (s.runs h v).BindingsOk := State.updHead_bindingsOk (fun _ => rfl) B
    have Bw : w.BindingsOk := by
      rw [← hw]
      exact (State.completeSegment_boundBut (Br.but h)).1.ok
    have hplans := (K.planning B hs hst hcounted).plans_point (g := fun _ => w.planPoint h) (K.prepares hs hspans) S T (fun _ => Bw) rfl
    have hchange : s.change G = (s.change fun _ => w.planPoint h).updHead h fun x => { x with cutWait := none } := by
      rw [State.change, hG']
      rfl
    rw [hchange]
    rw [hhead] at hplans
    exact hplans.of_cutWait

end Sys2Proof.Machine
end

section
/-! PROOF. The completion of a segment at the end of a cut, settled (O17). -/

namespace Sys2Proof.Machine

variable {g h k : HeadIx} {s t u w f : State} {r x y z : Record} {b b₁ b' : RopeBody} {c d : CoilBody} {j tag n e actual lo hi : Nat}
  {queue orders rest : List CoilOrder} {v : Bool} {G : State → State} {sg : Segment} {i : Instr} {gr : Grade} {l l' : List Span} {link : Bool}
  {o : CoilOrder}

/-- The entry that a coil meets counts down, and leaves the queue at its end (R160). -/
theorem judgeQueue_cons : judgeQueue link c (o :: rest) =
    if link = true ∧ c.short = false ∧ o.length ≤ c.hi - c.lo ∧ (o.rule = .secondOk ∨ c.grade = .first) then
      if 1 < o.count then { o with count := o.count - 1 } :: rest else rest
    else o :: rest := by
  have hmeets : o.rule.meets c.grade = true ↔ o.rule = .secondOk ∨ c.grade = .first := by
    cases o.rule <;> cases c.grade <;> decide
  have hcond : (link && !c.short && decide (o.length ≤ c.hi - c.lo) && o.rule.meets c.grade) = true ↔
      link = true ∧ c.short = false ∧ o.length ≤ c.hi - c.lo ∧ (o.rule = .secondOk ∨ c.grade = .first) := by
    simp only [Bool.and_eq_true, hmeets, decide_eq_true_eq, Bool.not_eq_true', and_assoc]
  simp only [judgeQueue, hcond]
  by_cases hn : 1 < o.count
  · simp only [if_pos hn, if_neg (by omega : ¬o.count ≤ 1)]
  · simp only [if_neg hn, if_pos (by omega : o.count ≤ 1)]

theorem RopeBody.packs_counted (hb : r.body = .rope b) (n : Nat) : r.counted = ({ r with body := .rope (b.packs n) } : Record).counted := by
  simp only [Record.counted, Record.spans, hb]
  rfl

theorem RopeBody.packs_currentEnd (b : RopeBody) (n : Nat) : (b.packs n).currentEnd = b.currentEnd - n := by
  simp only [RopeBody.packs, RopeBody.currentEnd]
  omega

/-- The coil of the segment after the cut, `gr` being its grade once FLAW has passed. -/
theorem State.CutEnds.segment (E : s.CutEnds h r b₁ b' orders v w (s.change G)) (ex : s.find tag = some x) (hst : x.state = .winding)
    (ew : w.find tag = some (x.windTo d)) (hG : (G s).store = (w.planPoint h).store)
    (hclear : meetsList d.lo d.hi b₁.piece.spans = true → d.grade = .second) :
    ∃ (x' : Record) (gr : Grade), (s.change G).find tag = some x' ∧ x'.state = .wound ∧ x'.bound = none ∧ x'.mark = x.mark + 1 ∧
      x'.body = .coil { d with grade := gr } ∧
      (gr = .second ↔ d.grade = .second ∨ (b'.piece.spans ≠ b₁.piece.spans ∧ d.belongs = true ∧ d.sourceRope = r.tag ∧
        meetsList d.lo d.hi b'.piece.spans = true)) ∧
      (d.grade ≠ gr → (s.change G).NotesDowngrade d.origin) ∧ ((s.head h).flawHigh = false ∨ (s.head h).flawRise = none → gr = d.grade) := by
  have htag : (x.windTo d).tag = tag := (Record.windTo_tag d x).trans (State.find_mem ex).2
  obtain ⟨gr, H, hlow⟩ := E.passes.coils (x.windTo d) d (by rw [htag]; exact ew) (Record.windTo_body d x) (Record.windTo_state d x) hclear
  rw [E.same] at hlow
  have hrecord := H.record
  rw [htag, ← State.find_of_store hG] at hrecord
  have hstep := State.change_state ex hrecord (by rw [hst]; nofun)
  exact ⟨_, gr, hstep, rfl, rfl, rfl, rfl, H.grade, fun hne => E.notices.downgrade (H.notes hne), hlow⟩

theorem State.completeCut_store (hk : (s.head h).kind = some .coiler) : (s.completeCut h).store = ((s.completeSegment h).planPoint h).store := by
  rw [State.completeCut, hk]
  rfl

/-- Settles O17: the segment's completion is `State.Completes`, and the plan point after it is settled as any other. -/
theorem cutCompletesCoil : Obligations.CutCompletesCoil := by
  unfold Obligations.CutCompletesCoil
  intro h s r b g i S T hst hk hs hseg hway e actual left found
  obtain ⟨er, hb⟩ := State.sourceOf_find hs
  obtain ⟨G, hexec, hG⟩ := exec_cut_done hst hway
  obtain ⟨v, hv⟩ : ∃ v, ((s.head h).runHigh && decide (i ≠ .runFall h)) = v := ⟨_, rfl⟩
  rw [hv] at hG
  have hseg' := (State.runs_segment s h v).trans hseg
  have hs' := (State.runs_sourceOf s h v).trans hs
  refine ⟨fun tag x c hcoil ex hx hwinding => ?_, fun hcoil => ?_⟩
  · have hstore := (congrArg State.store hG).trans (State.completeCut_store ((State.runs_kind s h v).trans hk))
    obtain ⟨K, ew, hdown⟩ := State.completeSegment_coil hseg' hs' hcoil ex hx
    have hwound : (s.runs h v).woundAs r.tag e actual false c = c.wind (e - actual) e false b.piece.spans :=
      congrArg (fun l => c.wind (e - actual) e false l) (State.spansOf_rope er hb)
    rw [State.runs_queue, hwound] at K
    rw [hwound] at ew hdown
    obtain ⟨b', E⟩ := K.cutEnds S T hs hk hst rfl (RopeBody.packs_counted hb _) rfl hG
    obtain ⟨r', er', hb'⟩ := E.rope
    have hwaste := E.passes.waste
    have hplans := E.plans
    have hqueue := E.queue
    rw [E.same, RopeBody.packs_currentEnd] at hwaste
    rw [← E.queue, RopeBody.packs_currentEnd, ← hv] at hplans
    obtain ⟨x', gr, ex', hst', hbound, hmark, hx', hgrade, hnotes, hlow⟩ := E.segment ex hwinding ew hstore fun hm => if_pos hm
    have hwinds (hne : c.grade ≠ (c.wind (e - actual) e false b.piece.spans).grade) : (s.change G).NotesDowngrade h :=
      E.raised.downgrade (hdown hne)
    refine ⟨_, x', r', { c.wind (e - actual) e false b.piece.spans with grade := gr }, b', hexec, ex', hst', hbound, hmark, hx', rfl, rfl, rfl,
      Bool.or_false _, hlow, hgrade, fun hne ho => ?_, hwinds, E.coil, er', hb', E.passes.made, E.passes.packed, hwaste, E.cutWait, hplans,
      fun hq => ?_, fun o rest hq => ?_⟩
    · by_cases hw : c.grade = (c.wind (e - actual) e false b.piece.spans).grade
      · exact ho ▸ hnotes fun hgr => hne (hw.trans hgr)
      · exact hwinds hw
    · rw [hqueue, hq]
      rfl
    · have hlen : (c.wind (e - actual) e false b.piece.spans).hi - (c.wind (e - actual) e false b.piece.spans).lo = actual :=
        Nat.sub_sub_self (Nat.min_le_right ..)
      have hshort : (c.wind (e - actual) e false b.piece.spans).short = c.short := Bool.or_false _
      rw [hqueue, hq, judgeQueue_cons, hlen, hshort]
      rfl
  · have K := State.completeSegment_waste hseg' hs' hcoil
    rw [State.runs_queue] at K
    obtain ⟨b', E⟩ := K.cutEnds S T hs hk hst rfl (Record.counted_wastes hb _).symm rfl hG
    obtain ⟨r', er', hb'⟩ := E.rope
    have hwaste := E.passes.waste
    have hplans := E.plans
    rw [E.same, RopeBody.wastes_currentEnd] at hwaste
    rw [← E.queue, RopeBody.wastes_currentEnd, ← hv] at hplans
    exact ⟨_, r', b', hexec, E.coil, er', hb', E.passes.made, E.passes.packed, hwaste, E.queue, E.cutWait, hplans⟩

end Sys2Proof.Machine
end

section
/-! PROOF. What a coiler's segment cut short and its rope given up leave (R72, R161). -/

namespace Sys2Proof.Machine

variable {g h k : HeadIx} {s t u w f : State} {r x y z : Record} {b b₁ b' : RopeBody} {c d : CoilBody} {j tag n e actual rope : Nat} {l : List Span}
  {sg : Segment} {gr : Grade}

/-! ## The segment cut short -/

theorem State.RecordsOnly.refl (s : State) : s.RecordsOnly s := ⟨rfl, rfl, rfl, rfl, rfl, .refl s⟩

theorem State.raise_recordsOnly (s : State) (h : HeadIx) (a : HeadFlag) : s.RecordsOnly (s.raise h a) :=
  ⟨rfl, rfl, rfl, rfl, rfl, State.raise_notices s h a⟩

/-- From `f` to `w` the segment of coiler `h` has been cut short: its rope, which was `z`, has the fields `b₁`. -/
structure State.CutsShort (h : HeadIx) (z : Record) (b₁ : RopeBody) (f w : State) : Prop where
  rope : w.find z.tag = some { z with body := .rope b₁ }
  rest : f.RecordsOnly w
  records : ∀ j, j ≠ z.tag → (f.head h).named .segment ≠ some j → w.find j = f.find j

theorem State.cutShort_coil (hseg : (f.head h).segment = some sg) (hcoil : sg.coil = some tag) (er : f.find z.tag = some z)
    (hb : z.body = .rope b) (ex : f.find tag = some x) (hx : x.body = .coil c) :
    f.CutsShort h z (b.packs (min sg.unwound e)) (f.cutShort h z.tag e) ∧ (f.cutShort h z.tag e).flagged h .coil = true ∧
      (f.cutShort h z.tag e).find tag = some (x.windTo (f.woundAs z.tag e (min sg.unwound e) true c)) ∧
      (c.grade ≠ (f.woundAs z.tag e (min sg.unwound e) true c).grade → (f.cutShort h z.tag e).NotesDowngrade h) := by
  have hne : tag ≠ z.tag := fun e => by
    rw [e, er] at ex
    cases ex
    cases hb.symm.trans hx
  have hrope := State.windCoil_find_rope (h := h) (e := e) (actual := min sg.unwound e) (cut := true) ex hx hne er
  rw [Record.packs_body hb] at hrope
  have R := State.windCoil_recordsOnly f h tag z.tag e (min sg.unwound e) true
  have Q := State.raise_recordsOnly (f.windCoil h tag z.tag e (min sg.unwound e) true) h .coil
  have hcut : f.cutShort h z.tag e = (f.windCoil h tag z.tag e (min sg.unwound e) true).raise h .coil := by
    simp only [State.cutShort, hseg, hcoil]
  rw [hcut]
  refine ⟨⟨hrope, R.trans Q, fun j hj hn => State.windCoil_find_other ex hx (fun e => hn ?_) hj⟩, State.raise_flagged ..,
    State.windCoil_find_coil ex hx hne, fun hgrade => Q.notices.downgrade (State.windCoil_downgrades ex hx hgrade)⟩
  rw [Head.named, hseg, e]
  exact hcoil

theorem State.addWaste_cutsShort (er : f.find z.tag = some z) (hb : z.body = .rope b) (n : Nat) :
    f.CutsShort h z (b.wastes n) (f.addWaste z.tag n) := by
  refine ⟨?_, State.updRec_recordsOnly (Record.wastes_tag n) f z.tag, fun j hj _ => State.find_updRec_ne (Record.wastes_tag n) hj⟩
  rw [← Record.wastes_body hb]
  exact (State.find_updRec (Record.wastes_tag n)).trans (by rw [er, Option.map_some])

theorem State.CutsShort.raise (C : f.CutsShort h z b₁ w) (a : HeadFlag) : f.CutsShort h z b₁ (w.raise h a) :=
  ⟨C.rope, C.rest.trans (State.raise_recordsOnly w h a), C.records⟩

theorem State.cutShort_waste (hseg : (f.head h).segment = some sg) (hcoil : sg.coil = none) (er : f.find z.tag = some z) (hb : z.body = .rope b) :
    f.CutsShort h z (b.wastes (min sg.unwound e)) (f.cutShort h z.tag e) ∧ (f.cutShort h z.tag e).flagged h .coil = true := by
  have hcut : f.cutShort h z.tag e = (f.addWaste z.tag (min sg.unwound e)).raise h .coil := by
    simp only [State.cutShort, hseg, hcoil]
  rw [hcut]
  exact ⟨(State.addWaste_cutsShort er hb _).raise .coil, State.raise_flagged ..⟩

theorem State.cutShort_none (hseg : (f.head h).segment = none) (er : f.find z.tag = some z) (hb : z.body = .rope b) :
    f.CutsShort h z (b.wastes (min (f.head h).unplanned e)) (f.cutShort h z.tag e) ∧
      (0 < (f.head h).unplanned → (f.cutShort h z.tag e).flagged h .coil = true) := by
  have K := State.addWaste_cutsShort (h := h) er hb (min (f.head h).unplanned e)
  unfold State.cutShort
  rw [hseg]
  dsimp only
  split
  · exact ⟨K.raise .coil, fun _ => State.raise_flagged ..⟩
  next hno => exact ⟨K, fun h => absurd h hno⟩

/-! ## The rope given up -/

/-- From `f` to `w` coiler `h` has given up its rope, which was `z`: it now has the fields `b₁`. -/
structure State.GivesUp (h : HeadIx) (z : Record) (b₁ : RopeBody) (f w : State) : Prop where
  rope : w.find z.tag = some { z with
    body := .rope b₁, state := if b₁.currentEnd = 0 then .spent else .made, bound := none, boundFrom := none }
  rest : f.RecordsOnly w
  records : ∀ j, j ≠ z.tag → w.find j = f.find j
  coil : b₁.currentEnd = 0 → w.flagged h .coil = true

theorem State.CutsShort.givesUp (C : f.CutsShort h z b₁ w) (hsource : (f.head h).source = some z.tag) (hm : z.state ≠ .making) :
    w.GivesUp h z b₁ (w.giveUpRope h) := by
  have hs : w.sourceOf h = some ({ z with body := .rope b₁ }, b₁) := by
    rw [State.sourceOf, C.rest.head, hsource, Option.bind_some, C.rope, Option.bind_some]
  have hfind (st : RecordState) : (w.updRec z.tag fun y => y.unbindTo st).find z.tag =
      some { z with body := .rope b₁, state := st, bound := none, boundFrom := none } := by
    rw [State.find_updRec (fun _ => Record.unbindTo_tag ..), C.rope, Option.map_some]
    exact congrArg some (Record.unbindTo_plain (x := { z with body := .rope b₁ }) hm)
  unfold State.giveUpRope
  rw [hs]
  dsimp only
  split
  next he =>
    refine ⟨(hfind .spent).trans (by rw [if_pos he]), ?_, fun j hj => State.find_updRec_ne (fun _ => Record.unbindTo_tag ..) hj,
      fun _ => State.raise_flagged ..⟩
    exact (State.updRec_recordsOnly (fun _ => Record.unbindTo_tag ..) w z.tag).trans (State.raise_recordsOnly _ h .coil)
  next he =>
    exact ⟨(hfind .made).trans (by rw [if_neg he]), State.updRec_recordsOnly (fun _ => Record.unbindTo_tag ..) w z.tag,
      fun j hj => State.find_updRec_ne (fun _ => Record.unbindTo_tag ..) hj, fun h0 => absurd h0 he⟩

end Sys2Proof.Machine
end

section
/-! PROOF. A coiler that gives up its rope (O18). -/

namespace Sys2Proof.Machine

variable {g h k : HeadIx} {s t u w f : State} {r x y z : Record} {b b₁ b' : RopeBody} {c d : CoilBody} {j tag n e actual rope p : Nat} {l : List Span}
  {sg : Segment} {gr : Grade} {i : Instr}

/-! ## The two ways -/

/-- In `t` head `h` has been freed, its records standing as in `w` (R69, R76, R161). -/
structure State.HeadFreed (h : HeadIx) (s w t : State) : Prop where
  store : t.store = (s.commit w).store
  notices : w.KeepsNotices t
  segment : (t.head h).segment = none
  unplanned : (t.head h).unplanned = 0
  rise : (t.head h).flawRise = none
  source : (t.head h).source = none

theorem State.senseSettled_freed (hs : (s.head h).settle = 64) (hn : senseResult (s.head h).candidate ≠ (s.head h).accepted)
    (hk : (s.head h).kind = some .coiler) (hr : (s.head h).state.running = true) :
    s.HeadFreed h (s.endSegment h) (s.change (State.senseSettled h)) := by
  have hsettled : s.senseSettled h = (((s.endSegment h).updHead h fun x => { x.free .empty with queue := [] }).updHead h fun x =>
      { x with
        accepted := senseResult (s.head h).candidate
        state := (senseResult (s.head h).candidate).state }).raise h .sense := by
    rw [State.senseSettled_of_new hs hn, if_pos (by rw [hk]; rfl), State.disconnect, State.settleRecords_running hr, State.endRunning, hk]
  generalize s.endSegment h = w at hsettled
  generalize hw : ((w.updHead h fun x => { x.free .empty with queue := [] }).updHead h fun x =>
      { x with
        accepted := senseResult (s.head h).candidate
        state := (senseResult (s.head h).candidate).state }) = w' at hsettled
  have hhead : (w'.head h).segment = none ∧ (w'.head h).unplanned = 0 ∧ (w'.head h).flawRise = none ∧ (w'.head h).source = none := by
    rw [← hw, State.updHead_head, State.updHead_head]
    exact ⟨rfl, rfl, rfl, rfl⟩
  obtain ⟨hseg, hunplanned, hrise, hsource⟩ := hhead
  have N : w.KeepsNotices (s.change (State.senseSettled h)) :=
    (State.KeepsNotices.of_attn (t := w') (by rw [← hw]; rfl)).trans
      ((State.raise_notices w' h .sense).trans (.of_attn (by rw [State.change_attn, hsettled])))
  have hstore : (s.change (State.senseSettled h)).store = (s.commit w).store := by
    rw [State.change, hsettled, ← hw]
    rfl
  refine ⟨hstore, N, ?_, ?_, ?_, ?_⟩ <;> rw [State.change_head, hsettled, State.raise_head] <;> assumption

theorem State.releaseHead_freed (hk : (s.head h).kind = some .coiler) (hr : (s.head h).state.running = true) :
    s.HeadFreed h (s.endSegment h) (s.change (State.releaseHead h)) := by
  have hreleased : s.releaseHead h = (s.endSegment h).updHead h (Head.free .idle) := by
    rw [State.releaseHead, State.settleRecords_running hr, State.endRunning, hk]
  generalize s.endSegment h = w at hreleased
  have hstore : (s.change (State.releaseHead h)).store = (s.commit w).store := by
    rw [State.change, hreleased]
    rfl
  refine ⟨hstore, .of_attn (by rw [State.change_attn, hreleased]; rfl), ?_, ?_, ?_, ?_⟩ <;>
    rw [State.change_head, hreleased, State.updHead_head] <;> rfl

/-- A disconnect and a RELEASE of a coiler in a running state end its segment and free it. -/
theorem exec_freed (hk : (s.head h).kind = some .coiler) (hr : (s.head h).state.running = true)
    (hway : (i = .senseSettled h ∧ (s.head h).settle = 64 ∧ senseResult (s.head h).candidate ≠ (s.head h).accepted) ∨
      (∃ p body, i = .release p h.val ∧ s.Asks p i body ∧ s.mayRelease p h.val = true)) :
    ∃ t, exec i s = .next t ∧ s.HeadFreed h (s.endSegment h) t := by
  rcases hway with ⟨rfl, hs, hn⟩ | ⟨p, body, rfl, hasks, hmay⟩
  · exact ⟨_, exec_senseSettled h s, State.senseSettled_freed hs hn hk hr⟩
  · obtain ⟨hempty, hidle⟩ := HeadState.running_present hr
    have hexec := exec_answer (x := Reply.done []) hasks rfl (answerRelease_done hmay (State.presentHead_val hempty) hidle)
    obtain ⟨hstore, N, hseg, hunplanned, hrise, hsource⟩ := State.releaseHead_freed hk hr
    exact ⟨_, hexec, (by cases p <;> exact hstore), N.trans (.of_attn (by cases p <;> rfl)), (by cases p <;> exact hseg),
      (by cases p <;> exact hunplanned), (by cases p <;> exact hrise), (by cases p <;> exact hsource)⟩

/-! ## The records -/

theorem State.BindingsOk.segment_coil (B : s.BindingsOk) (hn : (s.head h).named .segment = some tag) :
    ∃ x c, s.find tag = some x ∧ x.body = .coil c ∧ x.state = .winding := by
  obtain ⟨x, kd, ex, hb, -, hbinds, -⟩ := B.named h .segment tag hn
  obtain ⟨c, hc⟩ := Record.body_of_coil (of_decide_eq_true (Bool.and_eq_true_iff.mp hbinds).2)
  exact ⟨x, c, ex, hc, (B.tied tag x ex).held h .segment hb⟩

/-- What a coiler that gives up its rope leaves of it, `b'` being the fields after and `n` the length it takes off the end (R72). -/
structure State.GaveUp (h : HeadIx) (r : Record) (b b' : RopeBody) (n : Nat) (s t : State) : Prop where
  rope : ∃ r', t.find r.tag = some r' ∧ r'.body = .rope b' ∧ r'.bound = none ∧ r'.mark = r.mark + 1 ∧
    r'.state = if b.currentEnd = n then .spent else .made
  flaw : s.FlawLeaves h (s.head h) r b (s.unwindPosition h) b'.piece.spans t
  coil : b.currentEnd = n → t.flagged h .coil = true

theorem State.GivesUp.gaveUp (S : s.StoreOk) (B : s.BindingsOk) (hs : s.sourceOf h = some (r, b))
    (F : s.FlawsRope h r b l (s.flawAtLeaving h (s.unwindPosition h))) (ez : (s.flawAtLeaving h (s.unwindPosition h)).find r.tag = some z)
    (hz : z.body = .rope { b with piece := { b.piece with spans := l } })
    (C : (s.flawAtLeaving h (s.unwindPosition h)).CutsShort h z b₁ u) (U : u.GivesUp h z b₁ w) (T : s.HeadFreed h w t)
    (hend : b₁.currentEnd = b.currentEnd - n) (hn : n ≤ b.currentEnd) (hspans : b₁.piece.spans = l) : s.GaveUp h r b b₁ n t := by
  obtain ⟨er, hb⟩ := State.sourceOf_find hs
  obtain ⟨hin, -⟩ := B.source_state hs
  obtain ⟨-, hztag⟩ := State.find_mem ez
  obtain ⟨hnotices, hclock⟩ := State.flawAtLeaving_rest S h (s.unwindPosition h)
  obtain ⟨rise, hhead⟩ := F.heads h
  have hgone : b₁.currentEnd = 0 ↔ b.currentEnd = n := by omega
  have hfind := U.rope
  rw [hztag] at hfind
  have hstep := State.change_state (f := fun _ => w) er hfind (by
    rw [hin]
    dsimp only
    split <;> nofun)
  have L : s.Leaves h r.tag (s.flawAtLeaving h (s.unwindPosition h)) w t := by
    refine ⟨fun j hj hn => ?_, ?_, T.store, C.rest.notices.trans (U.rest.notices.trans T.notices)⟩
    · rw [U.records j (by rw [hztag]; exact hj), C.records j (by rw [hztag]; exact hj)]
      rw [hhead]
      exact hn
    · rw [U.rest.clock, C.rest.clock, hclock]
  have P : s.Prepares h r.tag s := .of_store rfl (fun _ _ => rfl) rfl
  refine ⟨⟨_, (State.find_of_store T.store r.tag).trans hstep, rfl, rfl, rfl, if_congr hgone rfl rfl⟩, ?_, fun he => ?_⟩
  · rw [hspans]
    exact P.flawLeaves S B (fun _ _ _ _ _ => rfl) er (by rw [Record.kind, hb]; rfl) hs rfl rfl rfl rfl L (State.spansOf_rope ez hz)
  · exact T.notices.flags _ (U.coil (hgone.mpr he))

theorem State.endSegment_eq (hs : s.sourceOf h = some (r, b)) (F : s.FlawsRope h r b l (s.flawAtLeaving h (s.unwindPosition h)))
    (ez : (s.flawAtLeaving h (s.unwindPosition h)).find r.tag = some z)
    (hz : z.body = .rope { b with piece := { b.piece with spans := l } }) :
    s.endSegment h = ((s.flawAtLeaving h (s.unwindPosition h)).cutShort h z.tag b.currentEnd).giveUpRope h := by
  obtain ⟨hsource, -⟩ := State.sourceOf_source hs
  obtain ⟨rise, hhead⟩ := F.heads h
  have hsf : (s.flawAtLeaving h (s.unwindPosition h)).sourceOf h = some (z, { b with piece := { b.piece with spans := l } }) := by
    rw [State.sourceOf, hhead, hsource, Option.bind_some, ez, Option.bind_some, hz]
  unfold State.endSegment
  dsimp only
  rw [hsf]
  rfl

/-- A coiler in a running state gives up its rope: FLAW has passed in `f`, where the rope is `z` with the spans `l`, and in `t` the head is
free (R72, R75, R161). -/
structure State.LeavesRope (h : HeadIx) (r : Record) (b : RopeBody) (z : Record) (l : List Span) (s f t : State) : Prop where
  flaws : s.FlawsRope h r b l f
  leaving : f = s.flawAtLeaving h (s.unwindPosition h)
  rope : f.find z.tag = some z
  tag : z.tag = r.tag
  body : z.body = .rope { b with piece := { b.piece with spans := l } }
  state : z.state = .inUse
  freed : s.HeadFreed h ((f.cutShort h z.tag b.currentEnd).giveUpRope h) t

theorem exec_leavesRope (S : s.StoreOk) (B : s.BindingsOk) (hk : (s.head h).kind = some .coiler) (hr : (s.head h).state.running = true)
    (hs : s.sourceOf h = some (r, b))
    (hway : (i = .senseSettled h ∧ (s.head h).settle = 64 ∧ senseResult (s.head h).candidate ≠ (s.head h).accepted) ∨
      (∃ p body, i = .release p h.val ∧ s.Asks p i body ∧ s.mayRelease p h.val = true)) :
    ∃ t z l f, exec i s = .next t ∧ s.LeavesRope h r b z l f t := by
  obtain ⟨t, hexec, T⟩ := exec_freed hk hr hway
  obtain ⟨l, F⟩ := State.flawAtLeaving_flaws S hs (s.unwindPosition h)
  obtain ⟨z, ez, hz, hstate⟩ := F.rope
  obtain ⟨hin, -⟩ := B.source_state hs
  obtain ⟨-, htag⟩ := State.find_mem ez
  rw [State.endSegment_eq hs F ez hz] at T
  exact ⟨t, z, l, _, hexec, F, rfl, by rw [htag]; exact ez, htag, hz, hstate.trans hin, T⟩

theorem State.LeavesRope.givesUp (H : s.LeavesRope h r b z l f t) (hs : s.sourceOf h = some (r, b))
    (C : f.CutsShort h z b₁ (f.cutShort h z.tag b.currentEnd)) :
    (f.cutShort h z.tag b.currentEnd).GivesUp h z b₁ ((f.cutShort h z.tag b.currentEnd).giveUpRope h) := by
  obtain ⟨hsource, -⟩ := State.sourceOf_source hs
  obtain ⟨rise, hhead⟩ := H.flaws.heads h
  refine C.givesUp ?_ (by rw [H.state]; nofun)
  rw [hhead, H.tag]
  exact hsource

theorem State.LeavesRope.gaveUp (H : s.LeavesRope h r b z l f t) (S : s.StoreOk) (B : s.BindingsOk) (hs : s.sourceOf h = some (r, b))
    (C : f.CutsShort h z b₁ (f.cutShort h z.tag b.currentEnd)) (hend : b₁.currentEnd = b.currentEnd - n) (hn : n ≤ b.currentEnd)
    (hspans : b₁.piece.spans = l) : s.GaveUp h r b b₁ n t := by
  have U := H.givesUp hs C
  obtain ⟨F, rfl, ez, htag, hz, -, T⟩ := H
  exact U.gaveUp S B hs F (by rw [← htag]; exact ez) hz C T hend hn hspans

/-- What the segment's end raised stays raised. -/
theorem State.LeavesRope.notices (H : s.LeavesRope h r b z l f t) (hs : s.sourceOf h = some (r, b))
    (C : f.CutsShort h z b₁ (f.cutShort h z.tag b.currentEnd)) : (f.cutShort h z.tag b.currentEnd).KeepsNotices t :=
  (H.givesUp hs C).rest.notices.trans H.freed.notices

theorem State.LeavesRope.find_coil (H : s.LeavesRope h r b z l f t) (hs : s.sourceOf h = some (r, b))
    (C : f.CutsShort h z b₁ (f.cutShort h z.tag b.currentEnd)) (ex : s.find tag = some x) (hne : tag ≠ r.tag) (hst : x.state = .winding)
    (ey : (f.cutShort h z.tag b.currentEnd).find tag = some (y.windTo d)) :
    ∃ x', t.find tag = some x' ∧ x'.state = .wound ∧ x'.bound = none ∧ x'.mark = x.mark + 1 ∧ x'.body = .coil d := by
  have ew := ((H.givesUp hs C).records tag (by rw [H.tag]; exact hne)).trans ey
  have hstep := State.change_state (f := fun _ => (f.cutShort h z.tag b.currentEnd).giveUpRope h) ex ew (by rw [hst]; nofun)
  exact ⟨_, (State.find_of_store H.freed.store tag).trans hstep, rfl, rfl, rfl, rfl⟩

end Sys2Proof.Machine
end

section
/-! PROOF. The three ends of a segment, and what a coiler that gives up its rope leaves (O18). -/

namespace Sys2Proof.Machine

variable {g h k : HeadIx} {s t u w f : State} {r x y z : Record} {b b₁ b' : RopeBody} {c d : CoilBody} {j tag n e actual rope p : Nat} {l : List Span}
  {sg : Segment} {gr : Grade} {i : Instr}

theorem State.LeavesRope.head (H : s.LeavesRope h r b z l f t) : ∃ rise, f.head h = { s.head h with flawRise := rise } := H.flaws.heads h

theorem State.LeavesRope.segment (H : s.LeavesRope h r b z l f t) : (f.head h).segment = (s.head h).segment := by
  obtain ⟨rise, hhead⟩ := H.head
  rw [hhead]

theorem State.LeavesRope.unplanned (H : s.LeavesRope h r b z l f t) : (f.head h).unplanned = (s.head h).unplanned := by
  obtain ⟨rise, hhead⟩ := H.head
  rw [hhead]

/-- The coil of a segment cut short, in `t` as `x'` with the fields `d` (R72, R100, R162). -/
structure State.WoundShort (h : HeadIx) (r : Record) (e n : Nat) (spans l : List Span) (x : Record) (c : CoilBody) (s t : State) (x' : Record)
    (d : CoilBody) : Prop where
  record : t.find x.tag = some x'
  state : x'.state = .wound
  bound : x'.bound = none
  mark : x'.mark = x.mark + 1
  body : x'.body = .coil d
  range : d.lo = e - n ∧ d.hi = e
  planned : d.planned = c.planned
  short : d.short = true
  grade : d.grade = .second ↔ c.grade = .second ∨ meetsList (e - n) e l = true ∨
    (l ≠ spans ∧ c.belongs = true ∧ c.sourceRope = r.tag ∧ meetsList (s.judgedRange x c).1 (s.judgedRange x c).2 l = true)
  notes : c.grade ≠ d.grade → c.origin = h → t.NotesDowngrade h

theorem State.LeavesRope.coil (H : s.LeavesRope h r b z l f t) (S : s.StoreOk) (B : s.BindingsOk) (hs : s.sourceOf h = some (r, b))
    (hseg : (s.head h).segment = some sg) (hcoil : sg.coil = some x.tag) (ex : s.find x.tag = some x) (hx : x.body = .coil c)
    (hst : x.state = .winding) : ∃ b', s.GaveUp h r b b' (min sg.unwound b.currentEnd) t ∧ b'.piece.made = b.piece.made ∧
      t.flagged h .coil = true ∧ b'.packed = b.packed + min sg.unwound b.currentEnd ∧ b'.waste = b.waste ∧
      ∃ x' d, State.WoundShort h r b.currentEnd (min sg.unwound b.currentEnd) b.piece.spans b'.piece.spans x c s t x' d := by
  obtain ⟨er, hb⟩ := State.sourceOf_find hs
  have hne : x.tag ≠ r.tag := fun e => by
    rw [e, er] at ex
    cases ex
    cases hb.symm.trans hx
  obtain ⟨gr, R⟩ := (H.flaws.coils x c ex hx).regraded hx (.inl hst)
  rw [State.spansOf_rope er hb] at R
  have hspans : f.spansOf z.tag = l := State.spansOf_rope H.rope H.body
  obtain ⟨C, hflag, ey, hdown⟩ := State.cutShort_coil (e := b.currentEnd) (H.segment.trans hseg) hcoil H.rope H.body R.record rfl
  have N := H.notices hs C
  obtain ⟨x', ex', hst', hbound, hmark, hbody⟩ := H.find_coil hs C ex hne hst ey
  refine ⟨_, H.gaveUp S B hs C (RopeBody.packs_currentEnd _ _) (Nat.min_le_right ..) rfl, rfl, N.flags _ hflag, rfl, rfl, x', _,
    ⟨ex', hst', hbound, hmark, hbody, ⟨rfl, rfl⟩, rfl, Bool.or_true _, ?_, fun hgrade ho => ?_⟩⟩
  · have hgrade : (f.woundAs z.tag b.currentEnd (min sg.unwound b.currentEnd) true { c with grade := gr }).grade =
        if meetsList (b.currentEnd - min sg.unwound b.currentEnd) b.currentEnd l = true then .second else gr := by
      rw [State.woundAs, hspans]
      rfl
    have hiff := R.grade
    rw [hgrade]
    split
    next hm => exact ⟨fun _ => .inr (.inl hm), fun _ => rfl⟩
    next hm =>
      rw [hiff]
      exact or_congr_right ⟨.inr, fun hor => hor.resolve_left hm⟩
  · by_cases hgr : c.grade = gr
    · exact N.downgrade (hdown (hgr ▸ hgrade))
    · have M : f.KeepsNotices (f.cutShort h z.tag b.currentEnd) := C.rest.notices
      exact N.downgrade (M.downgrade (ho ▸ R.notes hgr))

theorem State.LeavesRope.waste (H : s.LeavesRope h r b z l f t) (S : s.StoreOk) (B : s.BindingsOk) (hs : s.sourceOf h = some (r, b))
    (hseg : (s.head h).segment = some sg) (hcoil : sg.coil = none) : ∃ b', s.GaveUp h r b b' (min sg.unwound b.currentEnd) t ∧
      b'.piece.made = b.piece.made ∧ t.flagged h .coil = true ∧ b'.packed = b.packed ∧ b'.waste = b.waste + min sg.unwound b.currentEnd := by
  obtain ⟨C, hflag⟩ := State.cutShort_waste (e := b.currentEnd) (H.segment.trans hseg) hcoil H.rope H.body
  exact ⟨_, H.gaveUp S B hs C (RopeBody.wastes_currentEnd _ _) (Nat.min_le_right ..) rfl, rfl, (H.notices hs C).flags _ hflag, rfl, rfl⟩

theorem State.LeavesRope.none (H : s.LeavesRope h r b z l f t) (S : s.StoreOk) (B : s.BindingsOk) (hs : s.sourceOf h = some (r, b))
    (hseg : (s.head h).segment = none) : ∃ b', s.GaveUp h r b b' (min (s.head h).unplanned b.currentEnd) t ∧ b'.piece.made = b.piece.made ∧
      b'.packed = b.packed ∧ b'.waste = b.waste + min (s.head h).unplanned b.currentEnd ∧
      (0 < (s.head h).unplanned → t.flagged h .coil = true) := by
  obtain ⟨C, hflag⟩ := State.cutShort_none (e := b.currentEnd) (H.segment.trans hseg) H.rope H.body
  rw [H.unplanned] at C hflag
  exact ⟨_, H.gaveUp S B hs C (RopeBody.wastes_currentEnd _ _) (Nat.min_le_right ..) rfl, rfl, rfl, rfl,
    fun hu => (H.notices hs C).flags _ (hflag hu)⟩

/-- Settles O18: the segment ends by one of three ways, and what the rope then holds decides whether it is SPENT. -/
theorem coilerGivesUpRope : Obligations.CoilerGivesUpRope := by
  unfold Obligations.CoilerGivesUpRope
  intro h s r b i S B hk hr hs hway e actual
  obtain ⟨t, z, l, f, hexec, H⟩ := exec_leavesRope S B hk hr hs hway
  obtain ⟨-, -, hseg, hunplanned, hrise, hsource⟩ := H.freed
  cases hsegment : (s.head h).segment with
  | none =>
    have hactual : actual = min (s.head h).unplanned e := by simp only [actual, hsegment]
    obtain ⟨b', ⟨⟨r', er', hb', hbound, hmark, hst⟩, hflaw, hcoil⟩, hmade, hpacked, hwaste, hflag⟩ := H.none S B hs hsegment
    rw [hactual]
    exact ⟨t, r', b', hexec, hseg, hunplanned, hrise, hsource, er', hb', hbound, hmark, hst, hmade, hflaw, hcoil,
      fun _ _ _ _ hg => absurd hg (Option.some_ne_none _).symm, fun _ hg => absurd hg (Option.some_ne_none _).symm,
      fun _ => ⟨hpacked, hwaste, hflag⟩⟩
  | some sg =>
    have hactual : actual = min sg.unwound e := by simp only [actual, hsegment]
    rw [hactual]
    cases hcoil : sg.coil with
    | none =>
      obtain ⟨b', ⟨⟨r', er', hb', hbound, hmark, hst⟩, hflaw, hgone⟩, hmade, hflag, hpacked, hwaste⟩ := H.waste S B hs hsegment hcoil
      refine ⟨t, r', b', hexec, hseg, hunplanned, hrise, hsource, er', hb', hbound, hmark, hst, hmade, hflaw, hgone, fun g tag x c hg ht => ?_,
        fun _ _ _ => ⟨hflag, hpacked, hwaste⟩, fun hg => absurd hg (Option.some_ne_none _)⟩
      cases hg
      cases hcoil.symm.trans ht
    | some tag =>
      obtain ⟨x, c, ex, hx, hwinding⟩ := B.segment_coil (h := h) (tag := tag) (by rw [Head.named, hsegment]; exact hcoil)
      obtain ⟨-, htag⟩ := State.find_mem ex
      subst htag
      obtain ⟨b', ⟨⟨r', er', hb', hbound, hmark, hst⟩, hflaw, hgone⟩, hmade, hflag, hpacked, hwaste, x', d, W⟩ :=
        H.coil S B hs hsegment hcoil ex hx hwinding
      refine ⟨t, r', b', hexec, hseg, hunplanned, hrise, hsource, er', hb', hbound, hmark, hst, hmade, hflaw, hgone, fun g j y c' hg ht ey hy => ?_,
        fun g hg hn => ?_, fun hg => absurd hg (Option.some_ne_none _)⟩
      · cases hg
        cases hcoil.symm.trans ht
        cases ex.symm.trans ey
        cases hx.symm.trans hy
        obtain ⟨hlo, hhi⟩ := W.range
        exact ⟨hflag, hpacked, hwaste, x', d, W.record, W.state, W.bound, W.mark, W.body, hlo, hhi, W.planned, W.short, W.grade, W.notes⟩
      · cases hg
        cases hcoil.symm.trans hn

end Sys2Proof.Machine
end
